-- ==== Sys2Proof/Word.lean ====
section
/-! DEFINITION. Word types and the plainest arithmetic on them (spec/00_scope.md R8, R12). -/

namespace Sys2Proof

/-- A 64-bit register value (08_sequencer_core.md R138). -/
abbrev Word := BitVec 64

/-- A byte of memory. -/
abbrev Byte := BitVec 8

/-- Name of one of g0 to g31 or f0 to f31 (R105). -/
abbrev Reg := BitVec 5

/-- Region id, die × 16 + index (R167). -/
abbrev RegionId := BitVec 6

/-- Compute die (R15). -/
abbrev DieId := BitVec 2

/-- Partition number (R25). -/
abbrev PartId := BitVec 4

end Sys2Proof
end

