-- ==== Sys2Proof/Syntax.lean ====
section
/-!
DEFINITION. The instructions: one constructor of `Instr` for each row of spec/opcode_table.json: core instructions, nodes, events.
Core instructions carry the fields of their 32-bit words (06_encoding.md R104 to R111); node firings carry the fields of
their 128-bit node words (R112 to R118) and run at the state's `site`; the machine's events carry what the outside world
or the arbiter supplies (log 1).
-/

namespace Sys2Proof

/-- FP formats of the scalar cores (Table 6-3). -/
inductive FFmt where | d | s | h | b
deriving DecidableEq, Repr

/-- Rounding modes of an instruction word (Table 3-4; `dyn` reads FCSR.RM, R50). -/
inductive RMode where | rne | rtz | rdn | rup | rna | dyn
deriving DecidableEq, Repr

/-- Variants of FSGN (Table 6-4). -/
inductive SgnVar where | j | n | x
deriving DecidableEq, Repr

/-- Variants of FCMP (Table 6-4). -/
inductive CmpVar where | eq | lt | le | un
deriving DecidableEq, Repr

/-- Conversion types of FCVT (Table 6-5). -/
inductive CvtTy where | d | s | h | b | w | wu | l | lu
deriving DecidableEq, Repr

/-- Ordering of an atomic (Table 6-6). -/
inductive Order where | plain | aq | rl | ar
deriving DecidableEq, Repr

/-- Scope of a FENCE (Table 8-8). -/
inductive Scope where | core | die | device | system
deriving DecidableEq, Repr

/-- Privilege levels (R138). -/
inductive Level where | u | s | h
deriving DecidableEq, Repr

/-- Kinds of translated access (R83). -/
inductive Access where | read | write | fetch
deriving DecidableEq, Repr

/-- A core: SQ core die × 16 + index, or SY core (R23). -/
inductive CoreId where | sq (n : BitVec 6) | sy (n : BitVec 4)
deriving DecidableEq, Repr

/-- Link directions, in the order N, E, S, W of R35. -/
inductive Dir where | n | e | s | w
deriving DecidableEq, Repr

/-- Fields of a 128-bit node word but OPC (Table 6-9). -/
structure NodeFields where
  fmt : BitVec 5
  var : BitVec 3
  flags : BitVec 8
  ka : BitVec 2
  kb : BitVec 2
  kc : BitVec 2
  arity : BitVec 2
  imm : BitVec 32
  route0 : BitVec 32
  route1 : BitVec 32
deriving DecidableEq, Repr

/-- A tile of a region, by region-relative coordinates (R26). -/
structure TileAt where
  r : RegionId
  row : BitVec 5
  col : BitVec 6
deriving DecidableEq, Repr

/-- A node of a region and the activation it fires for (R34). -/
structure Site where
  r : RegionId
  row : BitVec 5
  col : BitVec 6
  slot : BitVec 6
  ctx : BitVec 12
  iter : BitVec 16
deriving DecidableEq, Repr

/-- Where a moving token stands: the earliest departure of a node's output queue on one of its routes, or the head of a
link input queue (R20, R35). -/
inductive TokSrc where
  | out (row : BitVec 5) (col : BitVec 6) (slot : BitVec 6) (route : Bool)
  | link (row : BitVec 5) (col : BitVec 6) (d : Dir)
deriving DecidableEq, Repr

/-- Soft errors of a token's move, as bits to flip (R347): while it stood in the output or link input queue that it leaves, on the
first send, on the second, and while it then waits in a matching store or the Sprue area. Bits 655 to 0 are descriptor, tag, scale
lane and payload, bits 663 to 656 the parity bits (R21). -/
structure Flips where
  queue : BitVec 664
  first : BitVec 664
  second : BitVec 664
  store : BitVec 664
deriving DecidableEq, Repr

/-- No soft error. -/
def Flips.clean : Flips := ⟨0, 0, 0, 0⟩

/-- A tile whose next array command executes, with the bits of its command word that the array queue has flipped (R230, R347). -/
structure CmdAt extends TileAt where
  flips : BitVec 664
deriving DecidableEq, Repr

/-- A stream command that moves its next unit, with the bits flipped of a token that it delivers (R176, R347). -/
structure StreamAt where
  op : Nat
  par : Flips
deriving DecidableEq, Repr

/-- An agent that caches lines or translations (R80, R86); `hub` stands for the engines of the hub. -/
inductive Agent where
  | coreD (c : CoreId)
  | coreI (c : CoreId)
  | cluster (d : DieId) (k : BitVec 7)
  | fused (r : RegionId)
  | hub
deriving DecidableEq, Repr

/-- Requests to a home slice (Table 5-7), and a recall that home sends and the agent has not answered (R92). -/
inductive HomeKind where | read | write | evict | capacity | recall
deriving DecidableEq, Repr

/-- A request with its partition id and the sender's incarnation (R81, R92). -/
structure HomeReq where
  kind : HomeKind
  part : PartId
  incarnation : BitVec 16
deriving DecidableEq, Repr

/-- A host request to a virtual function's BAR (R395, R396): whether it came over the IDE stream, its offset, and either
a byte count to read or the bytes to write. -/
structure HostReq where
  ide : Bool
  write : Bool
  off : BitVec 16
  len : BitVec 12
  data : List Byte
deriving DecidableEq, Repr

/-- TDISP messages of a virtual function's interface (R395, R397; log 20). -/
inductive TdispMsg where | lock | start | stop | fillKey (slot : BitVec 4) (root : List Byte) | getState
deriving DecidableEq, Repr

/-- The function an SPDM request reaches: the physical function or a virtual one (R397). -/
inductive SpdmFn where | pf | vf (p : PartId)
deriving DecidableEq, Repr

/-- Keys that KEY_UPDATE renews: a session's, or a link direction's for a pair of partitions (R397, R404). -/
inductive KeyTarget where
  | session (fn : SpdmFn)
  | link (l : BitVec 4) (src dst : PartId)
deriving DecidableEq, Repr

/-- Whose access a response flit answers (R405): a core's, a collective's, or another's (an engine, a node, the RC). -/
inductive Answers where | core (c : CoreId) | coll | other
deriving DecidableEq, Repr

/-- A flit as received (Table 26-2): its plaintext, whose access it answers when it is a response, and the outcomes of its LCRC and
ATAG checks. -/
structure Flit where
  seq : BitVec 48
  src : PartId
  dst : PartId
  typ : BitVec 8
  body : List Byte
  answers : Answers
  lcrcOk : Bool
  atagOk : Bool
deriving DecidableEq, Repr

/-- What the ring of a collective has come to (R183, R407): its flits flow, a link has failed, or a member's windows do not reach its
neighbour. -/
inductive RingNews where | flows | down | broken
deriving DecidableEq, Repr

/-- A DMA request of the storage device (R394). -/
structure DmaReq where
  write : Bool
  pa : BitVec 48
  len : BitVec 12
  data : List Byte
deriving DecidableEq, Repr

/-- What the partition monitor fixes when it creates a partition (R24, R372, R402): the cores, the frame grant as ranges
(first PA, bytes), the page-table root, the rule engine's CSU, the image entry, and whether the system image verified. -/
structure PartCfg where
  sqs : BitVec 64
  sys : BitVec 16
  grant : List (BitVec 48 × BitVec 48)
  /-- Its pseudo-channel groups (Table 24-4). -/
  groups : BitVec 256
  ptroot : Word
  rmcfg : Word
  entry : Word
  verified : Bool
deriving DecidableEq, Repr

/-- The instructions and events, one for each row of the opcode table. -/
inductive Instr where
  /-- ADD (R142). -/
  | add (d a b : Reg)
  /-- SUB (R142). -/
  | sub (d a b : Reg)
  /-- AND (R142). -/
  | and (d a b : Reg)
  /-- OR (R142). -/
  | or (d a b : Reg)
  /-- XOR (R142). -/
  | xor (d a b : Reg)
  /-- SLL (R142). -/
  | sll (d a b : Reg)
  /-- SRL (R142). -/
  | srl (d a b : Reg)
  /-- SRA (R142). -/
  | sra (d a b : Reg)
  /-- SLT (R142). -/
  | slt (d a b : Reg)
  /-- SLTU (R142). -/
  | sltu (d a b : Reg)
  /-- MIN (R142). -/
  | min (d a b : Reg)
  /-- MAX (R142). -/
  | max (d a b : Reg)
  /-- MUL (R142). -/
  | mul (d a b : Reg)
  /-- MULH (R142). -/
  | mulh (d a b : Reg)
  /-- MULHU (R142). -/
  | mulhu (d a b : Reg)
  /-- DIV (R143). -/
  | div (d a b : Reg)
  /-- DIVU (R143). -/
  | divu (d a b : Reg)
  /-- REM (R143). -/
  | rem (d a b : Reg)
  /-- REMU (R143). -/
  | remu (d a b : Reg)
  /-- CLZ (R142). -/
  | clz (d a : Reg)
  /-- POPC (R142). -/
  | popc (d a : Reg)
  /-- ADDI (R144). -/
  | addi (d a : Reg) (imm : BitVec 16)
  /-- ANDI (R144). -/
  | andi (d a : Reg) (imm : BitVec 16)
  /-- ORI (R144). -/
  | ori (d a : Reg) (imm : BitVec 16)
  /-- XORI (R144). -/
  | xori (d a : Reg) (imm : BitVec 16)
  /-- SLTI (R144). -/
  | slti (d a : Reg) (imm : BitVec 16)
  /-- LUI (R144). -/
  | lui (d : Reg) (imm : BitVec 16)
  /-- SLLI (R144). -/
  | slli (d a : Reg) (n : BitVec 6)
  /-- SRLI (R144). -/
  | srli (d a : Reg) (n : BitVec 6)
  /-- SRAI (R144). -/
  | srai (d a : Reg) (n : BitVec 6)
  /-- LD (R149). -/
  | ld (d a : Reg) (off : BitVec 16)
  /-- SD (R149). -/
  | sd (d a : Reg) (off : BitVec 16)
  /-- LB (R149). -/
  | lb (d a : Reg) (off : BitVec 12)
  /-- LBU (R149). -/
  | lbu (d a : Reg) (off : BitVec 12)
  /-- LH (R149). -/
  | lh (d a : Reg) (off : BitVec 12)
  /-- LHU (R149). -/
  | lhu (d a : Reg) (off : BitVec 12)
  /-- LW (R149). -/
  | lw (d a : Reg) (off : BitVec 12)
  /-- LWU (R149). -/
  | lwu (d a : Reg) (off : BitVec 12)
  /-- SB (R149). -/
  | sb (d a : Reg) (off : BitVec 12)
  /-- SH (R149). -/
  | sh (d a : Reg) (off : BitVec 12)
  /-- SW (R149). -/
  | sw (d a : Reg) (off : BitVec 12)
  /-- FLW (R152). -/
  | flw (d a : Reg) (off : BitVec 12)
  /-- FLD (R152). -/
  | fld (d a : Reg) (off : BitVec 12)
  /-- FSW (R152). -/
  | fsw (d a : Reg) (off : BitVec 12)
  /-- FSD (R152). -/
  | fsd (d a : Reg) (off : BitVec 12)
  /-- FLDT (R153). -/
  | fldt (d a : Reg) (f : FFmt) (off : BitVec 12)
  /-- FSDT (R153). -/
  | fsdt (d a : Reg) (off : BitVec 12)
  /-- LDA (R151). -/
  | lda (d a : Reg) (off : BitVec 12)
  /-- STL (R151). -/
  | stl (d a : Reg) (off : BitVec 12)
  /-- FADD (R154). -/
  | fadd (d a b : Reg) (rm : RMode) (f : FFmt)
  /-- FSUB (R154). -/
  | fsub (d a b : Reg) (rm : RMode) (f : FFmt)
  /-- FMUL (R155). -/
  | fmul (d a b : Reg) (rm : RMode) (f : FFmt)
  /-- FDIV (R155). -/
  | fdiv (d a b : Reg) (rm : RMode) (f : FFmt)
  /-- FSQRT (R155). -/
  | fsqrt (d a : Reg) (rm : RMode) (f : FFmt)
  /-- FMIN (R155). -/
  | fmin (d a b : Reg) (f : FFmt)
  /-- FMAX (R155). -/
  | fmax (d a b : Reg) (f : FFmt)
  /-- FSGN (R155). -/
  | fsgn (d a b : Reg) (v : SgnVar) (f : FFmt)
  /-- FCMP (R155). -/
  | fcmp (d a b : Reg) (v : CmpVar) (f : FFmt)
  /-- FRND (R155). -/
  | frnd (d a : Reg) (rm : RMode) (f : FFmt)
  /-- FMA (R155). -/
  | fma (d a b c : Reg) (rm : RMode) (f : FFmt)
  /-- FMS (R155). -/
  | fms (d a b c : Reg) (rm : RMode) (f : FFmt)
  /-- FCVT (R156). -/
  | fcvt (d a : Reg) (src dst : CvtTy) (rm : RMode)
  /-- FMVG (R157). -/
  | fmvg (d a : Reg) (f : FFmt)
  /-- FMVF (R157). -/
  | fmvf (d a : Reg) (f : FFmt)
  /-- FSIG (R157). -/
  | fsig (d a : Reg) (f : FFmt)
  /-- FSIGSET (R157). -/
  | fsigset (d a : Reg) (f : FFmt)
  /-- BSIG (R147). -/
  | bsig (f : Reg) (thr : BitVec 7) (off : BitVec 14)
  /-- BEQ (R145). -/
  | beq (a b : Reg) (off : BitVec 16)
  /-- BNE (R145). -/
  | bne (a b : Reg) (off : BitVec 16)
  /-- BLT (R145). -/
  | blt (a b : Reg) (off : BitVec 16)
  /-- BGE (R145). -/
  | bge (a b : Reg) (off : BitVec 16)
  /-- BLTU (R145). -/
  | bltu (a b : Reg) (off : BitVec 16)
  /-- BGEU (R145). -/
  | bgeu (a b : Reg) (off : BitVec 16)
  /-- JAL (R146). -/
  | jal (off : BitVec 26)
  /-- JALR (R146). -/
  | jalr (d a : Reg) (imm : BitVec 16)
  /-- AMOADD (R158). -/
  | amoadd (d a b : Reg) (w : Bool) (ord : Order)
  /-- AMOSWAP (R158). -/
  | amoswap (d a b : Reg) (w : Bool) (ord : Order)
  /-- AMOMIN (R158). -/
  | amomin (d a b : Reg) (u w : Bool) (ord : Order)
  /-- AMOMAX (R158). -/
  | amomax (d a b : Reg) (u w : Bool) (ord : Order)
  /-- AMOCAS (R158). -/
  | amocas (d a b : Reg) (w : Bool) (ord : Order)
  /-- MWCAS (R159). -/
  | mwcas (d a : Reg)
  /-- FENCE (R161). -/
  | fence (s : Scope)
  /-- REQR (R168). -/
  | reqr (d a b : Reg)
  /-- RQRY (R169). -/
  | rqry (d a : Reg)
  /-- LOADIMG (R170). -/
  | loadimg (d a : Reg)
  /-- LAUNCH (R171). -/
  | launch (d a b e : Reg)
  /-- KILLR (R172). -/
  | killr (d a : Reg)
  /-- PREEMPT_KILL (R173). -/
  | preemptKill (d a b : Reg)
  /-- PREEMPT_SNAPSHOT (R173). -/
  | preemptSnapshot (d a b : Reg)
  /-- RESUMR (R174). -/
  | resumr (d a b : Reg)
  /-- STRM (R175). -/
  | strm (d a b e : Reg)
  /-- SBAR (R178). -/
  | sbar (d a : Reg)
  /-- COPY (R179). -/
  | copy (d a b e : Reg)
  /-- CMPCT (R180). -/
  | cmpct (d a : Reg)
  /-- PUBLISH (R181). -/
  | publish (d a : Reg)
  /-- MIGRATE (R182). -/
  | migrate (d a b : Reg)
  /-- COLL (R183). -/
  | coll (d a b : Reg)
  /-- WAITW (R185). -/
  | waitw (d a b : Reg)
  /-- ASSERT (R187). -/
  | assert (d a : Reg)
  /-- RETRACT (R187). -/
  | retract (a : Reg)
  /-- MODIFY (R187). -/
  | modify (d a b : Reg)
  /-- SETTLE (R188). -/
  | settle (d : Reg)
  /-- SELECT (R189). -/
  | select (d a b : Reg)
  /-- FIRED (R190). -/
  | fired (a : Reg)
  /-- WAVE (R325). -/
  | wave
  /-- SCORECLR (R191). -/
  | scoreclr (a : Reg)
  /-- TRAP (R194). -/
  | trap (e : BitVec 5)
  /-- HVCALL (R194). -/
  | hvcall (e : BitVec 5)
  /-- BRK (R194). -/
  | brk (e : BitVec 5)
  /-- RETT (R195). -/
  | rett
  /-- SREAD (R196). -/
  | sread (d n m : Reg)
  /-- SWRITE (R196). -/
  | swrite (d n m : Reg)
  /-- TLBINV (R197). -/
  | tlbinv (a : Reg)
  /-- TLBSYNC (R197). -/
  | tlbsync
  /-- WFE (R198). -/
  | wfe
  /-- HALT (R199). -/
  | halt
  /-- REPLAY (R200). -/
  | replay (a : Reg)
  /-- FRES_SUPPLY (R200). -/
  | fresSupply (a b : Reg)
  /-- FRES_RETRY (R200). -/
  | fresRetry (a b : Reg)
  /-- FRES_KILL (R339). -/
  | fresKill (a b : Reg)
  /-- SQSTART (R199). -/
  | sqstart (d a b : Reg)
  /-- CACHEOP_CLEAN (R201). -/
  | cacheopClean (a : Reg)
  /-- CACHEOP_INVAL (R201). -/
  | cacheopInval (a : Reg)
  /-- CACHEOP_FLUSH (R201). -/
  | cacheopFlush (a : Reg)
  /-- CACHEOP_PFR (R201). -/
  | cacheopPfr (a : Reg)
  /-- CACHEOP_PFW (R201). -/
  | cacheopPfw (a : Reg)
  /-- CACHEOP_IINV (R201). -/
  | cacheopIinv (a : Reg)
  /-- VADD (R207). -/
  | vadd (n : NodeFields)
  /-- VSUB (R207). -/
  | vsub (n : NodeFields)
  /-- VMUL (R207). -/
  | vmul (n : NodeFields)
  /-- VFMA (R207). -/
  | vfma (n : NodeFields)
  /-- VMIN (R207). -/
  | vmin (n : NodeFields)
  /-- VMAX (R207). -/
  | vmax (n : NodeFields)
  /-- VABS (R207). -/
  | vabs (n : NodeFields)
  /-- VNEG (R207). -/
  | vneg (n : NodeFields)
  /-- VDIV (R207). -/
  | vdiv (n : NodeFields)
  /-- VSQRT (R207). -/
  | vsqrt (n : NodeFields)
  /-- VRSQ (R207). -/
  | vrsq (n : NodeFields)
  /-- VRCP (R207). -/
  | vrcp (n : NodeFields)
  /-- VEXP2 (R207). -/
  | vexp2 (n : NodeFields)
  /-- VLOG2 (R207). -/
  | vlog2 (n : NodeFields)
  /-- VTANH (R207). -/
  | vtanh (n : NodeFields)
  /-- VIADD (R208). -/
  | viadd (n : NodeFields)
  /-- VISUB (R208). -/
  | visub (n : NodeFields)
  /-- VIMUL (R208). -/
  | vimul (n : NodeFields)
  /-- VAND (R208). -/
  | vand (n : NodeFields)
  /-- VOR (R208). -/
  | vor (n : NodeFields)
  /-- VXOR (R208). -/
  | vxor (n : NodeFields)
  /-- VSHL (R208). -/
  | vshl (n : NodeFields)
  /-- VSHR (R208). -/
  | vshr (n : NodeFields)
  /-- VCMP (R209). -/
  | vcmp (n : NodeFields)
  /-- VSEL (R210). -/
  | vsel (n : NodeFields)
  /-- VRSUM (R211). -/
  | vrsum (n : NodeFields)
  /-- VRMAX (R211). -/
  | vrmax (n : NodeFields)
  /-- VRMIN (R211). -/
  | vrmin (n : NodeFields)
  /-- VARGMX (R213). -/
  | vargmx (n : NodeFields)
  /-- VSCAN (R214). -/
  | vscan (n : NodeFields)
  /-- VPERM (R215). -/
  | vperm (n : NodeFields)
  /-- VBCAST (R215). -/
  | vbcast (n : NodeFields)
  /-- VPOPC (R216). -/
  | vpopc (n : NodeFields)
  /-- VCVT (R218). -/
  | vcvt (n : NodeFields)
  /-- QZ (R220). -/
  | qz (n : NodeFields)
  /-- DQ (R218). -/
  | dq (n : NodeFields)
  /-- CV8 (R218). -/
  | cv8 (n : NodeFields)
  /-- BFLY (R223). -/
  | bfly (n : NodeFields)
  /-- VSIG (R224). -/
  | vsig (n : NodeFields)
  /-- SIGCHK (R225). -/
  | sigchk (n : NodeFields)
  /-- MXF (R234). -/
  | mxf (n : NodeFields)
  /-- MXCLM (R230). -/
  | mxclm (n : NodeFields)
  /-- MXREL (R230). -/
  | mxrel (n : NodeFields)
  /-- MXMUL (R230). -/
  | mxmul (n : NodeFields)
  /-- MXDRN (R230). -/
  | mxdrn (n : NodeFields)
  /-- MXZERO (R230). -/
  | mxzero (n : NodeFields)
  /-- MXREC (R230). -/
  | mxrec (n : NodeFields)
  /-- MXSIGM (R230). -/
  | mxsigm (n : NodeFields)
  /-- STEER (R246). -/
  | steer (n : NodeFields)
  /-- MERGE (R249). -/
  | merge (n : NodeFields)
  /-- REORD (R249). -/
  | reord (n : NodeFields)
  /-- LOOP (R252). -/
  | loop (n : NodeFields)
  /-- NEXT (R253). -/
  | next (n : NodeFields)
  /-- LEXIT (R253). -/
  | lexit (n : NodeFields)
  /-- CALL (R253). -/
  | call (n : NodeFields)
  /-- RET (R253). -/
  | ret (n : NodeFields)
  /-- CTR (R254). -/
  | ctr (n : NodeFields)
  /-- SLOOP (R255). -/
  | sloop (n : NodeFields)
  /-- ISECT (R256). -/
  | isect (n : NodeFields)
  /-- UNION (R256). -/
  | union (n : NodeFields)
  /-- STOPG (R257). -/
  | stopg (n : NodeFields)
  /-- DELAY (R258). -/
  | delay (n : NodeFields)
  /-- SINK (R260). -/
  | sink (n : NodeFields)
  /-- DUP (R259). -/
  | dup (n : NodeFields)
  /-- SWITCH (R247). -/
  | switch (n : NodeFields)
  /-- SELX (R248). -/
  | selx (n : NodeFields)
  /-- CJOIN (R263). -/
  | cjoin (n : NodeFields)
  /-- CLEAVE (R263). -/
  | cleave (n : NodeFields)
  /-- CBAR (R264). -/
  | cbar (n : NodeFields)
  /-- CNT (R261). -/
  | cnt (n : NodeFields)
  /-- CONST (R262). -/
  | const (n : NodeFields)
  /-- AGEN (R271). -/
  | agen (n : NodeFields)
  /-- LDN (R276). -/
  | ldn (n : NodeFields)
  /-- STN (R277). -/
  | stn (n : NodeFields)
  /-- LDX (R279). -/
  | ldx (n : NodeFields)
  /-- STX (R279). -/
  | stx (n : NodeFields)
  /-- ATOM (R281). -/
  | atom (n : NodeFields)
  /-- MCAS (R282). -/
  | mcas (n : NodeFields)
  /-- PREF (R283). -/
  | pref (n : NodeFields)
  /-- SPACC (R285). -/
  | spacc (n : NodeFields)
  /-- PARAM (R275). -/
  | param (n : NodeFields)
  /-- DELTA (R316). -/
  | delta (n : NodeFields)
  /-- ALPHA (R317). -/
  | alpha (n : NodeFields)
  /-- BJOIN (R319). -/
  | bjoin (n : NodeFields)
  /-- BNEG (R320). -/
  | bneg (n : NodeFields)
  /-- SCORE (R322). -/
  | score (n : NodeFields)
  /-- TERM (R323). -/
  | term (n : NodeFields)
  /-- INTERRUPT_TAKE (R192). -/
  | interruptTake (c : CoreId)
  /-- ILLEGAL_WORD (R111). -/
  | illegalWord (w : BitVec 32)
  /-- INSTRUCTION_FETCH_FAULT (R148). -/
  | instructionFetchFault (cause : BitVec 8) (tval : Word)
  /-- MXCLM_EXECUTE (R235). -/
  | mxclmExecute (t : CmdAt)
  /-- MXREL_EXECUTE (R235). -/
  | mxrelExecute (t : CmdAt)
  /-- MXMUL_EXECUTE (R236). -/
  | mxmulExecute (t : CmdAt)
  /-- MXZERO_EXECUTE (R238). -/
  | mxzeroExecute (t : CmdAt)
  /-- MXDRN_EXECUTE (R238). -/
  | mxdrnExecute (t : CmdAt)
  /-- MXSIGM_EXECUTE (R238). -/
  | mxsigmExecute (t : CmdAt)
  /-- MXREC_EXECUTE (R239). -/
  | mxrecExecute (t : CmdAt)
  /-- REORDER_DUE_EMIT (R249). -/
  | reorderDueEmit (n : Site)
  /-- LOOP_DONE_ABSORB (R252). -/
  | loopDoneAbsorb (r : RegionId) (src : TokSrc)
  /-- COUNTER_CHAIN_EMIT (R254). -/
  | counterChainEmit (n : Site)
  /-- DELAY_RELEASE (R258). -/
  | delayRelease (n : Site)
  /-- AGEN_EMIT (R271). -/
  | agenEmit (n : Site)
  /-- SPACC_FLUSH_EMIT (R285). -/
  | spaccFlushEmit (n : Site)
  /-- ACCESS_PERFORM (R288). -/
  | accessPerform (r : RegionId) (k : Nat)
  /-- SCORE_TIMEOUT (R322). -/
  | scoreTimeout (n : Site) (key : Word)
  /-- CSU_DELIVERY (R324). -/
  | csuDelivery (p : PartId) (k : Nat)
  /-- DELTA_SETTLED (R318). -/
  | deltaSettled (p : PartId) (n : BitVec 16)
  /-- TOKEN_HOP (R20). -/
  | tokenHop (r : RegionId) (src : TokSrc) (par : Flips)
  /-- TOKEN_DELIVER (R35). -/
  | tokenDeliver (r : RegionId) (src : TokSrc) (par : Flips)
  /-- SPRUE_REFILL (R36). -/
  | sprueRefill (r : RegionId) (k : Nat)
  /-- PARK_TABLE_RETRY (R333). -/
  | parkTableRetry (n : Site)
  /-- CONTEXT_RETURN (R30). -/
  | contextReturn (r : RegionId) (c : BitVec 12)
  /-- CTXWAIT_EXPIRY (R32). -/
  | ctxwaitExpiry (n : Site)
  /-- REGION_QUIESCENCE (R37). -/
  | regionQuiescence (r : RegionId)
  /-- HANG_TIMEOUT (R345). -/
  | hangTimeout (r : RegionId)
  /-- CFG_STORE_UE (R346). -/
  | cfgStoreUe (t : TileAt)
  /-- PFQ_DEFERRED_WRITE (R336). -/
  | pfqDeferredWrite (p : PartId)
  /-- HELD_ACCESS_RETRANSLATE (R338). -/
  | heldAccessRetranslate (r : RegionId) (k : Nat)
  /-- PAGE_WALK (R85). -/
  | pageWalk (g : Agent) (p : PartId) (va : Word) (acc : Access) (lvl : Level)
  /-- HOME_REQUEST (R90). -/
  | homeRequest (g : Agent) (line : Nat) (req : HomeReq)
  /-- DIRECTORY_MERGE (R91). -/
  | directoryMerge (base size : Nat)
  /-- RECALL_TIMEOUT (R92). -/
  | recallTimeout (g : Agent)
  /-- AGENT_DEATH (R92). -/
  | agentDeath (g : Agent)
  /-- CRUCIBLE_LOCK_GRANT (R100). -/
  | crucibleLockGrant (k : Nat)
  /-- MWCAS_COMMIT (R103). -/
  | mwcasCommit (k : Nat)
  /-- MIGRATION_SWITCH (R93). -/
  | migrationSwitch (k : Nat)
  /-- PUBLISH_FLIP (R97). -/
  | publishFlip (k : Nat)
  /-- TUNDISH_ADMISSION_ROUND (R368). -/
  | tundishAdmissionRound (d : DieId)
  /-- LOADIMG_COMPLETE (R127). -/
  | loadimgComplete (k : Nat)
  /-- LAUNCH_TAKE_EFFECT (R128). -/
  | launchTakeEffect (k : Nat)
  /-- LOAD_COMPLETE (R171). -/
  | loadComplete (k : Nat)
  /-- KILLR_COMPLETE (R172). -/
  | killrComplete (k : Nat)
  /-- SNAPSHOT_COMPLETE (R341). -/
  | snapshotComplete (k : Nat)
  /-- STREAM_ROUND_ACCESS (R176). -/
  | streamRoundAccess (k : StreamAt)
  /-- STRM_COMPLETE (R175). -/
  | strmComplete (k : Nat)
  /-- SBAR_COMPLETE (R178). -/
  | sbarComplete (k : Nat)
  /-- COPY_COMPLETE (R179). -/
  | copyComplete (k : Nat)
  /-- CMPCT_COMPLETE (R180). -/
  | cmpctComplete (k : Nat)
  /-- COLL_COMPLETE (R183). -/
  | collComplete (k : Nat) (peer : List Byte) (news : RingNews)
  /-- SETTLE_COMPLETE (R188). -/
  | settleComplete (k : Nat)
  /-- SELECT_BATCH (R327). -/
  | selectBatch (k : Nat)
  /-- TLBSYNC_COMPLETE (R87). -/
  | tlbsyncComplete (c : CoreId)
  /-- WAITW_WAKE (R185). -/
  | waitwWake (c : CoreId)
  /-- WFE_WAKE (R198). -/
  | wfeWake (c : CoreId)
  /-- TIMER (R193). -/
  | timer (c : CoreId)
  /-- THERMAL_LIMIT (R377). -/
  | thermalLimit (d : DieId) (cl : BitVec 7)
  /-- PARTITION_MCHECK_STOP (R332). -/
  | partitionMcheckStop (p : PartId)
  /-- IDLE_ENTRY (R374). -/
  | idleEntry (r : RegionId)
  /-- REGION_WAKE (R375). -/
  | regionWake (r : RegionId)
  /-- DIE_W4_ENTRY (R376). -/
  | dieW4Entry (d : DieId)
  /-- TIMECMP_S_WRITE (R193). -/
  | timecmpSWrite (c : CoreId) (v : Word)
  /-- PFQHEAD_WRITE (R337). -/
  | pfqheadWrite (c : CoreId) (v : Word)
  /-- PFQTAIL_READ (R337). -/
  | pfqtailRead (c : CoreId) (d : Reg)
  /-- WMBASE_WRITE (R307). -/
  | wmbaseWrite (c : CoreId) (v : Word)
  /-- TQCFG_WRITE (R366). -/
  | tqcfgWrite (c : CoreId) (v : Word)
  /-- SQCTL_STOP (R344). -/
  | sqctlStop (c : CoreId)
  /-- SQCTL_GO (R343). -/
  | sqctlGo (c : CoreId)
  /-- FGCTL_STOP (R382). -/
  | fgctlStop (c : CoreId)
  /-- PRECISE_STOP_COMPLETE (R382). -/
  | preciseStopComplete (r : RegionId)
  /-- FGCTL_GO (R382). -/
  | fgctlGo (c : CoreId)
  /-- FGCTL_UNPARK (R381). -/
  | fgctlUnpark (c : CoreId)
  /-- FGCTL_CLRMG (R388). -/
  | fgctlClrmg (c : CoreId)
  /-- FGLIST_GO (R383). -/
  | fglistGo (c : CoreId)
  /-- DBGLIST_COMPLETE (R383). -/
  | dbglistComplete (r : RegionId)
  /-- FGLSTAT_READ (R383). -/
  | fglstatRead (c : CoreId) (d : Reg)
  /-- TRACE_RECORD_WRITE (R384). -/
  | traceRecordWrite (p : PartId)
  /-- TRACE_RECORD_DROP (R384). -/
  | traceRecordDrop (p : PartId)
  /-- FGTRCNT_READ (R384). -/
  | fgtrcntRead (c : CoreId) (d : Reg)
  /-- FGCSTOP_WRITE (R392). -/
  | fgcstopWrite (c : CoreId) (v : Word)
  /-- CRASHK_GO (R393). -/
  | crashkGo (c : CoreId)
  /-- REGISTER_WRITE (R196). -/
  | registerWrite (c : CoreId) (n : BitVec 10) (v : Word)
  /-- DOORBELL (R396). -/
  | doorbell (p : PartId)
  /-- HOST_WINDOW_ACCESS (R396). -/
  | hostWindowAccess (p : PartId) (q : HostReq)
  /-- TDISP_MESSAGE (R395). -/
  | tdispMessage (p : PartId) (q : TdispMsg)
  /-- GET_VERSION (R397). -/
  | getVersion (fn : SpdmFn) (req : List Byte)
  /-- GET_CAPABILITIES (R397). -/
  | getCapabilities (fn : SpdmFn) (req : List Byte)
  /-- NEGOTIATE_ALGORITHMS (R397). -/
  | negotiateAlgorithms (fn : SpdmFn) (req : List Byte)
  /-- GET_DIGESTS (R397). -/
  | getDigests (fn : SpdmFn) (req : List Byte)
  /-- GET_CERTIFICATE (R397). -/
  | getCertificate (fn : SpdmFn) (req : List Byte)
  /-- CHALLENGE (R398). -/
  | challenge (fn : SpdmFn) (req : List Byte)
  /-- GET_MEASUREMENTS (R402). -/
  | getMeasurements (fn : SpdmFn) (req : List Byte)
  /-- KEY_EXCHANGE (R397). -/
  | keyExchange (fn : SpdmFn) (req : List Byte)
  /-- FINISH (R397). -/
  | finish (fn : SpdmFn) (req : List Byte)
  /-- KEY_UPDATE (R404). -/
  | keyUpdate (tgt : KeyTarget)
  /-- END_SESSION (R397). -/
  | endSession (fn : SpdmFn) (req : List Byte)
  /-- FLIT_RECEIVE (R405). -/
  | flitReceive (l : BitVec 4) (f : Flit)
  /-- LINK_DOWN (R405). -/
  | linkDown (l : BitVec 4)
  /-- STORAGE_DMA (R394). -/
  | storageDma (q : DmaReq)
  /-- DEVICE_BOOT (R402). -/
  | deviceBoot
  /-- PARTITION_CREATE (R402). -/
  | partitionCreate (p : PartId) (cfg : PartCfg)
  /-- PARTITION_DESTROY (R401). -/
  | partitionDestroy (p : PartId)
  /-- LINK_RETRAIN (R405). -/
  | linkRetrain (l : BitVec 4)
  /-- THERMAL_COOL (R377). -/
  | thermalCool (d : DieId) (cl : BitVec 7)
  /-- DROOP_EVENT (R378). -/
  | droopEvent (d : DieId) (cl : BitVec 7)
deriving DecidableEq, Repr

end Sys2Proof
end

