-- ==== Sys2Proof/WellFormed.lean ====
section
/-!
DEFINITION. Which terms of `Instr` are instructions: the operand combinations that an encoding or an event can carry.
-/

namespace Sys2Proof

/-- The integer types of Table 6-5. -/
def CvtTy.isInt : CvtTy → Bool
  | .d | .s | .h | .b => false
  | .w | .wu | .l | .lu => true

/-- FCVT's types: not both integers, not equal (R108). -/
def cvtOk (src dst : CvtTy) : Bool := !(src.isInt && dst.isInt) && src != dst

/-- A port's source kind against ARITY (R113): kind 11 exactly at and above ARITY. -/
def kindsOk (n : NodeFields) : Bool :=
  (n.ka == 3#2) == decide (n.arity.toNat < 1) &&
  (n.kb == 3#2) == decide (n.arity.toNat < 2) &&
  (n.kc == 3#2) == decide (n.arity.toNat < 3)

/-- At most one port is immediate (R113). -/
def oneImm (n : NodeFields) : Bool :=
  [n.ka, n.kb, n.kc].countP (· == 1#2) ≤ 1

/-- A route word: disabled words are 0, enabled words have no reserved bit and no TAGOP of 11 (R116, R117). -/
def routeOk (w : BitVec 32) : Bool :=
  if w.getLsbD 31 then w.extractLsb' 0 8 == 0#8 && w.extractLsb' 8 2 != 3#2 else w == 0#32

/-- What every node word satisfies, whatever its opcode (R113, R116, R117). -/
def NodeFields.ok (n : NodeFields) : Bool :=
  kindsOk n && oneImm n && routeOk n.route0 && routeOk n.route1

/-- Tile coordinates of a region lie on a die (R120). -/
def tileOk (row : BitVec 5) (col : BitVec 6) : Bool := row.toNat < 27 && col.toNat < 33

def TileAt.ok (t : TileAt) : Bool := tileOk t.row t.col
def Site.ok (n : Site) : Bool := tileOk n.row n.col
def TokSrc.ok : TokSrc → Bool
  | .out row col _ _ => tileOk row col
  | .link row col _ => tileOk row col

/-- The node fields an instruction carries. -/
def Instr.node? : Instr → Option NodeFields
  | .vadd n => some n
  | .vsub n => some n
  | .vmul n => some n
  | .vfma n => some n
  | .vmin n => some n
  | .vmax n => some n
  | .vabs n => some n
  | .vneg n => some n
  | .vdiv n => some n
  | .vsqrt n => some n
  | .vrsq n => some n
  | .vrcp n => some n
  | .vexp2 n => some n
  | .vlog2 n => some n
  | .vtanh n => some n
  | .viadd n => some n
  | .visub n => some n
  | .vimul n => some n
  | .vand n => some n
  | .vor n => some n
  | .vxor n => some n
  | .vshl n => some n
  | .vshr n => some n
  | .vcmp n => some n
  | .vsel n => some n
  | .vrsum n => some n
  | .vrmax n => some n
  | .vrmin n => some n
  | .vargmx n => some n
  | .vscan n => some n
  | .vperm n => some n
  | .vbcast n => some n
  | .vpopc n => some n
  | .vcvt n => some n
  | .qz n => some n
  | .dq n => some n
  | .cv8 n => some n
  | .bfly n => some n
  | .vsig n => some n
  | .sigchk n => some n
  | .mxf n => some n
  | .mxclm n => some n
  | .mxrel n => some n
  | .mxmul n => some n
  | .mxdrn n => some n
  | .mxzero n => some n
  | .mxrec n => some n
  | .mxsigm n => some n
  | .steer n => some n
  | .merge n => some n
  | .reord n => some n
  | .loop n => some n
  | .next n => some n
  | .lexit n => some n
  | .call n => some n
  | .ret n => some n
  | .ctr n => some n
  | .sloop n => some n
  | .isect n => some n
  | .union n => some n
  | .stopg n => some n
  | .delay n => some n
  | .sink n => some n
  | .dup n => some n
  | .switch n => some n
  | .selx n => some n
  | .cjoin n => some n
  | .cleave n => some n
  | .cbar n => some n
  | .cnt n => some n
  | .const n => some n
  | .agen n => some n
  | .ldn n => some n
  | .stn n => some n
  | .ldx n => some n
  | .stx n => some n
  | .atom n => some n
  | .mcas n => some n
  | .pref n => some n
  | .spacc n => some n
  | .param n => some n
  | .delta n => some n
  | .alpha n => some n
  | .bjoin n => some n
  | .bneg n => some n
  | .score n => some n
  | .term n => some n
  | _ => none

/-- Well-formed instructions: what an encoding or an event can carry. -/
def Instr.wf (i : Instr) : Bool :=
  match i with
  | .fcvt _ _ src dst _ => cvtOk src dst
  | .mxclmExecute t | .mxrelExecute t | .mxmulExecute t | .mxzeroExecute t | .mxdrnExecute t | .mxsigmExecute t
  | .mxrecExecute t | .cfgStoreUe t => t.ok
  | .reorderDueEmit n | .counterChainEmit n | .delayRelease n | .agenEmit n | .spaccFlushEmit n | .parkTableRetry n
  | .ctxwaitExpiry n | .scoreTimeout n _ => n.ok
  | .loopDoneAbsorb _ src | .tokenHop _ src _ | .tokenDeliver _ src _ => src.ok
  | .thermalLimit _ cl | .thermalCool _ cl | .droopEvent _ cl => cl.toNat < 99
  | i => match i.node? with
    | some n => n.ok
    | none => true

end Sys2Proof
end

