-- ==== Sys2Proof/Decode.lean ====
section
/-!
DEFINITION. Decoder and encoder: 32-bit core words by Tables 6-1 to 6-7 (`decodeS`, `encodeS`), 128-bit node words by
Tables 6-9 and 6-12 (`decodeNode`, `encodeNode`). A word that is no instruction decodes to `none`, which the machine
answers with ILLEGAL (R111) and the loader with LOAD_BADOP or LOAD_RSVD (R113 to R118).
-/

namespace Sys2Proof

/-! Fields of a core word (Table 6-1). -/

def fOp (w : BitVec 32) : BitVec 6 := w.extractLsb' 26 6
def fD (w : BitVec 32) : Reg := w.extractLsb' 21 5
def fA (w : BitVec 32) : Reg := w.extractLsb' 16 5
def fB (w : BitVec 32) : Reg := w.extractLsb' 11 5
def fFn (w : BitVec 32) : BitVec 11 := w.extractLsb' 0 11
def fImm16 (w : BitVec 32) : BitVec 16 := w.extractLsb' 0 16
def fSel (w : BitVec 32) : BitVec 4 := w.extractLsb' 12 4
def fOff12 (w : BitVec 32) : BitVec 12 := w.extractLsb' 0 12
def fE (w : BitVec 32) : Reg := w.extractLsb' 6 5
def fXf (w : BitVec 32) : BitVec 6 := w.extractLsb' 0 6
def fRm (w : BitVec 32) : BitVec 3 := w.extractLsb' 3 3
def fFmt (w : BitVec 32) : BitVec 2 := w.extractLsb' 1 2
def fBit0 (w : BitVec 32) : BitVec 1 := w.extractLsb' 0 1

/-! Codes of the small fields. -/

def FFmt.code : FFmt → BitVec 2 | .d => 0 | .s => 1 | .h => 2 | .b => 3
def FFmt.ofCode (c : BitVec 2) : FFmt :=
  match c.toNat with | 0 => .d | 1 => .s | 2 => .h | _ => .b

def RMode.code : RMode → BitVec 3 | .rne => 0 | .rtz => 1 | .rdn => 2 | .rup => 3 | .rna => 4 | .dyn => 7
/-- Codes 5 and 6 are illegal (R50). -/
def RMode.ofCode (c : BitVec 3) : Option RMode :=
  match c.toNat with
  | 0 => some .rne | 1 => some .rtz | 2 => some .rdn | 3 => some .rup | 4 => some .rna | 7 => some .dyn | _ => none

def SgnVar.code : SgnVar → BitVec 3 | .j => 0 | .n => 1 | .x => 2
def SgnVar.ofCode (c : BitVec 3) : Option SgnVar :=
  match c.toNat with | 0 => some .j | 1 => some .n | 2 => some .x | _ => none

def CmpVar.code : CmpVar → BitVec 3 | .eq => 0 | .lt => 1 | .le => 2 | .un => 3
def CmpVar.ofCode (c : BitVec 3) : Option CmpVar :=
  match c.toNat with | 0 => some .eq | 1 => some .lt | 2 => some .le | 3 => some .un | _ => none

def CvtTy.code : CvtTy → BitVec 3 | .d => 0 | .s => 1 | .h => 2 | .b => 3 | .w => 4 | .wu => 5 | .l => 6 | .lu => 7
def CvtTy.ofCode (c : BitVec 3) : CvtTy :=
  match c.toNat with | 0 => .d | 1 => .s | 2 => .h | 3 => .b | 4 => .w | 5 => .wu | 6 => .l | _ => .lu

def Order.code : Order → BitVec 2 | .plain => 0 | .aq => 1 | .rl => 2 | .ar => 3
def Order.ofCode (c : BitVec 2) : Order :=
  match c.toNat with | 0 => .plain | 1 => .aq | 2 => .rl | _ => .ar

def Scope.code : Scope → BitVec 2 | .core => 0 | .die => 1 | .device => 2 | .system => 3
def Scope.ofCode (c : BitVec 2) : Scope :=
  match c.toNat with | 0 => .core | 1 => .die | 2 => .device | _ => .system

/-- Answers `i` where a reserved field that must be 0 is 0 (R111). -/
def guardZero (z : Bool) (i : Instr) : Option Instr := if z then some i else none

/-- op 0x00 to 0x02 (Table 6-2). -/
def decodeInt (w : BitVec 32) : Option Instr :=
  let d := fD w; let a := fA w; let b := fB w
  match (fOp w).toNat, (fFn w).toNat with
  | 0x00, 0 => some (.add d a b) | 0x00, 1 => some (.sub d a b) | 0x00, 2 => some (.and d a b)
  | 0x00, 3 => some (.or d a b) | 0x00, 4 => some (.xor d a b) | 0x00, 5 => some (.sll d a b)
  | 0x00, 6 => some (.srl d a b) | 0x00, 7 => some (.sra d a b) | 0x00, 8 => some (.slt d a b)
  | 0x00, 9 => some (.sltu d a b) | 0x00, 10 => some (.min d a b) | 0x00, 11 => some (.max d a b)
  | 0x01, 0 => some (.mul d a b) | 0x01, 1 => some (.mulh d a b) | 0x01, 2 => some (.mulhu d a b)
  | 0x01, 3 => some (.div d a b) | 0x01, 4 => some (.divu d a b) | 0x01, 5 => some (.rem d a b)
  | 0x01, 6 => some (.remu d a b)
  | 0x02, 0 => guardZero (b == 0#5) (.clz d a) | 0x02, 1 => guardZero (b == 0#5) (.popc d a)
  | _, _ => none

/-- op 0x10 to 0x16 (Table 6-2, R144). -/
def decodeImm (w : BitVec 32) : Option Instr :=
  let d := fD w; let a := fA w; let i := fImm16 w
  match (fOp w).toNat with
  | 0x10 => some (.addi d a i) | 0x11 => some (.andi d a i) | 0x12 => some (.ori d a i)
  | 0x13 => some (.xori d a i) | 0x14 => some (.slti d a i)
  | 0x15 => guardZero (a == 0#5) (.lui d i)
  | 0x16 =>
    let n := w.extractLsb' 0 6
    match (w.extractLsb' 6 10).toNat with
    | 0 => some (.slli d a n) | 1 => some (.srli d a n) | 2 => some (.srai d a n) | _ => none
  | _ => none

/-- op 0x18 to 0x1D (Table 6-2). -/
def decodeMem (w : BitVec 32) : Option Instr :=
  let d := fD w; let a := fA w; let o := fOff12 w
  match (fOp w).toNat, (fSel w).toNat with
  | 0x18, _ => some (.ld d a (fImm16 w)) | 0x19, _ => some (.sd d a (fImm16 w))
  | 0x1A, 0 => some (.lb d a o) | 0x1A, 1 => some (.lbu d a o) | 0x1A, 2 => some (.lh d a o)
  | 0x1A, 3 => some (.lhu d a o) | 0x1A, 4 => some (.lw d a o) | 0x1A, 5 => some (.lwu d a o)
  | 0x1B, 0 => some (.sb d a o) | 0x1B, 1 => some (.sh d a o) | 0x1B, 2 => some (.sw d a o)
  | 0x1C, 0 => some (.flw d a o) | 0x1C, 1 => some (.fld d a o) | 0x1C, 2 => some (.fsw d a o)
  | 0x1C, 3 => some (.fsd d a o) | 0x1C, 4 => some (.fldt d a .d o) | 0x1C, 5 => some (.fldt d a .s o)
  | 0x1C, 6 => some (.fldt d a .h o) | 0x1C, 7 => some (.fldt d a .b o) | 0x1C, 8 => some (.fsdt d a o)
  | 0x1D, 0 => some (.lda d a o) | 0x1D, 1 => some (.stl d a o)
  | _, _ => none

/-- op 0x20 (Table 6-4). -/
def decodeFpArith (w : BitVec 32) : Option Instr :=
  let d := fD w; let a := fA w; let b := fB w; let v := fRm w; let f := FFmt.ofCode (fFmt w)
  if fBit0 w != 0#1 then none else
  match (w.extractLsb' 6 5).toNat with
  | 0 => (RMode.ofCode v).map (.fadd d a b · f) | 1 => (RMode.ofCode v).map (.fsub d a b · f)
  | 2 => (RMode.ofCode v).map (.fmul d a b · f) | 3 => (RMode.ofCode v).map (.fdiv d a b · f)
  | 4 => if b == 0#5 then (RMode.ofCode v).map (.fsqrt d a · f) else none
  | 5 => guardZero (v == 0#3) (.fmin d a b f) | 6 => guardZero (v == 0#3) (.fmax d a b f)
  | 7 => (SgnVar.ofCode v).map (.fsgn d a b · f) | 8 => (CmpVar.ofCode v).map (.fcmp d a b · f)
  | 9 => if b == 0#5 then (RMode.ofCode v).map (.frnd d a · f) else none
  | _ => none

/-- op 0x21, 0x22: the fused forms (Table 6-3). -/
def decodeFma (w : BitVec 32) : Option Instr :=
  let d := fD w; let a := fA w; let b := fB w; let c : Reg := w.extractLsb' 6 5; let f := FFmt.ofCode (fFmt w)
  if fBit0 w != 0#1 then none else
  match (fOp w).toNat with
  | 0x21 => (RMode.ofCode (fRm w)).map (.fma d a b c · f)
  | _ => (RMode.ofCode (fRm w)).map (.fms d a b c · f)

/-- op 0x23 (R108). -/
def decodeFcvt (w : BitVec 32) : Option Instr :=
  if w.extractLsb' 14 2 != 0#2 || w.extractLsb' 6 2 != 0#2 || w.extractLsb' 0 3 != 0#3 then none else
  let src := CvtTy.ofCode (w.extractLsb' 11 3); let dst := CvtTy.ofCode (w.extractLsb' 8 3)
  if cvtOk src dst then (RMode.ofCode (fRm w)).map (.fcvt (fD w) (fA w) src dst ·) else none

/-- op 0x24 (R107). -/
def decodeFmv (w : BitVec 32) : Option Instr :=
  let d := fD w; let a := fA w; let f := FFmt.ofCode (fFmt w)
  if fB w != 0#5 || fRm w != 0#3 || fBit0 w != 0#1 then none else
  match (w.extractLsb' 6 5).toNat with
  | 0 => some (.fmvg d a f) | 1 => some (.fmvf d a f) | 2 => some (.fsig d a f) | 3 => some (.fsigset d a f)
  | _ => none

/-- op 0x25 to 0x2F: branches and jumps. -/
def decodeBranch (w : BitVec 32) : Option Instr :=
  let x := fD w; let y := fA w; let o := fImm16 w
  match (fOp w).toNat with
  | 0x25 => some (.bsig x (w.extractLsb' 14 7) (w.extractLsb' 0 14))
  | 0x28 => some (.beq x y o) | 0x29 => some (.bne x y o) | 0x2A => some (.blt x y o)
  | 0x2B => some (.bge x y o) | 0x2C => some (.bltu x y o) | 0x2D => some (.bgeu x y o)
  | 0x2E => some (.jal (w.extractLsb' 0 26)) | 0x2F => some (.jalr x y o)
  | _ => none

/-- op 0x30 to 0x36: atomics, MWCAS and FENCE (R109, Table 6-2). -/
def decodeAtomic (w : BitVec 32) : Option Instr :=
  let d := fD w; let a := fA w; let b := fB w
  let hi := w.extractLsb' 4 7; let u := w.getLsbD 3; let wd := w.getLsbD 2; let ord := Order.ofCode (w.extractLsb' 0 2)
  match (fOp w).toNat with
  | 0x30 => guardZero (hi == 0#7 && !u) (.amoadd d a b wd ord)
  | 0x31 => guardZero (hi == 0#7 && !u) (.amoswap d a b wd ord)
  | 0x32 => guardZero (hi == 0#7) (.amomin d a b u wd ord)
  | 0x33 => guardZero (hi == 0#7) (.amomax d a b u wd ord)
  | 0x34 => guardZero (hi == 0#7 && !u) (.amocas d a b wd ord)
  | 0x35 => guardZero (b == 0#5 && fFn w == 0#11) (.mwcas d a)
  | 0x36 => guardZero (d == 0#5 && a == 0#5 && b == 0#5 && w.extractLsb' 2 9 == 0#9)
      (.fence (Scope.ofCode (w.extractLsb' 0 2)))
  | _ => none

/-- op 0x3F: the extended functions (Table 6-7). -/
def decodeX (w : BitVec 32) : Option Instr :=
  let d := fD w; let a := fA w; let b := fB w; let e := fE w
  let d0 := d == 0#5; let a0 := a == 0#5; let b0 := b == 0#5; let e0 := e == 0#5
  match (fXf w).toNat with
  | 0x00 => guardZero e0 (.reqr d a b)
  | 0x01 => guardZero (b0 && e0) (.rqry d a)
  | 0x02 => guardZero (b0 && e0) (.loadimg d a)
  | 0x03 => some (.launch d a b e)
  | 0x04 => guardZero (b0 && e0) (.killr d a)
  | 0x05 => match e.toNat with | 0 => some (.preemptKill d a b) | 1 => some (.preemptSnapshot d a b) | _ => none
  | 0x06 => guardZero e0 (.resumr d a b)
  | 0x07 => some (.strm d a b e)
  | 0x08 => guardZero (b0 && e0) (.sbar d a)
  | 0x09 => some (.copy d a b e)
  | 0x0A => guardZero (b0 && e0) (.cmpct d a)
  | 0x0B => guardZero (b0 && e0) (.publish d a)
  | 0x0C => guardZero e0 (.migrate d a b)
  | 0x0D => guardZero e0 (.coll d a b)
  | 0x0E => guardZero e0 (.waitw d a b)
  | 0x10 => guardZero (b0 && e0) (.assert d a)
  | 0x11 => guardZero (d0 && b0 && e0) (.retract a)
  | 0x12 => guardZero e0 (.modify d a b)
  | 0x13 => guardZero (a0 && b0 && e0) (.settle d)
  | 0x14 => guardZero e0 (.select d a b)
  | 0x15 => guardZero (d0 && b0 && e0) (.fired a)
  | 0x16 => guardZero (d0 && a0 && b0 && e0) .wave
  | 0x17 => guardZero (d0 && b0 && e0) (.scoreclr a)
  | 0x20 => guardZero (d0 && a0 && b0) (.trap e)
  | 0x21 => guardZero (d0 && a0 && b0) (.hvcall e)
  | 0x22 => guardZero (d0 && a0 && b0) (.brk e)
  | 0x23 => guardZero (d0 && a0 && b0 && e0) .rett
  | 0x24 => guardZero e0 (.sread d a b)
  | 0x25 => guardZero e0 (.swrite d a b)
  | 0x26 => guardZero (d0 && b0 && e0) (.tlbinv a)
  | 0x27 => guardZero (d0 && a0 && b0 && e0) .tlbsync
  | 0x28 => guardZero (d0 && a0 && b0 && e0) .wfe
  | 0x29 => guardZero (d0 && a0 && b0 && e0) .halt
  | 0x2A => guardZero (d0 && b0 && e0) (.replay a)
  | 0x2B => if d0 then
      match e.toNat with
      | 0 => some (.fresSupply a b) | 1 => some (.fresRetry a b) | 2 => some (.fresKill a b) | _ => none
      else none
  | 0x2C => guardZero e0 (.sqstart d a b)
  | 0x2D => if d0 && b0 then
      match e.toNat with
      | 0 => some (.cacheopClean a) | 1 => some (.cacheopInval a) | 2 => some (.cacheopFlush a)
      | 3 => some (.cacheopPfr a) | 4 => some (.cacheopPfw a) | 5 => some (.cacheopIinv a) | _ => none
      else none
  | _ => none

/-- The instruction of a core word; `none` is an illegal word (R106, R111). -/
def decodeS (w : BitVec 32) : Option Instr :=
  match (fOp w).toNat with
  | 0x00 | 0x01 | 0x02 => decodeInt w
  | 0x10 | 0x11 | 0x12 | 0x13 | 0x14 | 0x15 | 0x16 => decodeImm w
  | 0x18 | 0x19 | 0x1A | 0x1B | 0x1C | 0x1D => decodeMem w
  | 0x20 => decodeFpArith w
  | 0x21 | 0x22 => decodeFma w
  | 0x23 => decodeFcvt w
  | 0x24 => decodeFmv w
  | 0x25 | 0x28 | 0x29 | 0x2A | 0x2B | 0x2C | 0x2D | 0x2E | 0x2F => decodeBranch w
  | 0x30 | 0x31 | 0x32 | 0x33 | 0x34 | 0x35 | 0x36 => decodeAtomic w
  | 0x3F => decodeX w
  | _ => none

/-! Node words (Table 6-9). -/

/-- Fields of a node word but OPC. -/
def nodeFields (w : BitVec 128) : NodeFields where
  fmt := w.extractLsb' 8 5
  var := w.extractLsb' 13 3
  flags := w.extractLsb' 16 8
  arity := w.extractLsb' 24 2
  ka := w.extractLsb' 26 2
  kb := w.extractLsb' 28 2
  kc := w.extractLsb' 30 2
  imm := w.extractLsb' 32 32
  route0 := w.extractLsb' 64 32
  route1 := w.extractLsb' 96 32

def nodeOpc (w : BitVec 128) : BitVec 8 := w.extractLsb' 0 8

/-- Node of an opcode (Table 6-12); `none` where the table assigns none. -/
def nodeOfOpc (opc : BitVec 8) (n : NodeFields) : Option Instr :=
  match opc.toNat with
  | 0x00 => some (.vadd n)
  | 0x01 => some (.vsub n)
  | 0x02 => some (.vmul n)
  | 0x03 => some (.vfma n)
  | 0x04 => some (.vmin n)
  | 0x05 => some (.vmax n)
  | 0x06 => some (.vabs n)
  | 0x07 => some (.vneg n)
  | 0x08 => some (.vdiv n)
  | 0x09 => some (.vsqrt n)
  | 0x0A => some (.vrsq n)
  | 0x0B => some (.vrcp n)
  | 0x0C => some (.vexp2 n)
  | 0x0D => some (.vlog2 n)
  | 0x0E => some (.vtanh n)
  | 0x10 => some (.viadd n)
  | 0x11 => some (.visub n)
  | 0x12 => some (.vimul n)
  | 0x13 => some (.vand n)
  | 0x14 => some (.vor n)
  | 0x15 => some (.vxor n)
  | 0x16 => some (.vshl n)
  | 0x17 => some (.vshr n)
  | 0x18 => some (.vcmp n)
  | 0x19 => some (.vsel n)
  | 0x20 => some (.vrsum n)
  | 0x21 => some (.vrmax n)
  | 0x22 => some (.vrmin n)
  | 0x23 => some (.vargmx n)
  | 0x24 => some (.vscan n)
  | 0x25 => some (.vperm n)
  | 0x26 => some (.vbcast n)
  | 0x27 => some (.vpopc n)
  | 0x30 => some (.vcvt n)
  | 0x31 => some (.qz n)
  | 0x32 => some (.dq n)
  | 0x33 => some (.cv8 n)
  | 0x34 => some (.bfly n)
  | 0x35 => some (.vsig n)
  | 0x36 => some (.sigchk n)
  | 0x40 => some (.mxf n)
  | 0x41 => some (.mxclm n)
  | 0x42 => some (.mxrel n)
  | 0x43 => some (.mxmul n)
  | 0x44 => some (.mxdrn n)
  | 0x45 => some (.mxzero n)
  | 0x46 => some (.mxrec n)
  | 0x47 => some (.mxsigm n)
  | 0x50 => some (.steer n)
  | 0x51 => some (.merge n)
  | 0x52 => some (.reord n)
  | 0x53 => some (.loop n)
  | 0x54 => some (.next n)
  | 0x55 => some (.lexit n)
  | 0x56 => some (.call n)
  | 0x57 => some (.ret n)
  | 0x58 => some (.ctr n)
  | 0x59 => some (.sloop n)
  | 0x5A => some (.isect n)
  | 0x5B => some (.union n)
  | 0x5C => some (.stopg n)
  | 0x5D => some (.delay n)
  | 0x5E => some (.sink n)
  | 0x5F => some (.dup n)
  | 0x60 => some (.switch n)
  | 0x61 => some (.selx n)
  | 0x62 => some (.cjoin n)
  | 0x63 => some (.cleave n)
  | 0x64 => some (.cbar n)
  | 0x65 => some (.cnt n)
  | 0x66 => some (.const n)
  | 0x70 => some (.agen n)
  | 0x71 => some (.ldn n)
  | 0x72 => some (.stn n)
  | 0x73 => some (.ldx n)
  | 0x74 => some (.stx n)
  | 0x75 => some (.atom n)
  | 0x76 => some (.mcas n)
  | 0x77 => some (.pref n)
  | 0x78 => some (.spacc n)
  | 0x79 => some (.param n)
  | 0x80 => some (.delta n)
  | 0x81 => some (.alpha n)
  | 0x82 => some (.bjoin n)
  | 0x83 => some (.bneg n)
  | 0x84 => some (.score n)
  | 0x85 => some (.term n)
  | _ => none

/-- The node instruction of a node word. Words no loader admits (R113, R116, R117) decode to nothing. -/
def decodeNode (w : BitVec 128) : Option Instr :=
  let n := nodeFields w
  if n.ok then nodeOfOpc (nodeOpc w) n else none

/-! Encoders, from the same tables. -/

def encRR (op : BitVec 6) (d a b : Reg) (fn : BitVec 11) : BitVec 32 := op ++ d ++ a ++ b ++ fn
def encRI (op : BitVec 6) (d a : Reg) (imm : BitVec 16) : BitVec 32 := op ++ d ++ a ++ imm
def encM (op : BitVec 6) (d a : Reg) (sel : BitVec 4) (off : BitVec 12) : BitVec 32 := op ++ d ++ a ++ sel ++ off
def encFp (op : BitVec 6) (d a b : Reg) (sub : BitVec 5) (rm : BitVec 3) (f : FFmt) : BitVec 32 :=
  op ++ d ++ a ++ b ++ sub ++ rm ++ f.code ++ 0#1
def encAmo (op : BitVec 6) (d a b : Reg) (u w : Bool) (ord : Order) : BitVec 32 :=
  op ++ d ++ a ++ b ++ 0#7 ++ BitVec.ofBool u ++ BitVec.ofBool w ++ ord.code
def encX (d a b e : Reg) (xf : BitVec 6) : BitVec 32 := 0x3F#6 ++ d ++ a ++ b ++ e ++ xf

/-- The word of a core instruction; node firings and events have none. -/
def encodeS : Instr → Option (BitVec 32)
  | .add d a b => some (encRR 0x00 d a b 0)
  | .sub d a b => some (encRR 0x00 d a b 1)
  | .and d a b => some (encRR 0x00 d a b 2)
  | .or d a b => some (encRR 0x00 d a b 3)
  | .xor d a b => some (encRR 0x00 d a b 4)
  | .sll d a b => some (encRR 0x00 d a b 5)
  | .srl d a b => some (encRR 0x00 d a b 6)
  | .sra d a b => some (encRR 0x00 d a b 7)
  | .slt d a b => some (encRR 0x00 d a b 8)
  | .sltu d a b => some (encRR 0x00 d a b 9)
  | .min d a b => some (encRR 0x00 d a b 10)
  | .max d a b => some (encRR 0x00 d a b 11)
  | .mul d a b => some (encRR 0x01 d a b 0)
  | .mulh d a b => some (encRR 0x01 d a b 1)
  | .mulhu d a b => some (encRR 0x01 d a b 2)
  | .div d a b => some (encRR 0x01 d a b 3)
  | .divu d a b => some (encRR 0x01 d a b 4)
  | .rem d a b => some (encRR 0x01 d a b 5)
  | .remu d a b => some (encRR 0x01 d a b 6)
  | .clz d a => some (encRR 0x02 d a 0 0)
  | .popc d a => some (encRR 0x02 d a 0 1)
  | .addi d a i => some (encRI 0x10 d a i)
  | .andi d a i => some (encRI 0x11 d a i)
  | .ori d a i => some (encRI 0x12 d a i)
  | .xori d a i => some (encRI 0x13 d a i)
  | .slti d a i => some (encRI 0x14 d a i)
  | .lui d i => some (encRI 0x15 d 0 i)
  | .slli d a n => some (0x16#6 ++ d ++ a ++ 0#10 ++ n)
  | .srli d a n => some (0x16#6 ++ d ++ a ++ 1#10 ++ n)
  | .srai d a n => some (0x16#6 ++ d ++ a ++ 2#10 ++ n)
  | .ld d a o => some (encRI 0x18 d a o)
  | .sd d a o => some (encRI 0x19 d a o)
  | .lb d a o => some (encM 0x1A d a 0 o)
  | .lbu d a o => some (encM 0x1A d a 1 o)
  | .lh d a o => some (encM 0x1A d a 2 o)
  | .lhu d a o => some (encM 0x1A d a 3 o)
  | .lw d a o => some (encM 0x1A d a 4 o)
  | .lwu d a o => some (encM 0x1A d a 5 o)
  | .sb d a o => some (encM 0x1B d a 0 o)
  | .sh d a o => some (encM 0x1B d a 1 o)
  | .sw d a o => some (encM 0x1B d a 2 o)
  | .flw d a o => some (encM 0x1C d a 0 o)
  | .fld d a o => some (encM 0x1C d a 1 o)
  | .fsw d a o => some (encM 0x1C d a 2 o)
  | .fsd d a o => some (encM 0x1C d a 3 o)
  | .fldt d a f o => some (encM 0x1C d a (match f with | .d => 4 | .s => 5 | .h => 6 | .b => 7) o)
  | .fsdt d a o => some (encM 0x1C d a 8 o)
  | .lda d a o => some (encM 0x1D d a 0 o)
  | .stl d a o => some (encM 0x1D d a 1 o)
  | .fadd d a b rm f => some (encFp 0x20 d a b 0 rm.code f)
  | .fsub d a b rm f => some (encFp 0x20 d a b 1 rm.code f)
  | .fmul d a b rm f => some (encFp 0x20 d a b 2 rm.code f)
  | .fdiv d a b rm f => some (encFp 0x20 d a b 3 rm.code f)
  | .fsqrt d a rm f => some (encFp 0x20 d a 0 4 rm.code f)
  | .fmin d a b f => some (encFp 0x20 d a b 5 0 f)
  | .fmax d a b f => some (encFp 0x20 d a b 6 0 f)
  | .fsgn d a b v f => some (encFp 0x20 d a b 7 v.code f)
  | .fcmp d a b v f => some (encFp 0x20 d a b 8 v.code f)
  | .frnd d a rm f => some (encFp 0x20 d a 0 9 rm.code f)
  | .fma d a b c rm f => some (encFp 0x21 d a b c rm.code f)
  | .fms d a b c rm f => some (encFp 0x22 d a b c rm.code f)
  | .fcvt d a src dst rm => some (0x23#6 ++ d ++ a ++ 0#2 ++ src.code ++ dst.code ++ 0#2 ++ rm.code ++ 0#3)
  | .fmvg d a f => some (encFp 0x24 d a 0 0 0 f)
  | .fmvf d a f => some (encFp 0x24 d a 0 1 0 f)
  | .fsig d a f => some (encFp 0x24 d a 0 2 0 f)
  | .fsigset d a f => some (encFp 0x24 d a 0 3 0 f)
  | .bsig f thr o => some (0x25#6 ++ f ++ thr ++ o)
  | .beq a b o => some (encRI 0x28 a b o)
  | .bne a b o => some (encRI 0x29 a b o)
  | .blt a b o => some (encRI 0x2A a b o)
  | .bge a b o => some (encRI 0x2B a b o)
  | .bltu a b o => some (encRI 0x2C a b o)
  | .bgeu a b o => some (encRI 0x2D a b o)
  | .jal o => some (0x2E#6 ++ o)
  | .jalr d a i => some (encRI 0x2F d a i)
  | .amoadd d a b w o => some (encAmo 0x30 d a b false w o)
  | .amoswap d a b w o => some (encAmo 0x31 d a b false w o)
  | .amomin d a b u w o => some (encAmo 0x32 d a b u w o)
  | .amomax d a b u w o => some (encAmo 0x33 d a b u w o)
  | .amocas d a b w o => some (encAmo 0x34 d a b false w o)
  | .mwcas d a => some (encRR 0x35 d a 0 0)
  | .fence s => some (0x36#6 ++ 0#24 ++ s.code)
  | .reqr d a b => some (encX d a b 0 0x00)
  | .rqry d a => some (encX d a 0 0 0x01)
  | .loadimg d a => some (encX d a 0 0 0x02)
  | .launch d a b e => some (encX d a b e 0x03)
  | .killr d a => some (encX d a 0 0 0x04)
  | .preemptKill d a b => some (encX d a b 0 0x05)
  | .preemptSnapshot d a b => some (encX d a b 1 0x05)
  | .resumr d a b => some (encX d a b 0 0x06)
  | .strm d a b e => some (encX d a b e 0x07)
  | .sbar d a => some (encX d a 0 0 0x08)
  | .copy d a b e => some (encX d a b e 0x09)
  | .cmpct d a => some (encX d a 0 0 0x0A)
  | .publish d a => some (encX d a 0 0 0x0B)
  | .migrate d a b => some (encX d a b 0 0x0C)
  | .coll d a b => some (encX d a b 0 0x0D)
  | .waitw d a b => some (encX d a b 0 0x0E)
  | .assert d a => some (encX d a 0 0 0x10)
  | .retract a => some (encX 0 a 0 0 0x11)
  | .modify d a b => some (encX d a b 0 0x12)
  | .settle d => some (encX d 0 0 0 0x13)
  | .select d a b => some (encX d a b 0 0x14)
  | .fired a => some (encX 0 a 0 0 0x15)
  | .wave => some (encX 0 0 0 0 0x16)
  | .scoreclr a => some (encX 0 a 0 0 0x17)
  | .trap e => some (encX 0 0 0 e 0x20)
  | .hvcall e => some (encX 0 0 0 e 0x21)
  | .brk e => some (encX 0 0 0 e 0x22)
  | .rett => some (encX 0 0 0 0 0x23)
  | .sread d n m => some (encX d n m 0 0x24)
  | .swrite d n m => some (encX d n m 0 0x25)
  | .tlbinv a => some (encX 0 a 0 0 0x26)
  | .tlbsync => some (encX 0 0 0 0 0x27)
  | .wfe => some (encX 0 0 0 0 0x28)
  | .halt => some (encX 0 0 0 0 0x29)
  | .replay a => some (encX 0 a 0 0 0x2A)
  | .fresSupply a b => some (encX 0 a b 0 0x2B)
  | .fresRetry a b => some (encX 0 a b 1 0x2B)
  | .fresKill a b => some (encX 0 a b 2 0x2B)
  | .sqstart d a b => some (encX d a b 0 0x2C)
  | .cacheopClean a => some (encX 0 a 0 0 0x2D)
  | .cacheopInval a => some (encX 0 a 0 1 0x2D)
  | .cacheopFlush a => some (encX 0 a 0 2 0x2D)
  | .cacheopPfr a => some (encX 0 a 0 3 0x2D)
  | .cacheopPfw a => some (encX 0 a 0 4 0x2D)
  | .cacheopIinv a => some (encX 0 a 0 5 0x2D)
  | _ => none

/-- The bits of a node word. -/
def nodeWord (opc : BitVec 8) (n : NodeFields) : BitVec 128 :=
  n.route1 ++ n.route0 ++ n.imm ++ n.kc ++ n.kb ++ n.ka ++ n.arity ++ n.flags ++ n.var ++ n.fmt ++ opc

/-- The opcode of a node instruction (Table 6-12). -/
def opcOf : Instr → Option (BitVec 8)
  | .vadd _ => some 0x00#8
  | .vsub _ => some 0x01#8
  | .vmul _ => some 0x02#8
  | .vfma _ => some 0x03#8
  | .vmin _ => some 0x04#8
  | .vmax _ => some 0x05#8
  | .vabs _ => some 0x06#8
  | .vneg _ => some 0x07#8
  | .vdiv _ => some 0x08#8
  | .vsqrt _ => some 0x09#8
  | .vrsq _ => some 0x0A#8
  | .vrcp _ => some 0x0B#8
  | .vexp2 _ => some 0x0C#8
  | .vlog2 _ => some 0x0D#8
  | .vtanh _ => some 0x0E#8
  | .viadd _ => some 0x10#8
  | .visub _ => some 0x11#8
  | .vimul _ => some 0x12#8
  | .vand _ => some 0x13#8
  | .vor _ => some 0x14#8
  | .vxor _ => some 0x15#8
  | .vshl _ => some 0x16#8
  | .vshr _ => some 0x17#8
  | .vcmp _ => some 0x18#8
  | .vsel _ => some 0x19#8
  | .vrsum _ => some 0x20#8
  | .vrmax _ => some 0x21#8
  | .vrmin _ => some 0x22#8
  | .vargmx _ => some 0x23#8
  | .vscan _ => some 0x24#8
  | .vperm _ => some 0x25#8
  | .vbcast _ => some 0x26#8
  | .vpopc _ => some 0x27#8
  | .vcvt _ => some 0x30#8
  | .qz _ => some 0x31#8
  | .dq _ => some 0x32#8
  | .cv8 _ => some 0x33#8
  | .bfly _ => some 0x34#8
  | .vsig _ => some 0x35#8
  | .sigchk _ => some 0x36#8
  | .mxf _ => some 0x40#8
  | .mxclm _ => some 0x41#8
  | .mxrel _ => some 0x42#8
  | .mxmul _ => some 0x43#8
  | .mxdrn _ => some 0x44#8
  | .mxzero _ => some 0x45#8
  | .mxrec _ => some 0x46#8
  | .mxsigm _ => some 0x47#8
  | .steer _ => some 0x50#8
  | .merge _ => some 0x51#8
  | .reord _ => some 0x52#8
  | .loop _ => some 0x53#8
  | .next _ => some 0x54#8
  | .lexit _ => some 0x55#8
  | .call _ => some 0x56#8
  | .ret _ => some 0x57#8
  | .ctr _ => some 0x58#8
  | .sloop _ => some 0x59#8
  | .isect _ => some 0x5A#8
  | .union _ => some 0x5B#8
  | .stopg _ => some 0x5C#8
  | .delay _ => some 0x5D#8
  | .sink _ => some 0x5E#8
  | .dup _ => some 0x5F#8
  | .switch _ => some 0x60#8
  | .selx _ => some 0x61#8
  | .cjoin _ => some 0x62#8
  | .cleave _ => some 0x63#8
  | .cbar _ => some 0x64#8
  | .cnt _ => some 0x65#8
  | .const _ => some 0x66#8
  | .agen _ => some 0x70#8
  | .ldn _ => some 0x71#8
  | .stn _ => some 0x72#8
  | .ldx _ => some 0x73#8
  | .stx _ => some 0x74#8
  | .atom _ => some 0x75#8
  | .mcas _ => some 0x76#8
  | .pref _ => some 0x77#8
  | .spacc _ => some 0x78#8
  | .param _ => some 0x79#8
  | .delta _ => some 0x80#8
  | .alpha _ => some 0x81#8
  | .bjoin _ => some 0x82#8
  | .bneg _ => some 0x83#8
  | .score _ => some 0x84#8
  | .term _ => some 0x85#8
  | _ => none

/-- The node word of a node instruction. -/
def encodeNode (i : Instr) : Option (BitVec 128) :=
  match opcOf i, i.node? with
  | some o, some n => some (nodeWord o n)
  | _, _ => none

/-- The words of an instruction, first at the lowest address: one for a core instruction, four for a node, none for an
event, which has no encoding. -/
def encode (i : Instr) : List (BitVec 32) :=
  match encodeS i with
  | some w => [w]
  | none => match encodeNode i with
    | some w => [w.extractLsb' 0 32, w.extractLsb' 32 32, w.extractLsb' 64 32, w.extractLsb' 96 32]
    | none => []

/-- The 32-bit word whose bytes, lowest address first, are given (R104). -/
def wordOfBytes (bs : List Byte) : BitVec 32 :=
  BitVec.ofNat 32 (bs.foldr (fun b acc => b.toNat + 256 * acc) 0)

/-- Decoding from the bytes in memory: four are a core word, sixteen a node word. -/
def decodeBytes (bs : List Byte) : Option Instr :=
  if bs.length = 4 then decodeS (wordOfBytes bs)
  else if bs.length = 16 then decodeNode (BitVec.ofNat 128 (bs.foldr (fun b acc => b.toNat + 256 * acc) 0))
  else none

/-- Bytes of a number, lowest first. -/
def natBytes (n w : Nat) : List Byte := (List.range n).map fun i => BitVec.ofNat 8 (w >>> (8 * i))

/-- The instruction that the decoder reads from an opcode-table word. -/
def decodeTableWord (nbits w : Nat) : Option Instr := decodeBytes (natBytes (if nbits ≤ 32 then 4 else 16) w)

end Sys2Proof
end

