-- ==== Sys2Proof/Config.lean ====
section
/-!
DEFINITION. What the specification leaves open, as constants without a body: nothing can be proved of their values. Each
free value is applied to the state's counter `fresh` (log 2), so two uses are two values.
-/

namespace Sys2Proof.Config

/-- A free 64-bit value. -/
opaque freeWord : Nat → Word

/-- A free byte. -/
opaque freeByte : Nat → Byte

/-- A free choice. -/
opaque freeBool : Nat → Bool

/-- A free index. -/
opaque freeIndex : Nat → Nat

/-- A free 64-bit value in a peer device's memory: a moment, an address. -/
opaque peerWord : Nat → Nat → Word

/-- Fabric cycles that pass in a step (log 2). -/
opaque elapsed : Nat → Nat

/-- Outcome of the XMSS^MT check of an image: signed bytes, signature, public root (06 R127; log 13). -/
opaque signatureValid : List Byte → List Byte → List Byte → Bool

/-- The snapshot layout's size in 4 KiB units, of a configuration's bytes hash and shape (09 R169, 21 R341; log 14). -/
opaque saveUnits : BitVec 256 → BitVec 32

/-- Bytes of a snapshot's body, whose layout is the device's own (21 R341; log 14). -/
opaque snapshotByte : Nat → Nat → Byte

/-- Does the security processor's firmware verify at power-on (26 R402)? -/
opaque firmwareGenuine : Nat → Bool

/-- Does the partition monitor verify at power-on (26 R402)? -/
opaque monitorGenuine : Nat → Bool

/-- A free value of a configuration's run: the run's seed, a node's tile and slot, how many the node has taken (log 2). -/
opaque runValue : Nat → Nat → Nat → Nat

/-- Has the device 768 GiB of HBM4 installed, not 576 (00 R1, Table 0-1; log 82)? -/
opaque fullCapacity : Bool

/-- Thermal and process monitors (24 Table 24-7): the reading at a time of a die and cluster. -/
opaque temperature : Nat → DieId → BitVec 7 → BitVec 16

/-- Ring-oscillator frequency of a die. -/
opaque ringFrequency : Nat → DieId → BitVec 32

/-- SEQ of what a node without a token port sends, by its place and activation (R204; log 95). -/
opaque portlessSeq : Nat → BitVec 16

end Sys2Proof.Config
end

