-- ==== Sys2Proof/Machine/State.lean ====
section
/-!
DEFINITION. The machine's state as plain data: everything spec/ gives the device, its dies, cores, partitions and regions
(INVENTORY.md lists each with its rule and reset value), the reasons a step can stop, and the state after reset. Fields
marked MODEL are the model's own bookkeeping (logs 1 and 2).
-/

namespace Sys2Proof.Machine

open Sys2Proof

/-- Reasons the machine stops. None: every fault of the specification is an exception, a parked activation, a frozen
region or a completion value, each a next state. -/
inductive Fault where
  /-- Raised by no meaning; kept so that the outcome type has a fault to name. Safe: it is never answered. -/
  | none
deriving DecidableEq, Repr

/-- Reasons an instruction has no outcome in the model. -/
inductive Refusal where
  /-- Raised by an arm of `exec` whose instruction has no meaning yet. Safe: nothing can be proved of such a step. -/
  | notModelled (mnemonic : String)
deriving DecidableEq, Repr

/-! ### Tokens and loaded configurations -/

/-- A token (01 Table 1-3, 06 Tables 6-13 and 6-14). Its parity part is a function of these (`Token.parity`, R21); flipped bits
are carried beside a token by what holds it. -/
structure Token where
  kind : BitVec 3
  fmt : BitVec 5
  sig : BitVec 7
  pred : Bool
  ctx : BitVec 12
  iter : BitVec 16
  drow : BitVec 5
  dcol : BitVec 6
  node : BitVec 6
  port : BitVec 2
  seq : BitVec 16
  scale : BitVec 64
  payload : BitVec 512
deriving DecidableEq, Repr

/-- A shape record (05 Table 5-1). -/
structure ShapeRec where
  base : Word
  fmt : BitVec 8
  ndim : BitVec 8
  flags : BitVec 16
  e0 : BitVec 32
  e1 : BitVec 32
  e2 : BitVec 32
  e3 : BitVec 32
  s0 : Word
  s1 : Word
  s2 : Word
  s3 : Word
deriving DecidableEq, Repr

/-- A node of a configuration (R112): its tile, slot and word. -/
structure NodeAt where
  row : BitVec 5
  col : BitVec 6
  slot : BitVec 6
  word : BitVec 128
deriving DecidableEq, Repr

/-- A sticky entry (R123). -/
structure StickyAt where
  row : BitVec 5
  col : BitVec 6
  slot : BitVec 6
  port : BitVec 2
  tok : Token
deriving DecidableEq, Repr

/-- The shape record of an AGEN node (R123). -/
structure ShapeAt where
  row : BitVec 5
  col : BitVec 6
  slot : BitVec 6
  shape : ShapeRec
deriving DecidableEq, Repr

/-- A PBT entry as LAUNCH copies it into the region controller (R124, R128): side, index, direction (true: out), and the
reading node of an inward port. -/
structure PbtAt where
  side : BitVec 2
  idx : BitVec 8
  out : Bool
  slot : BitVec 8
  port : BitVec 8
  shape : ShapeRec
  /-- The default record's bytes as stored, checked when STRM uses it (R175). -/
  raw : List Byte
deriving DecidableEq, Repr

/-- A loaded configuration (Table 6-17). -/
structure Cfg where
  crows : Nat
  ccols : Nat
  flags : BitVec 8
  sigctl : BitVec 8
  sprue : Nat
  ctxwait : BitVec 32
  nodes : List NodeAt
  stickies : List StickyAt
  shapes : List ShapeAt
  pbt : List PbtAt
  rsig : BitVec 256
deriving DecidableEq, Repr

/-! ### Tokens in a region -/

/-- Where a departing token goes: target tile, which may lie one step outside the shape (an edge port, R117). -/
structure Dest where
  row : Int
  col : Int
deriving DecidableEq, Repr

/-- A departure still to be made from an output-queue entry: the route it uses (false: ROUTE0), its target, its token. -/
structure Dep where
  route : Bool
  dest : Dest
  tok : Token
deriving DecidableEq, Repr

/-- An entry of a node's output queue (R34). `reserved` entries wait for a command or an access to fill them (R230, R276);
`after` is the earliest departure time of an entry still delayed, 0 of any other (DELAY, R258); `input` the activation whose
operand on port a stays in place until the entry has departed (R257, R259). -/
structure OutEntry where
  id : Nat
  row : BitVec 5
  col : BitVec 6
  slot : BitVec 6
  reserved : Bool
  /-- Routes on which a reserved entry holds back what follows it. -/
  block : BitVec 2
  after : Word
  input : Option (BitVec 12 × BitVec 16)
  deps : List Dep
deriving DecidableEq, Repr

/-- A token in a link input queue of a tile (R20). -/
structure LinkTok where
  row : BitVec 5
  col : BitVec 6
  dir : Dir
  dest : Dest
  tok : Token
deriving DecidableEq, Repr

/-- A token delivered to its node and not yet consumed, with its arrival time; in the matching store, or spilled to the
Sprue area (R35, R36). The region's list keeps arrival order. `flips` are the bits, laid out as `Token.bits`, that storage has
flipped since (R347). -/
structure WaitTok where
  spilled : Bool
  at_ : Word
  flips : BitVec 664
  tok : Token
deriving DecidableEq, Repr

/-- A token that waits at an outward edge port (R176), with the bits that storage has flipped (R347). -/
structure EdgeTok where
  side : BitVec 2
  idx : BitVec 8
  flips : BitVec 664
  tok : Token
deriving DecidableEq, Repr

/-- Why an activation is parked (R333, R381). `seq` is the PFQ entry's SEQ once written, `page` the faulting page of a
translation fault. -/
structure ParkRec where
  ctx : BitVec 12
  iter : BitVec 16
  debug : Bool
  cause : BitVec 8
  row : BitVec 5
  col : BitVec 6
  slot : BitVec 6
  addr : Word
  page : Option Nat
  fault : Nat
  /-- Operand tokens of the faulting firing. -/
  ops : List WaitTok
  /-- What stood at its ports, immediate and sticky ones too. -/
  args : List Token
deriving DecidableEq, Repr

/-- A token withdrawn to the park area (R333), with its arrival time and the bits that storage has flipped (R347); `debug` when a comparator parked it, `dest` the edge port
beyond the shape it was bound for, if any. -/
structure ParkTok where
  debug : Bool
  at_ : Word
  flips : BitVec 664
  dest : Option Dest
  tok : Token
deriving DecidableEq, Repr

/-! ### Node state (R244, R220, R293) -/

/-- A binding of the RC's context table (R250). -/
structure Binding where
  ctx : BitVec 12
  /-- LID of a loop entry; none for a call. -/
  lid : Option (BitVec 6)
  pctx : BitVec 12
  piter : BitVec 16
  done : Nat
  exits : Nat
  closed : Bool
  /-- A call's continuation: the CALL's tile and ROUTE1. -/
  row : BitVec 5
  col : BitVec 6
  cont : BitVec 32
deriving DecidableEq, Repr

/-- An open group of a QZ node (R220). -/
structure QzGroup where
  ctx : BitVec 12
  iter : BitVec 16
  toks : List Token
deriving DecidableEq, Repr

/-- The counter of one context at an ordered MERGE or REORD, and when it last moved on (R249). -/
structure OrdCtr where
  ctx : BitVec 12
  next : BitVec 16
  dueAt : Word
  held : List Token
deriving DecidableEq, Repr

/-- A pass of a counter chain or of a sparse iteration (R254, R255), or a round of an AGEN (R271): the enable token, the
tokens still to emit, and the emissions made. -/
structure Pass where
  enable : Token
  desc : Token
  point : Nat
  total : Nat
  done : Nat
  err : Option Token
  out : List Token
deriving DecidableEq, Repr

/-- The state of ISECT and UNION for one activation (R256). -/
structure Fibre where
  ctx : BitVec 12
  iter : BitVec 16
  posA : Nat
  posB : Nat
  lastA : Option Nat
  lastB : Option Nat
  skipA : Bool
  skipB : Bool
  out : List (BitVec 32 × BitVec 7)
deriving DecidableEq, Repr

/-- A pending scorer key (R322). -/
structure ScoreKey where
  key : Word
  since : Word
  timeout : Nat
  held : List Token
deriving DecidableEq, Repr

/-- The state a node holds. `pend` are results of its last firing that wait for a firing of their own (STOPG, DUP, BJOIN,
BNEG, CBAR, SCORE, SWITCH); `roomAt` when its output queue last had room again (R36); `roundEnd` when an AGEN's last round ended (R77); `drawn` counts the free values that the
node has taken (R391; log 2). -/
structure NodeSt where
  row : BitVec 5
  col : BitVec 6
  slot : BitVec 6
  pend : List (List Dep)
  roomAt : Word
  roundEnd : Word
  drawn : Nat
  groups : List QzGroup
  ctrs : List OrdCtr
  pass : Option Pass
  fibres : List Fibre
  shape : Option ShapeRec
  params : List Token
  count : Nat
  reported : Bool
  held : List (Token × Word)
  keys : List ScoreKey
  bound : Option (BitVec 12 × BitVec 16)
  flush : Option Token
deriving DecidableEq, Repr

/-- An operand-memory slot (R226, Table 12-1); `rows` are the rows present with payload and scale lane. -/
structure OmSlot where
  row : BitVec 5
  col : BitVec 6
  slot : BitVec 6
  held : Bool
  owner : BitVec 12
  present : BitVec 32
  sfmt : BitVec 5
  tag : BitVec 6
  rows : List (BitVec 5 × BitVec 512 × BitVec 64)
deriving DecidableEq, Repr

/-- An accumulator element that is not +0 with tag 24 (R18, R238). -/
structure AmElem where
  row : BitVec 5
  col : BitVec 6
  acc : BitVec 3
  m : BitVec 5
  n : BitVec 5
  val : BitVec 32
  tag : BitVec 6
deriving DecidableEq, Repr

/-- A command in a tile's array queue (R230). -/
structure ArrayCmd where
  row : BitVec 5
  col : BitVec 6
  slot : BitVec 6
  opc : BitVec 8
  n : NodeFields
  /-- When its token arrived at its node. -/
  at_ : Word
  tok : Token
  out : Nat
deriving DecidableEq, Repr

/-- A row that MXF or an OMF store has written while commands of its tile's queue that change the slot have still to execute (R230):
the slot and its writer, what is written, and the output entries of the commands it comes after. -/
structure Fill where
  row : BitVec 5
  col : BitVec 6
  slot : BitVec 6
  ctx : BitVec 12
  r : BitVec 5
  fmt : BitVec 5
  sig : Nat
  payload : BitVec 512
  scale : BitVec 64
  behind : List Nat
deriving DecidableEq, Repr

/-- A piece of a memory access: its VA, scratch offset or OMF code, its translated address and whether that lies on a shadowed page,
its bytes, where they lie in the token (payload bytes 0 to 63, scale-lane bytes 64 to 71), and whether it has performed. -/
structure Piece where
  va : Word
  pa : Nat
  sh : Bool
  coh : BitVec 2
  n : Nat
  off : Nat
  done : Bool
deriving DecidableEq, Repr

/-- A memory access of a node that has fired and not performed (R288): the operands its firing consumed, what stood at its
ports, its pieces, the bytes loaded so far, the output entry it fills, the CT that an OMF store reaches, and whether it is
held for want of a merger entry (R338). -/
structure Acc where
  id : Nat
  site : Site
  opc : BitVec 8
  n : NodeFields
  ops : List WaitTok
  args : List Token
  port : BitVec 2
  space : BitVec 2
  ct : BitVec 3
  pieces : List Piece
  res : BitVec 576
  out : Option Nat
  /-- The MWCAS of an MCAS, once begun, and its header, once finished. -/
  mwcas : Option Nat
  mwres : Option Word
  held : Bool
deriving DecidableEq, Repr

/-- A delta of the rule engine (R312): tag number, timetag, − or +, the 16 words of its WME, its wave stamp. -/
structure Delta where
  n : BitVec 16
  tt : BitVec 40
  neg : Bool
  words : List Word
  stamp : Nat
deriving DecidableEq, Repr

/-! ### Regions -/

/-- Region controller states (Table 1-6). -/
inductive RState where | free | idle | loading | running | frozen | saved
deriving DecidableEq, Repr

/-- Precise stop of a region (R382). -/
inductive StopState where | going | stopping | stopped
deriving DecidableEq, Repr

/-- Control state of a region (R26, R27, R171, R374). `heldStore` is a completion store held on a fault (R410): the value,
the fault's number and its page. `killing` is the cause of a kill that waits for accesses that had reached their ports
(R38, R340, R363). -/
structure RegionCtl where
  st : RState
  part : PartId
  orow : Nat
  ocol : Nat
  crows : Nat
  ccols : Nat
  cfg : Option Cfg
  imageVA : Word
  cfgIdx : BitVec 6
  cword : Word
  cwLvl : Level
  heldStore : Option (Word × Nat × Nat)
  killing : Option (BitVec 8)
  /-- When the region last became quiescent (R362). -/
  quietAt : Option Word
  sigctl : Word
  ctxwait : Word
  phase : Nat
  lastFire : Word
  power : Nat
  idleSince : Option Word
  fault : BitVec 8
  /-- BHASH of the snapshot taken last, while SAVED; the hash of the whole area written, in W3. -/
  savedHash : BitVec 256
deriving DecidableEq, Repr

/-- The fabric of a region: tokens, contexts, node state, matrix state, scratch, accesses (R244, R240, R293). `fired` holds
when each tile last started a firing (R36), `lastDel` the last source that delivered to a port and when (R35), `cohFc` when a
cohort last saw a leave (false) or an arrival (true) (R33), `sent` when each stream into a tile last carried a token (R20), and
`seed` what the free values of the run depend on, drawn at LAUNCH (R391; log 2). -/
structure Fabric where
  outq : List OutEntry
  links : List LinkTok
  waiting : List WaitTok
  edge : List EdgeTok
  parkArea : List ParkTok
  parkTab : List ParkRec
  dead : List (BitVec 12 × BitVec 16)
  bindings : List Binding
  /-- Closed contexts, with the output entry of the node that closed each (R30). -/
  retiring : List (BitVec 12 × Option Nat)
  cohorts : List (BitVec 6 × BitVec 12 × BitVec 16)
  nodes : List NodeSt
  om : List OmSlot
  am : List AmElem
  arrayq : List ArrayCmd
  fills : List Fill
  scratch : List (Nat × Byte)
  lfsr : List (BitVec 5 × BitVec 6 × BitVec 32)
  cnt : List (BitVec 5 × BitVec 6 × BitVec 6 × BitVec 32 × Nat)
  injq : List Delta
  fired : List (BitVec 5 × BitVec 6 × Word)
  lastDel : List (BitVec 5 × BitVec 6 × BitVec 6 × BitVec 2 × Nat × Word)
  cohFc : List (BitVec 6 × Bool × Word)
  sent : List (BitVec 5 × BitVec 6 × Dir × Word)
  seed : Nat
  accs : List Acc
  nextId : Nat
deriving DecidableEq, Repr

/-- MODEL: what a node of a logged run has come to that no log entry tells: the context it drew, that it found none, that its wait for one
expired, the ports whose heads it took (R391; log 21). -/
inductive Choice where
  | context (c : BitVec 12)
  | dry
  | expired
  | ports (l : List (BitVec 2))
deriving DecidableEq, Repr

/-- MODEL: a choice with its node and activation. -/
structure Drawn where
  row : BitVec 5
  col : BitVec 6
  slot : BitVec 6
  ctx : BitVec 12
  iter : BitVec 16
  what : Choice
deriving DecidableEq, Repr

/-- MODEL: a run resumed from a snapshot that has logged its firings: the entries it wrote, and its choices (R391; log 21). -/
structure LoggedRun where
  log : List Word
  draws : List Drawn
deriving DecidableEq, Repr

/-- Debug state of a region (Table 25-2). `mg` holds the nonzero Marigold counters by tile, slot and counter; `replayAt` is when a
replay last used an entry of its log, or began (R390), `replayDraws` the choices that it has still to make. -/
structure RegionDbg where
  fgmatch : Vector Word 16
  fgwhere : Vector Word 16
  stop : StopState
  sample : BitVec 5
  sampleCount : Nat
  lost : Bool
  /-- Logging stopped since the last LAUNCH or RESUMR (R389). -/
  logOff : Bool
  rply : Bool
  fglist : Word
  /-- A DBGLIST runs; `listDone` is FGLSTAT.DONE. -/
  listing : Bool
  listDone : Bool
  listErr : Bool
  listOvf : Bool
  listCount : BitVec 32
  fglog : Word
  fglogidx : BitVec 32
  replay : Option (List Word)
  replayAt : Word
  replayDraws : List Drawn
  mg : List (BitVec 5 × BitVec 6 × BitVec 6 × BitVec 5 × BitVec 32)
deriving DecidableEq, Repr

structure Region where
  ctl : RegionCtl
  fab : Fabric
  dbg : RegionDbg
deriving DecidableEq, Repr

/-! ### Cores -/

/-- An f register: value and tag (R139). -/
structure FReg where
  val : Word
  tag : BitVec 7
deriving DecidableEq, Repr

/-- What a core is doing (R24, R185, R198, R199, R344). -/
inductive Run where
  | held
  | running
  | waitw (d a b : Reg)
  | wfe
  | tlbsync
  | issue (op : Nat)
  | mwcas (op : Nat)
  | halted
  | stopped
deriving DecidableEq, Repr

/-- The trap registers of one level (Tables 9-9 and 9-10). -/
structure TrapRegs where
  status : Word
  tvec : Word
  tpc : Word
  tcause : Word
  tval : Word
  tscr : Word
deriving DecidableEq, Repr

/-- Select registers of a core (Tables 9-11, 21-9, 24-2, 24-7, 25-2, 26-3). -/
structure Selects where
  sqsel : Word
  badsel : Word
  tqsel : Word
  monsel : Word
  fgsel : Word
  mgsel : Word
  pwsel : Word
deriving DecidableEq, Repr

/-- A sequencer or system core (Table 8-1, Table 9-11). `inv` are its TLBINVs not yet synchronised as VA ranges (first, bytes) of
the translations they removed (R87), `icache` the instruction words it may hold (R162; log 5), `cycBase` the FCLOCK of its
reset and `cycLast` the value CYCLE last had (Table 9-11), `entering` the cause of the trap or interrupt whose handler's first
instruction it has still to fetch (R331). -/
structure Core where
  pc : Word
  g : Vector Word 32
  f : Vector FReg 32
  fcsr : Word
  sigctl : Word
  level : Level
  pend : BitVec 32
  part : Option PartId
  run : Run
  /-- SQCTL.LEVEL (Table 21-6). -/
  sqlevel : BitVec 2
  ts : TrapRegs
  th : TrapRegs
  timecmp : Word
  sel : Selects
  dbgc : Word
  dbgwva : Word
  dbgstop : Bool
  stopReq : Bool
  crashStop : Bool
  inv : List (Nat × Nat)
  icache : List (Nat × BitVec 32)
  cycBase : Word
  cycLast : Word
  entering : Option (BitVec 8)
deriving DecidableEq, Repr

/-! ### Partitions -/

/-- Partition states (Table 26-1, R402). -/
inductive PState where | absent | running | stopped | destroying
deriving DecidableEq, Repr

/-- TDISP interface states (R395). -/
inductive TdispState where | unlocked | locked | run | error
deriving DecidableEq, Repr

/-- The K5's record of a fault (R360): what FRES reads. `id` is the model's number of the fault, `entry` the entry as
written, `tok` whether it is resolved. -/
structure FaultRec where
  id : Nat
  region : RegionId
  cause : BitVec 8
  tag : Word
  seq : Option (BitVec 32)
  slotIdx : Nat
  resumable : Bool
  parked : Bool
  resolved : Bool
  entry : List Word
deriving DecidableEq, Repr

/-- A load record (R128): image VA, RSIG of each configuration, PSIG, and when a configuration was last launched. -/
structure LoadRec where
  va : Word
  rsigs : List (BitVec 6 × BitVec 256)
  psig : BitVec 256
  used : Nat
deriving DecidableEq, Repr

/-- An instantiation of the conflict set (R324), with its rule descriptor. -/
structure Inst where
  create : BitVec 32
  rule : BitVec 16
  tts : List (BitVec 40)
  sal : BitVec 16
  wave : Nat
  desc : List Word
  batch : Option (BitVec 32)
deriving DecidableEq, Repr

/-- A TERM delivery the CSU has not applied (R323): the region's delta number, the token lanes, the rule descriptor. -/
structure Delivery where
  id : Nat
  node : BitVec 5 × BitVec 6 × BitVec 6
  n : BitVec 16
  lanes : List Word
  desc : List Word
  stamp : Nat
deriving DecidableEq, Repr

/-- Rule-engine state of a partition (R187, R312, R321 to R327). -/
structure Rules where
  rmcfg : Word
  wmbase : Word
  rmcount : Word
  timetag : Nat
  deltaCount : BitVec 16
  wave : Nat
  selected : Bool
  insts : List Inst
  overflow : Bool
  batch : Option (BitVec 32)
  nextBatch : BitVec 32
  creation : BitVec 32
  scoreTimeout : Bool
  unsettled : List Delta
  deliveries : List Delivery
deriving DecidableEq, Repr

/-- A partition (R24, R25). -/
structure Partition where
  st : PState
  grant : List (Nat × Nat)
  /-- Its pseudo-channel groups (R372, Table 24-4; log 83). -/
  groups : BitVec 256
  ptroot : Word
  viewtab : Word
  pfqbase : Word
  pfqsize : Word
  pfqhead : BitVec 16
  pfqtail : BitVec 16
  pfqSeq : BitVec 32
  deferred : List (Nat × List Word)
  faults : List FaultRec
  hangbase : Word
  lattol : Word
  pwrbase : Word
  fgtrace : Word
  fgtrcnt : Word
  traceq : List (Word × List Word)
  crashk : Word
  crashd : Word
  keySlots : List (BitVec 4 × List Byte)
  keyed : Bool
  measured : List Word
  loads : List LoadRec
  hostEvent : Bool
  thermal : Option (BitVec 10)
  winbase : Word
  tdisp : TdispState
  rules : Rules
deriving DecidableEq, Repr

/-! ### Operations in progress (R163) -/

/-- What an asynchronous operation does. -/
inductive OpKind where
  | reqr (die : DieId) (queue : BitVec 6) (rows cols : Nat)
  | resumr (die : DieId) (queue : BitVec 6) (save : Word) (r : RegionId)
  | loadimg (va : Word)
  /-- A LOADIMG whose image has passed its checks: the DATA sections still to copy, and the load record (R127, R128). -/
  | loadimgData (todo : List (Word × List Byte)) (rec : LoadRec)
  | launch (r : RegionId) (img : Word) (idx : BitVec 6) (cw : Word)
  | loading (r : RegionId)
  | killr (r : RegionId)
  | snapshot (r : RegionId) (save : Word)
  | strm (r : RegionId) (port : Word) (shape : ShapeRec) (phase : Nat) (out : Bool)
  | sbar (r : RegionId)
  | copy (dst src len : Word)
  | cmpct (desc : Word)
  | publish (va : Word)
  | migrate (va frame : Word) (old : Nat) (opened : Bool)
  | coll (group desc : Word)
  | settle
  | select (buf limit : Word)
  | mwcas (blk : Word)
  /-- A SQSTART whose core has still to fetch its first instruction (R199). -/
  | sqstart (c : CoreId)
deriving DecidableEq, Repr

/-- Progress of a MWCAS (R100): its agent and partition, whether its port streams (HINT 01, Table 5-1), the physical address and COH of each word of its block, n, its
entries as (VA, PA, COH, EXP, NEW), lines still to lock in order, lines held, the slices whose commit is still to come, the
commits sent, the observed values once compared, and the header to write. -/
structure Mwcas where
  op : Nat
  part : PartId
  agent : Agent
  stream : Bool
  blk : Word
  at_ : List (Nat × BitVec 2)
  n : Nat
  entries : List (Word × Nat × BitVec 2 × Word × Word)
  want : List Nat
  held : List Nat
  commits : List Nat
  committed : Nat
  observed : List Word
  result : Option Word
deriving DecidableEq, Repr

/-- Who a MWCAS executes for: a core's register, or an MCAS access of a region. -/
inductive MwOwner where
  | core (c : CoreId) (d : Reg)
  | node (r : RegionId) (acc : Nat)
deriving DecidableEq, Repr

/-- An asynchronous operation (R163, R409): its number, core, token register, issue level, partition, time of issue.
Progress fields serve stream rounds (units done, tokens of the partial outward token, hold); `fail` is the value with which a round
that has failed will complete. -/
structure Op where
  id : Nat
  core : CoreId
  d : Reg
  lvl : Level
  part : PartId
  kind : OpKind
  since : Word
  unit : Nat
  buf : List Byte
  sbuf : List Byte
  /-- A stream access held on a fault: the fault's number, cause and page (R410). -/
  held : Option (Nat × BitVec 8 × Nat)
  fail : Option Word
deriving DecidableEq, Repr

/-! ### Memory system -/

/-- A cached translation (R86): the agent and, where its L1 is fused, the MT whose translation cache holds it (Table 1-2), partition,
VA range (first, bytes), PA of the first byte, leaf bits, and of a shadowed page the view's selector (R96). -/
structure TlbEntry where
  agent : Agent
  mt : Nat
  part : PartId
  va : Nat
  size : Nat
  pa : Nat
  pte : Word
  sel : Bool
deriving DecidableEq, Repr

/-- States of a directory entry (R89). -/
inductive DirState where | sh (a : List Agent) | ow (a : Agent)
deriving DecidableEq, Repr

/-- A directory entry (R89); a granule that no entry covers is in state I. -/
structure DirEntry where
  base : Nat
  size : Nat
  st : DirState
  since : Word
deriving DecidableEq, Repr

/-- An S-line copy of an agent (R88): the partition it was filled for, the 128 bytes, byte i in bits [8i+7:8i], and the dirty mark
of each byte. -/
structure SLine where
  agent : Agent
  part : PartId
  line : Nat
  data : BitVec 1024
  dirty : BitVec 128
deriving DecidableEq, Repr

/-- An open dual-home window (R93): frames old and new; of an old frame in a peer's memory, the offsets written since the window
opened. -/
structure Migration where
  op : Nat
  part : PartId
  va : Nat
  old : Nat
  new : Nat
  wrote : List Nat
deriving DecidableEq, Repr

/-- An entry of the fault merger (R338): partition, page, merged count, the fault's number. -/
structure MergeEntry where
  part : PartId
  page : Nat
  count : Nat
  fault : Nat
deriving DecidableEq, Repr

/-- The key of a link's direction for a pair of partitions (R404): sender, receiver, the SEQ of the next flit, and how often
KEY_UPDATE has renewed it. -/
structure LinkKey where
  src : PartId
  dst : PartId
  seq : BitVec 48
  gen : Nat
deriving DecidableEq, Repr

/-- A flit that this device has sent (R404): SEQ, pair, type, GCM nonce, and the data whose ciphertext its body is. -/
structure SentFlit where
  seq : BitVec 48
  src : PartId
  dst : PartId
  typ : BitVec 8
  nonce : BitVec 96
  data : List Byte
deriving DecidableEq, Repr

/-- A Llynyx link (R404, R405): `keys` of the receiving direction, `tx` of the sending one, the replay buffer of the last 64 flits
sent. A pair without a key entry is at SEQ 0 of its first key. -/
structure Link where
  down : Bool
  keys : List LinkKey
  tx : List LinkKey
  replay : List SentFlit
  /-- Consecutive failures of the flit expected next. -/
  fails : Nat
  /-- Responses that failed authentication and have failed no access yet: the partition, whose access each answered (R405). -/
  authFail : List (PartId × Answers)
deriving DecidableEq, Repr

/-- A write to peer memory (R406): the writing partition, the window, its link, device and partition then, the offset, the data. -/
structure PeerWrite where
  src : PartId
  win : Nat
  link : BitVec 4
  dev : BitVec 16
  dst : PartId
  off : Nat
  data : List Byte
deriving DecidableEq, Repr

/-- A Tundish queue (Table 24-2): its bids are operation numbers in order; bids beyond the 16th wait at issue. -/
structure TQueue where
  rank : BitVec 3
  en : Bool
  owner : PartId
  bids : List Nat
  byp : Nat
deriving DecidableEq, Repr

/-- The device's side of the links and peer windows (R404 to R406): DEVNUM, the links, PWIN. -/
structure Net where
  devnum : BitVec 16
  links : Vector Link 16
  pwin : Vector Word 192
deriving DecidableEq, Repr

/-- A compute die (R15, R16, R348, R364, R369, R373 to R378). `freeAt` holds since when a cluster that a region has left is free,
`asleep` the free clusters that are in W3 (R374), `ueLast` the last store error of each tile (R346). -/
structure Die where
  badTiles : List (BitVec 5 × BitVec 6)
  retired : Option (BitVec 8)
  retcol : BitVec 8
  queues : Vector TQueue 64
  held : Option Nat
  round : Bool
  limited : List (BitVec 7)
  droop : List (BitVec 7 × BitVec 32)
  freeAt : List (BitVec 7 × Word)
  asleep : List (BitVec 7)
  ueLast : List (BitVec 5 × BitVec 6 × Word)
  w4 : Bool
deriving DecidableEq, Repr

/-- A record of the RAS log: code and detail (R92, R350). -/
structure RasRec where
  code : BitVec 8
  info : Word
deriving DecidableEq, Repr

/-- A response of the security processor (R397): function, request code, signature index used. -/
structure SpdmResp where
  fn : SpdmFn
  code : BitVec 8
  error : Bool
  sig : Option Nat
  data : List Word
deriving DecidableEq, Repr

/-- What the host has received (R395, R396, R403). -/
inductive HostMsg where
  | data (p : PartId) (bytes : List Byte)
  | done (p : PartId)
  | unsupported (p : PartId)
  | poisoned (p : PartId)
  | msix (p : PartId)
deriving DecidableEq, Repr

/-- What the storage device has received (R394). -/
inductive DmaMsg where
  | data (bytes : List Byte)
  | done
  | unsupported
deriving DecidableEq, Repr

/-- MODEL: whose step comes next (log 1). -/
inductive Turn where
  | core (c : CoreId)
  | fire (n : Site)
  | event (i : Instr)
deriving DecidableEq, Repr

/-- The memory system. -/
structure MemSys where
  mem : List (Nat × Byte)
  tlb : List TlbEntry
  dir : List DirEntry
  slines : List SLine
  locks : List (Nat × Nat)
  mwcas : List (Mwcas × MwOwner)
  incarnation : List (Agent × BitVec 16)
  poison : List Nat
  /-- Lines whose stored MAC does not match; only the outside world makes one (R400). -/
  badMac : List Nat
  migrations : List Migration
  /-- Recalls sent and not yet answered: holder, line, when (R92). -/
  recalls : List (Agent × Nat × Word)
  merger : List MergeEntry
  peerWrites : List PeerWrite
  /-- Writes to the device-register range, in order (R296, R394; log 18). -/
  deviceWrites : List (Nat × List Byte)
  net : Net
deriving DecidableEq, Repr

/-- The outside world's side of the device. -/
structure Ports where
  /-- Flits of collectives that have arrived and that no COLL has taken yet, with their links (R407). -/
  flitsIn : List (BitVec 4 × Flit)
  spdmOut : List SpdmResp
  sigIndex : Nat
  /-- SPDM sessions: 0 while the handshake runs, then 1 and one more for each KEY_UPDATE. -/
  sessions : List (SpdmFn × Nat)
  /-- The measurement register of the partition monitor (R402). -/
  measured : List Word
  hostOut : List HostMsg
  /-- Writes to a window that wait for a locked line, in order: partition, VA, bytes (R99, R396). -/
  winQueue : List (PartId × Word × List Byte)
  dmaOut : List DmaMsg
  rasLog : List RasRec
  stgown : Word
deriving DecidableEq, Repr

/-- A snapshot's content, found again by its body (R341, R342; log 14), with the settlement state of a match network's deltas
(R313). `runs` are those resumed from it, the last one first (R391). -/
structure Save where
  bhash : BitVec 256
  region : Region
  ops : List Op
  unsettled : List Delta
  deliveries : List Delivery
  runs : List LoggedRun
deriving DecidableEq, Repr

/-- The whole device. -/
structure State where
  /-- MODEL: turns still to come; empty lets core `cur` go on. -/
  agenda : List Turn
  cur : CoreId
  site : Site
  fresh : Nat
  booted : Bool
  /-- A step of the bring-up has failed: the device is held (R402). -/
  heldUp : Bool
  fclock : Word
  syscfg : Word
  sq : Vector Core 64
  sy : Vector Core 16
  parts : Vector Partition 16
  regions : Vector Region 64
  dies : Vector Die 4
  ms : MemSys
  ops : List Op
  nextOp : Nat
  nextFault : Nat
  ports : Ports
  saves : List Save
deriving DecidableEq, Repr

/-! ### Reset -/

def TrapRegs.reset : TrapRegs := ⟨0, 0, 0, 0, 0, 0⟩
def Selects.reset : Selects := ⟨0, 0, 0, 0, 0, 0, 0⟩

/-- A core at reset: held until it is started (R402); registers without a reset value read 0 (log 3). -/
def Core.reset : Core where
  pc := 0
  g := Vector.replicate 32 0
  f := Vector.replicate 32 ⟨0, 0⟩
  fcsr := 0
  sigctl := 0
  level := .s
  pend := 0
  part := none
  run := .held
  sqlevel := 1
  ts := TrapRegs.reset
  th := TrapRegs.reset
  timecmp := 0
  sel := Selects.reset
  dbgc := 0
  dbgwva := 0
  dbgstop := false
  stopReq := false
  crashStop := false
  inv := []
  icache := []
  cycBase := 0
  cycLast := 0
  entering := none

def Rules.reset : Rules where
  rmcfg := 0
  wmbase := 0
  rmcount := 0
  timetag := 1
  deltaCount := 0
  wave := 0
  selected := false
  insts := []
  overflow := false
  batch := none
  nextBatch := 1
  creation := 1
  scoreTimeout := false
  unsettled := []
  deliveries := []

/-- A partition at reset: absent. PFQSIZE.LOGN resets to 6, FGTRACE.LOGN to 7. -/
def Partition.reset : Partition where
  st := .absent
  grant := []
  groups := 0
  ptroot := 0
  viewtab := 0
  pfqbase := 0
  pfqsize := 6
  pfqhead := 0
  pfqtail := 0
  pfqSeq := 1
  deferred := []
  faults := []
  hangbase := 0
  lattol := 0
  pwrbase := 0
  fgtrace := 0xE
  fgtrcnt := 0
  traceq := []
  crashk := 0
  crashd := 0
  keySlots := []
  keyed := false
  measured := []
  loads := []
  hostEvent := false
  thermal := none
  winbase := 0
  tdisp := .unlocked
  rules := Rules.reset

def RegionCtl.reset : RegionCtl where
  st := .free
  part := 0
  orow := 0
  ocol := 0
  crows := 0
  ccols := 0
  cfg := none
  imageVA := 0
  cfgIdx := 0
  cword := 0
  cwLvl := .u
  heldStore := none
  killing := none
  quietAt := none
  sigctl := 0
  ctxwait := 0x10000
  phase := 0
  lastFire := 0
  power := 0
  idleSince := none
  fault := 0
  savedHash := 0

def Fabric.reset : Fabric where
  outq := []
  links := []
  waiting := []
  edge := []
  parkArea := []
  parkTab := []
  dead := []
  bindings := []
  retiring := []
  cohorts := []
  nodes := []
  om := []
  am := []
  arrayq := []
  fills := []
  scratch := []
  lfsr := []
  cnt := []
  injq := []
  fired := []
  lastDel := []
  cohFc := []
  sent := []
  seed := 0
  accs := []
  nextId := 0

def RegionDbg.reset : RegionDbg where
  fgmatch := Vector.replicate 16 0
  fgwhere := Vector.replicate 16 0
  stop := .going
  sample := 0
  sampleCount := 0
  lost := false
  logOff := false
  rply := false
  fglist := 0
  listing := false
  listDone := true
  listErr := false
  listOvf := false
  listCount := 0
  fglog := 0
  fglogidx := 0
  replay := none
  replayAt := 0
  replayDraws := []
  mg := []

def Region.reset : Region := ⟨RegionCtl.reset, Fabric.reset, RegionDbg.reset⟩

def Die.reset : Die where
  badTiles := []
  retired := none
  retcol := 0xFF
  queues := Vector.replicate 64 ⟨0, false, 0, [], 0⟩
  held := none
  round := false
  limited := []
  droop := []
  freeAt := []
  asleep := []
  ueLast := []
  w4 := false

def Net.reset : Net := ⟨0, Vector.replicate 16 ⟨false, [], [], [], 0, []⟩, Vector.replicate 192 0⟩

def MemSys.reset : MemSys := ⟨[], [], [], [], [], [], [], [], [], [], [], [], [], [], Net.reset⟩

def Ports.reset : Ports where
  flitsIn := []
  spdmOut := []
  sigIndex := 0
  sessions := []
  measured := []
  hostOut := []
  winQueue := []
  dmaOut := []
  rasLog := []
  stgown := 0

/-- SYSCFG at reset: IDLE 14, BYP 16, HANG 24, RECTO 14, DIRQ 20 (Tables 5-8, 21-7, 24-3). -/
def syscfgReset : Word := (14 <<< 21) ||| (16 <<< 15) ||| (24 <<< 10) ||| (14 <<< 5) ||| 20

/-- The device right after reset: nothing booted, every core held, no partition, memory empty. -/
def State.reset : State where
  agenda := []
  cur := .sy 0
  site := ⟨0, 0, 0, 0, 0, 0⟩
  fresh := 0
  booted := false
  heldUp := false
  fclock := 0
  syscfg := syscfgReset
  sq := Vector.replicate 64 Core.reset
  sy := Vector.replicate 16 Core.reset
  parts := Vector.replicate 16 Partition.reset
  regions := Vector.replicate 64 Region.reset
  dies := Vector.replicate 4 Die.reset
  ms := MemSys.reset
  ops := []
  nextOp := 0
  nextFault := 1
  ports := Ports.reset
  saves := []

end Sys2Proof.Machine
end

