-- ==== Sys2Proof/Machine/Mem.lean ====
section
/-!
DEFINITION. Physical memory in canonical form, the caches of S-lines, the home directory, address translation, and the
checked accesses that every agent makes (05_memory.md).
-/

namespace Sys2Proof.Machine

/-- A list in the order of `le`, elements that tie keeping their order; the kernel evaluates it. -/
def sortBy {α : Type} (le : α → α → Bool) (l : List α) : List α := l.insertionSort fun a b => le a b = true

open Sys2Proof

/-! ### Byte memory: a list of cells with rising addresses and no zero byte (log 4: an unlisted byte reads 0) -/

abbrev Memory := List (Nat × Byte)

/-- The byte at an address; an address that is not listed reads 0 (log 4). -/
def Memory.read : Memory → Nat → Byte
  | [], _ => 0
  | (k, v) :: m, a => if a < k then 0 else if a = k then v else Memory.read m a

/-- Puts a byte in front of cells with higher addresses, leaving zeros out. -/
def Memory.consNZ (a : Nat) (b : Byte) (m : Memory) : Memory := if b = 0 then m else (a, b) :: m

/-- Writes a byte and keeps the canonical form. -/
def Memory.write : Memory → Nat → Byte → Memory
  | [], a, b => Memory.consNZ a b []
  | (k, v) :: m, a, b =>
    if a < k then Memory.consNZ a b ((k, v) :: m)
    else if a = k then Memory.consNZ a b m
    else (k, v) :: Memory.write m a b

/-- Every address is above `lo`, addresses rise, no listed byte is 0. -/
def Memory.wfFrom : Nat → Memory → Bool
  | _, [] => true
  | lo, (k, v) :: m => lo ≤ k && v != 0 && Memory.wfFrom (k + 1) m

/-- The canonical form. -/
def Memory.wf (m : Memory) : Bool := Memory.wfFrom 0 m

/-- n bytes at an address as a number, lowest byte first (R8). -/
def Memory.readLE (m : Memory) (a : Nat) : Nat → Nat
  | 0 => 0
  | n + 1 => (m.read a).toNat + 256 * Memory.readLE m (a + 1) n

/-- Writes the n low bytes of a number, lowest first (R8). -/
def Memory.writeLE (m : Memory) (a v : Nat) : Nat → Memory
  | 0 => m
  | n + 1 => Memory.writeLE (m.write a (BitVec.ofNat 8 v)) (a + 1) (v / 256) n

/-- Writes a list of bytes from an address on. -/
def Memory.writeBytes (m : Memory) (a : Nat) : List Byte → Memory
  | [] => m
  | b :: bs => Memory.writeBytes (m.write a b) (a + 1) bs

/-- n bytes from an address on. -/
def Memory.readBytes (m : Memory) (a n : Nat) : List Byte := (List.range n).map fun i => m.read (a + i)

/-- The line of a physical address (R78: 128 bytes). -/
def lineOf (pa : Nat) : Nat := pa / 128

/-! ### Physical address map (Table 5-3) -/

def peerBase : Nat := 0xC00000000000
def deviceBase : Nat := 0xF00000000000
def isPeer (pa : Nat) : Bool := peerBase ≤ pa && pa < deviceBase
def isDevice (pa : Nat) : Bool := deviceBase ≤ pa

/-- Window of a peer address (R406: 192 windows of 256 GiB). -/
def peerWin (pa : Nat) : Nat := (pa - peerBase) / 2 ^ 38

/-- PWIN of a window. -/
def Net.win (t : Net) (w : Nat) : Word := t.pwin.toList.getD w 0
def State.pwinOf (s : State) (w : Nat) : Word := s.ms.net.win w

def Net.link (t : Net) (l : BitVec 4) : Link := t.links[l.toNat]'l.isLt
def Net.updLink (t : Net) (l : BitVec 4) (f : Link → Link) : Net := { t with links := t.links.set l.toNat (f (t.link l)) l.isLt }

/-- Fields of PWIN (Table 26-3). -/
def winLink (w : Word) : BitVec 4 := w.extractLsb' 24 4
def winPart (w : Word) : PartId := w.extractLsb' 20 4
def winDev (w : Word) : BitVec 16 := w.extractLsb' 0 16

/-- The link that serves a window. -/
def State.peerLink (s : State) (w : Nat) : Link := s.ms.net.link (winLink (s.pwinOf w))

/-! ### Flits sent (R404, R405) -/

/-- The key entry of a pair in one direction of a link; a pair without one is at SEQ 0 of its first key. -/
def keyOf (ks : List LinkKey) (src dst : PartId) : LinkKey :=
  (ks.find? fun e => e.src == src && e.dst == dst).getD ⟨src, dst, 0, 0⟩

def setKey (e : LinkKey) (ks : List LinkKey) : List LinkKey := e :: ks.filter fun x => !(x.src == e.src && x.dst == e.dst)

/-- The GCM nonce of a flit (R404); direction 0 is that in which the lower-numbered device transmits. -/
def flitNonce (seq : BitVec 48) (src dst : PartId) (dir : Bool) : BitVec 96 := seq ++ src ++ dst ++ 0#7 ++ BitVec.ofBool dir ++ 0#32

/-- Sends a flit over a link to a device: the key is updated before its SEQ would reach 2^48 − 1, SEQ rises by 1, and the last 64
flits stay in the replay buffer (R404, R405). -/
def Net.send (t : Net) (l : BitVec 4) (dev : BitVec 16) (src dst : PartId) (typ : BitVec 8) (data : List Byte) : Net :=
  let e := keyOf (t.link l).tx src dst
  let e : LinkKey := if e.seq.toNat = 2 ^ 48 - 2 then { e with seq := 0, gen := e.gen + 1 } else e
  let f : SentFlit := ⟨e.seq, src, dst, typ, flitNonce e.seq src dst (dev.toNat < t.devnum.toNat), data⟩
  t.updLink l fun k => { k with tx := setKey { e with seq := e.seq + 1 } k.tx, replay := (k.replay ++ [f]).drop (k.replay.length - 63) }

/-- A request of partition p goes out through a window (R406). -/
def netRequest (p : PartId) (w : Nat) (data : List Byte) (ms : MemSys) : MemSys :=
  let x := ms.net.win w
  { ms with net := ms.net.send (winLink x) (winDev x) p (winPart x) 1 data }

/-- n bytes of a number, lowest first. -/
def leBytes (n v : Nat) : List Byte := (List.range n).map fun i => BitVec.ofNat 8 (v / 256 ^ i)

/-- Offset of a peer address in its window. -/
def peerOff (pa : Nat) : Nat := (pa - peerBase) % 2 ^ 38

/-- The body of a request: read or write, offset, length, the bytes to write. DESIGN CHOICE (log 38): Table 26-2 gives BODY no layout. -/
def reqBody (write : Bool) (off n : Nat) (bs : List Byte) : List Byte :=
  [BitVec.ofNat 8 write.toNat] ++ leBytes 8 off ++ [BitVec.ofNat 8 n] ++ bs

/-- Asks a peer for n bytes (R406). -/
def peerAsk (p : PartId) (pa n : Nat) (ms : MemSys) : MemSys := netRequest p (peerWin pa) (reqBody false (peerOff pa) n []) ms

/-- Records a write that goes to peer memory, and its request (R406). -/
def peerSend (p : PartId) (ms : MemSys) (pa v n : Nat) : MemSys :=
  let w := peerWin pa
  let x := ms.net.win w
  let bs := leBytes n v
  netRequest p w (reqBody true (peerOff pa) n bs) { ms with
    peerWrites := ms.peerWrites ++ [⟨p, w, winLink x, winDev x, winPart x, peerOff pa, bs⟩] }

/-! ### Indexed parts of the state -/

def State.core (s : State) : CoreId → Core
  | .sq n => s.sq[n.toNat]'n.isLt
  | .sy n => s.sy[n.toNat]'n.isLt

def State.setCore (s : State) (c : CoreId) (x : Core) : State :=
  match c with
  | .sq n => { s with sq := s.sq.set n.toNat x n.isLt }
  | .sy n => { s with sy := s.sy.set n.toNat x n.isLt }

def State.updCore (s : State) (c : CoreId) (f : Core → Core) : State := s.setCore c (f (s.core c))

def State.part (s : State) (p : PartId) : Partition := s.parts[p.toNat]'p.isLt
def State.setPart (s : State) (p : PartId) (x : Partition) : State := { s with parts := s.parts.set p.toNat x p.isLt }
def State.updPart (s : State) (p : PartId) (f : Partition → Partition) : State := s.setPart p (f (s.part p))

def State.region (s : State) (r : RegionId) : Region := s.regions[r.toNat]'r.isLt
def State.setRegion (s : State) (r : RegionId) (x : Region) : State :=
  { s with regions := s.regions.set r.toNat x r.isLt }
def State.updRegion (s : State) (r : RegionId) (f : Region → Region) : State := s.setRegion r (f (s.region r))
def State.updCtl (s : State) (r : RegionId) (f : RegionCtl → RegionCtl) : State :=
  s.updRegion r fun x => { x with ctl := f x.ctl }
def State.updFab (s : State) (r : RegionId) (f : Fabric → Fabric) : State :=
  s.updRegion r fun x => { x with fab := f x.fab }
def State.updDbg (s : State) (r : RegionId) (f : RegionDbg → RegionDbg) : State :=
  s.updRegion r fun x => { x with dbg := f x.dbg }

def State.die (s : State) (d : DieId) : Die := s.dies[d.toNat]'d.isLt
def State.setDie (s : State) (d : DieId) (x : Die) : State := { s with dies := s.dies.set d.toNat x d.isLt }
def State.updDie (s : State) (d : DieId) (f : Die → Die) : State := s.setDie d (f (s.die d))

def State.updMs (s : State) (f : MemSys → MemSys) : State := { s with ms := f s.ms }
def State.updPorts (s : State) (f : Ports → Ports) : State := { s with ports := f s.ports }

/-- The die of a region (R167). -/
def dieOfRegion (r : RegionId) : DieId := r.extractLsb' 4 2

/-- The die of a core; SY cores stand on the hub. -/
def dieOfCore : CoreId → Option DieId
  | .sq n => some (n.extractLsb' 4 2)
  | .sy _ => none

/-! ### Home: writes reach both frames of an open migration window (R93) -/

/-- The mirrors of a physical byte address in open dual-home windows. -/
def mirrors (ms : MemSys) (pa : Nat) : List Nat :=
  ms.migrations.filterMap fun m => if m.old ≤ pa && pa < m.old + 65536 then some (m.new + (pa - m.old)) else none

/-- Writes n bytes at one home: this device's memory, or a peer's. -/
def putHome (p : PartId) (v n : Nat) (ms : MemSys) (pa : Nat) : MemSys :=
  if isPeer pa then peerSend p ms pa v n else { ms with mem := Memory.writeLE ms.mem pa v n }

/-- Notes the bytes written to an old frame in a peer's memory while its window is open: the copy leaves them alone (R93). -/
def noteWrote (pa n : Nat) (ms : MemSys) : MemSys :=
  { ms with migrations := ms.migrations.map fun m =>
      if isPeer m.old && m.old ≤ pa && pa < m.old + 65536 then { m with wrote := (List.range n).map (pa - m.old + ·) ++ m.wrote } else m }

/-- Writes the n low bytes of v for partition p at home, lowest first, and at the mirror of an open window (R93). -/
def homeWrite (p : PartId) (ms : MemSys) (pa v n : Nat) : MemSys :=
  noteWrote pa n ((pa :: mirrors ms pa).foldl (putHome p v n) ms)

/-! ### S-lines (R88) -/

def findSLine (ms : MemSys) (g : Agent) (line : Nat) : Option SLine :=
  ms.slines.find? fun l => l.agent == g && l.line == line

def dropSLine (ms : MemSys) (g : Agent) (line : Nat) : MemSys :=
  { ms with slines := ms.slines.filter fun l => !(l.agent == g && l.line == line) }

/-- Writes the dirty bytes of a copy to home. -/
def writeThrough (ms : MemSys) (l : SLine) : MemSys :=
  (List.range 128).foldl (fun ms i =>
    if l.dirty.getLsbD i then homeWrite l.part ms (l.line * 128 + i) (l.data.extractLsb' (8 * i) 8).toNat 1 else ms) ms

/-- The bits of the bytes that a dirty mark names. -/
def dirtyBits (d : BitVec 128) : BitVec 1024 :=
  (List.range 128).foldl (fun m i => if d.getLsbD i then m ||| (0xFF#1024 <<< (8 * i)) else m) 0

/-- A free value of n bytes (log 2). -/
def freeBytes (k n : Nat) : Nat := (List.range n).foldr (fun i acc => (Config.freeByte (k + i)).toNat + 256 * acc) 0

/-- The bytes of a line at home; what a peer's memory holds is free, from free value k on (log 18). -/
def homeLine (ms : MemSys) (k line : Nat) : BitVec 1024 :=
  BitVec.ofNat 1024 (if isPeer (line * 128) then freeBytes k 128 else Memory.readLE ms.mem (line * 128) 128)

/-- A line's bytes as the clusters `mates` of a region see them: home, with the dirty bytes of their copies over it (R288). -/
def lineData (ms : MemSys) (k : Nat) (mates : List Agent) (line : Nat) : BitVec 1024 :=
  (mates.filterMap fun g => findSLine ms g line).foldl
    (fun d l => (d &&& ~~~dirtyBits l.dirty) ||| (l.data &&& dirtyBits l.dirty)) (homeLine ms k line)

/-- Whose copy an S-page access fills: partition, agent, the region's other clusters, and where the free values of a peer's line
begin. -/
structure Filler where
  part : PartId
  agent : Agent
  mates : List Agent
  free : Nat

/-- The agent's copy of a line, filled when it has none. -/
def fillSLine (ms : MemSys) (x : Filler) (line : Nat) : SLine × MemSys :=
  match findSLine ms x.agent line with
  | some l => (l, ms)
  | none =>
    let l : SLine := ⟨x.agent, x.part, line, lineData ms x.free x.mates line, 0⟩
    (l, { ms with slines := l :: ms.slines })

/-- Reads n bytes within one line through the agent's copy. -/
def sRead (ms : MemSys) (x : Filler) (pa n : Nat) : Nat × MemSys :=
  let (l, ms) := fillSLine ms x (lineOf pa)
  ((l.data.toNat / 256 ^ (pa % 128)) % 256 ^ n, ms)

/-- Writes n bytes within one line into the agent's copy, marking them dirty; a mate's copy takes the bytes too and they are
dirty there no more, so that the store has performed for every node of its region (R288). -/
def sWrite (ms : MemSys) (x : Filler) (pa v n : Nat) : MemSys :=
  let (own, ms) := fillSLine ms x (lineOf pa)
  let mask := BitVec.ofNat 1024 ((256 ^ n - 1) * 256 ^ (pa % 128))
  let bytes := BitVec.ofNat 128 ((2 ^ n - 1) * 2 ^ (pa % 128))
  let put (l : SLine) : SLine :=
    { l with data := (l.data &&& ~~~mask) ||| BitVec.ofNat 1024 ((v % 256 ^ n) * 256 ^ (pa % 128)), dirty := l.dirty &&& ~~~bytes }
  let mine := put own
  let rest := (dropSLine ms x.agent (lineOf pa)).slines.map fun l =>
    if x.mates.contains l.agent && l.line == lineOf pa then put l else l
  { ms with slines := { mine with dirty := own.dirty ||| bytes } :: rest }

/-- Writes the dirty bytes of an agent's copy to home and drops the copy. -/
def flushSLine (ms : MemSys) (line : Nat) (g : Agent) : MemSys :=
  match findSLine ms g line with
  | some l => dropSLine (writeThrough ms l) g line
  | none => ms

/-- A release at DIE scope or wider: the agent's dirty S-bytes reach home (R88). -/
def releaseS (g : Agent) (ms : MemSys) : MemSys :=
  let ms' := (ms.slines.filter (·.agent == g)).foldl writeThrough ms
  { ms' with slines := ms'.slines.map fun l => if l.agent == g then { l with dirty := 0 } else l }

/-- Would an S-line's dirty bytes reach a locked line? -/
def dirtyLocked (ms : MemSys) (l : SLine) : Bool := l.dirty != 0 && ms.locks.any (·.1 == l.line)

/-- An acquire at DIE scope or wider: the agent's S-lines are invalidated, dirty bytes first reaching home (R88; log 7). Dirty
bytes that a lock holds back (R99) stay with the agent, over clean bytes that are home's. -/
def acquireS (g : Agent) (ms : MemSys) : MemSys :=
  let ms' := (ms.slines.filter fun l => l.agent == g && !dirtyLocked ms l).foldl writeThrough ms
  let fresh (l : SLine) : SLine := if isPeer (l.line * 128) then l else { l with
    data := (homeLine ms' 0 l.line &&& ~~~dirtyBits l.dirty) ||| (l.data &&& dirtyBits l.dirty) }
  { ms' with slines := ms'.slines.filterMap fun l =>
      if l.agent != g then some l else if dirtyLocked ms l then some (fresh l) else none }

/-! ### The home directory (R89 to R91) -/

def dirCovers (e : DirEntry) (pa : Nat) : Bool := e.base ≤ pa && pa < e.base + e.size

/-- The siblings that a split along the path to a line leaves (R90). -/
def dirSplit (line : Nat) : Nat → DirEntry → List DirEntry
  | 0, e => [e]
  | k + 1, e =>
    if e.size ≤ 128 then [e]
    else
      let h := e.size / 2
      let lo : DirEntry := { e with size := h }
      let hi : DirEntry := { e with base := e.base + h, size := h }
      if line * 128 < e.base + h then dirSplit line k lo ++ [hi] else lo :: dirSplit line k hi

/-- Table 5-7 for a read by a caching agent; `none` for a reader that keeps no copy. -/
def dirAfterRead (g : Option Agent) : DirState → DirState
  | .sh a => match g with
    | some g => .sh (if a.contains g then a else a ++ [g])
    | none => .sh a
  | .ow b => match g with
    | some g => if b = g then .ow b else .sh [b, g]
    | none => .sh [b]

def readConflict (g : Option Agent) : DirState → Bool
  | .sh _ => false
  | .ow b => g != some b

def writeConflict (g : Option Agent) : DirState → Bool
  | .sh a => match g with | some g => a != [g] | none => true
  | .ow b => g != some b

/-- Serves a read at the directory (R90, Table 5-7). -/
def dirRead (g : Option Agent) (pa : Nat) (now : Word) (ms : MemSys) : MemSys :=
  match ms.dir.find? (dirCovers · pa) with
  | none => match g with
    | some g => { ms with dir := ⟨lineOf pa * 128, 128, .sh [g], now⟩ :: ms.dir }
    | none => ms
  | some e =>
    let rest := ms.dir.filter (!dirCovers · pa)
    if readConflict g e.st then
      { ms with dir := (dirSplit (lineOf pa) 10 e).map (fun x =>
          if dirCovers x pa then { x with st := dirAfterRead g x.st, since := now } else { x with since := now }) ++ rest }
    else { ms with dir := { e with st := dirAfterRead g e.st } :: rest }

/-- Serves a write at the directory: every other copy is recalled and invalidated (R90, Table 5-7). A write that conflicts with
nothing leaves the quiet interval running (R91). -/
def dirWrite (g : Option Agent) (pa : Nat) (now : Word) (ms : MemSys) : MemSys :=
  let owner (x : DirEntry) : List DirEntry := match g with
    | some g => [{ x with st := .ow g, since := now }]
    | none => []
  match ms.dir.find? (dirCovers · pa) with
  | none => { ms with dir := owner ⟨lineOf pa * 128, 128, .sh [], now⟩ ++ ms.dir }
  | some e =>
    let rest := ms.dir.filter (!dirCovers · pa)
    if writeConflict g e.st then
      { ms with dir := (dirSplit (lineOf pa) 10 e).flatMap (fun x =>
          if dirCovers x pa then owner x else [{ x with since := now }]) ++ rest }
    else { ms with dir := (owner e).map (fun x => { x with since := e.since }) ++ rest }

/-! ### Results of a checked access -/

/-- What a checked access answers: a value and the next state; a cause with its TVAL, nothing done; or it waits at home (R99),
nothing done. -/
inductive MRes (α : Type) where
  | ok (a : α) (s : State)
  | trap (cause : BitVec 8) (tval : Word)
  | wait

def MRes.bind {α β : Type} (r : MRes α) (k : α → State → MRes β) : MRes β :=
  match r with
  | .ok a s => k a s
  | .trap c t => .trap c t
  | .wait => .wait

/-! Cause codes (22_cause_codes.md). -/

def cMISALIGN : BitVec 8 := 0x22
def cXLATE_NP : BitVec 8 := 0x60
def cXLATE_PERM : BitVec 8 := 0x61
def cXLATE_COH : BitVec 8 := 0x62
def cPT_CORRUPT : BitVec 8 := 0x63
def cHBM_UE : BitVec 8 := 0xA2
def cLINK_DOWN : BitVec 8 := 0xA3
def cLINK_AUTH : BitVec 8 := 0xA4
def cKEY_FAULT : BitVec 8 := 0xA5

/-- On whose behalf an access is made: partition, agent with its caches (none: it keeps no copy), level, the MWCAS whose
locks it holds, whether it writes the shadow copy of a view (R96), whether it streams (HINT 01, Table 5-1), the other unfused
clusters of its region (R288), and the MT, of a region whose L1s are fused: each MT has a translation cache of its own (Table 1-2). -/
structure Ctx where
  part : Option PartId
  agent : Agent
  lvl : Level
  holder : Option Nat
  shadow : Bool
  stream : Bool
  mates : List Agent
  mt : Nat
deriving DecidableEq, Repr

/-- A translated access: physical address and coherence attribute. -/
structure Xl where
  pa : Nat
  coh : BitVec 2
deriving DecidableEq, Repr

/-! ### Translation (R82 to R86, R95, R96) -/

/-- The page of a VA (64 KiB). -/
def pageOf (va : Word) : Nat := va.toNat / 65536

/-- A page-table entry at home; walks are coherent whatever the pages' mapping (R85). What a peer's memory holds is free
(log 18). -/
def readPte (s : State) (pa : Nat) : Word :=
  if isPeer pa then Config.peerWord s.fresh pa else BitVec.ofNat 64 (Memory.readLE s.ms.mem pa 8)

def pteV (e : Word) : Bool := e.getLsbD 0
def pteW (e : Word) : Bool := e.getLsbD 1
def pteX (e : Word) : Bool := e.getLsbD 2
def pteU (e : Word) : Bool := e.getLsbD 3
def pteCoh (e : Word) : BitVec 2 := e.extractLsb' 4 2
def pteC (e : Word) : Bool := e.getLsbD 6
def pteA (e : Word) : Bool := e.getLsbD 7
def pteM (e : Word) : Bool := e.getLsbD 8
def pteSH (e : Word) : Bool := e.getLsbD 9
def ptePfn (e : Word) : Nat := (e.extractLsb' 16 32).toNat

/-- Reserved bits of a leaf (Table 5-6). -/
def pteRsvBad (e : Word) : Bool := e.extractLsb' 10 6 != 0#6 || e.extractLsb' 48 8 != 0#8

/-- A leaf found by the walk: PA of its entry, first VA and bytes mapped, PA of the first byte. -/
structure Leaf where
  at_ : Nat
  pte : Word
  va : Nat
  size : Nat
  pa : Nat
deriving DecidableEq, Repr

/-- The walk of R82 to R84 to a leaf, or the cause it raises. -/
def walk (s : State) (root : Word) (va : Word) : Except (BitVec 8) Leaf :=
  if va.extractLsb' 52 12 != 0#12 then .error cXLATE_NP
  else if !root.getLsbD 0 then .error cXLATE_NP
  else
    let v := va.toNat
    let top := readPte s ((root.extractLsb' 13 35).toNat * 8192 + 8 * (v / 2 ^ 42 % 1024))
    if !pteV top then .error cXLATE_NP
    else if pteC top then .error cPT_CORRUPT
    else
      let a1 := ptePfn top * 65536 + 8 * (v / 2 ^ 29 % 8192)
      let e1 := readPte s a1
      if !pteV e1 then .error cXLATE_NP
      else if pteC e1 then
        if ptePfn e1 % 8192 ≠ 0 then .error cPT_CORRUPT
        else .ok ⟨a1, e1, v / 2 ^ 29 * 2 ^ 29, 2 ^ 29, ptePfn e1 * 65536⟩
      else
        let a0 := ptePfn e1 * 65536 + 8 * (v / 2 ^ 16 % 8192)
        let e0 := readPte s a0
        if !pteV e0 then .error cXLATE_NP
        else if pteC e0 then
          if ptePfn e0 % 32 ≠ v / 2 ^ 16 % 32 then .error cPT_CORRUPT
          else .ok ⟨a0, e0, v / 2 ^ 21 * 2 ^ 21, 2 ^ 21, ptePfn e0 / 32 * 32 * 65536⟩
        else .ok ⟨a0, e0, v / 2 ^ 16 * 2 ^ 16, 2 ^ 16, ptePfn e0 * 65536⟩

/-- Physical addresses of the entries that a walk reads, in order (R82). -/
def walkReads (s : State) (root : Word) (va : Word) : List Nat :=
  if va.extractLsb' 52 12 != 0#12 || !root.getLsbD 0 then []
  else
    let v := va.toNat
    let a2 := (root.extractLsb' 13 35).toNat * 8192 + 8 * (v / 2 ^ 42 % 1024)
    let top := readPte s a2
    let a1 := ptePfn top * 65536 + 8 * (v / 2 ^ 29 % 8192)
    let e1 := readPte s a1
    if !pteV top || pteC top then [a2]
    else if !pteV e1 || pteC e1 then [a2, a1]
    else [a2, a1, ptePfn e1 * 65536 + 8 * (v / 2 ^ 16 % 8192)]

/-- Entries of the partition's view table: base VA, pages, SEL, whether its reserved bits are zero, PA of the entry (R95). An
entry with a reserved bit set covers its pages all the same: only PUBLISH refuses it (log 60). -/
def views (s : State) (p : Partition) : List (Nat × Nat × Bool × Bool × Nat) :=
  (List.range (min 256 (p.viewtab.extractLsb' 0 9).toNat)).map fun i =>
    let at_ := (p.viewtab.extractLsb' 12 36).toNat * 4096 + 16 * i
    let w0 := (readPte s at_).toNat
    let w1 := (readPte s (at_ + 8)).toNat
    (w0, w1 % 65536, (w1 / 65536) % 2 == 1, w0 % 65536 == 0 && w1 / 131072 == 0 && w1 % 65536 != 0, at_)

/-- Does an entry of the view table cover a VA? -/
def viewCovers (va : Nat) (v : Nat × Nat × Bool × Bool × Nat) : Bool :=
  v.1 / 65536 * 65536 ≤ va && va < v.1 / 65536 * 65536 + v.2.1 * 65536

/-- The selector of the view that covers a VA (R95). -/
def viewSel (s : State) (p : Partition) (va : Nat) : Option Bool :=
  ((views s p).find? (viewCovers va)).map fun (_, _, sel, _, _) => sel

/-- Physical addresses of the view entries that a walk of a shadowed page reads: those up to the one that covers it. -/
def viewReads (s : State) (p : Partition) (va : Nat) : List Nat :=
  ((views s p).take ((views s p).findIdx (viewCovers va) + 1)).map fun v => v.2.2.2.2

/-- Does the frame grant hold a physical range (R81)? A leaf larger than 64 KiB must lie whole in one range of it (log 61). -/
def granted (p : Partition) (pa size : Nat) : Bool :=
  p.grant.any fun (b, n) => b ≤ pa && pa + size ≤ b + n

/-- The storage port's ECAM and BAR ranges (R394). -/
def storageRange (pa : Nat) : Bool :=
  (0xF80000000000 ≤ pa && pa ≤ 0xF8000FFFFFFF) || (0xF90000000000 ≤ pa && pa ≤ 0xF90FFFFFFFFF)

/-- The partition that owns the storage port (R394). -/
def storageOwner (s : State) : Option PartId :=
  if s.ports.stgown.getLsbD 4 then some (s.ports.stgown.extractLsb' 0 4) else none

/-- Is a range inside a partition's frame grant, the storage port's registers only for its owner (R81, R394)? -/
def mayMap (s : State) (p : PartId) (pa size : Nat) : Bool :=
  granted (s.part p) pa size && (!storageRange pa || storageOwner s == some p)

/-- Checks of a leaf that do not depend on the access: reserved bits, COH, shadowing, grant (Table 5-6, R81, R95, R394). -/
def leafCause (s : State) (p : PartId) (l : Leaf) (va : Word) : Option (BitVec 8) :=
  if pteRsvBad l.pte then some cPT_CORRUPT
  else if pteCoh l.pte == 3#2 then some cXLATE_COH
  else if pteSH l.pte && (ptePfn l.pte % 2 == 1 || (viewSel s (s.part p) va.toNat).isNone) then some cPT_CORRUPT
  else if !mayMap s p l.pa l.size || (pteSH l.pte && !mayMap s p (l.pa + 65536) l.size) then some cPT_CORRUPT
  else none

/-- Permission of an access through a leaf (R83). -/
def permOk (pte : Word) (lvl : Level) (acc : Access) : Bool :=
  (match acc with | .read => true | .write => pteW pte | .fetch => pteX pte) && (lvl != .u || pteU pte)

/-- The walker's atomic update of A, and M for a write (R85). -/
def markPte (pte : Word) (acc : Access) : Word := pte ||| (if acc = .write then 0x180 else 0x80)

/-- A cached translation that covers a VA for an access's agent and MT (R86). -/
def tlbFind (s : State) (x : Ctx) (p : PartId) (va : Nat) : Option TlbEntry :=
  s.ms.tlb.find? fun e => e.agent == x.agent && e.mt == x.mt && e.part == p && e.va ≤ va && va < e.va + e.size

/-- Entries of a translation cache (Table 1-2; log 62). -/
def tlbSize : Nat := 512

/-- Installs a translation in place of the agent's older ones of the same VA; a full cache loses entry k modulo its size. -/
def tlbInstall (k : Nat) (e : TlbEntry) (ms : MemSys) : MemSys :=
  let own (x : TlbEntry) : Bool := x.agent == e.agent && x.mt == e.mt
  let old := ms.tlb.filter fun x => !(own x && x.part == e.part && x.va == e.va && x.size == e.size)
  let mine := old.filter own
  { ms with tlb := e :: if mine.length < tlbSize then old else mine.eraseIdx (k % mine.length) ++ old.filter (!own ·) }

/-- The translation that a leaf gives an agent for a VA: of a shadowed page alone, with the selector of its view, which other pages of
the leaf need not share (R86, R96). -/
def leafEntry (s : State) (g : Agent) (mt : Nat) (p : PartId) (l : Leaf) (va : Word) : TlbEntry :=
  if pteSH l.pte then
    ⟨g, mt, p, pageOf va * 65536, 65536, l.pa + (pageOf va * 65536 - l.va), l.pte, (viewSel s (s.part p) va.toNat).getD false⟩
  else ⟨g, mt, p, l.va, l.size, l.pa, l.pte, false⟩

/-- The physical address of a VA under a translation, choosing the copy of a shadowed page (R96). -/
def leafPa (e : TlbEntry) (va : Word) (shadow : Bool) : Nat :=
  let pa := e.pa + (va.toNat - e.va)
  if pteSH e.pte && e.sel != shadow then pa + 65536 else pa

/-- Where a VA of a partition lies, by a walk without effect. -/
def physOf (s : State) (p : PartId) (va : Word) : Option Nat :=
  match walk s (s.part p).ptroot va with
  | .ok l => some (leafPa (leafEntry s .hub 0 p l va) va false)
  | .error _ => none

/-- The cause of an access to a peer address whose window is not in use, or whose link is down (R405, R406). -/
def peerCause (s : State) (pa : Nat) : Option (BitVec 8) :=
  if !isPeer pa then none
  else if !(s.pwinOf (peerWin pa)).getLsbD 63 then some cXLATE_COH
  else if (s.peerLink (peerWin pa)).down then some cLINK_DOWN
  else none

/-- Has a response to an access of the agent, a core, failed authentication (R405)? -/
def badResponse (s : State) (p : PartId) (g : Agent) (pa : Nat) : Bool := match g with
  | .coreD c | .coreI c => (s.peerLink (peerWin pa)).authFail.contains (p, .core c)
  | .cluster _ _ | .fused _ | .hub => false

/-- Causes that depend on where the frame lies: device registers need COH = 10, those of the storage port its owner (R394); peer windows an enabled window, COH other
than 00 and a link that is up, and a response to a core that passes authentication (R149, R356, R405, R406). -/
def placeCause (s : State) (p : PartId) (g : Agent) (pa : Nat) (coh : BitVec 2) : Option (BitVec 8) :=
  if isDevice pa then
    if coh != 2#2 then some cXLATE_COH
    else if storageRange pa && storageOwner s != some p then some cPT_CORRUPT
    else none
  else if isPeer pa then
    if coh == 0#2 then some cXLATE_COH
    else (peerCause s pa).orElse fun _ => if badResponse s p g pa then some cLINK_AUTH else none
  else none

/-! ### What home checks -/

/-- Must a request for a line wait at home: under the lock of another MWCAS (R99), or behind a recall that another agent has not
answered (R90, R92)? -/
def lockedBy (s : State) (x : Ctx) (line : Nat) : Bool :=
  s.ms.locks.any (fun (l, o) => l == line && x.holder != some o) ||
    s.ms.recalls.any fun (g, l, _) => l == line && g != x.agent

/-- Must a release of an agent wait: dirty bytes of its S-lines would reach a locked line (R88, R99)? -/
def syncHeld (s : State) (g : Agent) : Bool := s.ms.slines.any fun l => l.agent == g && dirtyLocked s.ms l

/-- Lines of a physical range. -/
def linesOf (pa n : Nat) : List Nat := if n = 0 then [] else (List.range (lineOf (pa + n - 1) - lineOf pa + 1)).map (lineOf pa + ·)

def State.useFresh (s : State) (n : Nat) : State := { s with fresh := s.fresh + n }

/-- The agent as a holder of copies: engines of the hub keep none (R80). -/
def holderOf : Agent → Option Agent
  | .hub => none
  | g => some g

/-- Is a request's partition key erased? Such a request is discarded (R401). -/
def keyErased (s : State) (x : Ctx) : Bool := match x.part with
  | some p => !(s.part p).keyed
  | none => false

/-- Is a line written under another key than a request's, so that its MAC does not match: one outside the partition's frame grant
(R81, R400, R401; log 86)? Peer windows and device registers are not this device's memory. -/
def foreign (s : State) (x : Ctx) (line : Nat) : Bool := match x.part with
  | some p => decide (128 * line < peerBase) && !granted (s.part p) (128 * line) 128
  | none => false

/-- The cause that an access to some lines raises for poison or a MAC that does not match (R81, R92, R400). -/
def lineFault (s : State) (x : Ctx) (ls : List Nat) : Option (BitVec 8) :=
  if ls.any (s.ms.poison.contains ·) then some cHBM_UE
  else if ls.any (s.ms.badMac.contains ·) || ls.any (foreign s x) then some cKEY_FAULT
  else none

/-- Checks every access makes at home: the partition's key, locks, poison, MAC (R81, R92, R99, R400, R401). A write of whole
lines clears poison. -/
def homeCheck (s : State) (x : Ctx) (pa n : Nat) (va : Word) (whole : Bool) : MRes Unit :=
  let ls := linesOf pa n
  if keyErased s x then .wait
  else if ls.any (lockedBy s x) then .wait
  else match if whole && !ls.any (foreign s x) then none else lineFault s x ls with
    | some c => .trap c va
    | none => .ok () s

/-- Checks the table lines that a walk reads, in order; one in a peer's memory is asked for over its window (R406). DESIGN CHOICE
(log 94): the read leaves the line's directory entry as it is. -/
def tableCheck (s : State) (x : Ctx) (va : Word) : List Nat → MRes Unit
  | [] => .ok () s
  | pa :: pas => (homeCheck s x pa 8 va false).bind fun _ s => match peerCause s pa with
    | some c => .trap c va
    | none => tableCheck (if isPeer pa then { s with ms := peerAsk (x.part.getD 0) pa 8 s.ms } else s) x va pas

/-- Walks the tables for an access and caches the result (R82 to R86). A poisoned or altered table line raises as any access to
it does, and a locked one makes the walk wait (R81, R92, R99). -/
def walkInstall (s : State) (x : Ctx) (p : PartId) (acc : Access) (va : Word) : MRes TlbEntry :=
  (tableCheck s x va (walkReads s (s.part p).ptroot va)).bind fun _ s =>
  match walk s (s.part p).ptroot va with
  | .error c => .trap c va
  | .ok l =>
    (tableCheck s x va (if pteSH l.pte then viewReads s (s.part p) va.toNat else [])).bind fun _ s =>
    match leafCause s p l va with
    | some c => .trap c va
    | none =>
      if permOk l.pte x.lvl acc then
        let pte := markPte l.pte acc
        let e : TlbEntry := leafEntry s x.agent x.mt p { l with pte := pte } va
        let ms := if pte = l.pte then s.ms else homeWrite p (dirWrite none l.at_ s.fclock s.ms) l.at_ pte.toNat 8
        let full := decide (tlbSize ≤ s.ms.tlb.countP fun e => e.agent == x.agent && e.mt == x.mt)
        .ok e { s with ms := tlbInstall (if full then Config.freeIndex s.fresh else 0) e ms, fresh := s.fresh + full.toNat }
      else .trap cXLATE_PERM va

/-- Translates a VA for an access (R72, R82 to R86, R149): a cached translation that permits the access is used, a write
through one with M = 0 walks again (R85), anything else walks. -/
def translate (s : State) (x : Ctx) (acc : Access) (va : Word) : MRes Xl :=
  if va.extractLsb' 52 12 != 0#12 then .trap cXLATE_NP va
  else match x.part with
  | none => .trap cXLATE_NP va
  | some p =>
    if !(s.part p).ptroot.getLsbD 0 then .trap cXLATE_NP va
    else
      let hit := match tlbFind s x p va.toNat with
        | some e => if acc = Access.write && !pteM e.pte then none else some e
        | none => none
      let r : MRes TlbEntry := match hit with
        | some e => if permOk e.pte x.lvl acc then .ok e s else .trap cXLATE_PERM va
        | none => walkInstall s x p acc va
      r.bind fun e s' =>
        let pa := leafPa e va x.shadow
        match placeCause s' p x.agent pa (pteCoh e.pte) with
        | some c => .trap c va
        | none => .ok ⟨pa, pteCoh e.pte⟩ s'

/-! ### Accesses at their physical place -/

/-- The set of an agent's L1 that a line falls in: of a cluster's 256 sets, or of those of a fused L1's part (PA[31:7] mod n)
(Tables 1-2 and 5-2); a core's L1 is taken as one set (log 62). -/
def l1Set (s : State) (g : Agent) (line : Nat) : Nat × Nat :=
  match g with
  | .cluster _ _ => (0, line % 256)
  | .fused r => (line % 2 ^ 25 % max 1 ((s.region r).ctl.crows * (s.region r).ctl.ccols), line % 256)
  | .coreD _ | .coreI _ | .hub => (0, 0)

/-- Lines a set holds: 8 ways of a cluster's L1, the 64 KiB of a core's. -/
def l1Ways : Agent → Nat
  | .cluster _ _ | .fused _ => 8
  | .coreD _ | .coreI _ | .hub => 512

/-- Makes room for an S-copy: a full set loses one of its copies, freely chosen among those whose dirty bytes are not held back by
a lock, after these bytes have reached home (R78, R88; log 62). Without such a copy the access waits. -/
def makeRoom (s : State) (g : Agent) (line : Nat) : MRes Unit :=
  let mates := s.ms.slines.filter fun l => l.agent == g && l1Set s g l.line == l1Set s g line
  if (findSLine s.ms g line).isSome || mates.length < l1Ways g then .ok () s
  else
    let can := mates.filter fun l => !dirtyLocked s.ms l
    match can[Config.freeIndex s.fresh % can.length]? with
    | none => .wait
    | some l => .ok () { s with ms := flushSLine s.ms l.line g, fresh := s.fresh + 1 }

/-- The agent that keeps a copy of what an access reaches: a streaming access allocates none and uses one that is there
(Table 5-1). -/
def copier (s : State) (x : Ctx) (t : Xl) : Option Agent :=
  if !x.stream then holderOf x.agent
  else
    let held := if t.coh == 1#2 then (findSLine s.ms x.agent (lineOf t.pa)).isSome
      else s.ms.dir.any fun e => dirCovers e t.pa && match e.st with | .sh l => l.contains x.agent | .ow a => a == x.agent
    if held then holderOf x.agent else none

/-- The partition of an access, as its flits carry it. -/
def Ctx.pid (x : Ctx) : PartId := x.part.getD 0

/-- The copy that an access through S-lines fills. -/
def fillerOf (s : State) (x : Ctx) : Filler := ⟨x.pid, x.agent, x.mates, s.fresh⟩

/-- The state after home has been asked for a line: of a peer's, a request has gone out and its bytes are free (R406; log 18). -/
def askHome (s : State) (x : Ctx) (pa n : Nat) : State :=
  if isPeer pa then { s with ms := peerAsk x.pid pa n s.ms, fresh := s.fresh + n } else s

/-- n bytes at home: this device's memory, a peer's, or a device register, whose device supplies them (R296, R394, R406; log 18). -/
def readHome (s : State) (x : Ctx) (pa n : Nat) : MRes Nat :=
  if isPeer pa || isDevice pa then .ok (freeBytes s.fresh n) (if isPeer pa then askHome s x pa n else s.useFresh n)
  else .ok (Memory.readLE s.ms.mem pa n) s

/-- Reads n bytes within one line at a translated address. -/
def readAt (s : State) (x : Ctx) (t : Xl) (n : Nat) (va : Word) : MRes Nat :=
  (homeCheck s x t.pa n va false).bind fun _ s =>
    if t.coh == 0#2 then
      .ok (Memory.readLE s.ms.mem t.pa n) { s with ms := dirRead (copier s x t) t.pa s.fclock s.ms }
    else if t.coh == 1#2 && (copier s x t).isSome then
      (makeRoom s x.agent (lineOf t.pa)).bind fun _ s =>
        let (v, ms) := sRead s.ms (fillerOf s x) t.pa n
        .ok v (if (findSLine s.ms x.agent (lineOf t.pa)).isSome then { s with ms := ms } else askHome { s with ms := ms } x (lineOf t.pa * 128) 128)
    else if t.coh == 1#2 && !x.mates.isEmpty then
      .ok ((lineData s.ms s.fresh x.mates (lineOf t.pa)).toNat / 256 ^ (t.pa % 128) % 256 ^ n) (askHome s x (lineOf t.pa * 128) 128)
    else readHome s x t.pa n

/-- Writes n bytes at home: this device's memory, a peer's, or a device register, in the order of the writes (R296, R394, R406). -/
def writeHome (s : State) (x : Ctx) (pa v n : Nat) : State :=
  if isDevice pa then s.updMs fun ms => { ms with deviceWrites := ms.deviceWrites ++ [(pa, leBytes n v)] }
  else s.updMs (homeWrite x.pid · pa v n)

/-- A write of a whole line clears its poison (R92). -/
def clearLine (l : Nat) (ms : MemSys) : MemSys :=
  { ms with poison := ms.poison.filter (· != l), badMac := ms.badMac.filter (· != l) }

/-- Writes the n low bytes of v within one line at a translated address. -/
def writeAt (s : State) (x : Ctx) (t : Xl) (v n : Nat) (va : Word) : MRes Unit :=
  (homeCheck s x t.pa n va (n == 128 && t.pa % 128 == 0)).bind fun _ s =>
    let clear (s : State) : State := if n == 128 && t.pa % 128 == 0 then s.updMs (clearLine (lineOf t.pa)) else s
    if t.coh == 0#2 then .ok () (clear (writeHome (s.updMs (dirWrite (copier s x t) t.pa s.fclock)) x t.pa v n))
    else if t.coh == 1#2 && (copier s x t).isSome then
      (makeRoom s x.agent (lineOf t.pa)).bind fun _ s =>
        let there := (findSLine s.ms x.agent (lineOf t.pa)).isSome
        .ok () (let s' := { s with ms := sWrite s.ms (fillerOf s x) t.pa v n }; if there then s' else askHome s' x (lineOf t.pa * 128) 128)
    else if t.coh == 1#2 && !x.mates.isEmpty then
      .ok () (clear (writeHome (s.updMs fun ms => x.mates.foldl (flushSLine · (lineOf t.pa)) ms) x t.pa v n))
    else .ok () (clear (writeHome s x t.pa v n))

/-- A read-modify-write of n bytes at the line's home slice (R158): on a D-line other copies are recalled, on an S-line
the dirty bytes of the line that the agent and its region's other clusters hold are written through and their copies
invalidated. A streaming access leaves no copy (Table 5-1). -/
def rmwAt (s : State) (x : Ctx) (t : Xl) (n : Nat) (va : Word) (f : Nat → Option Nat) : MRes Nat :=
  (homeCheck s x t.pa n va false).bind fun _ s =>
    let s := s.updMs fun ms => if t.coh == 0#2 then dirWrite (copier s x t) t.pa s.fclock ms
      else (x.agent :: x.mates).foldl (flushSLine · (lineOf t.pa)) ms
    (readHome s x t.pa n).bind fun old s => .ok old (match f old with | some v => writeHome s x t.pa v n | none => s)

/-! ### Whole virtual accesses -/

/-- A load of n bytes that do not cross a line: translation, then the read. -/
def loadVa (s : State) (x : Ctx) (va : Word) (n : Nat) : MRes Nat :=
  (translate s x .read va).bind fun t s => readAt s x t n va

/-- A store of n bytes that do not cross a line. -/
def storeVa (s : State) (x : Ctx) (va : Word) (v n : Nat) : MRes Unit :=
  (translate s x .write va).bind fun t s => writeAt s x t v n va

/-- Loads a byte sequence piece by piece, a byte at a time (engines: no atomicity, R294). -/
def loadBytes (s : State) (x : Ctx) (va : Word) : Nat → MRes (List Byte)
  | 0 => .ok [] s
  | n + 1 => (loadVa s x va 1).bind fun b s =>
      (loadBytes s x (va + 1) n).bind fun bs s => .ok (BitVec.ofNat 8 b :: bs) s

/-- Stores a byte sequence a byte at a time, whole aligned lines at once. A cause ends it with the bytes already stored
left in place (R179): it is then the answer. -/
def storeBytes (s : State) (x : Ctx) (va : Word) : Nat → List Byte → MRes (Option (BitVec 8 × Word))
  | 0, _ => .ok none s
  | _, [] => .ok none s
  | k + 1, b :: bs =>
    let whole := va.toNat % 128 = 0 && 128 ≤ (b :: bs).length
    let n := if whole then 128 else 1
    let v := ((b :: bs).take n).foldr (fun b acc => b.toNat + 256 * acc) 0
    match storeVa s x va v n with
    | .ok _ s => storeBytes s x (va + BitVec.ofNat 64 n) k ((b :: bs).drop n)
    | .trap c t => .ok (some (c, t)) s
    | .wait => .wait

end Sys2Proof.Machine
end

