-- ==== Sys2Proof/Machine/Operands.lean ====
section
/-!
DEFINITION. Operand forms of core words: extensions of immediates, effective addresses, branch targets (R105, R144 to
R149).
-/

namespace Sys2Proof.Machine

open Sys2Proof

/-- sext of an immediate or offset (R12). -/
def sext {n : Nat} (x : BitVec n) : Word := x.signExtend 64

/-- zext of an immediate (R12). -/
def zext {n : Nat} (x : BitVec n) : Word := x.zeroExtend 64

/-- Effective address g[a] + sext(offset) modulo 2^64 (R149). -/
def effAddr {n : Nat} (base : Word) (off : BitVec n) : Word := base + sext off

/-- Branch and jump target: the branch's address plus 4 × the sign-extended offset (R105). -/
def target {n : Nat} (pc : Word) (off : BitVec n) : Word := pc + 4 * sext off

/-- Natural alignment of an access of n bytes (R149). -/
def aligned (va : Word) (n : Nat) : Bool := va.toNat % n == 0

/-- A system-register number from its halves (R110). -/
def regNum (hi lo : Reg) : BitVec 10 := hi ++ lo

/-- Field update under a mask: bits of `m` from `new`, the others from `old`. -/
def merge64 (m old new : Word) : Word := (old &&& ~~~m) ||| (new &&& m)

/-- A write to a field with access W1C: each 1 clears (Table 0-4). -/
def w1c (m old new : Word) : Word := old &&& ~~~(new &&& m)

end Sys2Proof.Machine
end

