-- ==== Sys2Proof/Machine/Access.lean ====
section
/-!
DEFINITION. What a memory access does at its place: the checks of a MWCAS (R100, R160), operand-slot rows (R226 to R228),
scratch (R73), the pieces of a node's access and their order at a port (R287, R290).
-/

namespace Sys2Proof.Machine

open Sys2Proof

def cWATCH : BitVec 8 := 0x05
def cMWCAS_FORM : BitVec 8 := 0x68
def cMWCAS_DUP : BitVec 8 := 0x69
def cMWCAS_ALIGN : BitVec 8 := 0x6A

/-- A cause at a translated address that an atomic adds: the device-register range (R100, R158). -/
def atomicPlace (va : Word) (t : Xl) (s : State) : MRes Xl := if isDevice t.pa then .trap cXLATE_COH va else .ok t s

/-- What an atomic writes, of the old value, for the value v. -/
def amoNew (n : Nat) (f : Int → Int → Int) (signed : Bool) (v old : Nat) : Nat :=
  let val (x : Nat) : Int := if signed && 2 ^ (8 * n - 1) ≤ x then (x : Int) - 2 ^ (8 * n) else x
  (f (val old) (val v) % 2 ^ (8 * n)).toNat

/-- A translation that makes no access: V is needed, and W where `w` says so; A and M are set as for a read (R201). -/
def probeVa (s : State) (x : Ctx) (w : Bool) (va : Word) : MRes Xl :=
  (translate s x .read va).bind fun t s =>
    let ok := match x.part with
      | some p => (tlbFind s x p va.toNat).any fun e => pteW e.pte
      | none => false
    if w && !ok then .trap cXLATE_PERM va else .ok t s

/-- A prefetch of a D line that meets no fault and no lock and leaves a copy; any other is dropped (R201, R283). -/
def prefetch (s : State) (x : Ctx) (write : Bool) (va : Word) : State :=
  match probeVa s x write va with
  | .ok t s1 =>
    if t.coh == 0#2 && !isPeer t.pa && !isDevice t.pa then
      match homeCheck s1 x t.pa 1 va false with
      | .ok _ s2 => match copier s2 x t with
        | some g => { s2 with ms := (if write then dirWrite else dirRead) (some g) t.pa s2.fclock s2.ms }
        | none => s
      | .trap _ _ | .wait => s
    else s
  | .trap _ _ | .wait => s

/-! ### MWCAS: its checks (R100, R160) -/

/-- VA of word i of a block. -/
def blkWord (blk : Word) (i : Nat) : Word := blk + BitVec.ofNat 64 (8 * i)

/-- Translates a word of the block for a write, raises WATCH through `w` for the read and, where a MWCAS may write the word (`wr`: its
header and EXP words), for that, and reads it (R100, R392). -/
def blkRead (s : State) (x : Ctx) (w : Word → Bool → Bool) (va : Word) (wr : Bool) : MRes (Nat × BitVec 2 × Word) :=
  (translate s x .write va).bind fun t s =>
    if w va false || (wr && w va true) then .trap cWATCH va
    else (readAt s x t 8 va).bind fun v s => .ok (t.pa, t.coh, BitVec.ofNat 64 v) s

/-- Entries i onwards of a block: each VA, EXP and NEW with the places of the three words. A target's poison or MAC failure is
found here too: every fault comes before the first lock (R102). -/
def blkEntries (s : State) (x : Ctx) (w : Word → Bool → Bool) (blk : Word) :
    Nat → Nat → MRes (List (Nat × BitVec 2) × List (Word × Nat × BitVec 2 × Word × Word))
  | 0, _ => .ok ([], []) s
  | k + 1, i =>
    (blkRead s x w (blkWord blk (1 + 3 * i)) false).bind fun v s =>
    (blkRead s x w (blkWord blk (2 + 3 * i)) true).bind fun e s =>
    (blkRead s x w (blkWord blk (3 + 3 * i)) false).bind fun nw s =>
    if !aligned v.2.2 8 then .trap cMWCAS_ALIGN v.2.2
    else ((translate s x .write v.2.2).bind (atomicPlace v.2.2)).bind fun t s =>
      if w v.2.2 false || w v.2.2 true then .trap cWATCH v.2.2
      else match lineFault s x [lineOf t.pa] with
      | some c => .trap c v.2.2
      | none => (blkEntries s x w blk k (i + 1)).bind fun r s =>
        .ok ((v.1, v.2.1) :: (e.1, e.2.1) :: (nw.1, nw.2.1) :: r.1, (v.2.2, t.pa, t.coh, e.2.2, nw.2.2) :: r.2) s

/-- The first pair (i, j) with equal addresses, ordered by i and then j: the VA of entry j (R160). -/
def firstDup : List (Word × Nat × BitVec 2 × Word × Word) → Option Word
  | [] => none
  | e :: es => match es.find? (·.2.1 = e.2.1) with
    | some d => some d.1
    | none => firstDup es

/-- The checks of R100 before any lock, in its order, and the MWCAS they leave to be locked. -/
def mwcasCheck (s : State) (x : Ctx) (p : PartId) (w : Word → Bool → Bool) (blk : Word) (op : Nat) : MRes Mwcas :=
  if !aligned blk 64 then .trap cMWCAS_ALIGN blk
  else (blkRead s x w blk true).bind fun h s =>
    let n := (h.2.2.extractLsb' 0 5).toNat
    if n < 2 || 16 < n || h.2.2.extractLsb' 48 15 != 0#15 || h.2.2.extractLsb' 5 27 != 0#27 then .trap cMWCAS_FORM blk
    else (blkEntries s x w blk n 0).bind fun r s =>
      let own := (h.1, h.2.1) :: r.1
      match firstDup r.2 with
      | some va => .trap cMWCAS_DUP va
      | none =>
        if r.2.any (fun e => own.any fun o => o.1 ≤ e.2.1 && e.2.1 < o.1 + 8) then .trap cMWCAS_FORM blk
        else .ok ⟨op, p, x.agent, x.stream, blk, own, n, r.2, sortBy (fun a b => decide (a ≤ b)) (r.2.map fun e => lineOf e.2.1).dedup, [], [], 0,
          [], none⟩ s

/-! ### Lock tables (R99) -/

/-- Home slice of a line: stack PA[19:16] and slice PA[10:7] XOR PA[14:11] (R79, Table 5-11). -/
def sliceOf (line : Nat) : Nat := line / 512 % 16 * 16 + Nat.xor (line % 16) (line / 16 % 16)

/-- Starts a MWCAS that has passed its checks: its first lock request goes out (R102). -/
def mwBegin (s : State) (m : Mwcas) (o : MwOwner) : State :=
  { s with ms := { s.ms with mwcas := s.ms.mwcas ++ [(m, o)] }, nextOp := s.nextOp + 1 }

/-! ### Operand slots (R226 to R228) -/

/-- A slot of a tile, free and empty at first. -/
def omSlot (f : Fabric) (row : BitVec 5) (col slot : BitVec 6) : OmSlot :=
  (f.om.find? fun o => o.row == row && o.col == col && o.slot == slot).getD ⟨row, col, slot, false, 0, 0, 0, 63, []⟩

def setOmSlot (f : Fabric) (o : OmSlot) : Fabric :=
  { f with om := o :: f.om.filter fun x => !(x.row == o.row && x.col == o.col && x.slot == o.slot) }

/-- Is a slot held by a context (R227)? -/
def omOwned (o : OmSlot) (ctx : BitVec 12) : Bool := o.held && o.owner == ctx

/-- Formats a slot row may have, with their row capacity (R226, R228). -/
def rowCap (fmt : BitVec 5) : Option Nat :=
  match fmt.toNat with
  | 0xA => some 16 | 0xB | 0xC => some 32 | 0xD | 0xE | 0xF => some 64 | 0x10 => some 128 | _ => none

/-- What a write of a row comes to (R228). -/
inductive RowRes where
  | done (o : OmSlot)
  | parks
  | bad

/-- The write of a row (R228). -/
def writeRow (o : OmSlot) (ctx : BitVec 12) (r : BitVec 5) (fmt : BitVec 5) (sig : Nat) (payload : BitVec 512)
    (scale : BitVec 64) : RowRes :=
  if !omOwned o ctx then .parks
  else if (rowCap fmt).isNone then .bad
  else if o.present.getLsbD r.toNat then .parks
  else if o.present != 0 && fmt != o.sfmt then .bad
  else .done { o with
    present := o.present ||| (1#32 <<< r.toNat)
    sfmt := fmt
    tag := BitVec.ofNat 6 (min o.tag.toNat sig)
    rows := (r, payload, scale) :: o.rows.filter (·.1 != r) }

/-- The command word of a queued command. -/
def cmdWord (t : Token) : Word := t.payload.extractLsb' 0 64

/-- Slots first to first + count − 1. -/
def slotRange (w : Word) : List (BitVec 6) :=
  (List.range (w.extractLsb' 6 7).toNat).map fun i => BitVec.ofNat 6 ((w.extractLsb' 0 6).toNat + i)

/-- Slots a command names. -/
def cmdSlots (c : ArrayCmd) : List (BitVec 6) :=
  let w := cmdWord c.tok
  match c.opc.toNat with
  | 0x41 | 0x42 => slotRange w
  | 0x43 => [w.extractLsb' 6 6, w.extractLsb' 12 6]
  | 0x46 => [w.extractLsb' 3 6]
  | _ => []

/-- Accumulators a command names. -/
def cmdAccs (c : ArrayCmd) : List (BitVec 3) :=
  let w := cmdWord c.tok
  match c.opc.toNat with
  | 0x43 => [w.extractLsb' 3 3]
  | 0x44 | 0x46 | 0x47 => [w.extractLsb' 0 3]
  | 0x45 => ([0, 1, 2, 3, 4, 5, 6, 7] : List (BitVec 3)).filter fun i => w.getLsbD i.toNat
  | _ => []

/-- Commands of a tile's array queue, in order. -/
def tileCmds (f : Fabric) (row : BitVec 5) (col : BitVec 6) : List ArrayCmd :=
  f.arrayq.filter fun c => c.row == row && c.col == col

/-- Is the command word of an opcode well formed (R232, Table 12-2)? -/
def cmdOk (c : ArrayCmd) : Bool :=
  let w := cmdWord c.tok
  c.tok.payload.extractLsb' 64 448 == 0#448 &&
  match c.opc.toNat with
  | 0x41 | 0x42 => w.extractLsb' 13 51 == 0#51 && 1 ≤ (w.extractLsb' 6 7).toNat &&
      (w.extractLsb' 6 7).toNat + (w.extractLsb' 0 6).toNat ≤ 64
  | 0x43 => w.extractLsb' 26 38 == 0#38 && !w.getLsbD 2
  | 0x44 => w.extractLsb' 9 55 == 0#55 && (c.n.fmt == 0xA || !w.getLsbD 8)
  | 0x45 => w.extractLsb' 8 56 == 0#56 && w != 0
  | 0x46 => w.extractLsb' 11 53 == 0#53
  | _ => w.extractLsb' 7 57 == 0#57

/-- What a queued command leaves of the slots' state of Table 12-1: claims, releases and the rows of MXREC (R235, R239). -/
def cmdAfter (f : Fabric) (c : ArrayCmd) : Fabric :=
  let os := (cmdSlots c).map (omSlot f c.row c.col)
  if !cmdOk c then f
  else match c.opc.toNat with
  | 0x41 => if os.any (·.held) then f
      else os.foldl (fun f o => setOmSlot f { o with held := true, owner := c.tok.ctx, present := 0, tag := 63, rows := [] }) f
  | 0x42 => if os.any (!omOwned · c.tok.ctx) then f else os.foldl (fun f o => setOmSlot f { o with held := false }) f
  | 0x46 =>
    let put (f : Fabric) (o : OmSlot) (r : Nat) : Option Fabric :=
      match writeRow o c.tok.ctx (BitVec.ofNat 5 r) c.n.fmt 63 0 0 with | .done o => some (setOmSlot f o) | .parks | .bad => none
    ((List.range (8 * (((cmdWord c.tok).extractLsb' 9 2).toNat + 1))).foldl (fun (p : Fabric × Bool) r =>
      match p.2, os.head? with
      | true, some o => match put p.1 (omSlot p.1 c.row c.col o.slot) r with | some f => (f, true) | none => (p.1, false)
      | _, _ => p) (f, true)).1
  | _ => f

/-- Writes a row where its slot allows it. -/
def landRow (f : Fabric) (x : Fill) : Fabric :=
  match writeRow (omSlot f x.row x.col x.slot) x.ctx x.r x.fmt x.sig x.payload x.scale with
  | .done o => setOmSlot f o
  | .parks | .bad => f

/-- Rows that wait for a command, written once it has executed: those that wait for another too wait on (R230). `id` is the output
entry of the command. -/
def landFills (f : Fabric) (id : Nat) : Fabric :=
  let fs := f.fills.map fun x => { x with behind := x.behind.filter (· != id) }
  (fs.filter (·.behind.isEmpty)).foldl landRow { f with fills := fs.filter (!·.behind.isEmpty) }

/-- Of the commands of a list, executed in their order with the rows that wait for them, those that change a slot's state, by output
entry. A command that leaves the slot as it is, such as a release that will fault, holds no write back. -/
def slotPending (row : BitVec 5) (col slot : BitVec 6) : Fabric → List ArrayCmd → List Nat
  | _, [] => []
  | f, c :: cs =>
    let g := landFills (cmdAfter f c) c.out
    (if omSlot (cmdAfter f c) row col slot != omSlot f row col slot then [c.out] else []) ++ slotPending row col slot g cs

/-- The fabric's slots as a tile's queued commands, and the rows that wait for them, will leave them. -/
def slotsAhead (f : Fabric) (row : BitVec 5) (col : BitVec 6) : Fabric :=
  (tileCmds f row col).foldl (fun g c => landFills (cmdAfter g c) c.out) f

/-- What a write of a row comes to: it is done, with the fabric that it leaves; it parks; its format is refused. -/
inductive FillRes where
  | done (f : Fabric)
  | parks
  | bad

/-- The write of a row by MXF or an OMF store: R228 on the slot state that the tile's queued commands, and the rows that wait for them,
will leave. A write that it allows performs at once, or behind the commands that still change the slot (R230). -/
def fillRow (f : Fabric) (x : Fill) : FillRes :=
  match writeRow (omSlot (slotsAhead f x.row x.col) x.row x.col x.slot) x.ctx x.r x.fmt x.sig x.payload x.scale with
  | .parks => .parks
  | .bad => .bad
  | .done _ =>
    match slotPending x.row x.col x.slot f (tileCmds f x.row x.col) with
    | [] => .done (landRow f x)
    | ids => .done { f with fills := f.fills ++ [{ x with behind := ids }] }

/-- Context of an engine's or RC's access for a partition at a level (R409): it keeps no copy. -/
def hubCtx (p : PartId) (lvl : Level) : Ctx := ⟨some p, .hub, lvl, none, false, false, [], 0⟩

/-- The coordinates of an MT's cluster in a region and the agent its accesses are made by (R80): the cluster's L1, or the
region's fused L1. -/
def mtAgent (s : State) (r : RegionId) (row col : Nat) : Agent :=
  let c := (s.region r).ctl
  match c.cfg with
  | some cfg => if cfg.flags.getLsbD 1 then .fused r
      else .cluster (dieOfRegion r) (BitVec.ofNat 7 (11 * (c.orow + row / 3) + c.ocol + col / 3))
  | none => .cluster (dieOfRegion r) (BitVec.ofNat 7 (11 * (c.orow + row / 3) + c.ocol + col / 3))

/-- L1s of the clusters of a region whose L1s are not fused: they see each other's S-page stores (R288). -/
def clusterMates (s : State) (r : RegionId) : List Agent :=
  let c := (s.region r).ctl
  if c.cfg.any fun g => g.flags.getLsbD 1 then []
  else (List.range c.crows).flatMap fun i => (List.range c.ccols).map fun j =>
    .cluster (dieOfRegion r) (BitVec.ofNat 7 (11 * (c.orow + i) + c.ocol + j))

/-- The translation cache of an MT's accesses: a fused L1's MTs have one each (Table 1-2). -/
def mtCache (g : Agent) (row : BitVec 5) (col : BitVec 6) : Nat := match g with
  | .fused _ => 64 * row.toNat + col.toNat + 1
  | .coreD _ | .coreI _ | .cluster _ _ | .hub => 0

/-- Context of a node's GLB access: fabric accesses are U-level (R83). -/
def nodeCtx (s : State) (n : Site) : Ctx :=
  let g := mtAgent s n.r n.row.toNat n.col.toNat
  ⟨some (s.region n.r).ctl.part, g, .u, none, false, false, (clusterMates s n.r).filter (· != g), mtCache g n.row n.col⟩

/-- An acquire of several agents at DIE scope or wider (R88). -/
def acquireAll (s : State) (gs : List Agent) : State := { s with ms := gs.foldl (fun ms g => acquireS g ms) s.ms }

/-- HINT of the shape record of a port's AGEN (Table 5-1). -/
def portHint (s : State) (n : Site) (port : BitVec 2) : BitVec 2 :=
  ((s.region n.r).ctl.cfg.bind fun g =>
    (g.nodes.find? fun x => x.row == n.row && x.col == n.col && x.word.extractLsb' 0 8 == 0x70#8 &&
      (nodeFields x.word).imm.extractLsb' 0 2 == port).bind fun x =>
        (g.shapes.find? fun h => h.row == x.row && h.col == x.col && h.slot == x.slot).map fun h =>
          h.shape.flags.extractLsb' 3 2).getD 0

/-- Context of a node's access through a port: HINT 01 allocates nothing in the cluster's L1 (Table 5-1, 14 Table 14-2). -/
def portCtx (s : State) (n : Site) (port : BitVec 2) : Ctx := { nodeCtx s n with stream := portHint s n port == 1 }

/-- Payload lane i of w bits (R48). -/
def Token.lane (t : Token) (w i : Nat) : Nat := t.payload.toNat / 2 ^ (w * i) % 2 ^ w

/-! ### Scratch (R73) -/

/-- Key of a byte of an MT's scratch in the region's scratch memory. -/
def scrKey (row : BitVec 5) (col : BitVec 6) (off : Nat) : Nat := (row.toNat * 64 + col.toNat) * 2 ^ 21 + off % 2 ^ 21

def scrRead (f : Fabric) (row : BitVec 5) (col : BitVec 6) (off n : Nat) : Nat :=
  Memory.readLE f.scratch (scrKey row col off) n

def scrWrite (f : Fabric) (row : BitVec 5) (col : BitVec 6) (off v n : Nat) : Fabric :=
  { f with scratch := Memory.writeLE f.scratch (scrKey row col off) v n }

/-! ### Pieces of a node's access -/

/-- The token at a port of an access. -/
def Acc.arg (a : Acc) (i : BitVec 2) : Option Token := a.args.find? (·.port == i)

/-- The bytes a store takes from its token: payload below byte 64, scale lane above. -/
def storeBytesOf (t : Token) (off n : Nat) : Nat := (t.scale ++ t.payload).toNat / 256 ^ off % 256 ^ n

/-- Puts loaded bytes into the result. -/
def putRes (res : BitVec 576) (off n v : Nat) : BitVec 576 := res ||| BitVec.ofNat 576 (v % 256 ^ n * 256 ^ off)

/-- What an ATOM writes for an old value, if anything (R281). -/
def atomNew (a : Acc) (w old : Nat) : Option Nat :=
  let v := ((a.arg 1).map fun t => t.lane (8 * w) 0).getD 0
  let signed := a.n.fmt == 3 || a.n.fmt == 4
  match a.n.var.toNat with
  | 0 => some (amoNew w (· + ·) true v old)
  | 1 => some (amoNew w min signed v old)
  | 2 => some (amoNew w max signed v old)
  | 3 => some v
  | 4 => if old = v then some (((a.arg 2).map fun t => t.lane (8 * w) 0).getD 0) else none
  | _ => some 1

/-- Does a translated access go through a window whose link is down? An outstanding one waits for the link (R405; log 65). -/
def overDead (s : State) (space : BitVec 2) (pa : Nat) : Bool :=
  space == 1 && isPeer pa && (s.peerLink (peerWin pa)).down

/-- What performing a piece comes to: the value read, a fault, a wait, or an OMF row refused (R228). -/
inductive PieceRes where
  | ok (v : Nat) (s : State)
  | trap (cause : BitVec 8) (va : Word)
  | wait
  | bad

def PieceRes.of : MRes Nat → PieceRes
  | .ok v s => .ok v s
  | .trap c t => .trap c t
  | .wait => .wait

/-- The tile of CT number k of the cluster around an MT (R72). -/
def ctTile (row : BitVec 5) (col : BitVec 6) (k : BitVec 3) : BitVec 5 × BitVec 6 :=
  let d : Nat × Nat := ([(0, 0), (0, 1), (0, 2), (1, 0), (1, 2), (2, 0), (2, 1), (2, 2)] : List (Nat × Nat)).getD k.toNat (0, 0)
  (BitVec.ofNat 5 (row.toNat + d.1 - 1), BitVec.ofNat 6 (col.toNat + d.2 - 1))

/-- The row that an OMF store of a token writes. -/
def omfFill (a : Acc) (p : Piece) (b : Token) : Fill :=
  let t := ctTile a.site.row a.site.col a.ct
  ⟨t.1, t.2, p.va.extractLsb' 0 6, a.site.ctx, p.va.extractLsb' 6 5, b.fmt, min b.sig.toNat 63, b.payload, b.scale, []⟩

/-- Performs one piece of an access at its place. -/
def performPiece (s : State) (a : Acc) (p : Piece) : PieceRes :=
  let n := a.site
  let f := (s.region n.r).fab
  let x := portCtx s n a.port
  let t : Xl := ⟨p.pa, p.coh⟩
  if overDead s a.space p.pa then .wait
  else match a.opc.toNat, a.space.toNat with
  | 0x71, 0 | 0x73, 0 => .ok (scrRead f n.row n.col p.pa p.n) s
  | 0x71, _ | 0x73, _ => .of (readAt s x t p.n p.va)
  | 0x72, 0 | 0x74, 0 =>
    let v := ((a.arg 1).map fun b => storeBytesOf b p.off p.n).getD 0
    .ok 0 (s.updFab n.r fun f => scrWrite f n.row n.col p.pa v p.n)
  | 0x72, 2 =>
    match a.arg 1 with
    | none => .ok 0 s
    | some b =>
      match fillRow f (omfFill a p b) with
      | .done f => .ok 0 (s.updFab n.r fun _ => f)
      | .parks => .trap 0x86 p.va
      | .bad => .bad
  | 0x72, _ | 0x74, _ =>
    let v := ((a.arg 1).map fun b => storeBytesOf b p.off p.n).getD 0
    .of ((writeAt s { x with shadow := a.opc == 0x74 } t v p.n p.va).bind fun _ s => .ok 0 s)
  | _, 0 =>
    let old := scrRead f n.row n.col p.pa p.n
    .ok old (match atomNew a p.n old with
      | some v => s.updFab n.r fun f => scrWrite f n.row n.col p.pa v p.n
      | none => s)
  | _, _ => .of (rmwAt s x t p.n p.va (atomNew a p.n))

/-- Marks piece i done with the value it read. -/
def pieceDone (a : Acc) (i v : Nat) : Acc :=
  { a with
    pieces := a.pieces.modify i fun p => { p with done := true }
    res := match a.pieces[i]? with | some p => putRes a.res p.off p.n v | none => a.res }

/-- Two accesses of one port of one MT. -/
def samePort (a b : Acc) : Bool := a.site.row == b.site.row && a.site.col == b.site.col && a.port == b.port

/-- Does an earlier access of the port have a piece still to perform on a byte of this one (R287)? A held access and an
MCAS that has not begun touch bytes not yet known. -/
def holdsBack (e : Acc) (p : Piece) : Bool :=
  if e.held || (e.opc == 0x76 && e.pieces.isEmpty) then true
  else e.pieces.any fun q => !q.done && q.pa < p.pa + p.n && p.pa < q.pa + q.n

/-- May a piece perform now, by the order of its port? -/
def mayPerform (f : Fabric) (a : Acc) (p : Piece) : Bool :=
  !(f.accs.takeWhile (·.id != a.id)).any fun e => samePort e a && holdsBack e p

end Sys2Proof.Machine
end

