-- ==== Sys2Proof/Machine/Fabric.lean ====
section
/-!
DEFINITION. Operations that every region step shares: trace records, the partition fault queue and the fault merger
(21_traps.md R333 to R338), parking, freezing, the region controller's completion stores (R37, R410) and kills (R172).
-/

namespace Sys2Proof.Machine

open Sys2Proof

def cTOKPARITY : BitVec 8 := 0x80
def cSPRUE_FULL : BitVec 8 := 0x81
def cCTX_DRY : BitVec 8 := 0x82
def cINDEX_RANGE : BitVec 8 := 0x83
def cHANG : BitVec 8 := 0x84
def cCFG_UE : BitVec 8 := 0x85
def cOM_SLOT : BitVec 8 := 0x86
def cFMT_BAD : BitVec 8 := 0x87
def cMX_CMD : BitVec 8 := 0x8E
def cFLOW_STATE : BitVec 8 := 0x8F
def cSIGLOW : BitVec 8 := 0x40
def cSCR_RANGE : BitVec 8 := 0x64
def cMCHECK : BitVec 8 := 0xA0
def cPREEMPTED : BitVec 8 := 0xA8
def cKILLED : BitVec 8 := 0xA9

/-- 0x100 | cause (R164). -/
def failWord (c : BitVec 8) : Word := 0x100 ||| c.zeroExtend 64

/-! ### Token helpers -/

/-- The tag of a node and activation, as a PFQ entry records it (Table 21-1). -/
def tagWord (ctx : BitVec 12) (iter : BitVec 16) (row : BitVec 5) (col slot : BitVec 6) (port : BitVec 2)
    (seq : BitVec 16) : Word :=
  ctx ++ iter ++ row ++ col ++ slot ++ port ++ seq ++ 0#1

/-- A token's descriptor (Table 6-13). -/
def Token.desc (t : Token) : BitVec 16 := t.kind ++ t.fmt ++ t.sig ++ BitVec.ofBool t.pred

/-- A token's tag as memory records hold it. -/
def Token.tag (t : Token) : Word := tagWord t.ctx t.iter t.drow t.dcol t.node t.port t.seq

/-- The parts of a token that parity covers: descriptor, tag, scale lane, payload (R21). -/
def Token.bits (t : Token) : BitVec 656 := t.desc ++ t.tag ++ t.scale ++ t.payload

/-- The token that these bits are. -/
def Token.ofBits (b : BitVec 656) : Token where
  kind := b.extractLsb' 653 3
  fmt := b.extractLsb' 648 5
  sig := b.extractLsb' 641 7
  pred := b.getLsbD 640
  ctx := b.extractLsb' 628 12
  iter := b.extractLsb' 612 16
  drow := b.extractLsb' 607 5
  dcol := b.extractLsb' 601 6
  node := b.extractLsb' 595 6
  port := b.extractLsb' 593 2
  seq := b.extractLsb' 577 16
  scale := b.extractLsb' 512 64
  payload := b.extractLsb' 0 512

/-- The 82 bits of parity group g (R21). -/
def parityGroup (b : BitVec 656) (g : Nat) : BitVec 82 := b.extractLsb' (640 + 2 * g) 2 ++ b.extractLsb' (80 * g) 80

/-- Is the number of ones odd? -/
def oddOnes {n : Nat} (b : BitVec n) : Bool := (List.range n).foldl (fun o i => o != b.getLsbD i) false

/-- The eight parity bits: bit g makes group g even (R21, Table 1-3). -/
def Token.parity (t : Token) : BitVec 8 :=
  (List.range 8).foldl (fun p g => if oddOnes (parityGroup t.bits g) then p ||| (1#8 <<< g) else p) 0

/-- A token received with some of its bits flipped: its parts, and whether each parity group passes. -/
def received (t : Token) (flips : BitVec 664) : BitVec 656 × (Nat → Bool) :=
  let b := t.bits ^^^ flips.extractLsb' 0 656
  let par := t.parity ^^^ flips.extractLsb' 656 8
  (b, fun g => oddOnes (parityGroup b g) == par.getLsbD g)

/-- What a parity check finds (R347). -/
inductive Check where
  /-- Every group passes: the token as received. -/
  | pass (t : Token)
  /-- Some group fails; group 7 passes, so the tag is trusted. -/
  | tagged (t : Token)
  /-- Group 7 fails. -/
  | lost
deriving DecidableEq, Repr

/-- The parity check of a token at a tile (R21). -/
def checkOf (t : Token) (flips : BitVec 664) : Check :=
  if flips = 0 then .pass t
  else
    let (b, ok) := received t flips
    if (List.range 8).all ok then .pass (.ofBits b) else if ok 7 then .tagged (.ofBits b) else .lost

/-- The trace hash of a payload (R385). -/
def vhash (p : BitVec 512) : Word :=
  (List.range 8).foldl (fun h i => h ^^^ (p.extractLsb' (64 * i) 64).rotateLeft (8 * i)) 0

/-! ### Trace records (R384 to R386) -/

def traceOn (p : Partition) : Bool :=
  let n := (p.fgtrace.extractLsb' 1 5).toNat
  p.fgtrace.getLsbD 0 && 7 ≤ n && n ≤ 24

/-- Appends a record to those the Foxglove unit has still to write. -/
def trace (s : State) (r : RegionId) (ctx : BitVec 12) (iter : BitVec 16) (row : BitVec 5) (col slot : BitVec 6)
    (event aux : BitVec 8) (tok : Option Token) : State :=
  let p := (s.region r).ctl.part
  if traceOn (s.part p) then
    let k : BitVec 3 := (tok.map (·.kind)).getD 0
    let sg : BitVec 7 := (tok.map (·.sig)).getD 0
    let seq : BitVec 16 := (tok.map (·.seq)).getD 0
    let h : Word := (tok.map fun t => vhash t.payload).getD 0
    let w1 : Word := ctx ++ iter ++ row ++ col ++ slot ++ k ++ event ++ sg ++ 0#1
    let w2 : Word := r ++ 0#2 ++ aux ++ seq ++ 0#32
    s.updPart p fun q => { q with traceq := q.traceq ++ [(s.fclock, [s.fclock, w1, w2, h])] }
  else s

/-! ### The partition fault queue (R334 to R336) -/

/-- PFQ word +0 (Table 21-1). -/
def pfqWord0 (cause : BitVec 8) (r : RegionId) (merged resumable parked : Bool) (mcount : Nat) (seq : BitVec 32) : Word :=
  cause ++ (r.zeroExtend 8 : BitVec 8) ++ 0#5 ++ BitVec.ofBool merged ++ BitVec.ofBool resumable ++ BitVec.ofBool parked ++
    BitVec.ofNat 8 (min mcount 255) ++ seq

/-- log2 of the ring's entries, when writing is enabled (R336, Table 21-3). -/
def pfqLog (p : Partition) : Option Nat :=
  let n := (p.pfqsize.extractLsb' 0 5).toNat
  if p.pfqbase.getLsbD 0 && 6 ≤ n && n ≤ 16 then some n else none

/-- The ring has room (R336); a write that faulted counts as a full ring until WERR is cleared. -/
def pfqRoom (p : Partition) : Bool :=
  match pfqLog p with
  | some n => !p.pfqsize.getLsbD 17 && (p.pfqtail.toNat + 1) % 2 ^ n ≠ p.pfqhead.toNat % 2 ^ n
  | none => false

/-- VA of entry i of the ring. -/
def pfqVa (p : Partition) (i : Nat) : Word := (p.pfqbase &&& 0x000FFFFFFFFFF000) + BitVec.ofNat 64 (64 * i)

/-- Bytes of words, little-endian. -/
def wordsBytes (ws : List Word) : List Byte := ws.flatMap fun w => natBytes 8 w.toNat

/-- Stores a list of words for a partition as system structures are stored: W needed, U not tested (log 8). -/
def storeWords (s : State) (p : PartId) (va : Word) (ws : List Word) : MRes (Option (BitVec 8 × Word)) :=
  let bs := wordsBytes ws
  storeBytes s (hubCtx p .s) va bs.length bs

/-- What a write to the PFQ comes to: it is done; there is no room, or it faulted; it waits for a locked line. -/
inductive PfqRes where | done | full | waits
deriving DecidableEq, Repr

/-- Sets WERR. -/
def setWerr (s : State) (p : PartId) : State := s.updPart p fun q => { q with pfqsize := q.pfqsize ||| 0x20000 }

/-- Does the entry of a fault still lie between PFQHEAD and PFQTAIL? Entries in the ring are the ones written last, in the
order of SEQ. -/
def inRing (q : Partition) (n : Nat) (f : FaultRec) (sq : BitVec 32) : Bool :=
  let held := (q.pfqtail.toNat + 2 ^ n - q.pfqhead.toNat % 2 ^ n) % 2 ^ n
  (q.pfqSeq - sq).toNat ≤ held && f.slotIdx % 2 ^ n == (q.pfqtail.toNat + 2 ^ n - (q.pfqSeq - sq).toNat % 2 ^ n) % 2 ^ n

/-- Rewrites word +0 of an entry while it lies in the ring; a fault sets WERR and is not retried (R336, R338). -/
def pfqRewrite (s : State) (p : PartId) (id : Nat) (w0 : Word) : PfqRes × State :=
  let q := s.part p
  match q.faults.find? (·.id = id), pfqLog q with
  | some f, some n => match f.seq with
    | some sq =>
      if inRing q n f sq then
        match storeWords s p (pfqVa q f.slotIdx) [w0] with
        | .ok none s => (.done, s)
        | .ok (some _) _ | .trap _ _ => (.done, setWerr s p)
        | .wait => (.waits, s)
      else (.done, s)
    | none => (.done, s)
  | _, _ => (.done, s)

/-- Writes the entry of fault `id` at the tail, assigning its SEQ; a faulting write sets WERR. A single word is a rewrite of word
+0 of an entry written before. -/
def pfqWrite (s : State) (p : PartId) (id : Nat) (words : List Word) : PfqRes × State :=
  let q := s.part p
  if words.length = 1 then pfqRewrite s p id (words.headD 0)
  else if pfqRoom q then
    let w0 := (words.headD 0 &&& 0xFFFFFFFF00000000) ||| q.pfqSeq.zeroExtend 64
    match storeWords s p (pfqVa q q.pfqtail.toNat) (w0 :: words.drop 1) with
    | .ok none s =>
      (.done, s.updPart p fun q =>
        { q with
          pfqtail := BitVec.ofNat 16 ((q.pfqtail.toNat + 1) % 2 ^ ((pfqLog q).getD 0))
          pfqSeq := q.pfqSeq + 1
          faults := q.faults.map fun f =>
            if f.id = id then { f with seq := some q.pfqSeq, slotIdx := q.pfqtail.toNat, entry := w0 :: words.drop 1 } else f })
    | .ok (some _) _ | .trap _ _ => (.full, setWerr s p)
    | .wait => (.waits, s)
  else (.full, s)

/-- Writes the entries kept in RCs in the order of the faults, as far as there is room (R336). -/
def pfqFlush (p : PartId) (s : State) : List (Nat × List Word) → State
  | [] => s
  | (id, ws) :: rest => match pfqWrite s p id ws with
    | (.done, s) => pfqFlush p (s.updPart p fun q => { q with deferred := rest }) rest
    | (_, s) => s

/-- Records a fault of the fabric (R334, R335): its number, its record and, when there is room after the entries that wait, its
PFQ entry. Without room the entry of a parking, held or freezing fault is kept in its RC, and another is dropped and counted
(R336). An entry that waits for a locked line is kept. -/
def recordFault (s : State) (p : PartId) (r : RegionId) (cause : BitVec 8) (tag : Word) (resumable parked keep : Bool)
    (rest : List Word) : Nat × State :=
  let id := s.nextFault
  let words := pfqWord0 cause r false resumable parked 0 0 :: rest
  let s : State := { s with nextFault := id + 1 }
  let s := s.updPart p fun q =>
    { q with faults := q.faults ++ [⟨id, r, cause, tag, none, 0, resumable, parked, false, words⟩] }
  let s := pfqFlush p s (s.part p).deferred
  let (res, s) := if (s.part p).deferred.isEmpty then pfqWrite s p id words
    else (if pfqRoom (s.part p) then .waits else .full, s)
  if res = .done then (id, s)
  else if keep || res = .waits then (id, s.updPart p fun q => { q with deferred := q.deferred ++ [(id, words)] })
  else (id, s.updPart p fun q =>
    { q with pfqsize := if (q.pfqsize.extractLsb' 32 32) == 0xFFFFFFFF#32 then q.pfqsize else q.pfqsize + 0x100000000 })

/-- The description of a node's access or firing in a PFQ entry (Table 21-1). -/
structure FaultInfo where
  va : Word := 0
  eport : BitVec 16 := 0
  mtport : BitVec 2 := 0
  size : BitVec 4 := 0
  atype : BitVec 4 := 0
  node : BitVec 24 := 0
  seq : BitVec 16 := 0
  ops : List Token := []
  /-- MODEL: the pieces of a node's access, as its firing has cut them. -/
  cut : List (Word × Nat × Nat) := []
deriving DecidableEq, Repr

/-- Words +8 to +56 of an entry. -/
def faultRest (tag : Word) (i : FaultInfo) : List Word :=
  let op (p : BitVec 2) : Word := ((i.ops.find? (·.port == p)).map fun t => t.payload.extractLsb' 0 64).getD 0
  let de (p : BitVec 2) : BitVec 16 := ((i.ops.find? (·.port == p)).map Token.desc).getD 0
  [i.va, tag, i.eport ++ 0#14 ++ i.mtport ++ i.size ++ i.atype ++ i.node, op 0, op 1, op 2, de 3 ++ de 2 ++ de 1 ++ de 0]

/-- Bits [23:0] of a node word. -/
def nodeBits (opc : BitVec 8) (n : NodeFields) : BitVec 24 := n.flags ++ n.var ++ n.fmt ++ opc

/-- The tag an entry gives a firing: SEQ is that of the token on its lowest-lettered token port (Table 21-1). -/
def siteTag (n : Site) (seq : BitVec 16) : Word := tagWord n.ctx n.iter n.row n.col n.slot 0 seq

/-- Records a fault after which the activation continues (R335): PARKED and RESUMABLE clear. -/
def noteFault (s : State) (n : Site) (cause : BitVec 8) (i : FaultInfo) : State :=
  (recordFault s (s.region n.r).ctl.part n.r cause (siteTag n i.seq) false false false (faultRest (siteTag n i.seq) i)).2

/-! ### The fault merger (R338) -/

def isXlate (c : BitVec 8) : Bool := c == cXLATE_NP || c == cXLATE_PERM || c == cXLATE_COH || c == cPT_CORRUPT

/-- Entries beyond the two guaranteed to each partition are shared, 32 in all. -/
def mergerRoom (ms : MemSys) (p : PartId) : Bool :=
  let own (q : PartId) : Nat := ms.merger.countP (·.part == q)
  let shared := (List.range 16).foldl (fun n i => n + (own (BitVec.ofNat 4 i) - 2)) 0
  own p < 2 || shared < 32

/-- Counts a further fault on an outstanding page and rewrites word +0 of its PFQ entry while it lies in the ring. -/
def mergeInto (s : State) (p : PartId) (page : Nat) : State :=
  match s.ms.merger.find? fun m => m.part == p && m.page == page with
  | none => s
  | some m =>
    let cnt := m.count + 1
    let s := s.updMs fun ms => { ms with merger := ms.merger.map fun x => if x.part == p && x.page == page then { x with count := cnt } else x }
    match (s.part p).faults.find? (·.id = m.fault) with
    | none => s
    | some f =>
      let w0 (sq : BitVec 32) : Word := pfqWord0 f.cause f.region true f.resumable f.parked cnt sq
      match f.seq with
      | some sq => match pfqRewrite s p f.id (w0 sq) with
        | (.waits, s) => s.updPart p fun q => { q with deferred := q.deferred ++ [(f.id, [w0 sq])] }
        | (_, s) => s
      | none => s.updPart p fun q =>
          { q with deferred := q.deferred.map fun (i, ws) => if i = m.fault then (i, w0 0 :: ws.drop 1) else (i, ws) }

/-! ### Parking (R333) -/

/-- The Sprue part's tokens of a tile: spilled tokens, parked tokens and parked operands, of 128 bytes each. -/
def sprueUsed (f : Fabric) (row : BitVec 5) (col : BitVec 6) : Nat :=
  f.waiting.countP (fun w => w.spilled && w.tok.drow == row && w.tok.dcol == col) +
  f.parkArea.countP (fun w => w.tok.drow == row && w.tok.dcol == col) +
  (f.parkTab.map fun p => if p.row == row && p.col == col then p.ops.length else 0).sum

/-- Tokens that a tile's Sprue part holds (R36). -/
def sprueCap (c : RegionCtl) : Nat := match c.cfg with | some g => g.sprue * 32 | none => 512

/-- Is the activation parked? -/
def isParked (f : Fabric) (ctx : BitVec 12) (iter : BitVec 16) : Bool :=
  f.parkTab.any fun p => p.ctx == ctx && p.iter == iter

/-- Activations in the park table. -/
def parkCount (f : Fabric) : Nat := (f.parkTab.map fun p => (p.ctx, p.iter)).dedup.length

/-- Freezes a region (Table 1-6): the state, a PFQ entry with TAG 0 and the given VA, a trace record. -/
def freeze (s : State) (r : RegionId) (cause : BitVec 8) (va : Word) : State :=
  let s := s.updCtl r fun c => { c with st := .frozen, fault := cause }
  let s := trace s r 0 0 0 0 0 7 cause none
  (recordFault s (s.region r).ctl.part r cause 0 false false true (faultRest 0 { va := va })).2

/-- What a fault of a firing leads to. -/
inductive Parked where
  /-- Parked, with the next state. -/
  | parked (s : State)
  /-- The park table is full: the node holds the firing (R333). -/
  | full
  /-- No merger entry is free: the access is held at its MT (R338). -/
  | held
  /-- The tile's Sprue part is full: the region freezes with SPRUE_FULL and its tokens stay where they are (R36, R333). -/
  | overflow
deriving DecidableEq

/-- Parks an activation on a fault of the firing at `n` whose operand tokens are `toks` (already withdrawn from their
queues) and whose operands are `i.ops` (R333, R338). -/
def park (s : State) (n : Site) (cause : BitVec 8) (i : FaultInfo) (toks : List WaitTok) : Parked :=
  let f := (s.region n.r).fab
  let p := (s.region n.r).ctl.part
  let page := pageOf i.va
  let merged := isXlate cause && s.ms.merger.any fun m => m.part == p && m.page == page
  if !isParked f n.ctx n.iter && 256 ≤ parkCount f then .full
  else if isXlate cause && !merged && !mergerRoom s.ms p then .held
  else if sprueCap (s.region n.r).ctl < sprueUsed f n.row n.col + toks.length then .overflow
  else
    let tag := siteTag n i.seq
    let (id, s) := if merged then
        ((s.ms.merger.find? fun m => m.part == p && m.page == page).map (·.fault) |>.getD 0, mergeInto s p page)
      else recordFault s p n.r cause tag true true true (faultRest tag i)
    let s := if isXlate cause && !merged then s.updMs fun ms => { ms with merger := ms.merger ++ [⟨p, page, 0, id⟩] } else s
    let s := s.updFab n.r fun f =>
      { f with parkTab := f.parkTab ++ [⟨n.ctx, n.iter, false, cause, n.row, n.col, n.slot, i.va,
          if isXlate cause then some page else none, id, toks, i.ops⟩] }
    .parked (trace s n.r n.ctx n.iter n.row n.col n.slot 4 cause (i.ops.find? (·.port == 0)))

/-- Merger entries that no parked activation, held access or held store of any region counts on free at once (R338). -/
def mergerInUse (s : State) (m : MergeEntry) : Bool :=
  s.regions.toList.any (fun x => x.ctl.part == m.part &&
    (x.fab.parkTab.any (fun p => p.page == some m.page) || x.ctl.heldStore.any (fun h => h.2.1 != 0 && h.2.2 == m.page))) ||
  s.ops.any (fun o => o.part == m.part && o.held.any fun h => h.2.2 == m.page)

def sweepMerger (s : State) : State := s.updMs fun ms => { ms with merger := ms.merger.filter (mergerInUse s) }

/-! ### Completion stores (R37, R303, R409, R410) -/

/-- Records a fault of an access that belongs to no activation (R410): PARKED 0, RESUMABLE 1, merged. -/
def recordHeld (s : State) (p : PartId) (r : RegionId) (cause : BitVec 8) (i : FaultInfo) : Nat × State :=
  let page := pageOf i.va
  match s.ms.merger.find? fun m => m.part == p && m.page == page with
  | some m => (m.fault, mergeInto s p page)
  | none =>
    let (id, s) := recordFault s p r cause 0 true false true (faultRest 0 i)
    (id, s.updMs fun ms => { ms with merger := ms.merger ++ [⟨p, page, 0, id⟩] })

/-- The clusters of a region's rectangle (Table 9-2). -/
def clustersOf (c : RegionCtl) : List (BitVec 7) :=
  (List.range c.crows).flatMap fun i => (List.range c.ccols).map fun j => BitVec.ofNat 7 (11 * (c.orow + i) + c.ocol + j)

/-- The L1s of a region on its die: those of its clusters and its fused one (R80). A SAVED region occupies no cluster. -/
def regionAgents (s : State) (r : RegionId) : List Agent :=
  let c := (s.region r).ctl
  if c.st = .free ∨ c.st = .saved then []
  else .fused r :: (clustersOf c).map (.cluster (dieOfRegion r))

/-- Must a sync of a region's L1s wait for a locked line (R99)? -/
def regionSyncHeld (s : State) (r : RegionId) : Bool := (regionAgents s r).any (syncHeld s)

/-- A phase boundary or a completion store acts as a release and an acquire of the region's L1s (R88). -/
def regionSync (s : State) (r : RegionId) : State :=
  { s with ms := (regionAgents s r).foldl (fun ms a => acquireS a ms) s.ms }

/-- The RC's store of a value to the region's completion word, a release at DEVICE scope (R88, R303). True when it has
performed; a fault holds it (R37, R410), without a number while it finds no merger entry (R338), waits for a locked line, or
meets a peer link that is down, which no PFQ entry records (R350; log 65). -/
def storeCword (s : State) (r : RegionId) (v : Word) : Bool × State :=
  let c := (s.region r).ctl
  let page := pageOf c.cword
  let hold (s : State) (id : Nat) : State := s.updCtl r fun c => { c with heldStore := some (v, id, page) }
  if regionSyncHeld s r then (false, hold s 0)
  else
  let s := regionSync s r
  match storeVa s (hubCtx c.part c.cwLvl) c.cword v.toNat 8 with
  | .ok _ s => (true, s.updCtl r fun c => { c with heldStore := none })
  | .trap cause _ =>
    if cause == cLINK_DOWN || cause == cLINK_AUTH then (false, hold s 0)
    else if s.ms.merger.any (fun m => m.part == c.part && m.page == page) || mergerRoom s.ms c.part then
      let (id, s) := recordHeld s c.part r cause { va := c.cword, size := 3, atype := 2 }
      (false, hold s id)
    else (false, hold s 0)
  | .wait => (false, hold s 0)

/-! ### Operations and their completion (R163, R164) -/

/-- Writes the completion value of an operation to its token register, clears the pending mark and forgets the operation;
a core that waited at issue for it goes on. -/
def completeOp (s : State) (o : Op) (v : Word) : State :=
  let s := { s with ops := s.ops.filter (·.id != o.id) }
  s.updCore o.core fun c =>
    { c with
      g := if o.d = 0 then c.g else c.g.set o.d.toNat v o.d.isLt
      pend := c.pend &&& ~~~(1#32 <<< o.d.toNat)
      run := if c.run = .issue o.id then .running else c.run }

/-- The region an operation works on, when it is a STRM or SBAR. -/
def streamRegion : OpKind → Option RegionId
  | .strm r _ _ _ _ => some r
  | .sbar r => some r
  | _ => none

/-- Ends an operation that has made accesses: whatever follows its token register reads what it wrote, so the core's S-copies are
invalidated (R88, R165, R301; log 9). -/
def endOp (s : State) (o : Op) (v : Word) : State :=
  let s := completeOp s o v
  { s with ms := acquireS (.coreD o.core) s.ms }

/-- Ends the rounds of every STRM and SBAR of a region with a failure, which each completes with once the accesses that its tokens
have led to have performed (R172, R301). A stop of the partition reaches one that has failed before and is still pending (R332). -/
def failStreams (s : State) (r : RegionId) (c : BitVec 8) : State :=
  { s with ops := s.ops.map fun o =>
      if streamRegion o.kind == some r then
        { o with held := none, fail := some (if c = cMCHECK then failWord c else o.fail.getD (failWord c)) } else o }

/-- Completes the streams of a region that have failed. -/
def endFailed (s : State) (r : RegionId) : State :=
  (s.ops.filter fun o => streamRegion o.kind == some r).foldl
    (fun s o => match o.fail with | some v => endOp s o v | none => s) s

/-- Completes every LAUNCH that waits for a region, or is loading it, with a failure. -/
def failLaunches (s : State) (r : RegionId) (c : BitVec 8) : State :=
  (s.ops.filter fun o => match o.kind with | .launch q _ _ _ => q == r | .loading q => q == r | _ => false).foldl
    (fun s o => completeOp s o (failWord c)) s

/-- Discards the fabric of a region: tokens, contexts, node state, park table, accesses not performed, array queues; slots
become free; scratch, slot rows and accumulators persist (R38, R74, R227, R240, R244, R293). -/
def clearFabric (f : Fabric) : Fabric :=
  { Fabric.reset with
    scratch := f.scratch
    am := f.am
    om := f.om.map fun o => { o with held := false }
    lfsr := f.lfsr
    nextId := f.nextId }

/-- A region's rectangle returns to the Tundish, which runs a round (R367); its clusters are free from now on (R374). A SAVED region
occupies none. -/
def vacate (s : State) (r : RegionId) : State :=
  let c := (s.region r).ctl
  let gone := if c.st = .saved then [] else clustersOf c
  s.updDie (dieOfRegion r) fun d => { d with
    round := true
    freeAt := gone.map (·, s.fclock) ++ d.freeAt.filter fun e => !gone.contains e.1 }

/-- A region becomes FREE: its rectangle returns to the Tundish, and a LAUNCH that waits for it fails (R172). -/
def freeRegion (s : State) (r : RegionId) : State :=
  sweepMerger <| (failLaunches (vacate (endFailed s r) r) r cKILLED).updRegion r fun x =>
    { Region.reset with fab := { Fabric.reset with lfsr := x.fab.lfsr } }

/-- What follows a completion store that has performed or was skipped: streams that have failed complete, a SAVED region that was
killed becomes FREE, any other enters IDLE (Table 1-6, R301, R410). -/
def afterStore (s : State) (r : RegionId) : State :=
  let s := endFailed s r
  if (s.region r).ctl.st = .saved then freeRegion s r
  else s.updCtl r fun x => { x with st := .idle, heldStore := none, killing := none, power := 0, idleSince := some s.fclock }

/-- The RC stores a final value to the completion word; the region changes state once the store has performed (R410). -/
def finalStore (s : State) (r : RegionId) (v : Word) : State :=
  let (done, s) := storeCword s r v
  if done then afterStore s r else s

/-- The last step of a kill: once the accesses that had reached their ports have performed, the slots become free, streams complete,
the completion word gets 0x100 | the cause of the first kill, and the region enters IDLE, or FREE when it was SAVED (R38, R227, R301,
R340, R363, Table 1-6). -/
def killDone (s : State) (r : RegionId) : State :=
  match (s.region r).ctl.killing with
  | some c => if (s.region r).fab.accs.isEmpty then
      let s := if regionSyncHeld s r then s else endFailed (regionSync s r) r
      finalStore (s.updFab r fun f => { f with nodes := [], om := f.om.map fun o => { o with held := false } }) r (failWord c)
    else s
  | none => s

/-- Of the nodes' state, the shape records that accesses still to be made at their ports use (R273, R363). -/
def shapesOnly (ns : List NodeSt) : List NodeSt := ns.filterMap fun y => y.shape.map fun h =>
  ⟨y.row, y.col, y.slot, [], 0, 0, 0, [], [], none, [], some h, [], 0, false, [], [], none, none⟩

/-- Ends the configuration of a region that is RUNNING or FROZEN by a kill with the given cause: tokens and streams go, and
accesses whose firing had started, held at their MT or not, are left to perform or to fault, a MCAS among them to complete (R38,
R172, R173, R338, R340, R363). Pending STRM and SBAR complete with KILLED, or MCHECK when the partition stops
(Table 22-7). -/
def killRunning (s : State) (r : RegionId) (c : BitVec 8) : State :=
  let saved := (s.region r).ctl.st = .saved
  let accs := if saved then [] else (s.region r).fab.accs
  let s := s.updFab r fun f => { clearFabric f with
    accs := accs.map fun a => { a with out := none }
    om := f.om
    nodes := if accs.isEmpty then [] else shapesOnly f.nodes }
  let s := failStreams s r (if c = cMCHECK then cMCHECK else cKILLED)
  let s := s.updCtl r fun x => { x with
    st := if saved then .saved else .running, heldStore := none, killing := some (x.killing.getD c), power := 0 }
  let s := s.updDbg r fun d => { d with stop := .going, replay := none }
  killDone (sweepMerger s) r

end Sys2Proof.Machine
end

