-- ==== Sys2Proof/Machine/Flags.lean ====
section
/-!
DEFINITION. Flags and status bits: the FCSR flags and trap enables (R51, Table 3-5), SIGCTL (Table 3-7), the STATUS fields
that trap entry and RETT use (Table 9-9).
-/

namespace Sys2Proof.Machine

open Sys2Proof

/-- Exceptions an FP operation signals. -/
structure FpFlags where
  nv : Bool := false
  dz : Bool := false
  of : Bool := false
  uf : Bool := false
  nx : Bool := false
deriving DecidableEq, Repr

/-- The flags as FCSR bits [4:0]. -/
def FpFlags.bits (f : FpFlags) : BitVec 5 :=
  BitVec.ofBool f.nv ++ BitVec.ofBool f.dz ++ BitVec.ofBool f.of ++ BitVec.ofBool f.uf ++ BitVec.ofBool f.nx

def FpFlags.or (a b : FpFlags) : FpFlags := ⟨a.nv || b.nv, a.dz || b.dz, a.of || b.of, a.uf || b.uf, a.nx || b.nx⟩

/-- FCSR with the signalled flags set. -/
def raiseFlags (fcsr : Word) (f : FpFlags) : Word := fcsr ||| f.bits.zeroExtend 64

/-- The cause of the first enabled exception in the order NV, DZ, OF, UF, NX (R51). -/
def enabledCause (fcsr : Word) (f : FpFlags) : Option (BitVec 8) :=
  if f.nv && fcsr.getLsbD 12 then some 0x41
  else if f.dz && fcsr.getLsbD 11 then some 0x42
  else if f.of && fcsr.getLsbD 10 then some 0x43
  else if f.uf && fcsr.getLsbD 9 then some 0x44
  else if f.nx && fcsr.getLsbD 8 then some 0x45
  else none

/-- The mode an instruction rounds in, or none when it raises ILLEGAL (R50). -/
def resolveRm (fcsr : Word) : RMode → Option RMode
  | .dyn => match (fcsr.extractLsb' 5 3).toNat with
    | 0 => some .rne | 1 => some .rtz | 2 => some .rdn | 3 => some .rup | 4 => some .rna | _ => none
  | m => some m

/-- SIGCTL.EN and THR (Table 3-7). -/
def sigEn (sigctl : Word) : Bool := sigctl.getLsbD 7
def sigThr (sigctl : Word) : Nat := (sigctl.extractLsb' 0 7).toNat

/-- The SIGLOW test of R66: enabled, the result's tag below T, every floating-point operand's tag at least T. -/
def sigLow (sigctl : Word) (s : Nat) (xs : List Nat) : Bool :=
  sigEn sigctl && s < sigThr sigctl && xs.all (sigThr sigctl ≤ ·)

def levelCode : Level → BitVec 2 | .u => 0 | .s => 1 | .h => 2

def levelOfCode (c : BitVec 2) : Option Level :=
  match c.toNat with | 0 => some .u | 1 => some .s | 2 => some .h | _ => none

def levelNat : Level → Nat | .u => 0 | .s => 1 | .h => 2

/-- STATUS_T after trap entry from a level: PPL := level, PIE := IE, IE := 0 (R192). -/
def statusEnter (status : Word) (lvl : Level) : Word :=
  0#60 ++ levelCode lvl ++ BitVec.ofBool (status.getLsbD 0) ++ 0#1

/-- STATUS_T after RETT: IE := PIE (R195). -/
def statusReturn (status : Word) : Word := (status &&& ~~~1#64) ||| (status >>> 1 &&& 1#64)

end Sys2Proof.Machine
end

