-- ==== Sys2Proof/Machine/Ops.lean ====
section
/-!
DEFINITION. Named operations of the scalar cores: registers and pending marks (R138, R163), retiring an instruction and
single step (R392), instruction fetch (R148), taking an exception (R192) with the double-fault chain (R331) and MCHECK
(R332), interrupts (R193, R337), the core's loads and stores with watchpoints (R149, R392), issuing asynchronous operations
(R163 to R165).
-/

namespace Sys2Proof.Machine

open Sys2Proof

abbrev Out := Host.Outcome State Fault Refusal

def cSYSCALL : BitVec 8 := 0x00
def cHVCALL : BitVec 8 := 0x01
def cBREAK : BitVec 8 := 0x02
def cSTEP : BitVec 8 := 0x03
def cDBGSTOP : BitVec 8 := 0x04
def cHOSTEVENT : BitVec 8 := 0x08
def cTIMER : BitVec 8 := 0x09
def cPFQEVENT : BitVec 8 := 0x0A
def cILLEGAL : BitVec 8 := 0x20
def cPRIV : BitVec 8 := 0x21
def cINT_DIVZERO : BitVec 8 := 0x46
def cDOUBLEFAULT : BitVec 8 := 0xA1
def cTHERMAL : BitVec 8 := 0xA6

/-! ### Registers -/

/-- The core whose turn it is. -/
def State.me (s : State) : Core := s.core s.cur

/-- Updates the core whose turn it is. -/
def State.updMe (s : State) (f : Core → Core) : State := s.updCore s.cur f

/-- g[r]; g0 reads 0 (R138). -/
def Core.rg (c : Core) (r : Reg) : Word := if r = 0 then 0 else c.g[r.toNat]'r.isLt

/-- g[r] := v; writes to g0 are discarded (R138). -/
def Core.wg (c : Core) (r : Reg) (v : Word) : Core := if r = 0 then c else { c with g := c.g.set r.toNat v r.isLt }

def Core.rf (c : Core) (r : Reg) : FReg := c.f[r.toNat]'r.isLt

/-- f[r] := v with its tag (R139). -/
def Core.wf (c : Core) (r : Reg) (v : Word) (tag : BitVec 7) : Core := { c with f := c.f.set r.toNat ⟨v, tag⟩ r.isLt }

def State.rg (s : State) (r : Reg) : Word := s.me.rg r
def State.wg (s : State) (r : Reg) (v : Word) : State := s.updMe (·.wg r v)
def State.rf (s : State) (r : Reg) : FReg := s.me.rf r
def State.wf (s : State) (r : Reg) (v : Word) (tag : BitVec 7) : State := s.updMe (·.wf r v tag)

/-- Is a register pending (R163)? g0 never is. -/
def Core.pending (c : Core) (r : Reg) : Bool := r != 0 && c.pend.getLsbD r.toNat

/-- An instruction that names a pending g register waits: the state stays as it is (R141, R163). -/
def needRegs (s : State) (rs : List Reg) (k : Out) : Out := if rs.any s.me.pending then .next s else k

/-- The instruction word, as TVAL holds it (Table 8-2). -/
def wordOf (i : Instr) : Word := zext ((encodeS i).getD 0)

/-! ### Instruction fetch (R148, R162) -/

/-- Context of a core's instruction fetches. -/
def fetchCtx (s : State) (c : CoreId) : Ctx := ⟨(s.core c).part, .coreI c, (s.core c).level, none, false, false, [], 0⟩

/-- Lines that an instruction cache holds words of: at most 512, in 64 KiB (Table 5-2). -/
def icacheLines (ws : List (Nat × BitVec 32)) : List Nat := (ws.map fun e => lineOf e.1).dedup

/-- Does a word of a line find no place in an instruction cache? -/
def icacheFull (ws : List (Nat × BitVec 32)) (line : Nat) : Bool :=
  512 ≤ (icacheLines ws).length && !(icacheLines ws).contains line

/-- Puts a word into a core's instruction cache; a full one loses a line, freely chosen (R78; log 62). -/
def icachePut (s : State) (c : CoreId) (pa : Nat) (w : BitVec 32) : State :=
  let ws := (s.core c).icache
  if icacheFull ws (lineOf pa) then
    let lost := (icacheLines ws)[Config.freeIndex s.fresh % (icacheLines ws).length]?
    (s.useFresh 1).updCore c fun x => { x with icache := (pa, w) :: x.icache.filter fun e => some (lineOf e.1) != lost }
  else s.updCore c fun x => { x with icache := (pa, w) :: x.icache }

/-- The SQSTART that waits for a core's first fetch completes with 1 (R199). -/
def startDone (s : State) (c : CoreId) : State :=
  match s.ops.find? (·.kind == .sqstart c) with
  | some o => endOp s o 1
  | none => s

/-- A core has fetched: a handler it was entering has begun (R331), and the core has started (R199). -/
def hasFetched (s : State) (c : CoreId) : State := startDone (s.updCore c fun x => { x with entering := none }) c

/-- Fetches the word at a core's pc: a word the core already holds may be stale until
FENCE.CORE (R162; log 5); a fetch of a D line makes the instruction cache a holder of it (R80, R90); U lines are never cached
(R88). -/
def fetchAt (s : State) (c : CoreId) : MRes (BitVec 32) :=
  (translate s (fetchCtx s c) .fetch (s.core c).pc).bind fun t s =>
    match (s.core c).icache.find? (·.1 = t.pa) with
    | some (_, w) => .ok w (hasFetched s c)
    | none => (homeCheck s (fetchCtx s c) t.pa 4 (s.core c).pc false).bind fun _ s =>
        (readHome s (fetchCtx s c) t.pa 4).bind fun v s =>
          let w := BitVec.ofNat 32 v
          let s := if t.coh == 0#2 then s.updMs (dirRead (some (.coreI c)) t.pa s.fclock) else s
          .ok w (hasFetched (if t.coh == 2#2 then s else icachePut s c t.pa w) c)

/-! ### Stopping a partition (R332, R403) -/

/-- The cores of a partition. -/
def coresOf (s : State) (p : PartId) : List CoreId :=
  ((List.range 64).map fun i => CoreId.sq (BitVec.ofNat 6 i)) ++ ((List.range 16).map fun i => CoreId.sy (BitVec.ofNat 4 i))
    |>.filter fun c => (s.core c).part == some p

/-- The regions of a partition that are not FREE. -/
def regionsOf (s : State) (p : PartId) : List RegionId :=
  ((List.range 64).map (BitVec.ofNat 6 ·)).filter fun r => (s.region r).ctl.st != .free && (s.region r).ctl.part == p

/-- Kills a region at once, as KILLR does, storing 0x100 | MCHECK where it was LOADING or RUNNING (R332); a SAVED region whose store
cannot perform yet holds it, as after KILLR. -/
def mcheckRegion (s : State) (r : RegionId) : State :=
  let s := failLaunches (failStreams s r cMCHECK) r cMCHECK
  match (s.region r).ctl.st with
  | .running | .loading => killRunning s r cMCHECK
  | .frozen | .saved => killRunning s r cKILLED
  | .idle => freeRegion s r
  | .free => s

/-- A core stops: SQCTL.LEVEL holds its level (R344), and no other stop is still to come. -/
def coreStop (how : Run) (c : Core) : Core :=
  { c with run := how, sqlevel := levelCode c.level, stopReq := false, crashStop := false }

/-- Halts a partition's cores, kills its regions and drops its faults and merger entries (R332, R401). A MWCAS that has begun
completes (R102), and its core stays halted. -/
def haltPart (s : State) (p : PartId) : State :=
  let s := (coresOf s p).foldl (fun s c => s.updCore c (coreStop .halted)) s
  let s := (regionsOf s p).foldl mcheckRegion s
  let s := s.updMs fun ms => { ms with merger := ms.merger.filter (·.part != p) }
  s.updPart p fun q => { q with tdisp := .error, deferred := [], faults := [] }

/-- MCHECK: the security processor stops the partition (R332, R403). Memory and keys stay. -/
def mcheckStop (s : State) (p : PartId) : State :=
  let s := (haltPart s p).updPart p fun q => { q with st := .stopped }
  s.updPorts fun h => { h with hostOut := h.hostOut ++ [.msix p] }

/-- MCHECK on a core: its partition stops; a core of no partition halts (log 10). -/
def mcheckCore (s : State) (c : CoreId) : State :=
  match (s.core c).part with
  | some p => mcheckStop s p
  | none => s.updCore c fun x => { x with run := .halted }

/-! ### Taking an exception (R192, R331) -/

/-- The level a cause raised at a level is taken at (R192). -/
def trapLevel (cause : BitVec 8) (lvl : Level) : Level :=
  if cause = cHVCALL || cause = cDOUBLEFAULT then .h
  else match lvl with | .u => .s | .s | .h => .h

def Core.trapRegs (c : Core) : Level → TrapRegs
  | .h => c.th
  | _ => c.ts

def Core.setTrapRegs (c : Core) (l : Level) (t : TrapRegs) : Core :=
  match l with
  | .h => { c with th := t }
  | _ => { c with ts := t }

/-- The writes of trap entry at level `t` (R192). -/
def enterTrap (c : Core) (t : Level) (cause : BitVec 8) (int : Bool) (tval tpc : Word) : Core :=
  let r := c.trapRegs t
  { (c.setTrapRegs t { r with
      tpc := tpc
      tcause := 0#55 ++ BitVec.ofBool int ++ cause
      tval := tval
      status := statusEnter r.status c.level }) with
    level := t
    pc := r.tvec
    run := .running
    entering := some cause }

/-- Whether the fetch at a core's pc faults, and the state after the attempt; a fetch that waits has not faulted yet. -/
def fetchFaults (s : State) (c : CoreId) : Option (BitVec 8) × State :=
  match fetchAt s c with
  | .ok _ s => (none, s)
  | .trap cause _ => (some cause, s)
  | .wait => (none, s)

/-- The fetch of a handler's first instruction has faulted: after a trap at S, DOUBLEFAULT is taken at H, and at H MCHECK is raised
(R331). -/
def handlerFault (s : State) (c : CoreId) (cause f : BitVec 8) : State :=
  if (s.core c).level = .h then mcheckCore s c
  else
    let s := s.updCore c fun x => enterTrap x .h cDOUBLEFAULT false (0#48 ++ f ++ cause) (x.ts.tvec)
    match fetchFaults s c with
    | (none, s) => s
    | (some _, s) => mcheckCore s c

/-- Takes an exception on a core: the entry of R192, then the fetch of the handler's first instruction (R331). A fetch that waits
for a locked line is made in the core's next turn. -/
def takeTrap (s : State) (c : CoreId) (t : Level) (cause : BitVec 8) (int : Bool) (tval tpc : Word) : State :=
  let s := s.updCore c fun x => enterTrap x t cause int tval tpc
  match fetchFaults s c with
  | (none, s) => s
  | (some f, s) => handlerFault s c cause f

/-- DBGC.SKIP clears with the instruction it served (R392). -/
def clearSkip (c : Core) : Core := if c.level = .u then { c with dbgc := c.dbgc &&& ~~~2#64 } else c

/-- What failed authentication on a link is spent on the access that it fails (R405). -/
def authSpent (p : PartId) (a : Answers) (ms : MemSys) (l : BitVec 4) : MemSys :=
  { ms with net := ms.net.updLink l fun k => { k with authFail := k.authFail.filter (· != (p, a)) } }

/-- A core's access has met a response that failed authentication. -/
def authTaken (s : State) (va : Word) : State :=
  match s.me.part.bind fun p => physOf s p va with
  | some pa => if isPeer pa then
      s.updMs fun ms => authSpent (s.me.part.getD 0) (.core s.cur) ms (winLink (ms.net.win (peerWin pa))) else s
  | none => s

/-- The instruction of the current core raises a cause precisely: no register or memory is written, TPC names it. -/
def raise (s : State) (cause : BitVec 8) (tval : Word) : Out :=
  let s := s.updMe clearSkip
  let s := if cause = cLINK_AUTH then authTaken s tval else s
  .next (takeTrap s s.cur (trapLevel cause s.me.level) cause false tval s.me.pc)

/-- The instruction completes before its trap: TPC is its address + 4 (R194). -/
def raiseAfter (s : State) (cause : BitVec 8) (tval : Word) : Out :=
  let s := s.updMe clearSkip
  .next (takeTrap s s.cur (trapLevel cause s.me.level) cause false tval (s.me.pc + 4))

/-- The instruction completes and pc goes to an address; at U level under single step, STEP is raised (R392). -/
def retireTo (s : State) (pc : Word) : Out :=
  let step := s.me.level = .u && s.me.dbgc.getLsbD 0
  let s := s.updMe fun c => { clearSkip c with pc := pc }
  if step then .next (takeTrap s s.cur .s cSTEP false 0 pc) else .next s

/-- The instruction completes and pc moves to the next word. -/
def retire (s : State) : Out := retireTo s (s.me.pc + 4)

/-- Writes g[d] and retires. -/
def retireG (s : State) (d : Reg) (v : Word) : Out := retire (s.wg d v)

/-- Raises PRIV below a level (R110), with the word in TVAL. -/
def needLevel (s : State) (l : Level) (i : Instr) (k : Out) : Out :=
  if levelNat s.me.level < levelNat l then raise s cPRIV (wordOf i) else k

/-! ### Interrupts (R193, R337, R356) -/

def timerPending (s : State) (c : CoreId) : Bool :=
  (s.core c).timecmp != 0 && (s.core c).timecmp.toNat ≤ s.fclock.toNat

def pfqPending (p : Partition) : Bool := p.pfqsize.getLsbD 16 && p.pfqhead != p.pfqtail

/-- The interrupt pending on a core that is taken first: THERMAL, HOSTEVENT, PFQEVENT (SY cores), then TIMER. -/
def pendingInt (s : State) (c : CoreId) : Option (BitVec 8) :=
  let own : Option (BitVec 8) := match c, (s.core c).part with
    | .sy _, some p =>
      let q := s.part p
      if q.thermal.isSome then some cTHERMAL
      else if q.hostEvent then some cHOSTEVENT
      else if pfqPending q then some cPFQEVENT
      else none
    | _, _ => none
  match own with
  | some i => some i
  | none => if timerPending s c then some cTIMER else none

/-- Is a pending S-level interrupt taken on a core: at U always, at S when IE = 1, at H never (R193)? -/
def intEnabled (c : Core) : Bool :=
  match c.level with | .u => true | .s => c.ts.status.getLsbD 0 | .h => false

/-- The interrupt a core takes before its next instruction; a MWCAS that has begun locking delays it (R102). -/
def takenInt (s : State) (c : CoreId) : Option (BitVec 8) :=
  match (s.core c).run with
  | .running | .waitw _ _ _ | .wfe | .tlbsync => if intEnabled (s.core c) then pendingInt s c else none
  | _ => none

/-- Takes an interrupt between instructions. HOSTEVENT and THERMAL clear when taken; the TVAL of the others is open and
free (log 2). A WAITW interrupted re-executes, a WFE that ends does not (R185, R198). -/
def takeInt (s : State) (c : CoreId) (cause : BitVec 8) : State :=
  let th : Option (BitVec 10) := (s.core c).part.bind fun p => (s.part p).thermal
  let tval : Word := if cause = cTHERMAL then (th.map fun t => t.zeroExtend 64).getD 0 else Config.freeWord s.fresh
  let s := s.useFresh 1
  let s := match (s.core c).part with
    | some p => s.updPart p fun q =>
        if cause = cTHERMAL then { q with thermal := none }
        else if cause = cHOSTEVENT then { q with hostEvent := false } else q
    | none => s
  let tpc := match (s.core c).run with | .wfe => (s.core c).pc + 4 | _ => (s.core c).pc
  takeTrap s c .s cause true tval tpc

/-! ### The core's data accesses (R149, R392) -/

/-- Context of the current core's data accesses. -/
def coreCtx (s : State) : Ctx := ⟨s.me.part, .coreD s.cur, s.me.level, none, false, false, [], 0⟩

/-- A watchpoint of the current core touches bytes [va, va+n) (R392). -/
def watchHit (c : Core) (va : Word) (n : Nat) (write : Bool) : Bool :=
  let sz := 2 ^ (min 16 (c.dbgc.extractLsb' 4 5).toNat)
  let lo := c.dbgwva.toNat / sz * sz
  c.level == .u && !c.dbgc.getLsbD 1 && (if write then c.dbgc.getLsbD 3 else c.dbgc.getLsbD 2) &&
    lo < va.toNat + n && va.toNat < lo + sz

/-- Turns a checked access into an outcome of the instruction: a cause is raised from the state before it. -/
def onAccess {α : Type} (s0 : State) (r : MRes α) (k : α → State → Out) : Out :=
  match r with
  | .ok a s => k a s
  | .trap c t => raise s0 c t
  | .wait => .next s0

/-- A core load of n bytes: alignment, translation, watch, access (R140, R149). -/
def coreLoad (s : State) (va : Word) (n : Nat) (k : Nat → State → Out) : Out :=
  if !aligned va n then raise s cMISALIGN va
  else onAccess s (translate s (coreCtx s) .read va) fun t s1 =>
    if watchHit s.me va n false then raise s cWATCH va
    else onAccess s (readAt s1 (coreCtx s) t n va) k

/-- A core store of n bytes. -/
def coreStore (s : State) (va : Word) (v n : Nat) (k : State → Out) : Out :=
  if !aligned va n then raise s cMISALIGN va
  else onAccess s (translate s (coreCtx s) .write va) fun t s1 =>
    if watchHit s.me va n true then raise s cWATCH va
    else onAccess s (writeAt s1 (coreCtx s) t v n va) fun _ s => k s

/-- A release by the current core waits while dirty bytes of its S-lines lie under a lock (R88, R99): the state stays as it is. -/
def needSync (s : State) (k : Out) : Out := if syncHeld s (.coreD s.cur) then .next s else k

/-- A release by the current core at DIE scope or wider (R88). -/
def State.releaseMe (s : State) : State := { s with ms := releaseS (.coreD s.cur) s.ms }

/-- An acquire by the current core at DIE scope or wider (R88). -/
def State.acquireMe (s : State) : State := { s with ms := acquireS (.coreD s.cur) s.ms }

/-! ### Asynchronous operations (R163 to R165) -/

/-- Pending token registers of a core. -/
def pendCount (c : Core) : Nat := (List.range 32).countP fun i => c.pend.getLsbD i

/-- The operation that the current core issues for partition p with token register g[d]. -/
def issueOp (s : State) (d : Reg) (p : PartId) : Op := ⟨s.nextOp, s.cur, d, s.me.level, p, .settle, s.fclock, 0, [], [], none, none⟩

/-- The state in which an operation begins: the core's earlier accesses have performed and g[d] is pending (R163, R165). -/
def issueState (s : State) (d : Reg) : State :=
  let s := { s.releaseMe with nextOp := s.nextOp + 1 }
  s.updMe fun c => { c with pend := if d = 0 then c.pend else c.pend ||| (1#32 <<< d.toNat) }

/-- Issues an asynchronous operation: waits for its registers, for fewer than 16 pending ones, and for the core's earlier accesses
to perform; marks g[d] pending and starts the operation (R163, R165). -/
def issue (s : State) (d : Reg) (uses : List Reg) (k : State → Op → Out) : Out :=
  needRegs s (d :: uses) <|
    if 16 ≤ pendCount s.me && d != 0 then .next s
    else match s.me.part with
      | none => retireG s d (failWord cPRIV)
      | some p => needSync s (k (issueState s d) (issueOp s d p))

/-- Leaves an issued operation in progress and retires. -/
def start (s : State) (o : Op) (kind : OpKind) : Out := retire { s with ops := s.ops ++ [{ o with kind := kind }] }

/-- Ends an issued operation at once with a value, and retires. -/
def endNow (s : State) (o : Op) (v : Word) : Out := retire (endOp s o v)

/-- An operation in progress by number. -/
def findOp (s : State) (k : Nat) : Option Op := s.ops.find? (·.id = k)

/-- Replaces an operation in progress. -/
def putOp (s : State) (o : Op) : State := { s with ops := s.ops.map fun x => if x.id = o.id then o else x }

/-- Completes an operation from an event (R163, R165). -/
def finishOp (s : State) (o : Op) (v : Word) : State := endOp s o v

/-! ### What a core does in its turn -/

/-- A core's turn: nothing (with the state it leaves), or an instruction or event to execute. -/
inductive CoreNext where
  | idle (s : State)
  | run (i : Instr) (s : State)

/-- The bytes of a core's crash record (Table 25-6). -/
def crashRecord (c : Core) : List Byte :=
  let lv : Word := (levelCode c.level).zeroExtend 64
  let gs := (List.range 32).map fun i => if c.pend.getLsbD i then 0#64 else c.rg (BitVec.ofNat 5 i)
  let fs := c.f.toList.map (·.val)
  let tags : List Byte := c.f.toList.map fun x => x.tag.zeroExtend 8
  wordsBytes gs ++ wordsBytes fs ++ tags ++ wordsBytes [c.pc, lv] ++
    wordsBytes [c.fcsr, c.sigctl, c.ts.status, c.ts.tvec, c.ts.tpc, c.ts.tcause, c.ts.tval, c.ts.tscr, c.timecmp,
      c.pend.zeroExtend 64] ++ List.replicate 384 0

/-- The core's level at the crash kernel's entry and what it keeps (R393 step 5). -/
def crashEnter (s : State) (p : PartId) : State :=
  let q := s.part p
  let c := CoreId.sy (q.crashk.extractLsb' 8 4)
  if (s.core c).part = some p then
    s.updCore c fun x => { x with
      pc := q.crashk &&& 0x000FFFFFFFFFF000, level := .s, run := .running, fcsr := 0, sigctl := 0, entering := none,
      ts := { x.ts with status := x.ts.status &&& ~~~1#64 } }
  else s

/-- An SY core's record is written or left incomplete: it stops, and after the last record the crash kernel starts (R393). -/
def crashStopped (s : State) (c : CoreId) (p : PartId) : State :=
  let s := s.updCore c fun x => { x with run := .stopped, crashStop := false }
  let left := (List.range 16).any fun i =>
    let x := s.core (.sy (BitVec.ofNat 4 i))
    x.part == some p && x.crashStop
  if left then s else crashEnter s p

/-- An SY core's crash stop at an instruction boundary: its record, for which it waits while a line of it is locked, then the stop
(R99, R393). -/
def crashCore (s : State) (n : BitVec 4) (p : PartId) : State :=
  let c := CoreId.sy n
  let base : Word := ((s.part p).crashd &&& 0x000FFFFFFFFFC000) + BitVec.ofNat 64 (1024 * n.toNat)
  let bs := crashRecord (s.core c)
  match storeBytes s (hubCtx p .s) base bs.length bs with
  | .ok _ s => crashStopped s c p
  | .trap _ _ => crashStopped s c p
  | .wait => s

/-- The crash stop of the core `s.cur`, when one is asked of it (R393); a core that does not run is at an instruction boundary. -/
def crashTurn (s : State) : Option State := match s.cur, s.me.part, s.me.crashStop with
  | .sy n, some p, true => some (crashCore s n p)
  | _, _, _ => none

/-- What the core `s.cur` does in its turn: a crash stop (R393), a stop request (R344), an interrupt, waiting, a debug stop
(R392), or the instruction at pc: an illegal word and a faulting fetch are events of their own (R111, R148). -/
def coreNext (s : State) : CoreNext :=
  let c := s.me
  match c.run with
  | .mwcas _ | .issue _ => .idle s
  | .held | .halted | .stopped => .idle ((crashTurn s).getD s)
  | .running | .waitw _ _ _ | .wfe | .tlbsync =>
    match crashTurn s with
    | some s => .idle s
    | none =>
      if c.stopReq then .idle (s.updMe (coreStop .stopped))
      else if (takenInt s s.cur).isSome then .run (.interruptTake s.cur) s
      else if c.run != .running then .idle s
      else if c.dbgstop && c.level == .u then
        .idle (takeTrap (s.updMe fun c => { c with dbgstop := false }) s.cur .s cDBGSTOP false 0 c.pc)
      else match fetchAt s s.cur with
        | .ok w s => .run ((decodeS w).getD (.illegalWord w)) s
        | .trap cause t => .run (.instructionFetchFault cause t) s
        | .wait => .idle s

/-- Time passes: the fabric clock advances by a free number of cycles (log 2). -/
def tick (s : State) : State :=
  { s with fclock := s.fclock + BitVec.ofNat 64 (Config.elapsed s.fresh), fresh := s.fresh + 1 }

/-- The node word a firing reads from its region's node store. -/
def nodeWordAt (s : State) (n : Site) : Option (BitVec 128) :=
  (s.region n.r).ctl.cfg.bind fun g =>
    (g.nodes.find? fun x => x.row == n.row && x.col == n.col && x.slot == n.slot).map (·.word)

end Sys2Proof.Machine
end

