-- ==== Sys2Proof/Machine/Atomic.lean ====
section
/-!
DEFINITION. Atomics of the cores (R158) and the Crucible: MWCAS (R98 to R103, R159, R160), its lock grants and commits.
-/

namespace Sys2Proof.Machine

open Sys2Proof

/-! ### AMO (R158) -/

/-- Bytes of an atomic. -/
def amoBytes (w : Bool) : Nat := if w then 4 else 8

/-- What g[d] receives of an old value of n bytes. -/
def amoResult (n : Nat) (signed : Bool) (old : Nat) : Word :=
  if n = 4 then (if signed then sext (BitVec.ofNat 32 old) else zext (BitVec.ofNat 32 old)) else BitVec.ofNat 64 old

def ordAcq : Order → Bool | .aq | .ar => true | _ => false
def ordRel : Order → Bool | .rl | .ar => true | _ => false

/-- An atomic of the current core: a read-modify-write at home, with the ordering of its ORD (R158). -/
def amo (s : State) (d a : Reg) (uses : List Reg) (w : Bool) (ord : Order) (signed : Bool)
    (f : Nat → Option Nat) : Out :=
  needRegs s (d :: a :: uses) <|
    let n := amoBytes w
    let va := s.rg a
    if !aligned va n then raise s cMISALIGN va
    else onAccess s ((translate s (coreCtx s) .write va).bind (atomicPlace va)) fun t s1 =>
      if watchHit s.me va n false || watchHit s.me va n true then raise s cWATCH va
      else
        let k : Out :=
          let s1 := if ordRel ord then s1.releaseMe else s1
          onAccess s (rmwAt s1 (coreCtx s) t n va f) fun old s2 =>
            let s2 := if ordAcq ord then s2.acquireMe else s2
            retireG s2 d (amoResult n signed old)
        if ordRel ord then needSync s k else k

/-- The operand of an atomic: the low n bytes of a register. -/
def amoArg (s : State) (w : Bool) (r : Reg) : Nat := (s.rg r).toNat % 2 ^ (8 * amoBytes w)

/-- AMOADD (R158). -/
def execAmoadd (d a b : Reg) (w : Bool) (ord : Order) (s : State) : Out :=
  amo s d a [b] w ord true fun old => some (amoNew (amoBytes w) (· + ·) true (amoArg s w b) old)

/-- AMOSWAP (R158). -/
def execAmoswap (d a b : Reg) (w : Bool) (ord : Order) (s : State) : Out :=
  amo s d a [b] w ord true fun _ => some (amoArg s w b)

/-- AMOMIN, signed or unsigned (R158). -/
def execAmomin (d a b : Reg) (u w : Bool) (ord : Order) (s : State) : Out :=
  amo s d a [b] w ord (!u) fun old => some (amoNew (amoBytes w) min (!u) (amoArg s w b) old)

/-- AMOMAX, signed or unsigned (R158). -/
def execAmomax (d a b : Reg) (u w : Bool) (ord : Order) (s : State) : Out :=
  amo s d a [b] w ord (!u) fun old => some (amoNew (amoBytes w) max (!u) (amoArg s w b) old)

/-- AMOCAS: writes g[b] when the old value equals g[d] (R158). -/
def execAmocas (d a b : Reg) (w : Bool) (ord : Order) (s : State) : Out :=
  amo s d a [b] w ord true fun old => if old = amoArg s w d then some (amoArg s w b) else none

/-- Locks of a slice with the partitions that hold them. -/
def sliceLocks (ms : MemSys) (sl : Nat) : List PartId :=
  (ms.locks.filter (sliceOf ·.1 = sl)).filterMap fun (_, o) => (ms.mwcas.find? (·.1.op = o)).map (·.1.part)

/-- May a partition use an entry of the slice's lock table: its reserved one or one of the 16 shared? -/
def lockRoom (ms : MemSys) (sl : Nat) (p : PartId) : Bool :=
  let ps := sliceLocks ms sl
  let shared := (List.range 16).foldl (fun n i => n + (ps.count (BitVec.ofNat 4 i) - 1)) 0
  ps.count p = 0 || shared < 16

/-- Can the next lock request of a MWCAS be granted, apart from arrival order? Every recall of the line has been answered (R101). -/
def lockable (ms : MemSys) (m : Mwcas) : Bool :=
  match m.want with
  | [] => false
  | l :: _ => !(ms.locks.any (·.1 = l)) && !(ms.recalls.any (·.2.1 = l)) && lockRoom ms (sliceOf l) m.part

/-- An earlier request of the same slice that could be granted goes first; the list keeps arrival order. -/
def lockTurn (ms : MemSys) (m : Mwcas) : Bool :=
  !(ms.mwcas.takeWhile (·.1.op != m.op)).any fun (x, _) =>
    lockable ms x && (x.want.head?.map sliceOf) == (m.want.head?.map sliceOf)

/-! ### Events of a MWCAS -/

def findMw (s : State) (k : Nat) : Option (Mwcas × MwOwner) := s.ms.mwcas.find? (·.1.op = k)

def setMw (s : State) (m : Mwcas) : State :=
  s.updMs fun ms => { ms with mwcas := ms.mwcas.map fun (x, o) => if x.op = m.op then (m, o) else (x, o) }

/-- Releases the locks of a MWCAS on a set of lines. -/
def unlock (ms : MemSys) (op : Nat) (ls : List Nat) : MemSys :=
  { ms with locks := ms.locks.filter fun (l, o) => !(o == op && ls.contains l) }

/-- A lock is granted: every cached copy of a D-line has been recalled and invalidated, its directory entry split down to the
line (R101). -/
def lockLine (m : Mwcas) (line : Nat) (now : Word) (ms : MemSys) : MemSys :=
  let ms := { ms with locks := (line, m.op) :: ms.locks }
  if m.entries.any (fun e => lineOf e.2.1 == line && e.2.2.1 == 0#2) then dirWrite none (line * 128) now ms
  else ms

/-- The VA of an entry of a MWCAS whose word lies over a link that is down (R405; log 65). -/
def mwDead (s : State) (m : Mwcas) (sel : Word × Nat × BitVec 2 × Word × Word → Bool) : Option Word :=
  (m.entries.find? fun e => sel e && overDead s 1 e.2.1).map (·.1)

/-- The compare at the last grant (R100): observed values, and either the slices to commit or the failure header. A word in a
peer's memory is free (log 18). One commit message goes to each slice; of a slice's several locks the last gives its place in the
order of the messages (R103; log 68). -/
def mwCompare (k : Nat) (ms : MemSys) (m : Mwcas) : Mwcas × MemSys :=
  let ms := (m.entries.filter (isPeer ·.2.1)).foldl (fun ms e => peerAsk m.part e.2.1 8 ms) ms
  let ob := m.entries.zipIdx.map fun (e, i) =>
    if isPeer e.2.1 then Config.freeWord (k + i) else BitVec.ofNat 64 (Memory.readLE ms.mem e.2.1 8)
  let bad := (m.entries.zip ob).map fun (e, o) => e.2.2.2.1 != o
  let mask : Nat := (bad.zipIdx.map fun (b, i) => if b then 2 ^ i else 0).sum
  if mask = 0 then
    ({ m with
        observed := ob
        commits := (m.held.map sliceOf).dedup
        result := some (1#64 <<< 63 ||| BitVec.ofNat 64 m.n) }, ms)
  else
    ({ m with observed := ob, held := [], result := some (BitVec.ofNat 64 (mask * 2 ^ 32 + m.n)) },
      unlock ms m.op m.held)

/-- The new values a slice writes on its commit, and the release of its locks (R103). -/
def mwCommitSlice (ms : MemSys) (m : Mwcas) (sl : Nat) : MemSys :=
  let ms := (m.entries.filter fun e => sliceOf (lineOf e.2.1) = sl).foldl
    (fun ms e => homeWrite m.part ms e.2.1 e.2.2.2.2.toNat 8) ms
  unlock ms m.op (m.held.filter (sliceOf · = sl))

/-- Writes words into the block at their places, one after another. A word on a line poisoned since the checks is lost with its
line. -/
def blkWrites (s : State) (x : Ctx) : List ((Nat × BitVec 2) × Word) → MRes Unit
  | [] => .ok () s
  | ((pa, coh), v) :: r => match writeAt s x ⟨pa, coh⟩ v.toNat 8 0 with
    | .ok _ s => blkWrites s x r
    | .trap _ _ => blkWrites s x r
    | .wait => .wait

/-- The block's words to write at the end: EXP fields on failure, then the header (R100). -/
def mwWords (m : Mwcas) (h : Word) : List ((Nat × BitVec 2) × Word) :=
  (if h.getLsbD 63 then []
    else (m.observed.zipIdx.map fun (o, i) => (m.at_.getD (2 + 3 * i) (0, 0), o))) ++ [(m.at_.getD 0 (0, 0), h)]

/-- The agents that a MWCAS acquires and releases for: a core, or a node's cluster with the other clusters of its region, whose
stores on S pages the node sees (R88, R102, R288). -/
def mwAgents (s : State) (m : Mwcas) : MwOwner → List Agent
  | .core c _ => [.coreD c]
  | .node r _ => m.agent :: (clusterMates s r).filter (· != m.agent)

/-- Ends a MWCAS: a core writes g[d] and goes on after acquiring, unless it has been halted meanwhile (R332); a node's access receives
the header. -/
def mwFinish (s : State) (m : Mwcas) (o : MwOwner) (h : Word) : State :=
  let s := s.updMs fun ms => { ms with mwcas := ms.mwcas.filter (·.1.op != m.op) }
  match o with
  | .core c d =>
    let s := { s with ms := acquireS (.coreD c) s.ms }
    let going := (s.core c).run = .mwcas m.op
    let s := s.updCore c fun x => { x.wg d h with run := if going then .running else x.run }
    let x := s.core c
    let s := s.updCore c fun x => { clearSkip x with pc := x.pc + 4 }
    if going && x.level = .u && x.dbgc.getLsbD 0 then takeTrap s c .s cSTEP false 0 (x.pc + 4) else s
  | .node r k =>
    let s := acquireAll s (mwAgents s m o)
    s.updFab r fun f =>
      { f with accs := f.accs.map fun (a : Acc) => if a.id = k then { a with mwcas := none, mwres := some h } else a }

/-- The block's writes and the end of the MWCAS, once every commit has been sent; a locked block line waits (R99). -/
def mwEnd (s : State) (m : Mwcas) (o : MwOwner) : State :=
  match m.result, m.commits with
  | some h, [] =>
    match blkWrites s ⟨some m.part, m.agent, .s, some m.op, false, m.stream, (mwAgents s m o).drop 1, 0⟩ (mwWords m h) with
    | .ok _ s => mwFinish s m o h
    | .trap _ _ | .wait => s
  | _, _ => s

/-- Gives up a MWCAS that has no event: its locks are released unwritten. -/
def mwDrop (s : State) (m : Mwcas) : State :=
  s.updMs fun ms => { ms with locks := ms.locks.filter (·.2 != m.op), mwcas := ms.mwcas.filter (·.1.op != m.op) }

/-- A link goes down under a MWCAS (R405): a core's that has not compared raises LINK_DOWN at the entry whose word lies beyond it, with
nothing written; one that has compared, and a node's, wait for the link (log 65). -/
def mwLinkDown (s : State) (m : Mwcas) (o : MwOwner) : State :=
  match o, m.result, mwDead s m (fun _ => true) with
  | .core c _, none, some va =>
    let s := mwDrop s m
    if (s.core c).run = .mwcas m.op then
      let s := s.updCore c fun x => { clearSkip x with run := .running }
      takeTrap s c (trapLevel cLINK_DOWN (s.core c).level) cLINK_DOWN false va (s.core c).pc
    else s
  | _, _, _ => s

/-- MWCAS: checks precisely, then waits for its locks; it is a release and an acquire at DEVICE scope (R159, R160). -/
def execMwcas (d a : Reg) (s : State) : Out :=
  needRegs s [d, a] <|
    let w (va : Word) (write : Bool) : Bool := watchHit s.me va 8 write
    onAccess s (mwcasCheck s.acquireMe (coreCtx s) (s.me.part.getD 0) w (s.rg a) s.nextOp) fun m s1 =>
      if syncHeld s1 (.coreD s.cur) then .next s
      else .next (mwBegin (s1.releaseMe.updMe fun c => { c with run := .mwcas m.op }) m (.core s.cur d))

/-- CRUCIBLE_LOCK_GRANT: the home slice grants the next line of MWCAS k; the last grant is its event (R99 to R101), and reads no word
over a link that is down. -/
def execCrucibleLockGrant (k : Nat) (s : State) : Out :=
  match findMw s k with
  | none => .next s
  | some (m, o) =>
    match m.want with
    | [] => .next s
    | l :: rest =>
      if rest.isEmpty && (mwDead s m fun _ => true).isSome then .next s
      else if lockable s.ms m && lockTurn s.ms m then
        let ms := lockLine m l s.fclock s.ms
        let m := { m with want := rest, held := m.held ++ [l] }
        let ms := { ms with mwcas := ms.mwcas.filter (·.1.op != k) ++ [(m, o)] }
        if rest.isEmpty then
          let peers := m.entries.any fun e => isPeer e.2.1
          let (m, ms) := mwCompare s.fresh ms m
          let s := setMw { s with ms := ms, fresh := s.fresh + if peers then m.n else 0 } m
          .next (mwEnd s m o)
        else .next { s with ms := ms }
      else .next s

/-- MWCAS_COMMIT: one slice applies its writes, once their links are up (R405; log 65); after the last, the header is written (R103). -/
def execMwcasCommit (k : Nat) (s : State) : Out :=
  match findMw s k with
  | none => .next s
  | some (m, o) =>
    match m.commits with
    | [] => .next (mwEnd s m o)
    | sl :: rest =>
      if (mwDead s m fun e => sliceOf (lineOf e.2.1) == sl).isSome then .next s
      else
      let ms := mwCommitSlice s.ms m sl
      let m := { m with commits := rest, committed := m.committed + 1, held := m.held.filter (sliceOf · != sl) }
      .next (mwEnd (setMw { s with ms := ms } m) m o)

end Sys2Proof.Machine
end

