-- ==== Sys2Proof/Machine/Branch.lean ====
section
/-!
DEFINITION. Branches and jumps (R145 to R147).
-/

namespace Sys2Proof.Machine

open Sys2Proof

/-- A conditional branch: to pc + 4 × sext(off16) when the condition holds, to the next word otherwise (R145). -/
def branch (s : State) (a b : Reg) (off : BitVec 16) (c : Word → Word → Bool) : Out :=
  needRegs s [a, b] <| if c (s.rg a) (s.rg b) then retireTo s (target s.me.pc off) else retire s

/-- BEQ (R145). -/
def execBeq (a b : Reg) (off : BitVec 16) (s : State) : Out := branch s a b off (fun x y => x == y)

/-- BNE (R145). -/
def execBne (a b : Reg) (off : BitVec 16) (s : State) : Out := branch s a b off (fun x y => x != y)

/-- BLT, signed (R145). -/
def execBlt (a b : Reg) (off : BitVec 16) (s : State) : Out := branch s a b off (fun x y => x.slt y)

/-- BGE, signed (R145). -/
def execBge (a b : Reg) (off : BitVec 16) (s : State) : Out := branch s a b off (fun x y => !x.slt y)

/-- BLTU (R145). -/
def execBltu (a b : Reg) (off : BitVec 16) (s : State) : Out := branch s a b off (fun x y => x.ult y)

/-- BGEU (R145). -/
def execBgeu (a b : Reg) (off : BitVec 16) (s : State) : Out := branch s a b off (fun x y => !x.ult y)

/-- JAL: g31 := pc + 4, pc := pc + 4 × sext(off26) (R146). -/
def execJal (off : BitVec 26) (s : State) : Out :=
  needRegs s [31] <| retireTo (s.wg 31 (s.me.pc + 4)) (target s.me.pc off)

/-- JALR: the target comes from g[a] before the link is written; a misaligned target raises MISALIGN (R146). -/
def execJalr (d a : Reg) (imm : BitVec 16) (s : State) : Out :=
  needRegs s [d, a] <|
    let t := effAddr (s.rg a) imm
    if !aligned t 4 then raise s cMISALIGN t else retireTo (s.wg d (s.me.pc + 4)) t

/-- BSIG: branches when the tag held in f is below thr (R147). -/
def execBsig (f : Reg) (thr : BitVec 7) (off : BitVec 14) (s : State) : Out :=
  if (s.rf f).tag.toNat < thr.toNat then retireTo s (target s.me.pc off) else retire s

end Sys2Proof.Machine
end

