-- ==== Sys2Proof/Machine/Float.lean ====
section
/-!
DEFINITION. Floating-point arithmetic of every format (03_numbers.md R43 to R55): decoding to exact values, exact results,
one rounding, exceptions, and the significance rules of Table 3-6.
-/

namespace Sys2Proof.Machine

open Sys2Proof

/-- A floating-point format (Table 3-1): exponent bits, trailing significand bits, bias; `fin` marks E4M3, which has no
infinities (R44). -/
structure FloatFmt where
  eb : Nat
  mb : Nat
  bias : Nat
  fin : Bool
deriving DecidableEq, Repr

def fp64 : FloatFmt := ⟨11, 52, 1023, false⟩
def fp32 : FloatFmt := ⟨8, 23, 127, false⟩
def fp16 : FloatFmt := ⟨5, 10, 15, false⟩
def bf16 : FloatFmt := ⟨8, 7, 127, false⟩
def e4m3 : FloatFmt := ⟨4, 3, 7, true⟩
def e5m2 : FloatFmt := ⟨5, 2, 15, false⟩

/-- Precision p, which counts the implicit bit. -/
def FloatFmt.p (f : FloatFmt) : Nat := f.mb + 1
def FloatFmt.width (f : FloatFmt) : Nat := 1 + f.eb + f.mb
/-- Exponent of the smallest normal. -/
def FloatFmt.emin (f : FloatFmt) : Int := 1 - f.bias
/-- Exponent of the largest finite value. -/
def FloatFmt.emax (f : FloatFmt) : Int := if f.fin then 2 ^ f.eb - 1 - f.bias else 2 ^ f.eb - 2 - f.bias

/-- A value: NaN (signalling or quiet), infinity, or (−1)^neg × m × 2^e with its zero signed. -/
inductive FVal where
  | nan (signalling : Bool)
  | inf (neg : Bool)
  | num (neg : Bool) (m : Nat) (e : Int)
deriving DecidableEq, Repr

/-- The value of an encoding (R43, R44). -/
def decodeF (f : FloatFmt) (bits : Nat) : FVal :=
  let man := bits % 2 ^ f.mb
  let ex := bits / 2 ^ f.mb % 2 ^ f.eb
  let neg := bits / 2 ^ (f.mb + f.eb) % 2 == 1
  if f.fin then
    if ex = 2 ^ f.eb - 1 && man = 2 ^ f.mb - 1 then .nan false
    else if ex = 0 then .num neg man (f.emin - f.mb) else .num neg (man + 2 ^ f.mb) ((ex : Int) - f.bias - f.mb)
  else if ex = 2 ^ f.eb - 1 then
    if man = 0 then .inf neg else .nan (man / 2 ^ (f.mb - 1) == 0)
  else if ex = 0 then .num neg man (f.emin - f.mb)
  else .num neg (man + 2 ^ f.mb) ((ex : Int) - f.bias - f.mb)

/-- The canonical NaN (R45). -/
def canonNaN (f : FloatFmt) : Nat :=
  if f.fin then 2 ^ (f.eb + f.mb) - 1 else (2 ^ f.eb - 1) * 2 ^ f.mb + 2 ^ (f.mb - 1)

def signBit (f : FloatFmt) (neg : Bool) : Nat := if neg then 2 ^ (f.eb + f.mb) else 0
def encInf (f : FloatFmt) (neg : Bool) : Nat := signBit f neg + (2 ^ f.eb - 1) * 2 ^ f.mb
def encZero (f : FloatFmt) (neg : Bool) : Nat := signBit f neg

/-- The encoding of the largest finite magnitude. -/
def encMax (f : FloatFmt) (neg : Bool) : Nat :=
  signBit f neg + (if f.fin then 2 ^ (f.eb + f.mb) - 2 else (2 ^ f.eb - 1) * 2 ^ f.mb - 1)

/-- Whether a magnitude with quotient q, remainder r of d and the sign rounds up (Table 3-4). -/
def roundUp (rm : RMode) (neg : Bool) (q r d : Nat) : Bool :=
  match rm with
  | .rne | .dyn => 2 * r > d || (2 * r = d && q % 2 = 1)
  | .rtz => false
  | .rdn => neg && r != 0
  | .rup => !neg && r != 0
  | .rna => 2 * r ≥ d && r != 0

/-- m × 2^e rounded at weight 2^q: the quotient and whether it is inexact. -/
def roundAt (rm : RMode) (neg : Bool) (m : Nat) (e q : Int) : Nat × Bool :=
  if q ≤ e then (m * 2 ^ (e - q).toNat, false)
  else
    let d := 2 ^ (q - e).toNat
    let r := m % d
    (m / d + (if roundUp rm neg (m / d) r d then 1 else 0), r != 0)

/-- A rounded result: its encoding and the exceptions OF, UF, NX. -/
structure Rounded where
  bits : Nat
  fl : FpFlags
deriving DecidableEq, Repr

/-- Rounds (−1)^neg × m × 2^e once to a format (R50, R51: tininess after rounding; R44: E4M3 saturates). -/
def roundF (f : FloatFmt) (rm : RMode) (neg : Bool) (m : Nat) (e : Int) : Rounded :=
  if m = 0 then ⟨encZero f neg, {}⟩
  else
    let ex : Int := Nat.log2 m + e
    let qn := ex - f.mb
    let q := max qn (f.emin - f.mb)
    let (r, nx) := roundAt rm neg m e q
    let (r', _) := roundAt rm neg m e qn
    let tiny := decide ((Nat.log2 r' : Int) + qn < f.emin)
    let ovf := decide (r ≠ 0) && (decide (f.emax < (Nat.log2 r : Int) + q) ||
      (f.fin && decide ((Nat.log2 r : Int) + q = f.emax) && r == 2 ^ (f.mb + 1) - 1 && q == f.emax - f.mb))
    if ovf then
      let toInf := !f.fin && (match rm with
        | .rne | .rna | .dyn => true | .rtz => false | .rup => !neg | .rdn => neg)
      ⟨if toInf then encInf f neg else encMax f neg, { of := true, nx := true }⟩
    else
      let bits := if r < 2 ^ f.mb then r
        else if r = 2 ^ (f.mb + 1) then (q + f.mb + 1 + f.bias).toNat * 2 ^ f.mb
        else (q + f.mb + f.bias).toNat * 2 ^ f.mb + (r - 2 ^ f.mb)
      ⟨signBit f neg + bits, { uf := tiny && nx, nx := nx }⟩

/-- An exact result before rounding: NaN (with invalid), infinity (with division by zero), or a number whose lowest bit
also stands for what lies below it. -/
inductive Exact where
  | nan (nv : Bool)
  | inf (neg : Bool) (dz : Bool)
  | num (neg : Bool) (m : Nat) (e : Int)
deriving DecidableEq, Repr

/-- Rounds an exact result. -/
def Exact.round (x : Exact) (f : FloatFmt) (rm : RMode) : Rounded :=
  match x with
  | .nan nv => ⟨canonNaN f, { nv := nv }⟩
  | .inf neg dz => ⟨if f.fin then canonNaN f else encInf f neg, { dz := dz }⟩
  | .num neg m e => roundF f rm neg m e

def isSNaN : FVal → Bool | .nan s => s | _ => false
def isNaN : FVal → Bool | .nan _ => true | _ => false

def FVal.negate : FVal → FVal
  | .nan s => .nan s
  | .inf n => .inf !n
  | .num n m e => .num (!n) m e

/-- An exact sum of two numbers; an exact zero sum is −0 in RDN or when both are −0, else +0. -/
def sumNum (rm : RMode) (na : Bool) (ma : Nat) (ea : Int) (nb : Bool) (mb : Nat) (eb : Int) : Exact :=
  let e := min ea eb
  let x : Int := (if na then -1 else 1) * (ma * 2 ^ (ea - e).toNat : Nat)
  let y : Int := (if nb then -1 else 1) * (mb * 2 ^ (eb - e).toNat : Nat)
  let t := x + y
  if t = 0 then .num (if ma = 0 && mb = 0 && na = nb then na else rm == .rdn) 0 0
  else .num (t < 0) t.natAbs e

/-- a + b (IEEE 754-2019). -/
def addF (rm : RMode) : FVal → FVal → Exact
  | .nan s, b => .nan (s || isSNaN b)
  | _, .nan s => .nan s
  | .inf a, .inf b => if a = b then .inf a false else .nan true
  | .inf a, _ => .inf a false
  | _, .inf b => .inf b false
  | .num na ma ea, .num nb mb eb => sumNum rm na ma ea nb mb eb

/-- a × b. -/
def mulF : FVal → FVal → Exact
  | .nan s, b => .nan (s || isSNaN b)
  | _, .nan s => .nan s
  | .inf a, .inf b => .inf (a != b) false
  | .inf a, .num b m _ => if m = 0 then .nan true else .inf (a != b) false
  | .num a m _, .inf b => if m = 0 then .nan true else .inf (a != b) false
  | .num na ma ea, .num nb mb eb => .num (na != nb) (ma * mb) (ea + eb)

/-- a × b + c with no intermediate rounding. -/
def fmaF (rm : RMode) (a b c : FVal) : Exact :=
  let snan := isSNaN a || isSNaN b || isSNaN c
  match mulF a b with
  | .nan nv => .nan (nv || snan)
  | .inf n _ => match c with
    | .nan _ => .nan snan
    | .inf m => if n = m then .inf n false else .nan true
    | .num _ _ _ => .inf n false
  | .num n m e => match c with
    | .nan _ => .nan snan
    | .inf m => .inf m false
    | .num nc mc ec => sumNum rm n m e nc mc ec

/-- a / b: the quotient carries at least `bits` bits, its lowest bit standing for the remainder. -/
def divF (bits : Nat) : FVal → FVal → Exact
  | .nan s, b => .nan (s || isSNaN b)
  | _, .nan s => .nan s
  | .inf _, .inf _ => .nan true
  | .inf a, .num b _ _ => .inf (a != b) false
  | .num a _ _, .inf b => .num (a != b) 0 0
  | .num na ma ea, .num nb mb eb =>
    if mb = 0 then (if ma = 0 then .nan true else .inf (na != nb) true)
    else if ma = 0 then .num (na != nb) 0 0
    else
      let k := bits + Nat.log2 mb + 2
      let n := ma * 2 ^ k
      .num (na != nb) (2 * (n / mb) + (if n % mb = 0 then 0 else 1)) (ea - eb - k - 1)

/-- Integer square root, bit by bit from 2^k down. -/
def isqrt (n : Nat) : Nat → Nat → Nat
  | 0, r => r
  | k + 1, r => isqrt n k (if (r + 2 ^ k) * (r + 2 ^ k) ≤ n then r + 2 ^ k else r)

/-- √a with at least `bits` bits, its lowest bit standing for what is below. -/
def sqrtF (bits : Nat) : FVal → Exact
  | .nan s => .nan s
  | .inf n => if n then .nan true else .inf false false
  | .num n m e =>
    if m = 0 then .num n 0 0
    else if n then .nan true
    else
      let odd : Nat := if e % 2 = 0 then 0 else 1
      let v := m * 2 ^ (odd + 2 * bits)
      let r := isqrt v (Nat.log2 v / 2 + 1) 0
      .num false (2 * r + (if r * r = v then 0 else 1)) ((e - odd) / 2 - bits - 1)

/-- Compares two numbers or infinities: −1, 0 or 1 by value; zeros are equal. -/
def cmpVal : FVal → FVal → Int
  | .inf a, .inf b => if a = b then 0 else if a then -1 else 1
  | .inf a, _ => if a then -1 else 1
  | _, .inf b => if b then 1 else -1
  | .num na ma ea, .num nb mb eb =>
    let e := min ea eb
    let x : Int := (if na then -1 else 1) * (ma * 2 ^ (ea - e).toNat : Nat)
    let y : Int := (if nb then -1 else 1) * (mb * 2 ^ (eb - e).toNat : Nat)
    if x < y then -1 else if x = y then 0 else 1
  | _, _ => 0

def FVal.neg : FVal → Bool
  | .nan _ => false
  | .inf n => n
  | .num n _ _ => n

/-- The order of minimum and maximum: −0 below +0 (R155, R207). -/
def ltTotal (a b : FVal) : Bool := cmpVal a b < 0 || (cmpVal a b == 0 && a.neg && !b.neg)

/-- Rounds to an integral magnitude: its value and whether it changed. -/
def roundInt (rm : RMode) (neg : Bool) (m : Nat) (e : Int) : Nat × Bool := roundAt rm neg m e 0

/-- A conversion to an integer of w bits (R52): the value, NV for NaN and out of range, NX for other inexact results. -/
def toIntF (rm : RMode) (w : Nat) (signed : Bool) : FVal → Int × FpFlags
  | .nan _ => (0, { nv := true })
  | .inf n => (if n then (if signed then -(2 ^ (w - 1)) else 0) else (if signed then 2 ^ (w - 1) - 1 else 2 ^ w - 1), { nv := true })
  | .num n m e =>
    let (q, nx) := roundInt rm n m e
    let v : Int := if n then -(q : Int) else q
    let lo : Int := if signed then -(2 ^ (w - 1)) else 0
    let hi : Int := if signed then 2 ^ (w - 1) - 1 else 2 ^ w - 1
    if v < lo then (lo, { nv := true }) else if hi < v then (hi, { nv := true }) else (v, { nx := nx })

/-! ### Significance (R62, R63) -/

/-- L(x) with its infinities (R62). -/
inductive Lev where | bot | fin (i : Int) | top
deriving DecidableEq, Repr

def Lev.max : Lev → Lev → Lev
  | .top, _ | _, .top => .top
  | .bot, b => b
  | a, .bot => a
  | .fin i, .fin j => .fin (Max.max i j)

/-- E(x) of a nonzero number. -/
def expOf (m : Nat) (e : Int) : Int := Nat.log2 m + e

/-- L(x) of an operand with tag s in a format of precision p. -/
def lowBit (p : Nat) (x : FVal) (s : Nat) : Lev :=
  match x with
  | .num _ m e => if m = 0 then (if s < p then .top else .bot) else .fin (expOf m e - s + 1)
  | _ => .top

def clampTag (i : Int) (p : Nat) : Nat := min i.toNat p

/-- The two steps that follow every row of Table 3-6: 0 for NaN, infinity and a nonzero result that rounds to zero, else
at most pa of the result (R63). -/
def finalTag (f : FloatFmt) (r : FVal) (exactZero : Bool) (s : Nat) : Nat :=
  match r with
  | .num _ m e => if m = 0 then (if exactZero then min s f.p else 0)
      else min s (clampTag (expOf m e - f.emin + f.p) f.p)
  | _ => 0

def isZeroE : Exact → Bool | .num _ m _ => m == 0 | _ => false
def isZeroV : FVal → Bool | .num _ m _ => m == 0 | _ => false

/-- The add rule on the bits L of the two addends, whether both are exact zeros, and the rounded result. -/
def addTag (p : Nat) (l : Lev) (bothExact : Bool) (r : FVal) : Nat :=
  match r with
  | .num _ m e =>
    if m = 0 then (if bothExact then p else 0)
    else match l with
      | .bot => p
      | .top => 0
      | .fin i => clampTag (expOf m e - i + 1) p
  | _ => 0

def exactZeroOp (p : Nat) (x : FVal) (s : Nat) : Bool := isZeroV x && p ≤ s

/-- Tag of a sum or difference. -/
def sumTag (f : FloatFmt) (a b : FVal) (sa sb : Nat) (x : Exact) (r : FVal) : Nat :=
  finalTag f r (isZeroE x)
    (addTag f.p ((lowBit f.p a sa).max (lowBit f.p b sb)) (exactZeroOp f.p a sa && exactZeroOp f.p b sb) r)

/-- Tag of a product or quotient: min(s(a), s(b), p); an exact-zero factor or dividend gives an exact zero. -/
def prodTag (f : FloatFmt) (a b : FVal) (sa sb : Nat) (div : Bool) (x : Exact) (r : FVal) : Nat :=
  let ez := exactZeroOp f.p a sa || (!div && exactZeroOp f.p b sb)
  finalTag f r (isZeroE x) (if ez && isZeroV r then f.p else min (min sa sb) f.p)

/-- Tag of a fused multiply-add: the product's tag is min(s(a), s(b)), then the add rule. -/
def fmaTag (f : FloatFmt) (a b c : FVal) (sa sb sc : Nat) (x : Exact) (r : FVal) : Nat :=
  let ez := exactZeroOp f.p a sa || exactZeroOp f.p b sb
  let lt : Lev := match mulF a b with
    | .num _ m e => if m = 0 then (if ez then .bot else .top) else .fin (expOf m e - (min sa sb : Nat) + 1)
    | _ => .top
  finalTag f r (isZeroE x) (addTag f.p (lt.max (lowBit f.p c sc)) (ez && exactZeroOp f.p c sc) r)

/-- Tag of a square root. -/
def sqrtTag (f : FloatFmt) (a : FVal) (sa : Nat) (r : FVal) : Nat :=
  if isZeroV a then (if f.p ≤ sa then f.p else 0) else finalTag f r false (min f.p (sa + 1))

/-- Tag of a conversion between floating-point formats (Table 3-6, R218). -/
def cvtTag (src dst : FloatFmt) (s : Nat) (exactZero : Bool) (r : FVal) : Nat :=
  finalTag dst r exactZero (if dst.p < src.p then min s dst.p else s)

/-- Tag of a delivered operand (min, max, copy). -/
def copyTag (s : Nat) (r : FVal) : Nat := match r with | .nan _ => 0 | _ => s

end Sys2Proof.Machine
end

