-- ==== Sys2Proof/Machine/Tokens.lean ====
section
/-!
DEFINITION. How tokens move: hops and deliveries (R20, R35, R347), the matching store and its spill (R36), comparators
(R380, R381), parking and unparking (R333, R339), contexts and their return (R30).
-/

namespace Sys2Proof.Machine

open Sys2Proof

/-! ### Tiles -/

/-- Tile rows and columns of a region's configuration (its declared shape, R26). -/
def Cfg.rows (g : Cfg) : Nat := 3 * g.crows
def Cfg.cols (g : Cfg) : Nat := 3 * g.ccols

/-- The centre tile of each cluster is its memory tile (R17). -/
def isMt (row col : Nat) : Bool := row % 3 == 1 && col % 3 == 1

/-- Matching-store entries of a tile (Tables 1-1 and 1-2). -/
def msEntries (row col : Nat) : Nat := if isMt row col then 512 else 1024

/-- A tile of a region in die coordinates. -/
def dieTile (c : RegionCtl) (row : BitVec 5) (col : BitVec 6) : BitVec 5 × BitVec 6 :=
  (BitVec.ofNat 5 (3 * c.orow + row.toNat), BitVec.ofNat 6 (3 * c.ocol + col.toNat))

/-- error(c): KIND ERROR, SIG 0, PRED 0, zero scale lane, payload c (R203). -/
def errorPayload (c : BitVec 8) : BitVec 512 := c.zeroExtend 512

/-- A token replaced by error(c), its tag kept. -/
def Token.toError (t : Token) (c : BitVec 8) : Token :=
  { t with kind := 6, sig := 0, pred := false, scale := 0, payload := errorPayload c }

/-- Lane width of a format; reserved formats read as 512 (Table 3-3). -/
def laneWidth (fmt : BitVec 5) : Nat :=
  match fmt.toNat with
  | 1 | 5 | 0xD | 0xE | 0xF => 8
  | 2 | 6 | 0xB | 0xC => 16
  | 3 | 7 | 0xA | 0x12 | 0x13 => 32
  | 4 | 8 | 9 => 64
  | 0x10 => 4
  | 0x11 => 1
  | _ => 512

/-! ### Region facts -/

def State.fab (s : State) (r : RegionId) : Fabric := (s.region r).fab
def State.ctl (s : State) (r : RegionId) : RegionCtl := (s.region r).ctl
def State.dbg (s : State) (r : RegionId) : RegionDbg := (s.region r).dbg

/-- Tokens move and nodes fire: RUNNING, not being killed (R38), its final store not held (R410), not in a precise stop (R382),
awake (R375). -/
def regionGoing (s : State) (r : RegionId) : Bool :=
  (s.ctl r).st == .running && (s.ctl r).killing.isNone && (s.ctl r).heldStore.isNone && (s.dbg r).stop == .going &&
    (s.ctl r).power == 0

def isDead (f : Fabric) (ctx : BitVec 12) (iter : BitVec 16) : Bool := f.dead.contains (ctx, iter)

/-- The hang interval starts again, and the region is not idle (R345, R374). -/
def touch (s : State) (r : RegionId) : State :=
  s.updCtl r fun c => { c with lastFire := s.fclock, idleSince := none, quietAt := none }

/-- Adds to a saturating Marigold counter (R388). -/
def mgAdd (s : State) (r : RegionId) (row : BitVec 5) (col slot : BitVec 6) (ctr : BitVec 5) : State :=
  s.updDbg r fun d =>
    let here (e : BitVec 5 × BitVec 6 × BitVec 6 × BitVec 5 × BitVec 32) : Bool :=
      e.1 == row && e.2.1 == col && e.2.2.1 == slot && e.2.2.2.1 == ctr
    if d.mg.any here then
      { d with mg := d.mg.map fun e =>
          if here e && e.2.2.2.2 != 0xFFFFFFFF#32 then (e.1, e.2.1, e.2.2.1, e.2.2.2.1, e.2.2.2.2 + 1) else e }
    else { d with mg := (row, col, slot, ctr, 1) :: d.mg }

/-- The state a node holds, empty at first. -/
def nodeSt (f : Fabric) (row : BitVec 5) (col slot : BitVec 6) : NodeSt :=
  (f.nodes.find? fun x => x.row == row && x.col == col && x.slot == slot).getD
    ⟨row, col, slot, [], 0, 0, 0, [], [], none, [], none, [], 0, false, [], [], none, none⟩

def setNodeSt (f : Fabric) (x : NodeSt) : Fabric :=
  { f with nodes := x :: f.nodes.filter fun y => !(y.row == x.row && y.col == x.col && y.slot == x.slot) }

def State.updNode (s : State) (n : Site) (k : NodeSt → NodeSt) : State :=
  s.updFab n.r fun f => setNodeSt f (k (nodeSt f n.row n.col n.slot))

def State.node (s : State) (n : Site) : NodeSt := nodeSt (s.fab n.r) n.row n.col n.slot

/-- The fields of a node word. -/
def fieldsAt (s : State) (r : RegionId) (row : BitVec 5) (col slot : BitVec 6) : Option (BitVec 8 × NodeFields) :=
  (nodeWordAt s ⟨r, row, col, slot, 0, 0⟩).map fun w => (w.extractLsb' 0 8, nodeFields w)

/-! ### Ports of memory tiles (R266, R270) -/

/-- The AGEN node of a port of a tile (R266). -/
def agenAt (s : State) (r : RegionId) (row : BitVec 5) (col : BitVec 6) (port : BitVec 2) : Option (BitVec 6 × NodeFields) :=
  (s.ctl r).cfg.bind fun g => (g.nodes.find? fun x => x.row == row && x.col == col &&
    x.word.extractLsb' 0 8 == 0x70#8 && (nodeFields x.word).imm.extractLsb' 0 2 == port).map fun x => (x.slot, nodeFields x.word)

/-- The shape record an AGEN holds now: the image's, as its parameters have changed it (R273). -/
def shapeAt (s : State) (r : RegionId) (row : BitVec 5) (col slot : BitVec 6) : Option ShapeRec :=
  match (nodeSt (s.fab r) row col slot).shape with
  | some h => some h
  | none => (s.ctl r).cfg.bind fun g =>
      (g.shapes.find? fun x => x.row == row && x.col == col && x.slot == slot).map (·.shape)

def portShape (s : State) (r : RegionId) (row : BitVec 5) (col : BitVec 6) (port : BitVec 2) : Option ShapeRec :=
  (agenAt s r row col port).bind fun (slot, _) => shapeAt s r row col slot

/-- Index lanes that an LDX or STX uses, with the data lane of each (R279). -/
def gatherLanes (n : NodeFields) (lanes : Nat) : List (Nat × Nat) :=
  let j := (n.imm.extractLsb' 2 3).toNat
  if 16 ≤ lanes then (List.range 16).map fun k => (k, 16 * j + k) else (List.range 8).map fun k => (8 * j + k, k)

/-- The address of a gather or scatter's first lane, none when that lane is skipped (R279). -/
def gatherAddr (n : NodeFields) (h : ShapeRec) (lanes : Nat) (a : Token) : Option Word :=
  let x := a.lane 32 ((gatherLanes n lanes).headD (0, 0)).1
  if x = 0xFFFFFFFF || h.e0.toNat ≤ x then none else some (h.base + BitVec.ofNat 64 x * h.s0)

/-- Lane 0 of a completion that stands for an access not made (R286): the address it would have had; of a gather or scatter that
of its first lane, free when that lane is skipped (R278; log 24). -/
def cmplAddr (s : State) (r : RegionId) (row : BitVec 5) (col : BitVec 6) (opc : BitVec 8) (n : NodeFields) (lanes : Nat)
    (a : Token) : Word :=
  if opc == 0x73 || opc == 0x74 then
    ((portShape s r row col (n.imm.extractLsb' 0 2)).bind fun h => gatherAddr n h lanes a).getD
      (BitVec.ofNat 64 (Config.runValue (s.fab r).seed (64 * row.toNat + col.toNat) a.tag.toNat))
  else a.payload.extractLsb' 0 64

/-- A completion token (R278): KIND DONE, FMT U64. -/
def cmplTok (t : Token) (addr : Word) : Token :=
  { t with kind := 4, fmt := 8, sig := 0, pred := true, scale := 0, payload := addr.zeroExtend 512 }

/-! ### Done tokens at a LOOP HEAD (R252) -/

/-- The LID that a token counts for as done: it is for port c of a LOOP HEAD. -/
def doneLid (s : State) (r : RegionId) (t : Token) : Option (BitVec 6) :=
  if t.port == 2 then (fieldsAt s r t.drow t.dcol t.node).bind fun (opc, n) =>
    if opc == 0x53 && n.var == 1 then some (n.imm.extractLsb' 0 6) else none
  else none

/-- Counts a done token (R252); one whose context no entry of the loop holds records FLOW_STATE (R243). -/
def absorbDone (s : State) (r : RegionId) (lid : BitVec 6) (t : Token) : State :=
  if (s.fab r).bindings.any fun b => b.ctx == t.ctx && b.lid == some lid then
    s.updFab r fun f => { f with bindings := f.bindings.map fun b =>
      if b.ctx == t.ctx && b.lid == some lid then { b with done := b.done + 1 } else b }
  else
    let nb : BitVec 24 := match fieldsAt s r t.drow t.dcol t.node with | some (opc, n) => nodeBits opc n | none => 0
    noteFault s ⟨r, t.drow, t.dcol, t.node, t.ctx, t.iter⟩ cFLOW_STATE { node := nb, seq := t.seq, ops := [t] }

/-! ### The matching store and the park area -/

/-- The kind of a node's port: token, immediate, sticky or unused; p is a token port with PRD (R113, Table 6-10). -/
def portKind (nf : NodeFields) (i : BitVec 2) : BitVec 2 :=
  match i.toNat with
  | 0 => nf.ka | 1 => nf.kb | 2 => nf.kc
  | _ => if nf.flags.getLsbD 1 then 0 else 3

/-- The token ports of a node in order a, b, c, p. -/
def tokPorts (nf : NodeFields) : List (BitVec 2) := [0, 1, 2, 3].filter fun i => portKind nf i == 0

/-- Does a token that arrives find its partner on every other token port of its node (R35, R36)? -/
def partnered (s : State) (r : RegionId) (t : Token) : Bool :=
  match fieldsAt s r t.drow t.dcol t.node with
  | none => false
  | some (_, n) =>
    let queued (i : BitVec 2) : Nat := (s.fab r).waiting.countP fun w => w.tok.drow == t.drow && w.tok.dcol == t.dcol &&
      w.tok.node == t.node && w.tok.port == i && w.tok.ctx == t.ctx && w.tok.iter == t.iter
    (tokPorts n).all fun i => i == t.port || queued t.port < queued i

/-- A token reaches its node's tile: counted when it is a done token, else into the matching store, or spilled to the Sprue area when that is full; a full part
freezes the region and leaves the token where it was (R36). A token that completes a firing needs no entry: at a full store
one such token stands (log 31). -/
def storeTok (s : State) (r : RegionId) (t : Token) (at_ : Word) (flips : BitVec 664) : Option State :=
  match doneLid s r t with
  | some lid => some (absorbDone s r lid t)
  | none =>
  let f := s.fab r
  let inMs := f.waiting.countP fun w => !w.spilled && w.tok.drow == t.drow && w.tok.dcol == t.dcol
  let cap := msEntries t.drow.toNat t.dcol.toNat
  if inMs < cap || (inMs == cap && partnered s r t) then
    some (s.updFab r fun f => { f with waiting := f.waiting ++ [⟨false, at_, flips, t⟩] })
  else if sprueCap (s.ctl r) ≤ sprueUsed f t.drow t.dcol then none
  else
    let s := s.updFab r fun f => { f with waiting := f.waiting ++ [⟨true, at_, flips, t⟩] }
    some (mgAdd s r t.drow t.dcol t.node 16)

/-- Withdraws a token to the park area (R333), which shares the Sprue part of its destination tile; one bound beyond the shape
has a part of its own there (log 63). -/
def parkTok (s : State) (r : RegionId) (debug : Bool) (dest : Option Dest) (t : Token) (flips : BitVec 664) : Option State :=
  if sprueCap (s.ctl r) ≤ sprueUsed (s.fab r) t.drow t.dcol then none
  else some (s.updFab r fun f => { f with parkArea := f.parkArea ++ [⟨debug, s.fclock, flips, dest, t⟩] })

/-- The park table of an activation: is every record of it a comparator's? -/
def debugOnly (f : Fabric) (ctx : BitVec 12) (iter : BitVec 16) : Bool :=
  (f.parkTab.filter fun p => p.ctx == ctx && p.iter == iter).all (·.debug)

/-! ### Comparators (R380, R381) -/

/-- Does comparator i of a region match a token delivered to its node? -/
def cmpMatches (d : RegionDbg) (t : Token) (i : Fin 16) : Bool :=
  let m := d.fgmatch[i]
  let w := d.fgwhere[i]
  let itlo := m.extractLsb' 16 16
  let ithi := m.extractLsb' 0 16
  w.getLsbD 63 && (t.ctx ^^^ m.extractLsb' 52 12) &&& m.extractLsb' 40 12 == 0#12 &&
    (t.iter - itlo).toNat ≤ (ithi - itlo).toNat &&
    (w.getLsbD 60 || t.kind == w.extractLsb' 57 3) &&
    (w.getLsbD 56 || (t.drow == w.extractLsb' 16 5 && t.dcol == w.extractLsb' 10 6 && t.node == w.extractLsb' 0 6))

/-- Begins a precise stop of a RUNNING region (R382). -/
def beginStop (s : State) (r : RegionId) : State :=
  if (s.ctl r).st = .running ∧ (s.dbg r).stop = .going then s.updDbg r fun d => { d with stop := .stopping } else s

/-- The trace record of comparator i's match. -/
def cmpTrace (s : State) (r : RegionId) (t : Token) (i : Nat) : State :=
  trace s r t.ctx t.iter t.drow t.dcol t.node 2 (BitVec.ofNat 8 i) (some t)

/-- Parks an activation for a comparator (R381): no PFQ entry. Its record describes the operand on port a of the node that the
token reached (Table 25-5). -/
def debugPark (s : State) (r : RegionId) (t : Token) : State :=
  let a : Option Token := if t.port == 0 then some t
    else ((s.fab r).waiting.find? fun w => w.tok.drow == t.drow && w.tok.dcol == t.dcol && w.tok.node == t.node &&
      w.tok.port == 0 && w.tok.ctx == t.ctx && w.tok.iter == t.iter).map (·.tok)
  let s := s.updFab r fun f =>
    { f with parkTab := f.parkTab ++ [⟨t.ctx, t.iter, true, 0, t.drow, t.dcol, t.node, 0, none, 0, [], []⟩] }
  trace s r t.ctx t.iter t.drow t.dcol t.node 4 0 a

/-- What matching comparator i does; the flag tells whether a comparator has parked the activation of this token. With a full
park table a park traces instead (R381). -/
def cmpAct (r : RegionId) (t : Token) (x : State × Bool) (i : Fin 16) : State × Bool :=
  let (s, parked) := x
  match ((s.dbg r).fgwhere[i].extractLsb' 61 2).toNat with
  | 0 => (cmpTrace s r t i.val, parked)
  | 1 =>
    if parked then x
    else if isParked (s.fab r) t.ctx t.iter || parkCount (s.fab r) < 256 then (debugPark s r t, true)
    else (cmpTrace s r t i.val, false)
  | 2 => (beginStop s r, parked)
  | _ => x

/-- Delivers a token to its destination node, which is not parked or dead: comparators act in increasing number, then it is
stored (R35, R381). `none` when a full Sprue part must freeze the region. -/
def deliverTok (s : State) (r : RegionId) (t : Token) (flips : BitVec 664) : Option State :=
  let (s', parks) := ((List.finRange 16).filter (cmpMatches (s.dbg r) t)).foldl (cmpAct r t) (s, false)
  if parks then parkTok s' r true none t flips else storeTok s' r t s.fclock flips

/-- A token of a dead activation is discarded on arrival, one of a parked activation goes to the park area, any other is
delivered (R333, R339). -/
def arriveTok (s : State) (r : RegionId) (t : Token) (flips : BitVec 664) : Option State :=
  let f := s.fab r
  if isDead f t.ctx t.iter then some s
  else if isParked f t.ctx t.iter then parkTok s r (debugOnly f t.ctx t.iter) none t flips
  else deliverTok s r t flips

/-- The edge port at a target one step outside the shape (R117): side and index. -/
def edgePort (g : Cfg) (d : Dest) : Option (BitVec 2 × BitVec 8) :=
  if d.row < 0 then some (0, BitVec.ofInt 8 d.col)
  else if (g.cols : Int) ≤ d.col then some (1, BitVec.ofInt 8 d.row)
  else if (g.rows : Int) ≤ d.row then some (2, BitVec.ofInt 8 d.col)
  else if d.col < 0 then some (3, BitVec.ofInt 8 d.row)
  else none

/-! ### Parity checks (R21, R347) -/

/-- TOKPARITY (R347): the tile that found it joins the bad-tile list, an entry is written; with the tag lost it is 0, else it
names the activation and the node the token was for, whose operand the error now is (log 64). -/
def parityFault (s : State) (r : RegionId) (row : BitVec 5) (col : BitVec 6) (t : Option Token) : State :=
  let bad := dieTile (s.ctl r) row col
  let s := s.updDie (dieOfRegion r) fun d =>
    { d with badTiles := if d.badTiles.contains bad then d.badTiles else d.badTiles ++ [bad], round := true }
  let tag := (t.map fun t => tagWord t.ctx t.iter t.drow t.dcol t.node 0 t.seq).getD 0
  let i : FaultInfo := match t with
    | none => {}
    | some t =>
      { node := ((fieldsAt s r t.drow t.dcol t.node).map fun x => nodeBits x.1 x.2).getD 0, seq := t.seq, ops := [t.toError cTOKPARITY] }
  (recordFault s (s.ctl r).part r cTOKPARITY tag false false false (faultRest tag i)).2

/-- What the parity check makes of a token with no further copy at the tile that receives it, and the state. -/
def lastCheck (s : State) (r : RegionId) (row : BitVec 5) (col : BitVec 6) (t : Token) (flips : BitVec 664) : Option Token × State :=
  match checkOf t flips with
  | .pass t => (some t, s)
  | .tagged t => (some (t.toError cTOKPARITY), parityFault s r row col (some t))
  | .lost => (none, parityFault s r row col none)

/-- The parity check of a token sent over a stream: a failure has it sent once more (R347). -/
def checkParity (s : State) (r : RegionId) (row : BitVec 5) (col : BitVec 6) (t : Token) (par : Flips) : Option Token × State :=
  match checkOf t par.first with
  | .pass t => (some t, s)
  | .tagged _ | .lost => lastCheck s r row col t par.second

/-- The tile at the inner side of an edge port (R117). -/
def edgeTile (g : Cfg) (side : BitVec 2) (idx : Nat) : BitVec 5 × BitVec 6 :=
  match side.toNat with
  | 0 => (0, BitVec.ofNat 6 idx)
  | 1 => (BitVec.ofNat 5 idx, BitVec.ofNat 6 (g.cols - 1))
  | 2 => (BitVec.ofNat 5 (g.rows - 1), BitVec.ofNat 6 idx)
  | _ => (BitVec.ofNat 5 idx, 0)

/-! ### Unparking (R333 step 4, R339) -/

/-- A parked token that goes on to its destination, keeping its arrival time and not tested again by a comparator; its parity is
checked as it leaves the Sprue area (R333 step 4, R347, R380). -/
def restoreTok (s : State) (r : RegionId) (p : ParkTok) : State :=
  if isDead (s.fab r) p.tok.ctx p.tok.iter then s
  else match p.dest.bind fun d => (s.ctl r).cfg.bind fun g => (edgePort g d).map fun e => (g, e) with
  | some (g, side, idx) =>
    let (row, col) := edgeTile g side idx.toNat
    let (t, s) := lastCheck s r row col p.tok p.flips
    s.updFab r fun f => { f with edge := f.edge ++ (t.toList.map fun t => ⟨side, idx, 0, t⟩) }
  | none => match lastCheck s r p.tok.drow p.tok.dcol p.tok p.flips with
    | (some t, s) => match storeTok s r t p.at_ 0 with
      | some s => s
      | none => freeze s r cSPRUE_FULL 0
    | (none, s) => s

/-- Unparks an activation that no record names any more: its parked tokens are delivered in the order they parked. -/
def unpark (s : State) (r : RegionId) (ctx : BitVec 12) (iter : BitVec 16) : State :=
  if isParked (s.fab r) ctx iter then s
  else
    let mine (p : ParkTok) : Bool := p.tok.ctx == ctx && p.tok.iter == iter
    let toks := (s.fab r).parkArea.filter mine
    let s := s.updFab r fun f => { f with parkArea := f.parkArea.filter fun p => !mine p }
    let s := toks.foldl (fun s p => restoreTok s r p) s
    let s := touch s r
    trace s r ctx iter 0 0 0 5 0 none

/-- Puts the operands of a firing back at the head of their queues: the firing is ready at once. -/
def readyAgain (s : State) (r : RegionId) (ops : List WaitTok) : State :=
  s.updFab r fun f => { f with waiting := ops ++ f.waiting }

/-- How a fault of an activation is resolved (R200). -/
inductive Resolve where
  | retry
  | supply (t : Token)
  | kill

/-- The target of a route word from a tile (R116). -/
def routeDest (w : BitVec 32) (row : BitVec 5) (col : BitVec 6) : Dest :=
  ⟨(row.toNat : Int) + (w.extractLsb' 18 6).toInt, (col.toNat : Int) + (w.extractLsb' 24 7).toInt⟩

/-- The parent frame that LEXIT and RET return to: the binding of a context (R250). -/
def parentOf (f : Fabric) (ctx : BitVec 12) : BitVec 12 × BitVec 16 :=
  match f.bindings.find? (·.ctx == ctx) with
  | some b => (b.pctx, b.piter)
  | none => (0, 0)

/-- A token as a route word sends it: destination fields from the route, the tag by TAGOP (R116, R120). -/
def routeTok (f : Fabric) (w : BitVec 32) (row : BitVec 5) (col : BitVec 6) (t : Token) : Token :=
  let d := routeDest w row col
  let t := { t with drow := BitVec.ofInt 5 d.row, dcol := BitVec.ofInt 6 d.col, node := w.extractLsb' 12 6,
                    port := w.extractLsb' 10 2 }
  match (w.extractLsb' 8 2).toNat with
  | 1 => { t with iter := t.iter + 1 }
  | 2 => { t with ctx := (parentOf f t.ctx).1, iter := (parentOf f t.ctx).2 }
  | _ => t

/-- The departures of a result: one on each enabled route that carries a token (R34). -/
def departures (f : Fabric) (n : NodeFields) (row : BitVec 5) (col : BitVec 6) (t0 t1 : Option Token) : List Dep :=
  let one (route : Bool) (w : BitVec 32) (t : Option Token) : List Dep :=
    if w.getLsbD 31 then t.toList.map fun t => ⟨route, routeDest w row col, routeTok f w row col t⟩ else []
  one false n.route0 t0 ++ one true n.route1 t1

/-- Tokens that a SUPPLY puts in the place of a node's results: for a memory node the data result and, with CMPL, the
completion (R286). -/
def supplyPair (s : State) (r : RegionId) (rec : ParkRec) (opc : BitVec 8) (n : NodeFields) (lanes : Nat) (t : Token) :
    Option Token × Option Token :=
  if 0x71 ≤ opc.toNat && opc.toNat ≤ 0x77 then
    let a := (rec.args.find? (·.port == 0)).getD t
    let c := if n.flags.getLsbD 3 then
        some { cmplTok t (cmplAddr s r rec.row rec.col opc n lanes a) with ctx := rec.ctx, iter := rec.iter, seq := t.seq }
      else none
    if opc == 0x72 || opc == 0x74 || opc == 0x77 then (none, c)
    else (some t, if opc == 0x71 && n.var == 1 then some t else c)
  else (some t, some t)

/-- Ends the fault records of an activation by resolving the record `rec` (R339): the activation unparks unless a
comparator still parks it; its own record and the tokens it has withdrawn then stay, also of an activation now dead (R381). -/
def resolveAct (s : State) (r : RegionId) (rec : ParkRec) (how : Resolve) : State :=
  let mine (p : ParkRec) : Bool := p.ctx == rec.ctx && p.iter == rec.iter
  let recs := (s.fab r).parkTab.filter fun p => mine p && !p.debug
  if recs.isEmpty then s
  else
    let others := (recs.filter (· != rec)).flatMap (·.ops)
    let s := s.updFab r fun f => { f with parkTab := f.parkTab.filter fun p => !(mine p && !p.debug) }
    match how with
    | .kill =>
      let s := s.updFab r fun f => { f with
        parkArea := f.parkArea.filter fun p => p.debug || !(p.tok.ctx == rec.ctx && p.tok.iter == rec.iter)
        dead := (rec.ctx, rec.iter) :: f.dead
        nodes := f.nodes.map fun x =>
          { x with pend := x.pend.filter fun ds => (ds.head?.map fun d => (d.tok.ctx, d.tok.iter)) != some (rec.ctx, rec.iter) } }
      unpark s r rec.ctx rec.iter
    | .retry => unpark (readyAgain (readyAgain s r others) r rec.ops) r rec.ctx rec.iter
    | .supply t =>
      let s := readyAgain s r others
      let s := match fieldsAt s r rec.row rec.col rec.slot with
        | some (opc, n) =>
          let t := { t with ctx := rec.ctx, iter := rec.iter, seq := (rec.ops.head?.map (·.tok.seq)).getD 0 }
          let p := supplyPair s r rec opc n (512 / laneWidth n.fmt) t
          let ds := departures (s.fab r) n rec.row rec.col p.1 p.2
          s.updFab r fun f =>
            let x := nodeSt f rec.row rec.col rec.slot
            if ds.isEmpty then f else setNodeSt f { x with pend := x.pend ++ [ds] }
        | none => s
      unpark s r rec.ctx rec.iter

/-! ### Hops and deliveries (R20, R347) -/

/-- The next tile on the path of R20, and the link input queue it is reached by: along the row first. -/
def nextHop (row col : Int) (d : Dest) : Option (Int × Int × Dir) :=
  if col < d.col then some (row, col + 1, .w)
  else if d.col < col then some (row, col - 1, .e)
  else if row < d.row then some (row + 1, col, .n)
  else if d.row < row then some (row - 1, col, .s)
  else none

/-- The earliest departure of a node on a route: an entry delayed, or reserved with results that depart in order, holds what
follows it. -/
def outHead (s : State) (r : RegionId) (row : BitVec 5) (col slot : BitVec 6) (route : Bool) : Option (Nat × Dep) :=
  match (s.fab r).outq.find? fun e => e.row == row && e.col == col && e.slot == slot &&
      ((e.reserved && e.block.getLsbD (if route then 1 else 0)) || e.deps.any fun d => d.route == route) with
  | some e => if e.after != 0 then none
      else (e.deps.find? fun d => d.route == route).map fun d => (e.id, d)
  | none => none

/-- Entries of a node's output queue. -/
def outCount (f : Fabric) (row : BitVec 5) (col slot : BitVec 6) : Nat :=
  f.outq.countP fun e => e.row == row && e.col == col && e.slot == slot

/-- The token at a source with its target and where it stands. -/
def tokAt (s : State) (r : RegionId) : TokSrc → Option (Token × Dest × BitVec 5 × BitVec 6)
  | .out row col slot route => (outHead s r row col slot route).map fun (_, d) => (d.tok, d.dest, row, col)
  | .link row col dir => ((s.fab r).links.find? fun l => l.row == row && l.col == col && l.dir == dir).map fun l =>
      (l.tok, l.dest, row, col)

/-- Removes the first element that satisfies a test. -/
def eraseFirst {α : Type} (p : α → Bool) : List α → List α
  | [] => []
  | a :: l => if p a then l else a :: eraseFirst p l

/-- Replaces a region's output queue and notes when room appeared in that of a node (R36). -/
def setOutq (s : State) (r : RegionId) (row : BitVec 5) (col slot : BitVec 6) (q : List OutEntry) : State :=
  let full := 4 ≤ outCount (s.fab r) row col slot
  let s := s.updFab r fun f => { f with outq := q }
  if full && outCount (s.fab r) row col slot < 4 then
    s.updNode ⟨r, row, col, slot, 0, 0⟩ fun y => { y with roomAt := s.fclock }
  else s

/-- Takes the operand on port a of a node for an activation (R257, R259). -/
def takeInput (s : State) (r : RegionId) (row : BitVec 5) (col slot : BitVec 6) (act : BitVec 12 × BitVec 16) : State :=
  s.updFab r fun f => { f with waiting := eraseFirst (fun w => w.tok.drow == row && w.tok.dcol == col && w.tok.node == slot &&
    w.tok.port == 0 && w.tok.ctx == act.1 && w.tok.iter == act.2) f.waiting }

/-- Removes the token at a source; an output entry frees when it has departed on all its routes, and takes the input that stayed in
place for it. -/
def removeTok (s : State) (r : RegionId) : TokSrc → State
  | .out row col slot route =>
    match outHead s r row col slot route with
    | none => s
    | some (id, _) =>
      let q := (s.fab r).outq.map fun e =>
        if e.id = id then { e with deps := eraseFirst (fun d => d.route == route) e.deps } else e
      let gone (e : OutEntry) : Bool := e.id == id && !e.reserved && e.deps.isEmpty
      let s := setOutq s r row col slot (q.filter (!gone ·))
      match (q.find? gone).bind (·.input) with
      | some act => takeInput s r row col slot act
      | none => s
  | .link row col dir => s.updFab r fun f =>
      { f with links := eraseFirst (fun l => l.row == row && l.col == col && l.dir == dir) f.links }

/-- The check of a stored token that leaves for a firing: the token as it is then, or none (R347). -/
def scrubHead (s : State) (n : Site) (i : BitVec 2) : State :=
  let here (w : WaitTok) : Bool := w.tok.drow == n.row && w.tok.dcol == n.col && w.tok.node == n.slot && w.tok.port == i &&
    w.tok.ctx == n.ctx && w.tok.iter == n.iter
  match (s.fab n.r).waiting.find? here with
  | none => s
  | some w =>
    if w.flips = 0 then s
    else
      let (t, s) := lastCheck s n.r n.row n.col w.tok w.flips
      s.updFab n.r fun f => { f with waiting := match t with
        | some t => f.waiting.modify (f.waiting.findIdx here) fun w => { w with tok := t, flips := 0 }
        | none => eraseFirst here f.waiting }

/-- Tokens in a link input queue. -/
def linkCount (f : Fabric) (row : BitVec 5) (col : BitVec 6) (dir : Dir) : Nat :=
  f.links.countP fun l => l.row == row && l.col == col && l.dir == dir

/-- Is a tile inside the configuration's shape? -/
def insideCfg (s : State) (r : RegionId) (row col : Int) : Bool :=
  match (s.ctl r).cfg with
  | some g => 0 ≤ row && row < g.rows && 0 ≤ col && col < g.cols
  | none => false

/-- Has the stream into a tile from a direction carried a token in this fc: one each fc (R20)? -/
def streamUsed (s : State) (r : RegionId) (row : BitVec 5) (col : BitVec 6) (dir : Dir) : Bool :=
  (s.fab r).sent.any fun x => x.1 == row && x.2.1 == col && x.2.2.1 == dir && x.2.2.2 == s.fclock

/-- Notes a token that a stream carries. -/
def noteSent (s : State) (r : RegionId) (row : BitVec 5) (col : BitVec 6) (dir : Dir) : State :=
  s.updFab r fun f => { f with
    sent := (row, col, dir, s.fclock) :: f.sent.filter fun x => !(x.1 == row && x.2.1 == col && x.2.2.1 == dir) }

/-- TOKEN_HOP: one hop, when the stream carries no other token in this fc and the next link queue has room (16 tokens): the token is
checked as it leaves its queue, by the tile it leaves, and as the next tile receives it; one of a parked activation that reaches a tile
goes to the park area (R20, R333, R347). -/
def execTokenHop (r : RegionId) (src : TokSrc) (par : Flips) (s : State) : Out :=
  if !regionGoing s r then .next s
  else match tokAt s r src with
  | none => .next s
  | some (t, d, row, col) =>
    match nextHop row.toNat col.toNat d with
    | none => .next s
    | some (row', col', dir) =>
      let rw : BitVec 5 := BitVec.ofInt 5 row'
      let cl : BitVec 6 := BitVec.ofInt 6 col'
      if !insideCfg s r row' col' || streamUsed s r rw cl dir || 16 ≤ linkCount (s.fab r) rw cl dir then .next s
      else match lastCheck s r row col t par.queue with
      | (none, s) => .next (removeTok s r src)
      | (some t, s) =>
        let (t', s0) := checkParity (noteSent s r rw cl dir) r rw cl t par
        let s1 := removeTok s0 r src
        match t' with
        | none => .next s1
        | some t' =>
          if isParked (s1.fab r) t'.ctx t'.iter then
            match parkTok s1 r (debugOnly (s1.fab r) t'.ctx t'.iter) (if insideCfg s r d.row d.col then none else some d) t' par.store with
            | some s2 => .next s2
            | none => .next (freeze s0 r cSPRUE_FULL 0)
          else .next (s1.updFab r fun f => { f with links := f.links ++ [⟨rw, cl, dir, d, t'⟩] })

/-- The state a full Sprue part leaves: the region freezes and the token stays where it was. -/
def orFreeze (s : State) (r : RegionId) : Option State → Out
  | some s => .next s
  | none => .next (freeze s r cSPRUE_FULL 0)

/-- In a precise stop only a token that a link has brought to its tile is still delivered (R382). -/
def deliverable (s : State) (r : RegionId) : TokSrc → Bool
  | .out _ _ _ _ => regionGoing s r
  | .link _ _ _ => (s.ctl r).st == .running && (s.dbg r).stop != .stopped

/-- The place of a source among those that deliver to one port in one fc: the link queues N, E, S, W, then the tile's output
queues by slot (R35). -/
def srcRank : TokSrc → Nat
  | .link _ _ .n => 0
  | .link _ _ .e => 1
  | .link _ _ .s => 2
  | .link _ _ .w => 3
  | .out _ _ slot _ => 4 + slot.toNat

/-- Would a delivery come out of the order of its fc, this source or a later one having delivered to the port in it? It then takes
place in a later fc: a source delivers one token each fc, as it gets them (R20, R35; log 84). -/
def outOfTurn (s : State) (r : RegionId) (t : Token) (src : TokSrc) : Bool :=
  (s.fab r).lastDel.any fun (row, col, node, port, rank, at_) =>
    row == t.drow && col == t.dcol && node == t.node && port == t.port && at_ == s.fclock && srcRank src ≤ rank

/-- Notes a delivery to a port. -/
def noteDel (s : State) (r : RegionId) (t : Token) (src : TokSrc) : State :=
  let other (x : BitVec 5 × BitVec 6 × BitVec 6 × BitVec 2 × Nat × Word) : Bool :=
    !(x.1 == t.drow && x.2.1 == t.dcol && x.2.2.1 == t.node && x.2.2.2.1 == t.port)
  s.updFab r fun f => { f with
    lastDel := (t.drow, t.dcol, t.node, t.port, srcRank src, s.fclock) :: f.lastDel.filter other }

/-- TOKEN_DELIVER: a token at its destination tile reaches its node's port; one at the boundary reaches its edge port. It is checked as
it leaves its queue: no stream hop has kept a copy (R35, R176, R347, R380). -/
def execTokenDeliver (r : RegionId) (src : TokSrc) (par : Flips) (s : State) : Out :=
  if !deliverable s r src then .next s
  else match tokAt s r src, (s.ctl r).cfg with
  | some (t, d, row, col), some g =>
    match nextHop row.toNat col.toNat d with
    | none =>
      if outOfTurn s r t src then .next s
      else
        let (t', s0) := lastCheck s r row col t par.queue
        let s1 := removeTok s0 r src
        match t' with
        | none => .next s1
        | some t' => orFreeze s0 r (arriveTok (noteDel s1 r t' src) r t' par.store)
    | some (row', col', _) =>
      if insideCfg s r row' col' || !regionGoing s r then .next s
      else match edgePort g d with
        | none => .next s
        | some (side, idx) =>
          let (t', s0) := lastCheck s r row col t par.queue
          .next ((removeTok s0 r src).updFab r fun f => { f with edge := f.edge ++ (t'.toList.map fun t => ⟨side, idx, par.store, t⟩) })
  | _, _ => .next s

/-- SPRUE_REFILL: the earliest spilled token of the tile of the k-th waiting token refills the matching store, its parity checked
(R36, R347). -/
def execSprueRefill (r : RegionId) (k : Nat) (s : State) : Out :=
  if !regionGoing s r then .next s
  else match (s.fab r).waiting[k]? with
  | none => .next s
  | some w =>
    let here (x : WaitTok) : Bool := x.tok.drow == w.tok.drow && x.tok.dcol == w.tok.dcol
    let inMs := (s.fab r).waiting.countP fun x => !x.spilled && here x
    if msEntries w.tok.drow.toNat w.tok.dcol.toNat ≤ inMs then .next s
    else
      let i := (s.fab r).waiting.findIdx fun x => x.spilled && here x
      match (s.fab r).waiting[i]? with
      | none => .next s
      | some x =>
        let (t, s) := lastCheck s r x.tok.drow x.tok.dcol x.tok x.flips
        .next (s.updFab r fun f => { f with waiting := match t with
          | some t => f.waiting.modify i fun x => { x with spilled := false, tok := t, flips := 0 }
          | none => f.waiting.eraseIdx i })

/-! ### Contexts (R30, R31) -/

/-- Contexts that tokens of a fabric carry: queues, links, stores, park area, operands of parked firings, of accesses, of
array commands, and those nodes hold. -/
def ctxHeld (f : Fabric) (c : BitVec 12) : Bool :=
  f.outq.any (fun e => e.deps.any fun d => d.tok.ctx == c) || f.links.any (fun l => l.tok.ctx == c) ||
  f.waiting.any (fun w => w.tok.ctx == c) || f.edge.any (fun e => e.tok.ctx == c) ||
  f.parkArea.any (fun p => p.tok.ctx == c) || f.parkTab.any (fun p => p.ctx == c) ||
  f.accs.any (fun a => a.site.ctx == c) || f.arrayq.any (fun a => a.tok.ctx == c) || f.fills.any (fun x => x.ctx == c) ||
  f.nodes.any (fun x => x.pend.any (fun ds => ds.any fun d => d.tok.ctx == c) ||
    x.groups.any (fun g => g.ctx == c) || x.ctrs.any (fun g => g.ctx == c && !g.held.isEmpty) ||
    x.pass.any (fun p => p.enable.ctx == c) || x.fibres.any (fun g => g.ctx == c && !g.out.isEmpty) ||
    x.held.any (fun h => h.1.ctx == c) || x.keys.any (fun k => k.held.any fun t => t.ctx == c) ||
    x.bound.any (fun b => b.1 == c))

/-- LOOP_DONE_ABSORB: a done token that has reached its HEAD's tile is counted in the step that delivers it (R252). -/
def execLoopDoneAbsorb (r : RegionId) (src : TokSrc) (s : State) : Out :=
  match tokAt s r src with
  | some (t, d, row, col) =>
    if deliverable s r src && (nextHop row.toNat col.toNat d).isNone && (doneLid s r t).isSome then
      orFreeze s r (arriveTok (removeTok s r src) r t 0)
    else .next s
  | none => .next s

/-- Has the LEXIT or RET that closed a context sent its token on (R30)? -/
def exitLeft (f : Fabric) (id : Option Nat) : Bool := match id with | some k => !f.outq.any (·.id == k) | none => true

/-- CONTEXT_RETURN: a retiring context that no token carries returns to the pool; dead marks and node counters of it
clear (R30, R339). -/
def execContextReturn (r : RegionId) (c : BitVec 12) (s : State) : Out :=
  let f := s.fab r
  if f.retiring.any (fun x => x.1 == c && exitLeft f x.2) && !ctxHeld f c then
    .next (s.updFab r fun f => { f with
      retiring := f.retiring.filter (·.1 != c)
      bindings := f.bindings.filter (·.ctx != c)
      dead := f.dead.filter (·.1 != c)
      nodes := f.nodes.map fun x =>
        { x with ctrs := x.ctrs.filter (·.ctx != c), fibres := x.fibres.filter (·.ctx != c) } })
  else .next s

end Sys2Proof.Machine
end

