-- ==== Sys2Proof/Machine/Fire.lean ====
section
/-!
DEFINITION. How a node fires (R34, R202 to R204, R241, R242): its operands from the matching store and its immediate or
sticky ports, the rules on special kinds, the result on its routes, parking, and what every firing leaves behind (trace,
samples, Marigold, merge-order log, replay).
-/

namespace Sys2Proof.Machine

open Sys2Proof

/-! ### Formats in tokens (Table 3-3) -/

def kDATA : BitVec 3 := 0
def kINDEX : BitVec 3 := 1
def kCTRL : BitVec 3 := 2
def kSTOP : BitVec 3 := 3
def kDONE : BitVec 3 := 4
def kBUBBLE : BitVec 3 := 5
def kERROR : BitVec 3 := 6
def kPARAM : BitVec 3 := 7

/-- Lane width of a format. -/
abbrev laneBits (fmt : BitVec 5) : Nat := laneWidth fmt

def laneCount (fmt : BitVec 5) : Nat := 512 / laneBits fmt

def fmtReserved (fmt : BitVec 5) : Bool := 0x14 < fmt.toNat

/-- Precision p of a format, if it has one. -/
def fmtP (fmt : BitVec 5) : Option Nat :=
  match fmt.toNat with
  | 9 => some 53 | 0xA => some 24 | 0xB => some 11 | 0xC => some 8 | 0xD => some 4 | 0xE => some 3
  | 0xF => some 6 | 0x10 => some 2 | 0x13 => some 11 | _ => none

/-- The floating-point format a lane holds. -/
def fmtFloat (fmt : BitVec 5) : Option FloatFmt :=
  match fmt.toNat with
  | 9 => some fp64 | 0xA => some fp32 | 0xB => some fp16 | 0xC => some bf16 | 0xD => some e4m3 | 0xE => some e5m2
  | _ => none

def isFPV (fmt : BitVec 5) : Bool := fmt == 0xA || fmt == 0xB || fmt == 0xC
def isINT (fmt : BitVec 5) : Bool := 1 ≤ fmt.toNat && fmt.toNat ≤ 8
def isSigned (fmt : BitVec 5) : Bool := 1 ≤ fmt.toNat && fmt.toNat ≤ 4

/-- The tag a token's lanes carry: min(SIG, p) (R62). -/
def tokSig (t : Token) : Nat := match fmtP t.fmt with | some p => min t.sig.toNat p | none => 0

/-- A payload from its lanes, lane 0 lowest. -/
def packLanes (w : Nat) (ls : List Nat) : BitVec 512 :=
  BitVec.ofNat 512 (ls.foldr (fun x acc => x % 2 ^ w + 2 ^ w * acc) 0)

/-- All lanes of a token. -/
def Token.lanes (t : Token) : List Nat := (List.range (laneCount t.fmt)).map fun i => t.lane (laneBits t.fmt) i

/-- A lane of w bits read as signed or unsigned. -/
def laneInt (signed : Bool) (w x : Nat) : Int := if signed && 2 ^ (w - 1) ≤ x then (x : Int) - 2 ^ w else x

/-! ### Operands -/

/-- The lane value that an immediate port reads from IMM32 in a format (R113). -/
def immLane (fmt : BitVec 5) (imm : BitVec 32) : Nat :=
  match fmt.toNat with
  | 4 => (imm.signExtend 64).toNat
  | 9 => match decodeF fp32 imm.toNat with
    | .nan _ => canonNaN fp64
    | .inf n => encInf fp64 n
    | .num n m e => (roundF fp64 .rne n m e).bits
  | 0x10 => (imm.extractLsb' 0 4).toNat
  | 0x11 => (imm.extractLsb' 0 1).toNat
  | _ => imm.toNat % 2 ^ laneBits fmt

/-- The token an immediate port supplies: its value in every lane, tag p, zero scale lane (R113, R205). -/
def immToken (n : Site) (fmt : BitVec 5) (imm : BitVec 32) (port : BitVec 2) : Token where
  kind := kDATA
  fmt := fmt
  sig := BitVec.ofNat 7 ((fmtP fmt).getD 0)
  pred := true
  ctx := n.ctx
  iter := n.iter
  drow := n.row
  dcol := n.col
  node := n.slot
  port := port
  seq := 0
  scale := 0
  payload := packLanes (laneBits fmt) (List.replicate (laneCount fmt) (immLane fmt imm))

/-- A firing: its node word and what stands at its ports a, b, c, p, with arrival times for token ports. -/
structure Firing where
  n : Site
  opc : BitVec 8
  nf : NodeFields
  a : Option Token
  b : Option Token
  c : Option Token
  p : Option Token
  arr : List (BitVec 2 × Word)

def Firing.port (x : Firing) (i : BitVec 2) : Option Token :=
  match i.toNat with | 0 => x.a | 1 => x.b | 2 => x.c | _ => x.p

/-- FLAGS (Table 6-10). -/
def fTRC (nf : NodeFields) : Bool := nf.flags.getLsbD 7
def fLAST (nf : NodeFields) : Bool := nf.flags.getLsbD 6
def fCMPL (nf : NodeFields) : Bool := nf.flags.getLsbD 3
def fSIGT (nf : NodeFields) : Bool := nf.flags.getLsbD 2
def fPRD (nf : NodeFields) : Bool := nf.flags.getLsbD 1
def fORD (nf : NodeFields) : Bool := nf.flags.getLsbD 0

/-- Is a waiting token at a node, port and activation? -/
def atPort (n : Site) (i : BitVec 2) (w : WaitTok) : Bool :=
  w.tok.drow == n.row && w.tok.dcol == n.col && w.tok.node == n.slot && w.tok.port == i &&
    w.tok.ctx == n.ctx && w.tok.iter == n.iter

/-- The head of a port's queue for the site's activation (R35). -/
def headOf (f : Fabric) (n : Site) (i : BitVec 2) : Option WaitTok := f.waiting.find? (atPort n i)

/-- The tag of a sticky constant, whatever its descriptor says: the least of its lanes' tags, each p after the two steps of R63
(Table 3-6). -/
def stickySig (t : Token) : BitVec 7 :=
  if t.kind != kDATA then t.sig
  else match fmtP t.fmt, fmtFloat t.fmt with
    | none, _ => t.sig
    | some p, none => BitVec.ofNat 7 p
    | some p, some f =>
      BitVec.ofNat 7 ((t.lanes.map fun v => finalTag f (decodeF f v) true p).min?.getD p)

/-- The sticky token of a port (R113, R123). -/
def stickyOf (s : State) (n : Site) (i : BitVec 2) : Option Token :=
  (s.ctl n.r).cfg.bind fun g => (g.stickies.find? fun x =>
    x.row == n.row && x.col == n.col && x.slot == n.slot && x.port == i).map fun x => { x.tok with sig := stickySig x.tok }

/-- What stands at a port. -/
def operand (s : State) (n : Site) (nf : NodeFields) (i : BitVec 2) : Option Token :=
  match (portKind nf i).toNat with
  | 0 => (headOf (s.fab n.r) n i).map (·.tok)
  | 1 => some (immToken n nf.fmt nf.imm i)
  | 2 => stickyOf s n i
  | _ => none

/-- Does a choice belong to a site? -/
def Drawn.of (d : Drawn) (n : Site) : Bool :=
  d.row == n.row && d.col == n.col && d.slot == n.slot && d.ctx == n.ctx && d.iter == n.iter

/-- The ports of a choice of ports. -/
def Drawn.ports (d : Drawn) : Option (List (BitVec 2)) := match d.what with | .ports l => some l | .context _ | .dry | .expired => none

/-- Has a node several ports that fire alone, so that arrivals choose between them: MERGE, LOOP, CTR, CNT, AGEN, BJOIN, BNEG,
SCORE? -/
def choosesPort (opc : BitVec 8) : Bool := ([0x51, 0x53, 0x58, 0x65, 0x70, 0x82, 0x83, 0x84] : List (BitVec 8)).contains opc

/-- The token ports that a firing may take in a replay: those that the same firing of the logged run took (R391; log 21). -/
def replayPorts (s : State) (n : Site) (opc : BitVec 8) : Option (List (BitVec 2)) :=
  if (s.dbg n.r).replay.isSome && choosesPort opc then (s.dbg n.r).replayDraws.findSome? fun d => if d.of n then d.ports else none
  else none

/-- What stands at a node's ports for the site's activation. -/
def firingAt (s : State) (opc : BitVec 8) (nf : NodeFields) : Firing :=
  let n := s.site
  let open_ (i : BitVec 2) : Bool := portKind nf i != 0 || (replayPorts s n opc).all (·.contains i)
  let at_ (i : BitVec 2) : Option Token := if open_ i then operand s n nf i else none
  ⟨n, opc, nf, at_ 0, at_ 1, at_ 2, at_ 3,
    ((tokPorts nf).filter open_).filterMap fun i => (headOf (s.fab n.r) n i).map fun w => (i, w.at_)⟩

/-- Every token port holds a token (R34). -/
def Firing.ready (x : Firing) : Bool := (tokPorts x.nf).all fun i => (x.port i).isSome

/-- Token operands in port order. -/
def Firing.toks (x : Firing) : List Token := (tokPorts x.nf).filterMap x.port

/-- Operands of ports a, b, c, p, immediate and sticky ones too, as a PFQ entry records them. -/
def Firing.all (x : Firing) : List Token :=
  ([0, 1, 2, 3] : List (BitVec 2)).filterMap fun i => (x.port i).map fun t => { t with port := i }

/-- SEQ of the result: that of the lowest-lettered token port (R204). DESIGN CHOICE (log 95): a free value at a node that has no token
port. -/
def Firing.seq (x : Firing) : BitVec 16 :=
  (x.toks.head?.map (·.seq)).getD (Config.portlessSeq (x.n.row ++ x.n.col ++ x.n.slot ++ x.n.ctx ++ x.n.iter).toNat)

/-- A result token with the firing's tag (R204). -/
def Firing.result (x : Firing) (kind : BitVec 3) (fmt : BitVec 5) (sig : Nat) (payload : BitVec 512) : Token where
  kind := kind
  fmt := fmt
  sig := BitVec.ofNat 7 sig
  pred := true
  ctx := x.n.ctx
  iter := x.n.iter
  drow := x.n.row
  dcol := x.n.col
  node := x.n.slot
  port := 0
  seq := x.seq
  scale := 0
  payload := payload

/-- error(c) of a firing: the node word's FMT (R203). -/
def Firing.error (x : Firing) (c : BitVec 8) : Token :=
  { x.result kERROR x.nf.fmt 0 (errorPayload c) with pred := false }

/-- A BUBBLE result of a format. -/
def Firing.bubble (x : Firing) (fmt : BitVec 5) : Token := { x.result kBUBBLE fmt 0 0 with pred := false }

/-- A propagated ERROR: its own fields with this firing's tag (R203). -/
def Firing.retag (x : Firing) (t : Token) : Token := { t with ctx := x.n.ctx, iter := x.n.iter, seq := x.seq }

/-- Level of a STOP. -/
def stopLevel (t : Token) : BitVec 2 := t.payload.extractLsb' 0 2

def Firing.stop (x : Firing) (fmt : BitVec 5) (lvl : BitVec 2) : Token := x.result kSTOP fmt 0 (lvl.zeroExtend 512)

/-- What a PFQ entry says of a firing. -/
def Firing.info (x : Firing) : FaultInfo := { node := nodeBits x.opc x.nf, seq := x.seq, ops := x.all }

/-! ### Free values of a run (R391) -/

/-- The free value that a node takes next: one of the run and of how many the node has taken (log 2). -/
def runFree (s : State) (n : Site) : Nat :=
  Config.runValue (s.fab n.r).seed ((n.row.toNat * 64 + n.col.toNat) * 64 + n.slot.toNat) (s.node n).drawn

/-- The node has taken a free value. -/
def tookFree (s : State) (n : Site) : State := s.updNode n fun y => { y with drawn := y.drawn + 1 }

/-! ### What a firing does -/

/-- Results of a firing: tokens for ROUTE0 and ROUTE1. -/
abbrev Pair := Option Token × Option Token

/-- One token on every enabled route. -/
def both (t : Token) : Pair := (some t, some t)

/-- The outcome of a node's rule: it does not fire; it fires, consuming the heads of `eat`, with results of which all but
the first wait for firings of their own, none departing before `after`; or the activation parks, with the result that parked it
(SIGLOW). -/
inductive NodeRes where
  | wait
  /-- It does not fire; the node keeps what the token has told it. -/
  | idle (s : State)
  /-- As `out`, with the departures of each entry given. -/
  | sent (s : State) (eat : List (BitVec 2)) (dss : List (List Dep)) (t : Option Token)
  | out (s : State) (eat : List (BitVec 2)) (rs : List Pair) (after : Word)
  | park (cause : BitVec 8) (i : FaultInfo) (t : Option Token)

/-- Consumes the heads of some ports. -/
def eatPorts (s : State) (n : Site) (ports : List (BitVec 2)) : State :=
  s.updFab n.r fun f => { f with waiting := ports.foldl (fun ws i => eraseFirst (atPort n i) ws) f.waiting }

/-- Appends an output-queue entry; one without departures takes no room. `input` is the activation whose operand stays in place
until it has departed. -/
def pushEntry (s : State) (n : Site) (deps : List Dep) (after : Word) (input : Option (BitVec 12 × BitVec 16)) : State :=
  if deps.isEmpty then s
  else s.updFab n.r fun f => { f with
    outq := f.outq ++ [⟨f.nextId, n.row, n.col, n.slot, false, 0, after, input, deps⟩], nextId := f.nextId + 1 }

/-- Reserves an output-queue entry that a command or an access fills later: its id. `block` tells on which routes later
results wait for it; `deps` may depart at once. -/
def reserveEntry (s : State) (n : Site) (block : BitVec 2) (deps : List Dep) : Nat × State :=
  ((s.fab n.r).nextId, s.updFab n.r fun f => { f with
    outq := f.outq ++ [⟨f.nextId, n.row, n.col, n.slot, true, block, 0, none, deps⟩], nextId := f.nextId + 1 })

/-- Fills a reserved entry; one with nothing left to depart frees. -/
def fillEntry (s : State) (r : RegionId) (id : Nat) (deps : List Dep) : State :=
  match (s.fab r).outq.find? (·.id == id) with
  | none => s
  | some x => setOutq s r x.row x.col x.slot (((s.fab r).outq.map fun e =>
      if e.id = id then { e with reserved := false, deps := e.deps ++ deps } else e).filter fun e => e.id != id || !e.deps.isEmpty)

/-- Bucket of a wait of w fc (R388). -/
def waitBucket (w : Nat) : Nat := min 15 (Nat.log2 (w + 1))

/-- The result a trace record describes. -/
def firstTok (rs : List Pair) : Option Token := rs.head?.bind fun p => p.1 <|> p.2

/-- The merge-order log entry of a firing (R389). -/
def logWord (n : Site) : Word := n.row ++ n.col ++ n.slot ++ n.ctx ++ n.iter ++ 0#19

/-- Entries of a merge-order log. -/
def logSize (d : RegionDbg) : Nat := 2 ^ (d.fglog.extractLsb' 1 5).toNat

/-- Do the firings of a region append to its merge-order log (R389)? -/
def logging (s : State) (r : RegionId) : Bool :=
  let d := s.dbg r
  let logn := (d.fglog.extractLsb' 1 5).toNat
  let mlog := match (s.ctl r).cfg with | some g => g.flags.getLsbD 2 | none => false
  mlog && 10 ≤ logn && logn ≤ 28 && !d.rply && !d.logOff

/-- The store of a firing's log entry. -/
def logStore (s : State) (n : Site) : MRes (Option (BitVec 8 × Word)) :=
  let d := s.dbg n.r
  storeWords s (s.ctl n.r).part ((d.fglog &&& 0x000FFFFFFFFFF000) + BitVec.ofNat 64 (8 * d.fglogidx.toNat)) [logWord n]

/-- Must a firing wait for its log entry, whose line is locked (R99, R389)? -/
def logWaits (s : State) (n : Site) : Bool :=
  logging s n.r && (s.dbg n.r).fglogidx.toNat < logSize (s.dbg n.r) &&
    match logStore s n with | .wait => true | .ok _ _ | .trap _ _ => false

/-- Updates what is kept of the run that a region makes, of one resumed from a snapshot (R391; log 21). -/
def updRun (s : State) (r : RegionId) (f : LoggedRun → LoggedRun) : State :=
  { s with saves := s.saves.map fun v =>
      if v.bhash.toNat = (s.fab r).seed then { v with runs := match v.runs with | x :: xs => f x :: xs | [] => [] } else v }

/-- Appends to the merge-order log of an MLOG configuration; a full log or a write that faults ends the logging (R389). -/
def mergeLog (s : State) (n : Site) : State :=
  let fail (s : State) : State := s.updDbg n.r fun d => { d with lost := true, logOff := true }
  if !logging s n.r then s
  else if logSize (s.dbg n.r) ≤ (s.dbg n.r).fglogidx.toNat then fail s
  else match logStore s n with
    | .ok none s => updRun (s.updDbg n.r fun d => { d with fglogidx := d.fglogidx + 1 }) n.r fun x => { x with log := x.log ++ [logWord n] }
    | .ok (some _) _ | .trap _ _ => fail s
    | .wait => s

/-- Tile of a merge-log entry. -/
def logTile (w : Word) : BitVec 11 := w.extractLsb' 53 11

/-- May a firing go ahead in a replay: it is its tile's next entry, or the tile has none left (R390)? -/
def replayOk (s : State) (n : Site) : Bool :=
  match (s.dbg n.r).replay with
  | none => true
  | some l => match l.find? fun w => logTile w == n.row ++ n.col with
    | none => true
    | some w => w.extractLsb' 19 45 == (logWord n).extractLsb' 19 45

/-- Uses the replay entry of a firing, if its tile has one left; RPLY clears when every entry has been used. -/
def replayUse (s : State) (n : Site) : State :=
  match (s.dbg n.r).replay with
  | none => s
  | some l =>
    let mine (w : Word) : Bool := logTile w == n.row ++ n.col
    let l' := eraseFirst mine l
    if !l.any mine then s
    else s.updDbg n.r fun d =>
      if l'.isEmpty then { d with replay := none, replayDraws := [], rply := false } else { d with replay := some l', replayAt := s.fclock }

/-- The sample record every 2^SAMPLE firings (R386). -/
def sampleFire (s : State) (n : Site) (t : Option Token) : State :=
  let d := s.dbg n.r
  if d.sample = 0 then s
  else if d.sampleCount + 1 < 2 ^ d.sample.toNat then s.updDbg n.r fun d => { d with sampleCount := d.sampleCount + 1 }
  else
    let s := s.updDbg n.r fun d => { d with sampleCount := 0 }
    trace s n.r n.ctx n.iter n.row n.col n.slot 3 0 t

/-- Counts a result of low significance (R388). -/
def sigCount (s : State) (n : Site) (t : Option Token) : State :=
  match t with
  | none => s
  | some t => if t.kind == kDATA && (fmtP t.fmt).isSome && t.sig.toNat < sigThr (s.ctl n.r).sigctl
      then mgAdd s n.r n.row n.col n.slot 17 else s

/-- Wait buckets of a node with two or more token ports. -/
def waitCount (s : State) (x : Firing) (eat : List (BitVec 2)) : State :=
  let ts := (x.arr.filter fun a => eat.contains a.1).map fun a => a.2.toNat
  if (tokPorts x.nf).length < 2 then s
  else match ts.max?, ts.min? with
    | some hi, some lo => mgAdd s x.n.r x.n.row x.n.col x.n.slot (BitVec.ofNat 5 (waitBucket (hi - lo)))
    | _, _ => s

/-- Has the tile of a site started a firing within the last k fc? -/
def firedWithin (s : State) (n : Site) (k : Nat) : Bool :=
  (s.fab n.r).fired.any fun (row, col, at_) => row == n.row && col == n.col && (s.fclock - at_).toNat < k

/-- Notes that the tile of a site has started a firing now. -/
def noteFired (s : State) (n : Site) : State :=
  s.updFab n.r fun f => { f with fired := (n.row, n.col, s.fclock) :: f.fired.filter fun x => !(x.1 == n.row && x.2.1 == n.col) }

/-- Is the cluster of a site held to one firing every 2 fc (R377)? -/
def tileLimited (s : State) (n : Site) : Bool :=
  let c := s.ctl n.r
  (s.die (dieOfRegion n.r)).limited.contains
    (BitVec.ofNat 7 (11 * (c.orow + n.row.toNat / 3) + c.ocol + n.col.toNat / 3))

/-- May the tile of a site start a firing: one per fc, and none within 2 fc of another in a cluster that is too hot (R36, R377)? A
cluster's nine tiles count together there. -/
def tileFree (s : State) (n : Site) : Bool :=
  !firedWithin s n 1 && (!tileLimited s n || !(s.fab n.r).fired.any fun (row, col, at_) =>
    row.toNat / 3 == n.row.toNat / 3 && col.toNat / 3 == n.col.toNat / 3 && (s.fclock - at_).toNat < 2)

/-- What every firing leaves behind. -/
def firedAt (s : State) (n : Site) (trc : Bool) (t : Option Token) : State :=
  let s := noteFired (touch s n.r) n
  let s := if trc then trace s n.r n.ctx n.iter n.row n.col n.slot 1 0 t else s
  let s := sampleFire s n t
  replayUse (mergeLog s n) n

/-- The activation of pending departures. -/
def depsAct (ds : List Dep) : Option (BitVec 12 × BitVec 16) := ds.head?.map fun d => (d.tok.ctx, d.tok.iter)

/-- Does the input of a node stay in place until the last result it causes has departed: DUP, and STOPG where it causes STOPs
(R257, R259)? -/
def keepsInput (opc : BitVec 8) (results : Nat) : Bool := opc == 0x5F || (opc == 0x5C && 1 < results)

/-- Does an input of the site's activation stay in place for an entry that has not departed? -/
def inputKept (s : State) (n : Site) : Bool :=
  (s.fab n.r).outq.any fun e => e.row == n.row && e.col == n.col && e.slot == n.slot && e.input == some (n.ctx, n.iter)

/-- Emits the node's first pending result as a firing of its own; an input that stayed goes when the last one of its activation has
departed. -/
def emitPend (s : State) (opc : BitVec 8) (nf : NodeFields) (ds : List Dep) (rest : List (List Dep)) : State :=
  let n := s.site
  let s := s.updNode n fun x => { x with pend := rest }
  let last := keepsInput opc 2 && !(rest.any fun r => depsAct r == depsAct ds)
  let s := pushEntry s n ds 0 (if last then some (n.ctx, n.iter) else none)
  let t := ds.head?.map (·.tok)
  firedAt (sigCount s n t) n (fTRC nf) t

/-- The next choice of a replay that is about a context (R391). -/
def nextDraw (s : State) (r : RegionId) : Option Drawn :=
  if (s.dbg r).replay.isSome then (s.dbg r).replayDraws.find? (·.ports.isNone) else none

/-- Notes a choice: a replay has made it, or a logged run keeps it with the snapshot it resumed from (R391). -/
def noteChoice (s : State) (n : Site) (what : Choice) : State :=
  let d : Drawn := ⟨n.row, n.col, n.slot, n.ctx, n.iter, what⟩
  if (s.dbg n.r).replay.isSome then s.updDbg n.r fun y => { y with replayDraws := eraseFirst (· == d) y.replayDraws }
  else if logging s n.r then updRun s n.r fun x => { x with draws := x.draws ++ [d] }
  else s

/-- Notes the ports that a firing has taken, of a node that chooses between them. -/
def notePorts (s : State) (x : Firing) (eat : List (BitVec 2)) : State :=
  if choosesPort x.opc then noteChoice s x.n (.ports eat) else s

/-- The token ports whose heads a firing that parks gives up: those that `i` reports. -/
def parkPorts (x : Firing) (i : FaultInfo) : List (BitVec 2) :=
  (tokPorts x.nf).filter fun p => (x.port p).isSome && i.ops.any (·.port == p)

/-- A firing whose access has started and can neither perform nor park is held at its MT with its operands and its pieces as cut
(R333, R338, R363). -/
def holdFiring (s : State) (x : Firing) (i : FaultInfo) : State :=
  let eat := parkPorts x i
  let toks := eat.filterMap (headOf (s.fab x.n.r) x.n)
  let ps : List Piece := i.cut.map fun p => ⟨p.1, 0, false, 0, p.2.1, p.2.2, false⟩
  (noteFired (eatPorts s x.n eat) x.n).updFab x.n.r fun f => { f with
    accs := f.accs ++ [⟨f.nextId, x.n, x.opc, x.nf, toks, x.all, i.mtport, 0, 0, ps, 0, none, none, none, true⟩], nextId := f.nextId + 1 }

/-- The state in which a firing's operands have been withdrawn and its activation parked, or held at its MT; `t` is the
result that parked with SIGLOW. With no room in the tile's Sprue part the region freezes and the operands stay (R36, R333); those of a
memory access, whose firing has started, stay at its MT (R363). -/
def parkFiring (s : State) (x : Firing) (cause : BitVec 8) (i : FaultInfo) (t : Option Token) : State :=
  let eat := parkPorts x i
  let toks := eat.filterMap (headOf (s.fab x.n.r) x.n)
  let kept : State := if i.cut.isEmpty then s else holdFiring s x i
  match park (eatPorts s x.n eat) x.n cause i toks with
  | .parked s => sigCount (notePorts (noteFired (if cause = cCTX_DRY then noteChoice s x.n .dry else s) x.n) x eat) x.n t
  | .full => kept
  | .overflow => freeze kept x.n.r cSPRUE_FULL 0
  | .held => holdFiring s x i

/-- Can a node start a firing for the site's activation: the region runs, its tile may start one, the activation is neither parked
nor dead, its input does not stay in place for an earlier firing, the output queue has room (4 entries), a replay allows it, and its
log entry can be written? -/
def canFire (s : State) : Bool :=
  let n := s.site
  regionGoing s n.r && tileFree s n && !isParked (s.fab n.r) n.ctx n.iter && !isDead (s.fab n.r) n.ctx n.iter &&
    decide (outCount (s.fab n.r) n.row n.col n.slot < 4) && !inputKept s n && replayOk s n && !logWaits s n

/-- The end of a firing: operands consumed unless they stay for results still to come, the first result's departures queued, the
others left pending. -/
def finishFire (s : State) (x : Firing) (eat : List (BitVec 2)) (dss : List (List Dep)) (t : Option Token) (after : Word) :
    State :=
  let more := (dss.drop 1).filter (!·.isEmpty)
  let stays := keepsInput x.opc dss.length && eat.contains 0 && !(dss.all (·.isEmpty))
  let s := if stays then s else eatPorts s x.n eat
  let s := pushEntry s x.n (dss.headD []) after (if stays && more.isEmpty then some (x.n.ctx, x.n.iter) else none)
  let s := s.updNode x.n fun y => { y with pend := y.pend ++ more }
  let s := waitCount (notePorts s x eat) x eat
  let s := sigCount s x.n t
  firedAt s x.n (fTRC x.nf) t

/-- The ports whose heads an outcome takes. -/
def NodeRes.eats (x : Firing) : NodeRes → List (BitVec 2)
  | .wait | .idle _ => []
  | .sent _ eat _ _ | .out _ eat _ _ => eat
  | .park _ i _ => parkPorts x i

/-- The state a firing leaves. -/
def NodeRes.finish (s : State) (x : Firing) : NodeRes → State
  | .wait => s
  | .idle s => s
  | .park cause i t => parkFiring s x cause i t
  | .out s eat rs after =>
    finishFire s x eat (rs.map fun p => departures (s.fab x.n.r) x.nf x.n.row x.n.col p.1 p.2) (firstTok rs) after
  | .sent s eat dss t => finishFire s x eat dss t 0

/-- Has storage flipped bits of a head that a firing takes? -/
def flipped (s : State) (n : Site) (ports : List (BitVec 2)) : Bool :=
  ports.any fun i => (headOf (s.fab n.r) n i).any (·.flips != 0)

/-- A fresh firing. The parity of each token that leaves the matching store for it is checked first; one that fails is an error
token from then on, or is lost (R347). -/
def fireFresh (s : State) (opc : BitVec 8) (nf : NodeFields) (k : State → Firing → NodeRes) : State :=
  let n := s.site
  let x := firingAt s opc nf
  let r := k s x
  if flipped s n (r.eats x) then
    let s := (r.eats x).foldl (fun s i => scrubHead s n i) s
    (k s (firingAt s opc nf)).finish s (firingAt s opc nf)
  else r.finish s x

/-- Fires a node by its rule `k`, or emits a result that an earlier firing left pending (R34). -/
def fireNode (s : State) (opc : BitVec 8) (nf : NodeFields) (k : State → Firing → NodeRes) : Out :=
  let mine (ds : List Dep) : Bool := depsAct ds == some (s.site.ctx, s.site.iter)
  if !canFire s then .next s
  else match (s.node s.site).pend with
    | ds :: rest =>
      if mine ds then .next (emitPend s opc nf ds rest)
      else if rest.any mine then .next s
      else .next (fireFresh s opc nf k)
    | [] => .next (fireFresh s opc nf k)

/-- A firing that consumes every token port and has one result on both routes. -/
def oneOut (s : State) (x : Firing) (t : Token) : NodeRes := .out s (tokPorts x.nf) [both t] 0

/-- A firing that consumes every token port and has no result. -/
def noOut (s : State) (x : Firing) : NodeRes := .out s (tokPorts x.nf) [] 0

/-- error(c) with the PFQ entry of a fault after which the activation continues (R202, R243). -/
def errOut (s : State) (x : Firing) (c : BitVec 8) : NodeRes := oneOut (noteFault s x.n c x.info) x (x.error c)

/-- Tags that the SIGLOW test compares: those of the floating-point tokens at ports a, b and c, sticky ones too; integers,
immediates and tokens of other kinds take no part (R64, R66, R212). -/
def Firing.sigs (x : Firing) : List Nat :=
  (x.all.filter fun o => o.port != 3 && portKind x.nf o.port != 1 && o.kind == kDATA && (fmtP o.fmt).isSome).map tokSig

/-- The SIGLOW test of R212 on a result. DESIGN CHOICE (log 70): of a node without a floating-point operand, such as a VCVT from
an integer, the third condition of R66 holds of none, so a result below T parks. -/
def sigLowNode (s : State) (x : Firing) (t : Token) : Bool :=
  fSIGT x.nf && (fmtP t.fmt).isSome && t.kind == kDATA && sigLow (s.ctl x.n.r).sigctl t.sig.toNat x.sigs

/-- The firing procedure of R203: special kinds, the format test `ok` of R202, the node's effect `k`. `rf` is the result
format. R203 speaks of tokens that arrive at ports; DESIGN CHOICE (log 91): a sticky operand of KIND ERROR, BUBBLE or STOP is no such
token and fails the format test. -/
def dataNode (s : State) (x : Firing) (rf : BitVec 5) (ok : BitVec 2 → Token → Bool)
    (k : State → Firing → NodeRes) : NodeRes :=
  if !x.ready then .wait
  else
    let abc := (tokPorts x.nf).filter (· != 3) |>.filterMap x.port
    let bubble := abc.any (·.kind == kBUBBLE) || (fPRD x.nf && (x.p.any fun t => t.kind == kBUBBLE || !t.pred))
    let stops := abc.filter (·.kind == kSTOP)
    let pBad := x.p.any fun t => !(t.kind == kDATA || t.kind == kBUBBLE)
    match x.toks.find? (·.kind == kERROR) with
    | some e => oneOut s x (x.retag e)
    | none =>
      if bubble then oneOut s x (x.bubble rf)
      else if !abc.isEmpty && stops.length = abc.length then
        oneOut s x (x.stop rf (BitVec.ofNat 2 ((stops.map fun t => (stopLevel t).toNat).foldl max 0)))
      else if !stops.isEmpty || pBad || !([0, 1, 2].all fun i => (x.port i).all fun t => portKind x.nf i == 1 || ok i t) then
        errOut s x cFMT_BAD
      else k s x

/-- A DATA token of a format. -/
def isData (t : Token) (fmt : BitVec 5) : Bool := t.kind == kDATA && t.fmt == fmt

/-- A DATA token of a format, or an INDEX token where the format is an integer one (R202). -/
def isDataIdx (t : Token) (fmt : BitVec 5) : Bool := (t.kind == kDATA || (t.kind == kINDEX && isINT fmt)) && t.fmt == fmt

/-- Emits a result after the SIGLOW test. -/
def sigOut (s : State) (x : Firing) (t : Token) : NodeRes :=
  if sigLowNode s x t then .park cSIGLOW x.info (some t) else oneOut s x t

end Sys2Proof.Machine
end

