-- ==== Sys2Proof/Machine/LoadStore.lean ====
section
/-!
DEFINITION. Loads and stores of the cores (R149 to R153) and FENCE (R161).
-/

namespace Sys2Proof.Machine

open Sys2Proof

/-- An integer load of n bytes into g[d] through a conversion of the value read (Table 8-5). -/
def loadG (s : State) (d a : Reg) (va : Word) (n : Nat) (f : Nat → Word) : Out :=
  needRegs s [d, a] <| coreLoad s va n fun v s => retireG s d (f v)

/-- An integer store of the n low bytes of g[d]. -/
def storeG (s : State) (d a : Reg) (va : Word) (n : Nat) : Out :=
  needRegs s [d, a] <| coreStore s va (s.rg d).toNat n retire

/-- LD (Table 8-5). -/
def execLd (d a : Reg) (off : BitVec 16) (s : State) : Out :=
  loadG s d a (effAddr (s.rg a) off) 8 (fun v => BitVec.ofNat 64 v)

/-- SD (Table 8-5). -/
def execSd (d a : Reg) (off : BitVec 16) (s : State) : Out := storeG s d a (effAddr (s.rg a) off) 8

/-- LB (Table 8-5). -/
def execLb (d a : Reg) (off : BitVec 12) (s : State) : Out :=
  loadG s d a (effAddr (s.rg a) off) 1 (fun v => sext (BitVec.ofNat 8 v))

/-- LBU (Table 8-5). -/
def execLbu (d a : Reg) (off : BitVec 12) (s : State) : Out :=
  loadG s d a (effAddr (s.rg a) off) 1 (fun v => zext (BitVec.ofNat 8 v))

/-- LH (Table 8-5). -/
def execLh (d a : Reg) (off : BitVec 12) (s : State) : Out :=
  loadG s d a (effAddr (s.rg a) off) 2 (fun v => sext (BitVec.ofNat 16 v))

/-- LHU (Table 8-5). -/
def execLhu (d a : Reg) (off : BitVec 12) (s : State) : Out :=
  loadG s d a (effAddr (s.rg a) off) 2 (fun v => zext (BitVec.ofNat 16 v))

/-- LW (Table 8-5). -/
def execLw (d a : Reg) (off : BitVec 12) (s : State) : Out :=
  loadG s d a (effAddr (s.rg a) off) 4 (fun v => sext (BitVec.ofNat 32 v))

/-- LWU (Table 8-5). -/
def execLwu (d a : Reg) (off : BitVec 12) (s : State) : Out :=
  loadG s d a (effAddr (s.rg a) off) 4 (fun v => zext (BitVec.ofNat 32 v))

/-- SB (Table 8-5). -/
def execSb (d a : Reg) (off : BitVec 12) (s : State) : Out := storeG s d a (effAddr (s.rg a) off) 1

/-- SH (Table 8-5). -/
def execSh (d a : Reg) (off : BitVec 12) (s : State) : Out := storeG s d a (effAddr (s.rg a) off) 2

/-- SW (Table 8-5). -/
def execSw (d a : Reg) (off : BitVec 12) (s : State) : Out := storeG s d a (effAddr (s.rg a) off) 4

/-- FLW: loads FP32, tag 24 (R152). -/
def execFlw (d a : Reg) (off : BitVec 12) (s : State) : Out :=
  needRegs s [a] <| coreLoad s (effAddr (s.rg a) off) 4 fun v s => retire (s.wf d (BitVec.ofNat 64 v) 24)

/-- FLD: loads FP64, tag 53 (R152). -/
def execFld (d a : Reg) (off : BitVec 12) (s : State) : Out :=
  needRegs s [a] <| coreLoad s (effAddr (s.rg a) off) 8 fun v s => retire (s.wf d (BitVec.ofNat 64 v) 53)

/-- FSW: stores f[d][31:0]; the tag is dropped (R152). -/
def execFsw (d a : Reg) (off : BitVec 12) (s : State) : Out :=
  needRegs s [a] <| coreStore s (effAddr (s.rg a) off) (s.rf d).val.toNat 4 retire

/-- FSD: stores f[d][63:0]; the tag is dropped (R152). -/
def execFsd (d a : Reg) (off : BitVec 12) (s : State) : Out :=
  needRegs s [a] <| coreStore s (effAddr (s.rg a) off) (s.rf d).val.toNat 8 retire

/-- Width and precision of a scalar format (Table 3-1). -/
def fmtWidth : FFmt → Nat | .d => 64 | .s => 32 | .h => 16 | .b => 16
def fmtPrec : FFmt → Nat | .d => 53 | .s => 24 | .h => 11 | .b => 8

/-- FLDT: the value and its tag from a 16-byte slot, as two 8-byte accesses; the tag is min(byte 8 [6:0], p) (R70, R153). -/
def execFldt (d a : Reg) (f : FFmt) (off : BitVec 12) (s : State) : Out :=
  needRegs s [a] <|
    let va := effAddr (s.rg a) off
    if !aligned va 16 then raise s cMISALIGN va
    else onAccess s (translate s (coreCtx s) .read va) fun t s1 =>
      if watchHit s.me va 16 false then raise s cWATCH (if watchHit s.me va 8 false then va else va + 8)
      else onAccess s (readAt s1 (coreCtx s) t 8 va) fun v s2 =>
        onAccess s (readAt s2 (coreCtx s) { t with pa := t.pa + 8 } 8 (va + 8)) fun tg s3 =>
          retire (s3.wf d (BitVec.ofNat 64 (v % 2 ^ fmtWidth f)) (BitVec.ofNat 7 (min (tg % 128) (fmtPrec f))))

/-- FSDT: bytes 0 to 7 the value, byte 8 the tag, bytes 9 to 15 zero, value first (R70, R153). -/
def execFsdt (d a : Reg) (off : BitVec 12) (s : State) : Out :=
  needRegs s [a] <|
    let va := effAddr (s.rg a) off
    if !aligned va 16 then raise s cMISALIGN va
    else onAccess s (translate s (coreCtx s) .write va) fun t s1 =>
      if watchHit s.me va 16 true then raise s cWATCH (if watchHit s.me va 8 true then va else va + 8)
      else onAccess s (writeAt s1 (coreCtx s) t (s.rf d).val.toNat 8 va) fun _ s2 =>
        onAccess s (writeAt s2 (coreCtx s) { t with pa := t.pa + 8 } (s.rf d).tag.toNat 8 (va + 8)) fun _ s3 => retire s3

/-- LDA: a load that is an acquire at DEVICE scope, also into g0 (R151): what follows it reads no older S-copy. -/
def execLda (d a : Reg) (off : BitVec 12) (s : State) : Out :=
  needRegs s [d, a] <| coreLoad s (effAddr (s.rg a) off) 8 fun v s => retireG s.acquireMe d (BitVec.ofNat 64 v)

/-- STL: a store that is a release at DEVICE scope: dirty S-bytes reach home before it performs, and so does its own
value on an S page (R88, R151; log 7). -/
def execStl (d a : Reg) (off : BitVec 12) (s : State) : Out :=
  needRegs s [d, a] <|
    let va := effAddr (s.rg a) off
    if !aligned va 8 then raise s cMISALIGN va
    else onAccess s (translate s (coreCtx s) .write va) fun t s1 =>
      if watchHit s.me va 8 true then raise s cWATCH va
      else needSync s (onAccess s (writeAt s1.releaseMe (coreCtx s) t (s.rg d).toNat 8 va) fun _ s2 => retire s2.releaseMe)

/-- FENCE: at DIE scope and wider a release and an acquire on S-lines; at CORE scope the core's dirty S-bytes reach home, where
its fetches and walks read them. Every scope orders instruction fetches and walks after the core's earlier stores (R161,
R162). -/
def execFence (sc : Scope) (s : State) : Out :=
  needSync s <|
    let s := if sc = .core then s.releaseMe else s.releaseMe.acquireMe
    retire (s.updMe fun c => { c with icache := [] })

end Sys2Proof.Machine
end

