-- ==== Sys2Proof/Machine/FloatOps.lean ====
section
/-!
DEFINITION. Floating-point instructions of the cores (R154 to R157).
-/

namespace Sys2Proof.Machine

open Sys2Proof

def fmtOf : FFmt → FloatFmt | .d => fp64 | .s => fp32 | .h => fp16 | .b => bf16

/-- Value bits and tag of an operand in a format (R62, R139). -/
def opBits (x : FReg) (f : FFmt) : Nat := x.val.toNat % 2 ^ fmtWidth f
def opVal (x : FReg) (f : FFmt) : FVal := decodeF (fmtOf f) (opBits x f)
def opTag (x : FReg) (f : FFmt) : Nat := min x.tag.toNat (fmtPrec f)

/-- The end of R154: flags are kept, an enabled exception traps, SIGLOW is tested, the result and its tag are written. -/
def fpFinish (s : State) (d : Reg) (bits : Nat) (fl : FpFlags) (tag : Nat) (xs : List Nat) : Out :=
  let s := s.updMe fun c => { c with fcsr := raiseFlags c.fcsr fl }
  match enabledCause s.me.fcsr fl with
  | some c => raise s c 0
  | none =>
    if sigLow s.me.sigctl tag xs then
      raise s cSIGLOW (BitVec.ofNat 64 (tag + 256 * sigThr s.me.sigctl))
    else retire (s.wf d (BitVec.ofNat 64 bits) (BitVec.ofNat 7 tag))

/-- Runs an operation in the mode its RM field selects; a mode of 5 to 7 under DYN raises ILLEGAL (R50). -/
def withMode (s : State) (rm : RMode) (i : Instr) (k : RMode → Out) : Out :=
  match resolveRm s.me.fcsr rm with
  | some m => k m
  | none => raise s cILLEGAL (wordOf i)

/-- A two-operand operation: exact result, one rounding, tag. -/
def fpBin (s : State) (d a b : Reg) (f : FFmt) (rm : RMode) (i : Instr) (op : RMode → FVal → FVal → Exact)
    (tag : FVal → FVal → Nat → Nat → Exact → FVal → Nat) : Out :=
  withMode s rm i fun m =>
    let x := s.rf a; let y := s.rf b
    let e := op m (opVal x f) (opVal y f)
    let r := e.round (fmtOf f) m
    fpFinish s d r.bits r.fl (tag (opVal x f) (opVal y f) (opTag x f) (opTag y f) e (decodeF (fmtOf f) r.bits))
      [opTag x f, opTag y f]

/-- FADD (Table 8-6). -/
def execFadd (d a b : Reg) (rm : RMode) (f : FFmt) (s : State) : Out :=
  fpBin s d a b f rm (.fadd d a b rm f) addF (sumTag (fmtOf f))

/-- FSUB: a + (−b); the sign of a NaN plays no part (Table 8-6). -/
def execFsub (d a b : Reg) (rm : RMode) (f : FFmt) (s : State) : Out :=
  fpBin s d a b f rm (.fsub d a b rm f) (fun m x y => addF m x y.negate) (sumTag (fmtOf f))

/-- FMUL (Table 8-6). -/
def execFmul (d a b : Reg) (rm : RMode) (f : FFmt) (s : State) : Out :=
  fpBin s d a b f rm (.fmul d a b rm f) (fun _ => mulF) (fun x y sx sy => prodTag (fmtOf f) x y sx sy false)

/-- FDIV (Table 8-6). -/
def execFdiv (d a b : Reg) (rm : RMode) (f : FFmt) (s : State) : Out :=
  fpBin s d a b f rm (.fdiv d a b rm f) (fun _ => divF (fmtPrec f + 3)) (fun x y sx sy => prodTag (fmtOf f) x y sx sy true)

/-- FSQRT (Table 8-6). -/
def execFsqrt (d a : Reg) (rm : RMode) (f : FFmt) (s : State) : Out :=
  withMode s rm (.fsqrt d a rm f) fun m =>
    let x := s.rf a
    let r := (sqrtF (fmtPrec f + 3) (opVal x f)).round (fmtOf f) m
    fpFinish s d r.bits r.fl (sqrtTag (fmtOf f) (opVal x f) (opTag x f) (decodeF (fmtOf f) r.bits)) [opTag x f]

/-- Minimum or maximum (Table 8-6): which operand is delivered (for equal values operand a), or the canonical NaN. -/
def minMax (max : Bool) (x y : FVal) : Option Bool :=
  match isNaN x, isNaN y with
  | true, true => none
  | true, false => some false
  | false, true => some true
  | false, false => some (if max then !ltTotal x y else !ltTotal y x)

def fpMinMax (s : State) (max : Bool) (d a b : Reg) (f : FFmt) : Out :=
  let x := s.rf a; let y := s.rf b
  let fl : FpFlags := { nv := isSNaN (opVal x f) || isSNaN (opVal y f) }
  match minMax max (opVal x f) (opVal y f) with
  | none => fpFinish s d (canonNaN (fmtOf f)) fl 0 [opTag x f, opTag y f]
  | some fromA =>
    let z := if fromA then x else y
    fpFinish s d (opBits z f) fl (finalTag (fmtOf f) (opVal z f) true (opTag z f)) [opTag x f, opTag y f]

/-- FMIN (Table 8-6). -/
def execFmin (d a b : Reg) (f : FFmt) (s : State) : Out := fpMinMax s false d a b f

/-- FMAX (Table 8-6). -/
def execFmax (d a b : Reg) (f : FFmt) (s : State) : Out := fpMinMax s true d a b f

/-- FSGN: the magnitude of a with a chosen sign; a NaN a gives the canonical NaN; no exception (Table 8-6). -/
def execFsgn (d a b : Reg) (v : SgnVar) (f : FFmt) (s : State) : Out :=
  let x := s.rf a; let y := s.rf b
  let h := 2 ^ (fmtWidth f - 1)
  let sa := opBits x f / h == 1
  let sb := opBits y f / h == 1
  let sg := match v with | .j => sb | .n => !sb | .x => sa != sb
  let bits := if isNaN (opVal x f) then canonNaN (fmtOf f) else opBits x f % h + (if sg then h else 0)
  fpFinish s d bits {} (finalTag (fmtOf f) (decodeF (fmtOf f) bits) true (opTag x f)) [opTag x f, opTag y f]

/-- FCMP: writes 1 or 0 to g[d], never tested for SIGLOW (Table 8-6). -/
def execFcmp (d a b : Reg) (v : CmpVar) (f : FFmt) (s : State) : Out :=
  needRegs s [d] <|
    let x := opVal (s.rf a) f; let y := opVal (s.rf b) f
    let un := isNaN x || isNaN y
    let sn := isSNaN x || isSNaN y
    let (c, nv) := match v with
      | .eq => (!un && cmpVal x y == 0, sn)
      | .lt => (!un && decide (cmpVal x y < 0), un)
      | .le => (!un && decide (cmpVal x y ≤ 0), un)
      | .un => (un, sn)
    let fl : FpFlags := { nv := nv }
    let s := s.updMe fun c => { c with fcsr := raiseFlags c.fcsr fl }
    match enabledCause s.me.fcsr fl with
    | some cause => raise s cause 0
    | none => retireG s d (if c then 1 else 0)

/-- FRND: an integral value in the format; NX when the value changes; infinities and zeros unchanged (Table 8-6). -/
def execFrnd (d a : Reg) (rm : RMode) (f : FFmt) (s : State) : Out :=
  withMode s rm (.frnd d a rm f) fun m =>
    let x := s.rf a
    let (bits, fl) : Nat × FpFlags := match opVal x f with
      | .nan sn => (canonNaN (fmtOf f), { nv := sn })
      | .inf n => (encInf (fmtOf f) n, {})
      | .num n mm e =>
        let (q, nx) := roundInt m n mm e
        ((roundF (fmtOf f) m n q 0).bits, { nx := nx })
    let r := decodeF (fmtOf f) bits
    fpFinish s d bits fl (finalTag (fmtOf f) r true (opTag x f)) [opTag x f]

/-- FMA and FMS. -/
def fpFma (s : State) (d a b c : Reg) (rm : RMode) (f : FFmt) (i : Instr) (neg : Bool) : Out :=
  withMode s rm i fun m =>
    let x := s.rf a; let y := s.rf b; let z := s.rf c
    let zv := if neg then (opVal z f).negate else opVal z f
    let e := fmaF m (opVal x f) (opVal y f) zv
    let r := e.round (fmtOf f) m
    fpFinish s d r.bits r.fl
      (fmaTag (fmtOf f) (opVal x f) (opVal y f) zv (opTag x f) (opTag y f) (opTag z f) e (decodeF (fmtOf f) r.bits))
      [opTag x f, opTag y f, opTag z f]

/-- FMA: (a × b) + c with one rounding (Table 8-6). -/
def execFma (d a b c : Reg) (rm : RMode) (f : FFmt) (s : State) : Out := fpFma s d a b c rm f (.fma d a b c rm f) false

/-- FMS: (a × b) − c with one rounding (Table 8-6). -/
def execFms (d a b c : Reg) (rm : RMode) (f : FFmt) (s : State) : Out := fpFma s d a b c rm f (.fms d a b c rm f) true

/-- The floating-point format of a conversion type. -/
def CvtTyFmt : CvtTy → Option FFmt
  | .d => some .d | .s => some .s | .h => some .h | .b => some .b | _ => none

/-- Width and signedness of an integer conversion type. -/
def cvtInt : CvtTy → Nat × Bool
  | .w => (32, true) | .wu => (32, false) | .l => (64, true) | _ => (64, false)

/-- An exact value as a rounding's operand. -/
def exactOf : FVal → Exact
  | .nan s => .nan s
  | .inf n => .inf n false
  | .num n m e => .num n m e

/-- FCVT (R156): between formats, from an integer, to an integer. DEDUCED (log 69): an integer's tag is p of the format, an infinite
result too, in the words of R156. DEDUCED (log 88): a signalling NaN signals NV in an exact widening
conversion too, as R154 and R45 say of every one, though R156 says that such a conversion signals nothing. -/
def execFcvt (d a : Reg) (src dst : CvtTy) (rm : RMode) (s : State) : Out :=
  match CvtTyFmt src, CvtTyFmt dst with
  | some fs, some fd =>
    withMode s rm (.fcvt d a src dst rm) fun m =>
      let x := s.rf a
      let e := exactOf (opVal x fs)
      let r := e.round (fmtOf fd) m
      fpFinish s d r.bits r.fl
        (cvtTag (fmtOf fs) (fmtOf fd) (opTag x fs) (isZeroE e) (decodeF (fmtOf fd) r.bits)) [opTag x fs]
  | none, some fd =>
    needRegs s [a] <| withMode s rm (.fcvt d a src dst rm) fun m =>
      let (w, sg) := cvtInt src
      let v := (s.rg a).toNat % 2 ^ w
      let i : Int := if sg && 2 ^ (w - 1) ≤ v then (v : Int) - 2 ^ w else v
      let r := (Exact.num (i < 0) i.natAbs 0).round (fmtOf fd) m
      let s := s.updMe fun c => { c with fcsr := raiseFlags c.fcsr r.fl }
      match enabledCause s.me.fcsr r.fl with
      | some c => raise s c 0
      | none => retire (s.wf d (BitVec.ofNat 64 r.bits)
          (BitVec.ofNat 7 (fmtPrec fd)))
  | some fs, none =>
    needRegs s [d] <| withMode s rm (.fcvt d a src dst rm) fun m =>
      let (w, sg) := cvtInt dst
      let (v, fl) := toIntF m w sg (opVal (s.rf a) fs)
      let s := s.updMe fun c => { c with fcsr := raiseFlags c.fcsr fl }
      match enabledCause s.me.fcsr fl with
      | some c => raise s c 0
      | none => retireG s d (if w = 32 then (if sg then sext (BitVec.ofInt 32 v) else zext (BitVec.ofInt 32 v))
          else BitVec.ofInt 64 v)
  | none, none => raise s cILLEGAL (wordOf (.fcvt d a src dst rm))

/-- FMVG (Table 8-7). -/
def execFmvg (d a : Reg) (f : FFmt) (s : State) : Out :=
  needRegs s [d] <| retireG s d (BitVec.ofNat 64 (opBits (s.rf a) f))

/-- FMVF (Table 8-7). -/
def execFmvf (d a : Reg) (f : FFmt) (s : State) : Out :=
  needRegs s [a] <| retire (s.wf d (BitVec.ofNat 64 ((s.rg a).toNat % 2 ^ fmtWidth f)) (BitVec.ofNat 7 (fmtPrec f)))

/-- FSIG (Table 8-7). -/
def execFsig (d a : Reg) (f : FFmt) (s : State) : Out :=
  needRegs s [d] <| retireG s d (BitVec.ofNat 64 (opTag (s.rf a) f))

/-- FSIGSET (Table 8-7). -/
def execFsigset (d a : Reg) (f : FFmt) (s : State) : Out :=
  needRegs s [a] <| retire (s.wf d (s.rf d).val (BitVec.ofNat 7 (min (s.rg a).toNat (fmtPrec f))))

end Sys2Proof.Machine
end

