-- ==== Sys2Proof/Machine/Vector.lean ====
section
/-!
DEFINITION. Vector nodes (11_node_vector.md R207 to R216, R223 to R225): lane arithmetic, integers, compare and select,
reductions, scans, permutes, popcount, butterfly, significance.
-/

namespace Sys2Proof.Machine

open Sys2Proof

/-- The result of a value FP lane by lane: encodings with tags; the token carries the least tag (R64, R204). -/
def Firing.fpResult (x : Firing) (fmt : BitVec 5) (ls : List (Nat × Nat)) : Token :=
  x.result kDATA fmt ((ls.map (·.2)).min?.getD 0) (packLanes (laneBits fmt) (ls.map (·.1)))

/-- An integer or bit result: SIG 0. -/
def Firing.intResult (x : Firing) (fmt : BitVec 5) (ls : List Nat) : Token :=
  x.result kDATA fmt 0 (packLanes (laneBits fmt) ls)

/-- The operand on a port of a ready firing. -/
def Firing.get (x : Firing) (i : BitVec 2) : Token := (x.port i).getD (immToken x.n x.nf.fmt 0 i)

/-- The value and tag of lane i of a token in a floating-point format. -/
def fpLane (f : FloatFmt) (t : Token) (i : Nat) : FVal × Nat :=
  (decodeF f (t.lane f.width i), min t.sig.toNat f.p)

/-- Rounds an exact result with RNE: encoding and value (R205). -/
def rneF (f : FloatFmt) (e : Exact) : Nat × FVal :=
  let r := (e.round f .rne).bits
  (r, decodeF f r)

/-- The node's floating-point format. -/
def Firing.ff (x : Firing) : FloatFmt := (fmtFloat x.nf.fmt).getD fp32

/-- A floating-point node: one result per lane from the operands' lanes (R207), then the SIGLOW test. -/
def fpNode (s : State) (opc : BitVec 8) (nf : NodeFields) (lane : FloatFmt → List (FVal × Nat) → Nat × Nat) : Out :=
  fireNode s opc nf fun s x => dataNode s x nf.fmt (fun _ t => isData t nf.fmt) fun s x =>
    let f := x.ff
    let ops := [x.a, x.b, x.c].filterMap id
    sigOut s x (x.fpResult nf.fmt ((List.range (laneCount nf.fmt)).map fun i => lane f (ops.map (fpLane f · i))))

/-- A two-operand lane: exact result and tag rule. -/
def lane2 (op : FVal → FVal → Exact) (tag : FloatFmt → FVal → FVal → Nat → Nat → Exact → FVal → Nat) (f : FloatFmt) :
    List (FVal × Nat) → Nat × Nat
  | [a, b] =>
    let e := op a.1 b.1
    let (r, v) := rneF f e
    (r, tag f a.1 b.1 a.2 b.2 e v)
  | _ => (0, 0)

/-- VADD (R207). -/
def execVadd (n : NodeFields) (s : State) : Out := fpNode s 0x00 n (lane2 (addF .rne) sumTag)

/-- VSUB (R207). -/
def execVsub (n : NodeFields) (s : State) : Out := fpNode s 0x01 n (lane2 (fun a b => addF .rne a b.negate) sumTag)

/-- VMUL (R207). -/
def execVmul (n : NodeFields) (s : State) : Out :=
  fpNode s 0x02 n (lane2 mulF fun f a b sa sb => prodTag f a b sa sb false)

/-- VFMA: a × b + c with one rounding (R207). -/
def execVfma (n : NodeFields) (s : State) : Out :=
  fpNode s 0x03 n fun f ops => match ops with
    | [a, b, c] =>
      let e := fmaF .rne a.1 b.1 c.1
      let (r, v) := rneF f e
      (r, fmaTag f a.1 b.1 c.1 a.2 b.2 c.2 e v)
    | _ => (0, 0)

/-- The encoding of a value of a format. -/
def encV (f : FloatFmt) (v : FVal) : Nat := (rneF f (exactOf v)).1

/-- A minimum or maximum lane: the operand delivered with its tag, canonical NaN of two NaNs (R207). -/
def laneMinMax (mx : Bool) (f : FloatFmt) : List (FVal × Nat) → Nat × Nat
  | [a, b] => match minMax mx a.1 b.1 with
    | none => (canonNaN f, 0)
    | some fromA =>
      let z := if fromA then a else b
      (encV f z.1, finalTag f z.1 true z.2)
  | _ => (0, 0)

/-- VMIN (R207). -/
def execVmin (n : NodeFields) (s : State) : Out := fpNode s 0x04 n (laneMinMax false)

/-- VMAX (R207). -/
def execVmax (n : NodeFields) (s : State) : Out := fpNode s 0x05 n (laneMinMax true)

/-- A lane whose sign is changed; a NaN gives the canonical NaN (R207). -/
def laneSign (g : Bool → Bool) (f : FloatFmt) : List (FVal × Nat) → Nat × Nat
  | [a] =>
    let v : FVal := match a.1 with | .nan q => .nan q | .inf n => .inf (g n) | .num n m e => .num (g n) m e
    (encV f v, finalTag f v true a.2)
  | _ => (0, 0)

/-- VABS (R207). -/
def execVabs (n : NodeFields) (s : State) : Out := fpNode s 0x06 n (laneSign fun _ => false)

/-- VNEG (R207). -/
def execVneg (n : NodeFields) (s : State) : Out := fpNode s 0x07 n (laneSign fun b => !b)

/-- VDIV (R207). -/
def execVdiv (n : NodeFields) (s : State) : Out :=
  fpNode s 0x08 n (fun f => lane2 (divF (f.p + 3)) (fun f a b sa sb => prodTag f a b sa sb true) f)

/-- VSQRT (R207). -/
def execVsqrt (n : NodeFields) (s : State) : Out :=
  fpNode s 0x09 n fun f ops => match ops with
    | [a] =>
      let (r, v) := rneF f (sqrtF (f.p + 3) a.1)
      (r, sqrtTag f a.1 a.2 v)
    | _ => (0, 0)

/-! ### Transcendental nodes: the exact value to 256 fractional bits with a sticky bit, rounded once (R207; log 15) -/

def fixBits : Nat := 256

/-- ln 2 in fixed point: the sum of 1/(k 2^k). -/
def ln2Fix : Nat := ((List.range (fixBits + 8)).map fun k => 2 ^ fixBits / ((k + 1) * 2 ^ (k + 1))).sum

/-- e^t for t in fixed point, t ≤ 1: the power series; `term` is the current term. -/
def expSeries (t : Nat) : Nat → Nat → Nat → Nat
  | 0, _, _ => 0
  | n + 1, k, term => term + expSeries t n (k + 1) (term * t / ((k + 1) * 2 ^ fixBits))

def expFix (t : Nat) : Nat := expSeries t 100 0 (2 ^ fixBits)

/-- Artanh of z in fixed point, z ≤ 1/3. -/
def atanhSeries (z2 : Nat) : Nat → Nat → Nat → Nat
  | 0, _, _ => 0
  | n + 1, k, pw => pw / (2 * k + 1) + atanhSeries z2 n (k + 1) (pw * z2 / 2 ^ fixBits)

/-- log2 of y in fixed point, 1 ≤ y < 2. -/
def log2Fix (y : Nat) : Nat :=
  let z := (y - 2 ^ fixBits) * 2 ^ fixBits / (y + 2 ^ fixBits)
  2 * atanhSeries (z * z / 2 ^ fixBits) 90 0 z * 2 ^ fixBits / ln2Fix

/-- A number in fixed point as an exact result whose lowest bit stands for what is below. -/
def fixExact (neg : Bool) (v : Nat) (e : Int) : Exact := .num neg (2 * v + 1) (e - fixBits - 1)

/-- 2^a. -/
def exp2F : FVal → Exact
  | .nan _ => .nan false
  | .inf n => if n then .num false 0 0 else .inf false false
  | .num neg m e =>
    let x : Int := if neg then -(m : Int) else m
    if 0 ≤ e then
      let k : Int := if 4096 < Nat.log2 m + e.toNat then (if neg then -5000 else 5000) else x * 2 ^ e.toNat
      .num false 1 (max (-5000) (min 5000 k))
    else
      let d : Int := 2 ^ (-e).toNat
      let k := x.fdiv d
      let r := (x - k * d).toNat
      if r = 0 then .num false 1 (max (-5000) (min 5000 k))
      else fixExact false (expFix (r * 2 ^ fixBits / d.toNat * ln2Fix / 2 ^ fixBits)) (max (-5000) (min 5000 k))

/-- log2 a. -/
def log2F : FVal → Exact
  | .nan _ => .nan false
  | .inf n => if n then .nan true else .inf false false
  | .num neg m e =>
    if m = 0 then .inf true false
    else if neg then .nan true
    else
      let k : Int := Nat.log2 m + e
      let y := m * 2 ^ fixBits / 2 ^ Nat.log2 m
      if y = 2 ^ fixBits then .num (k < 0) k.natAbs 0
      else
        let v : Int := k * 2 ^ fixBits + log2Fix y
        if v < 0 then .num true (2 * v.natAbs - 1) (-(fixBits : Int) - 1) else fixExact false v.toNat 0

/-- tanh a. -/
def tanhF : FVal → Exact
  | .nan _ => .nan false
  | .inf n => .num n 1 0
  | .num neg m e =>
    if m = 0 then .num neg 0 0
    else if (Nat.log2 m : Int) + e < -100 then .num neg (m * 4 - 1) (e - 2)
    else
      let t2 : Nat := if 6 < (Nat.log2 m : Int) + e then 128 * 2 ^ fixBits
        else if 0 ≤ e then m * 2 ^ (e.toNat + 1) * 2 ^ fixBits else m * 2 * 2 ^ fixBits / 2 ^ (-e).toNat
      let k := t2 / ln2Fix
      let ex := expFix (t2 - k * ln2Fix) * 2 ^ k
      fixExact neg ((ex - 2 ^ fixBits) * 2 ^ fixBits / (ex + 2 ^ fixBits)) 0

/-- 1/√a. -/
def rsqrtF (bits : Nat) : FVal → Exact
  | .nan _ => .nan false
  | .inf n => if n then .nan true else .num false 0 0
  | .num neg m e =>
    if m = 0 then .inf neg false
    else if neg then .nan true
    else
      let odd : Nat := if e % 2 = 0 then 0 else 1
      let d := m * 2 ^ odd
      let k := bits + Nat.log2 d
      let v := 2 ^ (2 * k) / d
      let q := isqrt v (Nat.log2 v / 2 + 1) 0
      .num false (2 * q + (if q * q * d = 2 ^ (2 * k) then 0 else 1)) (-((e - odd) / 2) - k - 1)

/-- 1/a. -/
def rcpF (f : FloatFmt) (a : FVal) : Exact := divF (f.p + 3) (.num false 1 0) a

/-- The tag of the row for exp2, log2, reciprocals and tanh: clamp(s − 1), with the exact limits exact zeros (Table 3-6). -/
def unaryTag (f : FloatFmt) (a : FVal) (sa : Nat) (e : Exact) (r : FVal) : Nat :=
  match a, r with
  | .inf _, .num _ m _ => if m = 0 then f.p else finalTag f r (isZeroE e) (sa - 1)
  | _, _ => finalTag f r (isZeroE e) (sa - 1)

def laneUnary (op : FloatFmt → FVal → Exact) (f : FloatFmt) : List (FVal × Nat) → Nat × Nat
  | [a] =>
    let e := op f a.1
    let (r, v) := rneF f e
    (r, unaryTag f a.1 a.2 e v)
  | _ => (0, 0)

/-- VRSQ (R207). -/
def execVrsq (n : NodeFields) (s : State) : Out := fpNode s 0x0A n (laneUnary fun f => rsqrtF (f.p + 3))

/-- VRCP (R207). -/
def execVrcp (n : NodeFields) (s : State) : Out := fpNode s 0x0B n (laneUnary rcpF)

/-- VEXP2 (R207). -/
def execVexp2 (n : NodeFields) (s : State) : Out := fpNode s 0x0C n (laneUnary fun _ => exp2F)

/-- VLOG2 (R207). -/
def execVlog2 (n : NodeFields) (s : State) : Out := fpNode s 0x0D n (laneUnary fun _ => log2F)

/-- VTANH (R207). -/
def execVtanh (n : NodeFields) (s : State) : Out := fpNode s 0x0E n (laneUnary fun _ => tanhF)

/-! ### Integer and bitwise nodes (R208) -/

/-- An INDEX token on port a gives an INDEX result with a's scale lane (R208). -/
def Firing.keepIndex (x : Firing) (t : Token) : Token :=
  if (x.a.any fun a => a.kind == kINDEX) && portKind x.nf 0 != 1 then { t with kind := kINDEX, scale := (x.get 0).scale }
  else t

/-- An integer node: one result per lane of the operands' lanes. -/
def intNode (s : State) (opc : BitVec 8) (nf : NodeFields) (lane : Nat → Bool → Nat → Nat → Nat) : Out :=
  fireNode s opc nf fun s x => dataNode s x nf.fmt (fun _ t => isDataIdx t nf.fmt) fun s x =>
    let w := laneBits nf.fmt
    oneOut s x (x.keepIndex (x.intResult nf.fmt ((List.range (laneCount nf.fmt)).map fun i =>
      lane w (isSigned nf.fmt) ((x.get 0).lane w i) ((x.get 1).lane w i))))

/-- An exact integer limited to a lane's range. -/
def satLane (signed : Bool) (w : Nat) (v : Int) : Nat :=
  let lo : Int := if signed then -(2 ^ (w - 1)) else 0
  let hi : Int := if signed then 2 ^ (w - 1) - 1 else 2 ^ w - 1
  (max lo (min hi v) % 2 ^ w).toNat

def wrapLane (w : Nat) (v : Int) : Nat := (v % 2 ^ w).toNat

/-- A sum-like lane: wrapping, or saturating with VAR SAT (1). -/
def addLane (nf : NodeFields) (op : Int → Int → Int) (w : Nat) (sg : Bool) (a b : Nat) : Nat :=
  let v := op (laneInt sg w a) (laneInt sg w b)
  if nf.var = 1 then satLane sg w v else wrapLane w v

/-- VIADD (R208). -/
def execViadd (n : NodeFields) (s : State) : Out := intNode s 0x10 n (addLane n (· + ·))

/-- VISUB (R208). -/
def execVisub (n : NodeFields) (s : State) : Out := intNode s 0x11 n (addLane n (· - ·))

/-- VIMUL: low part, high part or saturated product (R208). -/
def execVimul (n : NodeFields) (s : State) : Out :=
  intNode s 0x12 n fun w sg a b =>
    let v := laneInt sg w a * laneInt sg w b
    match n.var.toNat with
    | 0 => wrapLane w v
    | 1 => wrapLane w (v / 2 ^ w)
    | _ => satLane sg w v

/-- A bitwise node: payload bits, and scale-lane bits of block formats; SIG min(s(a), s(b)) where the format has a p
(R208). -/
def bitNode (s : State) (opc : BitVec 8) (nf : NodeFields) (op : BitVec 512 → BitVec 512 → BitVec 512)
    (ops : BitVec 64 → BitVec 64 → BitVec 64) : Out :=
  fireNode s opc nf fun s x => dataNode s x nf.fmt (fun _ t => isDataIdx t nf.fmt) fun s x =>
    let a := x.get 0
    let b := x.get 1
    let zb := nf.fmt == 0xF || nf.fmt == 0x10
    let t := x.result kDATA nf.fmt (min (tokSig a) (tokSig b)) (op a.payload b.payload)
    oneOut s x (x.keepIndex { t with scale := if zb then ops a.scale b.scale else 0 })

/-- VAND (R208). -/
def execVand (n : NodeFields) (s : State) : Out := bitNode s 0x13 n (· &&& ·) (· &&& ·)

/-- VOR (R208). -/
def execVor (n : NodeFields) (s : State) : Out := bitNode s 0x14 n (· ||| ·) (· ||| ·)

/-- VXOR (R208). -/
def execVxor (n : NodeFields) (s : State) : Out := bitNode s 0x15 n (· ^^^ ·) (· ^^^ ·)

/-- VSHL: by b modulo w (R208). -/
def execVshl (n : NodeFields) (s : State) : Out := intNode s 0x16 n fun w _ a b => a * 2 ^ (b % w) % 2 ^ w

/-- VSHR: logical, or arithmetic with VAR ARI (R208). -/
def execVshr (n : NodeFields) (s : State) : Out :=
  intNode s 0x17 n fun w _ a b =>
    if n.var = 1 then wrapLane w (laneInt true w a / 2 ^ (b % w)) else a / 2 ^ (b % w)

/-! ### Compare and select (R209, R210) -/

/-- The U format of a format's lane width. -/
def uFmt (fmt : BitVec 5) : BitVec 5 :=
  match laneBits fmt with | 8 => 5 | 16 => 6 | 32 => 7 | _ => 8

/-- The relation of a VCMP variant on floating-point values: a NaN makes all false but NE and UN. -/
def cmpF (var : BitVec 3) (a b : FVal) : Bool :=
  let un := isNaN a || isNaN b
  let c := cmpVal a b
  match var.toNat with
  | 0 => !un && c == 0 | 1 => un || c != 0 | 2 => !un && c < 0 | 3 => !un && c ≤ 0
  | 4 => !un && c > 0 | 5 => !un && c ≥ 0 | _ => un

/-- The relation on integers. -/
def cmpI (var : BitVec 3) (a b : Int) : Bool :=
  match var.toNat with
  | 0 => a == b | 1 => a != b | 2 => a < b | 3 => a ≤ b | 4 => a > b | 5 => a ≥ b | _ => false

/-- VCMP: all-ones lanes where the relation holds; PRED is 1 when any lane holds (R209). -/
def execVcmp (n : NodeFields) (s : State) : Out :=
  fireNode s 0x18 n fun s x => dataNode s x (uFmt n.fmt) (fun _ t => isDataIdx t n.fmt) fun s x =>
    let w := laneBits n.fmt
    let hold (i : Nat) : Bool :=
      let a := (x.get 0).lane w i
      let b := (x.get 1).lane w i
      match fmtFloat n.fmt with
      | some f => cmpF n.var (decodeF f a) (decodeF f b)
      | none => cmpI n.var (laneInt (isSigned n.fmt) w a) (laneInt (isSigned n.fmt) w b)
    let hs := (List.range (laneCount n.fmt)).map hold
    let t := x.intResult (uFmt n.fmt) (hs.map fun h => if h then 2 ^ w - 1 else 0)
    oneOut s x { t with pred := hs.any id }

/-- An I or U format of a lane width. -/
def intOfWidth (fmt : BitVec 5) (w : Nat) : Bool := isINT fmt && laneBits fmt == w

/-- VSEL: b's lane where a's lane is nonzero, else c's; SIG the least of the operands that delivered a lane (R210). -/
def execVsel (n : NodeFields) (s : State) : Out :=
  fireNode s 0x19 n fun s x =>
    let ok (i : BitVec 2) (t : Token) : Bool :=
      if i = 0 then (t.kind == kDATA || t.kind == kINDEX) && intOfWidth t.fmt (laneBits n.fmt) else isDataIdx t n.fmt
    dataNode s x n.fmt ok fun s x =>
      let w := laneBits n.fmt
      let sel := (List.range (laneCount n.fmt)).map fun i => (x.get 0).lane w i != 0
      let ls := sel.zipIdx.map fun (b, i) => if b then (x.get 1).lane w i else (x.get 2).lane w i
      let sigs := (if sel.any id then [tokSig (x.get 1)] else []) ++ (if sel.all id then [] else [tokSig (x.get 2)])
      oneOut s x (x.result kDATA n.fmt (sigs.min?.getD 0) (packLanes w ls))

/-! ### Reductions and scans (R211 to R214) -/

/-- A lane with its tag: a floating-point value, computed in FP32, or an integer. -/
inductive Elt where
  | fp (v : FVal) (s : Nat)
  | int (v : Int)
deriving DecidableEq, Repr

def eltOf (fmt : BitVec 5) (t : Token) (i : Nat) : Elt :=
  let w := laneBits fmt
  match fmtFloat fmt with
  | some f => .fp (decodeF f (t.lane w i)) (min t.sig.toNat f.p)
  | none => .int (laneInt (isSigned fmt) w (t.lane w i))

/-- One step in FP32: the add rule. -/
def addElt : Elt → Elt → Elt
  | .fp a sa, .fp b sb =>
    let e := addF .rne a b
    let (_, v) := rneF fp32 e
    .fp v (sumTag fp32 a b sa sb e v)
  | .int a, .int b => .int (a + b)
  | a, _ => a

/-- One minimum or maximum step: the delivered operand with its tag. -/
def mmElt (mx : Bool) : Elt → Elt → Elt
  | .fp a sa, .fp b sb => match minMax mx a b with
    | none => .fp (.nan false) 0
    | some fromA => if fromA then .fp a (finalTag fp32 a true sa) else .fp b (finalTag fp32 b true sb)
  | .int a, .int b => .int (if mx then max a b else min a b)
  | a, _ => a

/-- Rounds an element to the node's format: lane and tag. -/
def narrowElt (fmt : BitVec 5) : Elt → Nat × Nat
  | .fp v s =>
    let f := (fmtFloat fmt).getD fp32
    let (r, v') := rneF f (exactOf v)
    (r, cvtTag fp32 f s (isZeroV v) v')
  | .int v => (wrapLane (laneBits fmt) v, 0)

/-- One level of the tree: neighbours combined, an odd last element passed on. -/
def treeLevel (op : Elt → Elt → Elt) : List Elt → List Elt
  | a :: b :: l => op a b :: treeLevel op l
  | l => l

/-- The fixed tree of R211; seven levels reduce 64 lanes. -/
def treeRed (op : Elt → Elt → Elt) : Nat → List Elt → List Elt
  | 0, l => l
  | k + 1, l => treeRed op k (treeLevel op l)

/-- A reduction of lanes 0 to N − 1 in lane 0 or in every lane (R211). -/
def redNode (s : State) (opc : BitVec 8) (nf : NodeFields) (op : Elt → Elt → Elt) : Out :=
  fireNode s opc nf fun s x => dataNode s x nf.fmt (fun _ t => isDataIdx t nf.fmt) fun s x =>
    let n := (nf.imm.extractLsb' 0 7).toNat
    let v := treeRed op 7 ((List.range n).map (eltOf nf.fmt (x.get 0)))
    let (r, tag) := narrowElt nf.fmt (v.headD (.int 0))
    let ls := if nf.var = 1 then List.replicate (laneCount nf.fmt) r else [r]
    sigOut s x (x.result kDATA nf.fmt (if (fmtP nf.fmt).isSome then tag else 0) (packLanes (laneBits nf.fmt) ls))

/-- VRSUM (R211). -/
def execVrsum (n : NodeFields) (s : State) : Out := redNode s 0x20 n addElt

/-- VRMAX (R211). -/
def execVrmax (n : NodeFields) (s : State) : Out := redNode s 0x21 n (mmElt true)

/-- VRMIN (R211). -/
def execVrmin (n : NodeFields) (s : State) : Out := redNode s 0x22 n (mmElt false)

/-- The greatest lane under the order of VMAX: NaNs skipped, ties to the lowest lane (R213). -/
def argMax (fmt : BitVec 5) (t : Token) (n : Nat) : Option (Nat × Elt) :=
  (List.range n).foldl (fun best i =>
    let e := eltOf fmt t i
    match e, best with
    | .fp (.nan _) _, _ => best
    | _, none => some (i, e)
    | .fp v _, some (_, .fp b _) => if ltTotal b v then some (i, e) else best
    | .int v, some (_, .int b) => if b < v then some (i, e) else best
    | _, _ => best) none

/-- VARGMX: the index, or the value in every lane (R213). -/
def execVargmx (n : NodeFields) (s : State) : Out :=
  let rf : BitVec 5 := if n.var = 0 then 7 else n.fmt
  fireNode s 0x23 n fun s x => dataNode s x rf (fun _ t => isDataIdx t n.fmt) fun s x =>
    let a := x.get 0
    let best := argMax n.fmt a (n.imm.extractLsb' 0 7).toNat
    if n.var = 0 then oneOut s x (x.intResult 7 [(best.map (·.1)).getD 0])
    else
      let w := laneBits n.fmt
      let (v, sig) := match best with
        | some (i, _) => (a.lane w i, tokSig a)
        | none => (canonNaN x.ff, 0)
      oneOut s x (x.result kDATA n.fmt sig (packLanes w (List.replicate (laneCount n.fmt) v)))

/-- The scan of R214: lanes before or after each step. -/
def scanLanes (op : Elt → Elt → Elt) (excl : Bool) : Option Elt → List Elt → List Elt
  | _, [] => []
  | c, e :: es =>
    let s' := match c with | some c => op c e | none => e
    (if excl then c.getD e else s') :: scanLanes op excl (some s') es

/-- VSCAN: ADD, XADD, MAX or MIN over the lanes, with a carry-in on port b (R214). -/
def execVscan (n : NodeFields) (s : State) : Out :=
  fireNode s 0x24 n fun s x => dataNode s x n.fmt (fun _ t => isDataIdx t n.fmt) fun s x =>
    let es := (List.range (laneCount n.fmt)).map (eltOf n.fmt (x.get 0))
    let zero : Elt := match fmtFloat n.fmt with | some _ => .fp (.num false 0 0) fp32.p | none => .int 0
    let carry := match x.b with
      | some b => some (eltOf n.fmt b 0)
      | none => if n.var.toNat < 2 then some zero else none
    let op := match n.var.toNat with | 0 | 1 => addElt | 2 => mmElt true | _ => mmElt false
    let rs := (scanLanes op (n.var == 1) carry es).map (narrowElt n.fmt)
    sigOut s x (if (fmtP n.fmt).isSome then x.fpResult n.fmt rs else x.intResult n.fmt (rs.map (·.1)))

/-! ### Permute, broadcast, popcount (R215, R216) -/

/-- VPERM (R215). -/
def execVperm (n : NodeFields) (s : State) : Out :=
  let w16 := n.imm.getLsbD 4
  let ifmt : BitVec 5 := if w16 then 6 else 5
  let ok (i : BitVec 2) (t : Token) : Bool := if i = 0 then isDataIdx t n.fmt else isDataIdx t ifmt
  fireNode s 0x25 n fun s x => dataNode s x n.fmt ok fun s x =>
    let m := if w16 then 32 else 64
    let j := (n.imm.extractLsb' 0 4).toNat
    let a := x.get 0
    let w := laneBits n.fmt
    let cnt := laneCount n.fmt
    let idx (k : Nat) : Nat := (x.get 1).lane (laneBits ifmt) k
    let live := (List.range m).filter fun k => j * m + k < cnt
    if n.var = 1 && live.any (fun k => cnt ≤ idx k) then errOut s x cINDEX_RANGE
    else
      let ls := (List.range cnt).map fun i =>
        if j * m ≤ i && i < j * m + m then
          let v := idx (i - j * m)
          if v < cnt then a.lane w v else 0
        else 0
      let t := x.result kDATA n.fmt (tokSig a) (packLanes w ls)
      oneOut s x { t with scale := if n.fmt == 0xF || n.fmt == 0x10 then a.scale else 0 }

/-- VBCAST: lane K in every lane (R215). -/
def execVbcast (n : NodeFields) (s : State) : Out :=
  fireNode s 0x26 n fun s x => dataNode s x n.fmt (fun _ t => isDataIdx t n.fmt) fun s x =>
    let w := laneBits n.fmt
    let v := (x.get 0).lane w (n.imm.extractLsb' 0 7).toNat
    oneOut s x (x.result kDATA n.fmt (tokSig (x.get 0)) (packLanes w (List.replicate (laneCount n.fmt) v)))

/-- The nonzero test of R55 on a lane. -/
def laneNonzero (fmt : BitVec 5) (v : Nat) : Bool :=
  match fmt.toNat with
  | 9 => v % 2 ^ 63 != 0 | 0xA => v % 2 ^ 31 != 0 | 0xB | 0xC => v % 2 ^ 15 != 0 | 0xD | 0xE => v % 2 ^ 7 != 0
  | 0xF => v % 64 != 0 | 0x10 => v % 4 != 0 | 0x12 => v != 0xFFFFFFFF | 0x13 => v % 65536 != 0xFFFF
  | _ => v != 0

/-- Number of 1 bits of a lane. -/
def bitCount (w v : Nat) : Nat := ((List.range w).map fun i => v / 2 ^ i % 2).sum

/-- VPOPC: count, map or lane populations (R216). -/
def execVpopc (n : NodeFields) (s : State) : Out :=
  let rf : BitVec 5 := match n.var.toNat with | 0 => 7 | 1 => 0x11 | _ => n.fmt
  fireNode s 0x27 n fun s x => dataNode s x rf (fun _ t => isDataIdx t n.fmt) fun s x =>
    let ls := (x.get 0).lanes
    let nz := ls.map fun v => if laneNonzero n.fmt v then 1 else 0
    oneOut s x (x.intResult rf (match n.var.toNat with
      | 0 => [nz.sum] | 1 => nz | _ => ls.map (bitCount (laneBits n.fmt))))

/-! ### Butterfly and significance (R223 to R225) -/

/-- A sum lane of two FP32 elements with its tag. -/
def bflyLane (sub : Bool) (a b : FVal × Nat) : Nat × Nat :=
  lane2 (fun u v => addF .rne u (if sub then v.negate else v)) sumTag fp32 [a, b]

/-- BFLY (R223). -/
def execBfly (n : NodeFields) (s : State) : Out :=
  let st := (n.imm.extractLsb' 0 3).toNat
  fireNode s 0x34 n fun s x => dataNode s x 0xA (fun _ t => isData t 0xA) fun s x =>
    let a := x.get 0
    let ls := (List.range 16).map fun i =>
      if st = 4 then bflyLane (n.var == 1) (fpLane fp32 a i) (fpLane fp32 (x.get 1) i)
      else if i / 2 ^ st % 2 = 0 then bflyLane false (fpLane fp32 a i) (fpLane fp32 a (i + 2 ^ st))
      else bflyLane true (fpLane fp32 a (i - 2 ^ st)) (fpLane fp32 a i)
    sigOut s x (x.fpResult 0xA ls)

/-- VSIG: GET, SET, LOWER (R224). DESIGN CHOICE (log 97): a scale lane that a non-ZB token holds is one of the fields left unchanged. -/
def execVsig (n : NodeFields) (s : State) : Out :=
  let rf : BitVec 5 := if n.var = 0 then 5 else n.fmt
  let ok (i : BitVec 2) (t : Token) : Bool := if i = 0 then isData t n.fmt else isDataIdx t 5
  fireNode s 0x35 n fun s x => dataNode s x rf ok fun s x =>
    let a := x.get 0
    let p := (fmtP n.fmt).getD 0
    let v := if portKind n 1 == 1 then (n.imm.extractLsb' 0 7).toNat else (x.get 1).lane 8 0
    match n.var.toNat with
    | 0 => oneOut s x (x.intResult 5 [tokSig a])
    | 1 => oneOut s x { x.retag a with sig := BitVec.ofNat 7 (min v p) }
    | _ => oneOut s x { x.retag a with sig := BitVec.ofNat 7 (min (min a.sig.toNat v) p) }

/-- SIGCHK: sets PRED by the threshold, or parks with SIGLOW below it (R225); the scale lane as for VSIG (log 97). -/
def execSigchk (n : NodeFields) (s : State) : Out :=
  fireNode s 0x36 n fun s x => dataNode s x n.fmt (fun _ t => isData t n.fmt) fun s x =>
    let a := x.get 0
    let high := (n.imm.extractLsb' 0 7).toNat ≤ tokSig a
    if n.var = 0 then oneOut s x { x.retag a with pred := high }
    else if high then oneOut s x (x.retag a)
    else .park cSIGLOW x.info (some a)

end Sys2Proof.Machine
end

