-- ==== Sys2Proof/Machine/Flow.lean ====
section
/-!
DEFINITION. Flow nodes (13_node_flow.md): steering, merging and reordering, tagged loops and calls with the context table
(R29 to R33, R250 to R253), stops, delays, sinks, copies, counts, constants, cohorts. Counter chains and sparse iteration
are in Chains.lean.
-/

namespace Sys2Proof.Machine

open Sys2Proof

/-! ### Common behaviour (R241 to R243) -/

/-- A BUBBLE in the place of a token: its tag and FMT, SIG 0, PRED 0 (R242, R246). -/
def Token.bubble (t : Token) : Token := { t with kind := kBUBBLE, sig := 0, pred := false, scale := 0, payload := 0 }

/-- A firing that takes one port alone. -/
def Firing.alone (x : Firing) (i : BitVec 2) : Firing :=
  { x with
    a := if i = 0 then x.a else none
    b := if i = 1 then x.b else none
    c := if i = 2 then x.c else none
    p := none }

/-- A token of reserved FMT among those taken (R49, R241). -/
def Firing.badFmt (x : Firing) : Bool := x.toks.any fun t => fmtReserved t.fmt

/-- error(c) on every enabled route with its PFQ entry, consuming some ports; the activation continues (R243). DESIGN CHOICE (log 101):
of a SWITCH, error(FMT_BAD) too leaves on ROUTE0, for its own target, and on ROUTE1. -/
def errEat (s : State) (x : Firing) (eat : List (BitVec 2)) (c : BitVec 8) : NodeRes :=
  .out (noteFault s x.n c x.info) eat [both (x.error c)] 0

/-- The check every flow node that passes any FMT makes. -/
def flowChecked (s : State) (x : Firing) (eat : List (BitVec 2)) (k : NodeRes) : NodeRes :=
  if x.badFmt then errEat s x eat cFMT_BAD else k

/-- Fires a node that takes every token port. -/
def flowNode (s : State) (opc : BitVec 8) (nf : NodeFields) (k : State → Firing → NodeRes) : Out :=
  fireNode s opc nf fun s x => if x.ready then flowChecked s x (tokPorts nf) (k s x) else .wait

/-- Consumes every token port with results for ROUTE0 and ROUTE1. -/
def flowOut (s : State) (x : Firing) (p : Pair) : NodeRes := .out s (tokPorts x.nf) [p] 0

/-! ### Steering and selecting -/

/-- STEER (R246): a STOP on a fires alone. DESIGN CHOICE (log 100): with ARITY 1 an ERROR or BUBBLE on a goes by its own PRED, as data. -/
def execSteer (n : NodeFields) (s : State) : Out :=
  fireNode s 0x50 n fun s x =>
    match x.a with
    | none => .wait
    | some a =>
      if a.kind == kSTOP && n.ka == 0 then
        let y := x.alone 0
        flowChecked s y [0] (.out s [0] [both a] 0)
      else if !x.ready then .wait
      else flowChecked s x (tokPorts n) <|
        let d := if n.arity == 2 then x.b.getD a else a
        if n.arity == 2 && d.kind == kERROR then oneOut s x (x.retag d)
        else if a.kind == kSTOP then oneOut s x a
        else if n.arity == 2 && d.kind == kBUBBLE then oneOut s x a.bubble
        else
          let other := if n.var == 1 then some a.bubble else none
          flowOut s x (if d.pred then (some a, other) else (other, some a))

/-- NEXT (R253): a's token by b's PRED; an ERROR on b leaves on ROUTE1 only (R242). -/
def execNext (n : NodeFields) (s : State) : Out :=
  flowNode s 0x54 n fun s x =>
    match x.a, x.b with
    | some a, some d =>
      if d.kind == kERROR then flowOut s x (none, some (x.retag d))
      else if d.kind == kBUBBLE then oneOut s x a.bubble
      else flowOut s x (if d.pred then (some a, none) else (none, some a))
    | _, _ => .wait

/-- An index: lane 0, unsigned (R242). -/
def indexOf (t : Token) : Nat := t.lane (laneBits t.fmt) 0

/-- SELX (R248). DESIGN CHOICE (log 99): a BUBBLE on the index port gives b's BUBBLE. -/
def execSelx (n : NodeFields) (s : State) : Out :=
  flowNode s 0x61 n fun s x =>
    match x.a, x.b, x.c with
    | some i, some b, some c =>
      if i.kind == kERROR then oneOut s x (x.retag i)
      else if i.kind == kBUBBLE then oneOut s x b.bubble
      else match indexOf i with
        | 0 => oneOut s x b
        | 1 => oneOut s x c
        | _ => errOut s x cINDEX_RANGE
    | _, _, _ => .wait

/-- Destination i of a SWITCH (R247): tile and slot. -/
def switchDest (n : NodeFields) (row : BitVec 5) (col : BitVec 6) (i : Nat) : Dest × BitVec 6 :=
  let d := routeDest n.route0 row col
  (⟨d.row + i * (n.imm.extractLsb' 19 6).toInt, d.col + i * (n.imm.extractLsb' 12 7).toInt⟩,
    n.route0.extractLsb' 12 6 + BitVec.ofNat 6 (i * (n.imm.extractLsb' 6 6).toNat))

/-- The departure of a token to destination i, when ROUTE0 is enabled. -/
def switchDep (n : NodeFields) (row : BitVec 5) (col : BitVec 6) (t : Token) (i : Nat) : List Dep :=
  let (d, slot) := switchDest n row col i
  if n.route0.getLsbD 31 then
    [⟨false, d, { t with drow := BitVec.ofInt 5 d.row, dcol := BitVec.ofInt 6 d.col, node := slot,
                         port := n.route0.extractLsb' 10 2 }⟩]
  else []

/-- SWITCH (R247): one entry whose token departs to the chosen destination, or to all N of them. -/
def execSwitch (n : NodeFields) (s : State) : Out :=
  flowNode s 0x60 n fun s x =>
    let cnt := (n.imm.extractLsb' 0 6).toNat + 1
    let all (t : Token) : NodeRes :=
      .sent s (tokPorts n) [(List.range cnt).flatMap (switchDep n x.n.row x.n.col t)] (some t)
    match x.a, x.b with
    | some a, some i =>
      if i.kind == kERROR then flowOut s x (none, some (x.retag i))
      else if i.kind == kBUBBLE then all a.bubble
      else if a.kind == kSTOP then all a
      else if indexOf i < cnt then .sent s (tokPorts n) [switchDep n x.n.row x.n.col a (indexOf i)] (some a)
      else .out (noteFault s x.n cINDEX_RANGE x.info) (tokPorts n) [(none, some (x.error cINDEX_RANGE))] 0
    | _, _ => .wait

/-! ### Merging and reordering (R249) -/

/-- An unordered MERGE: the earlier-arrived head, a before b at equal arrival. -/
def mergePort (x : Firing) : Option (BitVec 2) :=
  match x.arr with
  | [] => none
  | (i, t) :: rest => some ((rest.foldl (fun (best : BitVec 2 × Word) y => if y.2.toNat < best.2.toNat then y else best) (i, t)).1)

def ordKey (seqKey : Bool) (t : Token) : BitVec 16 := if seqKey then t.seq else t.iter

/-- The window of an ordered MERGE or a REORD. -/
def ordWindow (opc : BitVec 8) (n : NodeFields) : Nat :=
  if opc == 0x52 then 64 * ((n.imm.extractLsb' 16 2).toNat + 1) else 64

/-- The counter of a context, new ones at 0 or START. -/
def ordCtr (y : NodeSt) (n : NodeFields) (c : BitVec 12) : OrdCtr :=
  (y.ctrs.find? (·.ctx == c)).getD ⟨c, if n.var == 1 then n.imm.extractLsb' 0 16 else 0, 0, []⟩

/-- What becomes of an arriving token: it waits for want of a counter; it waits and stops its stream; it is inconsistent;
it is held. -/
inductive OrdArr where | counters | window | state | hold
deriving DecidableEq

def ordArr (y : NodeSt) (opc : BitVec 8) (n : NodeFields) (t : Token) : OrdArr :=
  if !(y.ctrs.any (·.ctx == t.ctx)) && 16 ≤ y.ctrs.length then .counters
  else
    let k := ordCtr y n t.ctx
    let d := ordKey (n.var == 1) t - k.next
    if 32768 ≤ d.toNat || k.held.any (fun h => ordKey (n.var == 1) h == ordKey (n.var == 1) t) then .state
    else if ordWindow opc n ≤ d.toNat || ordWindow opc n ≤ (y.ctrs.map (·.held.length)).sum then .window
    else .hold

/-- The head of a port's stream that stops what follows it: the earliest waiting token of the port, of an activation that
is neither parked nor dead, which waits beyond the window. -/
def streamStopped (s : State) (y : NodeSt) (opc : BitVec 8) (n : NodeFields) (at_ : Site) (i : BitVec 2) : Bool :=
  let f := s.fab at_.r
  let mine (w : WaitTok) : Bool := w.tok.drow == at_.row && w.tok.dcol == at_.col && w.tok.node == at_.slot && w.tok.port == i
  let before := (f.waiting.filter mine).takeWhile fun w => !(w.tok.ctx == at_.ctx && w.tok.iter == at_.iter)
  before.any fun w => !isParked f w.tok.ctx w.tok.iter && !isDead f w.tok.ctx w.tok.iter && ordArr y opc n w.tok == .window

/-- The due token of a counter: its key is E(c). -/
def dueOf (n : NodeFields) (k : OrdCtr) : Option Token := k.held.find? fun t => ordKey (n.var == 1) t == k.next

/-- The due token a node emits first: counters are kept in the order in which they last became due. -/
def dueTok (f : Fabric) (y : NodeSt) (n : NodeFields) : Option Token :=
  (y.ctrs.filterMap (dueOf n)).find? fun t => !isParked f t.ctx t.iter && !isDead f t.ctx t.iter

/-- Replaces a counter and puts it last. -/
def setCtr (y : NodeSt) (k : OrdCtr) : NodeSt := { y with ctrs := y.ctrs.filter (·.ctx != k.ctx) ++ [k] }

/-- Emits a due token: E advances. -/
def takeDue (y : NodeSt) (n : NodeFields) (now : Word) (t : Token) : NodeSt :=
  let k := ordCtr y n t.ctx
  setCtr y { k with next := k.next + 1, dueAt := now, held := eraseFirst (fun h => ordKey (n.var == 1) h == ordKey (n.var == 1) t) k.held }

/-- Takes an arriving token into the window; a counter whose key becomes due moves last. -/
def takeArr (y : NodeSt) (n : NodeFields) (now : Word) (t : Token) : NodeSt :=
  let k := ordCtr y n t.ctx
  let k' := { k with held := k.held ++ [t] }
  if ordKey (n.var == 1) t == k.next then setCtr y { k' with dueAt := now }
  else { y with ctrs := y.ctrs.map fun c => if c.ctx == t.ctx then k' else c }

/-- A token of a context without a counter takes one before it is tested (R249). -/
def withCtr (y : NodeSt) (n : NodeFields) (t : Token) : NodeSt :=
  if y.ctrs.any (·.ctx == t.ctx) then y else { y with ctrs := y.ctrs ++ [ordCtr y n t.ctx] }

/-- A firing of an ordered MERGE or a REORD on one port's head. -/
def ordFire (s : State) (opc : BitVec 8) (n : NodeFields) (x : Firing) (i : BitVec 2) : NodeRes :=
  match x.port i with
  | none => .wait
  | some t =>
    let y := s.node x.n
    let z := x.alone i
    if streamStopped s y opc n x.n i then .wait
    else if fmtReserved t.fmt then errEat s z [i] cFMT_BAD
    else match ordArr y opc n t with
      | .counters => .wait
      | .window => .idle (s.updNode x.n fun y => withCtr y n t)
      | .state => errEat (s.updNode x.n fun y => withCtr y n t) z [i] cFLOW_STATE
      | .hold =>
        let y := takeArr (withCtr y n t) n s.fclock t
        match dueTok (s.fab x.n.r) y n with
        | some d => .out (s.updNode x.n fun _ => takeDue y n s.fclock d) [i] [both d] 0
        | none => .out (s.updNode x.n fun _ => y) [i] [] 0

/-- The first of two rules that fires, the second in the state that the first leaves. -/
def orElseRes (s : State) (a : NodeRes) (b : State → NodeRes) : NodeRes :=
  match a with
  | .wait => b s
  | .idle s => (match b s with | .wait => .idle s | r => r)
  | r => r

/-- MERGE (R249): fires on either port. -/
def execMerge (n : NodeFields) (s : State) : Out :=
  fireNode s 0x51 n fun s x =>
    match mergePort x with
    | none => .wait
    | some i =>
      if fORD n then orElseRes s (ordFire s 0x51 n x i) fun s => ordFire s 0x51 n x (if i = 0 then 1 else 0)
      else match x.port i with
        | some t => flowChecked s (x.alone i) [i] (.out s [i] [both t] 0)
        | none => .wait

/-- REORD (R249). -/
def execReord (n : NodeFields) (s : State) : Out := fireNode s 0x52 n fun s x => ordFire s 0x52 n x 0

/-- REORDER_DUE_EMIT: an ordered MERGE or a REORD emits a due token, consuming nothing; `n` names the node and the
token's activation (R249). -/
def execReorderDueEmit (n : Site) (s : State) : Out :=
  let s := { s with site := n }
  match fieldsAt s n.r n.row n.col n.slot with
  | some (opc, nf) =>
    let y := s.node n
    if (opc == 0x52 || (opc == 0x51 && fORD nf)) && canFire s then
      match dueTok (s.fab n.r) y nf with
      | some d =>
        if d.ctx == n.ctx && d.iter == n.iter then
          let x : Firing := ⟨n, opc, nf, none, none, none, none, []⟩
          let s := s.updNode n fun _ => takeDue y nf s.fclock d
          .next (finishFire s x [] [departures (s.fab n.r) nf n.row n.col (some d) (some d)] (some d) 0)
        else .next s
      | none => .next s
    else .next s
  | none => .next s

/-! ### Contexts, loops and calls (R29 to R33, R250 to R253) -/

/-- LOOP nodes of a configuration as (LID, W, PLID, ENTRY, HEAD). -/
def loopNodes (g : Cfg) : List (BitVec 6 × Nat × BitVec 6 × Nat × Bool) :=
  g.nodes.filterMap fun x =>
    let n := nodeFields x.word
    if x.word.extractLsb' 0 8 == 0x53#8 then
      some (n.imm.extractLsb' 0 6, (n.imm.extractLsb' 6 8).toNat + 1, n.imm.extractLsb' 14 6,
        (n.imm.extractLsb' 20 2).toNat, n.var == 1)
    else none

/-- The loop of a LID, by its HEAD. -/
def loopOf (g : Cfg) (lid : BitVec 6) : Option (Nat × BitVec 6 × Nat) :=
  ((loopNodes g).find? fun l => l.1 == lid && l.2.2.2.2).map fun l => (l.2.1, l.2.2.1, l.2.2.2.1)

/-- Is a loop's chain of enclosing loops closed at a loop of another entry (R251)? A LID has six bits, so a chain of more than 64
links has a cycle. -/
def chainOk (g : Cfg) : Nat → BitVec 6 → Bool
  | 0, _ => false
  | k + 1, lid => match loopOf g lid with
    | none => false
    | some (_, plid, e) => if e = 1 then chainOk g k plid else true

/-- Product of the windows of the loops that enclose a loop, along its chain (R31). -/
def enclosing (g : Cfg) : Nat → BitVec 6 → Nat
  | 0, _ => 1
  | k + 1, lid => match loopOf g lid with
    | some (_, plid, 1) => (match loopOf g plid with | some (w, _, _) => w | none => 1) * enclosing g k plid
    | _ => 1

/-- The reserved count C (R31). A loop whose chain does not close has no product and adds nothing: check 6 refuses it (R251;
log 75). -/
def reservedCount (g : Cfg) : Nat :=
  1 + ((loopNodes g).filterMap fun l =>
    if l.2.2.2.2 && l.2.2.2.1 < 2 && chainOk g 65 l.1 then some (enclosing g 64 l.1) else none).sum

/-- Does a binding draw on the unreserved contexts: a call, or a loop of ENTRY 2? -/
def unreserved (g : Cfg) (b : Binding) : Bool :=
  match b.lid with
  | none => true
  | some l => match loopOf g l with | some (_, _, e) => e == 2 | none => false

/-- Contexts in the pool (R29). -/
def freeContexts (f : Fabric) : List (BitVec 12) :=
  ((List.range 4095).map fun i => BitVec.ofNat 12 (i + 1)).filter fun c => !f.bindings.any (·.ctx == c)

/-- Calls and entries of ENTRY 2 that their nodes hold for want of a context, the longest held first, in equal time by tile and slot. -/
def heldCalls (s : State) (r : RegionId) : List Site :=
  let f := s.fab r
  let held := f.nodes.flatMap fun y => match fieldsAt s r y.row y.col y.slot with
    | some (opc, _) => if opc == 0x56 || opc == 0x53 then y.held.map fun e => ((⟨r, y.row, y.col, y.slot, e.1.ctx, e.1.iter⟩ : Site), e.2) else []
    | none => []
  let place (n : Site) : Nat := (n.row ++ n.col ++ n.slot).toNat
  let before (a b : Site × Word) : Bool := decide (a.2.toNat < b.2.toNat ∨ (a.2 = b.2 ∧ place a.1 ≤ place b.1))
  (sortBy before (held.filter fun e => !isParked f e.1.ctx e.1.iter && !isDead f e.1.ctx e.1.iter)).map (·.1)

/-- What drawing a context comes to: one drawn, none left, or a replay's draw of another node comes first. -/
inductive Draw where
  | got (c : BitVec 12)
  | dry
  | later
deriving DecidableEq

/-- Draws a fresh context: which of the free ones is open, but the same in a replay as in the run it replays (R391; log 21). Calls and
entries of ENTRY 2 draw on the unreserved 4,096 − C only, and those held for longer take the first that become free (R31, R32). -/
def drawContext (s : State) (n : Site) (g : Cfg) (unres : Bool) : Draw :=
  let f := s.fab n.r
  let free := freeContexts f
  match nextDraw s n.r with
  | some d =>
    if !d.of n then .later
    else match d.what with
      | .dry => .dry
      | .context c => if free.contains c then .got c else .later
      | .expired | .ports _ => .later
  | none =>
    let ahead := (heldCalls s n.r).takeWhile (· != n)
    if unres && 4096 - reservedCount g ≤ f.bindings.countP (unreserved g) + ahead.length then .dry
    else match free[runFree s n % free.length]? with | some c => .got c | none => .dry

/-- The open binding of a context. -/
def openBinding (f : Fabric) (c : BitVec 12) : Option Binding := f.bindings.find? fun b => b.ctx == c && !b.closed

/-- Members of a cohort. -/
def members (f : Fabric) (k : BitVec 6) : List (BitVec 12 × BitVec 16) := (f.cohorts.filter (·.1 == k)).map (·.2)

/-- Releases the CBARs of a cohort whose held members are its whole membership (R33, R264): the held tokens are left
pending, in arrival order, one firing each. -/
def sweepBarriers (s : State) (r : RegionId) (k : BitVec 6) : State :=
  let f := s.fab r
  let ms := members f k
  let release (f : Fabric) (y : NodeSt) : Fabric :=
    match fieldsAt s r y.row y.col y.slot with
    | some (opc, n) =>
      if opc == 0x64 && n.imm.extractLsb' 0 6 == k && !y.held.isEmpty &&
          ms.all (fun m => y.held.any fun h => h.1.ctx == m.1 && h.1.iter == m.2) then
        setNodeSt f { y with
          pend := y.pend ++ ((y.held.map fun h => departures f n y.row y.col (some h.1) (some h.1)).filter (!·.isEmpty))
          held := [] }
      else f
    | none => f
  s.updFab r fun f => f.nodes.foldl release f

/-- Has a cohort seen a leave (false) or an arrival (true) in this fc? What comes before it in the order joins, leaves, arrivals
then takes effect in a later fc (R33, R265). -/
def cohNow (s : State) (r : RegionId) (k : BitVec 6) (arrival : Bool) : Bool := (s.fab r).cohFc.contains (k, arrival, s.fclock)

/-- Notes a leave or an arrival at a cohort. -/
def noteCoh (s : State) (r : RegionId) (k : BitVec 6) (arrival : Bool) : State :=
  s.updFab r fun f => { f with
    cohFc := (k, arrival, s.fclock) :: f.cohFc.filter fun x => !(x.1 == k && x.2.1 == arrival) }

/-- Must a retirement wait: a cohort it leaves has seen an arrival in this fc (R33)? -/
def leaveWaits (s : State) (r : RegionId) (gone : BitVec 12 × BitVec 16 → Bool) : Bool :=
  (s.fab r).cohorts.any fun m => gone m.2 && cohNow s r m.1 true

/-- Cohorts that the CJOIN nodes of a region name. -/
def joinable (s : State) (r : RegionId) : List (BitVec 6) := match (s.ctl r).cfg with
  | some g => g.nodes.filterMap fun x => if x.word.extractLsb' 0 8 == 0x62#8 then some ((nodeFields x.word).imm.extractLsb' 0 6) else none
  | none => []

/-- An activation set leaves its cohorts (R33). Its retirement is a leave at the others too: a join of it in this fc would come
first (R265). -/
def leaveCohorts (s : State) (r : RegionId) (gone : BitVec 12 × BitVec 16 → Bool) : State :=
  let ks := ((((s.fab r).cohorts.filter fun m => gone m.2).map (·.1)) ++ joinable s r).dedup
  let s := s.updFab r fun f => { f with cohorts := f.cohorts.filter (fun m => !gone m.2) }
  ks.foldl (fun s k => sweepBarriers (noteCoh s r k false) r k) s

/-- Closes a binding: its activations retire from their cohorts, its context will return once `id` has left (R30, R33,
R253). -/
def closeBinding (s : State) (r : RegionId) (c : BitVec 12) (id : Option Nat) : State :=
  let s := s.updFab r fun f => { f with
    bindings := f.bindings.map fun b => if b.ctx == c then { b with closed := true } else b
    retiring := f.retiring ++ [(c, id)] }
  leaveCohorts s r fun m => m.1 == c

/-- Adds the binding of a context that a node has drawn. -/
def addBinding (s : State) (n : Site) (b : Binding) : State :=
  tookFree ((noteChoice s n (.context b.ctx)).updFab n.r fun f => { f with bindings := f.bindings ++ [b] }) n

/-- A token that found no unreserved context: it parks at once when CTXWAIT is 0, else its node holds it (R32). `h` tells
that the node holds it already. -/
def dryDraw (s : State) (x : Firing) (t : Token) (h : Bool) : NodeRes :=
  if h then .wait
  else if (s.ctl x.n.r).ctxwait.extractLsb' 0 32 == 0#32 then .park cCTX_DRY x.info none
  else .out ((noteChoice s x.n .dry).updNode x.n fun y => { y with held := y.held ++ [(t, s.fclock)] }) [0] [] 0

/-- Drops a held token of an activation. -/
def dropHeld (s : State) (n : Site) (h : Bool) : State :=
  if h then s.updNode n fun y => { y with held := eraseFirst (fun e => e.1.ctx == n.ctx && e.1.iter == n.iter) y.held } else s

/-- The token of the site's activation that its node holds for want of a context. -/
def heldTok (s : State) (n : Site) : Option Token :=
  ((s.node n).held.find? fun e => e.1.ctx == n.ctx && e.1.iter == n.iter).map (·.1)

/-- Does a loop entry come from where ENTRY and PLID say (R251)? -/
def entryOk (f : Fabric) (n : NodeFields) (t : Token) : Bool :=
  match (n.imm.extractLsb' 20 2).toNat with
  | 0 => t.ctx == 0 && t.iter == 0
  | 1 => (openBinding f t.ctx).any fun b => b.lid == some (n.imm.extractLsb' 14 6)
  | _ => (openBinding f t.ctx).any fun b => b.lid == none

/-- An entry token at a LOOP (R250, R251, R252): `h` when the node has held it. -/
def loopEnter (s : State) (n : NodeFields) (x : Firing) (t : Token) (h : Bool) : NodeRes :=
  let f := s.fab x.n.r
  let lid := n.imm.extractLsb' 0 6
  let eat : List (BitVec 2) := if h then [] else [0]
  if !entryOk f n t then errEat (dropHeld s x.n h) x eat cFLOW_STATE
  else match f.bindings.find? fun b => b.lid == some lid && b.pctx == t.ctx && b.piter == t.iter && !b.closed with
    | some b => .out (dropHeld s x.n h) eat [both { t with ctx := b.ctx, iter := 0 }] 0
    | none =>
      match (s.ctl x.n.r).cfg with
      | none => .wait
      | some g =>
        let dry := n.imm.extractLsb' 20 2 == 2#2
        match drawContext s x.n g dry with
        | .got c =>
          let s := addBinding (dropHeld s x.n h) x.n ⟨c, some lid, t.ctx, t.iter, 0, 0, false, x.n.row, x.n.col, 0⟩
          .out s eat [both { t with ctx := c, iter := 0 }] 0
        | .dry => if dry then dryDraw s x t h else .wait
        | .later => .wait

/-- A token on a LOOP's back edge (R252). -/
def loopBack (s : State) (n : NodeFields) (x : Firing) (t : Token) : NodeRes :=
  match (openBinding (s.fab x.n.r) t.ctx).filter fun b => b.lid == some (n.imm.extractLsb' 0 6) with
  | none => errEat s x [1] cFLOW_STATE
  | some b =>
    if (t.iter - BitVec.ofNat 16 b.done).toNat < (n.imm.extractLsb' 6 8).toNat + 1 then .out s [1] [both t] 0 else .wait

/-- LOOP (R252): a and b fire alone, the earlier first; a held entry first. -/
def execLoop (n : NodeFields) (s : State) : Out :=
  fireNode s 0x53 n fun s x =>
    match heldTok s x.n with
    | some t => loopEnter s n { (x.alone 0) with a := some t } t true
    | none =>
      let one (i : BitVec 2) : NodeRes := match x.port i with
        | some t => flowChecked s (x.alone i) [i]
            (if i = 0 then loopEnter s n (x.alone 0) t false else loopBack s n (x.alone 1) t)
        | none => .wait
      match mergePort { x with arr := x.arr.filter (·.1 != 2) } with
      | some i => orElseRes s (one i) fun _ => one (if i = 0 then 1 else 0)
      | none => .wait

/-- LEXIT nodes of a LID. -/
def lexitCount (g : Cfg) (lid : BitVec 6) : Nat :=
  g.nodes.countP fun x => x.word.extractLsb' 0 8 == 0x55#8 && (nodeFields x.word).imm.extractLsb' 0 6 == lid

/-- The output entry that a firing with some departures will take. -/
def entryId (f : Fabric) (ds : List Dep) : Option Nat := if ds.isEmpty then none else some f.nextId

/-- LEXIT (R253). -/
def execLexit (n : NodeFields) (s : State) : Out :=
  flowNode s 0x55 n fun s x =>
    match x.a, (s.ctl x.n.r).cfg with
    | some t, some g =>
      let f := s.fab x.n.r
      let lid := n.imm.extractLsb' 0 6
      match (openBinding f t.ctx).filter fun b => b.lid == some lid with
      | none => errOut s x cFLOW_STATE
      | some b =>
        if lexitCount g lid ≤ b.exits + 1 && leaveWaits s x.n.r (·.1 == t.ctx) then .wait else
        let ds := departures f n x.n.row x.n.col (some t) (some t)
        let s := s.updFab x.n.r fun f => { f with bindings := f.bindings.map fun e =>
          if e.ctx == t.ctx && !e.closed then { e with exits := e.exits + 1 } else e }
        let s := if lexitCount g lid ≤ b.exits + 1 then closeBinding s x.n.r t.ctx (entryId f ds) else s
        .sent s (tokPorts n) [ds] (some t)
    | _, _ => .wait

/-- A call token (R253): `h` when the node has held it. -/
def callEnter (s : State) (n : NodeFields) (x : Firing) (t : Token) (h : Bool) : NodeRes :=
  match (s.ctl x.n.r).cfg with
  | none => .wait
  | some g => match drawContext s x.n g true with
    | .dry => dryDraw s x t h
    | .later => .wait
    | .got c =>
      let s := addBinding (dropHeld s x.n h) x.n ⟨c, none, t.ctx, t.iter, 0, 0, false, x.n.row, x.n.col, n.route1⟩
      .out s (if h then [] else tokPorts n) [(some { t with ctx := c, iter := 0 }, none)] 0

/-- CALL (R253, R32). -/
def execCall (n : NodeFields) (s : State) : Out :=
  fireNode s 0x56 n fun s x =>
    match heldTok s x.n with
    | some t => callEnter s n { x with a := some t } t true
    | none => match x.a with
      | some t => if x.ready then flowChecked s x (tokPorts n) (callEnter s n x t false) else .wait
      | none => .wait

/-- RET (R253): delivers to the continuation with the parent tag. Without an open call the error departs on ROUTE0, as any result
(R243; log 72). -/
def execRet (n : NodeFields) (s : State) : Out :=
  flowNode s 0x57 n fun s x =>
    match x.a with
    | none => .wait
    | some t => match (openBinding (s.fab x.n.r) t.ctx).filter fun b => b.lid == none with
      | none => errOut s x cFLOW_STATE
      | some b =>
        if leaveWaits s x.n.r (·.1 == t.ctx) then .wait else
        let d := routeDest b.cont b.row b.col
        let t' := { t with
          ctx := b.pctx, iter := b.piter, drow := BitVec.ofInt 5 d.row, dcol := BitVec.ofInt 6 d.col,
          node := b.cont.extractLsb' 12 6, port := b.cont.extractLsb' 10 2 }
        .sent (closeBinding s x.n.r t.ctx (some (s.fab x.n.r).nextId)) (tokPorts n) [[⟨false, d, t'⟩]] (some t')

/-- Does a held call find no context still? In a replay this is what the logged run came to (R391; log 21). -/
def expires (s : State) (n : Site) (g : Cfg) : Bool :=
  match nextDraw s n.r with
  | some d => d.of n && d.what == .expired
  | none => drawContext s n g true == .dry

/-- CTXWAIT_EXPIRY: a call or an entry of ENTRY 2 that has found no context within CTXWAIT parks with CTX_DRY (R32). -/
def execCtxwaitExpiry (n : Site) (s : State) : Out :=
  match (s.node n).held.find? (fun e => e.1.ctx == n.ctx && e.1.iter == n.iter), fieldsAt s n.r n.row n.col n.slot,
      (s.ctl n.r).cfg with
  | some (t, since), some (opc, nf), some g =>
    let wait := ((s.ctl n.r).ctxwait.extractLsb' 0 32).toNat
    if regionGoing s n.r && (opc == 0x56 || opc == 0x53) && !isParked (s.fab n.r) n.ctx n.iter &&
        expires s n g && decide (wait ≤ (s.fclock - since).toNat) then
      match park (dropHeld s n true) n cCTX_DRY { node := nodeBits opc nf, seq := t.seq, ops := [t] } [⟨false, since, 0, t⟩] with
      | .parked s => .next (noteChoice s n .expired)
      | .full | .held => .next s
      | .overflow => .next (freeze s n.r cSPRUE_FULL 0)
    else .next s
  | _, _, _ => .next s

/-! ### Stops, delays, sinks, copies, counts, constants -/

/-- STOPs for the marks of an INDEX token, in increasing level (R257). -/
def markStops (t : Token) : List Token :=
  if t.kind == kINDEX then
    ((List.range 4).filter t.scale.getLsbD).map fun j =>
      { t with kind := kSTOP, sig := 0, pred := true, scale := 0, payload := BitVec.ofNat 512 j }
  else []

/-- STOPG (R257). -/
def execStopg (n : NodeFields) (s : State) : Out :=
  flowNode s 0x5C n fun s x =>
    match x.a with
    | none => .wait
    | some t =>
      if n.var == 1 then
        if t.kind == kSTOP && (stopLevel t).toNat ≤ (n.imm.extractLsb' 0 2).toNat then noOut s x else oneOut s x t
      else .out s (tokPorts n) ((t :: markStops t).map both) 0

/-- DELAY (R258): the entry departs no earlier than D fc after the firing. -/
def execDelay (n : NodeFields) (s : State) : Out :=
  flowNode s 0x5D n fun s x =>
    match x.a with
    | some t => .out s (tokPorts n) [both t] (s.fclock + (n.imm.extractLsb' 0 16).zeroExtend 64)
    | none => .wait

/-- DELAY_RELEASE: the interval of the node's earliest delayed entry has passed (R258). -/
def execDelayRelease (n : Site) (s : State) : Out :=
  if !regionGoing s n.r then .next s
  else match (s.fab n.r).outq.find? fun e => e.row == n.row && e.col == n.col && e.slot == n.slot && e.after != 0 with
  | some e =>
    if e.after.toNat ≤ s.fclock.toNat then
      .next (s.updFab n.r fun f => { f with outq := f.outq.map fun o => if o.id = e.id then { o with after := 0 } else o })
    else .next s
  | none => .next s

/-- SINK (R260). -/
def execSink (n : NodeFields) (s : State) : Out :=
  fireNode s 0x5E n fun s x =>
    match x.a with
    | none => .wait
    | some t =>
      if !x.ready then .wait
      else if (s.node x.n).reported then errOut s x cFLOW_STATE
      else flowChecked s x (tokPorts n) <|
        if n.var == 1 || t.kind == kDONE then
          noOut (s.updNode x.n fun y => { y with count := y.count + 1, reported := n.imm.toNat ≤ y.count + 1 }) x
        else noOut s x

/-- DUP (R259): N copies, one per firing. -/
def execDup (n : NodeFields) (s : State) : Out :=
  flowNode s 0x5F n fun s x =>
    match x.a with
    | none => .wait
    | some t =>
      let copy (k : Nat) : Token := if n.var == 1 then { t with seq := BitVec.ofNat 16 k } else t
      .out s (tokPorts n) ((List.range ((n.imm.extractLsb' 0 16).toNat + 1)).map fun k => both (copy k)) 0

/-- The count of a CNT node and its additions (R261). -/
def cntAt (f : Fabric) (n : Site) : BitVec 32 × Nat :=
  match f.cnt.find? fun e => e.1 == n.row && e.2.1 == n.col && e.2.2.1 == n.slot with | some e => e.2.2.2 | none => (0, 0)

def setCnt (s : State) (n : Site) (v : BitVec 32 × Nat) : State :=
  s.updFab n.r fun f =>
    let others := f.cnt.filter fun e => !(e.1 == n.row && e.2.1 == n.col && e.2.2.1 == n.slot)
    { f with cnt := (n.row, n.col, n.slot, v.1, v.2) :: others }

/-- CNT on one port. -/
def cntFire (s : State) (n : NodeFields) (x : Firing) (i : BitVec 2) : NodeRes :=
  match x.port i with
  | none => .wait
  | some t =>
    let y := x.alone i
    let (c, adds) := cntAt (s.fab x.n.r) x.n
    flowChecked s y [i] <|
      if i = 0 then .out (setCnt s x.n (c + 1, adds + 1)) [0] [(some t, none)] 0
      else if c = 0 then errEat s y [1] cFLOW_STATE
      else
        let s := setCnt s x.n (c - 1, adds)
        if c = 1 && n.var == 1 then .out s [1] [(none, some (y.result kCTRL 7 0 (packLanes 32 [adds])))] 0
        else .out s [1] [] 0

/-- CNT (R261): a and b fire alone, the earlier first. -/
def execCnt (n : NodeFields) (s : State) : Out :=
  fireNode s 0x65 n fun s x =>
    match mergePort x with
    | some i => cntFire s n x i
    | none => .wait

/-- KIND of a CONST's token (R262). -/
def constKind (v : BitVec 3) : BitVec 3 := match v.toNat with | 0 => kDATA | 1 => kCTRL | 2 => kDONE | _ => kINDEX

/-- CONST (R262): one token per trigger, or once for {ctx 0, iter 0} with ARITY 0; the SEQ of that one token is open. -/
def execConst (n : NodeFields) (s : State) : Out :=
  fireNode s 0x66 n fun s x =>
    let t := { immToken x.n n.fmt n.imm 0 with kind := constKind n.var, seq := x.seq }
    if n.arity == 0 then
      if x.n.ctx == 0 && x.n.iter == 0 && !(s.node x.n).reported then
        let t := { t with seq := BitVec.ofNat 16 (runFree s x.n) }
        .out (tookFree (s.updNode x.n fun y => { y with reported := true }) x.n) [] [both t] 0
      else .wait
    else if !x.ready then .wait
    else match x.a with
      | none => .wait
      | some a => flowChecked s x (tokPorts n) <|
        if a.kind == kERROR then oneOut s x (x.retag a)
        else if a.kind == kBUBBLE then oneOut s x (x.bubble n.fmt)
        else if a.kind == kSTOP then oneOut s x (x.stop n.fmt (stopLevel a))
        else oneOut s x t

/-! ### Cohorts (R33, R263 to R265) -/

def cohortOf (n : NodeFields) : BitVec 6 := n.imm.extractLsb' 0 6

/-- CJOIN (R263): waits while the cohort has 1,024 members, and for the next fc after a leave or an arrival (R265). -/
def execCjoin (n : NodeFields) (s : State) : Out :=
  flowNode s 0x62 n fun s x =>
    match x.a with
    | none => .wait
    | some t =>
      let ms := members (s.fab x.n.r) (cohortOf n)
      if ms.contains (t.ctx, t.iter) then oneOut s x t
      else if 1024 ≤ ms.length || cohNow s x.n.r (cohortOf n) false || cohNow s x.n.r (cohortOf n) true then .wait
      else
        let s := s.updFab x.n.r fun f => { f with cohorts := f.cohorts ++ [(cohortOf n, t.ctx, t.iter)] }
        oneOut (sweepBarriers s x.n.r (cohortOf n)) x t

/-- CLEAVE (R263): waits for the next fc after an arrival (R265). One that finds no member is a leave all the same: a join of the same
fc would come before it. -/
def execCleave (n : NodeFields) (s : State) : Out :=
  flowNode s 0x63 n fun s x =>
    match x.a with
    | none => .wait
    | some t =>
      if !(members (s.fab x.n.r) (cohortOf n)).contains (t.ctx, t.iter) then oneOut (noteCoh s x.n.r (cohortOf n) false) x t
      else if cohNow s x.n.r (cohortOf n) true then .wait
      else
        let s := s.updFab x.n.r fun f =>
          { f with cohorts := f.cohorts.filter (fun m => !(m.1 == cohortOf n && m.2.1 == t.ctx && m.2.2 == t.iter)) }
        oneOut (sweepBarriers (noteCoh s x.n.r (cohortOf n) false) x.n.r (cohortOf n)) x t

/-- CBAR (R264): a member's token is held until every member has arrived at this node; a second arrival in one generation
waits. The firing that holds it has no result yet. -/
def execCbar (n : NodeFields) (s : State) : Out :=
  flowNode s 0x64 n fun s x =>
    match x.a with
    | none => .wait
    | some t =>
      let k := cohortOf n
      if !(members (s.fab x.n.r) k).contains (t.ctx, t.iter) then oneOut (noteCoh s x.n.r k true) x t
      else if (heldTok s x.n).isSome then .wait
      else
        let s := s.updNode x.n fun y => { y with held := y.held ++ [(t, s.fclock)] }
        .sent (sweepBarriers (noteCoh s x.n.r k true) x.n.r k) (tokPorts n) [] none

end Sys2Proof.Machine
end

