-- ==== Sys2Proof/Machine/Chains.lean ====
section
/-!
DEFINITION. Counter chains and sparse iteration (13_node_flow.md R254 to R256): CTR, SLOOP, ISECT, UNION.
-/

namespace Sys2Proof.Machine

open Sys2Proof

/-! ### Counter chains (R254) -/

def ctrLevels (n : NodeFields) : Nat := (n.imm.extractLsb' 2 2).toNat + 1
def ctrWindow (n : NodeFields) : Nat := if n.var == 1 then 1 else (n.imm.extractLsb' 4 8).toNat + 1
def ctrChildren (n : NodeFields) : Nat := (n.imm.extractLsb' 12 4).toNat + 1

/-- START, EXTENT and STEP of level j of a chain descriptor. -/
def ctrLevel (d : Token) (j : Nat) : Int × Nat × Int :=
  (laneInt true 32 (d.lane 32 (4 * j)), d.lane 32 (4 * j + 1), laneInt true 32 (d.lane 32 (4 * j + 2)))

def ctrExtents (n : NodeFields) (d : Token) : List Nat := (List.range (ctrLevels n)).map fun j => (ctrLevel d j).2.1

/-- Points of a pass. -/
def ctrPoints (n : NodeFields) (d : Token) : Nat := (ctrExtents n d).foldl (· * ·) 1

/-- Index k of level j at flat point number p, level 0 varying fastest. -/
def ctrIdx (es : List Nat) (p j : Nat) : Nat := p / (es.take j).foldl (· * ·) 1 % es.getD j 1

/-- Mark bits of a point: bit j is set when k[0] to k[j] are all at EXTENT − 1. -/
def ctrMarks (es : List Nat) (p : Nat) : Nat :=
  ((List.range es.length).map fun j =>
    if (List.range (j + 1)).all fun i => ctrIdx es p i + 1 == es.getD i 1 then 2 ^ j else 0).sum

/-- The payload of a point: idx in lanes 0 to 3. -/
def ctrPayload (n : NodeFields) (d : Token) (k : Nat → Nat) : BitVec 512 :=
  packLanes 32 ((List.range (ctrLevels n)).map fun j =>
    let (st, _, step) := ctrLevel d j
    wrapLane 32 (st + (k j : Int) * step))

/-- A token of a pass: the enable's CTX and ITER, the node's FMT. -/
def passTok (n : NodeFields) (e : Token) (kind : BitVec 3) (pred : Bool) (marks : Nat) (seq : BitVec 16)
    (payload : BitVec 512) : Token :=
  { e with kind := kind, fmt := n.fmt, sig := 0, pred := pred, seq := seq, scale := BitVec.ofNat 64 marks, payload := payload }

/-- A SEQ that the specification does not give: free (log 22). -/
def freeSeq (s : State) (n : Site) : BitVec 16 := BitVec.ofNat 16 (runFree s n)

/-- An enable starts a pass; a pass without points ends at once. DESIGN CHOICE (log 103): an ERROR on the descriptor port is passed on and a
BUBBLE there gives a BUBBLE; neither starts a pass. -/
def ctrStart (s : State) (n : NodeFields) (x : Firing) (e d : Token) : NodeRes :=
  let y := { x with c := none, p := none }
  let eat : List (BitVec 2) := [0, 1]
  match y.toks.find? (·.kind == kERROR) with
  | some er => .out s eat [both (y.retag er)] 0
  | none =>
    if e.kind == kBUBBLE || d.kind == kBUBBLE then .out s eat [both { e.bubble with fmt := n.fmt }] 0
    else if (ctrExtents n d).any (· == 0) then
      if n.var == 0 then .out s eat [both (passTok n e kINDEX false (2 ^ ctrLevels n - 1) 0 0)] 0
      else .out (tookFree s x.n) eat [(none, some (passTok n e kCTRL true 0 (freeSeq s x.n) 0))] 0
    else .out (s.updNode x.n fun z => { z with pass := some ⟨e, d, 0, ctrPoints n d, 0, none, []⟩ }) eat [] 0

/-- CTR (R254): a done on c is counted during a pass; an enable starts one when none is open. -/
def execCtr (n : NodeFields) (s : State) : Out :=
  fireNode s 0x58 n fun s x =>
    match (if n.kc == 0 then x.c else none), (s.node x.n).pass with
    | some t, some p =>
      let p := { p with done := p.done + 1, err := if p.err.isNone && t.kind == kERROR then some t else p.err }
      .out (s.updNode x.n fun z => { z with pass := some p }) [2] [] 0
    | some _, none => errEat s (x.alone 2) [2] cFLOW_STATE
    | none, some _ => .wait
    | none, none => match x.a, x.b with
      | some e, some d => flowChecked s { x with c := none, p := none } [0, 1] (ctrStart s n x e d)
      | _, _ => .wait

/-- Queues a chain's emission; it restarts the hang interval (R345). -/
def chainEmit (s : State) (n : Site) (nf : NodeFields) (t0 t1 : Option Token) : State :=
  touch (pushEntry s n (departures (s.fab n.r) nf n.row n.col t0 t1) 0 none) n.r

def setPass (s : State) (n : Site) (p : Option Pass) : State := s.updNode n fun z => { z with pass := p }

/-- The next emission of a CTR's pass. -/
def ctrEmit (s : State) (n : Site) (nf : NodeFields) (p : Pass) : State :=
  let es := ctrExtents nf p.desc
  let strm := nf.var == 3
  let count := if strm then 1 else p.total
  if p.point < count then
    let held := (nf.var == 1 || nf.var == 2) &&
      decide ((p.done : Int) < (ctrChildren nf : Int) * ((p.point : Int) - ctrWindow nf + 1))
    if held then s
    else
      let payload := ctrPayload nf p.desc fun j => if strm then 0 else ctrIdx es p.point j
      let marks := if strm then 2 ^ ctrLevels nf - 1 else ctrMarks es p.point
      let seq := if strm then freeSeq s n else BitVec.ofNat 16 p.point
      let s := if strm then tookFree s n else s
      let last := nf.var == 0 && p.point + 1 == count
      let s := setPass s n (if last then none else some { p with point := p.point + 1 })
      let t := passTok nf p.enable (if nf.var == 0 then kINDEX else kCTRL) true marks seq payload
      chainEmit s n nf (some t) (if nf.var == 0 then some t else none)
  else if p.done < ctrChildren nf * count then s
  else
    let t := match p.err with
      | some e => { e with ctx := p.enable.ctx, iter := p.enable.iter }
      | none => passTok nf p.enable kCTRL true 0 (freeSeq s n) (packLanes 32 [p.total])
    chainEmit (setPass (tookFree s n) n none) n nf none (some t)

/-! ### SLOOP (R255) -/

def slTree (n : NodeFields) : Bool := n.imm.getLsbD 2

/-- combine of R255. -/
def slCombine (n : NodeFields) (a b : BitVec 512) : BitVec 512 :=
  match n.var.toNat with | 0 => a | 1 => a &&& b | _ => a ||| b

def setBits (x : BitVec 512) : List Nat := (List.range 512).filter x.getLsbD

/-- Index tokens for a list of indices from a rank on; `mark` marks the last. -/
def slToks (n : NodeFields) (e : Token) (rank : Nat) (is : List Nat) : List Token :=
  is.zipIdx.map fun (i, k) =>
    passTok n e kINDEX true (if k + 1 = is.length then 1 else 0) (BitVec.ofNat 16 (rank + k)) (packLanes 32 [i, rank + k])

/-- The token of a pass without an index: every mark bit of its mode. -/
def slEmpty (n : NodeFields) (e : Token) : Token := passTok n e kINDEX false (if slTree n then 3 else 1) 0 0

/-- The next bit of the tops from a position on. -/
def slNextBit (p : Pass) (n : NodeFields) : Option Nat :=
  let m := p.enable.payload ||| (if n.var == 0 then 0 else p.desc.payload)
  ((List.range 512).drop p.point).find? m.getLsbD

/-- Marks a pass complete when every leaf has been consumed. -/
def slSettle (n : NodeFields) (p : Pass) : Pass :=
  if (slNextBit p n).isSome then p
  else { p with done := 1, out := if p.total = 0 then [slEmpty n p.enable] else p.out }

/-- What the special kinds and formats of consumed tokens make of a firing, if anything (R242, R49; log 23). -/
def slSpecial (s : State) (x : Firing) (eat : List (BitVec 2)) : Option NodeRes :=
  let ts := x.toks
  match ts.find? (·.kind == kERROR) with
  | some e => some (.out s eat [both (x.retag e)] 0)
  | none =>
    if ts.any (·.kind == kBUBBLE) then (ts.head?).map fun t => .out s eat [both { t.bubble with seq := x.seq }] 0
    else if !ts.isEmpty && ts.all (·.kind == kSTOP) then
      some (.out s eat [both (x.stop x.nf.fmt (BitVec.ofNat 2 ((ts.map fun t => (stopLevel t).toNat).foldl max 0)))] 0)
    else if ts.any (fun t => t.kind == kSTOP || t.fmt != 0x11) then some (errEat s x eat cFMT_BAD)
    else none

/-- The tops start a pass. -/
def slStart (s : State) (n : NodeFields) (x : Firing) : NodeRes :=
  if !x.ready then .wait
  else match slSpecial s x (tokPorts n) with
  | some r => r
  | none => match x.a with
    | none => .wait
    | some a =>
      let b := x.b.getD a
      let p : Pass := if slTree n then slSettle n ⟨a, b, 0, 0, 0, none, []⟩
        else
          let is := setBits (slCombine n a.payload b.payload)
          ⟨a, b, 512, is.length, 1, none, if is.isEmpty then [slEmpty n a] else slToks n a 0 is⟩
      .out (setPass s x.n (some p)) (tokPorts n) [] 0

/-- The leaves of the next top bit are consumed. -/
def slLeaf (s : State) (n : NodeFields) (x : Firing) (p : Pass) : NodeRes :=
  match slNextBit p n with
  | none => .wait
  | some t =>
    let needA := p.enable.payload.getLsbD t
    let needB := n.var != 0 && p.desc.payload.getLsbD t
    let y := { x with a := if needA then x.a else none, b := if needB then x.b else none }
    let eat : List (BitVec 2) := (if needA then [0] else []) ++ (if needB then [1] else [])
    if (needA && y.a.isNone) || (needB && y.b.isNone) then .wait
    else
      let done (is : List Nat) : State :=
        setPass s x.n (some (slSettle n { p with
          point := t + 1
          total := p.total + is.length
          out := p.out ++ slToks n p.enable p.total is }))
      match slSpecial s y eat with
      | some r => match r with
        | .out s' e rs after =>
          let q := slSettle n { p with point := t + 1 }
          .out (setPass s' x.n (some q)) e rs after
        | r => r
      | none =>
        let la := (y.a.map (·.payload)).getD 0
        let lb := (y.b.map (·.payload)).getD 0
        let top := slCombine n p.enable.payload p.desc.payload
        .out (done (if top.getLsbD t then (setBits (slCombine n la lb)).map (512 * t + ·) else [])) eat [] 0

/-- SLOOP (R255): tops start a pass; its leaves belong to the activation that started it; an enable waits during a
pass. -/
def execSloop (n : NodeFields) (s : State) : Out :=
  fireNode s 0x59 n fun s x =>
    match (s.node x.n).pass with
    | none => slStart s n x
    | some p =>
      if slTree n && p.done == 0 && p.enable.ctx == x.n.ctx && p.enable.iter == x.n.iter then slLeaf s n x p else .wait

/-- The next emission of a SLOOP's pass: the last index known is held until it is known whether it ends the pass. -/
def slEmit (s : State) (n : Site) (nf : NodeFields) (p : Pass) : State :=
  match p.out with
  | [] => if p.done == 1 then setPass s n none else s
  | [t] =>
    if p.done == 1 then
      let t := if slTree nf then { t with scale := t.scale ||| 2 } else t
      chainEmit (setPass s n none) n nf (some t) (some t)
    else s
  | t :: rest => chainEmit (setPass s n (some { p with out := rest })) n nf (some t) (some t)

/-- COUNTER_CHAIN_EMIT: one emission of a chain's open pass, when the output queue has room (R254, R255). -/
def execCounterChainEmit (n : Site) (s : State) : Out :=
  match fieldsAt s n.r n.row n.col n.slot, (s.node n).pass with
  | some (opc, nf), some p =>
    if regionGoing s n.r && outCount (s.fab n.r) n.row n.col n.slot < 4 then
      if opc == 0x58 then .next (ctrEmit s n nf p)
      else if opc == 0x59 then .next (slEmit s n nf p)
      else .next s
    else .next s
  | _, _ => .next s

/-! ### ISECT and UNION (R256) -/

def isCV (n : NodeFields) : Bool := n.fmt == 0x13

/-- Lanes of a head as (coordinate, value); padding coordinates are all ones. -/
def fibLane (n : NodeFields) (t : Token) (i : Nat) : Nat × Nat :=
  let v := t.lane 32 i
  if isCV n then (v % 65536, v / 65536) else (v, 0)

def fibPad (n : NodeFields) : Nat := if isCV n then 0xFFFF else 0xFFFFFFFF

/-- The first lane from a position on that is not padding; 16 when the head is used up. -/
def fibSkip (n : NodeFields) (t : Token) (pos : Nat) : Nat :=
  (((List.range 16).drop pos).find? fun i => (fibLane n t i).1 != fibPad n).getD 16

/-- The state of an activation's fibres at a node. -/
def fibreOf (y : NodeSt) (n : Site) : Fibre :=
  (y.fibres.find? fun f => f.ctx == n.ctx && f.iter == n.iter).getD ⟨n.ctx, n.iter, 0, 0, none, none, false, false, []⟩

def setFibre (s : State) (n : Site) (f : Fibre) : State :=
  s.updNode n fun y => { y with fibres := f :: y.fibres.filter fun g => !(g.ctx == n.ctx && g.iter == n.iter) }

def dropFibre (s : State) (n : Site) : State :=
  s.updNode n fun y => { y with fibres := y.fibres.filter fun g => !(g.ctx == n.ctx && g.iter == n.iter) }

/-- A lane of the result with its tag. -/
def fibOut (n : NodeFields) (c v : Nat) (tag : Nat) : BitVec 32 × BitVec 7 :=
  (BitVec.ofNat 32 (if isCV n then c + 65536 * v else c), BitVec.ofNat 7 tag)

/-- The lane of equal coordinates: the value of port a, or for UNION ADD the RNE_FP16 sum with the add rule's tag. -/
def fibBoth (n : NodeFields) (add : Bool) (c va vb ta tb : Nat) : BitVec 32 × BitVec 7 :=
  if add then
    let a := decodeF fp16 va
    let b := decodeF fp16 vb
    let e := addF .rne a b
    let (r, v) := rneF fp16 e
    fibOut n c r (sumTag fp16 a b ta tb e v)
  else fibOut n c va ta

/-- How a walk ends: the output is full; a head is used up; port a or b holds a coordinate out of order. -/
inductive WalkEnd where | full | used | badA | badB
deriving DecidableEq

/-- Is a coordinate above its predecessor? -/
def above (c : Nat) : Option Nat → Bool | none => true | some l => l < c

/-- The walk of both heads in step. -/
def fibWalk (n : NodeFields) (union add : Bool) (a b : Token) : Nat → Fibre → Fibre × WalkEnd
  | 0, f => (f, .used)
  | k + 1, f =>
    let i := fibSkip n a f.posA
    let j := fibSkip n b f.posB
    let f := { f with posA := i, posB := j }
    if 16 ≤ f.out.length then (f, .full)
    else if i = 16 || j = 16 then (f, .used)
    else
      let (ca, va) := fibLane n a i
      let (cb, vb) := fibLane n b j
      if ca ≤ cb && !above ca f.lastA then (f, .badA)
      else if cb ≤ ca && !above cb f.lastB then (f, .badB)
      else if ca = cb then
        fibWalk n union add a b k { f with
          posA := i + 1, posB := j + 1, lastA := some ca, lastB := some cb,
          out := f.out ++ [fibBoth n add ca va vb (tokSig a) (tokSig b)] }
      else if ca < cb then
        fibWalk n union add a b k { f with
          posA := i + 1, lastA := some ca, out := if union then f.out ++ [fibOut n ca va (tokSig a)] else f.out }
      else
        fibWalk n union add a b k { f with
          posB := j + 1, lastB := some cb, out := if union then f.out ++ [fibOut n cb vb (tokSig b)] else f.out }

/-- A head's remaining lanes once the other port holds its STOP; `onA` tells which port. UNION appends them, ISECT does not; the order
of their coordinates is tested in both. -/
def fibTail (n : NodeFields) (union onA : Bool) (t : Token) : Nat → Fibre → Fibre × WalkEnd
  | 0, f => (f, .used)
  | k + 1, f =>
    let i := fibSkip n t (if onA then f.posA else f.posB)
    let f := if onA then { f with posA := i } else { f with posB := i }
    if 16 ≤ f.out.length then (f, .full)
    else if i = 16 then (f, .used)
    else
      let (c, v) := fibLane n t i
      if !above c (if onA then f.lastA else f.lastB) then (f, if onA then .badA else .badB)
      else
        let f := if union then { f with out := f.out ++ [fibOut n c v (tokSig t)] } else f
        fibTail n union onA t k (if onA then { f with posA := i + 1, lastA := some c } else { f with posB := i + 1, lastB := some c })

/-- The token of the lanes gathered, padded; its SIG is the least tag for CV16, 0 for COORD. -/
def fibFlush (n : NodeFields) (x : Firing) (ls : List (BitVec 32 × BitVec 7)) : Token :=
  let pad := List.replicate (16 - ls.length) (if isCV n then 0xFFFF else 0xFFFFFFFF)
  let sig := if isCV n then ((ls.map fun l => l.2.toNat).min?).getD 0 else 0
  x.result kDATA n.fmt sig (packLanes 32 (ls.map (fun l => l.1.toNat) ++ pad))

/-- Ends a firing: used-up heads are consumed, a port out of order is discarded up to its STOP, a full output leaves. -/
def fibEnd (s : State) (n : NodeFields) (x : Firing) (f : Fibre) (w : WalkEnd) : NodeRes :=
  let endA := f.posA == 16 || w == .badA
  let endB := f.posB == 16 || w == .badB
  let eat : List (BitVec 2) := (if endA then [0] else []) ++ (if endB then [1] else [])
  let g := { f with
    posA := if endA then 0 else f.posA
    posB := if endB then 0 else f.posB
    skipA := f.skipA || w == .badA
    skipB := f.skipB || w == .badB }
  if w == .badA || w == .badB then
    errEat (setFibre s x.n g) (x.alone (if w == .badA then 0 else 1)) eat cFLOW_STATE
  else if 16 ≤ f.out.length then .out (setFibre s x.n { g with out := [] }) eat [both (fibFlush n x f.out)] 0
  else .out (setFibre s x.n g) eat [] 0

/-- A head handled in a firing of its own before the walk: one discarded after FLOW_STATE, an ERROR, a BUBBLE, a token of
another form: DESIGN CHOICE (log 102): an INDEX of the node's FMT and the kinds CTRL, DONE and PARAM count as that. -/
def fibHead (s : State) (n : NodeFields) (x : Firing) (f : Fibre) (i : BitVec 2) (t : Token) : Option NodeRes :=
  let skip := if i = 0 then f.skipA else f.skipB
  let g := if i = 0 then { f with posA := 0 } else { f with posB := 0 }
  if t.kind == kSTOP then none
  else if skip then some (.out s [i] [] 0)
  else if t.kind == kERROR then some (.out (setFibre s x.n g) [i] [(some (x.retag t), none)] 0)
  else if t.kind == kBUBBLE then some (.out (setFibre s x.n g) [i] [] 0)
  else if t.kind != kDATA || t.fmt != n.fmt then some (errEat (setFibre s x.n g) (x.alone i) [i] cFMT_BAD)
  else none

/-- ISECT and UNION. -/
def fibNode (s : State) (opc : BitVec 8) (n : NodeFields) (union : Bool) : Out :=
  fireNode s opc n fun s x =>
    if !x.ready then .wait
    else match x.a, x.b with
    | some a, some b =>
      let f := fibreOf (s.node x.n) x.n
      match (fibHead s n x f 0 a).orElse fun _ => fibHead s n x f 1 b with
      | some r => r
      | none =>
        if a.kind == kSTOP && b.kind == kSTOP then
          if stopLevel a != stopLevel b then
            errEat (setFibre s x.n { f with posA := 0, posB := 0, lastA := none, lastB := none, skipA := false, skipB := false })
              x [0, 1] cFLOW_STATE
          else if !f.out.isEmpty then .out (setFibre s x.n { f with out := [] }) [] [both (fibFlush n x f.out)] 0
          else .out (dropFibre s x.n) [0, 1] [both (x.retag a)] 0
        else if a.kind == kSTOP then
          (fun r : Fibre × WalkEnd => fibEnd s n x r.1 r.2) (fibTail n union false b 33 f)
        else if b.kind == kSTOP then
          (fun r : Fibre × WalkEnd => fibEnd s n x r.1 r.2) (fibTail n union true a 33 f)
        else (fun r : Fibre × WalkEnd => fibEnd s n x r.1 r.2) (fibWalk n union (union && n.var == 1) a b 33 f)
    | _, _ => .wait

/-- ISECT (R256). -/
def execIsect (n : NodeFields) (s : State) : Out := fibNode s 0x5A n false

/-- UNION (R256). -/
def execUnion (n : NodeFields) (s : State) : Out := fibNode s 0x5B n true

end Sys2Proof.Machine
end

