-- ==== Sys2Proof/Machine/Convert.lean ====
section
/-!
DEFINITION. Conversion nodes (11_node_vector.md R217 to R222, 03_numbers.md R53, R59, R60): VCVT, QZ, DQ, CV8.
-/

namespace Sys2Proof.Machine

open Sys2Proof

/-! ### The converter's LFSR (R53, R221) -/

/-- One step. -/
def lfsrStep (x : BitVec 32) : BitVec 32 := if x.getLsbD 0 then (x >>> 1) ^^^ 0x80200003#32 else x >>> 1

/-- n steps. -/
def lfsrSteps : Nat → BitVec 32 → BitVec 32
  | 0, x => x
  | n + 1, x => lfsrSteps n (lfsrStep x)

/-- The LFSR of a tile's converter. -/
def lfsrAt (f : Fabric) (n : Site) : BitVec 32 :=
  match f.lfsr.find? fun x => x.1 == n.row && x.2.1 == n.col with | some x => x.2.2 | none => 1

def setLfsr (s : State) (n : Site) (v : BitVec 32) : State :=
  s.updFab n.r fun f => { f with
    lfsr := (n.row, n.col, v) :: f.lfsr.filter fun x => !(x.1 == n.row && x.2.1 == n.col) }

/-- A seed; 0 is loaded as 1. -/
def seedOf (v : BitVec 32) : BitVec 32 := if v = 0 then 1 else v

/-- R after a step: LFSR[31:16]. -/
def lfsrR (x : BitVec 32) : Nat := (x.extractLsb' 16 16).toNat

/-- m × 2^e rounded stochastically at weight 2^q with the draw R (R53). -/
def roundSR (m : Nat) (e q : Int) (r : Nat) : Nat :=
  if q ≤ e then m * 2 ^ (e - q).toNat
  else
    let d := 2 ^ (q - e).toNat
    m / d + (if 2 ^ 16 ≤ m % d * 2 ^ 16 / d + r then 1 else 0)

/-! ### Conversion fields (Table 11-2) and lanes (R219) -/

def cvSrc (n : NodeFields) : BitVec 5 := n.imm.extractLsb' 8 5
def cvPart (n : NodeFields) : Nat := (n.imm.extractLsb' 16 3).toNat
def cvK (n : NodeFields) : Int := (n.imm.extractLsb' 0 8).toInt

/-- Source lane of destination lane i, when the conversion fills it. -/
def cvLane (n : NodeFields) (i : Nat) : Option Nat :=
  let ns := laneCount (cvSrc n)
  let nd := laneCount n.fmt
  let j := cvPart n
  if nd ≤ ns then some (j * nd + i) else if j * ns ≤ i && i < j * ns + ns then some (i - j * ns) else none

/-! ### Block formats (R46, R47, R59, R60) -/

/-- Largest magnitude, scale bias and element width of ZB8 or ZB4. -/
def zbMax (zb8 : Bool) : Nat := if zb8 then 63 else 3
def zbBias (zb8 : Bool) : Int := if zb8 then 132 else 128
def zbMBits (zb8 : Bool) : Nat := if zb8 then 6 else 2

/-- Byte i of a scale lane. -/
def scaleByte (sc : BitVec 64) (i : Nat) : Nat := sc.toNat / 256 ^ i % 256

/-- The value of element i of a block-format token. -/
def zbValue (zb8 : Bool) (t : Token) (i : Nat) : FVal :=
  let b := i / 32
  let x0 := scaleByte t.scale (2 * b)
  let x1 := scaleByte t.scale (2 * b + 1)
  let v := t.lane (if zb8 then 8 else 4) i
  let k := zbMBits zb8
  if x0 = 0xFF || x1 = 0xFF then .nan false
  else .num (v / 2 ^ (k + 1) % 2 == 1) (v % 2 ^ k) (((if v / 2 ^ k % 2 = 1 then x1 else x0) : Nat) - zbBias zb8)

/-- A magnitude rounded with RNE at a scale. -/
def zbRne (zb8 : Bool) (m : Nat) (e : Int) (x : Nat) : Nat := (roundAt .rne false m e ((x : Int) - zbBias zb8)).1

/-- Does an element select the upper scale: it does not fit under X0 (R59 step 4)? -/
def zbSel (zb8 : Bool) (x0 : Nat) (m : Nat) (e : Int) : Bool := decide (zbMax zb8 < zbRne zb8 m e x0)

/-- Significand and exponent of a number. -/
def numOf : FVal → Bool × Nat × Int
  | .num n m e => (n, m, e)
  | .inf n => (n, 0, 0)
  | .nan _ => (false, 0, 0)

/-- X1 of R59: the smallest scale under which every magnitude fits, or 254. -/
def zbUpper (zb8 : Bool) (xs : List FVal) : Nat :=
  ((List.range 255).find? fun (x : Nat) => xs.all fun v =>
    let (_, m, e) := numOf v
    cmpVal (.num false m e) (.num false (zbMax zb8) ((x : Int) - zbBias zb8)) ≤ 0).getD 254

/-- A number in units of 2^−160. -/
def fixVal (n : Bool) (m : Nat) (e : Int) : Int := (if n then -1 else 1) * ((m : Int) * 2 ^ (e + 160).toNat)

/-- The squared error of a block quantised with RNE at a distance. -/
def zbError (zb8 : Bool) (xs : List FVal) (x1 d : Nat) : Int :=
  let x0 := x1 - d
  (xs.map fun v =>
    let (n, m, e) := numOf v
    let sel := zbSel zb8 x0 m e
    let x := if sel then x1 else x0
    let q := min (zbMax zb8) (zbRne zb8 m e x)
    let dl := fixVal n m e - fixVal n q ((x : Int) - zbBias zb8)
    dl * dl).sum

/-- The distance of auto mode: least error, ties to the smaller (R59). -/
def zbAuto (zb8 : Bool) (xs : List FVal) (x1 : Nat) : Nat :=
  ((List.range 7).foldl (fun (best : Nat × Option Int) i =>
    let er := zbError zb8 xs x1 (i + 1)
    match best.2 with
    | some b => if er < b then (i + 1, some er) else best
    | none => (i + 1, some er)) (1, none)).1

/-- A quantised block: scale bytes and element encodings (R59, R60). `d` none: auto; `lf` is the LFSR before the block's
first step under stochastic rounding. -/
def quantBlock (zb8 : Bool) (d : Option Nat) (lf : Option (BitVec 32)) (xs : List FVal) : Nat × Nat × List Nat :=
  let k := zbMBits zb8
  let sgn (n : Bool) : Nat := if n then 2 ^ (k + 1) else 0
  if xs.any fun v => match v with | .num _ _ _ => false | _ => true then (0xFF, 0xFF, xs.map fun _ => 0)
  else if xs.all isZeroV then (0, 0, xs.map fun v => sgn v.neg)
  else
    let x1 := zbUpper zb8 xs
    let x0 := x1 - (d.getD (zbAuto zb8 xs x1))
    (x0, x1, xs.zipIdx.map fun (v, i) =>
      let (n, m, e) := numOf v
      let sel := zbSel zb8 x0 m e
      let x := if sel then x1 else x0
      let q := match lf with
        | none => zbRne zb8 m e x
        | some l => roundSR m e ((x : Int) - zbBias zb8) (lfsrR (lfsrSteps (i + 1) l))
      sgn n + (if sel then 2 ^ k else 0) + min (zbMax zb8) q)

/-- Cuts a list into blocks of 32. -/
def blocks32 : Nat → List FVal → List (List FVal)
  | 0, _ => []
  | k + 1, l => if l.isEmpty then [] else l.take 32 :: blocks32 k (l.drop 32)

/-- The token of quantised blocks, placed from a first block on. -/
def zbToken (x : Firing) (zb8 : Bool) (first : Nat) (sig : Nat) (bs : List (Nat × Nat × List Nat)) : Token :=
  let w := if zb8 then 8 else 4
  let t := x.result kDATA (if zb8 then 0xF else 0x10) sig
    (packLanes w (bs.flatMap (·.2.2)) <<< (first * 32 * w))
  { t with scale := (packLanes 8 (bs.flatMap fun b => [b.1, b.2.1])).setWidth 64 <<< (16 * first) }

/-! ### Elements (R218) -/

/-- An element converted with RNE from a source lane: encoding and tag (none where the result has no p). -/
def cvElem (src dst : BitVec 5) (t : Token) (i : Nat) : Nat × Nat :=
  let w := laneBits src
  match fmtFloat src, fmtFloat dst with
  | some f, some g =>
    let v := decodeF f (t.lane w i)
    let (r, v') := rneF g (exactOf v)
    (r, cvtTag f g (min t.sig.toNat f.p) (isZeroV v) v')
  | none, some g =>
    let k := laneInt (isSigned src) w (t.lane w i)
    let (r, v') := rneF g (.num (k < 0) k.natAbs 0)
    (r, finalTag g v' (k == 0) g.p)
  | some f, none =>
    (wrapLane (laneBits dst) (toIntF .rne (laneBits dst) (isSigned dst) (decodeF f (t.lane w i))).1, 0)
  | none, none => (0, 0)

/-- An element of a block-format token, dequantised: exact value rounded with RNE, its tag that of R68 after the two steps of R63.
DEDUCED (log 90): R68 gives the token's SIG; the steps are taken in each lane, as R64 takes a node's tags. -/
def dqElem (zb8 : Bool) (dst : BitVec 5) (t : Token) (i : Nat) : Nat × Nat :=
  let g := (fmtFloat dst).getD fp32
  let v := zbValue zb8 t i
  let (r, v') := rneF g (exactOf v)
  let s := min t.sig.toNat (if zb8 then 6 else 2)
  (r, finalTag g v' (isZeroV v) s)

/-- A conversion's result from its elements; constant zeros take no part in SIG. -/
def cvResult (x : Firing) (elem : Nat → Nat × Nat) : Token :=
  let nd := laneCount x.nf.fmt
  let ls := (List.range nd).map fun i => (cvLane x.nf i).map elem
  let sig := if (fmtP x.nf.fmt).isSome then ((ls.filterMap id).map (·.2)).min?.getD 0 else 0
  x.result kDATA x.nf.fmt sig (packLanes (laneBits x.nf.fmt) (ls.map fun l => (l.map (·.1)).getD 0))

def isZB (fmt : BitVec 5) : Bool := fmt == 0xF || fmt == 0x10

/-- The SIG of a quantised block: that of the narrowing row of Table 3-6, 0 when a source element is NaN or infinite, or one that is
not zero becomes M = 0 (R63, R64). -/
def zbSig (zb8 : Bool) (a : Token) (vs : List FVal) (b : Nat × Nat × List Nat) : Nat :=
  let lost := (vs.zip b.2.2).any fun (v, q) => match v with
    | .num _ m _ => m != 0 && q % 2 ^ zbMBits zb8 == 0
    | _ => true
  if lost then 0 else min (tokSig a) (if zb8 then 6 else 2)

/-- The conversions of VCVT and DQ (Table 11-3). -/
def convertNode (s : State) (opc : BitVec 8) (n : NodeFields) : Out :=
  fireNode s opc n fun s x => dataNode s x n.fmt (fun _ t => isDataIdx t (cvSrc n)) fun s x =>
    let a := x.get 0
    if isZB (cvSrc n) then sigOut s x (cvResult x (dqElem (cvSrc n == 0xF) n.fmt a))
    else if isZB n.fmt then
      let zb8 := n.fmt == 0xF
      let f := (fmtFloat (cvSrc n)).getD fp16
      let vs := (List.range (laneCount (cvSrc n))).map fun i => (fpLane f a i).1
      let b := quantBlock zb8 none none vs
      sigOut s x (zbToken x zb8 (cvPart n) (zbSig zb8 a vs b) [b])
    else sigOut s x (cvResult x (cvElem (cvSrc n) n.fmt a))

/-- VCVT (R218). -/
def execVcvt (n : NodeFields) (s : State) : Out := convertNode s 0x30 n

/-- DQ (R218). -/
def execDq (n : NodeFields) (s : State) : Out := convertNode s 0x32 n

/-- A seed load: a PARAM token of FMT U32 on port a, in a firing that R203 gives no other result (R203, R221). -/
def seedLoad (s : State) (x : Firing) (k : NodeRes) : NodeRes :=
  match x.a with
  | some a => if a.kind == kPARAM && a.fmt == 7 then
      dataNode s x x.nf.fmt (fun _ _ => true) fun s x => noOut (setLfsr s x.n (seedOf (a.payload.extractLsb' 0 32))) x
      else k
  | none => k

/-! ### QZ (R220) -/

/-- The open group of an activation. -/
def qzGroup (y : NodeSt) (n : Site) : Option QzGroup := y.groups.find? fun g => g.ctx == n.ctx && g.iter == n.iter

/-- The ZB token of a group's tokens, missing elements +0. -/
def qzToken (s : State) (x : Firing) (toks : List Token) : Token :=
  let nf := x.nf
  let zb8 := nf.fmt == 0xF
  let src := cvSrc nf
  let f := (fmtFloat src).getD fp32
  let nd := laneCount nf.fmt
  let vs := toks.flatMap fun t => (List.range (laneCount src)).map fun i => (fpLane f t i).1
  let vs := vs ++ List.replicate (nd - vs.length) (.num false 0 0)
  let sr := nf.var.toNat % 2 == 1
  let d := if nf.var.toNat < 2 then some (cvK nf).toNat else none
  let l := lfsrAt (s.fab x.n.r) x.n
  let bs := (blocks32 4 vs).zipIdx.map fun (b, i) => quantBlock zb8 d (if sr then some (lfsrSteps (32 * i) l) else none) b
  zbToken x zb8 0 ((toks.map fun t => min t.sig.toNat (if zb8 then 6 else 2)).min?.getD 0) bs

/-- Emits a completed group: the LFSR has stepped once per element under stochastic rounding. DESIGN CHOICE (log 89): where the group
spans several tokens, the SIGLOW test takes as its operands those of the completing firing alone, none at a STOP; a group whose completing firing
parks stays open as it is. -/
def qzEmit (s : State) (x : Firing) (toks : List Token) : NodeRes :=
  let t := qzToken s x toks
  if sigLowNode s x t then .park cSIGLOW x.info (some t)
  else
    let s := s.updNode x.n fun y => { y with groups := y.groups.filter fun g => !(g.ctx == x.n.ctx && g.iter == x.n.iter) }
    let s := if x.nf.var.toNat % 2 = 1 then
        setLfsr s x.n (lfsrSteps (laneCount x.nf.fmt) (lfsrAt (s.fab x.n.r) x.n)) else s
    oneOut s x t

/-- QZ: one source token per firing, one ZB token per group; with four groups open no token of another activation is ready
(R220). -/
def execQz (n : NodeFields) (s : State) : Out :=
  fireNode s 0x31 n fun s x =>
    let y := s.node x.n
    let open_ := qzGroup y x.n
    if open_.isNone && 4 ≤ y.groups.length then .wait
    else seedLoad s x <|
      match x.a, open_ with
      | some a, some g =>
        if a.kind == kSTOP then qzEmit s x g.toks
        else dataNode s x n.fmt (fun _ t => isData t (cvSrc n)) fun s x =>
          let toks := g.toks ++ [a]
          if toks.length = laneCount n.fmt / laneCount (cvSrc n) then qzEmit s x toks
          else noOut (s.updNode x.n fun y => { y with groups := y.groups.map fun h =>
            if h.ctx == x.n.ctx && h.iter == x.n.iter then { h with toks := toks } else h }) x
      | some _, none =>
        dataNode s x n.fmt (fun _ t => isData t (cvSrc n)) fun s x =>
          noOut (s.updNode x.n fun y => { y with groups := y.groups ++ [⟨x.n.ctx, x.n.iter, [x.get 0]⟩] }) x
      | none, _ => .wait

/-! ### CV8 (R218) -/

/-- x × 2^K. -/
def scaleVal (v : FVal) (k : Int) : FVal := match v with | .num n m e => .num n m (e + k) | v => v

/-- A finite value rounded to E4M3 or E5M2 under a CV8 variant: RNE, SR, RNES, SRS; `r` is the stochastic draw. -/
def cv8Round (g : FloatFmt) (var : Nat) (r : Nat) (v : FVal) : Nat :=
  let sat (bits : Nat) (n : Bool) : Nat := if 2 ≤ var && !g.fin && bits == encInf g n then encMax g n else bits
  match v with
  | .num n m e =>
    if var % 2 = 0 || m = 0 then sat (roundF g .rne n m e).bits n
    else
      let q := max ((Nat.log2 m : Int) + e - g.mb) (g.emin - g.mb)
      sat (roundF g .rne n (roundSR m e q r) q).bits n
  | v => (rneF g (exactOf v)).1

/-- CV8: wide to 8-bit with a scale, or 8-bit to wide (R218). -/
def execCv8 (n : NodeFields) (s : State) : Out :=
  fireNode s 0x33 n fun s x => seedLoad s x <|
    dataNode s x n.fmt (fun _ t => isData t (cvSrc n)) fun s x =>
      let a := x.get 0
      let f := (fmtFloat (cvSrc n)).getD fp32
      let g := x.ff
      let sr := n.var.toNat % 2 == 1
      let l := lfsrAt (s.fab x.n.r) x.n
      let elem (i : Nat) : Nat × Nat :=
        let v := scaleVal (fpLane f a i).1 (cvK n)
        let k := if laneCount (cvSrc n) ≤ laneCount n.fmt then i else i - cvPart n * laneCount n.fmt
        let bits := if isFPV n.fmt then (rneF g (exactOf v)).1 else cv8Round g n.var.toNat (lfsrR (lfsrSteps (k + 1) l)) v
        (bits, cvtTag f g (min a.sig.toNat f.p) (isZeroV v) (decodeF g bits))
      let t := cvResult x elem
      if sigLowNode s x t then .park cSIGLOW x.info (some t)
      else
        let steps := min (laneCount (cvSrc n)) (laneCount n.fmt)
        let s := if sr then setLfsr s x.n (lfsrSteps steps l) else s
        oneOut s x t

end Sys2Proof.Machine
end

