-- ==== Sys2Proof/Machine/Hash.lean ====
section
/-!
DEFINITION. SHAKE256 as images and snapshots use it (06 R123, R127, R128, 21 Table 21-4). The specification names the function
without defining it: FIPS 202's is taken (log 26).
-/

namespace Sys2Proof.Machine

open Sys2Proof

/-- The 25 lanes of the permutation's state, lane x + 5y. -/
abbrev Lanes := List Word

def lane (a : Lanes) (i : Nat) : Word := a.getD i 0

/-- Rotation of each lane. -/
def kecRot : List Nat :=
  [0, 1, 62, 28, 27, 36, 44, 6, 55, 20, 3, 10, 43, 25, 39, 41, 45, 15, 21, 8, 18, 2, 61, 56, 14]

/-- Round constants. -/
def kecRc : List Word :=
  [0x0000000000000001, 0x0000000000008082, 0x800000000000808A, 0x8000000080008000, 0x000000000000808B, 0x0000000080000001,
   0x8000000080008081, 0x8000000000008009, 0x000000000000008A, 0x0000000000000088, 0x0000000080008009, 0x000000008000000A] ++
  [0x000000008000808B, 0x800000000000008B, 0x8000000000008089, 0x8000000000008003, 0x8000000000008002, 0x8000000000000080,
   0x000000000000800A, 0x800000008000000A, 0x8000000080008081, 0x8000000000008080, 0x0000000080000001, 0x8000000080008008]

/-- One round. -/
def kecRound (a : Lanes) (rc : Word) : Lanes :=
  let c := (List.range 5).map fun x => (List.range 5).foldl (fun acc y => acc ^^^ lane a (x + 5 * y)) 0
  let a := (List.range 25).map fun i => lane a i ^^^ lane c ((i + 4) % 5) ^^^ (lane c ((i + 1) % 5)).rotateLeft 1
  let b := (List.range 25).map fun i =>
    let j := (i % 5 + 3 * (i / 5)) % 5 + 5 * (i % 5)
    (lane a j).rotateLeft (kecRot.getD j 0)
  (List.range 25).map fun i =>
    let row := i / 5 * 5
    lane b i ^^^ (~~~lane b (row + (i + 1) % 5) &&& lane b (row + (i + 2) % 5)) ^^^ (if i = 0 then rc else 0)

def keccakF (a : Lanes) : Lanes := kecRc.foldl kecRound a

/-- Bytes as a number, lowest first. -/
def leNat (bs : List Byte) : Nat := bs.foldr (fun b acc => b.toNat + 256 * acc) 0

/-- n bytes at an offset as a number, lowest first. -/
def leAt (bs : List Byte) (o n : Nat) : Nat := leNat ((bs.drop o).take n)

/-- Absorbs a block of 136 bytes. -/
def absorb (a : Lanes) (blk : List Byte) : Lanes :=
  keccakF ((List.range 25).map fun i => if i < 17 then lane a i ^^^ BitVec.ofNat 64 (leAt blk (8 * i) 8) else lane a i)

/-- The message with SHAKE's suffix and padding. -/
def shakePad (m : List Byte) : List Byte :=
  let z := 135 - m.length % 136
  if z = 0 then m ++ [0x9F] else m ++ 0x1F :: List.replicate (z - 1) 0 ++ [0x80]

/-- Absorbs n blocks. -/
def absorbAll : Nat → Lanes → List Byte → Lanes
  | 0, a, _ => a
  | n + 1, a, m => absorbAll n (absorb a (m.take 136)) (m.drop 136)

/-- The first 256 bits of SHAKE256, byte i in bits [8i+7:8i]. -/
def shake256 (m : List Byte) : BitVec 256 :=
  let p := shakePad m
  let a := absorbAll (p.length / 136) (List.replicate 25 0) p
  BitVec.ofNat 256 ((lane a 0).toNat + 2 ^ 64 * (lane a 1).toNat + 2 ^ 128 * (lane a 2).toNat + 2 ^ 192 * (lane a 3).toNat)

end Sys2Proof.Machine
end

