-- ==== Sys2Proof/Machine/Image.lean ====
section
/-!
DEFINITION. Sormel images (06_encoding.md R112 to R129): the acceptance of node words, shape records and sticky
descriptors, the sections, and the loader's six checks.
-/

namespace Sys2Proof.Machine

open Sys2Proof

def cLOAD_BADOP : BitVec 8 := 0x88
def cLOAD_RSVD : BitVec 8 := 0x89
def cLOAD_BUFFERS : BitVec 8 := 0x8A
def cLOAD_CONVPATH : BitVec 8 := 0x8B
def cLOAD_SIGNATURE : BitVec 8 := 0x8C
def cLOAD_FIT : BitVec 8 := 0x8D

/-- A check passes, or names its cause. -/
abbrev Chk := Except (BitVec 8)

def need (ok : Bool) (c : BitVec 8) : Chk Unit := if ok then .ok () else .error c

/-- Every item passes, in order. -/
def eachOk {α : Type} (f : α → Chk Unit) : List α → Chk Unit
  | [] => .ok ()
  | a :: l => match f a with | .ok _ => eachOk f l | .error c => .error c

/-! ### Node words (R113 to R118 and the entries' tables) -/

/-- Where an opcode may stand (Table 6-12). -/
inductive TileKind where | ct | mt | any
deriving DecidableEq, Repr

/-- What a node's entry admits: counts of ports (bit n: ARITY n), formats (bit f: FMT f), number of variants, IMM32 bits in
use, whether IMM32 is the immediate operand, flags, tiles. -/
structure NodeEntry where
  arity : BitVec 4
  fmts : BitVec 32
  vars : Nat
  imm : BitVec 32
  immOp : Bool
  flags : BitVec 8
  tile : TileKind
deriving DecidableEq, Repr

def mFPV : BitVec 32 := 0x1C00
def mINT : BitVec 32 := 0x1FE
def mFP64 : BitVec 32 := 0x200
def mE8 : BitVec 32 := 0x6000
def mZB : BitVec 32 := 0x18000
def mAll : BitVec 32 := 0x1FFFFF
def mRAW : BitVec 32 := 1
def mWME : BitVec 32 := 0x100000
def mSig : BitVec 32 := mFPV ||| mFP64 ||| mE8 ||| mZB ||| 0x80000
def mU64 : BitVec 32 := 0x100

/-- Vector, conversion and significance nodes (Table 11-1). -/
def vecEntry (opc : Nat) : Option NodeEntry :=
  let v (ar : BitVec 4) (f : BitVec 32) (k : Nat) (imm : BitVec 32) (op : Bool) (fl : BitVec 8) : Option NodeEntry :=
    some ⟨ar, f, k, imm, op, fl ||| 0x80, .ct⟩
  if opc ≤ 0x02 || opc = 0x08 then v 4 mFPV 1 0xFFFFFFFF true 6
  else if opc = 0x03 then v 8 mFPV 1 0xFFFFFFFF true 6
  else if opc ≤ 0x05 then v 4 mFPV 1 0xFFFFFFFF true 2
  else if opc ≤ 0x07 then v 2 mFPV 1 0 false 2
  else if opc ≤ 0x0E then v 2 mFPV 1 0 false 6
  else if opc = 0x10 || opc = 0x11 || opc = 0x17 then v 4 mINT 2 0xFFFFFFFF true 2
  else if opc = 0x12 then v 4 mINT 3 0xFFFFFFFF true 2
  else if 0x13 ≤ opc && opc ≤ 0x15 then v 4 (mAll &&& ~~~mWME) 1 0xFFFFFFFF true 2
  else if opc = 0x16 then v 4 mINT 1 0xFFFFFFFF true 2
  else if opc = 0x18 then v 4 (mFPV ||| mINT) 7 0xFFFFFFFF true 2
  else if opc = 0x19 then v 8 (mFPV ||| mINT) 1 0xFFFFFFFF true 2
  else if opc = 0x20 then v 2 (mFPV ||| mINT) 2 0x7F false 6
  else if 0x21 ≤ opc && opc ≤ 0x23 then v 2 (mFPV ||| mINT) 2 0x7F false 2
  else if opc = 0x24 then v 6 (mFPV ||| mINT) 4 0 false 6
  else if opc = 0x25 then v 4 (mAll &&& ~~~(mRAW ||| mWME)) 2 0x1F false 2
  else if opc = 0x26 then v 2 (mAll &&& ~~~(mRAW ||| mWME ||| mZB)) 1 0x7F false 2
  else if opc = 0x27 then v 2 (mAll &&& ~~~(mRAW ||| mWME)) 3 0 false 2
  else if opc = 0x30 then v 2 (mFPV ||| mFP64 ||| mINT ||| mE8 ||| mZB) 1 0x71FFF false 6
  else if opc = 0x31 then v 2 mZB 4 0x71FFF false 4
  else if opc = 0x32 then v 2 mFPV 1 0x71FFF false 6
  else if opc = 0x33 then v 2 (mE8 ||| mFPV) 4 0x71FFF false 6
  else if opc = 0x34 then v 6 0x400 2 7 false 6
  else if opc = 0x35 then v 6 mSig 3 0xFFFFFFFF true 2
  else if opc = 0x36 then v 2 mSig 2 0x7F false 0
  else none

/-- Matrix nodes (Table 12-3). -/
def mxEntry (opc : Nat) : Option NodeEntry :=
  match opc with
  | 0x40 => some ⟨4, 0x80, 1, 0, false, 0x80, .ct⟩
  | 0x41 | 0x42 | 0x43 | 0x45 => some ⟨2, mU64, 1, 0, false, 0x80, .ct⟩
  | 0x44 => some ⟨2, mFPV, 2, 0, false, 0x80, .ct⟩
  | 0x46 => some ⟨2, mFPV, 1, 0, false, 0x80, .ct⟩
  | 0x47 => some ⟨2, 0x20, 1, 0, false, 0x80, .ct⟩
  | _ => none

/-- Flow nodes (Table 13-1); "any" is FMT 0 in the word (R241). -/
def flowEntry (opc : Nat) : Option NodeEntry :=
  let v (ar : BitVec 4) (f : BitVec 32) (k : Nat) (imm : BitVec 32) : Option NodeEntry := some ⟨ar, f, k, imm, false, 0x80, .any⟩
  match opc with
  | 0x50 => v 6 1 2 0
  | 0x51 => some ⟨4, 1, 2, 0xFFFF, false, 0x81, .any⟩
  | 0x52 => v 2 1 2 0x3FFFF
  | 0x53 => v 12 1 2 0x3FFFFF
  | 0x54 => v 4 1 1 0
  | 0x55 => v 2 1 1 0x3F
  | 0x56 | 0x57 => v 2 1 1 0
  | 0x58 => v 12 0x88 4 0xFFFF
  | 0x59 => v 6 0x80 3 7
  | 0x5A => v 4 0xC0000 1 0
  | 0x5B => v 4 0xC0000 2 0
  | 0x5C => v 2 1 2 3
  | 0x5D => v 2 1 1 0xFFFF
  | 0x5E => v 2 1 2 0xFFFFFFFF
  | 0x5F => v 2 1 2 0xFFFF
  | 0x60 => v 4 1 1 0x1FFFFFF
  | 0x61 => v 8 1 1 0
  | 0x62 | 0x63 | 0x64 => v 2 1 1 0x3F
  | 0x65 => v 6 1 3 0
  | 0x66 => v 3 (mAll &&& ~~~(mRAW ||| mWME ||| mZB)) 4 0xFFFFFFFF
  | _ => none

/-- Memory and rule nodes (Tables 14-1 and 19-3). -/
def memEntry (opc : Nat) : Option NodeEntry :=
  let v (ar : BitVec 4) (f : BitVec 32) (k : Nat) (imm : BitVec 32) (fl : BitVec 8) : Option NodeEntry :=
    some ⟨ar, f, k, imm, false, fl ||| 0x80, .mt⟩
  let x := mFPV ||| mFP64 ||| mINT ||| mE8
  match opc with
  | 0x70 => v 6 mU64 2 0x7F 0
  | 0x71 => v 2 mAll 2 0x1F 0xA
  | 0x72 => v 4 mAll 2 0x1F 0xA
  | 0x73 => v 2 x 2 0x1F 0xB
  | 0x74 => v 4 x 2 0x1F 0xA
  | 0x75 => v 14 0x198 6 3 0xA
  | 0x76 => v 2 mU64 1 3 0xA
  | 0x77 => v 2 mU64 2 3 2
  | 0x78 => v 2 0x80000 1 3 2
  | 0x79 => v 2 0x180 1 7 0
  | 0x80 => some ⟨1, mWME, 1, 0, false, 0x80, .ct⟩
  | 0x81 => some ⟨12, mWME, 1, 0, false, 0x80, .ct⟩
  | 0x82 | 0x83 => v 4 mU64 1 0x1FF 0
  | 0x84 => v 8 mU64 1 0x3FFFF 0
  | 0x85 => some ⟨4, mU64, 1, 0, false, 0x80, .ct⟩
  | _ => none

/-- The entry of an opcode (Table 6-12). -/
def entryOf (opc : BitVec 8) : Option NodeEntry :=
  let k := opc.toNat
  if k < 0x40 then vecEntry k
  else if k < 0x50 then mxEntry k
  else if k < 0x70 then flowEntry k
  else memEntry k

/-- Kinds that R233 and R315 fix for ports a, b, c. -/
def fixedKinds (opc : Nat) : Option (List (BitVec 2)) :=
  if 0x40 ≤ opc && opc ≤ 0x47 then some [0, 0, 0]
  else match opc with
    | 0x81 => some [0, 2, 0] | 0x82 | 0x83 => some [0, 0, 3] | 0x84 => some [0, 0, 2] | 0x85 => some [0, 2, 3] | _ => none

/-- The pair of formats of a conversion (Table 11-3). -/
def pairOk (opc : Nat) (src dst : BitVec 5) : Bool :=
  let has (m : BitVec 32) (f : BitVec 5) : Bool := m.getLsbD f.toNat
  let ctf := mFPV ||| mFP64 ||| mINT
  let e8 := (has mFPV src && has mE8 dst) || (has mE8 src && has mFPV dst)
  match opc with
  | 0x31 => has mFPV src && has mZB dst
  | 0x32 => has mZB src && has mFPV dst
  | 0x33 => e8
  | _ => (has ctf src && has ctf dst && src != dst && !(has mINT src && has mINT dst)) || e8 ||
      ((src == 0xB || src == 0xC) && has mZB dst) || (has mZB src && has mFPV dst)

/-- Is a node a converter (R118, R127 check 3)? -/
def isConverter (opc : BitVec 8) (n : NodeFields) : Bool :=
  let c (f : BitVec 5) : Bool := (mE8 ||| mZB).getLsbD f.toNat
  opc == 0x31 || opc == 0x32 || opc == 0x33 || (opc == 0x30 && (c n.fmt || c (n.imm.extractLsb' 8 5)))

/-- The conversion fields of IMM32 (R217 to R219). -/
def convOk (opc : Nat) (n : NodeFields) : Bool :=
  let src : BitVec 5 := n.imm.extractLsb' 8 5
  let k : BitVec 8 := n.imm.extractLsb' 0 8
  let j := (n.imm.extractLsb' 16 3).toNat
  let ns := laneCount src
  let nd := laneCount n.fmt
  pairOk opc src n.fmt &&
    (match opc with
      | 0x33 => -64 ≤ k.toInt && k.toInt ≤ 63 && (n.var == 0 || !mFPV.getLsbD n.fmt.toNat)
      | 0x31 => if n.var.toNat < 2 then 1 ≤ k.toInt && k.toInt ≤ 7 else k == 0
      | _ => k == 0) &&
    j < (if opc = 0x31 then 1 else max (ns / nd) (nd / ns))

/-- What an entry demands beyond its table row (R206, R209, R216 to R219, R223, R224, R245, R251, R267, R279). -/
def specialOk (opc : Nat) (n : NodeFields) : Bool :=
  let v := n.var.toNat
  let ar := n.arity.toNat
  let im := n.imm.toNat
  let lanes := laneCount n.fmt
  if 0x20 ≤ opc && opc ≤ 0x23 then 1 ≤ im % 128 && im % 128 ≤ lanes
  else if opc = 0x26 then im % 128 < lanes
  else if opc = 0x18 then !(v == 6 && isINT n.fmt)
  else if opc = 0x17 then !(v == 1 && isINT n.fmt && !isSigned n.fmt)
  else if opc = 0x27 then !(v == 2 && !isINT n.fmt && n.fmt != 0x11)
  else if 0x30 ≤ opc && opc ≤ 0x33 then convOk opc n
  else if opc = 0x25 then im % 16 * (if n.imm.getLsbD 4 then 32 else 64) < lanes
  else match opc with
  | 0x34 => im ≤ 4 && ar == (if im = 4 then 2 else 1) && (v == 0 || im == 4)
  | 0x35 => ar == (if v = 0 then 1 else 2)
  | 0x51 => !(v == 1 && !fORD n) && (im == 0 || (v == 1 && fORD n))
  | 0x53 => im / 2 ^ 20 != 3 && ar == v + 2
  | 0x58 => ar == (if v = 0 then 2 else 3)
  | 0x59 => ar == (if v = 0 then 1 else 2) && !(v == 0 && n.imm.getLsbD 2)
  | 0x5B => !(v == 1 && n.fmt == 0x12)
  | 0x5C => im == 0 || v == 1
  | 0x5D | 0x5E => im != 0
  | 0x70 => n.imm.extractLsb' 2 2 != 3#2 && (n.imm.extractLsb' 4 3 == 0#3 || n.imm.extractLsb' 2 2 == 2#2)
  | 0x71 | 0x72 =>
    let sz := (n.imm.extractLsb' 2 3).toNat
    sz ≤ 6 && !(sz < 6 && (n.fmt == 0xF || n.fmt == 0x10 || n.fmt == 0x14)) && !(opc == 0x71 && v == 1 && fCMPL n)
  | 0x73 | 0x74 =>
    let j := (n.imm.extractLsb' 2 3).toNat
    if 16 ≤ lanes then j < lanes / 16 else j < 2
  | 0x75 => ar == (if v = 5 then 1 else if v = 4 then 3 else 2)
  | 0x79 => if n.fmt == 8 then im ≤ 4 else im == 0
  | _ => true

def routeEn (w : BitVec 32) : Bool := w.getLsbD 31
def routeTag (w : BitVec 32) : BitVec 2 := w.extractLsb' 8 2

/-- The route words of an entry: TAGOPs and routes that stay disabled (R117, R253, R267, R315). -/
def routesOk (opc : Nat) (n : NodeFields) : Bool :=
  let rs := [n.route0, n.route1]
  let tags (f : BitVec 2 → Bool) : Bool := rs.all fun w => !routeEn w || f (routeTag w)
  rs.all routeOk &&
    (match opc with
      | 0x53 => tags (· != 2)
      | 0x54 => routeTag n.route0 == 1 && routeTag n.route1 == 0
      | 0x55 => tags (· == 2)
      | 0x56 => routeEn n.route1 && tags (· == 0)
      | 0x57 => n.route0 == 0x80000200#32 && n.route1 == 0
      | 0x72 => tags (· == 0) && (n.var != 0 || !routeEn n.route0)
      | 0x74 => tags (· == 0) && !routeEn n.route0
      | 0x77 | 0x85 => !routeEn n.route0 && !routeEn n.route1
      | 0x78 => tags (· == 0) && !routeEn n.route1
      | _ => tags (· == 0))

/-- A node word at check 2: LOAD_BADOP before LOAD_RSVD (R113 to R118, R127). DESIGN CHOICE (log 93): a VSIG GET may have an immediate
port a, with IMM32 0; R206 and R224 do not say. DESIGN CHOICE (log 98): a node whose IMM32 column is 0 may have none. -/
def checkWord (w : BitVec 128) : Chk Unit :=
  let n := nodeFields w
  let opc := nodeOpc w
  match entryOf opc with
  | none => .error cLOAD_BADOP
  | some e =>
    let ks := [n.ka, n.kb, n.kc]
    let imms := ks.any (· == 1)
    need (kindsOk n && oneImm n && e.arity.getLsbD n.arity.toNat && (e.immOp || !imms) &&
      (match fixedKinds opc.toNat with | some f => (ks.zip f).take n.arity.toNat |>.all fun k => k.1 == k.2 | none => true) &&
      e.fmts.getLsbD n.fmt.toNat && n.var.toNat < e.vars && n.imm &&& ~~~e.imm == 0 &&
      (!e.immOp || (if opc == 0x35 then n.imm.toNat < (if n.kb == 1 then 128 else 1) else imms || n.imm == 0)) &&
      n.flags &&& ~~~e.flags == 0 && specialOk opc.toNat n && routesOk opc.toNat n) cLOAD_RSVD

/-! ### Shape records and sticky descriptors -/

/-- A shape record from its 64 bytes (Table 5-1). -/
def parseShape (b : List Byte) : ShapeRec :=
  let w (o : Nat) : Word := BitVec.ofNat 64 (leAt b o 8)
  let h (o : Nat) : BitVec 32 := BitVec.ofNat 32 (leAt b o 4)
  ⟨w 0, b.getD 8 0, b.getD 9 0, BitVec.ofNat 16 (leAt b 10 2), h 12, h 16, h 20, h 24, w 28, w 36, w 44, w 52⟩

/-- A record that R75 accepts; the reserved word at offset 60 is 0. -/
def shapeOk (b : List Byte) : Bool :=
  let h := parseShape b
  1 ≤ h.ndim.toNat && h.ndim.toNat ≤ 4 && h.fmt.toNat ≤ 0x14 && h.flags.toNat < 32 && h.flags.extractLsb' 3 2 != 3#2 &&
    (!h.flags.getLsbD 0 || h.fmt == 0xF || h.fmt == 0x10) && leAt b 60 4 == 0

/-- A record of an image: R75, and R274 under ZB pairing. -/
def imageShapeOk (b : List Byte) : Bool :=
  let h := parseShape b
  shapeOk b && (!h.flags.getLsbD 0 ||
    (h.ndim.toNat ≤ 3 && h.e3 == 1 && ((([h.s0, h.s1, h.s2] : List Word).take h.ndim.toNat).all fun s => s.toNat % 64 == 0)))

/-- A token from a descriptor, scale lane and payload (Table 6-13). -/
def tokenOf (d : BitVec 16) (scale : BitVec 64) (payload : BitVec 512) : Token where
  kind := d.extractLsb' 13 3
  fmt := d.extractLsb' 8 5
  sig := d.extractLsb' 1 7
  pred := d.getLsbD 0
  ctx := 0
  iter := 0
  drow := 0
  dcol := 0
  node := 0
  port := 0
  seq := 0
  scale := scale
  payload := payload

/-- The test descriptor of an ALPHA (R317, Table 19-4). -/
def alphaDescOk (arity : BitVec 2) (t : Token) : Bool :=
  let l (i : Nat) : Nat := t.lane 64 i
  let nt := l 0 / 2 ^ 24 % 16
  nt ≤ 3 && l 0 / 2 ^ 28 == 0 && l 0 / 2 ^ 19 % 2 == 0 && l 7 == 0 && ([1, 3, 5].all fun i => l i < 128) &&
    (List.range nt).all fun k =>
      let a := l (2 * k + 1) % 16
      l (2 * k + 1) / 16 % 8 != 7 && a != 0 && !(a > 7 && arity == 2)

/-- The selection token of a SCORE (R322). -/
def scoreDescOk (t : Token) : Bool :=
  let l (i : Nat) : Nat := t.lane 32 i
  t.kind == kDATA && t.fmt == 7 &&
    ((List.range 6).all fun i => Nat.land (l i) 0x7FFFFF08 == 0 && (l i < 2 ^ 31 || l i / 16 % 16 != 0)) &&
    ((List.range 8).all fun i => l (6 + i) == 0) && l 14 < 65536

/-- The rule descriptor of a TERM (R323, Table 19-5). -/
def termDescOk (t : Token) : Bool :=
  let l (i : Nat) : Nat := t.lane 64 i
  let nc := l 0 / 2 ^ 32 % 8 + 1
  let neg := l 0 / 2 ^ 40 % 256
  l 0 / 2 ^ 35 % 16 == 0 && l 6 == 0 && l 7 == 0 && l 0 / 2 ^ 56 ≤ 12 && l 0 / 2 ^ 48 % 256 < 2 ^ nc && neg < 2 ^ nc && neg % 2 == 0

/-- A sticky entry as stored: place, port, token. -/
structure RawSticky where
  row : Nat
  col : Nat
  slot : Nat
  port : Nat
  tok : Token
deriving DecidableEq, Repr

/-- A node as stored. -/
structure RawNode where
  row : Nat
  col : Nat
  slot : Nat
  word : BitVec 128
deriving DecidableEq, Repr

def RawNode.opc (x : RawNode) : Nat := (nodeOpc x.word).toNat
def RawNode.nf (x : RawNode) : NodeFields := nodeFields x.word

def findRaw (ns : List RawNode) (row col slot : Nat) : Option RawNode :=
  ns.find? fun x => x.row == row && x.col == col && x.slot == slot

/-- A sticky entry at check 2. -/
def stickyOk (ns : List RawNode) (b : List Byte) (e : RawSticky) : Bool :=
  leAt b 6 2 == 0 && leAt b 80 16 == 0 &&
    match findRaw ns e.row e.col e.slot with
    | none => true
    | some x => match x.opc, e.port with
      | 0x81, 1 => alphaDescOk x.nf.arity e.tok
      | 0x84, 2 => scoreDescOk e.tok
      | 0x85, 1 => termDescOk e.tok
      | _, _ => true

def rawSticky (b : List Byte) : RawSticky :=
  ⟨leAt b 0 1, leAt b 1 1, leAt b 2 1, leAt b 3 1,
    tokenOf (BitVec.ofNat 16 (leAt b 4 2)) (BitVec.ofNat 64 (leAt b 8 8)) (BitVec.ofNat 512 (leAt b 16 64))⟩

/-! ### Sections (R121 to R126) -/

/-- A configuration section as parsed. -/
structure RawCfg where
  index : Nat
  crows : Nat
  ccols : Nat
  flags : BitVec 8
  sigctl : BitVec 8
  sprue : Nat
  ctxwait : BitVec 32
  tiles : List (Nat × Nat)
  nodes : List RawNode
  stickies : List RawSticky
  shapes : List ShapeRec
  rsig : BitVec 256
deriving DecidableEq, Repr

/-- The RSIG of a section's bytes (Table 6-17). -/
def rsigOf (b : List Byte) : BitVec 256 := shake256 (b.take 32 ++ List.replicate 32 0 ++ b.drop 64)

/-- The node words of a tile's mask, from slot 64 − k on; each is checked as it is read. -/
def parseWords (row col mask : Nat) : Nat → List Byte → Chk (List RawNode × List Byte)
  | 0, b => .ok ([], b)
  | k + 1, b =>
    let slot := 63 - k
    if mask / 2 ^ slot % 2 = 0 then parseWords row col mask k b
    else do
      need (16 ≤ b.length) cLOAD_RSVD
      let w := BitVec.ofNat 128 (leAt b 0 16)
      checkWord w
      let (ns, b) ← parseWords row col mask k (b.drop 16)
      return (⟨row, col, slot, w⟩ :: ns, b)

/-- The tile records. -/
def parseTiles : Nat → List Byte → Chk (List (Nat × Nat) × List RawNode × List Byte)
  | 0, b => .ok ([], [], b)
  | k + 1, b => do
    need (16 ≤ b.length && leAt b 2 6 == 0) cLOAD_RSVD
    let (ns, b') ← parseWords (leAt b 0 1) (leAt b 1 1) (leAt b 8 8) 64 (b.drop 16)
    let (ts, ms, b'') ← parseTiles k b'
    return ((leAt b 0 1, leAt b 1 1) :: ts, ns ++ ms, b'')

/-- The sticky entries. -/
def parseStickies (ns : List RawNode) : Nat → List Byte → Chk (List RawSticky × List Byte)
  | 0, b => .ok ([], b)
  | k + 1, b => do
    let e := rawSticky b
    need (96 ≤ b.length && stickyOk ns b e) cLOAD_RSVD
    let (es, b') ← parseStickies ns k (b.drop 96)
    return (e :: es, b')

/-- The shape records. -/
def parseShapes : Nat → List Byte → Chk (List ShapeRec)
  | 0, _ => .ok []
  | k + 1, b => do
    need (64 ≤ b.length && imageShapeOk b) cLOAD_RSVD
    return parseShape b :: (← parseShapes k (b.drop 64))

/-- A CFG section (R123, Table 6-17). Bytes after its last shape record are accepted: R123 does not speak of them (log 77). -/
def parseCfg (index : Nat) (b : List Byte) : Chk RawCfg := do
  let crows := leAt b 0 1
  let ccols := leAt b 1 1
  let sprue := leAt b 4 2
  need (64 ≤ b.length && 1 ≤ crows && crows ≤ 9 && 1 ≤ ccols && ccols ≤ 11 && leAt b 2 1 < 8 && sprue ≤ 256 &&
    leAt b 16 16 == 0) cLOAD_RSVD
  let (tiles, nodes, b1) ← parseTiles (leAt b 6 2) (b.drop 64)
  let (stickies, b2) ← parseStickies nodes (leAt b 12 2) b1
  let shapes ← parseShapes (leAt b 14 2) b2
  return ⟨index, crows, ccols, b.getD 2 0, b.getD 3 0, if sprue = 0 then 16 else sprue, BitVec.ofNat 32 (leAt b 8 4),
    tiles, nodes, stickies, shapes, rsigOf b⟩

/-- A PBT entry as stored, with its configuration index. -/
structure RawPbt where
  cfg : Nat
  side : Nat
  idx : Nat
  out : Bool
  slot : Nat
  port : Nat
  rec_ : List Byte
deriving DecidableEq, Repr

/-- The PBT section (R124); `known` tells which configuration indices the image has. -/
def parsePbt (known : Nat → Bool) : Nat → List Byte → Chk (List RawPbt)
  | 0, b => if b.isEmpty then .ok [] else .error cLOAD_RSVD
  | k + 1, b =>
    if b.isEmpty then .ok []
    else do
      let e : RawPbt := ⟨leAt b 0 1, leAt b 1 1, leAt b 2 1, leAt b 3 1 == 1, leAt b 4 1, leAt b 5 1, (b.drop 8).take 64⟩
      need (80 ≤ b.length && known e.cfg && e.side ≤ 3 && leAt b 3 1 ≤ 1 && leAt b 6 2 == 0 && leAt b 72 8 == 0 &&
        (!e.out || (e.slot == 0 && e.port == 0)) && imageShapeOk e.rec_) cLOAD_RSVD
      return e :: (← parsePbt known k (b.drop 80))

/-- A BST entry: configuration index, need, node references (R126). -/
structure RawBst where
  cfg : Nat
  need : Nat
  refs : List (Nat × Nat × Nat)
deriving DecidableEq, Repr

/-- The BST section (R126). -/
def parseBst (known : Nat → Bool) : Nat → List Byte → Chk (List RawBst)
  | 0, b => if b.isEmpty then .ok [] else .error cLOAD_RSVD
  | k + 1, b =>
    if b.isEmpty then .ok []
    else do
      let m := leAt b 2 2
      need (8 ≤ b.length && known (leAt b 0 2) && 2 ≤ m && m ≤ 64 && 8 + 4 * m ≤ b.length &&
        (List.range m).all fun i => leAt b (11 + 4 * i) 1 == 0) cLOAD_RSVD
      let refs := (List.range m).map fun i => (leAt b (8 + 4 * i) 1, leAt b (9 + 4 * i) 1, leAt b (10 + 4 * i) 1)
      return ⟨leAt b 0 2, leAt b 4 4, refs⟩ :: (← parseBst known k (b.drop (8 + 4 * m)))

/-- A section of the table (Table 6-16). -/
structure Sect where
  typ : Nat
  idx : Nat
  off : Nat
  size : Nat
deriving DecidableEq, Repr

/-- The section table: its entries, in order. -/
def sectTable (b : List Byte) : List Sect :=
  (List.range (leAt b 6 2)).map fun i =>
    let o := leAt b 16 8 + 32 * i
    ⟨leAt b o 4, leAt b (o + 4) 4, leAt b (o + 8) 8, leAt b (o + 16) 8⟩

def Sect.bytes (t : Sect) (b : List Byte) : List Byte := (b.drop t.off).take t.size

/-- Do two byte ranges overlap? -/
def spansMeet (a b : Nat × Nat) : Bool := a.1 < b.1 + b.2 && b.1 < a.1 + a.2 && a.2 != 0 && b.2 != 0

/-- No two spans of a list overlap. -/
def spansApart : List (Nat × Nat) → Bool
  | [] => true
  | a :: l => !l.any (spansMeet a) && spansApart l

/-- The header and the section table (R121, R122). R121 names neither the signature over the header nor a section over the section
table: both are accepted (log 77). -/
def headerOk (b : List Byte) : Bool :=
  let nsec := leAt b 6 2
  let tab := leAt b 16 8
  let ss := sectTable b
  let cfgs := (ss.filter (·.typ = 1)).map (·.idx)
  leAt b 0 4 == 0x35494D53 && leAt b 4 2 == 1 && leAt b 40 24 == 0 && 1 ≤ nsec && nsec ≤ 64 && tab % 8 == 0 &&
    tab + 32 * nsec ≤ b.length &&
    (ss.zipIdx.all fun (t, i) => 1 ≤ t.typ && t.typ ≤ 6 && leAt b (tab + 32 * i + 24) 8 == 0 && t.off % 64 == 0 &&
      t.off + t.size ≤ b.length && (if t.typ = 1 then t.idx ≤ 63 else t.idx = 0)) &&
    cfgs.dedup.length == cfgs.length && ([2, 3, 4].all fun k => ss.countP (·.typ = k) ≤ 1) &&
    spansApart (ss.map fun t => (t.off, t.size)) &&
    ss.all fun t => !spansMeet (t.off, t.size) (0, 64) && !spansMeet (t.off, t.size) (leAt b 24 8, leAt b 32 4)

/-- An image as parsed. -/
structure Image where
  cfgs : List RawCfg
  pbt : List RawPbt
  pbtBytes : Option (List Byte)
  bst : List RawBst
  data : List (List Byte)
deriving DecidableEq, Repr

/-- The sections of an image in order (check 2). A DATA section longer than its length field says is accepted: R125 does not speak
of its further bytes (log 77). -/
def parseSects (known : Nat → Bool) (b : List Byte) : List Sect → Image → Chk Image
  | [], m => .ok m
  | t :: ts, m => do
    let x := t.bytes b
    let m ← match t.typ with
      | 1 => do let c ← parseCfg t.idx x; pure { m with cfgs := m.cfgs ++ [c] }
      | 2 => do let p ← parsePbt known (x.length / 80) x; pure { m with pbt := p, pbtBytes := some x }
      | 4 => do let e ← parseBst known x.length x; pure { m with bst := e }
      | 5 => do
        need (16 ≤ x.length && 16 + leAt x 8 8 ≤ x.length) cLOAD_RSVD
        pure { m with data := m.data ++ [x] }
      | _ => pure m
    parseSects known b ts m

/-- Check 2 of R127. DESIGN CHOICE (log 93): the header and the whole section table come before the sections' contents, so a fault of a
later table entry is reported before one inside an earlier section. -/
def parseImage (b : List Byte) : Chk Image := do
  need (headerOk b) cLOAD_RSVD
  parseSects (fun i => (sectTable b).any fun t => t.typ == 1 && t.idx == i) b (sectTable b) ⟨[], [], none, [], []⟩

/-! ### The configuration that LAUNCH loads -/

/-- The AGEN nodes of a configuration, each with its shape record, in tile-record order (R123). -/
def RawCfg.agens (c : RawCfg) : List (RawNode × ShapeRec) := (c.nodes.filter (·.opc = 0x70)).zip c.shapes

/-- The configuration in a region, with the PBT entries of its index (R123, R124). -/
def RawCfg.load (c : RawCfg) (pbt : List RawPbt) : Cfg where
  crows := c.crows
  ccols := c.ccols
  flags := c.flags
  sigctl := c.sigctl
  sprue := c.sprue
  ctxwait := c.ctxwait
  nodes := c.nodes.map fun x => ⟨BitVec.ofNat 5 x.row, BitVec.ofNat 6 x.col, BitVec.ofNat 6 x.slot, x.word⟩
  stickies := c.stickies.map fun e =>
    let row : BitVec 5 := BitVec.ofNat 5 e.row
    let col : BitVec 6 := BitVec.ofNat 6 e.col
    let slot : BitVec 6 := BitVec.ofNat 6 e.slot
    let port : BitVec 2 := BitVec.ofNat 2 e.port
    ⟨row, col, slot, port, { e.tok with drow := row, dcol := col, node := slot, port := port }⟩
  shapes := c.agens.map fun (x, h) => ⟨BitVec.ofNat 5 x.row, BitVec.ofNat 6 x.col, BitVec.ofNat 6 x.slot, h⟩
  pbt := (pbt.filter (·.cfg = c.index)).map fun e =>
    ⟨BitVec.ofNat 2 e.side, BitVec.ofNat 8 e.idx, e.out, BitVec.ofNat 8 e.slot, BitVec.ofNat 8 e.port, parseShape e.rec_, e.rec_⟩
  rsig := c.rsig

/-! ### Checks 3 to 6 (R127) -/

/-- Cluster columns of converter nodes: all can stand on 0, 5 or 10 from some origin (R127 check 3). -/
def convPathOk (c : RawCfg) : Bool :=
  let cs := c.nodes.filter fun x => isConverter (nodeOpc x.word) x.nf
  (cs.all fun x => isMt x.row x.col) &&
    (cs.isEmpty || (List.range (12 - c.ccols)).any fun o => cs.all fun x => [0, 5, 10].contains (o + x.col / 3))

/-- Destinations of a node's enabled routes as (row, column, slot, port, TAGOP): every destination of a SWITCH (R247), the
continuation of a CALL, not the ROUTE0 of a RET (R253). -/
def rawDests (x : RawNode) : List (Int × Int × Nat × BitVec 2 × BitVec 2) :=
  let n := x.nf
  let one (i : Nat) (w : BitVec 32) : List (Int × Int × Nat × BitVec 2 × BitVec 2) :=
    if !routeEn w || (x.opc == 0x57 && i == 0) then []
    else
      let sw := x.opc == 0x60 && i == 0
      let count := if sw then (n.imm.extractLsb' 0 6).toNat + 1 else 1
      let step := (n.imm.extractLsb' 6 6).toNat
      let dxs := (n.imm.extractLsb' 12 7).toInt
      let dys := (n.imm.extractLsb' 19 6).toInt
      (List.range count).map fun (k : Nat) =>
        ((x.row : Int) + (w.extractLsb' 18 6).toInt + k * dys, (x.col : Int) + (w.extractLsb' 24 7).toInt + k * dxs,
          (w.extractLsb' 12 6).toNat + k * step, w.extractLsb' 10 2, routeTag w)
  one 0 n.route0 ++ one 1 n.route1

/-- The node a destination names. -/
def destNode (c : RawCfg) (d : Int × Int × Nat × BitVec 2 × BitVec 2) : Option RawNode :=
  if 0 ≤ d.1 && 0 ≤ d.2.1 then findRaw c.nodes d.1.toNat d.2.1.toNat d.2.2.1 else none

/-- Successors of node i in the route graph. -/
def graphNext (c : RawCfg) (i : Nat) : List Nat :=
  match c.nodes[i]? with
  | none => []
  | some x => ((rawDests x).filterMap fun d => (destNode c d).map fun y => c.nodes.findIdx (· == y)).dedup

/-- Elementary cycles whose least node is `s`, continuing a path that ends at `cur`. -/
def cyclesFrom (next : Nat → List Nat) (s : Nat) : Nat → List Nat → Nat → List (List Nat)
  | 0, _, _ => []
  | k + 1, path, cur => (next cur).flatMap fun w =>
      if w = s then [path] else if s < w && !path.contains w then cyclesFrom next s k (path ++ [w]) w else []

/-- Every elementary cycle of the route graph, once. -/
def graphCycles (c : RawCfg) : List (List Nat) :=
  (List.range c.nodes.length).flatMap fun s => cyclesFrom (graphNext c) s c.nodes.length [s] s

/-- The capacity of the cycle that an entry lists; none when it is no cycle (R126). -/
def cycleCap (c : RawCfg) (is : List (Option Nat)) : Option Nat :=
  (is.zip (is.rotateLeft 1)).foldl (fun acc (a, b) =>
    match acc, a, b with
    | some n, some i, some j =>
      if (graphNext c i).contains j then
        match c.nodes[i]?, c.nodes[j]? with
        | some x, some y => some (n + 4 + 16 * (((x.row : Int) - y.row).natAbs + ((x.col : Int) - y.col).natAbs))
        | _, _ => none
      else none
    | _, _, _ => none) (some 0)

/-- Buffer sufficiency (R126, R127 check 4). -/
def buffersOk (c : RawCfg) (bst : List RawBst) : Bool :=
  let es := (bst.filter (·.cfg = c.index)).map fun e =>
    (e.need, e.refs.map fun r => (findRaw c.nodes r.1 r.2.1 r.2.2).map fun y => c.nodes.findIdx (· == y))
  let cs := graphCycles c
  (es.all fun e => match cycleCap c e.2 with | some cap => e.1 ≤ cap | none => false) && cs.length ≤ 4096 &&
    cs.all fun cy => es.any fun e => (List.range e.2.length).any fun i => e.2.rotateLeft i == cy.map some

/-- A port of a node takes tokens (R113, R114). -/
def tokenPort (n : NodeFields) (p : Nat) : Bool :=
  match p with
  | 0 => n.ka == 0 && 0 < n.arity.toNat
  | 1 => n.kb == 0 && 1 < n.arity.toNat
  | 2 => n.kc == 0 && 2 < n.arity.toNat
  | _ => fPRD n

/-- The edge port at a point one step outside the shape on one axis and inside it on the other (R26, R117): side, index. -/
def rawEdge (c : RawCfg) (row col : Int) : Option (Nat × Nat) :=
  let rows : Int := 3 * c.crows
  let cols : Int := 3 * c.ccols
  let inR := 0 ≤ row && row < rows
  let inC := 0 ≤ col && col < cols
  if row = -1 && inC then some (0, col.toNat)
  else if col = cols && inR then some (1, row.toNat)
  else if row = rows && inC then some (2, col.toNat)
  else if col = -1 && inR then some (3, row.toNat)
  else none

/-- A route's destination (R117). -/
def destOk (c : RawCfg) (pbt : List RawPbt) (x : RawNode) (d : Int × Int × Nat × BitVec 2 × BitVec 2) : Bool :=
  if 0 ≤ d.1 && d.1 < 3 * c.crows && 0 ≤ d.2.1 && d.2.1 < 3 * c.ccols then
    (destNode c d).any fun y => tokenPort y.nf d.2.2.2.1.toNat
  else match rawEdge c d.1 d.2.1 with
    | none => false
    | some (side, idx) => d.2.2.1 == 0 && d.2.2.2.1 == 0 && d.2.2.2.2 == 0 &&
        (pbt.any fun e => e.cfg == c.index && e.side == side && e.idx == idx && e.out) &&
        (side % 2 == 0 || d.1 == x.row)

/-- The AGEN of a port of a tile, with its shape record. -/
def rawAgen (c : RawCfg) (x : RawNode) : List (RawNode × ShapeRec) :=
  c.agens.filter fun a => a.1.row == x.row && a.1.col == x.col && a.1.nf.imm.extractLsb' 0 2 == x.nf.imm.extractLsb' 0 2

/-- Spaces (bit 0 SCR, 1 GLB, 2 OMF) and direction of a node's port (Table 14-2, Table 19-3). -/
def memUse (opc : Nat) : Option (BitVec 3 × Bool) :=
  match opc with
  | 0x71 | 0x73 => some (3, false)
  | 0x72 => some (7, true)
  | 0x74 | 0x75 => some (3, true)
  | 0x76 => some (2, true)
  | 0x77 => some (2, false)
  | 0x78 | 0x82 | 0x83 | 0x84 => some (1, true)
  | _ => none

def isPow2 (n : Nat) : Bool := n != 0 && 2 ^ Nat.log2 n == n

/-- The scratch area a node keeps under its port's record (R284, R319, R321). -/
def areaOk (opc : Nat) (h : ShapeRec) : Bool :=
  let n := h.e0.toNat
  let base := h.base.toNat
  match opc with
  | 0x78 => h.ndim == 1 && n % 512 == 0 && 512 ≤ n && n ≤ 65024 && base % 64 == 0 && base + 8 * n + n / 8 ≤ 0x200000
  | 0x82 | 0x83 => base % 128 == 0 && 64 ≤ n && n ≤ 8192 && isPow2 n
  | 0x84 => base % 16 == 0 && 64 ≤ n && n ≤ 65536 && isPow2 n
  | _ => true

/-- A node's use of its port (R266 to R268). -/
def portOk (c : RawCfg) (x : RawNode) : Bool :=
  match memUse x.opc with
  | none => x.opc != 0x70 || (rawAgen c x).length == 1
  | some (spaces, dir) => match rawAgen c x with
    | [(a, h)] =>
      let sp := (a.nf.imm.extractLsb' 2 2).toNat
      spaces.getLsbD sp && h.flags.getLsbD 1 == dir && !(x.opc == 0x72 && sp == 2 && x.nf.imm.extractLsb' 2 3 != 6#3) &&
        !((x.opc == 0x71 || x.opc == 0x72) && (x.nf.fmt == 0xF || x.nf.fmt == 0x10) && !h.flags.getLsbD 0) && areaOk x.opc h
    | _ => false

/-- Do all elements that share a key share a value? -/
def agree {α β : Type} [BEq α] [BEq β] (l : List (α × β)) : Bool := l.all fun a => l.all fun b => a.1 != b.1 || a.2 == b.2

/-- The loops of a configuration (R251). -/
def loopsOk (c : RawCfg) : Bool :=
  let g := c.load []
  let ls := loopNodes g
  ls.all fun l =>
    (ls.countP fun m => m.1 == l.1 && m.2.2.2.2) == 1 &&
    (ls.all fun m => m.1 != l.1 || (m.2.1 == l.2.1 && m.2.2.1 == l.2.2.1 && m.2.2.2.1 == l.2.2.2.1)) &&
    (c.nodes.any fun x => x.opc == 0x55 && x.nf.imm.extractLsb' 0 6 == l.1) &&
    (l.2.2.2.1 != 0 || l.2.2.1 == 0) && chainOk g 65 l.1

/-- Sticky entries and kind-10 ports match one to one (R123). -/
def stickiesOk (c : RawCfg) : Bool :=
  let ports := c.nodes.flatMap fun x => (([0, 1, 2] : List Nat).filter fun i =>
    i < x.nf.arity.toNat && ([x.nf.ka, x.nf.kb, x.nf.kc].getD i 0) == 2).map fun i => (x.row, x.col, x.slot, i)
  let es := c.stickies.map fun e => (e.row, e.col, e.slot, e.port)
  es.dedup.length == es.length && es.all ports.contains && ports.all es.contains

/-- Does a node stand on a tile of its kind (R118)? -/
def tileKindOk (x : RawNode) : Bool :=
  isConverter (nodeOpc x.word) x.nf || match entryOf (nodeOpc x.word) with
    | some e => match e.tile with
      | .ct => !isMt x.row x.col
      | .mt => isMt x.row x.col
      | .any => true
    | none => true

/-- Fit of one configuration (R127 check 6). -/
def cfgFits (c : RawCfg) (pbt : List RawPbt) : Bool :=
  let sub (k : Nat → Bool) : List RawNode := c.nodes.filter fun x => k x.opc
  let chains := (sub fun o => o == 0x58 || o == 0x59).map fun x => (x.row, x.col, x.nf.imm.extractLsb' 0 2)
  let rules := (c.stickies.filter fun e => (findRaw c.nodes e.row e.col e.slot).any (·.opc == 0x85)).map fun e => e.tok.lane 64 0 % 65536
  c.tiles.dedup.length == c.tiles.length && (c.tiles.all fun t => t.1 < 3 * c.crows && t.2 < 3 * c.ccols) &&
    (c.nodes.all fun x => !(isMt x.row x.col && 32 ≤ x.slot) && tileKindOk x && (rawDests x).all (destOk c pbt x)) &&
    c.shapes.length == (sub (· == 0x70)).length && (c.nodes.all (portOk c)) &&
    chains.dedup.length == chains.length && (sub (· == 0x80)).length ≤ 1 && rules.dedup.length == rules.length &&
    agree ((sub (· == 0x84)).map fun x => ((x.nf.imm.extractLsb' 2 4), (x.row, x.col, x.nf.imm.extractLsb' 0 2))) &&
    loopsOk c && stickiesOk c

/-- Fit of the PBT (R124). An inward entry without a reading node is refused, as one sentence of R124 says; the STRM without a
consumer, of which another speaks, then does not arise (log 76). -/
def pbtFits (m : Image) : Bool :=
  let keys := m.pbt.map fun e => (e.cfg, e.side, e.idx, e.out)
  keys.dedup.length == keys.length && m.pbt.all fun e =>
    match m.cfgs.find? (·.index = e.cfg) with
    | none => false
    | some c =>
      let rows := 3 * c.crows
      let cols := 3 * c.ccols
      let tile : Nat × Nat := match e.side with
        | 0 => (0, e.idx) | 1 => (e.idx, cols - 1) | 2 => (rows - 1, e.idx) | _ => (e.idx, 0)
      e.idx < (if e.side % 2 = 0 then cols else rows) &&
        (e.out || (e.port ≤ 3 && (findRaw c.nodes tile.1 tile.2 e.slot).any fun x => tokenPort x.nf e.port))

/-- Checks 2 to 6 of R127 in order. -/
def checkImage (b : List Byte) : Chk Image := do
  let m ← parseImage b
  eachOk (fun c => need (convPathOk c) cLOAD_CONVPATH) m.cfgs
  eachOk (fun c => need (buffersOk c m.bst) cLOAD_BUFFERS) m.cfgs
  eachOk (fun c => need (reservedCount (c.load []) ≤ 4096) cCTX_DRY) m.cfgs
  eachOk (fun c => need (cfgFits c m.pbt) cLOAD_FIT) m.cfgs
  need (pbtFits m) cLOAD_FIT
  return m

end Sys2Proof.Machine
end

