-- ==== Sys2Proof/Machine/Loader.lean ====
section
/-!
DEFINITION. LOADIMG (09_sequencer_engines.md R170, 06_encoding.md R127, R128): the loader's reading of an image, its checks,
the copies of the DATA sections, the load record; and the re-reading of a configuration by LAUNCH, RESUMR and recovery.
-/

namespace Sys2Proof.Machine

open Sys2Proof

/-! ### Ends of operations -/

/-- An event about operation k: nothing when there is none. -/
def onOp (s : State) (k : Nat) (f : Op → Out) : Out :=
  match findOp s k with
  | some o => f o
  | none => .next s

/-- What the accesses of an operation come to: a fault completes it with 0x100 | its cause (R164). -/
def onEngine {α : Type} (s0 : State) (o : Op) (r : MRes α) (k : α → State → Out) : Out :=
  match r with
  | .ok a s => k a s
  | .trap c _ => .next (finishOp s0 o (failWord c))
  | .wait => .next s0

/-- Stores bytes for an operation; a fault completes it with the bytes already written left in place (R179). -/
def engineStore (s : State) (o : Op) (x : Ctx) (va : Word) (bs : List Byte) (k : State → Out) : Out :=
  match storeBytes s x va bs.length bs with
  | .ok none s => k s
  | .ok (some (c, _)) s => .next (finishOp s o (failWord c))
  | .trap c _ => .next (finishOp s o (failWord c))
  | .wait => .next s

/-! ### Load records (R128) -/

/-- A partition's record of an image. -/
def loadRec (p : Partition) (va : Word) : Option LoadRec := p.loads.find? (·.va == va)

/-- The oldest `used` of a list of records, and the first record that has it. -/
def leastUsed (l : List LoadRec) : Nat := l.findIdx fun r => l.all fun x => r.used ≤ x.used

/-- Records a successful LOADIMG: in place of the image's record, in a free one, or in place of the one whose
configurations were launched least recently; a record never launched counts as least recent (log 27). -/
def addLoad (l : List LoadRec) (r : LoadRec) : List LoadRec :=
  if l.any (·.va == r.va) then l.map fun x => if x.va == r.va then { r with used := x.used } else x
  else if l.length < 16 then l ++ [r]
  else l.set (leastUsed l) r

/-- PSIG: the digest of the PBT section, zero when there is none. -/
def psigOf (b : Option (List Byte)) : BitVec 256 := match b with | some b => shake256 b | none => 0

/-- The record of an image that has passed. -/
def loadRecOf (va : Word) (m : Image) : LoadRec :=
  ⟨va, m.cfgs.map fun c => (BitVec.ofNat 6 c.index, c.rsig), psigOf m.pbtBytes, 0⟩

/-! ### LOADIMG -/

/-- Check 1 of R127: the signature over the image without its signature bytes, under the root in slot KEYID. -/
def signatureOk (p : Partition) (b : List Byte) : Bool :=
  let off := leAt b 24 8
  let len := leAt b 32 4
  let key := leAt b 36 4
  64 ≤ b.length && off + len ≤ b.length && key ≤ 15 &&
    match p.keySlots.find? (·.1.toNat = key) with
    | some (_, root) => Config.signatureValid (b.take off ++ b.drop (off + len)) ((b.drop off).take len) root
    | none => false

/-- Target VA and bytes of a DATA section (R125). -/
def dataTarget (x : List Byte) : Word × List Byte := (BitVec.ofNat 64 (leAt x 0 8), (x.drop 16).take (leAt x 8 8))

/-- Copies the DATA sections still to copy, in order; after the last the image has its load record and the operation reads 1. The
sections have been read once: one that waits for a locked line leaves itself and those after it to the next try (R99, R127). DEDUCED
(log 92): the copies reach the visible copy of a shadowed page. -/
def copyData (s : State) (o : Op) (rec : LoadRec) : List (Word × List Byte) → Out
  | [] => .next (finishOp (s.updPart o.part fun p => { p with loads := addLoad p.loads rec }) o 1)
  | d :: ds => engineStore s o (hubCtx o.part o.lvl) d.1 d.2 fun s =>
      let o := { o with kind := .loadimgData ds rec }
      copyData (putOp s o) o rec ds

/-- LOADIMG (R170): starts the loader on the image at g[a]. -/
def execLoadimg (d a : Reg) (s : State) : Out :=
  issue s d [a] fun s o =>
    let va := s.rg a
    if !aligned va 64 then endNow s o (failWord cMISALIGN) else start s o (.loadimg va)

/-- Reads a whole image: its header, then LENGTH bytes. -/
def readImage (s : State) (x : Ctx) (va : Word) : MRes (List Byte) :=
  (loadBytes s x va 64).bind fun h s => loadBytes s x va (leAt h 8 8)

/-- LOADIMG_COMPLETE (R127): the image is read once and checked, then come the copies, the record, the value 1. -/
def execLoadimgComplete (k : Nat) (s : State) : Out :=
  onOp s k fun o => match o.kind with
    | .loadimg va =>
      let x := hubCtx o.part o.lvl
      onEngine s o (readImage s x va) fun b s =>
        if !signatureOk (s.part o.part) b then .next (finishOp s o (failWord cLOAD_SIGNATURE))
        else match checkImage b with
          | .error c => .next (finishOp s o (failWord c))
          | .ok m =>
            let todo := m.data.map dataTarget
            let o := { o with kind := .loadimgData todo (loadRecOf va m) }
            copyData (putOp s o) o (loadRecOf va m) todo
    | .loadimgData todo rec => copyData s o rec todo
    | _ => .next s

/-! ### Re-reading a configuration (R128, R342, R346) -/

/-- The bytes of a configuration and of the PBT, read through the image's header and section table as they stand now; none
when no section of the index is found. -/
def readCfg (s : State) (x : Ctx) (va : Word) (idx : BitVec 6) : MRes (Option (List Byte × Option (List Byte))) :=
  (loadBytes s x va 64).bind fun h s =>
    (loadBytes s x (va + BitVec.ofNat 64 (leAt h 16 8)) (32 * leAt h 6 2)).bind fun t s =>
      let ts : List Sect := (List.range (leAt h 6 2)).map fun i =>
        ⟨leAt t (32 * i) 4, leAt t (32 * i + 4) 4, leAt t (32 * i + 8) 8, leAt t (32 * i + 16) 8⟩
      let get (s : State) (k : Sect) : MRes (List Byte) := loadBytes s x (va + BitVec.ofNat 64 k.off) k.size
      match ts.find? fun k => k.typ == 1 && k.idx == idx.toNat with
      | none => .ok none s
      | some c => (get s c).bind fun cb s =>
          match ts.find? (·.typ == 2) with
          | none => .ok (some (cb, none)) s
          | some p => (get s p).bind fun pb s => .ok (some (cb, some pb)) s

/-- Is a configuration re-read from its image the one with a given RSIG? A fault counts as a mismatch; a locked line makes the
reading wait. -/
def reread (s : State) (x : Ctx) (va : Word) (idx : BitVec 6) (rsig : BitVec 256) : MRes Bool :=
  match readCfg s x va idx with
  | .ok (some (cb, _)) s => .ok (rsigOf cb == rsig) s
  | .ok none s => .ok false s
  | .trap _ _ => .ok false s
  | .wait => .wait

/-- What the checks of R128 come to: a refusal, a wait at home, or the configuration. -/
inductive LaunchRes where
  | refused (c : BitVec 8)
  | wait
  | loads (g : Cfg) (s : State)

/-- Converter nodes stand on CMTs at an origin column (R222). -/
def convPlaced (g : Cfg) (ocol : Nat) : Bool := g.nodes.all fun x =>
  let n := nodeFields x.word
  !isConverter (x.word.extractLsb' 0 8) n || [0, 5, 10].contains (ocol + x.col.toNat / 3)

/-- Checks 1 to 3 of R128, then R222. -/
def launchCheck (s : State) (o : Op) (r : RegionId) (img : Word) (idx : BitVec 6) : LaunchRes :=
  let c := (s.region r).ctl
  match loadRec (s.part o.part) img with
  | none => .refused cLOAD_SIGNATURE
  | some rec => match rec.rsigs.find? (·.1 == idx) with
    | none => .refused cLOAD_SIGNATURE
    | some (_, rsig) => match readCfg s (hubCtx o.part o.lvl) img idx with
      | .trap _ _ | .ok none _ => .refused cLOAD_SIGNATURE
      | .wait => .wait
      | .ok (some (cb, pb)) s =>
        if rsigOf cb != rsig || psigOf pb != rec.psig then .refused cLOAD_SIGNATURE
        else match parseCfg idx.toNat cb, parsePbt (fun _ => true) ((pb.getD []).length / 80) (pb.getD []) with
          | .ok raw, .ok ps =>
            let g := raw.load ps
            if c.crows < g.crows || c.ccols < g.ccols then .refused cLOAD_FIT
            else if !convPlaced g c.ocol then .refused cLOAD_CONVPATH
            else .loads g s
          | _, _ => .refused cLOAD_SIGNATURE

end Sys2Proof.Machine
end

