-- ==== Sys2Proof/Machine/NodeMem.lean ====
section
/-!
DEFINITION. Memory nodes (14_node_memory.md): address generation, loads, stores, gather and scatter, atomics, MCAS,
prefetch, the sparse accumulator and parameter tokens, and how their accesses perform.
-/

namespace Sys2Proof.Machine

open Sys2Proof

/-! ### Common rules of memory nodes (R269) -/

/-- PORT of a memory node. -/
def memPort (n : NodeFields) : BitVec 2 := n.imm.extractLsb' 0 2

/-- The space of a node's port, with CTSEL (R266). -/
def portSpace (s : State) (x : Firing) : BitVec 2 × BitVec 3 :=
  match agenAt s x.n.r x.n.row x.n.col (memPort x.nf) with
  | some (_, g) => (g.imm.extractLsb' 2 2, g.imm.extractLsb' 4 3)
  | none => (0, 0)

/-- An INDEX token of PRED 0 on port a marks an empty round: no access (R76; log 25). -/
def emptyAddr (t : Token) : Bool := t.kind == kINDEX && !t.pred

/-- The rules on special kinds (R269), then the node's own effect `k`; `stops` when STOPs follow the general rule. A STOP that is
passed keeps its fields; of several it is the first of the highest level (R203, R241). -/
def memRules (s : State) (x : Firing) (stops : Bool) (k : State → Firing → NodeRes) : NodeRes :=
  if !x.ready then .wait
  else
    let abc := (tokPorts x.nf).filter (· != 3) |>.filterMap x.port
    match x.all.find? (·.kind == kERROR) with
    | some e => flowOut s x (some (x.retag e), none)
    | none =>
      if x.all.any (fun t => t.kind == kBUBBLE && t.port != 3) || (fPRD x.nf && x.p.any fun t => t.kind == kBUBBLE || !t.pred)
      then oneOut s x (x.bubble x.nf.fmt)
      else if stops && abc.any (·.kind == kSTOP) then
        let top := (abc.map fun t => (stopLevel t).toNat).foldl max 0
        match abc.all (·.kind == kSTOP), abc.find? fun t => (stopLevel t).toNat == top with
        | true, some t => flowOut s x (some (x.retag t), none)
        | _, _ => errOut s x cFMT_BAD
      else k s x

/-- A memory node whose every firing follows these rules. -/
def memNode (s : State) (opc : BitVec 8) (nf : NodeFields) (stops : Bool) (k : State → Firing → NodeRes) : Out :=
  fireNode s opc nf fun s x => memRules s x stops k

/-! ### Accesses -/

/-- What a PFQ entry says of a node's access. -/
def accInfo (x : Firing) (va : Word) (size : Nat) (atype : BitVec 4) : FaultInfo :=
  { va := va, mtport := memPort x.nf, size := BitVec.ofNat 4 (Nat.log2 size), atype := atype,
    node := nodeBits x.opc x.nf, seq := x.seq, ops := x.all }

/-- Lane 0 or 1 of an address token. -/
def addrLane (t : Token) (i : Nat) : Word := t.payload.extractLsb' (64 * i) 64

/-- Bytes of an LDN or STN. -/
def accBytes (n : NodeFields) : Nat := 2 ^ min 6 (n.imm.extractLsb' 2 3).toNat

/-- The address and the bytes of the access of a firing that a VA belongs to: the whole access of an LDN or STN, or the access to
its scale (R276); an element; a word of an MCAS. -/
def accSpan (x : Firing) (va : Word) : Word × Nat :=
  match x.opc.toNat with
  | 0x71 | 0x72 =>
    let at_ := (x.a.map fun a => addrLane a 0).getD va
    if (va - at_).toNat < accBytes x.nf then (at_, accBytes x.nf) else (va, if x.nf.fmt == 0xF then 4 else 8)
  | 0x73 | 0x74 | 0x75 => (va, laneBits x.nf.fmt / 8)
  | _ => (va, 8)

/-- What a PFQ entry says of a fault of an access at a VA. -/
def accFault (x : Firing) (va : Word) (atype : BitVec 4) : FaultInfo := accInfo x (accSpan x va).1 (accSpan x va).2 atype

/-- A link that is down or whose response failed authentication: no PFQ entry has such a cause (Table 22-7), so a node's access
waits until the link returns (log 65). -/
def linkCause (c : BitVec 8) : Bool := c == cLINK_DOWN || c == cLINK_AUTH

/-- ATYPE of a memory node. -/
def accType (opc : BitVec 8) : BitVec 4 :=
  match opc.toNat with | 0x71 | 0x73 | 0x77 => 1 | 0x75 => 3 | 0x76 => 4 | _ => 2

/-- Checks and translates one piece: alignment, the scratch bound, or the translation (R73, R276). -/
def placePiece (s : State) (x : Firing) (space : BitVec 2) (va : Word) (n off : Nat) : MRes Piece :=
  if !aligned va n then .trap cMISALIGN va
  else if space == 0 then
    if 0x200000 < va.toNat + n then .trap cSCR_RANGE va else .ok ⟨va, va.toNat, false, 0, n, off, false⟩ s
  else
    let write := x.opc != 0x71 && x.opc != 0x73
    let c := { portCtx s x.n (memPort x.nf) with shadow := x.opc == 0x74 }
    (translate s c (if write then .write else .read) va).bind fun t s =>
      let sh := (tlbFind s c (c.part.getD 0) va.toNat).any fun e => pteSH e.pte
      if x.opc == 0x75 && isDevice t.pa then .trap cXLATE_COH va else .ok ⟨va, t.pa, sh, t.coh, n, off, false⟩ s

/-- Checks and translates all pieces of an access before any of them is made. -/
def placeAll (s : State) (x : Firing) (space : BitVec 2) : List (Word × Nat × Nat) → MRes (List Piece)
  | [] => .ok [] s
  | (va, n, off) :: r => (placePiece s x space va n off).bind fun p s => (placeAll s x space r).bind fun ps s => .ok (p :: ps) s

/-- The single-copy-atomic pieces of an access of n bytes (R290). -/
def cutPieces (va : Word) (n : Nat) : List (Word × Nat × Nat) :=
  if n = 16 || n = 32 then (List.range (n / 8)).map fun i => (va + BitVec.ofNat 64 (8 * i), 8, 8 * i) else [(va, n, 0)]

/-- The data result of a load or an atomic (R276, R279, R281). -/
def accResult (x : Firing) (a : Acc) : Token :=
  let t := x.result kDATA x.nf.fmt ((fmtP x.nf.fmt).getD 0) (a.res.extractLsb' 0 512)
  let sc : BitVec 64 := if x.nf.fmt == 0x14 then ((x.a.map fun t => (t.payload.extractLsb' 6 1).zeroExtend 64).getD 0)
    else a.res.extractLsb' 512 64
  { t with scale := sc }

/-- A firing as an access remembers it. -/
def accFiring (a : Acc) : Firing := ⟨a.site, a.opc, a.n, a.arg 0, a.arg 1, a.arg 2, a.arg 3, []⟩

/-- The lane-0 address of an access: that of its address token; of a gather or scatter that of its first lane, none when that lane
was skipped (R278, R279). -/
def accAddr (a : Acc) : Option Word :=
  if a.opc == 0x73 || a.opc == 0x74 then
    let first := laneBits a.n.fmt / 8 * ((gatherLanes a.n (laneCount a.n.fmt)).headD (0, 0)).2
    (a.pieces.find? (·.off == first)).map (·.va)
  else (a.arg 0).map fun t => addrLane t 0

/-- The completion token of an access, with CMPL; the address of a skipped lane is a free value of the run (log 24). -/
def accCmpl (s : State) (a : Acc) : Option Token :=
  if fCMPL a.n then some (cmplTok ((accFiring a).result kDONE 8 0 0) ((accAddr a).getD
      (BitVec.ofNat 64 (Config.runValue (s.fab a.site.r).seed (64 * a.site.row.toNat + a.site.col.toNat)
        (((a.arg 0).map Token.tag).getD 0).toNat)))) else none

/-- Results of an access that has performed. -/
def accOut (s : State) (x : Firing) (a : Acc) : Pair :=
  let c := accCmpl s a
  match x.opc.toNat with
  | 0x71 => (some (accResult x a), if x.nf.var == 1 then some (accResult x a) else c)
  | 0x73 | 0x75 => (some (accResult x a), c)
  | 0x76 => (some (x.result kDATA 8 0 ((a.mwres.getD 0).zeroExtend 512)), c)
  | _ => (none, c)

/-- Ends an access: its results depart, and the hang interval starts again (R288, R345); a kill waits for the last one (R363). -/
def accDone (s : State) (a : Acc) : State :=
  let x := accFiring a
  let p := accOut s x a
  let ds := departures (s.fab a.site.r) a.n a.site.row a.site.col p.1 p.2
  let s := match a.out with | some id => fillEntry s a.site.r id ds | none => s
  let s := s.updFab a.site.r fun f => { f with accs := f.accs.filter (·.id != a.id) }
  let s := if a.out.isSome then sigCount s a.site p.1 else s
  killDone (touch s a.site.r) a.site.r

/-- Routes on which later results wait for an access: an LDN's results depart in firing order, an LDX's with ORD. -/
def accBlock (x : Firing) : BitVec 2 := if x.opc == 0x71 || (x.opc == 0x73 && fORD x.nf) then 3 else 0

/-- A firing starts an access with its checked pieces: its output entry is reserved, `deps` departing at once. -/
def startAcc (s : State) (x : Firing) (ps : List Piece) (deps : List Dep) : NodeRes :=
  let (space, ct) := portSpace s x
  let wants := x.opc == 0x71 || x.opc == 0x73 || x.opc == 0x75 || x.opc == 0x76 || fCMPL x.nf
  let (out, s) := if wants then (fun r : Nat × State => (some r.1, r.2)) (reserveEntry s x.n (accBlock x) deps)
    else (none, pushEntry s x.n deps 0 none)
  let id := (s.fab x.n.r).nextId
  let a : Acc := ⟨id, x.n, x.opc, x.nf, (tokPorts x.nf).filterMap (headOf (s.fab x.n.r) x.n), x.all, memPort x.nf, space, ct, ps, 0, out, none, none, false⟩
  let s := s.updFab x.n.r fun f => { f with accs := f.accs ++ [a], nextId := id + 1 }
  noOut (if ps.isEmpty && x.opc != 0x76 then accDone s a else s) x

/-- Starts an access, or parks on what its checks find. -/
def tryAcc (s : State) (x : Firing) (ps : List (Word × Nat × Nat)) (deps : List Dep) : NodeRes :=
  match placeAll s x (portSpace s x).1 ps with
  | .ok qs s => startAcc s x qs deps
  | .trap c va => if linkCause c then .wait else .park c { accFault x va (accType x.opc) with cut := ps } none
  | .wait => .wait

/-- An address token: U64 of KIND INDEX or DATA (R270). -/
def isAddr (t : Token) : Bool := t.fmt == 8 && (t.kind == kINDEX || t.kind == kDATA)

/-- A node whose port a is an address: its checks, then `k` with the token. -/
def addrNode (s : State) (opc : BitVec 8) (nf : NodeFields) (k : State → Firing → Token → NodeRes) : Out :=
  memNode s opc nf true fun s x =>
    match x.a with
    | none => .wait
    | some a =>
      if !isAddr a then errOut s x cFMT_BAD
      else if emptyAddr a then oneOut s x (x.bubble nf.fmt)
      else k s x a

/-- The scale access of ZB pairing: 4 bytes for ZB8, 8 for ZB4, at lane 1 (R274, R276). -/
def scalePiece (n : NodeFields) (a : Token) : List (Word × Nat × Nat) :=
  if n.fmt == 0xF then [(addrLane a 1, 4, 64)] else if n.fmt == 0x10 then [(addrLane a 1, 8, 64)] else []

/-- LDN (R276). -/
def execLdn (n : NodeFields) (s : State) : Out :=
  addrNode s 0x71 n fun s x a =>
    let w := accBytes n
    if !aligned (addrLane a 0) w then .park cMISALIGN { accFault x (addrLane a 0) 1 with cut := [(addrLane a 0, w, 0)] } none
    else tryAcc s x (cutPieces (addrLane a 0) w ++ scalePiece n a) []

/-- The cause of an OMF row store that its code or its size makes impossible (R228). -/
def omfCause (n : NodeFields) (va : Word) : Option (BitVec 8) :=
  if va.extractLsb' 11 53 != 0#53 then some cOM_SLOT
  else if accBytes n != 64 then some cMISALIGN
  else none

/-- The OMF row store of an STN (R228). -/
def startOmf (s : State) (x : Firing) (va : Word) (deps : List Dep) : NodeRes :=
  match omfCause x.nf va with
  | some c => .park c { accFault x va 2 with cut := [(va, 64, 0)] } none
  | none => startAcc s x [⟨va, va.toNat, false, 0, 64, 0, false⟩] deps

/-- STN (R277): with MCAST the token on b departs on ROUTE0 at the firing (R289). -/
def execStn (n : NodeFields) (s : State) : Out :=
  addrNode s 0x72 n fun s x a =>
    match x.b with
    | none => .wait
    | some b =>
      if fmtReserved b.fmt || (n.fmt != 0 && b.fmt != n.fmt) then errOut s x cFMT_BAD
      else
        let w := accBytes n
        let copy := { b with ctx := x.n.ctx, iter := x.n.iter, seq := x.seq, pred := true }
        let deps := if n.var == 1 then departures (s.fab x.n.r) n x.n.row x.n.col (some copy) none else []
        if (portSpace s x).1 == 2 then startOmf s x (addrLane a 0) deps
        else if !aligned (addrLane a 0) w then .park cMISALIGN { accFault x (addrLane a 0) 2 with cut := [(addrLane a 0, w, 0)] } none
        else tryAcc s x (cutPieces (addrLane a 0) w ++ scalePiece n a) deps

/-! ### Gather and scatter (R279, R280) -/

/-- Queue entries of a tile's gather/scatter engine: firings not performed, and results of LDX not departed. -/
def gatherQueue (s : State) (n : Site) : Nat :=
  let f := s.fab n.r
  let isLdx (slot : BitVec 6) : Bool := (fieldsAt s n.r n.row n.col slot).any fun e => e.1 == 0x73
  f.accs.countP (fun a => a.site.row == n.row && a.site.col == n.col && (a.opc == 0x73 || a.opc == 0x74)) +
  f.outq.countP (fun e => e.row == n.row && e.col == n.col && !e.reserved && isLdx e.slot)

/-- The element accesses of a gather or scatter: none when some index is out of range under ERR; padding is left out. -/
def gatherPieces (n : NodeFields) (h : ShapeRec) (a : Token) : Option (List (Word × Nat × Nat)) :=
  let e := laneBits n.fmt / 8
  let ls := gatherLanes n (laneCount n.fmt)
  let out (x : Nat) : Bool := x != 0xFFFFFFFF && decide (h.e0.toNat ≤ x)
  if n.var == 1 && ls.any fun l => out (a.lane 32 l.1) then none
  else some ((ls.filter fun l => a.lane 32 l.1 != 0xFFFFFFFF && !out (a.lane 32 l.1)).map fun l =>
    (h.base + BitVec.ofNat 64 (a.lane 32 l.1) * h.s0, e, e * l.2))

/-- LDX and STX: none of a tile is ready while its engine's queue is full, whatever its tokens (R280). -/
def gatherNode (s : State) (opc : BitVec 8) (n : NodeFields) : Out :=
  fireNode s opc n fun s x =>
    if 64 ≤ gatherQueue s x.n then .wait
    else memRules s x true fun s x =>
      match x.a, portShape s x.n.r x.n.row x.n.col (memPort n) with
      | some a, some h =>
        if !((a.fmt == 7 || a.fmt == 3) && (a.kind == kINDEX || a.kind == kDATA)) then errOut s x cFMT_BAD
        else if opc == 0x74 && x.b.any (fun b => b.fmt != n.fmt) then errOut s x cFMT_BAD
        else if emptyAddr a then oneOut s x (x.bubble n.fmt)
        else match gatherPieces n h a with
          | none => errOut s x cINDEX_RANGE
          | some ps => tryAcc s x ps []
      | _, _ => .wait

/-- LDX (R279). -/
def execLdx (n : NodeFields) (s : State) : Out := gatherNode s 0x73 n

/-- STX (R279, R291, R292). -/
def execStx (n : NodeFields) (s : State) : Out := gatherNode s 0x74 n

/-! ### Atomics, MCAS and prefetch -/

/-- ATOM (R281). -/
def execAtom (n : NodeFields) (s : State) : Out :=
  addrNode s 0x75 n fun s x a =>
    let w := laneBits n.fmt / 8
    let bad (t : Option Token) : Bool := t.any fun t => t.fmt != n.fmt
    if bad x.b || bad x.c then errOut s x cFMT_BAD else tryAcc s x [(addrLane a 0, w, 0)] []

/-- MCAS (R282): its access waits for the port's order before the Crucible takes it. -/
def execMcas (n : NodeFields) (s : State) : Out := addrNode s 0x76 n fun s x _ => startAcc s x [] []

/-- PREF (R283). -/
def execPref (n : NodeFields) (s : State) : Out :=
  addrNode s 0x77 n fun s x a => noOut (prefetch s (portCtx s x.n (memPort n)) (n.var == 1) (addrLane a 0)) x

/-! ### Parameter tokens (R275) -/

/-- Lane 0 as an unsigned value, sign-extended for I formats. -/
def paramValue (a : Token) : Word :=
  let w := min 64 (laneBits a.fmt)
  BitVec.ofInt 64 (laneInt (isSigned a.fmt) w (a.lane (laneBits a.fmt) 0 % 2 ^ w))

/-- PARAM (R275). -/
def execParam (n : NodeFields) (s : State) : Out :=
  memNode s 0x79 n true fun s x =>
    match x.a with
    | none => .wait
    | some a => flowChecked s x (tokPorts n) <|
      let v := paramValue a
      let body : BitVec 512 := if n.fmt == 8 then packLanes 64 [v.toNat, (n.imm.extractLsb' 0 3).toNat]
        else packLanes 32 [v.toNat]
      oneOut s x (x.result kPARAM n.fmt 0 body)

/-! ### Address generation (R270 to R274) -/

def ShapeRec.ext (h : ShapeRec) (j : Nat) : Nat :=
  if h.ndim.toNat ≤ j then 1 else match j with | 0 => h.e0.toNat | 1 => h.e1.toNat | 2 => h.e2.toNat | _ => h.e3.toNat

def ShapeRec.str (h : ShapeRec) (j : Nat) : Word := match j with | 0 => h.s0 | 1 => h.s1 | 2 => h.s2 | _ => h.s3

def ShapeRec.zbp (h : ShapeRec) : Bool := h.flags.getLsbD 0

/-- The address of a list of indices (R76). -/
def ShapeRec.addr (h : ShapeRec) (is : List Nat) : Word :=
  is.zipIdx.foldl (fun (a : Word) (i, j) => a + BitVec.ofNat 64 i * h.str j) h.base

/-- The scale address of an element address (R274). -/
def ShapeRec.scaleAddr (h : ShapeRec) (addr : Word) : Word :=
  if h.zbp then h.base + h.s3 + BitVec.ofInt 64 ((addr - h.base).toInt / (if h.fmt == 0x0F then 16 else 8)) else 0

/-- An address token (R270). -/
def addrTok (e : Token) (h : ShapeRec) (pred : Bool) (is : List Nat) (marks : BitVec 64) (seq : BitVec 16) : Token :=
  let ad := h.addr is
  { e with
    kind := kINDEX, fmt := 8, sig := 0, pred := pred, scale := marks, seq := seq
    payload := if pred then packLanes 64 ([ad.toNat, (h.scaleAddr ad).toNat] ++ is) else 0 }

/-- Applies a parameter to a shape record (R273). -/
def applyParam (h : ShapeRec) (t : Token) : ShapeRec :=
  let v := addrLane t 0
  match (addrLane t 1).toNat with
  | 0 => { h with base := v }
  | 1 => { h with e0 := v.setWidth 32 }
  | 2 => { h with e1 := v.setWidth 32 }
  | 3 => { h with e2 := v.setWidth 32 }
  | _ => { h with e3 := v.setWidth 32 }

/-- Is a token a parameter that an AGEN accepts? -/
def paramOk (t : Token) : Bool :=
  t.kind == kPARAM && t.fmt == 8 && decide ((addrLane t 1).toNat ≤ 4) &&
    ((addrLane t 1).toNat == 0 || (addrLane t 0).extractLsb' 32 32 == 0#32)

/-- A parameter: absorbed at once, held to the end of a round that is open (R77, R273). -/
def agenParam (s : State) (x : Firing) (t : Token) (h : ShapeRec) : NodeRes :=
  if !paramOk t then
    let y := x.alone 1
    .out (noteFault s y.n cFMT_BAD y.info) [1] [(some (y.error cFMT_BAD), none)] 0
  else
    let s := s.updNode x.n fun y =>
      if y.pass.isSome then { y with params := y.params ++ [t] } else { y with shape := some (applyParam h t) }
    .out s [1] [] 0

/-- Fires an AGEN on port a. -/
def agenFire (s : State) (n : NodeFields) (x : Firing) (a : Token) (h : ShapeRec) : NodeRes :=
  let y := x.alone 0
  if a.kind == kERROR then .out s [0] [(some (y.retag a), none)] 0
  else if a.kind == kBUBBLE then .out s [0] [both (y.bubble n.fmt)] 0
  else flowChecked s y [0] <|
    if n.var == 0 then
      let total := ((List.range 4).map h.ext).foldl (· * ·) 1
      .out (s.updNode x.n fun z => { z with pass := some ⟨a, a, 0, total, 0, none, []⟩ }) [0] [] 0
    else if a.kind == kSTOP then .out s [0] [both (y.retag a)] 0
    else if !((a.fmt == 3 || a.fmt == 7) && (a.kind == kDATA || a.kind == kINDEX)) then errEat s y [0] cFMT_BAD
    else
      let is := (List.range h.ndim.toNat).map fun j => a.lane 32 j
      if is.zipIdx.any fun (i, j) => h.ext j ≤ i then errEat s y [0] cINDEX_RANGE
      else .out s [0] [both (addrTok (y.result kINDEX 8 0 0) h true is (a.scale &&& 0xF) y.seq)] 0

/-- AGEN (R271 to R273): ports a and b fire alone, the earlier first and b at equal arrival; a token on a waits out an open round, in
which b is absorbed. A parameter that arrived before the last round ended comes before the next round, whenever its token on a came
(R77). -/
def execAgen (n : NodeFields) (s : State) : Out :=
  fireNode s 0x70 n fun s x =>
    match shapeAt s x.n.r x.n.row x.n.col x.n.slot with
    | none => .wait
    | some h =>
      let busy := (s.node x.n).pass.isSome
      let at_ (i : BitVec 2) : Option Nat := (x.arr.find? (·.1 == i)).map (·.2.toNat)
      let onA : NodeRes := match x.a with
        | some a => if busy then .wait else agenFire s n x a h
        | none => .wait
      match at_ 1, x.b with
      | some tb, some t => if !busy && x.a.isSome && (at_ 0).any (· < tb) && (s.node x.n).roundEnd.toNat < tb then onA else agenParam s x t h
      | _, _ => onA

/-- Indices of access k of a round, i0 varying fastest. -/
def roundIdx (h : ShapeRec) (k : Nat) : List Nat := (List.range 4).map fun j => ctrIdx ((List.range 4).map h.ext) k j

/-- AGEN_EMIT: the next address token of an open round, when the output queue has room; the parameters held apply after
the last (R76, R77, R271). -/
def execAgenEmit (n : Site) (s : State) : Out :=
  match fieldsAt s n.r n.row n.col n.slot, (s.node n).pass, shapeAt s n.r n.row n.col n.slot with
  | some (opc, nf), some p, some h =>
    if opc == 0x70 && regionGoing s n.r && outCount (s.fab n.r) n.row n.col n.slot < 4 then
      let es := (List.range h.ndim.toNat).map h.ext
      let t := if p.total = 0 then addrTok p.enable h false [] (BitVec.ofNat 64 (2 ^ h.ndim.toNat - 1)) 0
        else addrTok p.enable h true (roundIdx h p.point) (BitVec.ofNat 64 (ctrMarks es p.point)) (BitVec.ofNat 16 p.point)
      let s := s.updNode n fun y =>
        if p.point + 1 < p.total then { y with pass := some { p with point := p.point + 1 } }
        else { y with pass := none, params := [], shape := some (y.params.foldl applyParam h), roundEnd := s.fclock }
      .next (chainEmit s n nf (some t) (some t))
    else .next s
  | _, _, _ => .next s

/-! ### The sparse accumulator (R284, R285) -/

/-- Is an earlier access of the port still to perform (R287)? -/
def portBusy (s : State) (x : Firing) : Bool :=
  (s.fab x.n.r).accs.any fun a => a.site.row == x.n.row && a.site.col == x.n.col && a.port == memPort x.nf

/-- An entry of the accumulator: value and tag; a clear bit reads as an exact +0. -/
def spEntry (f : Fabric) (n : Site) (base l c : Nat) : Nat × Nat :=
  if scrRead f n.row n.col (base + 8 * l + c / 8) 1 / 2 ^ (c % 8) % 2 = 1 then
    let e := scrRead f n.row n.col (base + 8 * c) 8
    (e % 2 ^ 32, e / 2 ^ 32 % 128)
  else (0, 24)

/-- Adds a value to an entry and sets its bit. -/
def spAdd (f : Fabric) (n : Site) (base l c v tag : Nat) : Fabric :=
  let (e, te) := spEntry f n base l c
  let x := decodeF fp32 e
  let y := decodeF fp16 v
  let ex := addF .rne x y
  let (r, rv) := rneF fp32 ex
  let t := sumTag fp32 x y te tag ex rv
  let f := scrWrite f n.row n.col (base + 8 * c) (r + t * 2 ^ 32) 8
  let bm := scrRead f n.row n.col (base + 8 * l + c / 8) 1
  scrWrite f n.row n.col (base + 8 * l + c / 8) (bm ||| 2 ^ (c % 8)) 1

/-- The tokens of a flush, 16 entries each, and the area cleared of them. -/
def spFlush (x : Firing) (f : Fabric) (base l : Nat) : List Token × Fabric :=
  let cs := (List.range l).filter fun c => scrRead f x.n.row x.n.col (base + 8 * l + c / 8) 1 / 2 ^ (c % 8) % 2 = 1
  let lane (c : Nat) : BitVec 32 × BitVec 7 :=
    let (e, te) := spEntry f x.n base l c
    let (r, v) := rneF fp16 (exactOf (decodeF fp32 e))
    (BitVec.ofNat 32 (c + 65536 * r), BitVec.ofNat 7 (cvtTag fp32 fp16 te (isZeroV (decodeF fp32 e) && decide (24 ≤ te)) v))
  let toks := (List.range ((cs.length + 15) / 16)).map fun i => fibFlush x.nf x (((cs.drop (16 * i)).take 16).map lane)
  let f' := cs.foldl (fun f c =>
    let f := scrWrite f x.n.row x.n.col (base + 8 * c) 0 8
    let bm := scrRead f x.n.row x.n.col (base + 8 * l + c / 8) 1
    scrWrite f x.n.row x.n.col (base + 8 * l + c / 8) (bm &&& (255 - 2 ^ (c % 8))) 1) f
  (toks, f')

/-- The first offset, of the area's accesses for some entries, that would pass the end of the scratch (R73): a parameter can move the
area there. -/
def spRange (base l : Nat) (cs : List Nat) : Option Nat :=
  (cs.flatMap fun c => [(base + 8 * l + c / 8, 1), (base + 8 * c, 8)]).findSome? fun (o, n) => if 0x200000 < o + n then some o else none

/-- A firing that parks with SCR_RANGE; nothing of it has been done (R13). -/
def spPark (x : Firing) (o : Nat) (atype : BitVec 4) : NodeRes := .park cSCR_RANGE (accInfo x (BitVec.ofNat 64 o) 8 atype) none

/-- SPACC (R285): a row is bound to the activation of its first token, and no token of another is ready; a STOP flushes it and
stays until the flush has left. DESIGN CHOICE (log 73): a token that adds nothing by R269 or R202 binds no row. -/
def execSpacc (n : NodeFields) (s : State) : Out :=
  fireNode s 0x78 n fun s x =>
    let y := s.node x.n
    if y.flush.isSome || y.bound.any (fun b => !(b.1 == x.n.ctx && b.2 == x.n.iter)) then .wait
    else memRules s x false fun s x =>
      match x.a, portShape s x.n.r x.n.row x.n.col (memPort n) with
      | some a, some h =>
        let base := h.base.toNat
        let l := h.e0.toNat
        let bind (s : State) : State := s.updNode x.n fun z => { z with bound := some (x.n.ctx, x.n.iter) }
        if portBusy s x then .wait
        else if a.kind == kSTOP then
          match spRange base l [l - 1] with
          | some o => spPark x o 1
          | none =>
            let (toks, f) := spFlush x (s.fab x.n.r) base l
            let s := s.updFab x.n.r fun _ => f
            .out ((bind s).updNode x.n fun z => { z with
              flush := some (x.retag a), pass := some ⟨x.retag a, a, 0, 0, 0, none, toks⟩ }) ((tokPorts n).filter (· != 0)) [] 0
        else if !isData a 0x13 then errOut s x cFMT_BAD
        else
          let ls := ((List.range 16).map fun i => (a.lane 32 i % 65536, a.lane 32 i / 65536)).filter fun p => p.1 != 0xFFFF
          if ls.any fun p => l ≤ p.1 then errOut (bind s) x cINDEX_RANGE
          else match spRange base l (ls.map (·.1)) with
          | some o => spPark x o 3
          | none =>
            let tag := min a.sig.toNat 11
            noOut (bind (s.updFab x.n.r fun f => ls.foldl (fun f p => spAdd f x.n base l p.1 p.2 tag) f)) x
      | _, _ => .wait

/-- SPACC_FLUSH_EMIT: the next token of a flush on ROUTE0; after the last, the STOP departs, leaves port a, and the row is
unbound (R285). -/
def execSpaccFlushEmit (n : Site) (s : State) : Out :=
  match fieldsAt s n.r n.row n.col n.slot, (s.node n).flush, (s.node n).pass with
  | some (opc, nf), some st, some p =>
    if opc == 0x78 && regionGoing s n.r && outCount (s.fab n.r) n.row n.col n.slot < 4 then
      match p.out with
      | t :: rest => .next (chainEmit (setPass s n (some { p with out := rest })) n nf (some t) none)
      | [] =>
        let at_ : Site := { n with ctx := st.ctx, iter := st.iter }
        let s := eatPorts s at_ [0]
        let s := s.updNode n fun z => { z with flush := none, pass := none, bound := none }
        .next (chainEmit s n nf (some st) none)
    else .next s
  | _, _, _ => .next s

/-! ### Accesses perform (R286 to R288) -/

/-- Puts an access in place of the one with its number. -/
def setAcc (s : State) (a : Acc) : State :=
  s.updFab a.site.r fun f => { f with accs := f.accs.map fun (b : Acc) => if b.id = a.id then a else b }

/-- Takes an access away with its reserved entry; a copy still to depart stays. -/
def dropAcc (s : State) (a : Acc) : State :=
  let s := match a.out with | some id => fillEntry s a.site.r id [] | none => s
  s.updFab a.site.r fun f => { f with accs := f.accs.filter fun (b : Acc) => b.id != a.id }

/-- Drops the access of a region that a kill has ended: what its fault parked goes with the rest (R338, R363; log 67). -/
def killAcc (s : State) (a : Acc) : State :=
  let s := (dropAcc s a).updFab a.site.r fun f => { f with parkTab := [], parkArea := [] }
  killDone (sweepMerger s) a.site.r

/-- A fault met while performing parks the activation, which fires the node again when it is resolved (R286). An access through a
link that is down waits. While a kill waits for it, the entry is written and nothing stays parked. -/
def accPark (s : State) (a : Acc) (cause : BitVec 8) (va : Word) : State :=
  let killing := (s.ctl a.site.r).killing.isSome
  if linkCause cause then s
  else match park (dropAcc s a) a.site cause (accFault (accFiring a) va (accType a.opc)) a.ops with
    | .parked s => if killing then killAcc s a else s
    | .full => if killing then killAcc s a else s
    | .held => setAcc s { a with held := true }
    | .overflow =>
      if killing then killAcc s a
      else if (s.ctl a.site.r).st == .running then freeze s a.site.r cSPRUE_FULL 0
      else setAcc s { a with held := true }

/-- An MCAS: its block is checked and its MWCAS begins once the port's earlier accesses have performed; its header is its
result. It is a release and an acquire of its cluster and of its region's other clusters (R282, R288). -/
def mcasStep (s : State) (a : Acc) : Out :=
  match a.mwcas, a.mwres with
  | _, some _ => .next (accDone s a)
  | some _, none => .next s
  | none, none =>
    let x := portCtx s a.site a.port
    let gs := x.agent :: x.mates
    if ((s.fab a.site.r).accs.takeWhile (·.id != a.id) |>.any (samePort · a)) || gs.any (syncHeld s) then .next s
    else
      let blk := ((a.arg 0).map fun t => addrLane t 0).getD 0
      match mwcasCheck (acquireAll s gs) x (s.ctl a.site.r).part (fun _ _ => false) blk s.nextOp with
      | .ok m s1 =>
        let a := { a with
          mwcas := some m.op
          pieces := (m.at_.map fun p => ⟨0, p.1, false, p.2, 8, 0, false⟩) ++ m.entries.map fun e => ⟨e.1, e.2.1, false, e.2.2.1, 8, 0, false⟩ }
        .next (mwBegin (setAcc s1 a) m (.node a.site.r a.id))
      | .trap c va => .next (accPark s a c va)
      | .wait => .next s

/-- An OMF row refused for its format: recorded, with error(c) in the completion's place (R228). -/
def omfBad (s : State) (a : Acc) : State :=
  let x := accFiring a
  let s := noteFault s a.site cFMT_BAD (accFault x ((x.a.map fun t => addrLane t 0).getD 0) 2)
  let ds := if fCMPL a.n then departures (s.fab a.site.r) a.n a.site.row a.site.col none (some (x.error cFMT_BAD)) else []
  let s := match a.out with | some id => fillEntry s a.site.r id ds | none => s
  killDone (s.updFab a.site.r fun f => { f with accs := f.accs.filter fun (b : Acc) => b.id != a.id }) a.site.r

/-- Has the scoreboard of a tile's gather/scatter engine taken piece i of an access: fewer than 256 element requests stand before
it (R280)? A held one has asked for none. -/
def scoreboardHas (f : Fabric) (a : Acc) (i : Nat) : Bool :=
  let gather (e : Acc) : Bool := e.opc == 0x73 || e.opc == 0x74
  let before := (f.accs.takeWhile (·.id != a.id)).filter fun e => gather e && !e.held && e.site.row == a.site.row && e.site.col == a.site.col
  !gather a || decide (((before.map fun e => e.pieces.countP (!·.done)).sum + (a.pieces.take i).countP (!·.done)) < 256)

/-- Accesses that have fired perform while the region runs, in a precise stop too (R382), and while it is frozen (R341 step 3). -/
def accessing (s : State) (r : RegionId) : Bool :=
  ((s.ctl r).st == .running || (s.ctl r).st == .frozen) && (s.dbg r).stop != .stopped

/-- ACCESS_PERFORM: piece k mod 64 of access k / 64 of a region performs, after the earlier accesses of its port to the same
bytes; the last one sends the results (R287, R288). -/
def execAccessPerform (r : RegionId) (k : Nat) (s : State) : Out :=
  match (s.fab r).accs.find? (·.id = k / 64) with
  | none => .next s
  | some a =>
    if !accessing s r || a.held || a.site.r != r then .next s
    else if a.opc == 0x76 then mcasStep s a
    else match a.pieces[k % 64]? with
      | none => .next s
      | some p =>
        if p.done || !mayPerform (s.fab r) a p || !scoreboardHas (s.fab r) a (k % 64) then .next s
        else match performPiece s a p with
          | .ok v s =>
            let a := pieceDone a (k % 64) v
            .next (if a.pieces.all (·.done) then accDone s a else touch (setAcc s a) r)
          | .trap c va => .next (accPark s a c va)
          | .wait => .next s
          | .bad => .next (omfBad s a)

/-- Checks and translates again the pieces of an access that have still to perform, as its firing cut them. -/
def placeAgain (s : State) (a : Acc) : MRes (List Piece) :=
  let x := accFiring a
  (placeAll s x (portSpace s x).1 ((a.pieces.filter (!·.done)).map fun p => (p.va, p.n, p.off))).bind fun ps s =>
    .ok (a.pieces.filter (·.done) ++ ps) s

/-- A held access of a region that is being killed tries again where it stands, to perform or to park (R363); an MCAS, whose checks
come with its access, is let go on. -/
def retranslate (s : State) (a : Acc) : State :=
  let (space, ct) := portSpace s (accFiring a)
  let va := (a.pieces.head?.map (·.va)).getD 0
  let go (ps : List Piece) (s : State) : State := setAcc s { a with held := false, space := space, ct := ct, pieces := ps }
  if a.opc == 0x76 then setAcc s { a with held := false }
  else if space == 2 then
    match omfCause a.n va with
    | some c => accPark s a c va
    | none => go a.pieces s
  else match placeAgain s a with
  | .ok ps s => go ps s
  | .trap c va => accPark s a c va
  | .wait => s

/-- HELD_ACCESS_RETRANSLATE: an access held for want of a merger entry, or of room to park, translates again: its firing is ready
(R333, R338), or, when a kill waits for it, the access itself tries again (R363). -/
def execHeldAccessRetranslate (r : RegionId) (k : Nat) (s : State) : Out :=
  match (s.fab r).accs.find? (·.id = k) with
  | none => .next s
  | some a =>
    let room := (s.ctl r).killing.isSome || isParked (s.fab r) a.site.ctx a.site.iter || decide (parkCount (s.fab r) < 256)
    if a.held && (s.ctl r).st == .running && a.site.r == r && mergerRoom s.ms (s.ctl r).part && room then
      .next (if (s.ctl r).killing.isSome then retranslate s a else readyAgain (dropAcc s a) r a.ops)
    else .next s

/-- PARK_TABLE_RETRY: a fault that found the park table full is repeated once an entry is free: the node, which holds the
firing, fires again (R333). -/
def execParkTableRetry (n : Site) (s : State) : Out :=
  let s' : State := match (s.fab n.r).accs.find? (fun a => a.held && a.site == n), (s.ctl n.r).killing with
    | some a, none => if (s.ctl n.r).st = .running then readyAgain (dropAcc s a) n.r a.ops else s
    | _, _ => s
  if parkCount (s.fab n.r) < 256 then .next { s' with agenda := .fire n :: s.agenda } else .next s

end Sys2Proof.Machine
end

