-- ==== Sys2Proof/Machine/Rules.lean ====
section
/-!
DEFINITION. The rule engine (19_rules.md): the instructions on the working memory (R186 to R191, R307 to R313), the rule
nodes (R314 to R323), the conflict set (R324 to R327).
-/

namespace Sys2Proof.Machine

open Sys2Proof

def cRMN_CS_FULL : BitVec 8 := 0x90
def cRMN_WM_RANGE : BitVec 8 := 0x91
def cSCORE_TIMEOUT : BitVec 8 := 0x92
def cRMN_MEM_FULL : BitVec 8 := 0x93

/-! ### Registers and the working memory -/

def Rules.en (q : Rules) : Bool := q.rmcfg.getLsbD 0
def Rules.csu (q : Rules) : BitVec 2 := q.rmcfg.extractLsb' 1 2
/-- WMBASE.NET, LOGN and BASE (Table 19-1). -/
def Rules.net (q : Rules) : RegionId := q.wmbase.extractLsb' 58 6
def Rules.logn (q : Rules) : Nat := (q.wmbase.extractLsb' 0 5).toNat
def Rules.base (q : Rules) : Word := q.wmbase &&& 0x000FFFFFFFFF0000

/-- VA of the slot of a timetag (R308). -/
def Rules.slot (q : Rules) (tt : Nat) : Word := q.base + BitVec.ofNat 64 (128 * (tt % 2 ^ q.logn))

def State.rules (s : State) (p : PartId) : Rules := (s.part p).rules
def State.updRules (s : State) (p : PartId) (f : Rules → Rules) : State := s.updPart p fun q => { q with rules := f q.rules }

/-- The network region of a partition, when the partition owns it. -/
def netRegion (s : State) (p : PartId) : Option RegionId :=
  let r := (s.rules p).net
  if (s.ctl r).st != .free && (s.ctl r).part == p then some r else none

/-- A rule instruction: ILLEGAL with RMCFG.EN = 0, with LOGN outside 10 to 20 (R186, R307), or on a core of no partition. -/
def ruleGuard (s : State) (i : Instr) (k : PartId → Out) : Out :=
  match s.me.part with
  | none => raise s cILLEGAL (wordOf i)
  | some p =>
    let q := s.rules p
    if q.en && 10 ≤ q.logn && q.logn ≤ 20 then k p else raise s cILLEGAL (wordOf i)

/-- The injection queue of the network region. -/
def injQueue (s : State) (p : PartId) : List Delta := match netRegion s p with | some r => (s.fab r).injq | none => []

/-- A delta is in flight: queued or unsettled. -/
def deltaInFlight (s : State) (p : PartId) : Bool := !(injQueue s p).isEmpty || !(s.rules p).unsettled.isEmpty

/-- Words of 128 bytes. -/
def wmeWords (v : Nat) : List Word := (List.range 16).map fun i => BitVec.ofNat 64 (v / 2 ^ (64 * i))

/-- 128 bytes of words. -/
def wmeValue (ws : List Word) : Nat := ws.foldr (fun w acc => w.toNat + 2 ^ 64 * acc) 0

/-- TT of a WME's word 0. -/
def wmeTT (w0 : Word) : Nat := (w0.extractLsb' 8 40).toNat

/-- Can k more deltas be accepted (R312)? -/
def injRoom (s : State) (p : PartId) (k : Nat) : Bool := (netRegion s p).isSome && (injQueue s p).length + k ≤ 64

/-! ### Settling (R188, R310, R318) -/

def tokAct (t : Token) (c : BitVec 12) (i : BitVec 16) : Bool := t.ctx == c && t.iter == i

/-- Does a fabric hold a token of an activation? -/
def actHeld (f : Fabric) (c : BitVec 12) (i : BitVec 16) : Bool :=
  f.outq.any (fun e => e.deps.any fun d => tokAct d.tok c i) || f.links.any (fun l => tokAct l.tok c i) ||
  f.waiting.any (fun w => tokAct w.tok c i) || f.edge.any (fun e => tokAct e.tok c i) ||
  f.parkArea.any (fun p => tokAct p.tok c i) || f.parkTab.any (fun p => p.ctx == c && p.iter == i) ||
  f.accs.any (fun a => a.site.ctx == c && a.site.iter == i) || f.arrayq.any (fun a => tokAct a.tok c i) ||
  f.nodes.any fun x => x.pend.any (fun ds => ds.any fun d => tokAct d.tok c i) ||
    x.groups.any (fun g => g.ctx == c && g.iter == i) || x.ctrs.any (fun g => g.held.any fun t => tokAct t c i) ||
    x.pass.any (fun p => tokAct p.enable c i) || x.fibres.any (fun g => g.ctx == c && g.iter == i && !g.out.isEmpty) ||
    x.held.any (fun h => tokAct h.1 c i) || x.keys.any (fun k => k.held.any fun t => tokAct t c i)

/-- Has the delta numbered n settled (R318)? -/
def deltaDone (s : State) (p : PartId) (n : BitVec 16) : Bool :=
  !(match netRegion s p with | some r => actHeld (s.fab r) 0 n | none => false) &&
    !((s.rules p).deliveries.any fun d => d.n == n)

/-- DELTA_SETTLED: delta n of the partition settles; after a − delta word 0 of its slot becomes 0, and until that write has
performed the delta counts as unsettled (R310, R318; log 74). -/
def execDeltaSettled (p : PartId) (n : BitVec 16) (s : State) : Out :=
  match (s.rules p).unsettled.find? (·.n = n) with
  | none => .next s
  | some d =>
    if deltaDone s p n then
      let settle (s : State) : State := s.updRules p fun q => { q with unsettled := q.unsettled.filter (·.n != n) }
      if d.neg then
        match storeVa s (hubCtx p .s) ((s.rules p).slot d.tt.toNat) 0 8 with
        | .ok _ s => .next (settle s)
        | .trap _ _ | .wait => .next s
      else .next (settle s)
    else .next s

/-- Every CNT node with VAR RULE of the network reads 0 (R261). -/
def countsZero (s : State) (r : RegionId) : Bool :=
  match (s.ctl r).cfg with
  | none => true
  | some g => g.nodes.all fun x =>
      !(x.word.extractLsb' 0 8 == 0x65#8 && (nodeFields x.word).var == 2) ||
        (cntAt (s.fab r) ⟨r, x.row, x.col, x.slot, 0, 0⟩).1 == 0

/-- The network has settled (R318). -/
def settled (s : State) (p : PartId) : Bool :=
  !deltaInFlight s p && (match netRegion s p with | some r => countsZero s r | none => true)

/-- Instantiations of a partition that are eligible: stamped W or less (R325). A fired one has left the list. -/
def eligible (q : Rules) : List Inst := q.insts.filter fun i => i.wave ≤ q.wave

/-- The failure that SETTLE and SELECT report, and the rules with a timeout report taken (R322, R324). -/
def ruleFailure (q : Rules) : Option (BitVec 8 × Rules) :=
  if q.overflow then some (cRMN_CS_FULL, q)
  else if q.scoreTimeout then some (cSCORE_TIMEOUT, { q with scoreTimeout := false })
  else none

/-- SETTLE (R188): issued, it completes with SETTLE_COMPLETE. -/
def execSettle (d : Reg) (s : State) : Out :=
  ruleGuard s (.settle d) fun _ => issue s d [] fun s o => start s o .settle

/-- SETTLE_COMPLETE (R188, R324). -/
def execSettleComplete (k : Nat) (s : State) : Out :=
  match findOp s k with
  | none => .next s
  | some o =>
    if o.kind = .settle ∧ settled s o.part then
      match ruleFailure (s.rules o.part) with
      | some (c, q) => .next (finishOp (s.updRules o.part fun _ => q) o (failWord c))
      | none =>
        let n := (eligible (s.rules o.part)).length
        .next (finishOp (s.updRules o.part fun q => { q with rmcount := BitVec.ofNat 64 n }) o (BitVec.ofNat 64 (min n 0xFF)))
    else .next s

/-! ### The conflict set (R323 to R327) -/

/-- NCOND of a rule descriptor (Table 19-5). -/
def dNCond (d : List Word) : Nat := ((d.headD 0).extractLsb' 32 3).toNat + 1
def dNeg (d : List Word) (i : Nat) : Bool := (d.headD 0).getLsbD (40 + i)
def dWset (d : List Word) (i : Nat) : Bool := (d.headD 0).getLsbD (48 + i)
def dRule (d : List Word) : BitVec 16 := (d.headD 0).extractLsb' 0 16

/-- Assertable classes and classes of negated conditions. -/
def dAsc (d : List Word) : List (BitVec 16) :=
  (List.range (min 12 ((d.headD 0).extractLsb' 56 8).toNat)).map fun m => (d.getD (1 + m / 4) 0).extractLsb' (16 * (m % 4)) 16
def dNcls (d : List Word) : List (BitVec 16) :=
  ((List.range (dNCond d)).filter (dNeg d)).map fun i => (d.getD (4 + i / 4) 0).extractLsb' (16 * (i % 4)) 16

/-- Timetag of condition i. -/
def Inst.tt (i : Inst) (k : Nat) : Nat := (i.tts.getD k 0).toNat

def Inst.conds (i : Inst) : List Nat := List.range (dNCond i.desc)

/-- WSET(x) and TT(x) of R327: a timetag 0 binds nothing. -/
def Inst.wset (i : Inst) : List Nat := ((i.conds.filter (dWset i.desc)).map i.tt).filter (· != 0)
def Inst.bound (i : Inst) : List Nat := (i.conds.map i.tt).filter (· != 0)

/-- Timetags of the non-negated conditions, descending (R326). -/
def Inst.recency (i : Inst) : List Nat :=
  sortBy (fun a b => decide (b ≤ a)) ((i.conds.filter fun k => !dNeg i.desc k).map i.tt)

/-- Compares two lists element by element, the larger first, a prefix last: some true when the first ranks first. -/
def recencyBefore : List Nat → List Nat → Option Bool
  | [], [] => none
  | _ :: _, [] => some true
  | [], _ :: _ => some false
  | a :: as, b :: bs => if a = b then recencyBefore as bs else some (decide (b < a))

/-- The serial order σ (R326). -/
def sigmaBefore (i j : Inst) : Bool :=
  if i.sal != j.sal then decide (j.sal.toInt < i.sal.toInt)
  else match recencyBefore i.recency j.recency with
    | some b => b
    | none => if i.rule != j.rule then decide (i.rule.toNat < j.rule.toNat) else decide (i.create.toNat ≤ j.create.toNat)

def meets {α : Type} [BEq α] (a b : List α) : Bool := a.any b.contains

/-- Does j, admitted or deferred before i, exclude i from the batch? -/
def blocks (j i : Inst) : Bool := meets j.wset i.bound || meets (dAsc j.desc) (dNcls i.desc)

/-- The admission rule of R327: the batch and the deferred, in order. -/
def takeBatch (limit : Nat) : List Inst → List Inst → List Inst → List Inst
  | [], b, _ => b
  | i :: is, b, d =>
    let ok := !(b.any (blocks · i)) && !(d.any fun j => blocks j i || blocks i j)
    if ok && b.length < limit then takeBatch limit is (b ++ [i]) d else takeBatch limit is b (d ++ [i])

/-- A record of the batch (Table 9-8). -/
def instRecord (i : Inst) (batch : BitVec 32) : List Byte :=
  let neg := (List.range (dNCond i.desc)).foldl (fun n k => if dNeg i.desc k then n + 2 ^ k else n) 0
  natBytes 4 i.create.toNat ++ natBytes 2 i.rule.toNat ++ natBytes 1 (dNCond i.desc) ++ natBytes 1 neg ++
    natBytes 4 batch.toNat ++ natBytes 2 i.sal.toNat ++ natBytes 2 0 ++
    (List.range 8).flatMap fun k => natBytes 6 (if k < dNCond i.desc && !dNeg i.desc k then i.tt k else 0)

/-- SELECT (R189): its checks; from its issue on, deltas belong to the next wave (R325). -/
def execSelect (d a b : Reg) (s : State) : Out :=
  ruleGuard s (.select d a b) fun p => issue s d [a, b] fun s o =>
    let buf := s.rg a
    let limit := s.rg b
    if limit.toNat < 1 || 64 < limit.toNat || (s.rules p).batch.isSome then endNow s o (failWord cILLEGAL)
    else if !aligned buf 64 then endNow s o (failWord cMISALIGN)
    else start (s.updRules p fun q => { q with selected := true }) o (.select buf limit)

/-- SELECT_BATCH: forms the batch of a settled network and writes its records (R189, R327, R329). -/
def execSelectBatch (k : Nat) (s : State) : Out :=
  match findOp s k with
  | none => .next s
  | some o =>
    match o.kind with
    | .select buf limit =>
      let q := s.rules o.part
      if q.batch.isSome then .next (finishOp s o (failWord cILLEGAL))
      else if !settled s o.part then .next s
      else match ruleFailure q with
        | some (c, q) => .next (finishOp (s.updRules o.part fun _ => q) o (failWord c))
        | none =>
          let b := takeBatch limit.toNat (sortBy sigmaBefore (eligible q)) [] []
          let bs := b.flatMap (instRecord · q.nextBatch)
          if b.isEmpty then .next (finishOp s o 0)
          else match storeBytes s (hubCtx o.part o.lvl) buf bs.length bs with
            | .ok none s =>
              let ids := b.map (·.create)
              let s := s.updRules o.part fun q => { q with
                batch := some q.nextBatch
                nextBatch := q.nextBatch + 1
                insts := q.insts.map fun i => if ids.contains i.create then { i with batch := some q.nextBatch } else i }
              .next (finishOp s o (BitVec.ofNat 64 b.length))
            | .ok (some (c, _)) s => .next (finishOp s o (failWord c))
            | .trap c _ => .next (finishOp s o (failWord c))
            | .wait => .next s
    | _ => .next s

/-- FIRED: the admitted instantiations of the outstanding batch become fired (R190, R327). -/
def execFired (a : Reg) (s : State) : Out :=
  ruleGuard s (.fired a) fun p => needRegs s [a] <|
    match (s.rules p).batch with
    | some b =>
      if s.rg a = zext b then
        retire (s.updRules p fun q => { q with batch := none, insts := q.insts.filter (·.batch != some b) })
      else raise s cILLEGAL (wordOf (.fired a))
    | none => raise s cILLEGAL (wordOf (.fired a))

/-- WAVE: the next wave becomes current (R190, R325). -/
def execWave (s : State) : Out :=
  ruleGuard s .wave fun p =>
    if (s.rules p).batch.isSome || deltaInFlight s p then raise s cILLEGAL (wordOf .wave)
    else retire (s.updRules p fun q => { q with wave := q.wave + 1, selected := false })

/-- The area of a score table: tile, base and entries of the port that names it in the network (R321). -/
def scoreArea (s : State) (r : RegionId) (tab : Nat) : Option (BitVec 5 × BitVec 6 × Nat × Nat) :=
  (s.ctl r).cfg.bind fun g =>
    (g.nodes.find? fun x => x.word.extractLsb' 0 8 == 0x84#8 && ((nodeFields x.word).imm.extractLsb' 2 4).toNat == tab).bind
      fun x => (portShape s r x.row x.col ((nodeFields x.word).imm.extractLsb' 0 2)).map fun h =>
        (x.row, x.col, h.base.toNat, h.e0.toNat)

/-- Instantiations that a partition may hold beyond those of others: 16,384 a CSU, 1,024 guaranteed to each partition whose
RMCFG names it, used or not, the rest shared (R324, R372). -/
def csuRoom (s : State) (p : PartId) : Bool :=
  let users := (List.range 16).filter fun i =>
    (s.part (BitVec.ofNat 4 i)).st != .absent && (s.rules (BitVec.ofNat 4 i)).csu == (s.rules p).csu
  let used (i : Nat) : Nat := (s.rules (BitVec.ofNat 4 i)).insts.length
  let shared := (users.map fun i => used i - 1024).sum
  (s.rules p).insts.length < 1024 || shared + 1024 * users.length < 16384

/-- CSU_DELIVERY: the conflict-set unit applies a TERM delivery, the earliest of its node (R323, R324). -/
def execCsuDelivery (p : PartId) (k : Nat) (s : State) : Out :=
  let q := s.rules p
  match q.deliveries.find? (·.id = k) with
  | none => .next s
  | some d =>
    if (q.deliveries.find? (·.node = d.node)).map (·.id) != some k then .next s
    else
      let s := s.updRules p fun q => { q with deliveries := q.deliveries.filter (·.id != k) }
      let tts := (List.range 8).map fun i => (d.lanes.getD i 0).extractLsb' 0 40
      let l7 := d.lanes.getD 7 0
      if l7.getLsbD 63 then
        .next (s.updRules p fun q => { q with insts := q.insts.filter fun i => !(i.rule == dRule d.desc && i.tts == tts) })
      else if csuRoom s p then
        let w0 := d.desc.headD 0
        let sal : BitVec 16 := if w0.getLsbD 39 then (if l7.getLsbD 62 then l7.extractLsb' 40 16 else 0) else w0.extractLsb' 16 16
        .next (s.updRules p fun q => { q with
          creation := q.creation + 1
          insts := q.insts ++ [⟨q.creation, dRule d.desc, tts, sal, d.stamp, d.desc, none⟩] })
      else .next (s.updRules p fun q => { q with overflow := true })

/-! ### Rule nodes (R314 to R323) -/

/-- A special kind on a data port (R315): consumed, an ERROR recorded with its cause. -/
def ruleSpecial (t : Token) : Bool := t.kind == kBUBBLE || t.kind == kSTOP || t.kind == kERROR

def ruleConsume (s : State) (x : Firing) (eat : List (BitVec 2)) (ts : List Token) : NodeRes :=
  let s := match ts.find? (·.kind == kERROR) with
    | some e => noteFault s x.n (e.payload.extractLsb' 0 8) x.info
    | none => s
  .out s eat [] 0

/-- Lanes of a U64 token. -/
def lanes64 (t : Token) : List Word := (List.range 8).map fun i => t.payload.extractLsb' (64 * i) 64

/-- A condition token of a firing. -/
def condTok (x : Firing) (ls : List Word) (key : Word) : Token :=
  { x.result kDATA 8 0 (packLanes 64 (ls.map (·.toNat))) with scale := key }

/-- DELTA: takes the head of the injection queue; its two halves leave on the two routes (R312, R316). -/
def execDelta (n : NodeFields) (s : State) : Out :=
  fireNode s 0x80 n fun s x =>
    let p := (s.ctl x.n.r).part
    let q := s.rules p
    match (s.fab x.n.r).injq with
    | [] => .wait
    | d :: rest =>
      if x.n.ctx != 0 || x.n.iter != d.n || 256 ≤ q.unsettled.length ||
          (d.neg && q.unsettled.any fun e => !e.neg && e.tt == d.tt) then .wait
      else
        let half (k : Nat) : Token :=
          { x.result kDATA 0x14 0 (packLanes 64 (((d.words.drop (8 * k)).take 8).map (·.toNat))) with
            scale := BitVec.ofNat 64 k, seq := d.n }
        let s := s.updFab x.n.r fun f => { f with injq := rest }
        let s := s.updRules p fun q => { q with unsettled := q.unsettled ++ [d] }
        .out s [] [(some (half 0), some (half 1))] 0

/-- The tests of an ALPHA descriptor on an attribute reader (R317). -/
def alphaTest (l : List Word) (attr : Nat → Word) (t : Nat) : Bool :=
  let c := l.getD (2 * t + 1) 0
  let x := attr (c.extractLsb' 0 4).toNat
  let k := l.getD (2 * t + 2) 0
  match (c.extractLsb' 4 3).toNat with
  | 0 => x == k
  | 1 => x != k
  | 2 => decide (x.toInt < k.toInt)
  | 3 => decide (x.toInt ≤ k.toInt)
  | 4 => decide (k.toInt < x.toInt)
  | 5 => decide (k.toInt ≤ x.toInt)
  | _ => x &&& k != 0

/-- ALPHA (R317). -/
def execAlpha (n : NodeFields) (s : State) : Out :=
  fireNode s 0x81 n fun s x =>
    if !x.ready then .wait
    else
      let eat := tokPorts n
      if x.toks.any ruleSpecial then ruleConsume s x eat x.toks
      else if x.toks.any fun t => !isData t 0x14 then errOut s x cFMT_BAD
      else match x.a, x.b with
        | some a, some b =>
          let ws := lanes64 a ++ ((x.c.map lanes64).getD [])
          let l := lanes64 b
          let l0 := l.headD 0
          let w0 := ws.headD 0
          let attr (i : Nat) : Word := ws.getD i 0
          let pass := w0.extractLsb' 48 16 == l0.extractLsb' 0 16 &&
            (List.range (l0.extractLsb' 24 4).toNat).all (alphaTest l attr)
          if pass then
            let cidx := (l0.extractLsb' 16 3).toNat
            let kattr := (l0.extractLsb' 20 4).toNat
            let tt : Word := (w0.extractLsb' 8 40).zeroExtend 64
            let neg : Word := if w0.getLsbD 7 then 1#64 <<< 63 else 0
            let ls := (List.range 8).map fun i => (if i = cidx then tt else 0) ||| (if i = 7 then neg else 0)
            .out s eat [both (condTok x ls (if kattr = 0 then 0 else attr kattr))] 0
          else .out s eat [] 0
        | _, _ => .wait

/-- Reads attribute `attr` of the WME bound at condition `c` of a token's lanes, from the working memory (R319). Where the
condition binds no WME the value is not given: it is a free value of the run (log 50). -/
def readAttr (s : State) (x : Firing) (ls : List Word) (c attr : Nat) : MRes Word :=
  if attr = 0 then .ok 0 s
  else
    let tt := ((ls.getD c 0).extractLsb' 0 40).toNat
    if tt = 0 then .ok (BitVec.ofNat 64 (runFree s x.n)) (tookFree s x.n)
    else
      let va := (s.rules (s.ctl x.n.r).part).slot tt + BitVec.ofNat 64 (8 * attr)
      (loadVa s (nodeCtx s x.n) va 8).bind fun v s => .ok (BitVec.ofNat 64 v) s

/-- A beta memory (R319): the tile of its scratch, base and entries. -/
structure Beta where
  row : BitVec 5
  col : BitVec 6
  base : Nat
  size : Nat

/-- An entry of a beta memory: lanes, key, side, BNEG's count. -/
structure BetaEntry where
  at_ : Nat
  lanes : List Word
  key : Word
  side : Nat
  cnt : Nat

/-- h(k) for S entries. -/
def betaHash (k : Word) (size : Nat) : Nat := (k * 0x9E3779B97F4A7C15).toNat / 2 ^ (64 - Nat.log2 size)

def betaEntry (f : Fabric) (m : Beta) (j : Nat) : BetaEntry :=
  let v := scrRead f m.row m.col (m.base + 128 * j) 128
  ⟨j, (List.range 8).map fun i => BitVec.ofNat 64 (v / 2 ^ (64 * i)), BitVec.ofNat 64 (v / 2 ^ 512), v / 2 ^ 576 % 256,
    v / 2 ^ 592 % 65536⟩

/-- Numbers of all entries in probe order from h(k). -/
def betaOrder (m : Beta) (k : Word) : List Nat := (List.range m.size).map fun i => (betaHash k m.size + i) % m.size

/-- All entries in probe order from h(k). -/
def betaProbe (f : Fabric) (m : Beta) (k : Word) : List BetaEntry := (betaOrder m k).map (betaEntry f m)

/-- The first offset, of n bytes each, that passes the end of the scratch (R73). -/
def pastScratch (n : Nat) (offs : List Nat) : Option Nat := offs.find? fun o => 0x200000 < o + n

/-- A rule node's firing that parks with SCR_RANGE at an offset; nothing of it has been done (R13, R73). -/
def scrPark (x : Firing) (o n : Nat) : NodeRes := .park cSCR_RANGE (accInfo x (BitVec.ofNat 64 o) n 1) none

/-- Writes an entry; side 0 frees it. -/
def betaWrite (f : Fabric) (m : Beta) (j : Nat) (ls : List Word) (k : Word) (side cnt : Nat) : Fabric :=
  let v := ls.foldr (fun (w : Word) acc => w.toNat + 2 ^ 64 * acc) 0 + k.toNat * 2 ^ 512 + side * 2 ^ 576 + cnt % 65536 * 2 ^ 592
  scrWrite f m.row m.col (m.base + 128 * j) v 128

/-- Lanes with NEG as given. -/
def setNeg (ls : List Word) (neg : Bool) : List Word :=
  ls.zipIdx.map fun (w, i) => if i = 7 then (w &&& ~~~(1#64 <<< 63)) ||| (if neg then 1#64 <<< 63 else 0) else w

/-- A join result: the lanes of both ORed, lane 7 bits [63:40] of the left. -/
def joinLanes (l r : List Word) (neg : Bool) : List Word :=
  setNeg ((List.range 8).map fun i =>
    let a := l.getD i 0
    let b := r.getD i 0
    if i = 7 then a ||| (b &&& 0x000000FFFFFFFFFF) else a ||| b) neg

/-- What a token does to a beta memory: the memory after, and the lanes of its results; none when a + token finds no free
entry. -/
def betaStep (bneg : Bool) (f : Fabric) (m : Beta) (left : Bool) (ls : List Word) (k : Word) :
    Option (Fabric × List (List Word)) :=
  let es := betaProbe f m k
  let side := if left then 1 else 2
  let mine := es.filter fun e => e.side == side && e.key == k
  let others := es.filter fun e => e.side == 3 - side && e.key == k
  let neg := (ls.getD 7 0).getLsbD 63
  let joins := others.map fun o => if left then joinLanes ls o.lanes neg else joinLanes o.lanes ls neg
  let count (f : Fabric) (d : Int) : Fabric := others.foldl (fun f (o : BetaEntry) =>
    betaWrite f m o.at_ o.lanes o.key o.side ((o.cnt : Int) + d).toNat) f
  if neg then
    match mine.find? fun e => e.lanes == setNeg ls false with
    | none => some (f, [])
    | some e =>
      let f := betaWrite f m e.at_ (List.replicate 8 0) 0 0 0
      if !bneg then some (f, joins)
      else if left then some (f, if e.cnt = 0 then [ls] else [])
      else some (count f (-1), (others.filter (·.cnt == 1)).map fun o => setNeg o.lanes false)
  else
    match es.find? (·.side == 0) with
    | none => none
    | some e =>
      let f := betaWrite f m e.at_ ls k side (if bneg && left then others.length else 0)
      if !bneg then some (f, joins)
      else if left then some (f, if others.isEmpty then [ls] else [])
      else some (count f 1, (others.filter (·.cnt == 0)).map fun o => setNeg o.lanes true)

/-- Keys of results: attribute OUTA of the WME bound at OUTC. -/
def outKeys (s : State) (x : Firing) (c attr : Nat) : List (List Word) → MRes (List Word)
  | [] => .ok [] s
  | r :: rs => (readAttr s x r c attr).bind fun k s => (outKeys s x c attr rs).bind fun ks s => .ok (k :: ks) s

/-- Is a port's head for the site's activation the earliest token that waits at the port, of the activations that fire? In a replay the
log gives the order (R315, R390). -/
def portFirst (s : State) (n : Site) (i : BitVec 2) : Bool :=
  let f := s.fab n.r
  let waits (w : WaitTok) : Bool := w.tok.drow == n.row && w.tok.dcol == n.col && w.tok.node == n.slot && w.tok.port == i &&
    !isParked f w.tok.ctx w.tok.iter && !isDead f w.tok.ctx w.tok.iter
  (s.dbg n.r).replay.any (fun l => l.any fun w => logTile w == n.row ++ n.col) || (f.waiting.find? waits).all (atPort n i)

/-- A firing of BJOIN, BNEG or SCORE may take a head only in its queue's arrival order (R315). -/
def ruleHeads (s : State) (x : Firing) : Firing := { x with arr := x.arr.filter fun a => portFirst s x.n a.1 }

/-- BJOIN and BNEG: each port fires alone, once every result of the firings before has left, so that results leave in the order of
firings (R315, R319, R320). -/
def betaNode (s : State) (opc : BitVec 8) (n : NodeFields) : Out :=
  fireNode s opc n fun s x =>
    if !(s.node x.n).pend.isEmpty then .wait
    else match mergePort (ruleHeads s x) with
    | none => .wait
    | some i => match x.port i, portShape s x.n.r x.n.row x.n.col (memPort n) with
      | some t, some h =>
        let y := x.alone i
        if ruleSpecial t then ruleConsume s y [i] [t]
        else if !isData t 8 then errEat s y [i] cFMT_BAD
        else
          let m : Beta := ⟨x.n.row, x.n.col, h.base.toNat, h.e0.toNat⟩
          match pastScratch 128 ((betaOrder m t.scale).map (m.base + 128 * ·)) with
          | some o => scrPark y o 128
          | none =>
          match betaStep (opc == 0x83) (s.fab x.n.r) m (i == 0) (lanes64 t) t.scale with
          | none => .park cRMN_MEM_FULL y.info none
          | some (f, rs) =>
            match outKeys s y (n.imm.extractLsb' 2 3).toNat (n.imm.extractLsb' 5 4).toNat rs with
            | .ok ks s =>
              .out (s.updFab x.n.r fun _ => f) [i] ((rs.zip ks).map fun (ls, k) => both (condTok y ls k)) 0
            | .trap c va => if linkCause c then .wait else .park c { accInfo y va 8 1 with ops := y.all } none
            | .wait => .wait
      | _, _ => .wait

/-- BJOIN (R319). -/
def execBjoin (n : NodeFields) (s : State) : Out := betaNode s 0x82 n

/-- BNEG (R320). -/
def execBneg (n : NodeFields) (s : State) : Out := betaNode s 0x83 n

/-! ### SCORE (R321, R322) -/

/-- H of a key. -/
def keyH (key : Word) : Nat := (key.extractLsb' 0 48).toNat

/-- The eight entries probed for a key: offset and words. -/
def scoreProbe (f : Fabric) (n : Site) (h : ShapeRec) (key : Word) : List (Nat × Word × Word) :=
  (List.range 8).map fun i =>
    let off := h.base.toNat + 16 * ((keyH key + i) % h.e0.toNat)
    (off, BitVec.ofNat 64 (scrRead f n.row n.col off 8), BitVec.ofNat 64 (scrRead f n.row n.col (off + 8) 8))

/-- The first of the entries probed, up to one that ends the probe, that passes the end of the scratch (R73). -/
def scorePast (es : List (Nat × Word × Word)) (ends : Nat × Word × Word → Bool) : Option Nat :=
  (es.find? fun e => ends e || decide (0x200000 < e.1 + 16)).bind fun e => pastScratch 16 [e.1]

/-- THR and timeout of a selection token. -/
def selThr (c : Token) : Int := (c.payload.extractLsb' (32 * 14) 16).toInt
def selTimeout (c : Token) : Nat := let t := c.lane 32 15; if t = 0 then 2 ^ 24 else t

/-- The selected attribute values, 0 where a lane is unused, and the hash over the used ones. -/
def scoreValues (s : State) (x : Firing) (ls : List Word) (c : Token) : List Nat → MRes (List Word × Word)
  | [] => .ok ([], 0) s
  | i :: is => (scoreValues s x ls c is).bind fun r s =>
    let e : BitVec 32 := BitVec.ofNat 32 (c.lane 32 i)
    if e.getLsbD 31 then
      (readAttr s x ls (e.extractLsb' 0 3).toNat (e.extractLsb' 4 4).toNat).bind fun v s =>
        .ok (r.1 ++ [v], (r.2 ^^^ v) * 0x100000001B3) s
    else .ok (r.1 ++ [0], r.2) s

/-- The token of a partial match that a score lets pass (R322). -/
def scored (thr : Int) (sc : BitVec 16) (t : Token) : Option Token :=
  if thr ≤ sc.toInt then
    some { t with payload := (t.payload &&& ~~~(0x40FFFF0000000000#512 <<< 448)) |||
      (((1#64 <<< 62) ||| (sc.zeroExtend 64 <<< 40)).zeroExtend 512 <<< 448) }
  else none

/-- A + token on a: it passes by a score the table holds, or is held under its key. -/
def scoreHold (s : State) (n : NodeFields) (x : Firing) (t c : Token) (vs : List Word) (key : Word) (h : ShapeRec) : NodeRes :=
  let y := s.node x.n
  let es := scoreProbe (s.fab x.n.r) x.n h key
  match scorePast es (·.2.1 == key) with
  | some o => scrPark (x.alone 0) o 16
  | none =>
  match es.find? (·.2.1 == key) with
  | some e => .out s [0] [(scored (selThr c) (e.2.2.extractLsb' 0 16) t, none)] 0
  | none =>
    let known := y.keys.any (·.key == key)
    if 64 ≤ (y.keys.map (·.held.length)).sum || (!known && 32 ≤ y.keys.length) then .wait
    else if known then
      .out (s.updNode x.n fun y => { y with keys := y.keys.map fun k =>
        if k.key == key then { k with held := k.held ++ [t] } else k }) [0] [] 0
    else
      let model : Word := (n.imm.extractLsb' 6 12).zeroExtend 64
      let call := x.result kDATA 8 0 (packLanes 64 ((key :: model :: vs).map (·.toNat)))
      .out (s.updNode x.n fun y => { y with keys := y.keys ++ [⟨key, s.fclock, selTimeout c, [t]⟩] }) [0] [(none, some call)] 0

/-- A return on b: the score is stored and every token held under its key is evaluated in arrival order (R322). -/
def scoreReturn (s : State) (n : NodeFields) (x : Firing) (b c : Token) (h : ShapeRec) : NodeRes :=
  let key := b.payload.extractLsb' 0 64
  let sc : BitVec 16 := b.payload.extractLsb' 64 16
  match (s.node x.n).keys.find? (·.key == key) with
  | none => .out s [1] [] 0
  | some k =>
    let es := scoreProbe (s.fab x.n.r) x.n h key
    match scorePast es (!·.2.1.getLsbD 63) with
    | some o => scrPark x o 16
    | none =>
    let s := s.updNode x.n fun y => { y with keys := y.keys.filter (·.key != key) }
    let s := match es.find? (!·.2.1.getLsbD 63) with
      | some e => s.updFab x.n.r fun f =>
          scrWrite (scrWrite f x.n.row x.n.col e.1 key.toNat 8) x.n.row x.n.col (e.1 + 8) sc.toNat 8
      | none => noteFault s x.n cRMN_MEM_FULL x.info
    let ts := k.held.filterMap (scored (selThr c) sc)
    .sent s [1] (ts.map fun t => departures (s.fab x.n.r) n x.n.row x.n.col (some t) none) ts.head?

/-- SCORE (R322): ports a and b fire alone, once every result of the firings before has left. -/
def execScore (n : NodeFields) (s : State) : Out :=
  fireNode s 0x84 n fun s x =>
    let x := ruleHeads s x
    if !(s.node x.n).pend.isEmpty then .wait
    else match mergePort x with
    | none => .wait
    | some i => match x.port i, x.c, portShape s x.n.r x.n.row x.n.col (memPort n) with
      | some t, some c, some h =>
        let y := x.alone i
        if ruleSpecial t then ruleConsume s y [i] [t]
        else if !isData t 8 then errEat s y [i] cFMT_BAD
        else if i = 1 then scoreReturn s n y t c h
        else if (t.payload.getLsbD 511) then .out s [0] [(some t, none)] 0
        else
          match scoreValues s y (lanes64 t) c [5, 4, 3, 2, 1, 0] with
          | .ok (vs, hash) s =>
            let model : Word := (n.imm.extractLsb' 6 12).zeroExtend 64
            let key := 1#64 <<< 63 ||| model <<< 48 ||| (hash &&& 0xFFFFFFFFFFFF)
            orElseRes s (scoreHold s n y t c vs key h) fun s => scoreOther s n x
          | .trap cause va => if linkCause cause then .wait else .park cause { accInfo y va 8 1 with ops := y.all } none
          | .wait => .wait
      | _, _, _ => .wait
where
  /-- When a + token must wait for a free key, the head of b still fires. -/
  scoreOther (s : State) (n : NodeFields) (x : Firing) : NodeRes :=
    match x.b, x.c, portShape s x.n.r x.n.row x.n.col (memPort n) with
    | some b, some c, some h =>
      let y := x.alone 1
      if !(x.arr.any fun a => a.1 == 1) then .wait
      else if ruleSpecial b then ruleConsume s y [1] [b]
      else if !isData b 8 then errEat s y [1] cFMT_BAD
      else scoreReturn s n y b c h
    | _, _, _ => .wait

/-- SCORE_TIMEOUT: a pending key without a return in time is dropped with the tokens it holds (R322). -/
def execScoreTimeout (n : Site) (key : Word) (s : State) : Out :=
  match (s.node n).keys.find? (·.key == key), fieldsAt s n.r n.row n.col n.slot with
  | some k, some (opc, nf) =>
    if opc == 0x84 && (s.ctl n.r).st == .running && k.since.toNat + k.timeout ≤ s.fclock.toNat then
      let at_ : Site := match k.held.head? with | some t => { n with ctx := t.ctx, iter := t.iter } | none => n
      let s := s.updNode n fun y => { y with keys := y.keys.filter (·.key != key) }
      let s := noteFault s at_ cSCORE_TIMEOUT { node := nodeBits opc nf, seq := (k.held.head?.map (·.seq)).getD 0, ops := k.held.take 1 }
      .next (s.updRules (s.ctl n.r).part fun q => { q with scoreTimeout := true })
    else .next s
  | _, _ => .next s

/-- TERM: delivers a condition token to the conflict set (R323). -/
def execTerm (n : NodeFields) (s : State) : Out :=
  fireNode s 0x85 n fun s x =>
    match x.a, x.b with
    | some t, some b =>
      if ruleSpecial t then ruleConsume s x [0] [t]
      else if !isData t 8 then errOut s x cFMT_BAD
      else
        let p := (s.ctl x.n.r).part
        let q := s.rules p
        let stamp := ((q.unsettled.find? (·.n == x.n.iter)).map (·.stamp)).getD q.wave
        let id := (q.deliveries.map (·.id)).foldl max 0 + 1
        .out (s.updRules p fun q => { q with
          deliveries := q.deliveries ++ [⟨id, (x.n.row, x.n.col, x.n.slot), x.n.iter, lanes64 t, lanes64 b, stamp⟩] }) [0] [] 0
    | _, _ => .wait

end Sys2Proof.Machine
end

