-- ==== Sys2Proof/Machine/Wake.lean ====
section
/-!
DEFINITION. The save area of a region (21_traps.md R341) and the waking of a region from a power state (24_scheduling.md R375),
which every instruction and event that acts on a region shares.
-/

namespace Sys2Proof.Machine

open Sys2Proof

/-! ### The save area (R341, Table 21-4) -/

/-- RQRY's SAVE of a region (R169): the size of the device's layout is open (log 14). -/
def saveUnits (c : RegionCtl) : BitVec 32 := match c.cfg with | some g => Config.saveUnits g.rsig | none => 0

def saveBytes (c : RegionCtl) : Nat := 4096 * (saveUnits c).toNat

/-- The body of a snapshot taken with a seed: its layout is the device's own, so its bytes are free (log 14). -/
def saveBody (c : RegionCtl) (seed : Nat) : List Byte := (List.range (saveBytes c - 128)).map (Config.snapshotByte seed)

/-- The header of Table 21-4. -/
def saveHeader (r : RegionId) (c : RegionCtl) (now : Word) (hash : BitVec 256) : List Byte :=
  let flags : Nat := match c.cfg with | some g => g.flags.toNat | none => 0
  let rsig : BitVec 256 := match c.cfg with | some g => g.rsig | none => 0
  natBytes 4 0x4B355350 ++ natBytes 2 1 ++ natBytes 1 r.toNat ++ natBytes 1 (dieOfRegion r).toNat ++ natBytes 1 c.crows ++
    natBytes 1 c.ccols ++ natBytes 1 c.ocol ++ natBytes 1 flags ++ natBytes 4 (saveUnits c).toNat ++
    natBytes 8 c.imageVA.toNat ++ natBytes 1 c.cfgIdx.toNat ++ natBytes 7 0 ++ natBytes 8 c.cword.toNat ++
    natBytes 8 now.toNat ++ natBytes 16 0 ++ natBytes 32 rsig.toNat ++ natBytes 32 hash.toNat

/-- A save area with its BHASH. -/
def saveArea (r : RegionId) (c : RegionCtl) (now : Word) (seed : Nat) : List Byte × BitVec 256 :=
  let body := saveBody c seed
  let h := shake256 body
  (saveHeader r c now h ++ body, h)

/-! ### Power states of a region: waking (R375) -/

/-- VA of a region's W3 save area. -/
def w3Va (p : Partition) (r : RegionId) : Word :=
  (p.pwrbase &&& 0x000FFFFFE0000000) + BitVec.ofNat 64 (536870912 * r.toNat)

/-- Bytes of the area that W3 entry writes: the header, and the body of a region that has a configuration. -/
def areaBytes (c : RegionCtl) : Nat := max 128 (saveBytes c)

/-- On leaving W3 the saved area, its header too, is what the K5 wrote, and the configuration re-read gives its RSIG (R375); a locked
line makes it wait. -/
def w3Intact (s : State) (r : RegionId) : MRes Bool :=
  let c := s.ctl r
  match loadBytes s (hubCtx c.part .s) (w3Va (s.part c.part) r) (areaBytes c) with
  | .ok b s =>
    if shake256 b != c.savedHash then .ok false s
    else match c.cfg with
      | some g => reread s (hubCtx c.part c.cwLvl) c.imageVA c.cfgIdx g.rsig
      | none => .ok true s
  | .trap _ _ => .ok false s
  | .wait => .wait

/-- Wakes a region (R375): its values are those it had, unless W3 did not keep them. A region whose saved area is under a lock
sleeps on. -/
def wakeRegion (s : State) (r : RegionId) : State :=
  let c := s.ctl r
  let up (s : State) : State := s.updCtl r fun c => { c with power := 0, idleSince := some s.fclock }
  if c.power = 0 then s
  else if c.power = 3 then match w3Intact s r with
    | .ok true _ => up s
    | .ok false _ => freeze (up s) r cCFG_UE 0
    | .trap _ _ | .wait => s
  else up s

/-- Does a region sleep on: what acts on it must wait (R375)? -/
def sleepsOn (s : State) (r : RegionId) : Bool := ((wakeRegion s r).ctl r).power != 0

end Sys2Proof.Machine
end

