-- ==== Sys2Proof/Machine/Regs.lean ====
section
/-!
DEFINITION. System registers (09 Table 9-11 and the tables it names): levels, what a read returns, what a write does, and
the register writes and reads that are events of their own.
-/

namespace Sys2Proof.Machine

open Sys2Proof

/-! ### Which registers there are (Table 9-11) -/

/-- Read level, write level (none: RO), and whether the register exists on SY cores only. -/
structure RegInfo where
  rd : Level
  wr : Option Level
  sy : Bool
deriving DecidableEq, Repr

/-- Table 9-11, with Tables 24-1 and 25-1; none for an unassigned number. -/
def regInfo (n : Nat) : Option RegInfo :=
  if n ≤ 0x001 then some ⟨.u, some .u, false⟩
  else if n ≤ 0x005 then some ⟨.u, none, false⟩
  else if 0x010 ≤ n && n ≤ 0x016 then some ⟨.s, some .s, false⟩
  else if 0x020 ≤ n && n ≤ 0x024 then some ⟨.s, some .s, false⟩
  else if n = 0x030 then some ⟨.s, some .h, false⟩
  else if n = 0x031 then some ⟨.s, some .s, false⟩
  else if n = 0x032 then some ⟨.s, some .h, false⟩
  else if n = 0x040 then some ⟨.s, some .h, false⟩
  else if n = 0x041 then some ⟨.s, some .s, false⟩
  else if 0x060 ≤ n && n ≤ 0x0AE then some ⟨.s, some .s, true⟩
  else if n = 0x0C0 then some ⟨.s, some .s, false⟩
  else if n = 0x0C1 then some ⟨.s, none, false⟩
  else if 0x0D0 ≤ n && n ≤ 0x0D2 then some ⟨.s, some .h, false⟩
  else if n = 0x0D3 || n = 0x0D4 then some ⟨.s, some .s, false⟩
  else if n = 0x0D5 then some ⟨.s, none, false⟩
  else if 0x0E0 ≤ n && n ≤ 0x0F0 then some ⟨.s, some .s, false⟩
  else if n = 0x0F1 then some ⟨.s, some .h, false⟩
  else if n = 0x100 then some ⟨.u, none, false⟩
  else if n = 0x101 || n = 0x102 then some ⟨.s, some .h, false⟩
  else if 0x110 ≤ n && n ≤ 0x115 then some ⟨.h, some .h, false⟩
  else none

/-- Does a core have a register? -/
def regOn (c : CoreId) (i : RegInfo) : Bool := !i.sy || (match c with | .sy _ => true | .sq _ => false)

/-! ### Helpers -/

/-- The partition of a core. -/
def partOf (s : State) (c : CoreId) : Option Partition := (s.core c).part.map s.part

/-- A partition register: 0 on a core of no partition (log 10). -/
def partReg (s : State) (c : CoreId) (f : Partition → Word) : Word := ((partOf s c).map f).getD 0

def updPartOf (s : State) (c : CoreId) (f : Partition → Partition) : State :=
  match (s.core c).part with | some p => s.updPart p f | none => s

/-- Has the core stopped: SQCTL.STOPPED (Table 21-6)? A core that was never started does not read as stopped. -/
def Core.stoppedNow (c : Core) : Bool := match c.run with | .halted | .stopped => true | _ => false

/-- The SQ core that a core's SQSEL selects, when it belongs to the core's partition (R343). -/
def selectedSq (s : State) (c : CoreId) : Option CoreId :=
  let q := CoreId.sq ((s.core c).sel.sqsel.extractLsb' 0 6)
  if (s.core c).part.isSome && (s.core q).part == (s.core c).part then some q else none

/-- The selected SQ core when its context can be reached: it is stopped or halted. -/
def reachedSq (s : State) (c : CoreId) : Option CoreId :=
  match selectedSq s c with
  | some q => if (s.core q).stoppedNow then some q else none
  | none => none

/-- A region of a core's partition, by number. -/
def ownRegion (s : State) (c : CoreId) (r : RegionId) : Option RegionId :=
  if (s.ctl r).st != .free && some (s.ctl r).part == (s.core c).part then some r else none

/-- The region FGSEL names, when it belongs to the core's partition (R379). -/
def fgRegion (s : State) (c : CoreId) : Option RegionId := ownRegion s c ((s.core c).sel.fgsel.extractLsb' 0 6)

def fgCmp (s : State) (c : CoreId) : Nat := ((s.core c).sel.fgsel.extractLsb' 10 4).toNat

/-- A register of the region FGSEL names: 0 when it is not the caller's. -/
def fgReg (s : State) (c : CoreId) (f : RegionDbg → Word) : Word := ((fgRegion s c).map fun r => f (s.dbg r)).getD 0

def updFg (s : State) (c : CoreId) (f : RegionDbg → RegionDbg) : State :=
  match fgRegion s c with | some r => s.updDbg r f | none => s

def boolWord (b : Bool) : Word := if b then 1 else 0

/-! ### Reads -/

/-- FGCTL as it reads (Table 25-2). -/
def fgctlRead (d : RegionDbg) : Word :=
  (d.sample.zeroExtend 64 <<< 6) ||| (boolWord d.lost <<< 5) ||| (boolWord d.rply <<< 4) ||| (boolWord (d.stop == .stopped) <<< 2)

/-- FGLSTAT as it reads (Table 25-2). -/
def fglstatVal (d : RegionDbg) : Word :=
  (boolWord d.listDone <<< 63) ||| (boolWord d.listErr <<< 62) ||| (boolWord d.listOvf <<< 61) ||| d.listCount.zeroExtend 64

/-- SQCTL as it reads (Table 21-6). -/
def sqctlRead (c : Core) : Word :=
  (c.pend.zeroExtend 64 <<< 32) ||| (c.sqlevel.zeroExtend 64 <<< 3) ||| (boolWord c.stoppedNow <<< 2)

/-- Tags of f(8k) to f(8k + 7), a byte each. -/
def sqftRead (c : Core) (k : Nat) : Word :=
  (List.range 8).foldr (fun j (acc : Word) => (acc <<< 8) ||| ((c.rf (BitVec.ofNat 5 (8 * k + j))).tag.zeroExtend 64)) 0

def trapReg (t : TrapRegs) (timecmp : Word) (i : Nat) : Word :=
  match i with
  | 0 => t.status | 1 => t.tvec | 2 => t.tpc | 3 => t.tcause | 4 => t.tval | 5 => t.tscr | _ => timecmp

/-- Registers 0x060 to 0x0AE on an SY core. -/
def sqRead (s : State) (c : CoreId) (n : Nat) : Word :=
  if n = 0x060 then (s.core c).sel.sqsel
  else if n = 0x0A7 then ((selectedSq s c).map fun q => sqctlRead (s.core q)).getD 0
  else match reachedSq s c with
    | none => 0
    | some q =>
      let x := s.core q
      if n < 0x080 then x.rg (BitVec.ofNat 5 (n - 0x060))
      else if n < 0x0A0 then (x.rf (BitVec.ofNat 5 (n - 0x080))).val
      else if n < 0x0A4 then sqftRead x (n - 0x0A0)
      else if n = 0x0A4 then x.pc
      else if n = 0x0A5 then x.fcsr
      else if n = 0x0A6 then x.sigctl
      else trapReg x.ts x.timecmp (n - 0x0A8)

/-- BADTILE (Table 21-9); the tile of an entry that is not valid is open. -/
def badtileRead (s : State) (sel : Word) : Word :=
  let d := s.die (sel.extractLsb' 8 2)
  let i := (sel.extractLsb' 0 8).toNat
  let count := min 255 d.badTiles.length
  let head : Word := (d.retcol.zeroExtend 64 <<< 24) ||| (BitVec.ofNat 64 count <<< 16)
  match d.badTiles[i]? with
  | some (row, col) => if i < count then (1#64 <<< 63) ||| head ||| (col.zeroExtend 64 <<< 5) ||| row.zeroExtend 64
      else head ||| (Config.freeWord s.fresh &&& 0x7FF)
  | none => head ||| (Config.freeWord s.fresh &&& 0x7FF)

/-- The Tundish queue that TQSEL names. -/
def queueOf (s : State) (sel : Word) : TQueue := (s.die (sel.extractLsb' 6 2)).queues[(sel.extractLsb' 0 6).toNat]'(sel.extractLsb' 0 6).isLt

/-- TQCFG (Table 24-2). -/
def tqcfgRead (s : State) (sel : Word) : Word :=
  let q := queueOf s sel
  (BitVec.ofNat 64 (min 255 q.byp) <<< 32) ||| (BitVec.ofNat 64 (min 16 q.bids.length) <<< 16) ||| (q.owner.zeroExtend 64 <<< 8) |||
    (boolWord q.en <<< 7) ||| q.rank.zeroExtend 64

/-- MONVAL (Table 24-7): the power state of a region is W4 while its die is (R373). -/
def monvalRead (s : State) (c : CoreId) (sel : Word) : Word :=
  let d : DieId := sel.extractLsb' 8 2
  let i : BitVec 7 := sel.extractLsb' 0 7
  match (sel.extractLsb' 10 2).toNat with
  | 0 => if i.toNat ≤ 98 then (Config.temperature s.fresh d i).zeroExtend 64 else 0
  | 1 => if i.toNat ≤ 98 then (((s.die d).droop.find? (·.1 == i)).map fun x => x.2.zeroExtend 64).getD 0 else 0
  | 2 => (Config.ringFrequency s.fresh d).zeroExtend 64
  | _ =>
    if 64 ≤ i.toNat then 0
    else match ownRegion s c (i.setWidth 6) with
      | some r => if (s.die (dieOfRegion r)).w4 then 4 else BitVec.ofNat 64 (s.ctl r).power
      | none => 7

/-- MGVAL (Table 25-2, R388). -/
def mgvalRead (s : State) (c : CoreId) : Word :=
  let m := (s.core c).sel.mgsel
  match ownRegion s c (m.extractLsb' 21 6) with
  | none => 0
  | some r => (((s.dbg r).mg.find? fun e => e.1 == m.extractLsb' 16 5 && e.2.1 == m.extractLsb' 10 6 &&
      e.2.2.1 == m.extractLsb' 0 6 && e.2.2.2.1 == m.extractLsb' 27 5).map fun e => e.2.2.2.2.zeroExtend 64).getD 0

/-- Debug registers 0x0E0 to 0x0F1. -/
def dbgRead (s : State) (c : CoreId) (n : Nat) : Word :=
  let x := s.core c
  match n with
  | 0x0E0 => x.sel.fgsel
  | 0x0E1 => fgReg s c fun d => d.fgmatch[fgCmp s c]'(by unfold fgCmp; exact BitVec.isLt _)
  | 0x0E2 => fgReg s c fun d => d.fgwhere[fgCmp s c]'(by unfold fgCmp; exact BitVec.isLt _)
  | 0x0E3 => fgReg s c fgctlRead
  | 0x0E4 => fgReg s c (·.fglist)
  | 0x0E5 => fgReg s c fglstatVal
  | 0x0E6 => partReg s c (·.fgtrace)
  | 0x0E7 => partReg s c (·.fgtrcnt)
  | 0x0E8 => x.sel.mgsel
  | 0x0E9 => mgvalRead s c
  | 0x0EA => fgReg s c (·.fglog)
  | 0x0EB => fgReg s c fun d => d.fglogidx.zeroExtend 64
  | 0x0EC => x.dbgc
  | 0x0ED => x.dbgwva
  | 0x0EF => partReg s c (·.crashk)
  | 0x0F0 => partReg s c (·.crashd)
  | 0x0F1 => s.ports.stgown
  | _ => 0

def coreIdWord : CoreId → Word
  | .sq n => n.zeroExtend 64
  | .sy n => 64 + n.zeroExtend 64

/-- CYCLE: core cycles since the core's reset, two to a fabric cycle, the odd one open; it never goes back (Table 9-11, R3;
log 12). -/
def cycleRead (s : State) (c : CoreId) : Word :=
  let x := s.core c
  let now := 2 * (s.fclock - x.cycBase) + boolWord (Config.freeBool s.fresh)
  if x.cycLast.toNat ≤ now.toNat then now else x.cycLast

/-- The window that PWSEL selects. -/
def pwIndex (sel : Word) : Nat := min 191 (sel.extractLsb' 0 8).toNat

/-- What an SREAD of a register returns. -/
def regRead (s : State) (c : CoreId) (n : Nat) : Word :=
  let x := s.core c
  if 0x010 ≤ n && n ≤ 0x016 then trapReg x.ts x.timecmp (n - 0x010)
  else if 0x060 ≤ n && n ≤ 0x0AE then sqRead s c n
  else if 0x0E0 ≤ n && n ≤ 0x0F1 then dbgRead s c n
  else if 0x110 ≤ n && n ≤ 0x115 then trapReg x.th 0 (n - 0x110)
  else match n with
    | 0x000 => x.fcsr
    | 0x001 => x.sigctl
    | 0x002 => cycleRead s c
    | 0x003 => s.fclock
    | 0x004 => coreIdWord c
    | 0x005 => partReg s c (·.rules.rmcount)
    | 0x020 => partReg s c (·.pfqbase)
    | 0x021 => partReg s c (·.pfqsize)
    | 0x022 => partReg s c fun p => p.pfqhead.zeroExtend 64
    | 0x023 => partReg s c fun p => p.pfqtail.zeroExtend 64
    | 0x024 => partReg s c (·.hangbase)
    | 0x030 => partReg s c (·.ptroot)
    | 0x031 => partReg s c (·.viewtab)
    | 0x032 => s.syscfg
    | 0x040 => partReg s c (·.rules.rmcfg)
    | 0x041 => partReg s c (·.rules.wmbase)
    | 0x0C0 => x.sel.badsel
    | 0x0C1 => badtileRead s x.sel.badsel
    | 0x0D0 => x.sel.tqsel
    | 0x0D1 => tqcfgRead s x.sel.tqsel
    | 0x0D2 => partReg s c (·.lattol)
    | 0x0D3 => partReg s c (·.pwrbase)
    | 0x0D4 => x.sel.monsel
    | 0x0D5 => monvalRead s c x.sel.monsel
    | 0x100 => s.ms.net.devnum.zeroExtend 64
    | 0x101 => x.sel.pwsel
    | 0x102 => s.pwinOf (pwIndex x.sel.pwsel)
    | _ => 0

/-- A read of an SQGn that is pending waits (R344). -/
def readWaits (s : State) (c : CoreId) (n : Nat) : Bool :=
  if 0x061 ≤ n && n ≤ 0x07F then
    match reachedSq s c with
    | some q => (s.core q).pending (BitVec.ofNat 5 (n - 0x060))
    | none => false
  else false

/-- Reads that are acquires: PFQTAIL, FGTRCNT, and FGLSTAT with DONE = 1 (R337, R383, R384). -/
def readAcquires (n : Nat) (v : Word) : Bool := n = 0x023 || n = 0x0E7 || (n = 0x0E5 && v.getLsbD 63)

/-! ### Writes -/

/-- Writes a field of a core's own trap registers (Tables 9-9 and 9-10); `h` for the H registers. -/
def setTrapReg (h : Bool) (i : Nat) (v : Word) (t : TrapRegs) : TrapRegs :=
  match i with
  | 0 => { t with status := v &&& (if h then 0xF else 0x7) }
  | 1 => { t with tvec := v &&& ~~~3#64 }
  | 2 => { t with tpc := v &&& ~~~3#64 }
  | 3 => { t with tcause := v &&& 0x1FF }
  | 4 => { t with tval := v }
  | 5 => { t with tscr := v }
  | _ => t

def setTrapS (i : Nat) (v : Word) (c : Core) : Core :=
  if i = 6 then { c with timecmp := v } else { c with ts := setTrapReg false i v c.ts }

/-- SQCTL.STOP: the core stops at its next instruction boundary (R344). -/
def sqStop (c : Core) : Core :=
  match c.run with
  | .held | .halted | .stopped => c
  | _ => { c with stopReq := true }

/-- A die leaves W4 (R376). -/
def wakeDie (s : State) (c : CoreId) : State :=
  match dieOfCore c with | some d => s.updDie d fun x => { x with w4 := false } | none => s

/-- SQCTL.GO: a stopped or halted core resumes at its pc and LEVEL, no trap's entry any more; LEVEL 2 and 3 make it ignored (R331, R344). -/
def sqGo (s : State) (q : CoreId) : State :=
  let c := s.core q
  match c.stoppedNow, levelOfCode c.sqlevel with
  | true, some l => if l = .h then s else wakeDie (s.updCore q fun c => { c with run := .running, level := l, stopReq := false, entering := none }) q
  | _, _ => s

/-- A write of SQCTL; STOP and GO together are ignored. -/
def sqctlWrite (s : State) (q : CoreId) (v : Word) : State :=
  if v.getLsbD 0 && v.getLsbD 1 then s
  else
    let s := s.updCore q fun c => { c with sqlevel := v.extractLsb' 3 2 }
    if v.getLsbD 0 then s.updCore q sqStop
    else if v.getLsbD 1 then sqGo s q
    else s

/-- Tags of f(8k) to f(8k + 7) from a word. -/
def sqftWrite (k : Nat) (v : Word) (c : Core) : Core :=
  (List.range 8).foldl (fun (c : Core) j =>
    let r : Reg := BitVec.ofNat 5 (8 * k + j)
    c.wf r (c.rf r).val (v.extractLsb' (8 * j) 7)) c

/-- A write of 0x060 to 0x0AE on an SY core (Table 21-5). -/
def sqWrite (s : State) (c : CoreId) (n : Nat) (v : Word) : State :=
  if n = 0x060 then s.updCore c fun x => { x with sel := { x.sel with sqsel := v &&& 0x3F } }
  else if n = 0x0A7 then match selectedSq s c with | some q => sqctlWrite s q v | none => s
  else match reachedSq s c with
    | none => s
    | some q => s.updCore q fun x =>
      if n < 0x080 then x.wg (BitVec.ofNat 5 (n - 0x060)) v
      else if n < 0x0A0 then x.wf (BitVec.ofNat 5 (n - 0x080)) v (x.rf (BitVec.ofNat 5 (n - 0x080))).tag
      else if n < 0x0A4 then sqftWrite (n - 0x0A0) v x
      else if n = 0x0A4 then { x with pc := v &&& ~~~3#64 }
      else if n = 0x0A5 then { x with fcsr := v &&& 0x1FFF }
      else if n = 0x0A6 then { x with sigctl := v &&& 0xFF }
      else setTrapS (n - 0x0A8) v x

/-- A write with one W1C bit and RW bits elsewhere. -/
def rwW1c (rw one old v : Word) : Word := (v &&& rw) ||| (old &&& one &&& ~~~v)

/-- PFQHEAD stored modulo 2^LOGN (Table 21-3). -/
def pfqheadOf (p : Partition) (v : Word) : BitVec 16 :=
  BitVec.ofNat 16 ((v &&& 0xFFFF).toNat % 2 ^ (p.pfqsize.extractLsb' 0 5).toNat)

/-- RMCFG: EN from 0 to 1 starts timetags and creation sequences at 1 (R187, R324). -/
def setRmcfg (v : Word) (q : Rules) : Rules :=
  let q' := { q with rmcfg := v &&& 7 }
  if v.getLsbD 0 && !q.en then { q' with timetag := 1, creation := 1 } else q'

/-- WMBASE: ignored while a delta is in flight or the conflict set holds an instantiation (R307). -/
def setWmbase (s : State) (c : CoreId) (v : Word) : State :=
  match (s.core c).part with
  | none => s
  | some p =>
    if deltaInFlight s p || !(s.rules p).insts.isEmpty then s
    else s.updRules p fun q => { q with wmbase := v &&& 0xFC0FFFFFFFFF001F }

/-! ### Bids that leave a queue (R364, R367, R369) -/

def bypB (s : State) : Nat := (s.syscfg.extractLsb' 15 6).toNat

/-- Head bids of a die with the rank and number of their queues. -/
def queueHeads (s : State) (d : DieId) : List (Nat × Nat × Op) :=
  (s.die d).queues.toList.zipIdx.filterMap fun (q, i) =>
    if q.en then (q.bids.head?.bind (findOp s)).map fun o => (q.rank.toNat, i, o) else none

/-- The order of a round. -/
def bidBefore (a b : Nat × Nat × Op) : Bool :=
  if a.1 ≠ b.1 then b.1 ≤ a.1
  else if a.2.2.since ≠ b.2.2.since then a.2.2.since.toNat ≤ b.2.2.since.toNat
  else a.2.1 ≤ b.2.1

/-- Head bids of a die in the order of a round. -/
def headsInOrder (s : State) (d : DieId) : List Op := (sortBy bidBefore (queueHeads s d)).map (·.2.2)

/-- The head bid for which a die without a hold is held next: the first in order whose count has reached B (R369). -/
def nextHeld (s : State) (d : DieId) : Option Nat :=
  let b := bypB s
  ((headsInOrder s d).find? fun o =>
    b != 0 && (s.die d).queues.toList.any fun q => q.bids.head? == some o.id && decide (b ≤ q.byp)).map (·.id)

/-- A queue without some bids: one that reaches the head starts its count at 0. -/
def TQueue.without (gone : Nat → Bool) (q : TQueue) : TQueue :=
  let left := q.bids.filter fun k => !gone k
  { q with bids := left, byp := if left.head? == q.bids.head? then q.byp else 0 }

/-- Takes bids out of a die's queues: a hold for one of them ends, and another whose count has reached B takes it; a round is asked
for where a bid reaches a head; those that waited at issue and now stand among the first 16 go on (R364, R367, R369). -/
def takeBids (s : State) (d : DieId) (gone : Nat → Bool) : State :=
  let s := s.updDie d fun x => { x with
    queues := x.queues.map (TQueue.without gone)
    held := x.held.filter fun k => !gone k
    round := x.round || x.queues.toList.any fun q => q.bids.head?.any gone }
  let s := if (s.die d).held.isNone then s.updDie d fun x => { x with held := nextHeld s d } else s
  let inside := (s.die d).queues.toList.flatMap fun q => q.bids.take 16
  s.ops.foldl (fun s w => if inside.contains w.id && (s.core w.core).run == .issue w.id then
    s.updCore w.core fun c => { c with run := .running } else s) s

/-- Completes the bids of a queue, and those that wait at issue for room in it, with KILLED (R366). -/
def killBids (s : State) (bids : List Nat) : State :=
  bids.foldl (fun s k => match findOp s k with | some o => finishOp s o (failWord cKILLED) | none => s) s

/-- TQCFG (R366). -/
def setTqcfg (s : State) (c : CoreId) (v : Word) : State :=
  let sel := (s.core c).sel.tqsel
  let q := queueOf s sel
  let en := v.getLsbD 7
  let q' : TQueue := { q with rank := v.extractLsb' 0 3, en := en, owner := v.extractLsb' 8 4 }
  let s := s.updDie (sel.extractLsb' 6 2) fun d => { d with
    queues := d.queues.set (sel.extractLsb' 0 6).toNat q' (sel.extractLsb' 0 6).isLt
    round := true }
  if en then s else killBids (takeBids s (sel.extractLsb' 6 2) q.bids.contains) q.bids

/-- FGCTL.GO: the region resumes and its hang interval starts again (R382). -/
def fgGo (s : State) (r : RegionId) : State :=
  if (s.dbg r).stop = .going then s else touch (s.updDbg r fun d => { d with stop := .going, replayAt := s.fclock }) r

/-- FGCTL.UNPARK: every debug-parked activation unparks unless a fault parks it too (R381). -/
def fgUnpark (s : State) (r : RegionId) : State :=
  let acts := ((s.fab r).parkTab.filter (·.debug)).map fun p => (p.ctx, p.iter)
  let s := s.updFab r fun f => { f with parkTab := f.parkTab.filter (!·.debug) }
  acts.dedup.foldl (fun s a => unpark s r a.1 a.2) s

/-- A write of FGCTL; STOP and GO together are ignored. -/
def fgctlWrite (s : State) (r : RegionId) (v : Word) : State :=
  if v.getLsbD 0 && v.getLsbD 1 then s
  else
    let s := s.updDbg r fun d => { d with
      sample := v.extractLsb' 6 5, lost := d.lost && !v.getLsbD 5, rply := v.getLsbD 4 }
    let s := if v.getLsbD 11 then s.updDbg r fun d => { d with mg := [] } else s
    let s := if v.getLsbD 3 then fgUnpark s r else s
    if v.getLsbD 0 then beginStop s r else if v.getLsbD 1 then fgGo s r else s

/-- FGLIST.GO: DBGLIST starts, or is refused (R383). -/
def listGo (s : State) (r : RegionId) : State :=
  if (s.dbg r).listing || !((s.dbg r).stop == .stopped || (s.ctl r).st == .frozen) then
    s.updDbg r fun d => { d with listErr := true, listDone := true }
  else s.updDbg r fun d => { d with listing := true, listDone := false, listErr := false, listOvf := false, listCount := 0 }

def fglistWrite (s : State) (r : RegionId) (v : Word) : State :=
  let s := s.updDbg r fun d => { d with fglist := v &&& 0x000FFFFFFFFFFFFE }
  if v.getLsbD 0 then listGo s r else s

/-- FGTRACE: EN from 0 to 1 restarts COUNT (R384). -/
def setFgtrace (v : Word) (p : Partition) : Partition :=
  { p with
    fgtrace := v &&& 0x000FFFFFFFFFF03F
    fgtrcnt := if v.getLsbD 0 && !p.fgtrace.getLsbD 0 then p.fgtrcnt &&& 0xFFFFFF0000000000 else p.fgtrcnt }

/-- The core that a value of FGCSTOP names. -/
def cstopCore (v : Word) : Option CoreId :=
  let k := (v.extractLsb' 0 7).toNat
  if k < 64 then some (.sq (BitVec.ofNat 6 k)) else if k < 80 then some (.sy (BitVec.ofNat 4 (k - 64))) else none

/-- FGCSTOP: DBGSTOP becomes pending on a core of the partition (R379, R392). -/
def cstopWrite (s : State) (c : CoreId) (v : Word) : State :=
  match cstopCore v with
  | none => s
  | some q => if (s.core c).part.isSome && (s.core q).part == (s.core c).part then s.updCore q fun x => { x with dbgstop := true } else s

/-- RUNNING regions of a partition. -/
def runningOf (s : State) (p : PartId) : List RegionId := (regionsOf s p).filter fun r => (s.ctl r).st == .running

/-- Must CRASHK.GO wait for a region that sleeps on (R375)? -/
def crashWaits (s : State) (p : PartId) : Bool := (s.part p).crashk.getLsbD 0 && (runningOf s p).any (sleepsOn s)

/-- CRASHK.GO with ARM = 1: the crash path starts (R393), and wakes the regions it stops (R375). An SY core that does not run is at an
instruction boundary. -/
def crashGo (s : State) (p : PartId) : State :=
  if !(s.part p).crashk.getLsbD 0 then s
  else
    let s := s.updPart p fun q => { q with crashk := q.crashk &&& ~~~1#64 }
    let s := (runningOf s p).foldl (fun s r => beginStop (wakeRegion s r) r) s
    let cs := coresOf s p
    let s := cs.foldl (fun s c => match c with
      | .sq _ => s.updCore c sqStop
      | .sy _ => s.updCore c fun x => { x with crashStop := true }) s
    cs.foldl (fun s c => match c, (s.core c).run with
      | .sy n, .halted | .sy n, .stopped | .sy n, .held => crashCore s n p
      | _, _ => s) s

/-- A write of CRASHK: ENTRY, CORE and ARM are written at H only. -/
def crashkWrite (s : State) (c : CoreId) (v : Word) : State :=
  match (s.core c).part with
  | none => s
  | some p =>
    let s := if (s.core c).level = .h then s.updPart p fun q => { q with crashk := v &&& 0x000FFFFFFFFFFF01 } else s
    if v.getLsbD 1 then crashGo s p else s

/-- Writes of 0x0E0 to 0x0F1 (Table 25-2). -/
def dbgWrite (s : State) (c : CoreId) (n : Nat) (v : Word) : State :=
  let upd (f : Core → Core) : State := s.updCore c f
  let onRegion (k : RegionId → State) : State := match fgRegion s c with | some r => k r | none => s
  match n with
  | 0x0E0 => upd fun x => { x with sel := { x.sel with fgsel := v &&& 0x3C3F } }
  | 0x0E1 => updFg s c fun d => { d with
      fgmatch := d.fgmatch.set (fgCmp s c) (v &&& 0xFFFFFF00FFFFFFFF) (by unfold fgCmp; exact BitVec.isLt _) }
  | 0x0E2 => updFg s c fun d => { d with
      fgwhere := d.fgwhere.set (fgCmp s c) (v &&& 0xFF000000001FFC3F) (by unfold fgCmp; exact BitVec.isLt _) }
  | 0x0E3 => onRegion fun r => fgctlWrite (wakeRegion s r) r v
  | 0x0E4 => onRegion fun r => fglistWrite (wakeRegion s r) r v
  | 0x0E5 => updFg s c fun d => { d with listErr := d.listErr && !v.getLsbD 62 }
  | 0x0E6 => updPartOf s c (setFgtrace v)
  | 0x0E8 => upd fun x => { x with sel := { x.sel with mgsel := v &&& 0xFFFFFC3F } }
  | 0x0EA => updFg s c fun d => { d with fglog := v &&& 0x000FFFFFFFFFF03E }
  | 0x0EB => updFg s c fun d => { d with fglogidx := v.extractLsb' 0 32 }
  | 0x0EC => upd fun x => { x with dbgc := v &&& 0x1FF }
  | 0x0ED => upd fun x => { x with dbgwva := v }
  | 0x0EE => cstopWrite s c v
  | 0x0EF => crashkWrite s c v
  | 0x0F0 => updPartOf s c fun p => { p with crashd := v &&& 0x000FFFFFFFFFC000 }
  | 0x0F1 => s.updPorts fun h => { h with stgown := v &&& 0x1F }
  | _ => s

/-- PFQHEAD: a release of the core's earlier accesses; the slots return to hardware (R337). -/
def setPfqhead (s : State) (c : CoreId) (v : Word) : State :=
  updPartOf (s.updMs (releaseS (.coreD c))) c fun p => { p with pfqhead := pfqheadOf p v }

/-- SYSCFG: a write of BYP asks each die for a round (R367). -/
def setSyscfg (s : State) (v : Word) : State :=
  { s with syscfg := v &&& 0x3FFFFFF, dies := s.dies.map (fun d => { d with round := true }) }

/-- PWIN of a window (Table 26-3). -/
def setPwin (w : Nat) (v : Word) (t : Net) : Net :=
  { t with pwin := Vector.ofFn fun i : Fin 192 => if i.val = w then v &&& 0x800000000FF0FFFF else t.pwin[i] }

/-- The bits of PTROOT; its RSV bits read 0 (Table 5-4). -/
def ptrootBits (v : Word) : Word := v &&& 0x0000FFFFFFFFE001

/-- Must a write of a register wait? A write of PFQHEAD is a release (R337), which a locked line holds back (R99); an SQGn that is
pending on its core cannot be written (R141, R163); FGCTL, FGLIST and CRASHK reach a region only once it is awake (R375). -/
def writeWaits (s : State) (c : CoreId) (n : Nat) : Bool :=
  n = 0x022 && syncHeld s (.coreD c) || readWaits s c n ||
    (n = 0x0E3 || n = 0x0E4) && ((fgRegion s c).any (sleepsOn s)) || n = 0x0EF && (s.core c).part.any (crashWaits s)

/-- What a write of a register does, when the core's level allows it; RO fields and registers do not change. -/
def regWrite (s : State) (c : CoreId) (n : Nat) (v : Word) : State :=
  let upd (f : Core → Core) : State := s.updCore c f
  if 0x010 ≤ n && n ≤ 0x016 then upd (setTrapS (n - 0x010) v)
  else if 0x060 ≤ n && n ≤ 0x0AE then sqWrite s c n v
  else if 0x0E0 ≤ n && n ≤ 0x0F1 then dbgWrite s c n v
  else if 0x110 ≤ n && n ≤ 0x115 then upd fun x => { x with th := setTrapReg true (n - 0x110) v x.th }
  else match n with
    | 0x000 => upd fun x => { x with fcsr := rwW1c 0x1FE0 0x1F x.fcsr v }
    | 0x001 => upd fun x => { x with sigctl := v &&& 0xFF }
    | 0x020 => updPartOf s c fun p => { p with pfqbase := v &&& 0x000FFFFFFFFFF001 }
    | 0x021 => updPartOf s c fun p => { p with pfqsize := rwW1c 0xFFFFFFFF0001001F 0x20000 p.pfqsize v }
    | 0x022 => setPfqhead s c v
    | 0x024 => updPartOf s c fun p => { p with hangbase := rwW1c 0x000FFFFFFFC00001 2 p.hangbase v }
    | 0x030 => updPartOf s c fun p => { p with ptroot := ptrootBits v }
    | 0x031 => updPartOf s c fun p => { p with viewtab := v &&& 0x0000FFFFFFFFF1FF }
    | 0x032 => setSyscfg s v
    | 0x040 => updPartOf s c fun p => { p with rules := setRmcfg v p.rules }
    | 0x041 => setWmbase s c v
    | 0x0C0 => upd fun x => { x with sel := { x.sel with badsel := v &&& 0x3FF } }
    | 0x0D0 => upd fun x => { x with sel := { x.sel with tqsel := v &&& 0xFF } }
    | 0x0D1 => setTqcfg s c v
    | 0x0D2 => updPartOf s c fun p => { p with lattol := v &&& 0xFFFFFFFF }
    | 0x0D3 => updPartOf s c fun p => { p with pwrbase := rwW1c 0x000FFFFFE0000001 2 p.pwrbase v }
    | 0x0D4 => upd fun x => { x with sel := { x.sel with monsel := v &&& 0xF7F } }
    | 0x101 => upd fun x => { x with sel := { x.sel with pwsel := v &&& 0xFF } }
    | 0x102 => s.updMs fun ms => { ms with net := setPwin (pwIndex (s.core c).sel.pwsel) v ms.net }
    | _ => s

/-! ### SREAD and SWRITE (R196) -/

/-- The value of an SREAD at a core, with the acquire of the registers that acquire. -/
def sreadCore (s : State) (c : CoreId) (n : Nat) : Word × State :=
  let v := regRead s c n
  (v, if readAcquires n v then s.updMs (acquireS (.coreD c))
    else if n = 0x002 then s.updCore c fun x => { x with cycLast := v }
    else s)

/-- SREAD (R196). -/
def execSread (d n m : Reg) (s : State) : Out :=
  let k := (regNum n m).toNat
  match regInfo k with
  | none => raise s cILLEGAL (wordOf (.sread d n m))
  | some i =>
    if !regOn s.cur i then raise s cILLEGAL (wordOf (.sread d n m))
    else needLevel s i.rd (.sread d n m) <| needRegs s [d] <|
      if readWaits s s.cur k then .next s
      else
        let (v, s) := sreadCore s s.cur k
        retireG s d v

/-- SWRITE (R196). -/
def execSwrite (d n m : Reg) (s : State) : Out :=
  let k := (regNum n m).toNat
  match regInfo k with
  | none => raise s cILLEGAL (wordOf (.swrite d n m))
  | some i =>
    if !regOn s.cur i then raise s cILLEGAL (wordOf (.swrite d n m))
    else match i.wr with
      | none => needLevel s i.rd (.swrite d n m) <| needRegs s [d] <| retire s
      | some l => needLevel s l (.swrite d n m) <| needRegs s [d] <|
          if writeWaits s s.cur k then .next s else retire (regWrite s s.cur k (s.rg d))

/-! ### Register writes and reads as events -/

/-- May a running core write (or read) a register? -/
def regAllowed (s : State) (c : CoreId) (n : Nat) (write : Bool) : Bool :=
  match regInfo n with
  | none => false
  | some i =>
    (s.core c).run == .running && regOn c i &&
      match (if write then i.wr else some i.rd) with
      | some l => decide (levelNat l ≤ levelNat (s.core c).level)
      | none => false

/-- A register write of a core as an event of its own. -/
def regEvent (s : State) (c : CoreId) (n : Nat) (v : Word) : Out :=
  if regAllowed s c n true && !writeWaits s c n then .next (regWrite s c n v) else .next s

/-- A register read of a core into g[d] as an event of its own. -/
def readEvent (s : State) (c : CoreId) (n : Nat) (d : Reg) : Out :=
  if regAllowed s c n false && !(s.core c).pending d then
    let (v, s) := sreadCore s c n
    .next (s.updCore c (·.wg d v))
  else .next s

/-- TIMECMP_S_WRITE (R193). -/
def execTimecmpSWrite (c : CoreId) (v : Word) (s : State) : Out := regEvent s c 0x016 v

/-- PFQHEAD_WRITE (R337). -/
def execPfqheadWrite (c : CoreId) (v : Word) (s : State) : Out := regEvent s c 0x022 v

/-- PFQTAIL_READ (R337). -/
def execPfqtailRead (c : CoreId) (d : Reg) (s : State) : Out := readEvent s c 0x023 d

/-- WMBASE_WRITE (R307). -/
def execWmbaseWrite (c : CoreId) (v : Word) (s : State) : Out := regEvent s c 0x041 v

/-- TQCFG_WRITE (R366). -/
def execTqcfgWrite (c : CoreId) (v : Word) (s : State) : Out := regEvent s c 0x0D1 v

/-- SQCTL_STOP: STOP written for the core that c's SQSEL selects (R344). -/
def execSqctlStop (c : CoreId) (s : State) : Out :=
  if regAllowed s c 0x0A7 true then
    .next (match selectedSq s c with | some q => s.updCore q sqStop | none => s)
  else .next s

/-- SQCTL_GO: GO written for the core that c's SQSEL selects (R343, R344). -/
def execSqctlGo (c : CoreId) (s : State) : Out :=
  if regAllowed s c 0x0A7 true then .next (match selectedSq s c with | some q => sqGo s q | none => s)
  else .next s

/-- An FGCTL or FGLIST action on the region c's FGSEL names, which it wakes (R375). -/
def fgEvent (s : State) (c : CoreId) (n : Nat) (k : State → RegionId → State) : Out :=
  if regAllowed s c n true && !writeWaits s c n then
    .next (match fgRegion s c with | some r => k (wakeRegion s r) r | none => s)
  else .next s

/-- FGCTL_STOP (R382). -/
def execFgctlStop (c : CoreId) (s : State) : Out := fgEvent s c 0x0E3 beginStop

/-- FGCTL_GO (R382). -/
def execFgctlGo (c : CoreId) (s : State) : Out := fgEvent s c 0x0E3 fgGo

/-- FGCTL_UNPARK (R381). -/
def execFgctlUnpark (c : CoreId) (s : State) : Out := fgEvent s c 0x0E3 fgUnpark

/-- FGCTL_CLRMG (R388). -/
def execFgctlClrmg (c : CoreId) (s : State) : Out :=
  fgEvent s c 0x0E3 fun s r => s.updDbg r fun d => { d with mg := [] }

/-- FGLIST_GO (R383). -/
def execFglistGo (c : CoreId) (s : State) : Out := fgEvent s c 0x0E4 listGo

/-- FGLSTAT_READ (R383). -/
def execFglstatRead (c : CoreId) (d : Reg) (s : State) : Out := readEvent s c 0x0E5 d

/-- FGTRCNT_READ (R384). -/
def execFgtrcntRead (c : CoreId) (d : Reg) (s : State) : Out := readEvent s c 0x0E7 d

/-- FGCSTOP_WRITE (R392). -/
def execFgcstopWrite (c : CoreId) (v : Word) (s : State) : Out := regEvent s c 0x0EE v

/-- CRASHK_GO (R393). -/
def execCrashkGo (c : CoreId) (s : State) : Out :=
  if regAllowed s c 0x0EF true && !writeWaits s c 0x0EF then .next (match (s.core c).part with | some p => crashGo s p | none => s) else .next s

/-- REGISTER_WRITE (R196). -/
def execRegisterWrite (c : CoreId) (n : BitVec 10) (v : Word) (s : State) : Out := regEvent s c n.toNat v

end Sys2Proof.Machine
end

