-- ==== Sys2Proof/Machine/Regions.lean ====
section
/-!
DEFINITION. Regions: requests and the Tundish (09 R167 to R174, 24_scheduling.md), LAUNCH, KILLR, PREEMPT and RESUMR with
the save area (21_traps.md R340 to R342).
-/

namespace Sys2Proof.Machine

open Sys2Proof

/-! ### Region operands (R167) -/

/-- The region that an operation names, or the cause it completes with. A FREE region has no owner and passes: R171 to R175 give
its cause (log 30). -/
def regionArg (s : State) (o : Op) (v : Word) : Except (BitVec 8) RegionId :=
  let r : RegionId := v.setWidth 6
  let far := match dieOfCore o.core with | some d => d != dieOfRegion r | none => false
  if 63 < v.toNat || far then .error cPRIV
  else if (s.ctl r).st != .free && (s.ctl r).part != o.part then .error cPRIV
  else .ok r

/-- An instruction that acts on a region, issued in the state s0: it wakes the region, and waits at issue for one that cannot wake
yet (R375). -/
def onRegion (s0 s : State) (o : Op) (v : Word) (k : RegionId → State → Out) : Out :=
  match regionArg s o v with
  | .error c => endNow s o (failWord c)
  | .ok r => let t := wakeRegion s r
    if (t.ctl r).power = 0 then k r t else .next s0

/-! ### RQRY (R169) -/

def stateCode : RState → Nat
  | .free => 0 | .idle => 1 | .loading => 2 | .running => 3 | .frozen => 4 | .saved => 5

/-- Table 9-2; 0 for a region that is not the caller's. DESIGN CHOICE (log 96): a core of another die reads its partition's region too. -/
def rqryWord (s : State) (c : CoreId) (v : Word) : Word :=
  let r : RegionId := v.setWidth 6
  let x := s.ctl r
  if 63 < v.toNat || x.st = .free || some x.part != (s.core c).part then 0
  else
    saveUnits x ++ (0#10 ++ dieOfRegion r ++ BitVec.ofNat 4 x.ocol ++ BitVec.ofNat 4 x.orow ++ BitVec.ofNat 4 x.ccols ++
      BitVec.ofNat 4 x.crows ++ BitVec.ofNat 4 (stateCode x.st) : BitVec 32)

/-- RQRY (R169). -/
def execRqry (d a : Reg) (s : State) : Out := needRegs s [d, a] <| retireG s d (rqryWord s s.cur (s.rg a))

/-! ### Bids (R364 to R366) -/

/-- Puts a bid into a queue; beyond the 16th, its core waits at issue (R364). -/
def enqueue (s : State) (o : Op) (d : DieId) (q : BitVec 6) (kind : OpKind) : Out :=
  let tq := (s.die d).queues[q.toNat]'q.isLt
  if !tq.en || tq.owner != o.part then endNow s o (failWord cPRIV)
  else
    let s := s.updDie d fun x => { x with
      queues := x.queues.set q.toNat { tq with bids := tq.bids ++ [o.id] } q.isLt
      round := true
      w4 := false }
    match start s o kind with
    | .next s => .next (if 16 ≤ tq.bids.length then
        s.updCore o.core fun c => if c.run = .running then { c with run := .issue o.id } else c else s)
    | r => r

/-- Regions of a die that are not FREE. -/
def dieRegions (s : State) (d : DieId) : List RegionId :=
  ((List.range 64).map fun i => (BitVec.ofNat 6 i : RegionId)).filter fun r => dieOfRegion r == d && (s.ctl r).st != .free

/-- Has a partition 16 regions on a die (R168)? -/
def ownsAll (s : State) (d : DieId) (p : PartId) : Bool := 16 ≤ (dieRegions s d).countP fun r => (s.ctl r).part == p

/-- REQR (R168). -/
def execReqr (d a b : Reg) (s : State) : Out :=
  issue s d [a, b] fun s o =>
    let v := s.rg a
    let rows := (v.extractLsb' 0 4).toNat
    let cols := (v.extractLsb' 4 4).toNat
    let die := (dieOfCore o.core).getD (v.extractLsb' 8 2)
    if v.extractLsb' 10 54 != 0#54 || (s.rg b).extractLsb' 6 58 != 0#58 || rows < 1 || 9 < rows || cols < 1 || 11 < cols then
      endNow s o (failWord cILLEGAL)
    else enqueue s o die ((s.rg b).extractLsb' 0 6) (.reqr die ((s.rg b).extractLsb' 0 6) rows cols)

/-! ### RESUMR: its checks (R174, R342, R390) -/

/-- A snapshot whose body is that of a region: the region as it is kept while SAVED, or an earlier one (log 14). -/
def savedAs (s : State) (r : RegionId) (hash : BitVec 256) : Option Save :=
  if (s.ctl r).savedHash = hash then
    some ⟨hash, s.region r, s.ops, (s.rules (s.ctl r).part).unsettled, (s.rules (s.ctl r).part).deliveries,
      ((s.saves.find? fun x => x.bhash == hash).map (·.runs)).getD []⟩
  else s.saves.find? fun x => x.bhash == hash && x.region.ctl.part == (s.ctl r).part

/-- Does a configuration hold a node of an opcode? -/
def Cfg.has (g : Cfg) (opc : BitVec 8) : Bool := g.nodes.any fun x => x.word.extractLsb' 0 8 == opc

/-- A replay that R390 refuses. -/
def replayBad (d : RegionDbg) (g : Cfg) : Bool := d.rply && (d.lost || d.fglogidx == 0 || g.has 0x80)

/-- Check 1 of R342, on the header, and that an SQ core's region is on its die. -/
def saveAgrees (s : State) (o : Op) (h : List Byte) : Except (BitVec 8) RegionId :=
  let id := leAt h 6 1
  let r : RegionId := BitVec.ofNat 6 id
  let c := s.ctl r
  if leAt h 0 4 != 0x4B355350 || leAt h 4 2 != 1 || 63 < id || c.st != .saved || c.part != o.part || c.heldStore.isSome ||
      leAt h 7 1 != (dieOfRegion r).toNat || leAt h 8 1 != c.crows || leAt h 9 1 != c.ccols then .error cILLEGAL
  else if (match dieOfCore o.core with | some d => d != dieOfRegion r | none => false) then .error cPRIV
  else .ok r

/-- Check 3 of R342: the configuration of the header re-read from memory gives an RSIG that a load record holds. -/
def saveRsigOk (s : State) (o : Op) (h : List Byte) (rsig : BitVec 256) : MRes Bool :=
  if leAt h 64 32 == rsig.toNat && (s.part o.part).loads.any fun l => l.rsigs.any (·.2 == rsig) then
    reread s (hubCtx o.part o.lvl) (BitVec.ofNat 64 (leAt h 16 8)) (BitVec.ofNat 6 (leAt h 24 1)) rsig
  else .ok false s

/-- RESUMR (R174): the checks of R342 in order, then its bid. -/
def execResumr (d a b : Reg) (s : State) : Out :=
  issue s d [a, b] fun t o =>
    let va := t.rg a
    let q := (t.rg b).extractLsb' 0 6
    let x := hubCtx o.part o.lvl
    let fail (c : BitVec 8) : Out := endNow t o (failWord c)
    let reads {α : Type} (r : MRes α) (k : α → State → Out) : Out := match r with
      | .ok v s => k v s
      | .trap c _ => fail c
      | .wait => .next s
    reads (loadBytes t x va 128) fun h s1 => match saveAgrees s1 o h with
      | .error c => fail c
      | .ok r => reads (loadBytes s1 x (va + 128) (4096 * leAt h 12 4 - 128)) fun body s2 =>
        let hash := shake256 body
        match savedAs s2 r hash, leAt h 96 32 == hash.toNat with
        | some sv, true => match sv.region.ctl.cfg with
          | none => fail cLOAD_SIGNATURE
          | some g => reads (saveRsigOk s2 o h g.rsig) fun ok s3 =>
            if !ok then fail cLOAD_SIGNATURE
            else if replayBad (s3.dbg r) g then fail cILLEGAL
            else enqueue s3 o (dieOfRegion r) q (.resumr (dieOfRegion r) q va r)
        | _, _ => fail cLOAD_SIGNATURE

/-! ### Placement (R368, R370) -/

/-- Does a cluster lie in a region's rectangle? -/
def covers (c : RegionCtl) (i j : Nat) : Bool :=
  c.orow ≤ i && i < c.orow + c.crows && c.ocol ≤ j && j < c.ocol + c.ccols

/-- Is a cluster of a die free? A SAVED region occupies none. -/
def clusterFree (s : State) (d : DieId) (i j : Nat) : Bool :=
  !((dieRegions s d).any fun r => (s.ctl r).st != .saved && covers (s.ctl r) i j)

def clusterBad (s : State) (d : DieId) (i j : Nat) : Bool :=
  (s.die d).badTiles.any fun t => t.1.toNat / 3 == i && t.2.toNat / 3 == j

/-- The header and the body of the save area that a RESUMR names. -/
def readSave (s : State) (o : Op) (save : Word) : MRes (List Byte × List Byte) :=
  let x := hubCtx o.part o.lvl
  (loadBytes s x save 128).bind fun h s =>
    (loadBytes s x (save + 128) (4096 * leAt h 12 4 - 128)).bind fun b s => .ok (h, b) s

/-- The configuration that a RESUMR of a save area restores. -/
def savedCfg (s : State) (o : Op) (save : Word) (r : RegionId) : Option Cfg :=
  match readSave s o save with
  | .ok a _ => (savedAs s r (shake256 a.2)).bind (·.region.ctl.cfg)
  | .trap _ _ | .wait => none

/-- Shape of a bid, and the configuration whose converters a RESUMR keeps on CMTs. -/
def bidShape (s : State) (o : Op) : Nat × Nat × Option Cfg :=
  match o.kind with
  | .reqr _ _ rows cols => (rows, cols, none)
  | .resumr _ _ save r => ((s.ctl r).crows, (s.ctl r).ccols, savedCfg s o save r)
  | _ => (10, 12, none)

/-- Origins at which a bid may stand, in the order of R368; on an empty die when `empty`. -/
def placements (s : State) (d : DieId) (o : Op) (empty : Bool) : List (Nat × Nat) :=
  let (rows, cols, g) := bidShape s o
  (List.range (10 - rows)).flatMap fun ci => ((List.range (12 - cols)).filter fun cj =>
    (match g with | some g => convPlaced g cj | none => true) &&
      (List.range rows).all fun i => (List.range cols).all fun j =>
        !clusterBad s d (ci + i) (cj + j) && (empty || clusterFree s d (ci + i) (cj + j))).map fun cj => (ci, cj)

/-- The cause with which a bid completes in the round that considers it. -/
def bidFails (s : State) (d : DieId) (o : Op) : Option (BitVec 8) :=
  let stale : Bool := match o.kind with | .resumr _ _ _ r => (s.ctl r).st != .saved || ((s.ctl r).heldStore.isSome) | _ => false
  let owns : Bool := match o.kind with | .reqr _ _ _ _ => ownsAll s d o.part | _ => false
  if stale then some cILLEGAL
  else if owns || (placements s d o true).isEmpty then some cLOAD_FIT
  else none

/-- The region number that a REQR is granted on a die: the lowest free one. -/
def freeNumber (s : State) (d : DieId) : Option RegionId :=
  ((List.range 16).map fun i => (d ++ (BitVec.ofNat 4 i) : RegionId)).find? fun r => (s.ctl r).st == .free

/-- Where a bid is admitted now: a REQR needs a region number too. -/
def bidFits (s : State) (d : DieId) (o : Op) : Option (Nat × Nat) :=
  let ready : Bool := match o.kind with
    | .reqr _ _ _ _ => (freeNumber s d).isSome
    | _ => true
  if ready then (placements s d o false).head? else none

/-! ### What admission does (R371) -/

/-- An entry that an agent no longer holds; state I when nobody is left (Table 5-7). -/
def dirLeave (g : Agent) (e : DirEntry) : Option DirEntry :=
  match e.st with
  | .ow a => if a = g then none else some e
  | .sh l => let l' := l.filter (· != g); if l'.isEmpty then none else some { e with st := .sh l' }

/-- An agent gives up a line: it leaves the entry that covers it, which answers a recall of the line (R92, log 66). -/
def dirDrop (g : Agent) (pa : Nat) (ms : MemSys) : MemSys :=
  { ms with
    dir := ms.dir.filterMap fun e => if dirCovers e pa then dirLeave g e else some e
    recalls := ms.recalls.filter fun x => !(x.1 == g && x.2.1 == lineOf pa) }

/-- Removes an agent from the directory's holders. -/
def dirForget (g : Agent) (ms : MemSys) : MemSys := { ms with dir := ms.dir.filterMap (dirLeave g) }

/-- The clusters of a region that has been placed are free and asleep no longer (R374). -/
def occupy (s : State) (r : RegionId) : State :=
  let here := clustersOf (s.ctl r)
  s.updDie (dieOfRegion r) fun d => { d with asleep := d.asleep.filter fun c => !here.contains c }

/-- The L1s of a region write dirty lines back and hold none (R74). -/
def flushL1 (s : State) (r : RegionId) : State :=
  (regionAgents s r).foldl (fun s g => s.updMs fun ms => dirForget g (acquireS g ms)) s

/-- Grants a rectangle to a REQR: a free number, the initial state of R74, IDLE. -/
def grantRegion (s : State) (o : Op) (d : DieId) (rows cols ci cj : Nat) : State :=
  match freeNumber s d with
  | none => s
  | some r =>
    let s := s.updRegion r fun _ => { Region.reset with ctl := { RegionCtl.reset with
      st := .idle, part := o.part, orow := ci, ocol := cj, crows := rows, ccols := cols, idleSince := some s.fclock } }
    finishOp (flushL1 (occupy s r) r) o (r.zeroExtend 64)

/-- Re-translates the accesses that a snapshot recorded (R293); a fault parks its activation. An access that faults and cannot park
yet, or whose walk waits, is held with its pieces as they were cut: it translates again from its firing (R338, R363). -/
def retryAcc (s : State) (a : Acc) : State :=
  if a.opc == 0x76 || a.space != 1 || a.held then s
  else
    let held : Acc := { a with held := true }
    match placeAgain s a with
    | .ok ps s => setAcc s { a with pieces := ps }
    | .trap c va => accPark (setAcc s held) held c va
    | .wait => setAcc s held

/-- The merge log's entries to replay (R390). -/
def readLog (s : State) (r : RegionId) : MRes (Option (List Word)) :=
  let d := s.dbg r
  if d.rply then
    (loadBytes s (hubCtx (s.ctl r).part .s) (d.fglog &&& 0x000FFFFFFFFFF000) (8 * d.fglogidx.toNat)).bind fun b s =>
      .ok (some ((List.range d.fglogidx.toNat).map fun i => BitVec.ofNat 64 (leAt b (8 * i) 8))) s
  else .ok none s

/-- Puts the progress of saved stream commands in place of that of the operations still pending, their held accesses to be made
again (R410); one that has ended runs again with its completion value discarded (log 14). -/
def restoreOps (ops saved : List Op) (r : RegionId) : List Op :=
  let mine := (saved.filter fun o => streamRegion o.kind == some r).map fun o => { o with held := none }
  (ops.map fun o => (mine.find? (·.id = o.id)).getD o) ++
    (mine.filter fun o => !ops.any (·.id = o.id)).map fun o => { o with d := 0 }

/-- The choices of the run that wrote a log: the last one resumed from the snapshot whose entries the log has (R391; log 21). -/
def loggedDraws (sv : Save) (log : List Word) : List Drawn := ((sv.runs.find? fun x => log.isPrefixOf x.log).map (·.draws)).getD []

/-- Restores a snapshot at an origin (R342): the region is RUNNING under its own number. The free values of the run depend on the
snapshot, and a replay makes the choices of the run that wrote its log (R391; log 2). DESIGN CHOICE (log 104): an open DELAY interval
ends at the FCLOCK it had, so that the time SAVED counts in it (R244). -/
def restoreRegion (s : State) (o : Op) (r : RegionId) (h : List Byte) (sv : Save) (log : Option (List Word)) (ci cj : Nat) :
    State :=
  let now := s.fclock
  let fab := { sv.region.fab with seed := sv.bhash.toNat }
  let ctl := { sv.region.ctl with
    st := .running, orow := ci, ocol := cj, imageVA := BitVec.ofNat 64 (leAt h 16 8)
    cfgIdx := BitVec.ofNat 6 (leAt h 24 1), cword := BitVec.ofNat 64 (leAt h 32 8)
    heldStore := none, lastFire := now, fault := 0, power := 0, idleSince := none, quietAt := none }
  let s := s.updRegion r fun x => { x with ctl := ctl, fab := fab, dbg := { x.dbg with
    stop := .going, sampleCount := sv.region.dbg.sampleCount, logOff := false, fglogidx := 0, replay := log, replayAt := now,
    replayDraws := (log.map (loggedDraws sv)).getD [], mg := sv.region.dbg.mg } }
  let s : State := if log.isSome then s else
    { s with saves := s.saves.map fun v => if v.bhash = sv.bhash then { v with runs := ⟨[], []⟩ :: v.runs } else v }
  let s := { s with ops := restoreOps s.ops sv.ops r }
  let s := if (s.rules ctl.part).net = r then s.updRules ctl.part fun q => { q with unsettled := sv.unsettled, deliveries := sv.deliveries }
    else s
  finishOp ((s.fab r).accs.foldl retryAcc (sweepMerger (flushL1 (occupy s r) r))) o (r.zeroExtend 64)

/-- Takes a bid that a round has considered out of its queue; the next fc has a round again (R367). -/
def popBid (s : State) (d : DieId) (o : Op) : State :=
  (takeBids s d (· == o.id)).updDie d fun x => { x with round := true }

/-- An admitted RESUMR restores its snapshot; a body that no longer agrees completes it with LOAD_SIGNATURE. None while a line of the
save area or of the replay's log is under a lock (R99). -/
def resumeRegion (s : State) (d : DieId) (o : Op) (save : Word) (r : RegionId) (ci cj : Nat) : Option State :=
  match (readSave s o save).bind fun a s => (readLog s r).bind fun l s => .ok (a, l) s with
  | .ok (a, l) s1 => match savedAs s1 r (shake256 a.2) with
    | some sv => some (restoreRegion (popBid s1 d o) o r a.1 sv l ci cj)
    | none => some (finishOp (popBid s1 d o) o (failWord cLOAD_SIGNATURE))
  | .trap c _ => some (finishOp (popBid s d o) o (failWord c))
  | .wait => none

/-- The L1s of a rectangle of a die and the fused one of a region number. -/
def rectAgents (d : DieId) (r : RegionId) (rows cols ci cj : Nat) : List Agent :=
  .fused r :: (clustersOf { RegionCtl.reset with orow := ci, ocol := cj, crows := rows, ccols := cols }).map (.cluster d)

/-- Admits a bid; none while a lock keeps the L1s it takes over from being written back, or a RESUMR from reading (R74, R99). -/
def grantBid (s : State) (d : DieId) (o : Op) (at_ : Nat × Nat) : Option State :=
  let held (r : RegionId) (rows cols : Nat) : Bool := (rectAgents d r rows cols at_.1 at_.2).any (syncHeld s)
  match o.kind with
  | .reqr _ _ rows cols =>
    if held ((freeNumber s d).getD 0) rows cols then none else some (grantRegion (popBid s d o) o d rows cols at_.1 at_.2)
  | .resumr _ _ save r =>
    if held r (s.ctl r).crows (s.ctl r).ccols then none else resumeRegion s d o save r at_.1 at_.2
  | _ => some s

/-- Does a lock keep a round from learning what configuration a RESUMR restores, and so where it may stand (R99, R368)? -/
def bidWaits (s : State) (o : Op) : Bool := match o.kind with
  | .resumr _ _ save _ => match readSave s o save with | .wait => true | .ok _ _ | .trap _ _ => false
  | _ => false

/-! ### The admission round (R367 to R370) -/

/-- The bids of a round in order; a held die considers only its bid. -/
def roundBids (s : State) (d : DieId) : List Op :=
  match (s.die d).held with
  | some k => (headsInOrder s d).filter (·.id = k)
  | none => headsInOrder s d

/-- Counts a bypass of a head bid; the first count to reach B holds the die (R369). -/
def bypass (d : DieId) (s : State) (o : Op) : State :=
  let b := bypB s
  s.updDie d fun x =>
    let qs := x.queues.map fun (q : TQueue) => if q.bids.head? == some o.id then { q with byp := q.byp + 1 } else q
    let reached := qs.toList.any fun q => q.bids.head? == some o.id && b ≤ q.byp
    { x with queues := qs, held := if x.held.isNone && reached then some o.id else x.held }

/-- Goes through the bids of a round; `failed` are the earlier ones that did not fit. A round whose bid waits for a locked line is made
again: no bid passes it. -/
def roundGo (d : DieId) (s : State) (failed : List Op) : List Op → State
  | [] => s
  | o :: rest =>
    let again := s.updDie d fun x => { x with round := true }
    if bidWaits s o then again
    else match bidFails s d o with
    | some c => roundGo d (finishOp (popBid s d o) o (failWord c)) failed rest
    | none => match bidFits s d o with
      | some at_ => match grantBid s d o at_ with
        | some s => failed.foldl (bypass d) s
        | none => again
      | none =>
        if bypB s = 0 && (s.die d).held.isNone then s.updDie d fun x => { x with held := some o.id }
        else roundGo d s (failed ++ [o]) rest

/-- TUNDISH_ADMISSION_ROUND: one round of a die, when something has asked for one (R367). -/
def execTundishAdmissionRound (d : DieId) (s : State) : Out :=
  if (s.die d).round then
    let s := s.updDie d fun x => { x with round := false }
    .next (roundGo d s [] (roundBids s d))
  else .next s

/-! ### LAUNCH (R171, R128) -/

/-- LAUNCH (R171): the completion word, then the region's state; the load waits for its turn. -/
def execLaunch (d a b e : Reg) (s0 : State) : Out :=
  issue s0 d [a, b, e] fun s o =>
    onRegion s0 s o (s.rg a) fun r s =>
      let cw := s.rg e
      let img := s.rg b
      if !aligned cw 8 then endNow s o (failWord cMISALIGN)
      else match probeVa s (hubCtx o.part o.lvl) true cw with
        | .trap c _ => endNow s o (failWord c)
        | .wait => .next s0
        | .ok _ s => match (s.ctl r).st with
          | .free | .frozen | .saved => endNow s o (failWord cILLEGAL)
          | .idle | .running | .loading => start s o (.launch r (img &&& ~~~63#64) (img.extractLsb' 0 6) cw)

/-- Zeroes the scratch areas of SPACC nodes (R284). -/
def zeroSpacc (s : State) (r : RegionId) (g : Cfg) : State :=
  g.nodes.foldl (fun s x =>
    let n := nodeFields x.word
    if x.word.extractLsb' 0 8 == 0x78#8 then match portShape s r x.row x.col (memPort n) with
      | some h =>
        let l := h.e0.toNat
        s.updFab r fun f => (List.range (8 * l + l / 8)).foldl (fun f i => scrWrite f x.row x.col (h.base.toNat + i) 0 1) f
      | none => s
    else s) s

/-- MTs of a shape. -/
def mtsOf (rows cols : Nat) : List (BitVec 5 × BitVec 6) :=
  (List.range rows).flatMap fun i => (List.range cols).map fun j => (BitVec.ofNat 5 (3 * i + 1), BitVec.ofNat 6 (3 * j + 1))

/-- The LFSRs of a region's converters at LAUNCH are open (R53): free seeds. -/
def seedLfsrs (s : State) (r : RegionId) : State :=
  let c := s.ctl r
  let k := s.fresh
  let ms := mtsOf c.crows c.ccols
  (s.updFab r fun f => { f with lfsr := ms.zipIdx.map fun (t, i) => (t.1, t.2, seedOf ((Config.freeWord (k + i)).setWidth 32)) }).useFresh
    ms.length

/-- LAUNCH into the match network's region empties the conflict set and the injection queue (R313). A − delta that has been injected
settles still, so that its slot is freed (R310, R318). -/
def resetNet (s : State) (p : PartId) (r : RegionId) : State :=
  if (s.part p).rules.net = r then s.updPart p fun q => { q with rules := { q.rules with
    insts := [], overflow := false, deliveries := [] } } else s

/-- The region loads a configuration: the RC's registers, the root context, empty queues (R28, R29, R171, R244). -/
def loadRegion (s : State) (o : Op) (r : RegionId) (img : Word) (idx : BitVec 6) (cw : Word) (g : Cfg) : State :=
  let now := s.fclock
  let s := s.updRegion r fun x => {
    ctl := { x.ctl with
      st := .loading, cfg := some g, imageVA := img, cfgIdx := idx, cword := cw, cwLvl := o.lvl, heldStore := none
      sigctl := g.sigctl.zeroExtend 64, ctxwait := g.ctxwait.zeroExtend 64, phase := 0, lastFire := now, fault := 0
      power := 0, idleSince := none, quietAt := none }
    fab := { clearFabric x.fab with seed := s.fresh }
    dbg := { x.dbg with stop := .going, replay := none, replayDraws := [], fglogidx := 0,
                        logOff := false, mg := [] } }
  let s := s.useFresh 1
  let s := zeroSpacc (seedLfsrs s r) r g
  let s := resetNet s o.part r
  let s := s.updPart o.part fun p => { p with loads := p.loads.map fun l => if l.va == img then { l with used := s.fresh } else l }
  putOp s { o with kind := .loading r }

/-- A store that LAUNCH makes to its completion word: a fault holds it, with its PFQ entry, as any of the RC's stores (R410); a lock,
a link that is down and a full merger make it wait. -/
def launchStore (s : State) (o : Op) (cw v : Word) (k : State → Out) : Out :=
  match storeVa s (hubCtx o.part o.lvl) cw v.toNat 8 with
  | .ok _ s => k s
  | .trap c _ =>
    let page := pageOf cw
    if linkCause c || !(s.ms.merger.any (fun m => m.part == o.part && m.page == page) || mergerRoom s.ms o.part) then
      .next (putOp s o)
    else
      let r : RegionId := match o.kind with | .launch r _ _ _ => r | _ => 0
      let (id, s) := recordHeld s o.part r c { va := cw, size := 3, atype := 2 }
      .next (putOp s { o with held := some (id, c, page) })
  | .wait => .next (putOp s o)

/-- A LAUNCH has taken effect: its region is LOADING, with its completion word (Table 1-6, R171). -/
def beginLoad (s : State) (o : Op) (r : RegionId) (cw : Word) : State :=
  s.updCtl r fun c => { c with st := .loading, cword := cw, cwLvl := o.lvl, idleSince := none, quietAt := none }

/-- A load is refused: the region is IDLE again, and LAUNCH completes with the cause (Table 1-6). -/
def endLoad (s : State) (o : Op) (r : RegionId) (c : BitVec 8) : State :=
  finishOp (s.updCtl r fun x => { x with st := .idle, idleSince := some s.fclock }) o (failWord c)

/-- The end of a LAUNCH refused with a cause: it stands in both once the word's store has performed or was skipped. -/
def launchRefused (s : State) (o : Op) (r : RegionId) (cw : Word) (c : BitVec 8) : Out :=
  launchStore s { o with unit := 2, buf := [c] } cw (failWord c) fun s => .next (endLoad s o r c)

/-- What follows the store of 0: the checks of R128. -/
def launchChecks (s : State) (o : Op) (r : RegionId) (img : Word) (idx : BitVec 6) (cw : Word) : Out :=
  match launchCheck s o r img idx with
  | .refused c => launchRefused s o r cw c
  | .wait => .next (putOp s { o with unit := 1 })
  | .loads g s => .next (loadRegion s o r img idx cw g)

/-- LAUNCH_TAKE_EFFECT: the first LAUNCH of an IDLE region stores 0 to its completion word; the region is then LOADING, and the checks of
R128 run; a refusal writes 0x100 | cause to both. What waits or was held goes on where it stood: `unit` counts the steps done. -/
def execLaunchTakeEffect (k : Nat) (s : State) : Out :=
  onOp s k fun o => match o.kind with
    | .launch r img idx cw =>
      let first := !(s.ops.takeWhile (·.id != k)).any fun x => match x.kind with | .launch q _ _ _ => q == r | _ => false
      let from_ : RState := if o.unit = 0 then .idle else .loading
      if !first || (s.ctl r).st != from_ then .next s
      else
        let s := wakeRegion s r
        if (s.ctl r).st != from_ || (s.ctl r).power ≠ 0 || o.held.isSome then .next s
        else match o.unit with
          | 0 => launchStore s o cw 0 fun s => launchChecks (beginLoad s o r cw) o r img idx cw
          | 1 => launchChecks s o r img idx cw
          | _ => launchRefused s o r cw (o.buf.headD 0)
    | _ => .next s

/-- LOAD_COMPLETE: the region is RUNNING and LAUNCH completes with 1 (R171). -/
def execLoadComplete (k : Nat) (s : State) : Out :=
  onOp s k fun o => match o.kind with
    | .loading r =>
      let s := s.updCtl r fun c => { c with st := .running, lastFire := s.fclock }
      .next (finishOp s o 1)
    | _ => .next s

/-! ### KILLR and PREEMPT (R172, R173) -/

/-- KILLR (R172). One in the fc of the region's quiescence finds it RUNNING yet and wins: the word reads 0x1A9 (R362). -/
def execKillr (d a : Reg) (s0 : State) : Out :=
  issue s0 d [a] fun s o =>
    onRegion s0 s o (s.rg a) fun r s => match (s.ctl r).st with
      | .free | .loading => endNow s o (failWord cILLEGAL)
      | .idle => start (freeRegion s r) o (.killr r)
      | .running | .frozen | .saved => start (killRunning s r cKILLED) o (.killr r)

/-- KILLR_COMPLETE: no token of the region is left in any link: the kill has discarded them (R172). -/
def execKillrComplete (k : Nat) (s : State) : Out :=
  onOp s k fun o => match o.kind with
    | .killr _ => .next (finishOp s o 1)
    | _ => .next s

/-- PREEMPT in kill mode: RUNNING and IDEM only (R173). -/
def execPreemptKill (d a _b : Reg) (s0 : State) : Out :=
  issue s0 d [a] fun s o =>
    onRegion s0 s o (s.rg a) fun r s =>
      let idem := match (s.ctl r).cfg with | some g => g.flags.getLsbD 0 | none => false
      if (s.ctl r).st = .running && idem then start (killRunning s r cPREEMPTED) o (.killr r)
      else endNow s o (failWord cILLEGAL)

/-- Every page of a save area is writable (R173): the first cause. -/
def probePages (s : State) (x : Ctx) (va : Word) : Nat → MRes Unit
  | 0 => .ok () s
  | n + 1 => (probeVa s x true va).bind fun _ s => probePages s x (va + 4096) n

/-- PREEMPT in snapshot mode (R173). -/
def execPreemptSnapshot (d a b : Reg) (s0 : State) : Out :=
  issue s0 d [a, b] fun s o =>
    onRegion s0 s o (s.rg a) fun r s =>
      let va := s.rg b
      match (s.ctl r).st with
      | .running | .frozen =>
        if !aligned va 4096 then endNow s o (failWord cMISALIGN)
        else match probePages s (hubCtx o.part o.lvl) va (saveUnits (s.ctl r)).toNat with
          | .trap c _ => endNow s o (failWord c)
          | .wait => .next s0
          | .ok _ s => start s o (.snapshot r va)
      | .free | .idle | .loading | .saved => endNow s o (failWord cILLEGAL)

/-- Does an access that has fired wait for something that a snapshot does not bring: it is held at its MT, its line is for
a link that is down, or it stands behind such an access of its port? -/
def stuckAcc (s : State) (f : Fabric) (a : Acc) : Bool :=
  let own (e : Acc) : Bool := e.held || (e.mwcas.isNone && e.mwres.isNone && e.opc != 0x76 && e.pieces.any fun p =>
    !p.done && overDead s e.space p.pa)
  own a || (a.mwcas.isNone && a.mwres.isNone && (f.accs.takeWhile (·.id != a.id)).any fun e => samePort e a && own e)

/-- Steps 1 to 3 of R341 are over: every access that has reached its port, by firing (R363), has performed, but those that only
what comes after the snapshot can let perform; these are recorded and retried (R293). -/
def settledForSave (s : State) (r : RegionId) : Bool :=
  (s.ctl r).killing.isNone && (s.ctl r).heldStore.isNone && !regionSyncHeld s r && (s.fab r).accs.all (stuckAcc s (s.fab r))

/-- The region becomes SAVED: its rectangle returns, its content is kept under its hash (R341 step 5). -/
def saveRegion (s : State) (r : RegionId) (hash : BitVec 256) : State :=
  let s := (vacate s r).updRegion r fun x => { x with
    ctl := { x.ctl with st := .saved, savedHash := hash, heldStore := none, idleSince := none }
    dbg := { x.dbg with stop := .going } }
  let q := s.rules (s.ctl r).part
  { s with saves := s.saves ++ [⟨hash, s.region r, s.ops, q.unsettled, q.deliveries, []⟩] }

/-- SNAPSHOT_COMPLETE: the save area is written and the region, which is awake for it (R375), is SAVED; a write that faults leaves it
running (R173, R341). -/
def execSnapshotComplete (k : Nat) (s : State) : Out :=
  onOp s k fun o => match o.kind with
    | .snapshot r va =>
      let s := wakeRegion s r
      match (s.ctl r).st with
      | .running | .frozen =>
        if (s.ctl r).power ≠ 0 || !settledForSave s r then .next s
        else
          let (bs, hash) := saveArea r (s.ctl r) s.fclock s.fresh
          engineStore (regionSync (s.useFresh 1) r) o (hubCtx o.part o.lvl) va bs fun s => .next (finishOp (saveRegion s r hash) o 1)
      | .free | .idle | .loading | .saved => .next (finishOp s o (failWord cILLEGAL))
    | _ => .next s

end Sys2Proof.Machine
end

