-- ==== Sys2Proof/Machine/Deltas.lean ====
section
/-!
DEFINITION. The instructions that act on a match network's region: ASSERT, RETRACT and MODIFY inject deltas (R187, R309, R312),
SCORECLR clears a score table (R191); each wakes the region (R375).
-/

namespace Sys2Proof.Machine

open Sys2Proof

/-! ### Injection (R312) -/

/-- Appends a delta to the injection queue: it takes the next number and the stamp of R325. -/
def inject (s : State) (p : PartId) (neg : Bool) (tt : Nat) (ws : List Word) : State :=
  let q := s.rules p
  let d : Delta := ⟨q.deltaCount, BitVec.ofNat 40 tt, neg, ws, if q.selected then q.wave + 1 else q.wave⟩
  let s := s.updRules p fun q => { q with deltaCount := q.deltaCount + 1 }
  s.updFab q.net fun f => { f with injq := f.injq ++ [d] }

/-- A delta injection wakes the network region (R375); one that cannot wake yet makes the instruction wait at issue. -/
def onNet (s0 s : State) (p : PartId) (k : State → Out) : Out :=
  let t := wakeRegion s (s.rules p).net
  if (t.ctl (t.rules p).net).power = 0 then k t else .next s0

/-! ### ASSERT, RETRACT, MODIFY (R187, R309) -/

/-- A slot translated for a write at the core's level, with its word 0. The instruction, which is synchronous, will read `rd` bytes
of it and write `wr`: a watchpoint may stop it (R187, R392). -/
def slotAt (s : State) (p : PartId) (tt rd wr : Nat) : MRes (Xl × Word) :=
  let x := hubCtx p s.me.level
  let va := (s.rules p).slot tt
  (translate s x .write va).bind fun t s =>
    if watchHit s.me va rd false || watchHit s.me va wr true then .trap cWATCH va
    else (readAt s x t 8 va).bind fun v s => .ok (t, BitVec.ofNat 64 v) s

/-- The WME that an ASSERT or MODIFY copies; a watchpoint may stop the read (R392). -/
def sourceWme (s : State) (va : Word) : MRes Nat :=
  if !aligned va 128 then .trap cMISALIGN va
  else (translate s (coreCtx s) .read va).bind fun t s =>
    if watchHit s.me va 128 false then .trap cWATCH va else readAt s (coreCtx s) t 128 va

/-- The new WME: class and words 1 to 15 of the source, a fresh timetag, flags 0. -/
def newWme (src : Nat) (tt : Nat) : List Word :=
  match wmeWords src with
  | w0 :: ws => ((w0 &&& 0xFFFF000000000000) ||| BitVec.ofNat 64 (tt * 256)) :: ws
  | [] => []

/-- Writes the new WME to its slot and injects its + delta; g[d] receives the timetag. -/
def doAssert (s : State) (p : PartId) (t : Xl) (tt src : Nat) (d : Reg) : MRes Unit :=
  let ws := newWme src tt
  (writeAt s (hubCtx p s.me.level) t (wmeValue ws) 128 ((s.rules p).slot tt)).bind fun _ s =>
    let s := s.updRules p fun q => { q with timetag := tt + 1 }
    .ok () ((inject s p false tt ws).wg d (BitVec.ofNat 64 tt))

/-- Sets RET in a slot and injects its − delta. -/
def doRetract (s : State) (p : PartId) (t : Xl) (tt : Nat) (w0 : Word) : MRes Unit :=
  let x := hubCtx p s.me.level
  let va := (s.rules p).slot tt
  (writeAt s x t (w0 ||| 1).toNat 8 va).bind fun _ s =>
    (readAt s x t 128 va).bind fun v s =>
      match wmeWords v with
      | w :: ws => .ok () (inject s p true tt ((w ||| 0x80) :: ws))
      | [] => .ok () s

/-- May a timetag be retracted, from its slot's word 0? -/
def retractable (tt : Nat) (w0 : Word) : Bool := tt < 2 ^ 40 && w0 != 0 && wmeTT w0 == tt && !w0.getLsbD 0

/-- ASSERT (R187, R309, R312). -/
def execAssert (d a : Reg) (s : State) : Out :=
  ruleGuard s (.assert d a) fun p => needRegs s [d, a] <|
    let tt := (s.rules p).timetag
    onAccess s (sourceWme s (s.rg a)) fun src s1 =>
    onAccess s (slotAt s1 p tt 8 128) fun t s2 =>
      if t.2 != 0 || 2 ^ 40 ≤ tt then raise s cRMN_WM_RANGE 0
      else if !injRoom s p 1 then .next s
      else onNet s s2 p fun s2 => onAccess s (doAssert s2 p t.1 tt src d) fun _ s => retire s

/-- RETRACT (R187, R309, R312). -/
def execRetract (a : Reg) (s : State) : Out :=
  ruleGuard s (.retract a) fun p => needRegs s [a] <|
    let tt := (s.rg a).toNat
    onAccess s (slotAt s p tt 128 8) fun t s1 =>
      if !retractable tt t.2 then raise s cRMN_WM_RANGE (s.rg a)
      else if !injRoom s p 1 then .next s
      else onNet s s1 p fun s1 => onAccess s (doRetract s1 p t.1 tt t.2) fun _ s => retire s

/-- MODIFY: the − delta of the old WME, then the + delta of the new one, as a pair (R187, R309, R312). -/
def execModify (d a b : Reg) (s : State) : Out :=
  ruleGuard s (.modify d a b) fun p => needRegs s [d, a, b] <|
    let old := (s.rg a).toNat
    let tt := (s.rules p).timetag
    onAccess s (sourceWme s (s.rg b)) fun src s1 =>
    onAccess s (slotAt s1 p old 128 8) fun t s2 =>
    onAccess s (slotAt s2 p tt 8 128) fun u s3 =>
      if !retractable old t.2 then raise s cRMN_WM_RANGE (s.rg a)
      else if u.2 != 0 || 2 ^ 40 ≤ tt then raise s cRMN_WM_RANGE 0
      else if !injRoom s p 2 then .next s
      else onNet s s3 p fun s3 => onAccess s (doRetract s3 p t.1 old t.2) fun _ s4 =>
        onAccess s (doAssert s4 p u.1 tt src d) fun _ s => retire s

/-! ### SCORECLR (R191, R321) -/

/-- Zeroes n bytes of scratch, as far as it reaches. -/
def scrZero (f : Fabric) (row : BitVec 5) (col : BitVec 6) (off n : Nat) : Fabric :=
  ((List.range n).filter (off + · < 0x200000)).foldl (fun f i => scrWrite f row col (off + i) 0 1) f

/-- SCORECLR: waits until no delta is in flight, then clears the table (R191, R321); it wakes the network region, or waits at issue
until that can wake (R375). -/
def execScoreclr (a : Reg) (s : State) : Out :=
  ruleGuard s (.scoreclr a) fun p => needRegs s [a] <|
    if 15 < (s.rg a).toNat then raise s cILLEGAL (wordOf (.scoreclr a))
    else if deltaInFlight s p then .next s
    else match netRegion s p with
      | none => retire s
      | some r => match scoreArea s r (s.rg a).toNat with
        | some (row, col, base, n) => onNet s s p fun s => retire (s.updFab r fun f => scrZero f row col base (16 * n))
        | none => retire s

end Sys2Proof.Machine
end

