-- ==== Sys2Proof/Machine/Streams.lean ====
section
/-!
DEFINITION. Streams and phases (09_sequencer_engines.md R175 to R178) and the resolution of a stream's held access
(21_traps.md R410).
-/

namespace Sys2Proof.Machine

open Sys2Proof

/-! ### Units of a round (R176) -/

/-- Bytes of a unit of a format. -/
def unitBytes (fmt : BitVec 8) : Nat :=
  match fmt.toNat with
  | 0x10 | 0x11 => 1
  | 0x12 | 0x13 => 4
  | 0x00 | 0x14 => 64
  | _ => laneWidth (fmt.setWidth 5) / 8

/-- Units per token. -/
def unitsPer (fmt : BitVec 8) : Nat := 64 / unitBytes fmt

/-- Units of a round: the accesses of the record's walk (R76). -/
def roundUnits (h : ShapeRec) : Nat := ((List.range 4).map h.ext).foldl (· * ·) 1

/-- VA of unit j. -/
def unitVa (h : ShapeRec) (j : Nat) : Word := h.addr (roundIdx h j)

/-- Does unit j begin a group of elements with a scale byte of its own (R47, R274)? -/
def scaleAt (h : ShapeRec) (j : Nat) : Bool := h.zbp && j % (if h.fmt == 0x0F then 16 else 8) == 0

/-- Side, index and direction of a port code (R175). -/
def portSide (code : Word) : BitVec 2 := code.extractLsb' 0 2
def portIdx (code : Word) : BitVec 8 := (code.extractLsb' 2 6).zeroExtend 8
def portOut (code : Word) : Bool := code.getLsbD 8

/-- The PBT entry of a port code in the RC's copy. -/
def pbtOf (g : Cfg) (code : Word) : Option PbtAt :=
  g.pbt.find? fun e => e.side == portSide code && e.idx == portIdx code && e.out == portOut code

/-- The boundary tile at a port. -/
def boundaryTile (g : Cfg) (code : Word) : BitVec 5 × BitVec 6 := edgeTile g (portSide code) (portIdx code).toNat

/-- An inward port as a source of tokens of its boundary tile: the link input queue of its side (R20, R35). -/
def portSrc (g : Cfg) (code : Word) : TokSrc :=
  let t := boundaryTile g code
  .link t.1 t.2 (match (portSide code).toNat with | 0 => .n | 1 => .e | 2 => .s | _ => .w)

/-! ### STRM (R175) -/

/-- Has an inward port the node that reads it? -/
def hasConsumer (g : Cfg) (code : Word) (e : PbtAt) : Bool :=
  e.out || g.nodes.any fun x => (x.row, x.col) == boundaryTile g code && x.slot.zeroExtend 8 == e.slot

/-- The record's own checks, once read: its direction, then R75. -/
def strmRecord (bs : List Byte) (code : Word) : Except (BitVec 8) ShapeRec :=
  let h := parseShape bs
  if h.flags.getLsbD 1 != portOut code then .error cILLEGAL
  else if !shapeOk bs then .error cLOAD_RSVD
  else .ok h

/-- Has a kill or quiescence ended the region's configuration, its last store still to perform? STRM and SBAR find it no longer
RUNNING (log 67). -/
def ending (c : RegionCtl) : Bool := c.killing.isSome || c.heldStore.isSome

/-- A stream command begins: what the core did before it stands before every event of the round, those of the nodes that its tokens
reach too, so the region's L1s are invalidated (R88, R301). -/
def strmBegin (s : State) (o : Op) (r : RegionId) (code : Word) (h : ShapeRec) : Out :=
  start ((regionSync s r).updCtl r fun c => { c with idleSince := none, quietAt := none }) o (.strm r code h (s.ctl r).phase (portOut code))

/-- Is the LAUNCH of a LOADING region still at its checks, so that its configuration is not known? -/
def inChecks (s : State) (r : RegionId) : Bool := (s.ctl r).st == .loading && !s.ops.any fun o => o.kind == .loading r

/-- STRM (R175); on a region whose LAUNCH is at its checks it waits at issue. -/
def execStrm (d a b e : Reg) (s0 : State) : Out :=
  issue s0 d [a, b, e] fun s o =>
    onRegion s0 s o (s.rg a) fun r s =>
      let code := s.rg e
      let fail (c : BitVec 8) : Out := endNow s o (failWord c)
      let go (s : State) (bs : List Byte) : Out := match strmRecord bs code with
        | .error c => endNow s o (failWord c)
        | .ok h => if regionSyncHeld s r then .next s0 else strmBegin s o r code h
      if inChecks s r then .next s0
      else match (s.ctl r).st, (s.ctl r).cfg with
      | .loading, some g | .running, some g =>
        match pbtOf g code with
        | none => fail cILLEGAL
        | some p =>
          if ending (s.ctl r) || code.extractLsb' 9 55 != 0#55 || !hasConsumer g code p then fail cILLEGAL
          else if s.rg b = 0 then go s p.raw
          else if !aligned (s.rg b) 64 then fail cMISALIGN
          else match loadBytes s (hubCtx o.part o.lvl) (s.rg b) 64 with
            | .ok bs s => go s bs
            | .trap c _ => fail c
            | .wait => .next s0
      | _, _ => fail cILLEGAL

/-! ### A round (R176, R177) -/

/-- May a stream command go on: its region runs, no earlier command holds its port, no earlier SBAR its region? -/
def strmTurn (s : State) (o : Op) (r : RegionId) (code : Word) : Bool :=
  regionGoing s r && o.held.isNone && o.fail.isNone && !(s.ops.takeWhile (·.id != o.id)).any fun x => match x.kind with
    | .strm q c _ _ _ => q == r && c == code
    | .sbar q => q == r
    | _ => false

/-- The token that an inward round delivers, at the place its PBT entry names. -/
def streamTok (g : Cfg) (code : Word) (kind : BitVec 3) (fmt : BitVec 5) (sig : BitVec 7) (pred : Bool) (scale : BitVec 64)
    (payload : BitVec 512) : Token :=
  let t := boundaryTile g code
  let e := pbtOf g code
  { kind := kind, fmt := fmt, sig := sig, pred := pred, ctx := 0, iter := 0, drow := t.1, dcol := t.2
    node := match e with | some p => p.slot.setWidth 6 | none => 0
    port := match e with | some p => p.port.setWidth 2 | none => 0
    seq := 0
    scale := scale, payload := payload }

/-- Holds a stream access on a translation fault (R410); without a merger entry the round waits (R338). -/
def holdStream (s : State) (o : Op) (r : RegionId) (code : Word) (out : Bool) (bytes : Nat) (c : BitVec 8) (va : Word) : State :=
  let page := pageOf va
  if s.ms.merger.any (fun m => m.part == o.part && m.page == page) || mergerRoom s.ms o.part then
    let (id, s) := recordHeld s o.part r c
      { va := va, eport := code.setWidth 16, size := BitVec.ofNat 4 (Nat.log2 bytes), atype := if out then 2 else 1 }
    putOp s { o with held := some (id, c, page) }
  else s

/-- A round fails: no unit moves any more, and STRM_COMPLETE writes the value once the accesses that its tokens have led to have
performed (R301). -/
def failRound (s : State) (o : Op) (c : BitVec 8) : State := putOp s { o with held := none, fail := some (failWord c) }

/-- A fault of a unit's access: held when a handler can resolve it, else the round's end (R175, R410). -/
def streamFault (s : State) (o : Op) (r : RegionId) (code : Word) (out : Bool) (bytes : Nat) (c : BitVec 8) (va : Word) : State :=
  if isXlate c then holdStream s o r code out bytes c va else failRound s o c

/-- Units left of the token that unit j belongs to: the first unit of the next one. -/
def nextTokUnit (h : ShapeRec) (j : Nat) : Nat := min (roundUnits h) ((j / unitsPer h.fmt + 1) * unitsPer h.fmt)

/-- Bytes as a number, lowest first. -/
def bytesNat (bs : List Byte) : Nat := bs.foldr (fun b acc => b.toNat + 256 * acc) 0

/-- A token arrives at an inward port: the boundary tile checks its parity, and it reaches its node in the order of the tile's other
sources (R21, R35, R347). None when a full Sprue part must freeze the region. -/
def portDeliver (s : State) (r : RegionId) (g : Cfg) (code : Word) (t : Token) (par : Flips) : Option State :=
  let (row, col) := boundaryTile g code
  match checkParity s r row col t par with
  | (none, s) => some s
  | (some t, s) => arriveTok (noteDel s r t (portSrc g code)) r t par.store

/-- An inward unit: load it, with its scale byte; the last of a token delivers the token, in the order of the fc's deliveries
(R35). -/
def streamIn (s : State) (o : Op) (r : RegionId) (g : Cfg) (code : Word) (h : ShapeRec) (par : Flips) : Out :=
  let j := o.unit
  let x := hubCtx o.part o.lvl
  let va := unitVa h j
  let n := unitBytes h.fmt
  let got := (loadBytes s x va n).bind fun bs s =>
    if scaleAt h j then (loadBytes s x (h.scaleAddr va) 1).bind fun sc s => .ok (bs, sc) s else .ok (bs, []) s
  match got with
  | .trap c t => .next (streamFault s o r code false n c t)
  | .wait => .next s
  | .ok (bs, sc) s1 =>
    let buf := o.buf ++ bs
    let sbuf := o.sbuf ++ sc
    let s1 := touch s1 r
    if j + 1 = nextTokUnit h j then
      let fmt : BitVec 5 := h.fmt.setWidth 5
      let t := streamTok g code kDATA fmt (BitVec.ofNat 7 ((fmtP fmt).getD 0)) true (BitVec.ofNat 64 (bytesNat sbuf))
        (BitVec.ofNat 512 (bytesNat buf))
      if outOfTurn s r t (portSrc g code) then .next s
      else match portDeliver s1 r g code t par with
      | some s2 => .next (putOp s2 { o with unit := j + 1, buf := [], sbuf := [] })
      | none => .next (freeze s r cSPRUE_FULL 0)
    else .next (putOp s1 { o with unit := j + 1, buf := buf, sbuf := sbuf })

/-- A token leaves an outward port, its parity checked (R347): DATA of the format waits to be stored, others are consumed. -/
def streamTake (s : State) (o : Op) (r : RegionId) (g : Cfg) (code : Word) (h : ShapeRec) : State :=
  let here (t : EdgeTok) : Bool := t.side == portSide code && t.idx == portIdx code
  let note (s : State) (c : BitVec 8) : State :=
    (recordFault s o.part r c 0 false false false (faultRest 0 { eport := code.setWidth 16 })).2
  match (s.fab r).edge.find? here with
  | none => s
  | some e =>
    let s := s.updFab r fun f => { f with edge := eraseFirst here f.edge }
    let (row, col) := boundaryTile g code
    match lastCheck s r row col e.tok e.flips with
    | (none, s) => s
    | (some t, s) =>
      if t.kind == kERROR then note s (t.payload.extractLsb' 0 8)
      else if t.kind != kDATA then s
      else if t.fmt.zeroExtend 8 != h.fmt then note s cFMT_BAD
      else putOp s { o with
        buf := (List.range 64).map fun i => t.payload.extractLsb' (8 * i) 8
        sbuf := (List.range 8).map fun i => t.scale.extractLsb' (8 * i) 8 }

/-- An outward unit: stored from the token taken, with its scale byte. DEDUCED (log 92): a store to a shadowed page reaches its visible
copy. -/
def streamOut (s : State) (o : Op) (r : RegionId) (code : Word) (h : ShapeRec) : Out :=
  let j := o.unit
  let x := hubCtx o.part o.lvl
  let va := unitVa h j
  let n := unitBytes h.fmt
  let at_ := j % unitsPer h.fmt
  let bs := (o.buf.drop (at_ * n)).take n
  let put (s : State) : MRes (Option (BitVec 8 × Word)) := storeBytes s x va n bs
  let done (s : State) : Out :=
    let last := j + 1 = nextTokUnit h j
    .next (touch (putOp s { o with unit := j + 1, buf := if last then [] else o.buf, sbuf := if last then [] else o.sbuf }) r)
  let end_ (s0 : State) (r' : MRes (Option (BitVec 8 × Word))) (k : State → Out) : Out := match r' with
    | .ok none s => k s
    | .ok (some (c, t)) _ | .trap c t => .next (streamFault s0 o r code true n c t)
    | .wait => .next s0
  end_ s (put s) fun s1 =>
    if scaleAt h j then
      let q := if h.fmt == 0x0F then 16 else 8
      end_ s (storeBytes s1 x (h.scaleAddr va) 1 [o.sbuf.getD (at_ / q) 0]) done
    else done s1

/-- STREAM_ROUND_ACCESS: the next unit of a stream command (R176). -/
def execStreamRoundAccess (k : StreamAt) (s : State) : Out :=
  onOp s k.op fun o => match o.kind with
    | .strm r code h _ out => match (s.ctl r).cfg with
      | none => .next s
      | some g =>
        if !strmTurn s o r code || roundUnits h ≤ o.unit then .next s
        else if !out then streamIn s o r g code h k.par
        else if o.buf.isEmpty then .next (streamTake s o r g code h)
        else streamOut s o r code h
    | _ => .next s

/-- A round ends with a value: what the nodes have stored after its tokens has performed at DEVICE scope (R165, R301). -/
def endRound (s : State) (o : Op) (r : RegionId) (out : Bool) (v : Word) : Out :=
  if out then .next (finishOp s o v)
  else if regionSyncHeld s r then .next s
  else .next (finishOp (regionSync s r) o v)

/-- STRM_COMPLETE: every unit of the round has moved, or the round has failed (R175). The step holds the event back while the
region's nodes still act on its tokens (R301; `heldBack`); a kill ends its streams itself. -/
def execStrmComplete (k : Nat) (s : State) : Out :=
  onOp s k fun o => match o.kind with
    | .strm r code h _ out => match o.fail with
      | some v => if (s.ctl r).killing.isSome then .next s else endRound s o r out v
      | none => if roundUnits h ≤ o.unit && strmTurn s o r code then endRound s o r out 1 else .next s
    | _ => .next s

/-! ### Resolution of a held stream access (R410) -/

/-- RETRY and REPLAY: the access is made again. -/
def streamRetry (s : State) (o : Op) : State := putOp s { o with held := none }

/-- SUPPLY: inward, the supplied token takes the place of the token the access would have formed; outward, the store of that
token's units is skipped. -/
def streamSupply (s : State) (o : Op) (t : Token) : State :=
  match o.kind with
  | .strm r code h _ out =>
    let o' := { o with held := none, unit := nextTokUnit h o.unit, buf := [], sbuf := [] }
    if out then putOp s o'
    else match (s.ctl r).cfg with
      | none => s
      | some g => match portDeliver s r g code (streamTok g code t.kind t.fmt t.sig t.pred t.scale t.payload) Flips.clean with
        | some s => putOp s o'
        | none => freeze s r cSPRUE_FULL 0
  | _ => s

/-- KILL: the round ends with the fault's cause. -/
def streamKill (s : State) (o : Op) : State :=
  match o.held with
  | some (_, c, _) => failRound s o c
  | none => s

/-! ### SBAR (R178) -/

/-- SUPPLY or KILL of a store that LAUNCH makes to its completion word: the store is skipped, and the LAUNCH goes on. -/
def launchSkip (s : State) (o : Op) : State :=
  match o.kind with
  | .launch r _ _ cw => if o.unit = 2 then endLoad s o r (o.buf.headD 0) else beginLoad (putOp s { o with held := none, unit := 1 }) o r cw
  | _ => s

/-- SBAR (R178). -/
def execSbar (d a : Reg) (s0 : State) : Out :=
  issue s0 d [a] fun s o =>
    onRegion s0 s o (s.rg a) fun r s =>
      if (s.ctl r).st = .running && !ending (s.ctl r) then
        start (s.updCtl r fun c => { c with idleSince := none, quietAt := none }) o (.sbar r)
      else endNow s o (failWord cILLEGAL)

/-- Has a region a store, an atomic or an MCAS still to perform? -/
def storesOut (f : Fabric) : Bool := f.accs.any fun a => a.opc == 0x72 || (0x74 ≤ a.opc.toNat && a.opc.toNat ≤ 0x76)

/-- SBAR_COMPLETE: the region's earlier stream commands have completed and its stores performed; the boundary acts on its
L1s, and the next phase begins. The step holds the event back while the region's nodes still act on the phase's tokens: their stores
are the phase's too (R302; `heldBack`). -/
def execSbarComplete (k : Nat) (s : State) : Out :=
  onOp s k fun o => match o.kind with
    | .sbar r =>
      let earlier := (s.ops.takeWhile (·.id != k)).any fun x => streamRegion x.kind == some r
      if o.fail.isSome || earlier || storesOut (s.fab r) || (s.ctl r).st != .running || regionSyncHeld s r then .next s
      else
        let s := regionSync s r
        .next (finishOp (s.updCtl r fun c => { c with phase := c.phase + 1 }) o 1)
    | _ => .next s

end Sys2Proof.Machine
end

