-- ==== Sys2Proof/Machine/Engines.lean ====
section
/-!
DEFINITION. The engines of the hub (09_sequencer_engines.md R179 to R184): COPY, CMPCT, COLL; and PUBLISH and MIGRATE with
the protocols behind them (05_memory.md R93 to R97).
-/

namespace Sys2Proof.Machine

open Sys2Proof

def cPUBLISH_FORM : BitVec 8 := 0x71

/-- Context of an engine's writes: a shadowed destination receives them in its shadow copy (R96). -/
def shadowCtx (o : Op) : Ctx := { hubCtx o.part o.lvl with shadow := true }

/-- Do two VA ranges overlap? -/
def rangesMeet (a n b m : Nat) : Bool := n != 0 && m != 0 && a < b + m && b < a + n

/-! ### COPY (R179) -/

/-- COPY (R179). -/
def execCopy (d a b e : Reg) (s : State) : Out :=
  issue s d [a, b, e] fun s o =>
    let dst := s.rg a
    let src := s.rg b
    let len := s.rg e
    let n := len.toNat
    if len.extractLsb' 40 24 != 0#24 then endNow s o (failWord cILLEGAL)
    else if n = 0 then endNow s o 1
    else if 2 ^ 52 < dst.toNat + n || 2 ^ 52 < src.toNat + n || rangesMeet dst.toNat n src.toNat n then
      endNow s o (failWord cILLEGAL)
    else start s o (.copy dst src len)

/-- COPY_COMPLETE: the bytes move; a fault leaves a prefix of the destination written (R179; log 28). -/
def execCopyComplete (k : Nat) (s : State) : Out :=
  onOp s k fun o => match o.kind with
    | .copy dst src len =>
      onEngine s o (loadBytes s (hubCtx o.part o.lvl) src len.toNat) fun bs s =>
        engineStore s o (shadowCtx o) dst bs fun s => .next (finishOp s o 1)
    | _ => .next s

/-! ### CMPCT (R180) -/

/-- CMPCT (R180). -/
def execCmpct (d a : Reg) (s : State) : Out :=
  issue s d [a] fun s o =>
    if aligned (s.rg a) 64 then start s o (.cmpct (s.rg a)) else endNow s o (failWord cMISALIGN)

/-- A Ladle descriptor (Table 9-3). -/
structure Ladle where
  src : Nat
  dst : Nat
  aux : Nat
  offs : Nat
  num : Nat
  cap : Nat
  es : Nat
  mode : Nat
  fmt : Nat
deriving DecidableEq, Repr

def parseLadle (b : List Byte) : Ladle :=
  ⟨leAt b 0 8, leAt b 8 8, leAt b 16 8, leAt b 24 8, leAt b 32 4, leAt b 36 4, 2 ^ leAt b 40 1, leAt b 41 1, leAt b 42 1⟩

/-- The fields that R180 refuses. -/
def ladleBad (b : List Byte) : Bool :=
  let l := parseLadle b
  leAt b 43 5 != 0 || leAt b 56 8 != 0 || 6 < leAt b 40 1 || 1 < l.mode || (l.mode == 1 && (l.offs != 0 || l.cap != 0)) ||
    (l.fmt != 0 && !(l.mode == 1 && l.aux == 0)) || 0x14 < l.fmt

/-- The nonzero test of R55 on an element of a format. DESIGN CHOICE (log 80): an element of another size than the format's lane, of
which R55 does not speak, counts when any lane in it, or its part of one, does. -/
def elemNonzero (fmt : Nat) (e : List Byte) : Bool :=
  let f : BitVec 5 := BitVec.ofNat 5 fmt
  let bits := 8 * e.length
  let w := min (laneWidth f) bits
  (List.range (bits / w)).any fun i => laneNonzero f (bytesNat e / 2 ^ (w * i) % 2 ^ w)

/-- Element i of a byte list. -/
def elemAt (b : List Byte) (es i : Nat) : List Byte := (b.drop (i * es)).take es

/-- The parts of the source that mode 0 moves, each a first element and a number of elements: the valid prefixes of the segments. -/
def ladlePrefixes (l : Ladle) (counts : List Nat) : List (Nat × Nat) := counts.zipIdx.map fun (c, i) => (i * l.cap, c)

/-- The parts that mode 1 moves under a bitmap: the elements it selects. -/
def ladleSelect (l : Ladle) (aux : List Byte) : List (Nat × Nat) :=
  ((List.range l.num).filter fun i => (aux.getD (i / 8) 0).getLsbD (i % 8)).map (·, 1)

/-- The elements of a source that mode 1 moves by the nonzero test. -/
def ladleNonzero (l : Ladle) (src : List Byte) : List Byte :=
  (((List.range l.num).map (elemAt src l.es)).filter (elemNonzero l.fmt)).flatten

/-- Reads parts of a source in order. -/
def loadParts (s : State) (x : Ctx) (l : Ladle) : List (Nat × Nat) → MRes (List Byte)
  | [] => .ok [] s
  | (i, n) :: ps => (loadBytes s x (BitVec.ofNat 64 (l.src + i * l.es)) (n * l.es)).bind fun bs s =>
      (loadParts s x l ps).bind fun rest s => .ok (bs ++ rest) s

/-- Bytes of AUX that a descriptor makes the Ladle read, and of OFFS that it makes it write. -/
def Ladle.auxN (l : Ladle) : Nat := if l.mode = 0 then 4 * l.num else if l.aux = 0 then 0 else (l.num + 7) / 8
def Ladle.offN (l : Ladle) : Nat := if l.mode = 0 then 4 * (l.num + 1) else 0

/-- Bytes of SRC: all segments, or all elements. -/
def Ladle.srcN (l : Ladle) : Nat := l.num * (if l.mode = 0 then l.cap else 1) * l.es

/-- Does DST overlap SRC, AUX or OFFS (R180)? DEDUCED (log 48): DST is as long as the n bytes that are written. -/
def ladleMeets (l : Ladle) (n : Nat) : Bool :=
  rangesMeet l.dst n l.src l.srcN || rangesMeet l.dst n l.aux l.auxN || rangesMeet l.dst n l.offs l.offN

/-- Running sums, from 0. -/
def runningSums : Nat → List Nat → List Nat
  | acc, [] => [acc]
  | acc, c :: cs => acc :: runningSums (acc + c) cs

/-- The writes of a Ladle: DST, the offsets, OUT. -/
def ladleWrite (s : State) (o : Op) (desc : Word) (l : Ladle) (counts : List Nat) (els : List Byte) : Out :=
  let w := shadowCtx o
  let offs := if l.mode = 0 then (runningSums 0 counts).flatMap fun c => natBytes 4 c else []
  engineStore s o w (BitVec.ofNat 64 l.dst) els fun s =>
    engineStore s o w (BitVec.ofNat 64 l.offs) offs fun s =>
      engineStore s o w (desc + 48) (natBytes 8 (els.length / l.es)) fun s => .next (finishOp s o 1)

/-- CMPCT_COMPLETE: what the Ladle reads, then DST, the offsets and OUT. Only elements that move are read, but for those of the nonzero
test, and only once R180 refuses nothing. -/
def execCmpctComplete (k : Nat) (s : State) : Out :=
  onOp s k fun o => match o.kind with
    | .cmpct desc =>
      let x := hubCtx o.part o.lvl
      onEngine s o (loadBytes s x desc 64) fun b s =>
        let l := parseLadle b
        let ill (s : State) : Out := .next (finishOp s o (failWord cILLEGAL))
        if ladleBad b then ill s
        else onEngine s o (loadBytes s x (BitVec.ofNat 64 l.aux) l.auxN) fun aux s =>
          let counts := (List.range l.num).map fun i => leAt aux (4 * i) 4
          if l.mode = 0 && counts.any fun c => l.cap < c then ill s
          else if l.mode = 1 && l.aux = 0 then
            onEngine s o (loadBytes s x (BitVec.ofNat 64 l.src) l.srcN) fun src s =>
              if ladleMeets l (ladleNonzero l src).length then ill s else ladleWrite s o desc l [] (ladleNonzero l src)
          else
            let parts := if l.mode = 0 then ladlePrefixes l counts else ladleSelect l aux
            if ladleMeets l ((parts.map (·.2)).sum * l.es) then ill s
            else onEngine s o (loadParts s x l parts) fun els s => ladleWrite s o desc l counts els
    | _ => .next s

/-! ### COLL (R183, R184, R407) -/

/-- COLL (R183). -/
def execColl (d a b : Reg) (s : State) : Out :=
  issue s d [a, b] fun s o =>
    if aligned (s.rg a) 64 && aligned (s.rg b) 64 then start s o (.coll (s.rg a) (s.rg b)) else endNow s o (failWord cMISALIGN)

/-- An operation descriptor (Table 9-5). -/
structure CollOp where
  op : Nat
  red : Nat
  fmt : Nat
  count : Nat
  src : Nat
  dst : Nat
deriving DecidableEq, Repr

def parseColl (b : List Byte) : CollOp := ⟨leAt b 0 1, leAt b 1 1, leAt b 2 1, leAt b 8 8, leAt b 16 8, leAt b 24 8⟩

def CollOp.es (c : CollOp) : Nat := if c.fmt = 0x0B || c.fmt = 0x0C then 2 else 4

/-- Elements of SRC and of DST. -/
def CollOp.srcN (c : CollOp) (n : Nat) : Nat := if c.op = 2 || c.op = 3 then n * c.count else c.count
def CollOp.dstN (c : CollOp) (n : Nat) : Nat := if c.op = 1 || c.op = 3 then n * c.count else c.count

/-- Fields that R183 refuses, for a group of n with this device at `rank`. DEDUCED (log 48): a value outside the range that Tables 9-4
and 9-5 give NMEM, RANK or COUNT is refused so too. -/
def collBad (s : State) (g ents b : List Byte) : Bool :=
  let c := parseColl b
  let n := leAt g 0 4
  let rank := leAt g 4 4
  leAt g 8 8 != 0 || n < 2 || 65536 < n || n ≤ rank || leAt b 3 5 != 0 || leAt b 32 32 != 0 || 3 < c.op || 2 < c.red ||
    ((c.op == 1 || c.op == 3) && c.red != 0) || !([0x0A, 0x0B, 0x0C, 3, 7] : List Nat).contains c.fmt ||
    c.count < 1 || 2 ^ 40 ≤ c.count || leAt ents (4 * rank) 4 != s.ms.net.devnum.toNat ||
    rangesMeet c.src (c.srcN n * c.es) c.dst (c.dstN n * c.es)

/-- The window that reaches a member of a partition's group on a device: its entry names that device and partition (R407; log 87). -/
def windowTo (s : State) (p : PartId) (dev : Nat) : Option Nat :=
  (List.range 192).find? fun w => (s.pwinOf w).getLsbD 63 && (winDev (s.pwinOf w)).toNat == dev && winPart (s.pwinOf w) == p

/-- The window to the member k places further in a group's ring: 1 for the next one, NMEM − 1 for the one before (R407). -/
def ringWin (s : State) (p : PartId) (g ents : List Byte) (k : Nat) : Option Nat :=
  windowTo s p (leAt ents (4 * ((leAt g 4 4 + k) % leAt g 0 4)) 4)

/-- Links over which the member before this device may send: the one to it, and any when no window of this device reaches it. -/
def ringFrom (s : State) (p : PartId) (g ents : List Byte) : List (BitVec 4) :=
  match ringWin s p g ents (leAt g 0 4 - 1) with
  | some w => [winLink (s.pwinOf w)]
  | none => (List.range 16).map (BitVec.ofNat 4 ·)

/-- Bytes in pieces of n, k of them. -/
def cutBuffers (n : Nat) : Nat → List Byte → List (List Byte)
  | 0, _ => []
  | k + 1, b => b.take n :: cutBuffers n k (b.drop n)

/-- Data of a collective go to the next member in flits of type 3, 224 bytes in each (R404, R407). -/
def ringSend (p : PartId) (w : Nat) (data : List Byte) (ms : MemSys) : MemSys :=
  let x := ms.net.win w
  (cutBuffers 224 ((data.length + 223) / 224) data).foldl
    (fun ms b => { ms with net := ms.net.send (winLink x) (winDev x) p (winPart x) 3 b }) ms

/-- A COLL's bytes from the ring, those that go on to the next member, and the flits left for others. -/
structure RingIn where
  had : List Byte
  onward : List Byte
  rest : List (BitVec 4 × Flit)

/-- Takes a flit of a partition's ring: n − 1 buffers of len bytes come, that of the member before first, and all but the last go on
(R407). -/
def ringTake (p : PartId) (links : List (BitVec 4)) (n len : Nat) (y : RingIn) (x : BitVec 4 × Flit) : RingIn :=
  if y.had.length < (n - 1) * len && x.2.typ == 3 && x.2.src == p && x.2.dst == p && links.contains x.1 then
    let b := (x.2.body ++ List.replicate 224 0).take (min 224 (len - y.had.length % len))
    { y with had := y.had ++ b, onward := if y.had.length < (n - 2) * len then y.onward ++ b else y.onward }
  else { y with rest := y.rest ++ [x] }

/-- The members' buffers in member order: this device's own, and those of the others as the ring has brought them. -/
def ringMembers (n rank len : Nat) (own had : List Byte) : List (List Byte) :=
  let bs := cutBuffers len (n - 1) had
  (List.range n).map fun i => if i = rank then own else bs.getD ((rank + n - 1 - i) % n) []

/-- One step of a reduction on encodings (R184). -/
def redStep (c : CollOp) (x y : Nat) : Nat :=
  let flt (f : FloatFmt) : Nat :=
    let a := decodeF f x
    let b := decodeF f y
    if c.red = 0 then (rneF f (addF .rne a b)).1
    else match minMax (c.red == 1) a b with
      | none => canonNaN f
      | some fromA => if fromA then x else y
  let int (signed : Bool) : Nat :=
    let v (z : Nat) : Int := if signed && 2 ^ 31 ≤ z then (z : Int) - 2 ^ 32 else z
    match c.red with
    | 0 => (x + y) % 2 ^ 32
    | 1 => if v x < v y then y else x
    | _ => if v y < v x then y else x
  match c.fmt with
  | 0x0A => flt fp32 | 0x0B => flt fp16 | 0x0C => flt bf16 | 3 => int true | _ => int false

/-- Element i reduced over the members: from a free member on, in ring order (R184, R14; log 29). -/
def reduceAt (c : CollOp) (members : List (List Byte)) (i k : Nat) : List Byte :=
  let es := c.es
  let vs := members.map fun m => bytesNat (elemAt m es i)
  match vs.rotateLeft ((Config.freeWord k).toNat % (max 1 vs.length)) with
  | [] => natBytes es 0
  | v :: rest => natBytes es (rest.foldl (redStep c) v)

/-- DST of a collective over the members' SRC buffers, in member order. -/
def collResult (c : CollOp) (members : List (List Byte)) (rank k : Nat) : List Byte :=
  let block (m : List Byte) (i : Nat) : List Byte := (m.drop (i * c.count * c.es)).take (c.count * c.es)
  match c.op with
  | 0 => (List.range c.count).flatMap fun i => reduceAt c members i (k + i)
  | 1 => members.flatten
  | 2 => (List.range c.count).flatMap fun i => reduceAt c (members.map fun m => block m rank) i (k + i)
  | _ => members.flatMap fun m => block m rank

/-- A COLL once its ring stands: this device's buffer goes out, those of the other members come in and go on, and when they are all
there, `peer` in member order, DST is written (R183, R184, R407). -/
def collMove (s : State) (o : Op) (c : CollOp) (g ents peer : List Byte) (w : Nat) : Out :=
  let n := leAt g 0 4
  let rank := leAt g 4 4
  let len := c.srcN n * c.es
  let own : MRes (List Byte) := if o.unit = 0 then loadBytes s (hubCtx o.part o.lvl) (BitVec.ofNat 64 c.src) len else .ok o.sbuf s
  onEngine s o own fun own s =>
    let s := if o.unit = 0 then s.updMs (ringSend o.part w own) else s
    let y := s.ports.flitsIn.foldl (ringTake o.part (ringFrom s o.part g ents) n len) ⟨o.buf, [], []⟩
    let s := (s.updMs (ringSend o.part w y.onward)).updPorts fun h => { h with flitsIn := y.rest }
    let o := { o with unit := 1, sbuf := own, buf := y.had }
    let members := ringMembers n rank len own y.had
    if y.had.length < (n - 1) * len || peer != (members.eraseIdx rank).flatten then .next (putOp s o)
    else engineStore (s.useFresh c.count) o (shadowCtx o) (BitVec.ofNat 64 c.dst) (collResult c members rank s.fresh) fun s =>
      .next (finishOp s o 1)

/-- COLL_COMPLETE: a move of a COLL on its ring: `peer` are the other members' SRC buffers in member order, `news` what has become of the
ring. -/
def execCollComplete (k : Nat) (peer : List Byte) (news : RingNews) (s : State) : Out :=
  onOp s k fun o => match o.kind with
    | .coll group desc =>
      let x := hubCtx o.part o.lvl
      onEngine s o (loadBytes s x group 16) fun g s =>
      onEngine s o (loadBytes s x (group + 16) (4 * leAt g 0 4)) fun ents s =>
      onEngine s o (loadBytes s x desc 64) fun b s =>
        let c := parseColl b
        let from_ := ringFrom s o.part g ents
        if collBad s g ents b || news == .broken then .next (finishOp s o (failWord cILLEGAL))
        else match ringWin s o.part g ents 1 with
          | none => .next (finishOp s o (failWord cILLEGAL))
          | some w =>
            if news == .down || (s.peerLink w).down then
              let dstLen := c.dstN (leAt g 0 4) * c.es
              let junk := (List.range dstLen).map fun i => Config.freeByte (s.fresh + i)
              engineStore (s.useFresh dstLen) o (shadowCtx o) (BitVec.ofNat 64 c.dst) junk fun s =>
                .next (finishOp s o (failWord cLINK_DOWN))
            else if from_.any fun l => (s.ms.net.link l).authFail.contains (o.part, .coll) then
              .next (finishOp (s.updMs fun ms => from_.foldl (authSpent o.part .coll) ms) o (failWord cLINK_AUTH))
            else collMove s o c g ents peer w
    | _ => .next s

/-! ### PUBLISH (R97, R181) -/

/-- The well-formed view that begins at a VA: pages, and PA of its entry. -/
def viewAt (s : State) (p : PartId) (va : Word) : Option (Nat × Nat) :=
  match (views s (s.part p)).find? fun v => v.1 / 65536 * 65536 == va.toNat with
  | some (_, n, _, true, at_) => some (n, at_)
  | _ => none

/-- The view that begins at a VA, its table's lines checked as any access to them is (R81, R92, R99). -/
def viewLook (s : State) (o : Op) (va : Word) : MRes (Option (Nat × Nat)) :=
  let vs := views s (s.part o.part)
  let reads := (vs.take (vs.findIdx (fun v => v.1 / 65536 * 65536 == va.toNat) + 1)).map fun v => v.2.2.2.2
  (tableCheck s (hubCtx o.part o.lvl) va reads).bind fun _ s => .ok (viewAt s o.part va) s

/-- PUBLISH (R181). -/
def execPublish (d a : Reg) (s0 : State) : Out :=
  issue s0 d [a] fun s o =>
    match viewLook s o (s.rg a) with
    | .trap c _ => endNow s o (failWord c)
    | .wait => .next s0
    | .ok none s => endNow s o (failWord cPUBLISH_FORM)
    | .ok (some _) s => start s o (.publish (s.rg a))

/-- Ranges that an engine transfer of an operation writes or may write, as its descriptors stand; none while one of them cannot be
read. -/
def transferRanges (s : State) (o : Op) : Option (List (Nat × Nat)) :=
  let x := hubCtx o.part o.lvl
  let peek (va : Word) (n : Nat) (k : List Byte → Option (List (Nat × Nat))) : Option (List (Nat × Nat)) :=
    match loadBytes s x va n with
    | .ok b _ => k b
    | .trap _ _ => some []
    | .wait => none
  match o.kind with
  | .copy dst _ len => some [(dst.toNat, len.toNat)]
  | .cmpct desc => peek desc 64 fun b =>
      let l := parseLadle b
      some (if ladleBad b then [] else [(l.dst, l.srcN), (l.offs, l.offN), (desc.toNat + 48, 8)])
  | .coll group desc => peek group 16 fun g => peek desc 64 fun b =>
      let c := parseColl b
      some [(c.dst, c.dstN (leAt g 0 4) * c.es)]
  | _ => some []

/-- Must a PUBLISH of a view wait for an operation: an engine transfer into it, or another PUBLISH of it (R97, R181)? -/
def transfersInto (s : State) (va n : Nat) (o : Op) : Bool :=
  (match o.kind with | .publish v => v.toNat == va | _ => false) ||
    match transferRanges s o with
    | some rs => rs.any fun r => rangesMeet r.1 r.2 va n
    | none => true

/-- VAs of a partition's node accesses already translated and still to perform, as (first, bytes), those of scatters (`stx`) too or
not. -/
def piecesOut (s : State) (p : PartId) (stx : Bool) : List (Nat × Nat) :=
  (regionsOf s p).flatMap fun r =>
    if (s.ctl r).st = .saved then []
    else (s.fab r).accs.flatMap fun a =>
      if a.held || a.space != 1 || (a.opc == 0x74 && !stx) then [] else (a.pieces.filter fun q => !q.done).map fun q => (q.va.toNat, q.n)

/-- VAs that a partition's MWCAS in progress uses. -/
def mwcasOut (s : State) (p : PartId) : List (Nat × Nat) :=
  (s.ms.mwcas.filter (·.1.part == p)).flatMap fun m =>
    (m.1.blk.toNat, 8 * (3 * m.1.n + 1)) :: m.1.entries.map fun e => (e.1.toNat, 8)

/-- A table entry is written at home: other copies of its line are recalled (R85, R90). -/
def tableWrite (p : PartId) (at_ : Nat) (v now : Word) (ms : MemSys) : MemSys :=
  homeWrite p (dirWrite none at_ now ms) at_ v.toNat 8

/-- Is an access of a partition to a VA range under way, a scatter (`stx`) too or not? -/
def vaBusy (s : State) (p : PartId) (stx : Bool) (va n : Nat) : Bool :=
  (piecesOut s p stx ++ mwcasOut s p).any fun x => rangesMeet x.1 x.2 va n

/-- A view's selector changes from `sel` for the partition's translations of its shadowed pages, and for its scatter writes translated
before that have still to perform: these write the copy that is hidden then (R86, R97, R304). -/
def switchView (s : State) (p : PartId) (va n : Nat) (sel : Bool) : State :=
  let in_ (v : Nat) : Bool := va ≤ v && v < va + n
  let s := s.updMs fun ms => { ms with
    tlb := ms.tlb.map fun e => if e.part == p && pteSH e.pte && in_ e.va then { e with sel := !sel } else e }
  let move (q : Piece) : Piece :=
    if q.sh && !q.done && in_ q.va.toNat then { q with pa := if sel then q.pa + 65536 else q.pa - 65536 } else q
  (regionsOf s p).foldl (fun s r => s.updFab r fun f => { f with
    accs := f.accs.map fun (a : Acc) => if a.opc == 0x74 then { a with pieces := a.pieces.map move } else a }) s

/-- PUBLISH_FLIP: SEL flips once the partition's earlier engine writes into the view and the accesses translated with the
old selector, but for scatters, are over (R97); it is a release at DEVICE scope of the issuing core. -/
def execPublishFlip (k : Nat) (s : State) : Out :=
  onOp s k fun o => match o.kind with
    | .publish va => onEngine s o (viewLook s o va) fun v s => match v with
      | none => .next (finishOp s o (failWord cPUBLISH_FORM))
      | some (n, at_) =>
        let earlier := (s.ops.takeWhile (·.id != k)).any fun x => x.part == o.part && transfersInto s va.toNat (65536 * n) x
        if earlier || vaBusy s o.part false va.toNat (65536 * n) then .next s
        else
          onEngine s o (homeCheck s (hubCtx o.part o.lvl) (at_ + 8) 8 va false) fun _ s =>
            let w1 := readPte s (at_ + 8)
            let s := s.updMs fun ms => tableWrite o.part (at_ + 8) (w1 ^^^ 0x10000) s.fclock ms
            .next (finishOp (switchView s o.part va.toNat (65536 * n) (w1.getLsbD 16)) o 1)
    | _ => .next s

/-! ### MIGRATE (R93, R94, R182) -/

/-- The cause that a copy between two frames meets at a peer's window: one not in use, or a link that is down (R405, R406). -/
def framesCause (s : State) (old new : Nat) : Option (BitVec 8) := (peerCause s new).orElse fun _ => peerCause s old

/-- What MIGRATE finds before it opens a window: a completion value, or the entry that maps the page and its present frame. The walk's
reads and the frames are checked as those of any access are (R81, R92, R99, R406). A page of a run or of an L1 leaf moves as any other does (log 48). -/
def migrateCheck (s : State) (o : Op) (va frame : Word) : MRes (Except Word (Leaf × Nat)) :=
  let root := (s.part o.part).ptroot
  if !aligned frame 65536 then .ok (.error (failWord cMISALIGN)) s
  else if !granted (s.part o.part) frame.toNat 65536 then .ok (.error (failWord cPT_CORRUPT)) s
  else (tableCheck s (hubCtx o.part o.lvl) va (walkReads s root va)).bind fun _ s => match walk s root va with
    | .error c => .trap c va
    | .ok l =>
      let old := l.pa + (pageOf va * 65536 - l.va)
      if pteSH l.pte then .ok (.error (failWord cPUBLISH_FORM)) s
      else if old = frame.toNat then .ok (.error 1) s
      else match framesCause s old frame.toNat with
        | some c => .trap c va
        | none => .ok (.ok (l, old)) s

/-- Is a window open on the page of a VA? -/
def windowOpen (s : State) (p : PartId) (va : Word) : Bool :=
  s.ms.migrations.any fun m => m.part == p && m.va == pageOf va

/-- Opens the window (R93 step 1). -/
def openWindow (s : State) (o : Op) (va frame : Word) (old : Nat) : State :=
  s.updMs fun ms => { ms with migrations := ms.migrations ++ [⟨o.id, o.part, pageOf va, old, frame.toNat, []⟩] }

/-- MIGRATE (R182): at S and H. A page whose window is open makes it wait before it checks anything (R94). -/
def execMigrate (d a b : Reg) (s0 : State) : Out :=
  needLevel s0 .s (.migrate d a b) <| issue s0 d [a, b] fun s o =>
    let va := s.rg a
    let frame := s.rg b
    if windowOpen s o.part va then start s o (.migrate va frame 0 false)
    else match migrateCheck s o va frame with
      | .trap c _ => endNow s o (failWord c)
      | .wait => .next s0
      | .ok (.error v) s => endNow s o v
      | .ok (.ok (_, old)) s => start (openWindow s o va frame old) o (.migrate va frame old true)

/-- Moves an address from the old frame to the new. -/
def moved (old new pa : Nat) : Nat := if old ≤ pa && pa < old + 65536 then new + (pa - old) else pa

/-- The bytes of a frame; those of a peer's are asked for and free (R406; log 18). -/
def frameBytes (s : State) (p : PartId) (old : Nat) : List Byte × State :=
  if isPeer old then
    ((List.range 65536).map fun i => Config.freeByte (s.fresh + i),
      (s.useFresh 65536).updMs fun ms => (List.range 512).foldl (fun ms i => peerAsk p (old + 128 * i) 128 ms) ms)
  else (Memory.readBytes s.ms.mem old 65536, s)

/-- Writes some bytes of a frame at its home, a whole line at once where it can. -/
def frameWrite (p : PartId) (new : Nat) (keep : List Nat) (b : List Byte) (ms : MemSys) : MemSys :=
  (List.range 512).foldl (fun ms i =>
    let line := (b.drop (128 * i)).take 128
    if keep.any fun o => o / 128 == i then
      line.zipIdx.foldl (fun ms (x, j) => if keep.contains (128 * i + j) then ms else putHome p x.toNat 1 ms (new + 128 * i + j)) ms
    else putHome p (bytesNat line) 128 ms (new + 128 * i)) ms

/-- The copy of the page: every line of the new frame is written whole, which clears its poison (R92); bytes mirrored since the window
opened are not overwritten by older ones (R93). -/
def copyPage (s : State) (p : PartId) (old new : Nat) (keep : List Nat) : State :=
  let (b, s) := frameBytes s p old
  s.updMs fun ms => (linesOf new 65536).foldl (fun ms l => clearLine l ms) (frameWrite p new keep b ms)

/-- SWITCH (R93 step 3): D-copies are recalled, translations go, S-copies and accesses under way follow the page. -/
def switchPage (s : State) (p : PartId) (old new : Nat) : State :=
  let s := s.updMs fun ms => { ms with
    dir := ms.dir.filter fun e => !rangesMeet e.base e.size old 65536
    tlb := ms.tlb.filter fun e => !(e.part == p && rangesMeet e.pa e.size old 65536)
    slines := ms.slines.map fun l => { l with line := moved old new (l.line * 128) / 128 } }
  { s with regions := s.regions.map fun (x : Region) => if x.ctl.part != p then x else
      { x with fab := { x.fab with accs := x.fab.accs.map fun (a : Acc) =>
          if a.space == 1 then { a with pieces := a.pieces.map fun (q : Piece) => { q with pa := moved old new q.pa } } else a } } }

/-- Closes a MIGRATE's window. -/
def closeWindow (s : State) (o : Op) : State :=
  s.updMs fun ms => { ms with migrations := ms.migrations.filter (·.op != o.id) }

/-- A MIGRATE that waited for another of its page opens its window, after its checks. -/
def migrateLater (s : State) (o : Op) (va frame : Word) : Out :=
  if windowOpen s o.part va then .next s
  else onEngine s o (migrateCheck s o va frame) fun r s => match r with
    | .error v => .next (finishOp s o v)
    | .ok (_, old) => .next (putOp (openWindow s o va frame old) { o with kind := .migrate va frame old true })

/-- Does a MWCAS in progress use a word of a frame, by whatever VA? -/
def mwcasUses (ms : MemSys) (pa : Nat) : Bool :=
  ms.mwcas.any fun m => (m.1.at_.map (·.1) ++ m.1.entries.map (·.2.1)).any fun a => pa ≤ a && decide (a < pa + 65536)

/-- Must the end of a copy wait: a MWCAS uses the page, or a line of one of the frames is locked or under a recall (R99)? -/
def copyHeld (s : State) (x : Ctx) (old new : Nat) : Bool :=
  mwcasUses s.ms old || (linesOf old 65536 ++ linesOf new 65536).any (lockedBy s x)

/-- The end of a MIGRATE whose copy has met a cause, or that has found no page: the window closes. -/
def migrateFails (s : State) (o : Op) (c : BitVec 8) : Out := .next (finishOp (closeWindow s o) o (failWord c))

/-- MIGRATION_SWITCH: the copy ends and the page moves, once no MWCAS uses it; an unreachable new home closes the window
(R93, R94), and so does a poisoned or altered line of the old frame (log 48). -/
def execMigrationSwitch (k : Nat) (s : State) : Out :=
  onOp s k fun o => match o.kind with
    | .migrate va frame _ false => migrateLater s o va frame
    | .migrate va frame old true =>
      let new := frame.toNat
      let x := hubCtx o.part o.lvl
      let root := (s.part o.part).ptroot
      if copyHeld s x old new then .next s
      else match tableCheck s x va (walkReads s root va) with
        | .wait => .next s
        | .trap c _ => migrateFails s o c
        | .ok _ s => match walk s root va, (framesCause s old new).orElse fun _ => lineFault s x (linesOf old 65536) with
          | .error c, _ | .ok _, some c => migrateFails s o c
          | .ok l, none =>
            let keep := ((s.ms.migrations.find? (·.op == o.id)).map (·.wrote)).getD []
            let s := copyPage (closeWindow s o) o.part old new keep
            let pte := (l.pte &&& 0xFFFF00000000FFFF) ||| BitVec.ofNat 64 new
            let s := s.updMs fun ms => tableWrite o.part l.at_ pte s.fclock ms
            .next (finishOp (switchPage s o.part old new) o 1)
    | _ => .next s

end Sys2Proof.Machine
end

