-- ==== Sys2Proof/Machine/System.lean ====
section
/-!
DEFINITION. System instructions of the cores (09_sequencer_engines.md R185, R192 to R201): waiting, traps and returns,
TLBINV and TLBSYNC, SQSTART, HALT, REPLAY, FRES, CACHEOP, and the events that end waits or begin traps.
-/

namespace Sys2Proof.Machine

open Sys2Proof

/-- Runs something as core c and gives the turn back. -/
def asCore (s : State) (c : CoreId) (k : State → Out) : Out :=
  match k { s with cur := c } with
  | .next t => .next { t with cur := s.cur }
  | r => r

/-! ### Traps (R192, R194, R195) -/

/-- TRAP (R194). -/
def execTrap (e : BitVec 5) (s : State) : Out := raiseAfter s cSYSCALL (zext e)

/-- HVCALL (R194): at S and H. -/
def execHvcall (e : BitVec 5) (s : State) : Out := needLevel s .s (.hvcall e) <| raiseAfter s cHVCALL (zext e)

/-- BRK (R194). -/
def execBrk (e : BitVec 5) (s : State) : Out := raiseAfter s cBREAK (zext e)

/-- RETT (R195): pc, IE and the level come back from the trap registers of the current level. -/
def execRett (s : State) : Out :=
  needLevel s .s .rett <|
    let c := s.me
    let t := c.trapRegs c.level
    match levelOfCode (t.status.extractLsb' 2 2) with
    | none => raise s cILLEGAL (wordOf .rett)
    | some l =>
      if levelNat c.level < levelNat l then raise s cILLEGAL (wordOf .rett)
      else .next (s.updMe fun c => { c.setTrapRegs c.level { t with status := statusReturn t.status } with pc := t.tpc, level := l })

/-- INTERRUPT_TAKE (R192, R193): the interrupt that core c takes before its next instruction. -/
def execInterruptTake (c : CoreId) (s : State) : Out :=
  match takenInt s c with
  | some cause => .next (takeInt s c cause)
  | none => .next s

/-- ILLEGAL_WORD (R111): a word that decodes to nothing raises ILLEGAL, with the word in TVAL. -/
def execIllegalWord (w : BitVec 32) (s : State) : Out :=
  if s.me.run == .running && (decodeS w).isNone then raise s cILLEGAL (zext w) else .next s

/-- INSTRUCTION_FETCH_FAULT (R148): the fetch at pc raises its cause, as a double fault where a handler has not begun (R331); a cause
that it does not meet raises nothing. -/
def execInstructionFetchFault (cause : BitVec 8) (tval : Word) (s : State) : Out :=
  match s.me.run, fetchAt s s.cur with
  | .running, .trap c t =>
    if c = cause ∧ t = tval then
      let s := startDone s s.cur
      match s.me.entering with
      | some first => .next (handlerFault s s.cur first cause)
      | none => raise s cause tval
    else .next s
  | _, _ => .next s

/-- TIMER (R193): time passes until core c's TIMECMP_S is reached. -/
def execTimer (c : CoreId) (s : State) : Out :=
  let t := (s.core c).timecmp
  .next (if t ≠ 0 ∧ s.fclock.toNat < t.toNat then { s with fclock := t } else s)

/-! ### Waiting (R185, R198, R199) -/

/-- WAITW (R185): reads with an acquire; while the word equals g[b], the core waits. -/
def execWaitw (d a b : Reg) (s : State) : Out :=
  needRegs s [d, a, b] <| coreLoad s (s.rg a) 8 fun v s =>
    let s := s.acquireMe
    if BitVec.ofNat 64 v = s.rg b then .next (s.updMe fun c => { c with run := .waitw d a b })
    else retireG s d (BitVec.ofNat 64 v)

/-- WAITW_WAKE (R185): a write of the line lets the WAITW start again. -/
def execWaitwWake (c : CoreId) (s : State) : Out :=
  match (s.core c).run with
  | .waitw _ _ _ => .next (s.updCore c fun x => { x with run := .running })
  | _ => .next s

/-- WFE (R198): ends at once when an interrupt is pending for the core. -/
def execWfe (s : State) : Out :=
  if (pendingInt s s.cur).isSome then retire s else .next (s.updMe fun c => { c with run := .wfe })

/-- WFE_WAKE (R198): the WFE of core c ends, with a cause or without one. -/
def execWfeWake (c : CoreId) (s : State) : Out :=
  if (s.core c).run = .wfe then asCore (s.updCore c fun x => { x with run := .running }) c retire else .next s

/-- HALT (R199): waits until no token register is pending, then the core stops after the HALT. -/
def execHalt (s : State) : Out :=
  needLevel s .s .halt <|
    if s.me.pend != 0 then .next s
    else .next (s.updMe fun c => { coreStop .halted c with pc := c.pc + 4 })

/-- The started core of R199: f registers 0 with tags 0, FCSR and SIGCTL at reset, level S. -/
def startedCore (entry : Word) (c : Core) : Core :=
  { c with
    pc := entry, f := Vector.replicate 32 ⟨0, 0⟩, fcsr := 0, sigctl := 0, level := .s, run := .running, stopReq := false,
    entering := none }

/-- SQSTART (R199): the core fetches its first instruction and the token register reads 1; a fetch that waits leaves it pending. -/
def execSqstart (d a b : Reg) (s : State) : Out :=
  needLevel s .s (.sqstart d a b) <| issue s d [a, b] fun s o =>
    let v := s.rg a
    let c := CoreId.sq (v.setWidth 6)
    if 63 < v.toNat || (s.core c).part != some o.part then endNow s o (failWord cPRIV)
    else match (s.core c).run with
      | .held | .halted | .stopped =>
        if !aligned (s.rg b) 4 then endNow s o (failWord cMISALIGN)
        else
          let entry := s.rg b
          let s := wakeDie (s.updCore c (startedCore entry)) c
          match fetchAt s c with
          | .ok _ s => endNow s o 1
          | .trap _ _ => endNow s o 1
          | .wait => start s o (.sqstart c)
      | _ => endNow s o (failWord cILLEGAL)

/-! ### TLBINV and TLBSYNC (R87, R197) -/

/-- Does a translation cover a VA, or does the TLBINV name all? -/
def invCovers (va : Word) (e : TlbEntry) : Bool := va.getLsbD 63 || (e.va ≤ va.toNat && va.toNat < e.va + e.size)

/-- TLBINV (R197): the translations leave every agent of the partition; their ranges are what TLBSYNC waits for. -/
def execTlbinv (a : Reg) (s : State) : Out :=
  needLevel s .s (.tlbinv a) <| needRegs s [a] <|
    match s.me.part with
    | none => retire s
    | some p =>
      let va := s.rg a
      let gone (e : TlbEntry) : Bool := e.part == p && invCovers va e
      let ranges := (if va.getLsbD 63 then [(0, 2 ^ 52)] else [(pageOf va * 65536, 65536)]) ++
        (s.ms.tlb.filter gone).map fun e => (e.va, e.size)
      let s := s.updMs fun ms => { ms with tlb := ms.tlb.filter fun e => !gone e }
      retire (s.updMe fun c => { c with inv := (c.inv ++ ranges).dedup })

/-- Ranges that the TLBINVs of a partition's cores have removed and no TLBSYNC has waited for (R87). -/
def partInv (s : State) (p : PartId) : List (Nat × Nat) := (coresOf s p).flatMap fun c => (s.core c).inv

/-- Agents of a partition that keep S-copies. -/
def partAgents (s : State) (p : PartId) : List Agent := (coresOf s p).map .coreD ++ (regionsOf s p).flatMap (regionAgents s)

/-- Every access translated under what the TLBINVs of core c's partition removed has performed (R87), or is a store on an S page
whose bytes can reach home now (R88). -/
def tlbSynced (s : State) (c : CoreId) : Bool :=
  match (s.core c).part with
  | none => true
  | some p => (partInv s p).isEmpty || (!((partInv s p).any fun r => vaBusy s p true r.1 r.2) && !(partAgents s p).any (syncHeld s))

/-- What a TLBSYNC of core c leaves: nothing of its partition waits for one, and what was stored under a translation that is gone is
at home, no agent keeping an S-copy from before (R305; log 79). -/
def tlbSyncDone (s : State) (c : CoreId) : State :=
  match (s.core c).part with
  | none => s
  | some p =>
    if (partInv s p).isEmpty then s
    else (coresOf s p).foldl (fun s c => s.updCore c fun x => { x with inv := [] }) (acquireAll s (partAgents s p))

/-- TLBSYNC (R87, R197): waits for the partition's TLBINVs, its own among them. -/
def execTlbsync (s : State) : Out :=
  needLevel s .s .tlbsync <|
    if tlbSynced s s.cur then retire (tlbSyncDone s s.cur)
    else .next (s.updMe fun c => { c with run := .tlbsync })

/-- TLBSYNC_COMPLETE (R87). -/
def execTlbsyncComplete (c : CoreId) (s : State) : Out :=
  if (s.core c).run = .tlbsync ∧ tlbSynced s c = true then
    asCore ((tlbSyncDone s c).updCore c fun x => { x with run := .running }) c retire
  else .next s

/-! ### REPLAY and FRES (R200, R338, R339, R410) -/

/-- Re-issues a held completion store (R410). -/
def retryStore (s : State) (r : RegionId) : State :=
  match (s.ctl r).heldStore with
  | some (v, _, _) => finalStore s r v
  | none => s

/-- Resolves the faults of a region's activations that a test names. -/
def resolveIn (s : State) (r : RegionId) (which : ParkRec → Bool) (how : Resolve) : State :=
  let recs := (s.fab r).parkTab.filter fun p => !p.debug && which p
  if recs.isEmpty then s else recs.foldl (fun s p => resolveAct s r p how) (wakeRegion s r)

/-- What REPLAY of a page does in a partition. -/
def replayPage (s : State) (p : PartId) (page : Nat) : State :=
  let s := s.updMs fun ms => { ms with merger := ms.merger.filter fun m => !(m.part == p && m.page == page) }
  let s := (regionsOf s p).foldl (fun s r => resolveIn s r (fun x => x.page == some page) .retry) s
  let s := (regionsOf s p).foldl (fun s r =>
    if (s.ctl r).heldStore.any fun h => h.2.2 == page then retryStore s r else s) s
  sweepMerger ((s.ops.filter fun o => o.part == p && o.held.any fun h => h.2.2 == page).foldl streamRetry s)

/-- REPLAY (R200): a release of the core's earlier accesses, then every activation and held access of the page. -/
def execReplay (a : Reg) (s : State) : Out :=
  needLevel s .s (.replay a) <| needRegs s [a] <|
    match s.me.part with
    | none => retire s
    | some p => needSync s (retire (replayPage s.releaseMe p (pageOf (s.rg a))))

/-- The fault record that an entry in memory names: by region, SEQ and TAG. -/
def faultOf (q : Partition) (b : List Byte) : Option FaultRec :=
  let w0 : Word := BitVec.ofNat 64 (leAt b 0 8)
  q.faults.find? fun f => f.seq == some (w0.extractLsb' 0 32) && f.region.zeroExtend 8 == w0.extractLsb' 48 8 &&
    f.tag == BitVec.ofNat 64 (leAt b 16 8)

/-- Resolves a completion store held on a fault: RETRY makes it again, SUPPLY and KILL skip it (R410). -/
def resolveStore (s : State) (r : RegionId) (id : Nat) (how : Resolve) : State :=
  if (s.ctl r).heldStore.any fun h => h.2.1 == id then
    match how with
    | .retry => retryStore s r
    | .supply _ | .kill => afterStore s r
  else s

/-- Resolves an access of an operation held on a fault: one of a stream, or a store of LAUNCH to its word (R410). -/
def resolveStream (s : State) (o : Op) (how : Resolve) : State :=
  match how, o.kind with
  | .retry, _ => streamRetry s o
  | .supply _, .launch _ _ _ _ | .kill, .launch _ _ _ _ => launchSkip s o
  | .supply t, _ => streamSupply s o t
  | .kill, _ => streamKill s o

/-- Resolves everything a fault stands for (R339): the activations, held stores and held stream accesses counted under it. Its merger
entry frees first, so that a fault of what is made again has an entry of its own (R338). -/
def resolveFault (s : State) (p : PartId) (id : Nat) (how : Resolve) : State :=
  let s := s.updMs fun ms => { ms with merger := ms.merger.filter fun m => !(m.part == p && m.fault == id) }
  let s := s.updPart p fun q => { q with faults := q.faults.map fun f => if f.id = id then { f with resolved := true } else f }
  let s := (regionsOf s p).foldl (fun s r => resolveIn s r (fun x => x.fault == id) how) s
  let s := (regionsOf s p).foldl (fun s r => resolveStore s r id how) s
  let s := (s.ops.filter fun o => o.part == p && o.held.any fun h => h.1 == id).foldl (fun s o => resolveStream s o how) s
  sweepMerger s

/-- Must a resolution wait for a later fc: the token that it supplies to a held inward access would come out of the order in which its
port is reached (R35; log 84)? -/
def supplyWaits (s : State) (p : PartId) (id : Nat) : Resolve → Bool
  | .supply t => s.ops.any fun o => o.part == p && o.held.any (fun h => h.1 == id) && match o.kind with
    | .strm r code _ _ false => (s.ctl r).cfg.any fun g =>
        outOfTurn s r (streamTok g code t.kind t.fmt t.sig t.pred t.scale t.payload) (portSrc g code)
    | _ => false
  | .retry | .kill => false

/-- Reads 64-byte-aligned bytes for FRES: a misaligned VA and a fault are raised precisely. -/
def fresRead (s : State) (va : Word) (n : Nat) (k : List Byte → State → Out) : Out :=
  if !aligned va 64 then raise s cMISALIGN va else onAccess s (loadBytes s (coreCtx s) va n) k

/-- Does a fault still hold something that a resolution can end: an activation that is parked, a completion store, or an access of an
operation? REPLAY and a kill end it too (R339, R410). -/
def faultStands (s : State) (p : PartId) (id : Nat) : Bool :=
  (regionsOf s p).any (fun r => (s.fab r).parkTab.any (fun x => !x.debug && x.fault == id) || (s.ctl r).heldStore.any fun h => h.2.1 == id) ||
    s.ops.any fun o => o.part == p && o.held.any fun h => h.1 == id

/-- FRES on the entry at g[a] (R200): `how` says, once the record is found, what it delivers. An entry that names no recorded fault, or
one that is over, has no effect; SUPPLY and RETRY of one that is not resumable raise ILLEGAL (R360). -/
def fres (s : State) (i : Instr) (a : Reg) (needsResumable : Bool) (how : State → (Resolve → State → Out) → Out) : Out :=
  match s.me.part with
  | none => retire s
  | some p => fresRead s (s.rg a) 64 fun b s =>
      match faultOf (s.part p) b with
      | none => retire s
      | some f =>
        if f.resolved || (f.resumable && !faultStands s p f.id) then retire s
        else if needsResumable && !f.resumable then raise s cILLEGAL (wordOf i)
        else how s fun x s1 => if supplyWaits s1 p f.id x then .next s else retire (resolveFault s1 p f.id x)

/-- The token of an 80-byte image; none for one that R200 refuses. -/
def imageTok (b : List Byte) : Option Token :=
  let t := tokenOf (BitVec.ofNat 16 (leAt b 72 2)) (BitVec.ofNat 64 (leAt b 64 8)) (BitVec.ofNat 512 (leAt b 0 64))
  if (t.kind == kDATA || t.kind == kERROR) && leAt b 74 6 == 0 then some t else none

/-- FRES SUPPLY (R200): the image is read only for a fault that SUPPLY resolves (R360). -/
def execFresSupply (a b : Reg) (s : State) : Out :=
  needLevel s .s (.fresSupply a b) <| needRegs s [a, b] <|
    fres s (.fresSupply a b) a true fun s k =>
      fresRead s (s.rg b) 80 fun im s1 => match imageTok im with
        | none => raise s cILLEGAL (wordOf (.fresSupply a b))
        | some t => k (.supply t) s1

/-- FRES RETRY (R200). -/
def execFresRetry (a b : Reg) (s : State) : Out :=
  needLevel s .s (.fresRetry a b) <| needRegs s [a] <| fres s (.fresRetry a b) a true fun s k => k .retry s

/-- FRES KILL (R200). -/
def execFresKill (a b : Reg) (s : State) : Out :=
  needLevel s .s (.fresKill a b) <| needRegs s [a] <| fres s (.fresKill a b) a false fun s k => k .kill s

/-! ### CACHEOP (R201) -/

/-- A CACHEOP on the line of g[a]: its translation, then its effect, unless it has to wait; none on a U page. -/
def cacheop (s : State) (a : Reg) (w : Bool) (waits : State → Xl → Bool) (k : Xl → State → State) : Out :=
  needRegs s [a] <| onAccess s (probeVa s (coreCtx s) w (s.rg a)) fun t s1 =>
    if waits s1 t then .next s else retire (if t.coh == 2#2 then s1 else k t s1)

/-- The core's copy of a line. -/
def myLine (s : State) (t : Xl) : Option SLine := findSLine s.ms (.coreD s.cur) (lineOf t.pa)

/-- Writes the dirty bytes of the core's copy to home, keeping the copy. -/
def cleanLine (s : State) (t : Xl) : State :=
  match myLine s t with
  | some l => s.updMs fun ms =>
      let ms := writeThrough ms l
      { ms with slines := ms.slines.map fun (x : SLine) => if x.agent == l.agent && x.line == l.line then { x with dirty := 0 } else x }
  | none => s

/-- CLEAN and FLUSH wait while the line whose dirty bytes they would write is locked (R99). -/
def cleanWaits (s : State) (t : Xl) : Bool := t.coh != 2#2 && (myLine s t).any (dirtyLocked s.ms)

/-- Discards the core's copy of a line. -/
def dropLine (s : State) (t : Xl) : State :=
  s.updMs fun ms => dirDrop (.coreD s.cur) t.pa (dropSLine ms (.coreD s.cur) (lineOf t.pa))

/-- CACHEOP CLEAN (R201). -/
def execCacheopClean (a : Reg) (s : State) : Out := cacheop s a false cleanWaits fun t s => cleanLine s t

/-- CACHEOP INVAL (R201): dirty bytes of an S-line are discarded unwritten. -/
def execCacheopInval (a : Reg) (s : State) : Out := cacheop s a true (fun _ _ => false) fun t s => dropLine s t

/-- CACHEOP FLUSH (R201). -/
def execCacheopFlush (a : Reg) (s : State) : Out := cacheop s a true cleanWaits fun t s => dropLine (cleanLine s t) t

/-- CACHEOP PFR (R201): a fault is dropped. -/
def execCacheopPfr (a : Reg) (s : State) : Out := needRegs s [a] <| retire (prefetch s (coreCtx s) false (s.rg a))

/-- CACHEOP PFW (R201). -/
def execCacheopPfw (a : Reg) (s : State) : Out := needRegs s [a] <| retire (prefetch s (coreCtx s) true (s.rg a))

/-- CACHEOP IINV (R201): the core's instruction copy of the line goes. -/
def execCacheopIinv (a : Reg) (s : State) : Out :=
  cacheop s a false (fun _ _ => false) fun t s => s.updMe fun c => { c with icache := c.icache.filter fun w => lineOf w.1 != lineOf t.pa }

end Sys2Proof.Machine
end

