-- ==== Sys2Proof/Machine/Power.lean ====
section
/-!
DEFINITION. Power states and monitors (24_scheduling.md R373 to R378): idle regions, free clusters, the die's W4, thermal limits,
droop.
-/

namespace Sys2Proof.Machine

open Sys2Proof

/-- Does a node hold tokens or emissions of its own? DESIGN CHOICE: a CTR's pass that still waits for dones counts here as an
emission outstanding, though no token may be left; it is no token that the hang of R345 counts (log 81). -/
def nodeBusy (x : NodeSt) : Bool :=
  !x.pend.isEmpty || !x.held.isEmpty || x.pass.isSome || x.flush.isSome || !x.params.isEmpty ||
    x.keys.any (fun k => !k.held.isEmpty) || x.ctrs.any fun c => !c.held.isEmpty

/-- No token in any queue, store or area, no access, command, emission or injected delta (R37, R374). -/
def fabricQuiet (f : Fabric) : Bool :=
  f.outq.isEmpty && f.links.isEmpty && f.waiting.isEmpty && f.edge.isEmpty && f.parkArea.isEmpty && f.parkTab.isEmpty &&
    f.accs.isEmpty && f.arrayq.isEmpty && f.injq.isEmpty && !f.nodes.any nodeBusy

/-- Nodes that have still to do what they do without an operand: a CONST of ARITY 0 that has not fired (R262). -/
def constsLeft (s : State) (r : RegionId) : Bool :=
  match (s.ctl r).cfg with
  | none => false
  | some g => g.nodes.any fun x => x.word.extractLsb' 0 8 == 0x66#8 && (nodeFields x.word).arity == 0 &&
      !(nodeSt (s.fab r) x.row x.col x.slot).reported

/-- Has a region a stream command or an SBAR outstanding? -/
def streamsOut (s : State) (r : RegionId) : Bool := s.ops.any fun o => streamRegion o.kind == some r

/-- Is a region idle (R374)? A stopped one is not (R382). -/
def regionIdle (s : State) (r : RegionId) : Bool :=
  match (s.ctl r).st with
  | .idle => true
  | .running => (s.dbg r).stop == .going && fabricQuiet (s.fab r) && !streamsOut s r && !constsLeft s r &&
      (s.ctl r).heldStore.isNone && (s.ctl r).killing.isNone
  | _ => false

/-- The deepest state whose exit latency a partition tolerates (Table 24-6). -/
def powerTarget (s : State) (r : RegionId) : Nat :=
  let c := s.ctl r
  let p := s.part c.part
  let tol := (p.lattol.extractLsb' 0 32).toNat
  if 400 ≤ tol && p.pwrbase.getLsbD 0 && (saveUnits c).toNat ≤ 131072 then 3
  else if 15 ≤ tol then 2
  else if 1 ≤ tol then 1
  else 0

/-- Enters W3: the state is written to the region's part of the save area; a write that faults leaves W2 and ERR (R375). -/
def enterW3 (s : State) (r : RegionId) : State :=
  let c := s.ctl r
  let bs := (saveArea r c s.fclock s.fresh).1
  let s := s.useFresh 1
  let stay (s : State) : State :=
    (s.updCtl r fun c => { c with power := 2 }).updPart c.part fun p => { p with pwrbase := p.pwrbase ||| 2 }
  match storeBytes s (hubCtx c.part .s) (w3Va (s.part c.part) r) bs.length bs with
  | .ok none s => s.updCtl r fun c => { c with power := 3, savedHash := shake256 bs }
  | .ok (some _) s => stay s
  | .trap _ _ => stay s
  | .wait => s

/-- Has 2^SYSCFG.IDLE fc passed since t (R374)? -/
def idleOver (s : State) (t : Word) : Bool := t.toNat + 2 ^ (s.syscfg.extractLsb' 21 5).toNat ≤ s.fclock.toNat

/-- Since when a free cluster is free: since reset when no region has left it. -/
def freeSince (s : State) (d : DieId) (cl : BitVec 7) : Word := (((s.die d).freeAt.find? (·.1 == cl)).map (·.2)).getD 0

/-- Clusters of a die that no region occupies. -/
def freeClusters (s : State) (d : DieId) : List (BitVec 7) :=
  ((List.range 99).map (BitVec.ofNat 7)).filter fun cl =>
    !(dieRegions s d).any fun r => (s.ctl r).st != .saved && covers (s.ctl r) (cl.toNat / 11) (cl.toNat % 11)

/-- The clusters of a die that have been free for the interval enter W3, whatever any LATTOL holds (R374). -/
def sleepClusters (s : State) (d : DieId) : State :=
  s.updDie d fun x => { x with asleep := (freeClusters s d).filter fun cl => x.asleep.contains cl || idleOver s (freeSince s d cl) }

/-- The power state of a cluster of a die (R373): its die's, that of the region it is part of, or its own while free. -/
def clusterPower (s : State) (d : DieId) (cl : BitVec 7) : Nat :=
  if (s.die d).w4 then 4
  else match (dieRegions s d).find? fun r => (s.ctl r).st != .saved && covers (s.ctl r) (cl.toNat / 11) (cl.toNat % 11) with
    | some r => (s.ctl r).power
    | none => if (s.die d).asleep.contains cl then 3 else 0

/-- IDLE_ENTRY: an idle region's interval starts, and at its end the region enters its power state; so do the free clusters of its
die (R374). -/
def execIdleEntry (r : RegionId) (s : State) : Out :=
  let s := sleepClusters s (dieOfRegion r)
  let c := s.ctl r
  if !regionIdle s r || c.power ≠ 0 then .next s
  else match c.idleSince with
    | none => .next (s.updCtl r fun c => { c with idleSince := some s.fclock })
    | some t =>
      if !idleOver s t then .next s
      else match powerTarget s r with
        | 3 => .next (enterW3 s r)
        | k => .next (s.updCtl r fun c => { c with power := k })

/-- REGION_WAKE (R375). -/
def execRegionWake (r : RegionId) (s : State) : Out := .next (wakeRegion s r)

/-- Does a partition tolerate W4's exit on a die where it owns a queue, one whose OWNER names it (Table 24-2), or an SQ core? OWNER of
a queue that nobody has set reads 0, and partition 0 owns it as long as it exists. -/
def toleratesW4 (s : State) (d : DieId) (p : PartId) : Bool :=
  let ownsQueue := (s.part p).st != .absent && (s.die d).queues.toList.any fun q => q.owner == p
  let ownsCore := (coresOf s p).any fun c => dieOfCore c == some d
  !(ownsQueue || ownsCore) || 5000 ≤ ((s.part p).lattol.extractLsb' 0 32).toNat

/-- The conditions of R376. A core that SQCTL.STOP has stopped is not halted (R198). -/
def dieW4Ready (s : State) (d : DieId) : Bool :=
  ((List.range 9).all fun i => (List.range 11).all fun j => clusterFree s d i j) &&
    (s.die d).queues.toList.all (·.bids.isEmpty) &&
    ((List.range 16).all fun i => match (s.core (.sq (d ++ BitVec.ofNat 4 i))).run with
      | .held | .halted => true | _ => false) &&
    (List.range 16).all fun p => toleratesW4 s d (BitVec.ofNat 4 p)

/-- DIE_W4_ENTRY (R376). -/
def execDieW4Entry (d : DieId) (s : State) : Out :=
  .next (if dieW4Ready s d then s.updDie d fun x => { x with w4 := true } else s)

/-- Partitions whose regions occupy a cluster. -/
def clusterOwners (s : State) (d : DieId) (cl : BitVec 7) : List PartId :=
  ((dieRegions s d).filter fun r => (s.ctl r).st != .saved && covers (s.ctl r) (cl.toNat / 11) (cl.toNat % 11)).map fun r => (s.ctl r).part

/-- THERMAL_LIMIT: a cluster reaches its limit: it slows down, and THERMAL becomes pending (R356, R377). -/
def execThermalLimit (d : DieId) (cl : BitVec 7) (s : State) : Out :=
  if 98 < cl.toNat || (s.die d).limited.contains cl then .next s
  else
    let s := s.updDie d fun x => { x with limited := cl :: x.limited }
    .next ((clusterOwners s d cl).foldl (fun s p => s.updPart p fun q =>
      { q with thermal := q.thermal.orElse fun _ => some (d ++ 0#1 ++ cl) }) s)

/-- THERMAL_COOL (R377). -/
def execThermalCool (d : DieId) (cl : BitVec 7) (s : State) : Out :=
  .next (s.updDie d fun x => { x with limited := x.limited.filter (· != cl) })

/-- One more droop event of a cluster, saturating. -/
def bumpDroop (l : List (BitVec 7 × BitVec 32)) (cl : BitVec 7) : List (BitVec 7 × BitVec 32) :=
  if (l.any fun (e : BitVec 7 × BitVec 32) => e.1 == cl) then
    l.map fun (e : BitVec 7 × BitVec 32) => if e.1 == cl && e.2 != 0xFFFFFFFF#32 then (e.1, e.2 + 1) else e
  else (cl, 1) :: l

/-- DROOP_EVENT: the cluster's count of droop events, saturating (Table 24-7). -/
def execDroopEvent (d : DieId) (cl : BitVec 7) (s : State) : Out :=
  if 98 < cl.toNat then .next s else .next (s.updDie d fun x => { x with droop := bumpDroop x.droop cl })

end Sys2Proof.Machine
end

