-- ==== Sys2Proof/Machine/Events.lean ====
section
/-!
DEFINITION. Events of regions, of the fault queue, of the home directory and of the debug unit: quiescence (R37), hangs
(R39, R345), configuration-store errors (R346), deferred PFQ writes (R336), page walks (R85), home requests, merges and
agent death (R90 to R92), precise stops, DBGLIST and trace writes (R382 to R384).
-/

namespace Sys2Proof.Machine

open Sys2Proof

/-! ### Quiescence (R37, R311) -/

/-- Every SINK has reported, and no DELTA node keeps the region from quiescence. -/
def sinksReported (s : State) (r : RegionId) : Bool :=
  match (s.ctl r).cfg with
  | none => false
  | some g => !g.has 0x80 && g.nodes.all fun x =>
      x.word.extractLsb' 0 8 != 0x5E#8 || (nodeSt (s.fab r) x.row x.col x.slot).reported

def quiescent (s : State) (r : RegionId) : Bool :=
  regionGoing s r && (s.ctl r).heldStore.isNone && fabricQuiet (s.fab r) && !streamsOut s r && !constsLeft s r && sinksReported s r

/-- REGION_QUIESCENCE: once the fc in which the region became quiescent is over, the RC stores 1 to the completion word and the region
enters IDLE: a kill in that fc finds it RUNNING yet, and wins (R37, R362). A completion store that waits for a merger entry, a locked
line or a link, and the end of a kill, are tried again. -/
def execRegionQuiescence (r : RegionId) (s : State) : Out :=
  match (s.ctl r).heldStore with
  | some (v, 0, _) => .next (finalStore s r v)
  | some _ => .next s
  | none =>
    if (s.ctl r).killing.isSome then .next (killDone s r)
    else if !quiescent s r then .next (s.updCtl r fun c => { c with quietAt := none })
    else match (s.ctl r).quietAt with
      | none => .next (s.updCtl r fun c => { c with quietAt := some s.fclock })
      | some t => .next (if t.toNat < s.fclock.toNat then finalStore s r 1 else s)

/-! ### Hangs (R39, R345, Table 21-8) -/

/-- Tokens that a region holds (Table 21-8), operands of accesses that have not performed among them; an entry that a command or an
access has reserved and not filled holds none. -/
def heldTokens (f : Fabric) : Nat :=
  f.outq.countP (!·.deps.isEmpty) + (f.accs.map (·.ops.length)).sum + f.links.length + f.waiting.length + f.edge.length + f.parkArea.length + (f.parkTab.map (·.ops.length)).sum +
    f.arrayq.length + (f.nodes.map fun x => x.pend.length + x.held.length + (x.ctrs.map (·.held.length)).sum +
      (x.keys.map (·.held.length)).sum).sum

/-- A tile record of the map. -/
def mapTile (f : Fabric) (row col : Nat) : List Byte :=
  let rw : BitVec 5 := BitVec.ofNat 5 row
  let cl : BitVec 6 := BitVec.ofNat 6 col
  let ms := f.waiting.countP fun w => !w.spilled && w.tok.drow == rw && w.tok.dcol == cl
  let q (slot : Nat) : Nat := min 15 (outCount f rw cl (BitVec.ofNat 6 slot))
  natBytes 1 row ++ natBytes 1 col ++ ([Dir.n, .e, .s, .w].flatMap fun d => natBytes 1 (linkCount f rw cl d)) ++
    natBytes 2 ms ++ natBytes 4 (sprueUsed f rw cl) ++ natBytes 1 (tileCmds f rw cl).length ++ natBytes 3 0 ++
    ((List.range 32).flatMap fun k => natBytes 1 (q (2 * k) + 16 * q (2 * k + 1))) ++ natBytes 16 0

/-- The channel-occupancy map of a region (Table 21-8). -/
def hangMap (s : State) (r : RegionId) : List Byte :=
  let c := s.ctl r
  let f := s.fab r
  let rows := 3 * c.crows
  let cols := 3 * c.ccols
  natBytes 1 r.toNat ++ natBytes 1 c.crows ++ natBytes 1 c.ccols ++ natBytes 1 0 ++ natBytes 4 (rows * cols) ++
    natBytes 8 s.fclock.toNat ++ natBytes 8 (heldTokens f) ++ natBytes 4 (parkCount f) ++ natBytes 36 0 ++
    (List.range rows).flatMap fun i => (List.range cols).flatMap fun j => mapTile f i j

/-- Writes the map when HANGBASE.EN is 1; a fault sets ERR, a locked line makes it wait. The map's VA, 0 when none is written. -/
def writeHangMap (s : State) (r : RegionId) : MRes Word :=
  let p := (s.ctl r).part
  let hb := (s.part p).hangbase
  if !hb.getLsbD 0 then .ok 0 s
  else
    let va := (hb &&& 0x000FFFFFFFC00000) + BitVec.ofNat 64 (65536 * r.toNat)
    let bs := hangMap s r
    let err (s : State) : State := s.updPart p fun q => { q with hangbase := q.hangbase ||| 2 }
    match storeBytes s (hubCtx p .s) va bs.length bs with
    | .ok none s => .ok va s
    | .ok (some _) s => .ok va (err s)
    | .trap _ _ => .ok va (err s)
    | .wait => .wait

/-- Does a region hang: it holds a token and has done nothing for the interval (R39, R345), or its replay has used no entry within it
(R390)? -/
def hangs (s : State) (r : RegionId) : Bool :=
  let past (t : Word) : Bool := t.toNat + 2 ^ max 10 (s.syscfg.extractLsb' 10 5).toNat ≤ s.fclock.toNat
  regionGoing s r && (heldTokens (s.fab r) != 0 && past (s.ctl r).lastFire || (s.dbg r).replay.isSome && past (s.dbg r).replayAt)

/-- HANG_TIMEOUT: a region that hangs freezes (R345, R390). -/
def execHangTimeout (r : RegionId) (s : State) : Out :=
  if hangs s r then
    match writeHangMap s r with
    | .ok va s => .next (freeze s r cHANG va)
    | .trap _ _ | .wait => .next s
  else .next s

/-! ### Configuration-store errors (R346) -/

/-- CFG_STORE_UE: the region wakes (R375), and the configuration is re-read; a mismatch, a fault, or a second error on the tile within
2^26 fc freezes it. An image under a lock makes the error stay to be handled. -/
def execCfgStoreUe (t : TileAt) (s : State) : Out :=
  let s := if (s.ctl t.r).st = .running then wakeRegion s t.r else s
  let c := s.ctl t.r
  match c.st, c.cfg with
  | .running, some g =>
    if c.power ≠ 0 then .next s
    else
    let (row, col) := dieTile c t.row t.col
    let die := dieOfRegion t.r
    let again := (s.die die).ueLast.any fun e => e.1 == row && e.2.1 == col && s.fclock.toNat ≤ e.2.2.toNat + 2 ^ 26
    let note (s : State) : State := s.updDie die fun d => { d with
      ueLast := (row, col, s.fclock) :: d.ueLast.filter fun e => !(e.1 == row && e.2.1 == col) }
    if again then .next (freeze (note s) t.r cCFG_UE 0)
    else match reread s (hubCtx c.part c.cwLvl) c.imageVA c.cfgIdx g.rsig with
      | .ok ok s => .next (if ok then note s else freeze (note s) t.r cCFG_UE 0)
      | .trap _ _ => .next (freeze (note s) t.r cCFG_UE 0)
      | .wait => .next s
  | _, _ => .next s

/-! ### The fault queue and translations -/

/-- PFQ_DEFERRED_WRITE: the earliest entry kept in an RC is written once there is room (R336). -/
def execPfqDeferredWrite (p : PartId) (s : State) : Out :=
  match (s.part p).deferred with
  | [] => .next s
  | (id, ws) :: rest =>
    let (res, s) := pfqWrite s p id ws
    .next (if res = .done then s.updPart p fun q => { q with deferred := rest } else s)

/-- PAGE_WALK: an agent walks the tables for an access and caches what it finds, an MT of a fused L1 in its own cache: the first MT
stands for all (R85, R86, Table 1-2). -/
def execPageWalk (g : Agent) (p : PartId) (va : Word) (acc : Access) (lvl : Level) (s : State) : Out :=
  match translate s ⟨some p, g, lvl, none, false, false, [], mtCache g 1 1⟩ acc va with
  | .ok _ s => .next s
  | .trap _ _ | .wait => .next s

/-! ### The home directory (R90 to R92) -/

def incarnationOf (ms : MemSys) (g : Agent) : BitVec 16 := ((ms.incarnation.find? (·.1 == g)).map (·.2)).getD 0

/-- The partition whose id an agent's requests carry. -/
def agentPart (s : State) : Agent → Option PartId
  | .coreD c | .coreI c => (s.core c).part
  | .fused r => some (s.ctl r).part
  | .cluster d k => ((dieRegions s d).find? fun r => covers (s.ctl r) (k.toNat / 11) (k.toNat % 11)).map fun r => (s.ctl r).part
  | .hub => none

/-- Does an agent hold a copy of a line that home could recall? -/
def holdsLine (ms : MemSys) (g : Agent) (pa : Nat) : Bool :=
  ms.dir.any fun e => dirCovers e pa && match e.st with | .sh l => l.contains g | .ow a => a == g

/-- An agent gives a line up, its answer to a recall or of its own accord: it leaves the entry, and what its caches hold of the line
goes (Table 5-7). -/
def evictLine (s : State) (g : Agent) (line : Nat) : State :=
  let s := s.updMs fun ms => dirDrop g (128 * line) (flushSLine ms line g)
  match g with
  | .coreI c => s.updCore c fun x => { x with icache := x.icache.filter fun w => lineOf w.1 != line }
  | .coreD _ | .cluster _ _ | .fused _ | .hub => s

/-- What makes home discard a request for a line and log it: an older incarnation; an erased key of the partition whose id it carries,
whatever its agent has become (R92, R401). -/
def discards (s : State) (g : Agent) (req : HomeReq) : Option (BitVec 8) :=
  if req.incarnation != incarnationOf s.ms g then some 0x70
  else if !(s.part req.part).keyed then some cKEY_FAULT
  else none

/-- Does a request ask for the data of a line that is poisoned or whose MAC does not match? It gets the cause in their place, and no copy
(R92, R400; log 66). -/
def badData (s : State) (line : Nat) (req : HomeReq) : Bool := match req.kind with
  | .read | .write => (lineFault s (hubCtx req.part .s) [line]).isSome
  | .evict | .capacity | .recall => false

/-- HOME_REQUEST: a request of an agent for a D-line, or home's recall of it (R90, R92, R401). A request for a locked line, or behind
another agent's unanswered recall, waits (R99; log 66). -/
def execHomeRequest (g : Agent) (line : Nat) (req : HomeReq) (s : State) : Out :=
  let pa := line * 128
  if peerBase ≤ pa || g == .hub then .next s
  else match discards s g req with
  | some code => .next (s.updPorts fun h => { h with rasLog := h.rasLog ++ [⟨code, BitVec.ofNat 64 pa⟩] })
  | none =>
    if badData s line req then .next s
    else
    let locked := s.ms.locks.any (·.1 = line)
    let held := locked || s.ms.recalls.any fun x => x.2.1 == line && x.1 != g
    match req.kind with
    | .read => .next (if held then s else s.updMs (dirRead (some g) pa s.fclock))
    | .write => .next (if held then s else s.updMs (dirWrite (some g) pa s.fclock))
    | .evict => .next (if locked then s else evictLine s g line)
    | .capacity => .next (if held then s else s.updMs fun ms => { ms with dir := ms.dir.filter fun e => !dirCovers e pa })
    | .recall => .next (if holdsLine s.ms g pa && !s.ms.recalls.any (fun x => x.1 == g && x.2.1 == line) then
        s.updMs fun ms => { ms with recalls := ms.recalls ++ [(g, line, s.fclock)] } else s)

/-- What the parent of two siblings takes (R91); none when it cannot be represented. -/
def mergeStates : Option DirState → Option DirState → Option DirState
  | some (.sh a), some (.sh b) => some (.sh (a ++ b.filter fun x => !a.contains x))
  | some (.ow a), some (.ow b) => if a = b then some (.ow a) else none
  | some x, none => some x
  | none, some x => some x
  | _, _ => none

/-- DIRECTORY_MERGE: two siblings of one size that have been quiet merge into their parent (R91). -/
def execDirectoryMerge (base size : Nat) (s : State) : Out :=
  let exact (b : Nat) : Option DirEntry := s.ms.dir.find? fun e => e.base = b && e.size = size
  let split (b : Nat) : Bool := (exact b).isNone && s.ms.dir.any fun e => rangesMeet e.base e.size b size
  let sizes := (List.range 9).map fun k => 128 * 2 ^ k
  let quiet (e : Option DirEntry) : Bool := match e with
    | some e => decide (e.since.toNat + 2 ^ (s.syscfg.extractLsb' 0 5).toNat ≤ s.fclock.toNat)
    | none => true
  let l := exact base
  let h := exact (base + size)
  if !sizes.contains size || base % (2 * size) ≠ 0 || split base || split (base + size) || !quiet l || !quiet h then .next s
  else match mergeStates (l.map (·.st)) (h.map (·.st)) with
    | none => .next s
    | some st =>
      let since : Word := BitVec.ofNat 64 (max ((l.map (·.since.toNat)).getD 0) ((h.map (·.since.toNat)).getD 0))
      .next (s.updMs fun ms => { ms with
        dir := ⟨base, 2 * size, st, since⟩ :: ms.dir.filter fun e => !rangesMeet e.base e.size base (2 * size) })

/-- Lines of a directory entry. -/
def entryLines (e : DirEntry) : List Nat := (List.range (e.size / 128)).map (e.base / 128 + ·)

/-- A MWCAS of a dead agent: with no commit sent its locks are released and it has no event; with some but not all sent the
partition stops (R103, R106). -/
def dropMwcas (s : State) (m : Mwcas) (o : MwOwner) : State :=
  if m.committed = 0 then
    let s := mwDrop s m
    match o with
    | .core c _ => s.updCore c fun x => if x.run = .mwcas m.op then { x with run := .running } else x
    | .node r k => s.updFab r fun f =>
        { f with accs := f.accs.map fun (a : Acc) => if a.id = k then { a with mwcas := none, pieces := [] } else a }
  else if m.commits.isEmpty then s
  else mcheckStop s m.part

/-- What home does when an agent is declared dead (R92): it rejoins with empty caches. -/
def agentDead (s : State) (g : Agent) : State :=
  let s := (s.ms.mwcas.filter (·.1.agent == g)).foldl (fun s x => dropMwcas s x.1 x.2) s
  let s := match g with
    | .coreI c => s.updCore c fun x => { x with icache := [] }
    | .coreD _ | .cluster _ _ | .fused _ | .hub => s
  s.updMs fun ms =>
    let owned := (ms.dir.filter fun e => e.st == .ow g).flatMap entryLines
    let ms := dirForget g { ms with poison := (ms.poison ++ owned).dedup }
    { ms with
      slines := ms.slines.filter (·.agent != g)
      tlb := ms.tlb.filter (·.agent != g)
      recalls := ms.recalls.filter (·.1 != g)
      incarnation := (g, incarnationOf ms g + 1) :: ms.incarnation.filter (·.1 != g) }

/-- Has an agent left a recall unanswered for 2^RECTO fc (R92, Table 5-8)? -/
def recallOverdue (s : State) (g : Agent) : Bool :=
  s.ms.recalls.any fun x => x.1 == g && decide (x.2.2.toNat + 2 ^ (s.syscfg.extractLsb' 5 5).toNat ≤ s.fclock.toNat)

/-- RECALL_TIMEOUT: an agent has not answered a recall in time and is declared dead (R92). -/
def execRecallTimeout (g : Agent) (s : State) : Out := .next (if recallOverdue s g then agentDead s g else s)

/-- AGENT_DEATH: a RAS event or the partition monitor retires an agent (R92). -/
def execAgentDeath (g : Agent) (s : State) : Out := .next (if g = .hub then s else agentDead s g)

/-- PARTITION_MCHECK_STOP (R332). -/
def execPartitionMcheckStop (p : PartId) (s : State) : Out :=
  .next (if (s.part p).st = .running then mcheckStop s p else s)

/-! ### Precise stop, DBGLIST and trace (R382 to R384) -/

/-- PRECISE_STOP_COMPLETE: tokens at their tiles are delivered and accesses performed, but for those that the stop itself holds back:
STOPPED reads 1. -/
def execPreciseStopComplete (r : RegionId) (s : State) : Out :=
  let f := s.fab r
  if (s.dbg r).stop = .stopping && !f.links.any (fun l => (nextHop l.row.toNat l.col.toNat l.dest).isNone) && f.accs.all (stuckAcc s f) then
    .next (trace (s.updDbg r fun d => { d with stop := .stopped }) r 0 0 0 0 0 6 0 none)
  else .next s

/-- Operand tokens of a region with WHERE of Table 25-3. -/
def listTokens (f : Fabric) : List (Nat × Token) :=
  (f.waiting.map fun w => (if w.spilled then 1 else 0, w.tok)) ++ (f.parkArea.map fun p => (if p.debug then 3 else 2, p.tok)) ++
    f.parkTab.flatMap fun p => p.ops.map fun t => (2, t.tok)

/-- The order of DBGLIST: tile, slot, port, CTX, ITER. -/
def listKey (t : Token) : List Nat := [t.drow.toNat, t.dcol.toNat, t.node.toNat, t.port.toNat, t.ctx.toNat, t.iter.toNat]

def keyLe : List Nat → List Nat → Bool
  | a :: as, b :: bs => if a = b then keyLe as bs else a < b
  | _, _ => true

/-- A record (Table 25-3). -/
def listRecord (x : Nat × Token) : List Byte :=
  wordsBytes [x.2.tag, BitVec.ofNat 64 (x.1 * 65536) ||| x.2.desc.zeroExtend 64, x.2.payload.extractLsb' 0 64, 0]

/-- Writes the records one after another: how many, and whether one faulted. -/
def writeRecords (s : State) (x : Ctx) (va : Word) (k : Nat) : List (List Byte) → MRes (Nat × Bool)
  | [] => .ok (k, false) s
  | b :: bs => match storeBytes s x va b.length b with
    | .ok none s => writeRecords s x (va + 32) (k + 1) bs
    | .ok (some _) s => .ok (k, true) s
    | .trap _ _ => .ok (k, true) s
    | .wait => .wait

/-- DBGLIST_COMPLETE (R383): a locked line of the buffer makes the list wait; ERR of a GO refused meanwhile stays. -/
def execDbglistComplete (r : RegionId) (s : State) : Out :=
  let d := s.dbg r
  if !d.listing then .next s
  else
    let all := (sortBy (fun a b => keyLe (listKey a.2) (listKey b.2)) (listTokens (s.fab r))).map listRecord
    let cap := 128 * ((d.fglist.extractLsb' 1 11).toNat + 1)
    match writeRecords s (hubCtx (s.ctl r).part .s) (d.fglist &&& 0x000FFFFFFFFFF000) 0 (all.take cap) with
    | .ok (n, err) s => .next (s.updDbg r fun d => { d with
        listing := false, listDone := true, listErr := d.listErr || err, listOvf := decide (cap < all.length)
        listCount := BitVec.ofNat 32 n })
    | .trap _ _ | .wait => .next s

/-- Counts a record dropped, saturating. -/
def dropCount (p : Partition) : Partition :=
  { p with fgtrcnt := if p.fgtrcnt.extractLsb' 40 24 == 0xFFFFFF#24 then p.fgtrcnt else p.fgtrcnt + 0x10000000000 }

/-- TRACE_RECORD_WRITE: the earliest record is written into the ring within 64 fc of its event; one that faults is dropped, one whose
line is locked waits (R384). -/
def execTraceRecordWrite (p : PartId) (s : State) : Out :=
  let q := s.part p
  match q.traceq with
  | [] => .next s
  | (t, ws) :: rest =>
    if t.toNat + 64 < s.fclock.toNat then .next s
    else
      let s0 := s
      let s := s.updPart p fun q => { q with traceq := rest }
      let idx := (q.fgtrcnt.extractLsb' 0 40).toNat
      let n := (q.fgtrace.extractLsb' 1 5).toNat
      let va := (q.fgtrace &&& 0x000FFFFFFFFFF000) + BitVec.ofNat 64 (32 * (idx % 2 ^ n))
      if !traceOn q then .next (s.updPart p dropCount)
      else match storeWords s p va ws with
        | .ok none s => .next (s.updPart p fun q => { q with
            fgtrcnt := (q.fgtrcnt &&& 0xFFFFFF0000000000) ||| BitVec.ofNat 64 ((idx + 1) % 2 ^ 40) })
        | .ok (some _) s => .next (s.updPart p dropCount)
        | .trap _ _ => .next (s.updPart p dropCount)
        | .wait => .next s0

/-- TRACE_RECORD_DROP: a record older than 64 fc is dropped and counted (R384). -/
def execTraceRecordDrop (p : PartId) (s : State) : Out :=
  match (s.part p).traceq with
  | [] => .next s
  | (t, _) :: rest =>
    if t.toNat + 64 < s.fclock.toNat then .next (s.updPart p fun q => dropCount { q with traceq := rest }) else .next s

end Sys2Proof.Machine
end

