-- ==== Sys2Proof/Machine/Host.lean ====
section
/-!
DEFINITION. The device's boundary (26_system.md R395 to R407, 25_debug.md R394): the virtual functions' BAR, TDISP and SPDM, the
links, the storage port, power-on, and the life of a partition.
-/

namespace Sys2Proof.Machine

open Sys2Proof

/-! ### The virtual functions' BAR (R395, R396) -/

/-- Virtual function p exists while partition p does. -/
def vfExists (s : State) (p : PartId) : Bool := (s.part p).st != .absent

/-- An SPDM session of a function that has finished its handshake. -/
def sessionUp (s : State) (fn : SpdmFn) : Bool := s.ports.sessions.any fun e => e.1 == fn && e.2 != 0

/-- Is a request served that comes over the function's IDE stream, or not? -/
def vfServed (s : State) (p : PartId) (ide : Bool) : Bool :=
  vfExists s p && ide && sessionUp s (.vf p) && (s.part p).tdisp == .run

/-- A message to the host. -/
def toHost (s : State) (m : HostMsg) : State := s.updPorts fun h => { h with hostOut := h.hostOut ++ [m] }

/-- A write of DOORBELL: HOSTEVENT becomes pending, once (R193, R396). -/
def ringDoorbell (s : State) (p : PartId) : State := s.updPart p fun q => { q with hostEvent := true }

/-- Context of a window access: U level, an agent that keeps no copies (R294, R396). -/
def hostCtx (p : PartId) : Ctx := hubCtx p .u

/-- Writes to the window of a partition that wait (R99), and behind them writes of DOORBELL, which carry no bytes here. -/
def winWaiting (s : State) (p : PartId) : List (Word × List Byte) := (s.ports.winQueue.filter (·.1 == p)).map (·.2)

def setWinQueue (s : State) (p : PartId) (l : List (Word × List Byte)) : State :=
  s.updPorts fun h => { h with winQueue := h.winQueue.filter (·.1 != p) ++ l.map (p, ·) }

/-- Makes waiting writes of a partition's window in order, as far as no lock holds one back: a doorbell write comes after every earlier
window write (R396). A write that faults writes nothing and completes poisoned. -/
def winGo (p : PartId) (s : State) : List (Word × List Byte) → State
  | [] => setWinQueue s p []
  | (va, bs) :: rest =>
    if bs.isEmpty then winGo p (toHost (ringDoorbell s p) (.done p)) rest
    else match storeBytes s (hostCtx p) va bs.length bs with
      | .ok none t => winGo p (toHost t (.done p)) rest
      | .ok (some _) _ | .trap _ _ => winGo p (toHost s (.poisoned p)) rest
      | .wait => setWinQueue s p ((va, bs) :: rest)

/-- A write of the host joins those that wait, which are then tried again (log 20). -/
def winWrite (s : State) (p : PartId) (va : Word) (bs : List Byte) : State := winGo p s (winWaiting s p ++ [(va, bs)])

/-- DOORBELL (R396). -/
def execDoorbell (p : PartId) (s : State) : Out :=
  .next (if vfServed s p true then winWrite s p 0 [] else toHost s (.unsupported p))

/-- STATE (Table 26-1). -/
def stateValue (q : Partition) : Nat := match q.st with | .running => 0 | .stopped => 1 | .absent | .destroying => 2

/-- Byte i of the BAR's registers; offsets that Table 26-1 does not list, and DOORBELL, read as free bytes. -/
def barByte (s : State) (p : PartId) (i : Nat) : Byte :=
  if 8 ≤ i && i < 16 then BitVec.ofNat 8 ((s.part p).winbase.toNat / 256 ^ (i - 8))
  else if 16 ≤ i && i < 24 then BitVec.ofNat 8 (stateValue (s.part p) / 256 ^ (i - 16))
  else Config.freeByte (s.fresh + i)

/-- Writes byte i of WINBASE: bits [51:12] are held, the others are 0. -/
def setWinbase (w : Word) (i : Nat) (b : Byte) : Word :=
  ((w &&& ~~~(0xFF#64 <<< (8 * i))) ||| (b.zeroExtend 64 <<< (8 * i))) &&& 0x000FFFFFFFFFF000

/-- Writes bytes to the BAR's registers; STATE and unlisted offsets keep what they hold. The write completes with that of DOORBELL when
it reaches it. -/
def barWrite (s : State) (p : PartId) (off : Nat) (bs : List Byte) : State :=
  let s := bs.zipIdx.foldl (fun s (b, k) =>
    if 8 ≤ off + k && off + k < 16 then s.updPart p fun q => { q with winbase := setWinbase q.winbase (off + k - 8) b } else s) s
  if off < 8 && !bs.isEmpty then winWrite s p 0 [] else toHost s (.done p)

/-- A request to the window: a fault completes it poisoned with nothing written; a read waits for the writes before it. -/
def windowAccess (s : State) (p : PartId) (q : HostReq) : Out :=
  let va := (s.part p).winbase + (q.off.zeroExtend 64 - 0x1000)
  if q.write then .next (if q.data.isEmpty then toHost s (.done p) else winWrite s p va q.data)
  else
    let s := winGo p s (winWaiting s p)
    if !(winWaiting s p).isEmpty then .next s
    else match loadBytes s (hostCtx p) va q.len.toNat with
    | .ok bs t => .next (toHost t (.data p bs))
    | .trap _ _ => .next (toHost s (.poisoned p))
    | .wait => .next s

/-- Bytes of a request. -/
def hostReqSize (q : HostReq) : Nat := if q.write then q.data.length else q.len.toNat

/-- A read of STATE: served in every TDISP state, over the IDE stream where one is established (R395). -/
def stateRead (s : State) (p : PartId) (q : HostReq) : Bool :=
  !q.write && 16 ≤ q.off.toNat && q.off.toNat + hostReqSize q ≤ 24 && vfExists s p && q.ide == sessionUp s (.vf p)

/-- HOST_WINDOW_ACCESS: a request to a virtual function's BAR. One that crosses a 4 KiB boundary is no PCIe request. -/
def execHostWindowAccess (p : PartId) (q : HostReq) (s : State) : Out :=
  let off := q.off.toNat
  if 4096 < off % 4096 + hostReqSize q || !(vfServed s p q.ide || stateRead s p q) then .next (toHost s (.unsupported p))
  else if 0x1000 ≤ off then windowAccess s p q
  else if q.write then .next (barWrite s p off q.data)
  else .next (toHost (s.useFresh 4096) (.data p ((List.range (hostReqSize q)).map fun k => barByte s p (off + k))))

/-! ### TDISP and SPDM (R395, R397 to R399) -/

/-- A response of the security processor. -/
def respond (s : State) (r : SpdmResp) : State := s.updPorts fun h => { h with spdmOut := h.spdmOut ++ [r] }

/-- SPDM ERROR (response code 0x7F). -/
def spdmError (s : State) (fn : SpdmFn) : Out := .next (respond s ⟨fn, 0x7F, true, none, []⟩)

/-- Does a function exist? The physical one does once the device is up. -/
def fnExists (s : State) : SpdmFn → Bool
  | .pf => s.booted
  | .vf p => s.booted && vfExists s p

/-- A message to a function that does not exist is not answered. -/
def onFn (s : State) (fn : SpdmFn) (k : Out) : Out := if fnExists s fn then k else .next s

/-- Words of a response that the specification leaves to SPDM. -/
def freeReply (s : State) : List Word := (List.range 8).map fun i => Config.freeWord (s.fresh + i)

/-- A plain response with its code. -/
def reply (s : State) (fn : SpdmFn) (code : BitVec 8) : Out :=
  .next (respond (s.useFresh 8) ⟨fn, code, false, none, freeReply s⟩)

/-- One-time keys of a device: 2^20 (R397). -/
def sigLimit : Nat := 2 ^ 20

/-- A signed response: the counter advances before the signature leaves, and past the last key the answer is ERROR (R398). -/
def signed (s : State) (fn : SpdmFn) (code : BitVec 8) (data : List Word) : Out :=
  if sigLimit ≤ s.ports.sigIndex then spdmError s fn
  else
    let k := s.ports.sigIndex
    let s := s.updPorts fun h => { h with sigIndex := k + 1 }
    .next (respond (s.useFresh 8) ⟨fn, code, false, some k, data⟩)

/-- Extends a measurement register with bytes, under SHAKE256 (R402). -/
def extendWith (m : List Word) (b : List Byte) : List Word :=
  let h := shake256 (wordsBytes m ++ b)
  (List.range 4).map fun i => h.extractLsb' (64 * i) 64

/-- Extends a measurement register with something the specification does not give. -/
def extendFree (s : State) (m : List Word) : List Word :=
  extendWith m ((List.range 32).map fun i => Config.freeByte (s.fresh + i))

def tdispCode : TdispState → Word | .unlocked => 0 | .locked => 1 | .run => 2 | .error => 3

/-- TDISP's answer: its response code and the interface's state. -/
def tdispReply (s : State) (p : PartId) (code : BitVec 8) : Out :=
  .next (respond s ⟨.vf p, code, false, none, [tdispCode (s.part p).tdisp]⟩)

def setTdisp (s : State) (p : PartId) (t : TdispState) : State := s.updPart p fun q => { q with tdisp := t }

/-- Fills an image-key slot; the slots are measured (R399). -/
def fillSlot (slot : BitVec 4) (root : List Byte) (q : Partition) : Partition :=
  { q with
    keySlots := (slot, root) :: q.keySlots.filter (·.1 != slot)
    measured := extendWith q.measured (slot.zeroExtend 8 :: root) }

/-- TDISP_MESSAGE: the interface's messages, within its session (R395, R399; log 20). -/
def execTdispMessage (p : PartId) (q : TdispMsg) (s : State) : Out :=
  onFn s (.vf p) <|
    if !sessionUp s (.vf p) then spdmError s (.vf p)
    else match q, (s.part p).tdisp with
      | .getState, _ => tdispReply s p 0x05
      | .lock, .unlocked => tdispReply (setTdisp s p .locked) p 0x03
      | .start, .locked => tdispReply (setTdisp s p .run) p 0x06
      | .stop, _ => tdispReply (setTdisp s p .unlocked) p 0x07
      | .fillKey slot root, _ => tdispReply (s.updPart p (fillSlot slot root)) p 0x10
      | .lock, _ | .start, _ => spdmError s (.vf p)

/-- GET_VERSION (R397). -/
def execGetVersion (fn : SpdmFn) (_req : List Byte) (s : State) : Out := onFn s fn <| reply s fn 0x04

/-- GET_CAPABILITIES (R397). -/
def execGetCapabilities (fn : SpdmFn) (_req : List Byte) (s : State) : Out := onFn s fn <| reply s fn 0x61

/-- NEGOTIATE_ALGORITHMS (R397). -/
def execNegotiateAlgorithms (fn : SpdmFn) (_req : List Byte) (s : State) : Out := onFn s fn <| reply s fn 0x63

/-- GET_DIGESTS (R397). -/
def execGetDigests (fn : SpdmFn) (_req : List Byte) (s : State) : Out := onFn s fn <| reply s fn 0x01

/-- GET_CERTIFICATE (R397). -/
def execGetCertificate (fn : SpdmFn) (_req : List Byte) (s : State) : Out := onFn s fn <| reply s fn 0x02

/-- CHALLENGE (R398): always signed. -/
def execChallenge (fn : SpdmFn) (_req : List Byte) (s : State) : Out := onFn s fn <| signed s fn 0x03 (freeReply s)

/-- Measurements that a function reports: a partition's only through its own interface (R402). -/
def measuredOf (s : State) : SpdmFn → List Word
  | .pf => s.ports.measured
  | .vf p => (s.part p).measured

/-- GET_MEASUREMENTS (R402): signed when the request asks for it (bit 0 of its third byte). -/
def execGetMeasurements (fn : SpdmFn) (req : List Byte) (s : State) : Out :=
  onFn s fn <|
    if (req.getD 2 0).getLsbD 0 then signed s fn 0x60 (measuredOf s fn)
    else .next (respond s ⟨fn, 0x60, false, none, measuredOf s fn⟩)

/-- The generation of a function's session. -/
def sessionGen (s : State) (fn : SpdmFn) : Option Nat := (s.ports.sessions.find? (·.1 == fn)).map (·.2)

/-- Sets, or with none ends, a function's session. -/
def setSession (s : State) (fn : SpdmFn) (g : Option Nat) : State :=
  s.updPorts fun h => { h with sessions := (match g with | some g => [(fn, g)] | none => []) ++ h.sessions.filter (·.1 != fn) }

/-- KEY_EXCHANGE (R397): its response is signed and a handshake begins; ERROR while a session exists. -/
def execKeyExchange (fn : SpdmFn) (_req : List Byte) (s : State) : Out :=
  onFn s fn <|
    if (sessionGen s fn).isSome || sigLimit ≤ s.ports.sigIndex then spdmError s fn
    else signed (setSession s fn (some 0)) fn 0x64 (freeReply s)

/-- FINISH (R397): the handshake ends and the session is up. -/
def execFinish (fn : SpdmFn) (_req : List Byte) (s : State) : Out :=
  onFn s fn <| if sessionGen s fn = some 0 then reply (setSession s fn (some 1)) fn 0x65 else spdmError s fn

/-- END_SESSION (R397). -/
def execEndSession (fn : SpdmFn) (_req : List Byte) (s : State) : Out :=
  onFn s fn <| if sessionUp s fn then reply (setSession s fn none) fn 0x6C else spdmError s fn

/-! ### Links (R404, R405) -/

def linkOf (s : State) (l : BitVec 4) : Link := s.ms.net.link l

def updLink (s : State) (l : BitVec 4) (f : Link → Link) : State := s.updMs fun ms => { ms with net := ms.net.updLink l f }

/-- The next key of a pair, with SEQ at 0 again. -/
def renewKey (src dst : PartId) (ks : List LinkKey) : List LinkKey := setKey ⟨src, dst, 0, (keyOf ks src dst).gen + 1⟩ ks

/-- KEY_UPDATE: a session's keys, or a pair's link keys, of what this device sends and receives (R397, R404). -/
def execKeyUpdate (tgt : KeyTarget) (s : State) : Out :=
  match tgt with
  | .session fn => onFn s fn <| match sessionGen s fn with
      | some (g + 1) => reply (setSession s fn (some (g + 2))) fn 0x69
      | _ => spdmError s fn
  | .link l src dst => .next (updLink s l fun k => { k with keys := renewKey src dst k.keys, tx := renewKey src dst k.tx })

/-- Does a physical address go over a link? -/
def overLink (s : State) (l : BitVec 4) (pa : Nat) : Bool :=
  isPeer pa && winLink (s.pwinOf (peerWin pa)) == l

/-- Does a range of VAs of a partition go over a link? -/
def rangeOver (s : State) (p : PartId) (l : BitVec 4) (va n : Nat) : Bool :=
  n != 0 && (List.range ((va + n - 1) / 65536 - va / 65536 + 1)).any fun i =>
    (physOf s p (BitVec.ofNat 64 ((va / 65536 + i) * 65536))).any (overLink s l)

/-- Does a COLL use a link: to the member after this device's, or before it? -/
def collOver (s : State) (o : Op) (l : BitVec 4) : Bool :=
  match o.kind with
  | .coll group _ =>
    let x := hubCtx o.part o.lvl
    match loadBytes s x group 16 with
    | .ok g s =>
      match loadBytes s x (group + 16) (4 * leAt g 0 4) with
      | .ok ents s =>
        [1, leAt g 0 4 - 1].any fun k => (ringWin s o.part g ents k).any fun w => winLink (s.pwinOf w) == l
      | .trap _ _ | .wait => false
    | .trap _ _ | .wait => false
  | _ => false

/-- Ranges of VAs that the accesses of an operation go to, now that it is under way: of a stream round, the unit it stands at. -/
def opRanges (s : State) (o : Op) : List (Nat × Nat) :=
  let read (va : Word) (n : Nat) (k : List Byte → List (Nat × Nat)) : List (Nat × Nat) := (va.toNat, n) ::
    match loadBytes s (hubCtx o.part o.lvl) va n with | .ok b _ => k b | .trap _ _ | .wait => []
  match o.kind with
  | .copy dst src len => [(dst.toNat, len.toNat), (src.toNat, len.toNat)]
  | .cmpct desc => read desc 64 fun b =>
      let l := parseLadle b
      if ladleBad b then [] else [(l.src, l.srcN), (l.dst, l.srcN), (l.aux, l.auxN), (l.offs, l.offN)]
  | .loadimg va => read va 64 fun h => [(va.toNat, leAt h 8 8)]
  | .loadimgData todo _ => todo.map fun d => (d.1.toNat, d.2.length)
  | .snapshot r save => [(save.toNat, saveBytes (s.ctl r))]
  | .strm _ _ h _ _ => if o.unit < roundUnits h then [((unitVa h o.unit).toNat, unitBytes h.fmt)] else []
  | _ => []

/-- An operation that goes over a link completes with LINK_DOWN (R405); a stream round fails, a MIGRATE's window closes (R94, R183). -/
def downOp (l : BitVec 4) (s : State) (o : Op) : State :=
  match o.kind with
  | .coll _ _ => if collOver s o l then
      (match execCollComplete o.id [] .down s with | .next t => t | .fault _ | .refused _ => s) else s
  | .migrate _ frame old true =>
    if overLink s l frame.toNat || overLink s l old then finishOp (closeWindow s o) o (failWord cLINK_DOWN) else s
  | _ =>
    if !(opRanges s o).any (fun r => rangeOver s o.part l r.1 r.2) then s
    else match o.kind with
      | .strm _ _ _ _ _ => failRound s o cLINK_DOWN
      | _ => finishOp s o (failWord cLINK_DOWN)

/-- What a link's going down does to what is outstanding through it (R405): operations complete, a core's MWCAS raises it, and a core's
access meets it when it is made. A node's access, and the RC's store of a completion word, wait for the link: LINK_DOWN has no PFQ
entry (R350; log 65). -/
def linkGoesDown (s : State) (l : BitVec 4) : State :=
  let s := s.ops.foldl (downOp l) (updLink s l fun k => { k with down := true, fails := 0 })
  s.ms.mwcas.foldl (fun s x => mwLinkDown s x.1 x.2) s

/-- LINK_DOWN (R405): the far side, or this one, has failed 16 consecutive replays of one flit. -/
def execLinkDown (l : BitVec 4) (s : State) : Out := .next (if (linkOf s l).down then s else linkGoesDown s l)

/-- LINK_RETRAIN (R405): the link carries flits again, in the SEQ order they had. -/
def execLinkRetrain (l : BitVec 4) (s : State) : Out := .next (updLink s l fun k => { k with down := false, fails := 0 })

/-- A RAS record of a code (R350). -/
def rasLog (s : State) (code : BitVec 8) (info : Word) : State := s.updPorts fun h => { h with rasLog := h.rasLog ++ [⟨code, info⟩] }

/-- What a flit that failed authentication fails: the core's access or the collective that it was for (R405; log 38). -/
def authMark (f : Flit) (l : List (PartId × Answers)) : List (PartId × Answers) :=
  let a : Answers := if f.typ = 3 then .coll else if f.typ = 2 then f.answers else .other
  if a == .other then l else (l ++ [(f.dst, a)]).dedup

/-- Serves a peer's request at its offset in the address space of the partition it is for (R406; log 38): the body of the response, a
cause of 0 and the data that were read, or the cause that the access meets. -/
def servePeer (s : State) (f : Flit) : MRes (List Byte) :=
  let x := hubCtx f.dst .s
  let va : Word := BitVec.ofNat 64 (leAt f.body 1 8)
  let n := leAt f.body 9 1
  if leAt f.body 0 1 = 0 then (loadBytes s x va n).bind fun bs s => .ok (0 :: bs) s
  else (storeBytes s x va n (f.body.drop 10)).bind fun r s => .ok [(r.map (·.1)).getD 0] s

/-- A response to a flit goes back over its link, to the device that an enabled window of the link names (R404; log 38). -/
def peerReply (s : State) (l : BitVec 4) (f : Flit) (body : List Byte) : State :=
  let w := (List.range 192).find? fun w => (s.pwinOf w).getLsbD 63 && winLink (s.pwinOf w) == l
  s.updMs fun ms => { ms with net := ms.net.send l ((w.map fun w => winDev (s.pwinOf w)).getD 0) f.dst f.src 2 body }

/-- FLIT_RECEIVE (R405): LCRC, then SEQ order, then authentication. SEQ 2^48 − 1 is under no key (R404). A request of a partition
whose key is erased is discarded and logged (R401); any other is served, once no lock holds it back, and answered (R406). Flits of a
collective wait for it (R407). -/
def execFlitReceive (l : BitVec 4) (f : Flit) (s : State) : Out :=
  let k := linkOf s l
  let e := keyOf k.keys f.src f.dst
  if k.down then .next s
  else if !f.lcrcOk then
    .next (if 16 ≤ k.fails then linkGoesDown s l else updLink s l fun k => { k with fails := k.fails + 1 })
  else if f.seq != e.seq || e.seq.toNat = 2 ^ 48 - 1 then .next s
  else
    let took (s : State) : State := updLink s l fun k => { k with keys := setKey { e with seq := e.seq + 1 } k.keys, fails := 0 }
    if !f.atagOk then .next (rasLog (updLink (took s) l fun k => { k with authFail := authMark f k.authFail }) cLINK_AUTH (l.zeroExtend 64))
    else match f.typ.toNat with
      | 1 =>
        if !(s.part f.dst).keyed then .next (rasLog (took s) cKEY_FAULT (f.dst.zeroExtend 64))
        else match servePeer s f with
          | .ok bs t => .next (peerReply (took t) l f bs)
          | .trap c _ => .next (peerReply (took s) l f [c])
          | .wait => .next s
      | 3 => .next ((took s).updPorts fun h => { h with flitsIn := h.flitsIn ++ [(l, f)] })
      | _ => .next (took s)

/-! ### The storage port (R394) -/

/-- Reads bytes at a physical address, for an agent that keeps no copies. -/
def readPhys (s : State) (x : Ctx) (pa : Nat) : Nat → MRes (List Byte)
  | 0 => .ok [] s
  | n + 1 => (readAt s x ⟨pa, 0⟩ 1 (BitVec.ofNat 64 pa)).bind fun b s =>
      (readPhys s x (pa + 1) n).bind fun bs s => .ok (BitVec.ofNat 8 b :: bs) s

/-- Writes bytes at a physical address, whole aligned lines at once. -/
def writePhys (s : State) (x : Ctx) (pa : Nat) : Nat → List Byte → MRes Unit
  | 0, _ => .ok () s
  | _, [] => .ok () s
  | k + 1, b :: bs =>
    let n := if pa % 128 = 0 && 128 ≤ (b :: bs).length then 128 else 1
    (writeAt s x ⟨pa, 0⟩ (leAt ((b :: bs).take n) 0 n) n (BitVec.ofNat 64 pa)).bind fun _ s =>
      writePhys s x (pa + n) k ((b :: bs).drop n)

def toDevice (s : State) (m : DmaMsg) : State := s.updPorts fun h => { h with dmaOut := h.dmaOut ++ [m] }

/-- Bytes of a DMA request. -/
def dmaReqSize (q : DmaReq) : Nat := if q.write then q.data.length else q.len.toNat

/-- STORAGE_DMA (R394): inside the owner's frame grant it reads and writes plaintext under its key; anything else is an
Unsupported Request, one under an erased key logged too (R401). -/
def execStorageDma (q : DmaReq) (s : State) : Out :=
  match storageOwner s with
  | none => .next (toDevice s .unsupported)
  | some p =>
    let pa := q.pa.toNat
    if !(s.part p).keyed then .next (toDevice (rasLog s cKEY_FAULT q.pa.toNat) .unsupported)
    else if !granted (s.part p) pa (dmaReqSize q) || peerBase < pa + (dmaReqSize q) then .next (toDevice s .unsupported)
    else if q.write then
      match writePhys s (hubCtx p .h) pa q.data.length q.data with
      | .ok _ t => .next (toDevice t .done)
      | .trap _ _ => .next (toDevice s .unsupported)
      | .wait => .next s
    else
      match readPhys s (hubCtx p .h) pa q.len.toNat with
      | .ok bs t => .next (toDevice t (.data bs))
      | .trap _ _ => .next (toDevice s .unsupported)
      | .wait => .next s

/-! ### Power-on (R402) -/

/-- Bad tiles of a column. -/
def badIn (d : Die) (c : Nat) : Nat := d.badTiles.countP fun t => t.2.toNat == c

/-- The visible column with the most bad tiles, the lower one of equals (R348). -/
def worstColumn (d : Die) : Nat :=
  (List.range 33).foldl (fun best c => if badIn d best < badIn d c then c else best) 0

/-- Column retirement at die reset (R16, R348). -/
def retireColumn (d : Die) : Die :=
  match d.retired, d.badTiles with
  | some c, _ => { d with retcol := c, badTiles := d.badTiles.filter fun t => t.2.toNat != c.toNat }
  | none, [] => { d with retcol := 0xFF }
  | none, _ :: _ =>
    let c := worstColumn d
    { d with
      retired := some (BitVec.ofNat 8 c), retcol := BitVec.ofNat 8 c
      badTiles := d.badTiles.filter fun t => t.2.toNat != c }

/-- A step of the bring-up has failed: the device is held with every core halted (R402). -/
def haltAll (s : State) : State :=
  { s with heldUp := true, sq := s.sq.map (coreStop .halted), sy := s.sy.map (coreStop .halted) }

/-- The state of SY core 0 as the security processor releases it: at H, its entry the monitor's own. -/
def monitorCore (pc : Word) (c : Core) : Core := { c with pc := pc &&& ~~~3#64, level := .h, run := .running }

/-- DEVICE_BOOT (R402): the firmware verifies, columns retire, the monitor verifies and is measured, SY core 0 is released at H; a
step that fails holds the device with every core halted. The host assigns the device number (R406). -/
def execDeviceBoot (s : State) : Out :=
  if s.booted then .next s
  else
    let k := s.fresh
    let w := Config.freeWord s.fresh
    let m := extendFree s s.ports.measured
    let s : State := { s with booted := true, fresh := s.fresh + 32 }
    if !Config.firmwareGenuine k then .next (haltAll s)
    else
    let s : State := { s with dies := s.dies.map retireColumn }
    if !Config.monitorGenuine k then .next (haltAll s)
    else
      let s := s.updPorts fun h => { h with measured := m }
      let s := s.updMs fun ms => { ms with net := { ms.net with devnum := w.extractLsb' 0 16 } }
      .next (s.updCore (.sy 0) (monitorCore w))

/-! ### The life of a partition (R24, R401, R402) -/

/-- The cores a configuration names. -/
def cfgCores (g : PartCfg) : List CoreId :=
  ((List.range 64).filter g.sqs.getLsbD).map (fun i => CoreId.sq (BitVec.ofNat 6 i)) ++
    ((List.range 16).filter g.sys.getLsbD).map fun i => CoreId.sy (BitVec.ofNat 4 i)

/-- The first SY core of a configuration. -/
def firstSy (g : PartCfg) : Option CoreId :=
  ((List.range 16).find? g.sys.getLsbD).map fun i => CoreId.sy (BitVec.ofNat 4 i)

/-- Does a grant meet a frame that another partition holds? -/
def grantTaken (s : State) (g : PartCfg) : Bool :=
  g.grant.any fun x => s.parts.toList.any fun q => q.grant.any fun y => rangesMeet x.1.toNat x.2.toNat y.1 y.2

/-- Does a physical range hold nothing that is unbacked: it lies in the installed HBM4, or in the windows and registers above
(Tables 0-1 and 5-3; log 82)? -/
def backed (base size : Nat) : Bool :=
  base + size ≤ 576 * 2 ^ 30 || peerBase ≤ base || (decide (base + size ≤ 768 * 2 ^ 30) && Config.fullCapacity)

/-- Stacks that the frames of a range of memory lie in (R79). -/
def stacksOf (base size : Nat) : List Nat :=
  if size = 0 || peerBase ≤ base then []
  else (List.range (min 16 ((base + size - 1) / 65536 - base / 65536 + 1))).map fun i => (base / 65536 + i) % 16

/-- Are the pseudo-channel groups of a partition its own, and has it one in each stack that its frames lie in (R79, R372; log 83)? -/
def groupsFree (s : State) (g : PartCfg) : Bool :=
  s.parts.toList.all (fun q => q.groups &&& g.groups == 0) &&
    g.grant.all fun x => (stacksOf x.1.toNat x.2.toNat).all fun st => g.groups.extractLsb' (16 * st) 16 != 0#16

/-- May the monitor create the partition (R24, R372)? -/
def mayCreate (s : State) (p : PartId) (g : PartCfg) : Bool :=
  s.booted && !s.heldUp && (s.part p).st == .absent && (firstSy g).isSome && (cfgCores g).all (fun c => (s.core c).part.isNone) &&
    !grantTaken s g && groupsFree s g && g.grant.all fun x => backed x.1.toNat x.2.toNat

/-- The partition as it begins: its grant, its tables, its rule engine, its key, its image measured. -/
def newPartition (g : PartCfg) (m : List Word) : Partition :=
  { Partition.reset with
    st := .running
    grant := g.grant.map fun x => (x.1.toNat, x.2.toNat)
    groups := g.groups
    ptroot := ptrootBits g.ptroot
    keyed := true
    measured := m
    rules := setRmcfg g.rmcfg Rules.reset }

/-- PARTITION_CREATE (R402): the assignment and the grant are fixed, the image verified; the first SY core starts at S at the
image entry. A failed verification halts every core. -/
def execPartitionCreate (p : PartId) (g : PartCfg) (s : State) : Out :=
  if !mayCreate s p g then .next s
  else if !g.verified then .next (haltAll s)
  else
    let m := extendFree s []
    let s := (s.useFresh 32).setPart p (newPartition g m)
    let s := (cfgCores g).foldl (fun s c => s.setCore c { Core.reset with part := some p, cycBase := s.fclock }) s
    .next (match firstSy g with
      | some c => s.updCore c fun x => { x with pc := g.entry &&& ~~~3#64, run := .running }
      | none => s)

/-- Is a physical address in a grant? -/
def inGrant (q : Partition) (pa : Nat) : Bool := q.grant.any fun x => x.1 ≤ pa && pa < x.1 + x.2

/-- Requests of a partition in flight are discarded, with the copies and translations its agents hold (R401 step 3). -/
def dropRequests (s : State) (p : PartId) : State :=
  let q := s.part p
  let mine (m : Mwcas × MwOwner) : Bool := m.1.part == p
  let locks := (s.ms.mwcas.filter mine).map (·.1.op)
  let ids := (s.ops.filter (·.part == p)).map (·.id)
  let s := s.updMs fun ms => { ms with
    mwcas := ms.mwcas.filter fun m => !mine m
    locks := ms.locks.filter fun l => !locks.contains l.2
    tlb := ms.tlb.filter (·.part != p)
    dir := ms.dir.filter fun e => !inGrant q e.base
    recalls := ms.recalls.filter fun x => !inGrant q (128 * x.2.1)
    slines := ms.slines.filter fun l => !inGrant q (128 * l.line)
    migrations := ms.migrations.filter (·.part != p)
    merger := ms.merger.filter (·.part != p) }
  let s : State := { s with
    ops := s.ops.filter (·.part != p)
    ports := { s.ports with flitsIn := s.ports.flitsIn.filter (·.2.dst != p) }
    saves := s.saves.filter (·.region.ctl.part != p) }
  [0#2, 1#2, 2#2, 3#2].foldl (fun s d => takeBids s d ids.contains) s

/-- The key is erased: what the grant's memory held can be read under no key any more (R401 step 4). -/
def eraseKey (s : State) (p : PartId) : State :=
  let q := s.part p
  s.updMs fun ms => { ms with
    mem := ms.mem.filter fun c => !inGrant q c.1
    poison := ms.poison.filter fun l => !inGrant q (128 * l)
    badMac := ms.badMac.filter fun l => !inGrant q (128 * l) }

/-- PARTITION_DESTROY (R401). -/
def execPartitionDestroy (p : PartId) (s : State) : Out :=
  if (s.part p).st == .absent then .next s
  else
    let cores := coresOf s p
    let s := haltPart (s.updPart p fun q => { q with st := .destroying }) p
    let s := (regionsOf s p).foldl freeRegion s
    let s := eraseKey (dropRequests s p) p
    let s := cores.foldl (fun s c => s.setCore c { Core.reset with run := .halted, cycBase := s.fclock }) s
    .next (setWinQueue (setSession (s.setPart p Partition.reset) (.vf p) none) p [])

end Sys2Proof.Machine
end

