-- ==== Sys2Proof/Machine/Integer.lean ====
section
/-!
DEFINITION. Integer instructions (R142 to R144): register-register and immediate forms.
-/

namespace Sys2Proof.Machine

open Sys2Proof

/-- A register-register form: waits for its registers, writes g[d], retires. -/
def intRR (s : State) (d a b : Reg) (f : Word → Word → Word) : Out :=
  needRegs s [d, a, b] <| retireG s d (f (s.rg a) (s.rg b))

/-- A one-source form. -/
def intR (s : State) (d a : Reg) (f : Word → Word) : Out :=
  needRegs s [d, a] <| retireG s d (f (s.rg a))

/-- A division form: g[b] = 0 raises INT_DIVZERO (R143). -/
def intDiv (s : State) (d a b : Reg) (f : Word → Word → Word) : Out :=
  needRegs s [d, a, b] <|
    if s.rg b = 0 then raise s cINT_DIVZERO 0 else retireG s d (f (s.rg a) (s.rg b))

/-- 1 or 0 as a register value. -/
def flag (c : Bool) : Word := if c then 1 else 0

/-- Shift amount: bits [5:0], the others ignored (Table 8-3). -/
def shamt (b : Word) : Nat := b.toNat % 64

/-- Bits [127:64] of the signed product. -/
def mulhS (a b : Word) : Word := BitVec.ofInt 64 (a.toInt * b.toInt / 2 ^ 64)

/-- Bits [127:64] of the unsigned product. -/
def mulhU (a b : Word) : Word := BitVec.ofNat 64 (a.toNat * b.toNat / 2 ^ 64)

/-- Signed quotient rounded toward zero; −2^63 by −1 gives −2^63 (R143). -/
def divS (a b : Word) : Word := BitVec.ofInt 64 (Int.tdiv a.toInt b.toInt)

/-- Signed remainder with the dividend's sign. -/
def remS (a b : Word) : Word := BitVec.ofInt 64 (Int.tmod a.toInt b.toInt)

/-- Leading zero bits; 64 for 0. -/
def clz64 (a : Word) : Word := BitVec.ofNat 64 (if a = 0 then 64 else 63 - Nat.log2 a.toNat)

/-- Number of 1 bits. -/
def popc64 (a : Word) : Word := BitVec.ofNat 64 ((List.range 64).countP fun i => a.getLsbD i)

/-- ADD: g[a] + g[b] (Table 8-3). -/
def execAdd (d a b : Reg) (s : State) : Out := intRR s d a b (fun a b => a + b)

/-- SUB: g[a] − g[b] (Table 8-3). -/
def execSub (d a b : Reg) (s : State) : Out := intRR s d a b (fun a b => a - b)

/-- AND: bitwise and (Table 8-3). -/
def execAnd (d a b : Reg) (s : State) : Out := intRR s d a b (fun a b => a &&& b)

/-- OR: bitwise or (Table 8-3). -/
def execOr (d a b : Reg) (s : State) : Out := intRR s d a b (fun a b => a ||| b)

/-- XOR: bitwise exclusive or (Table 8-3). -/
def execXor (d a b : Reg) (s : State) : Out := intRR s d a b (fun a b => a ^^^ b)

/-- SLL: shift left (Table 8-3). -/
def execSll (d a b : Reg) (s : State) : Out := intRR s d a b (fun a b => a <<< shamt b)

/-- SRL: logical shift right (Table 8-3). -/
def execSrl (d a b : Reg) (s : State) : Out := intRR s d a b (fun a b => a >>> shamt b)

/-- SRA: arithmetic shift right (Table 8-3). -/
def execSra (d a b : Reg) (s : State) : Out := intRR s d a b (fun a b => a.sshiftRight (shamt b))

/-- SLT: 1 if signed less (Table 8-3). -/
def execSlt (d a b : Reg) (s : State) : Out := intRR s d a b (fun a b => flag (a.slt b))

/-- SLTU: 1 if unsigned less (Table 8-3). -/
def execSltu (d a b : Reg) (s : State) : Out := intRR s d a b (fun a b => flag (a.ult b))

/-- MIN: signed minimum (Table 8-3). -/
def execMin (d a b : Reg) (s : State) : Out := intRR s d a b (fun a b => if b.slt a then b else a)

/-- MAX: signed maximum (Table 8-3). -/
def execMax (d a b : Reg) (s : State) : Out := intRR s d a b (fun a b => if a.slt b then b else a)

/-- MUL: bits [63:0] of the product (Table 8-3). -/
def execMul (d a b : Reg) (s : State) : Out := intRR s d a b (fun a b => a * b)

/-- MULH: bits [127:64] of the signed product (Table 8-3). -/
def execMulh (d a b : Reg) (s : State) : Out := intRR s d a b (mulhS)

/-- MULHU: bits [127:64] of the unsigned product (Table 8-3). -/
def execMulhu (d a b : Reg) (s : State) : Out := intRR s d a b (mulhU)

/-- DIV: signed quotient (R143). -/
def execDiv (d a b : Reg) (s : State) : Out := intDiv s d a b (divS)

/-- DIVU: unsigned quotient (R143). -/
def execDivu (d a b : Reg) (s : State) : Out := intDiv s d a b (fun a b => a / b)

/-- REM: signed remainder (R143). -/
def execRem (d a b : Reg) (s : State) : Out := intDiv s d a b (remS)

/-- REMU: unsigned remainder (R143). -/
def execRemu (d a b : Reg) (s : State) : Out := intDiv s d a b (fun a b => a % b)

/-- CLZ (Table 8-3). -/
def execClz (d a : Reg) (s : State) : Out := intR s d a clz64

/-- POPC (Table 8-3). -/
def execPopc (d a : Reg) (s : State) : Out := intR s d a popc64

/-- ADDI (Table 8-4). -/
def execAddi (d a : Reg) (imm : BitVec 16) (s : State) : Out := intR s d a (fun a => a + sext imm)

/-- ANDI (Table 8-4). -/
def execAndi (d a : Reg) (imm : BitVec 16) (s : State) : Out := intR s d a (fun a => a &&& zext imm)

/-- ORI (Table 8-4). -/
def execOri (d a : Reg) (imm : BitVec 16) (s : State) : Out := intR s d a (fun a => a ||| zext imm)

/-- XORI (Table 8-4). -/
def execXori (d a : Reg) (imm : BitVec 16) (s : State) : Out := intR s d a (fun a => a ^^^ zext imm)

/-- SLTI (Table 8-4). -/
def execSlti (d a : Reg) (imm : BitVec 16) (s : State) : Out := intR s d a (fun a => flag (a.slt (sext imm)))

/-- LUI: sext(imm16) × 2^16 (Table 8-4). -/
def execLui (d : Reg) (imm : BitVec 16) (s : State) : Out := needRegs s [d] <| retireG s d (sext imm <<< 16)

/-- SLLI (Table 8-4). -/
def execSlli (d a : Reg) (n : BitVec 6) (s : State) : Out := intR s d a (fun a => a <<< n.toNat)

/-- SRLI (Table 8-4). -/
def execSrli (d a : Reg) (n : BitVec 6) (s : State) : Out := intR s d a (fun a => a >>> n.toNat)

/-- SRAI (Table 8-4). -/
def execSrai (d a : Reg) (n : BitVec 6) (s : State) : Out := intR s d a (fun a => a.sshiftRight n.toNat)

end Sys2Proof.Machine
end

