-- ==== Sys2Proof/Machine/Matrix.lean ====
section
/-!
DEFINITION. The matrix array, operand slots and accumulators (12_node_matrix.md R226 to R240, 03_numbers.md R56 to R58,
R67).
-/

namespace Sys2Proof.Machine

open Sys2Proof

/-! ### Firings -/

/-- An echo: KIND CTRL, lane 0 the command word (R233). -/
def Firing.echo (x : Firing) (fmt : BitVec 5) (w : Nat) : Token :=
  x.result kCTRL fmt 0 (packLanes (laneBits fmt) [w])

/-- A firing of a command node appends its command and reserves its output entry (R230, R232). -/
def commandNode (s : State) (opc : BitVec 8) (nf : NodeFields) : Out :=
  let ok (_ : BitVec 2) (t : Token) : Bool := t.fmt == 8 && (t.kind == kCTRL || t.kind == kDATA || t.kind == kINDEX)
  let rf : BitVec 5 := if opc = 0x44 then nf.fmt else if opc = 0x47 then 5 else 8
  fireNode s opc nf fun s x =>
    if 8 ≤ (tileCmds (s.fab x.n.r) x.n.row x.n.col).length then .wait
    else dataNode s x rf ok fun s x =>
      let (id, s) := reserveEntry s x.n 3 []
      noOut (s.updFab x.n.r fun f => { f with
        arrayq := f.arrayq ++ [⟨x.n.row, x.n.col, x.n.slot, opc, nf, ((x.arr.find? (·.1 == 0)).map (·.2)).getD 0, x.get 0, id⟩] }) x

/-- MXF: fills a slot row (R230, R234). -/
def execMxf (n : NodeFields) (s : State) : Out :=
  let ok (i : BitVec 2) (t : Token) : Bool :=
    if i = 0 then t.kind == kDATA && (rowCap t.fmt).isSome else isDataIdx t 7
  fireNode s 0x40 n fun s x =>
    if 8 ≤ (tileCmds (s.fab x.n.r) x.n.row x.n.col).length then .wait
    else dataNode s x 7 ok fun s x =>
      let a := x.get 0
      let b := x.get 1
      if b.payload.extractLsb' 11 501 != 0#501 then errOut s x cMX_CMD
      else
        match fillRow (s.fab x.n.r) ⟨x.n.row, x.n.col, b.payload.extractLsb' 0 6, x.n.ctx, b.payload.extractLsb' 6 5, a.fmt, tokSig a,
            a.payload, a.scale, []⟩ with
        | .parks => .park cOM_SLOT x.info none
        | .bad => errOut s x cFMT_BAD
        | .done f => oneOut (s.updFab x.n.r fun _ => f) x (x.echo 7 (b.lane 32 0))

/-- MXCLM (R235). -/
def execMxclm (n : NodeFields) (s : State) : Out := commandNode s 0x41 n

/-- MXREL (R235). -/
def execMxrel (n : NodeFields) (s : State) : Out := commandNode s 0x42 n

/-- MXMUL (R236). -/
def execMxmul (n : NodeFields) (s : State) : Out := commandNode s 0x43 n

/-- MXDRN (R238). -/
def execMxdrn (n : NodeFields) (s : State) : Out := commandNode s 0x44 n

/-- MXZERO (R238). -/
def execMxzero (n : NodeFields) (s : State) : Out := commandNode s 0x45 n

/-- MXREC (R239). -/
def execMxrec (n : NodeFields) (s : State) : Out := commandNode s 0x46 n

/-- MXSIGM (R238). -/
def execMxsigm (n : NodeFields) (s : State) : Out := commandNode s 0x47 n

/-! ### Executing commands -/

/-- The site a command was fired at. -/
def cmdSite (r : RegionId) (c : ArrayCmd) : Site := ⟨r, c.row, c.col, c.slot, c.tok.ctx, c.tok.iter⟩

/-- The firing a command came from: its operand is the command token. -/
def cmdFiring (r : RegionId) (c : ArrayCmd) : Firing := ⟨cmdSite r c, c.opc, c.n, some c.tok, none, none, none, []⟩

/-- May a command overlap the earlier ones of its queue: disjoint slots and accumulators (R230)? -/
def cmdFree (earlier : List ArrayCmd) (c : ArrayCmd) : Bool :=
  earlier.all fun e => (cmdSlots e).all (!(cmdSlots c).contains ·) && (cmdAccs e).all (!(cmdAccs c).contains ·)

/-- Fields of a multiply's command: its operand slots, K, N and M, and whether A is transposed (Table 12-4). -/
structure MulCmd where
  a : OmSlot
  b : OmSlot
  k : Nat
  nn : Nat
  mm : Nat
  ta : Bool

def mulCmd (f : Fabric) (c : ArrayCmd) : MulCmd :=
  let w := cmdWord c.tok
  ⟨omSlot f c.row c.col (w.extractLsb' 6 6), omSlot f c.row c.col (w.extractLsb' 12 6), 8 * ((w.extractLsb' 22 4).toNat + 1),
    8 * ((w.extractLsb' 20 2).toNat + 1), 8 * ((w.extractLsb' 18 2).toNat + 1), w.getLsbD 1⟩

/-- Rows r below n all present. -/
def rowsPresent (o : OmSlot) (n : Nat) : Bool := (List.range n).all fun r => o.present.getLsbD r

/-- Does a multiply wait for operand rows (R236, R237)? -/
def mulWaits (m : MulCmd) (ctx : BitVec 12) : Bool :=
  omOwned m.a ctx && omOwned m.b ctx && !(m.ta && 32 < m.k) &&
    !(rowsPresent m.a (if m.ta then m.k else m.mm) && rowsPresent m.b m.nn)

/-- The first command of an opcode in a tile's queue that may execute now: disjoint from the earlier ones, and no multiply that waits
for rows (R230, R237). -/
def cmdNext (s : State) (t : TileAt) (opc : BitVec 8) : Option ArrayCmd :=
  let f := s.fab t.r
  let q := tileCmds f t.row t.col
  q.find? fun c => c.opc == opc && cmdFree (q.takeWhile (· != c)) c && !(opc == 0x43 && cmdOk c && mulWaits (mulCmd f c) c.tok.ctx)

/-- Commands that a tile's array queue holds (R230). -/
def arrayCap : Nat := 8

/-- The array queue of a tile has room again: from now on its nodes that need room there are ready (R36, R230). -/
def noteRoom (s : State) (r : RegionId) (row : BitVec 5) (col : BitVec 6) : State :=
  match (s.ctl r).cfg with
  | none => s
  | some g =>
    (g.nodes.filter fun x => x.row == row && x.col == col && 0x40 ≤ (x.word.extractLsb' 0 8).toNat && (x.word.extractLsb' 0 8).toNat ≤ 0x47).foldl
      (fun s x => s.updNode ⟨r, row, col, x.slot, 0, 0⟩ fun y => { y with roomAt := s.fclock }) s

/-- Removes a command, which has executed, from its queue: rows that wait for it are written (R230). -/
def dropCmd (s : State) (r : RegionId) (c : ArrayCmd) : State :=
  let full := arrayCap ≤ (tileCmds (s.fab r) c.row c.col).length
  let s := touch (s.updFab r fun f => landFills { f with arrayq := eraseFirst (· == c) f.arrayq } c.out) r
  if full then noteRoom s r c.row c.col else s

/-- A command completes with a result in its reserved entry. -/
def cmdDone (s : State) (r : RegionId) (c : ArrayCmd) (t : Token) : State :=
  let s := dropCmd s r c
  sigCount (fillEntry s r c.out (departures (s.fab r) c.n c.row c.col (some t) (some t))) (cmdSite r c) (some t)

/-- A command ends with error(cause) and a PFQ entry that does not park (R231). -/
def cmdError (s : State) (r : RegionId) (c : ArrayCmd) (cause : BitVec 8) : State :=
  let x := cmdFiring r c
  cmdDone (noteFault s x.n cause x.info) r c (x.error cause)

/-- A command parks its activation with OM_SLOT and leaves the queue; with the park table full it stays, and without room for
its token the region freezes (R231, R333). -/
def cmdPark (s : State) (r : RegionId) (c : ArrayCmd) : State :=
  let x := cmdFiring r c
  match park (fillEntry (dropCmd s r c) r c.out []) x.n cOM_SLOT x.info [⟨false, c.at_, 0, c.tok⟩] with
  | .parked s => s
  | .full | .held => s
  | .overflow => freeze s r cSPRUE_FULL 0

/-- A queued command's token once checked: the command goes on with it, one whose token is lost leaves, and one whose token is an error
now ends with that (R203, R347). -/
def cmdChecked (s : State) (r : RegionId) (c : ArrayCmd) (flips : BitVec 664) (go : State → ArrayCmd → State) : State :=
  match lastCheck s r c.row c.col c.tok flips with
  | (none, s) => fillEntry (dropCmd s r c) r c.out []
  | (some tok, s) =>
    let c' : ArrayCmd := { c with tok := tok }
    let s := s.updFab r fun f => { f with arrayq := f.arrayq.map fun x => if x == c then c' else x }
    if tok.kind == kERROR then cmdDone s r c' ((cmdFiring r c').retag tok) else go s c'

/-- Executes the next command of an opcode at a tile by its rule; its token's parity is checked when it leaves the queue (R347). -/
def execCmd (s : State) (t : TileAt) (opc : BitVec 8) (flips : BitVec 664) (k : State → ArrayCmd → State) : Out :=
  let go (s : State) (c : ArrayCmd) : State := if cmdOk c then k s c else cmdError s t.r c cMX_CMD
  if !regionGoing s t.r then .next s
  else match cmdNext s t opc with
  | none => .next s
  | some c =>
    if flips = 0 || ((go s c).fab t.r).arrayq.contains c then .next (go s c) else .next (cmdChecked s t.r c flips go)

/-- The echo of a command. -/
def cmdEcho (r : RegionId) (c : ArrayCmd) : Token := (cmdFiring r c).echo 8 (cmdWord c.tok).toNat

/-- MXCLM_EXECUTE: claims every slot or none (R235). -/
def execMxclmExecute (t : CmdAt) (s : State) : Out :=
  execCmd s t.toTileAt 0x41 t.flips fun s c =>
    let os := (cmdSlots c).map (omSlot (s.fab t.r) c.row c.col)
    if os.any (·.held) then cmdPark s t.r c
    else
      let s := s.updFab t.r fun f => os.foldl (fun f o =>
        setOmSlot f { o with held := true, owner := c.tok.ctx, present := 0, tag := 63, rows := [] }) f
      cmdDone s t.r c (cmdEcho t.r c)

/-- MXREL_EXECUTE: releases every slot or none (R235). -/
def execMxrelExecute (t : CmdAt) (s : State) : Out :=
  execCmd s t.toTileAt 0x42 t.flips fun s c =>
    let os := (cmdSlots c).map (omSlot (s.fab t.r) c.row c.col)
    if os.any (!omOwned · c.tok.ctx) then cmdPark s t.r c
    else cmdDone (s.updFab t.r fun f => os.foldl (fun f o => setOmSlot f { o with held := false }) f) t.r c (cmdEcho t.r c)

/-! ### The array's sums (R54, R56 to R58, R67) -/

/-- A factor as the array reads it: a subnormal of a 16- or 8-bit format is a zero (R54). -/
def arrayIn (f : FloatFmt) (bits : Nat) : FVal :=
  match decodeF f bits with
  | .num n m e => if m < 2 ^ f.mb && f.width < 32 then .num n 0 0 else .num n m e
  | v => v

/-- The exponent of the largest product of a step. -/
def maxExp (ps : List (Bool × Nat × Int)) : Option Int :=
  ((ps.filter fun p => p.2.1 != 0).map fun p => expOf p.2.1 p.2.2).max?

/-- A product truncated toward zero at weight 2^q: its value in units of 2^q and whether bits were discarded. -/
def truncAt (q : Int) (p : Bool × Nat × Int) : Int × Bool :=
  let (v, lost) := roundAt .rtz false p.2.1 p.2.2 q
  (if p.1 then -(v : Int) else v, lost)

/-- One k-step on an accumulator element: exact products in, FP32 value and tag out (R56, R58, R67). `sp` is the least slot
tag. DESIGN CHOICE (log 71): the sticky bit enters the rounding as half the last bit of the window, 2^(E − 80), which R56 only
bounds. -/
def kStep (acc : FVal) (tag sp : Nat) (ps : List Exact) : FVal × Nat :=
  let nums := ps.filterMap fun p => match p with | .num n m e => some (n, m, e) | _ => none
  let infs := ps.filterMap fun p => match p with | .inf n _ => some n | _ => none
  let bad := ps.any (fun p => match p with | .nan _ => true | _ => false) || (infs.contains true && infs.contains false)
  if bad then (.nan false, 0)
  else match infs with
  | n :: _ => match acc with
    | .inf m => if m = n then (.inf n, 0) else (.nan false, 0)
    | .nan s => (.nan s, 0)
    | .num _ _ _ => (.inf n, 0)
  | [] => match acc with
    | .nan s => (.nan s, 0)
    | .inf n => (.inf n, 0)
    | .num na ma ea =>
      let zeros := ma = 0 && nums.all fun p => p.2.1 == 0
      match maxExp nums with
      | none =>
        if zeros then
          let neg := na && nums.all (·.1)
          (.num neg 0 0, if tag = 24 then 24 else 0)
        else (acc, finalTag fp32 acc false (addTag 24 (lowBit 24 acc tag) false acc))
      | some e =>
        let q := e - 79
        let ts := nums.map (truncAt q)
        let sum := (ts.map (·.1)).sum
        let sticky := ts.any (·.2)
        let exact := if sum = 0 then sumNum .rne na ma ea false 0 0
          else sumNum .rne na ma ea (sum < 0) (2 * sum.natAbs + (if sticky then 1 else 0)) (q - 1)
        let exact := match exact with | .num _ 0 _ => Exact.num false 0 0 | x => x
        let r := (rneF fp32 exact).2
        let ls := ((nums.filter fun p => p.2.1 != 0).map fun p => expOf p.2.1 p.2.2 - sp + 1).max?
        let l := (lowBit 24 acc tag).max (match ls with | some i => .fin i | none => .bot)
        (r, match r with
          | .num _ 0 _ => 0
          | .num _ _ _ => finalTag fp32 r false (addTag 24 l false r)
          | _ => 0)

/-- An element of the operand memory: row r, element k (R236). -/
def omElem (o : OmSlot) (r k : Nat) : FVal :=
  match o.rows.find? (·.1.toNat = r) with
  | none => .num false 0 0
  | some (_, p, sc) =>
    if o.sfmt == 0xF || o.sfmt == 0x10 then
      zbv (o.sfmt == 0xF) p sc k
    else match fmtFloat o.sfmt with
      | some f => arrayIn f (p.toNat / 2 ^ (f.width * k) % 2 ^ f.width)
      | none => .num false 0 0
where
  /-- A block-format element with its row's scale bytes (R46, R57). -/
  zbv (zb8 : Bool) (p : BitVec 512) (sc : BitVec 64) (k : Nat) : FVal :=
    let w := if zb8 then 8 else 4
    let mb := if zb8 then 6 else 2
    let v := p.toNat / 2 ^ (w * k) % 2 ^ w
    let x0 := sc.toNat / 256 ^ (2 * (k / 32)) % 256
    let x1 := sc.toNat / 256 ^ (2 * (k / 32) + 1) % 256
    if x0 = 0xFF || x1 = 0xFF then .nan false
    else .num (v / 2 ^ (mb + 1) % 2 == 1) (v % 2 ^ mb)
      (((if v / 2 ^ mb % 2 = 1 then x1 else x0) : Nat) - (if zb8 then 132 else 128))

/-- Operand formats that pair (Table 12-4). -/
def fmtPair (a b : BitVec 5) : Bool :=
  let eight (f : BitVec 5) : Bool := f == 0xD || f == 0xE
  a == b || (eight a && eight b)

/-- An accumulator element: value and tag; +0 with tag 24 when not listed (R18, R67). -/
def amGet (f : Fabric) (row : BitVec 5) (col : BitVec 6) (acc : BitVec 3) (m n : Nat) : Nat × Nat :=
  match f.am.find? fun e => e.row == row && e.col == col && e.acc == acc && e.m.toNat == m && e.n.toNat == n with
  | some e => (e.val.toNat, e.tag.toNat)
  | none => (0, 24)

/-- Replaces the elements of an accumulator for which `k` gives a new value and tag. -/
def amSet (f : Fabric) (row : BitVec 5) (col : BitVec 6) (acc : BitVec 3)
    (es : List (Nat × Nat × Nat × Nat)) : Fabric :=
  let new := (es.filter fun e => !(e.2.2.1 == 0 && e.2.2.2 == 24)).map fun e =>
    (⟨row, col, acc, BitVec.ofNat 5 e.1, BitVec.ofNat 5 e.2.1, BitVec.ofNat 32 e.2.2.1, BitVec.ofNat 6 e.2.2.2⟩ : AmElem)
  { f with am := new ++ f.am.filter fun x => !(x.row == row && x.col == col && x.acc == acc &&
      es.any fun e => e.1 == x.m.toNat && e.2.1 == x.n.toNat) }

/-- Element (m, n) of a multiply: its k-steps in order (R56, R236). -/
def mulElem (a b : OmSlot) (ta : Bool) (k : Nat) (acc : FVal × Nat) (m n : Nat) : FVal × Nat :=
  let sp := min (min a.tag.toNat ((fmtP a.sfmt).getD 0)) (min b.tag.toNat ((fmtP b.sfmt).getD 0))
  (List.range ((k + 31) / 32)).foldl (fun acc t =>
    let ks := (List.range (min 32 (k - 32 * t))).map (32 * t + ·)
    kStep acc.1 acc.2 sp (ks.map fun i => mulF (if ta then omElem a i m else omElem a m i) (omElem b n i))) acc

/-- MXMUL_EXECUTE (R236). -/
def execMxmulExecute (t : CmdAt) (s : State) : Out :=
  execCmd s t.toTileAt 0x43 t.flips fun s c =>
    let w := cmdWord c.tok
    let ⟨a, b, k, nn, mm, ta⟩ := mulCmd (s.fab t.r) c
    if !omOwned a c.tok.ctx || !omOwned b c.tok.ctx then cmdPark s t.r c
    else if ta && 32 < k then cmdError s t.r c cMX_CMD
    else if mulWaits ⟨a, b, k, nn, mm, ta⟩ c.tok.ctx then s
    else if !fmtPair a.sfmt b.sfmt || (ta && (a.sfmt == 0xF || a.sfmt == 0x10)) then cmdError s t.r c cFMT_BAD
    else
      let cap := (rowCap a.sfmt).getD 0
      let capb := (rowCap b.sfmt).getD 0
      if (!ta && cap < k) || (ta && cap < mm) || capb < k then cmdError s t.r c cMX_CMD
      else
        let acc := w.extractLsb' 3 3
        let es := (List.range mm).flatMap fun m => (List.range nn).map fun n =>
          let (v, tag) := if w.getLsbD 0 then amGet (s.fab t.r) c.row c.col acc m n else (0, 24)
          let (r, tag') := mulElem a b ta k (decodeF fp32 v, tag) m n
          (m, n, (rneF fp32 (exactOf r)).1, tag')
        cmdDone (s.updFab t.r fun f => amSet f c.row c.col acc es) t.r c (cmdEcho t.r c)

/-- MXZERO_EXECUTE (R238). -/
def execMxzeroExecute (t : CmdAt) (s : State) : Out :=
  execCmd s t.toTileAt 0x45 t.flips fun s c =>
    cmdDone (s.updFab t.r fun f => { f with am := f.am.filter fun x =>
      !(x.row == c.row && x.col == c.col && (cmdAccs c).contains x.acc) }) t.r c (cmdEcho t.r c)

/-- A row of an accumulator converted to a format: lanes and the least tag (R238). -/
def drainRow (f : Fabric) (c : ArrayCmd) (acc : BitVec 3) (row first : Nat) : List Nat × Nat :=
  let g := (fmtFloat c.n.fmt).getD fp32
  let ls := (List.range (laneCount c.n.fmt)).map fun i =>
    let (v, tag) := amGet f c.row c.col acc row (first + i)
    let x := decodeF fp32 v
    let (r, v') := rneF g (exactOf x)
    (r, cvtTag fp32 g tag (isZeroV x) v')
  (ls.map (·.1), (ls.map (·.2)).min?.getD 0)

/-- MXDRN_EXECUTE (R238). -/
def execMxdrnExecute (t : CmdAt) (s : State) : Out :=
  execCmd s t.toTileAt 0x44 t.flips fun s c =>
    let w := cmdWord c.tok
    let acc := w.extractLsb' 0 3
    let row := (w.extractLsb' 3 5).toNat
    let first := if w.getLsbD 8 then 16 else 0
    let (ls, sig) := drainRow (s.fab t.r) c acc row first
    let x := cmdFiring t.r c
    let s := if c.n.var = 1 then s.updFab t.r fun f =>
        amSet f c.row c.col acc ((List.range (laneCount c.n.fmt)).map fun i => (row, first + i, 0, 24)) else s
    cmdDone s t.r c (x.result kDATA c.n.fmt sig (packLanes (laneBits c.n.fmt) ls))

/-- MXSIGM_EXECUTE (R238). -/
def execMxsigmExecute (t : CmdAt) (s : State) : Out :=
  execCmd s t.toTileAt 0x47 t.flips fun s c =>
    let w := cmdWord c.tok
    let row := 2 * (w.extractLsb' 3 4).toNat
    let tag (i : Nat) : Nat := (amGet (s.fab t.r) c.row c.col (w.extractLsb' 0 3) (row + i / 32) (i % 32)).2
    cmdDone s t.r c ((cmdFiring t.r c).result kDATA 5 0 (packLanes 8 ((List.range 64).map tag)))

/-- Rows r onwards of MXREC, until one is refused. -/
def recRows (f : Fabric) (c : ArrayCmd) (acc : BitVec 3) : Nat → Nat → OmSlot → OmSlot × RowRes
  | 0, _, o => (o, .done o)
  | k + 1, r, o =>
    let (ls, sig) := drainRow f c acc r 0
    match writeRow o c.tok.ctx (BitVec.ofNat 5 r) c.n.fmt sig (packLanes (laneBits c.n.fmt) ls) 0 with
    | .done o => recRows f c acc k (r + 1) o
    | x => (o, x)

/-- MXREC_EXECUTE: rows of an accumulator into a slot (R239). -/
def execMxrecExecute (t : CmdAt) (s : State) : Out :=
  execCmd s t.toTileAt 0x46 t.flips fun s c =>
    let w := cmdWord c.tok
    let o := omSlot (s.fab t.r) c.row c.col (w.extractLsb' 3 6)
    let (o', res) := recRows (s.fab t.r) c (w.extractLsb' 0 3) (8 * ((w.extractLsb' 9 2).toNat + 1)) 0 o
    let s := s.updFab t.r fun f => setOmSlot f o'
    match res with
    | .done _ => cmdDone s t.r c (cmdEcho t.r c)
    | .parks => cmdPark s t.r c
    | .bad => cmdError s t.r c cFMT_BAD

end Sys2Proof.Machine
end

