-- ==== Sys2Proof/Machine/Dispatch.lean ====
section
/-! DEFINITION. Every instruction of the opcode table and the meaning it has. -/

namespace Sys2Proof.Machine

open Sys2Proof

def exec (i : Instr) (s : State) : Host.Outcome State Fault Refusal :=
  match i with
  | .add d a b => Sys2Proof.Machine.execAdd d a b s
  | .sub d a b => Sys2Proof.Machine.execSub d a b s
  | .and d a b => Sys2Proof.Machine.execAnd d a b s
  | .or d a b => Sys2Proof.Machine.execOr d a b s
  | .xor d a b => Sys2Proof.Machine.execXor d a b s
  | .sll d a b => Sys2Proof.Machine.execSll d a b s
  | .srl d a b => Sys2Proof.Machine.execSrl d a b s
  | .sra d a b => Sys2Proof.Machine.execSra d a b s
  | .slt d a b => Sys2Proof.Machine.execSlt d a b s
  | .sltu d a b => Sys2Proof.Machine.execSltu d a b s
  | .min d a b => Sys2Proof.Machine.execMin d a b s
  | .max d a b => Sys2Proof.Machine.execMax d a b s
  | .mul d a b => Sys2Proof.Machine.execMul d a b s
  | .mulh d a b => Sys2Proof.Machine.execMulh d a b s
  | .mulhu d a b => Sys2Proof.Machine.execMulhu d a b s
  | .div d a b => Sys2Proof.Machine.execDiv d a b s
  | .divu d a b => Sys2Proof.Machine.execDivu d a b s
  | .rem d a b => Sys2Proof.Machine.execRem d a b s
  | .remu d a b => Sys2Proof.Machine.execRemu d a b s
  | .clz d a => Sys2Proof.Machine.execClz d a s
  | .popc d a => Sys2Proof.Machine.execPopc d a s
  | .addi d a imm => Sys2Proof.Machine.execAddi d a imm s
  | .andi d a imm => Sys2Proof.Machine.execAndi d a imm s
  | .ori d a imm => Sys2Proof.Machine.execOri d a imm s
  | .xori d a imm => Sys2Proof.Machine.execXori d a imm s
  | .slti d a imm => Sys2Proof.Machine.execSlti d a imm s
  | .lui d imm => Sys2Proof.Machine.execLui d imm s
  | .slli d a n => Sys2Proof.Machine.execSlli d a n s
  | .srli d a n => Sys2Proof.Machine.execSrli d a n s
  | .srai d a n => Sys2Proof.Machine.execSrai d a n s
  | .ld d a off => Sys2Proof.Machine.execLd d a off s
  | .sd d a off => Sys2Proof.Machine.execSd d a off s
  | .lb d a off => Sys2Proof.Machine.execLb d a off s
  | .lbu d a off => Sys2Proof.Machine.execLbu d a off s
  | .lh d a off => Sys2Proof.Machine.execLh d a off s
  | .lhu d a off => Sys2Proof.Machine.execLhu d a off s
  | .lw d a off => Sys2Proof.Machine.execLw d a off s
  | .lwu d a off => Sys2Proof.Machine.execLwu d a off s
  | .sb d a off => Sys2Proof.Machine.execSb d a off s
  | .sh d a off => Sys2Proof.Machine.execSh d a off s
  | .sw d a off => Sys2Proof.Machine.execSw d a off s
  | .flw d a off => Sys2Proof.Machine.execFlw d a off s
  | .fld d a off => Sys2Proof.Machine.execFld d a off s
  | .fsw d a off => Sys2Proof.Machine.execFsw d a off s
  | .fsd d a off => Sys2Proof.Machine.execFsd d a off s
  | .fldt d a f off => Sys2Proof.Machine.execFldt d a f off s
  | .fsdt d a off => Sys2Proof.Machine.execFsdt d a off s
  | .lda d a off => Sys2Proof.Machine.execLda d a off s
  | .stl d a off => Sys2Proof.Machine.execStl d a off s
  | .fadd d a b rm f => Sys2Proof.Machine.execFadd d a b rm f s
  | .fsub d a b rm f => Sys2Proof.Machine.execFsub d a b rm f s
  | .fmul d a b rm f => Sys2Proof.Machine.execFmul d a b rm f s
  | .fdiv d a b rm f => Sys2Proof.Machine.execFdiv d a b rm f s
  | .fsqrt d a rm f => Sys2Proof.Machine.execFsqrt d a rm f s
  | .fmin d a b f => Sys2Proof.Machine.execFmin d a b f s
  | .fmax d a b f => Sys2Proof.Machine.execFmax d a b f s
  | .fsgn d a b v f => Sys2Proof.Machine.execFsgn d a b v f s
  | .fcmp d a b v f => Sys2Proof.Machine.execFcmp d a b v f s
  | .frnd d a rm f => Sys2Proof.Machine.execFrnd d a rm f s
  | .fma d a b c rm f => Sys2Proof.Machine.execFma d a b c rm f s
  | .fms d a b c rm f => Sys2Proof.Machine.execFms d a b c rm f s
  | .fcvt d a src dst rm => Sys2Proof.Machine.execFcvt d a src dst rm s
  | .fmvg d a f => Sys2Proof.Machine.execFmvg d a f s
  | .fmvf d a f => Sys2Proof.Machine.execFmvf d a f s
  | .fsig d a f => Sys2Proof.Machine.execFsig d a f s
  | .fsigset d a f => Sys2Proof.Machine.execFsigset d a f s
  | .bsig f thr off => Sys2Proof.Machine.execBsig f thr off s
  | .beq a b off => Sys2Proof.Machine.execBeq a b off s
  | .bne a b off => Sys2Proof.Machine.execBne a b off s
  | .blt a b off => Sys2Proof.Machine.execBlt a b off s
  | .bge a b off => Sys2Proof.Machine.execBge a b off s
  | .bltu a b off => Sys2Proof.Machine.execBltu a b off s
  | .bgeu a b off => Sys2Proof.Machine.execBgeu a b off s
  | .jal off => Sys2Proof.Machine.execJal off s
  | .jalr d a imm => Sys2Proof.Machine.execJalr d a imm s
  | .amoadd d a b w ord => Sys2Proof.Machine.execAmoadd d a b w ord s
  | .amoswap d a b w ord => Sys2Proof.Machine.execAmoswap d a b w ord s
  | .amomin d a b u w ord => Sys2Proof.Machine.execAmomin d a b u w ord s
  | .amomax d a b u w ord => Sys2Proof.Machine.execAmomax d a b u w ord s
  | .amocas d a b w ord => Sys2Proof.Machine.execAmocas d a b w ord s
  | .mwcas d a => Sys2Proof.Machine.execMwcas d a s
  | .fence sc => Sys2Proof.Machine.execFence sc s
  | .reqr d a b => Sys2Proof.Machine.execReqr d a b s
  | .rqry d a => Sys2Proof.Machine.execRqry d a s
  | .loadimg d a => Sys2Proof.Machine.execLoadimg d a s
  | .launch d a b e => Sys2Proof.Machine.execLaunch d a b e s
  | .killr d a => Sys2Proof.Machine.execKillr d a s
  | .preemptKill d a b => Sys2Proof.Machine.execPreemptKill d a b s
  | .preemptSnapshot d a b => Sys2Proof.Machine.execPreemptSnapshot d a b s
  | .resumr d a b => Sys2Proof.Machine.execResumr d a b s
  | .strm d a b e => Sys2Proof.Machine.execStrm d a b e s
  | .sbar d a => Sys2Proof.Machine.execSbar d a s
  | .copy d a b e => Sys2Proof.Machine.execCopy d a b e s
  | .cmpct d a => Sys2Proof.Machine.execCmpct d a s
  | .publish d a => Sys2Proof.Machine.execPublish d a s
  | .migrate d a b => Sys2Proof.Machine.execMigrate d a b s
  | .coll d a b => Sys2Proof.Machine.execColl d a b s
  | .waitw d a b => Sys2Proof.Machine.execWaitw d a b s
  | .assert d a => Sys2Proof.Machine.execAssert d a s
  | .retract a => Sys2Proof.Machine.execRetract a s
  | .modify d a b => Sys2Proof.Machine.execModify d a b s
  | .settle d => Sys2Proof.Machine.execSettle d s
  | .select d a b => Sys2Proof.Machine.execSelect d a b s
  | .fired a => Sys2Proof.Machine.execFired a s
  | .wave => Sys2Proof.Machine.execWave s
  | .scoreclr a => Sys2Proof.Machine.execScoreclr a s
  | .trap e => Sys2Proof.Machine.execTrap e s
  | .hvcall e => Sys2Proof.Machine.execHvcall e s
  | .brk e => Sys2Proof.Machine.execBrk e s
  | .rett => Sys2Proof.Machine.execRett s
  | .sread d n m => Sys2Proof.Machine.execSread d n m s
  | .swrite d n m => Sys2Proof.Machine.execSwrite d n m s
  | .tlbinv a => Sys2Proof.Machine.execTlbinv a s
  | .tlbsync => Sys2Proof.Machine.execTlbsync s
  | .wfe => Sys2Proof.Machine.execWfe s
  | .halt => Sys2Proof.Machine.execHalt s
  | .replay a => Sys2Proof.Machine.execReplay a s
  | .fresSupply a b => Sys2Proof.Machine.execFresSupply a b s
  | .fresRetry a b => Sys2Proof.Machine.execFresRetry a b s
  | .fresKill a b => Sys2Proof.Machine.execFresKill a b s
  | .sqstart d a b => Sys2Proof.Machine.execSqstart d a b s
  | .cacheopClean a => Sys2Proof.Machine.execCacheopClean a s
  | .cacheopInval a => Sys2Proof.Machine.execCacheopInval a s
  | .cacheopFlush a => Sys2Proof.Machine.execCacheopFlush a s
  | .cacheopPfr a => Sys2Proof.Machine.execCacheopPfr a s
  | .cacheopPfw a => Sys2Proof.Machine.execCacheopPfw a s
  | .cacheopIinv a => Sys2Proof.Machine.execCacheopIinv a s
  | .vadd n => Sys2Proof.Machine.execVadd n s
  | .vsub n => Sys2Proof.Machine.execVsub n s
  | .vmul n => Sys2Proof.Machine.execVmul n s
  | .vfma n => Sys2Proof.Machine.execVfma n s
  | .vmin n => Sys2Proof.Machine.execVmin n s
  | .vmax n => Sys2Proof.Machine.execVmax n s
  | .vabs n => Sys2Proof.Machine.execVabs n s
  | .vneg n => Sys2Proof.Machine.execVneg n s
  | .vdiv n => Sys2Proof.Machine.execVdiv n s
  | .vsqrt n => Sys2Proof.Machine.execVsqrt n s
  | .vrsq n => Sys2Proof.Machine.execVrsq n s
  | .vrcp n => Sys2Proof.Machine.execVrcp n s
  | .vexp2 n => Sys2Proof.Machine.execVexp2 n s
  | .vlog2 n => Sys2Proof.Machine.execVlog2 n s
  | .vtanh n => Sys2Proof.Machine.execVtanh n s
  | .viadd n => Sys2Proof.Machine.execViadd n s
  | .visub n => Sys2Proof.Machine.execVisub n s
  | .vimul n => Sys2Proof.Machine.execVimul n s
  | .vand n => Sys2Proof.Machine.execVand n s
  | .vor n => Sys2Proof.Machine.execVor n s
  | .vxor n => Sys2Proof.Machine.execVxor n s
  | .vshl n => Sys2Proof.Machine.execVshl n s
  | .vshr n => Sys2Proof.Machine.execVshr n s
  | .vcmp n => Sys2Proof.Machine.execVcmp n s
  | .vsel n => Sys2Proof.Machine.execVsel n s
  | .vrsum n => Sys2Proof.Machine.execVrsum n s
  | .vrmax n => Sys2Proof.Machine.execVrmax n s
  | .vrmin n => Sys2Proof.Machine.execVrmin n s
  | .vargmx n => Sys2Proof.Machine.execVargmx n s
  | .vscan n => Sys2Proof.Machine.execVscan n s
  | .vperm n => Sys2Proof.Machine.execVperm n s
  | .vbcast n => Sys2Proof.Machine.execVbcast n s
  | .vpopc n => Sys2Proof.Machine.execVpopc n s
  | .vcvt n => Sys2Proof.Machine.execVcvt n s
  | .qz n => Sys2Proof.Machine.execQz n s
  | .dq n => Sys2Proof.Machine.execDq n s
  | .cv8 n => Sys2Proof.Machine.execCv8 n s
  | .bfly n => Sys2Proof.Machine.execBfly n s
  | .vsig n => Sys2Proof.Machine.execVsig n s
  | .sigchk n => Sys2Proof.Machine.execSigchk n s
  | .mxf n => Sys2Proof.Machine.execMxf n s
  | .mxclm n => Sys2Proof.Machine.execMxclm n s
  | .mxrel n => Sys2Proof.Machine.execMxrel n s
  | .mxmul n => Sys2Proof.Machine.execMxmul n s
  | .mxdrn n => Sys2Proof.Machine.execMxdrn n s
  | .mxzero n => Sys2Proof.Machine.execMxzero n s
  | .mxrec n => Sys2Proof.Machine.execMxrec n s
  | .mxsigm n => Sys2Proof.Machine.execMxsigm n s
  | .mxclmExecute t => Sys2Proof.Machine.execMxclmExecute t s
  | .mxrelExecute t => Sys2Proof.Machine.execMxrelExecute t s
  | .mxmulExecute t => Sys2Proof.Machine.execMxmulExecute t s
  | .mxzeroExecute t => Sys2Proof.Machine.execMxzeroExecute t s
  | .mxdrnExecute t => Sys2Proof.Machine.execMxdrnExecute t s
  | .mxsigmExecute t => Sys2Proof.Machine.execMxsigmExecute t s
  | .mxrecExecute t => Sys2Proof.Machine.execMxrecExecute t s
  | .steer n => Sys2Proof.Machine.execSteer n s
  | .merge n => Sys2Proof.Machine.execMerge n s
  | .reord n => Sys2Proof.Machine.execReord n s
  | .reorderDueEmit n => Sys2Proof.Machine.execReorderDueEmit n s
  | .loop n => Sys2Proof.Machine.execLoop n s
  | .loopDoneAbsorb r src => Sys2Proof.Machine.execLoopDoneAbsorb r src s
  | .next n => Sys2Proof.Machine.execNext n s
  | .lexit n => Sys2Proof.Machine.execLexit n s
  | .call n => Sys2Proof.Machine.execCall n s
  | .ret n => Sys2Proof.Machine.execRet n s
  | .ctr n => Sys2Proof.Machine.execCtr n s
  | .counterChainEmit n => Sys2Proof.Machine.execCounterChainEmit n s
  | .sloop n => Sys2Proof.Machine.execSloop n s
  | .isect n => Sys2Proof.Machine.execIsect n s
  | .union n => Sys2Proof.Machine.execUnion n s
  | .stopg n => Sys2Proof.Machine.execStopg n s
  | .delay n => Sys2Proof.Machine.execDelay n s
  | .delayRelease n => Sys2Proof.Machine.execDelayRelease n s
  | .sink n => Sys2Proof.Machine.execSink n s
  | .dup n => Sys2Proof.Machine.execDup n s
  | .switch n => Sys2Proof.Machine.execSwitch n s
  | .selx n => Sys2Proof.Machine.execSelx n s
  | .cjoin n => Sys2Proof.Machine.execCjoin n s
  | .cleave n => Sys2Proof.Machine.execCleave n s
  | .cbar n => Sys2Proof.Machine.execCbar n s
  | .cnt n => Sys2Proof.Machine.execCnt n s
  | .const n => Sys2Proof.Machine.execConst n s
  | .agen n => Sys2Proof.Machine.execAgen n s
  | .agenEmit n => Sys2Proof.Machine.execAgenEmit n s
  | .ldn n => Sys2Proof.Machine.execLdn n s
  | .stn n => Sys2Proof.Machine.execStn n s
  | .ldx n => Sys2Proof.Machine.execLdx n s
  | .stx n => Sys2Proof.Machine.execStx n s
  | .atom n => Sys2Proof.Machine.execAtom n s
  | .mcas n => Sys2Proof.Machine.execMcas n s
  | .pref n => Sys2Proof.Machine.execPref n s
  | .spacc n => Sys2Proof.Machine.execSpacc n s
  | .spaccFlushEmit n => Sys2Proof.Machine.execSpaccFlushEmit n s
  | .param n => Sys2Proof.Machine.execParam n s
  | .accessPerform r k => Sys2Proof.Machine.execAccessPerform r k s
  | .delta n => Sys2Proof.Machine.execDelta n s
  | .alpha n => Sys2Proof.Machine.execAlpha n s
  | .bjoin n => Sys2Proof.Machine.execBjoin n s
  | .bneg n => Sys2Proof.Machine.execBneg n s
  | .score n => Sys2Proof.Machine.execScore n s
  | .scoreTimeout n key => Sys2Proof.Machine.execScoreTimeout n key s
  | .term n => Sys2Proof.Machine.execTerm n s
  | .csuDelivery p k => Sys2Proof.Machine.execCsuDelivery p k s
  | .deltaSettled p n => Sys2Proof.Machine.execDeltaSettled p n s
  | .tokenHop r src par => Sys2Proof.Machine.execTokenHop r src par s
  | .tokenDeliver r src par => Sys2Proof.Machine.execTokenDeliver r src par s
  | .sprueRefill r k => Sys2Proof.Machine.execSprueRefill r k s
  | .parkTableRetry n => Sys2Proof.Machine.execParkTableRetry n s
  | .contextReturn r c => Sys2Proof.Machine.execContextReturn r c s
  | .ctxwaitExpiry n => Sys2Proof.Machine.execCtxwaitExpiry n s
  | .regionQuiescence r => Sys2Proof.Machine.execRegionQuiescence r s
  | .hangTimeout r => Sys2Proof.Machine.execHangTimeout r s
  | .cfgStoreUe t => Sys2Proof.Machine.execCfgStoreUe t s
  | .pfqDeferredWrite p => Sys2Proof.Machine.execPfqDeferredWrite p s
  | .heldAccessRetranslate r k => Sys2Proof.Machine.execHeldAccessRetranslate r k s
  | .pageWalk g p va acc lvl => Sys2Proof.Machine.execPageWalk g p va acc lvl s
  | .homeRequest g line req => Sys2Proof.Machine.execHomeRequest g line req s
  | .directoryMerge base size => Sys2Proof.Machine.execDirectoryMerge base size s
  | .recallTimeout g => Sys2Proof.Machine.execRecallTimeout g s
  | .agentDeath g => Sys2Proof.Machine.execAgentDeath g s
  | .crucibleLockGrant k => Sys2Proof.Machine.execCrucibleLockGrant k s
  | .mwcasCommit k => Sys2Proof.Machine.execMwcasCommit k s
  | .migrationSwitch k => Sys2Proof.Machine.execMigrationSwitch k s
  | .publishFlip k => Sys2Proof.Machine.execPublishFlip k s
  | .tundishAdmissionRound d => Sys2Proof.Machine.execTundishAdmissionRound d s
  | .loadimgComplete k => Sys2Proof.Machine.execLoadimgComplete k s
  | .launchTakeEffect k => Sys2Proof.Machine.execLaunchTakeEffect k s
  | .loadComplete k => Sys2Proof.Machine.execLoadComplete k s
  | .killrComplete k => Sys2Proof.Machine.execKillrComplete k s
  | .snapshotComplete k => Sys2Proof.Machine.execSnapshotComplete k s
  | .streamRoundAccess k => Sys2Proof.Machine.execStreamRoundAccess k s
  | .strmComplete k => Sys2Proof.Machine.execStrmComplete k s
  | .sbarComplete k => Sys2Proof.Machine.execSbarComplete k s
  | .copyComplete k => Sys2Proof.Machine.execCopyComplete k s
  | .cmpctComplete k => Sys2Proof.Machine.execCmpctComplete k s
  | .collComplete k peer news => Sys2Proof.Machine.execCollComplete k peer news s
  | .settleComplete k => Sys2Proof.Machine.execSettleComplete k s
  | .selectBatch k => Sys2Proof.Machine.execSelectBatch k s
  | .tlbsyncComplete c => Sys2Proof.Machine.execTlbsyncComplete c s
  | .waitwWake c => Sys2Proof.Machine.execWaitwWake c s
  | .wfeWake c => Sys2Proof.Machine.execWfeWake c s
  | .timer c => Sys2Proof.Machine.execTimer c s
  | .interruptTake c => Sys2Proof.Machine.execInterruptTake c s
  | .thermalLimit d cl => Sys2Proof.Machine.execThermalLimit d cl s
  | .partitionMcheckStop p => Sys2Proof.Machine.execPartitionMcheckStop p s
  | .idleEntry r => Sys2Proof.Machine.execIdleEntry r s
  | .regionWake r => Sys2Proof.Machine.execRegionWake r s
  | .dieW4Entry d => Sys2Proof.Machine.execDieW4Entry d s
  | .timecmpSWrite c v => Sys2Proof.Machine.execTimecmpSWrite c v s
  | .pfqheadWrite c v => Sys2Proof.Machine.execPfqheadWrite c v s
  | .pfqtailRead c d => Sys2Proof.Machine.execPfqtailRead c d s
  | .wmbaseWrite c v => Sys2Proof.Machine.execWmbaseWrite c v s
  | .tqcfgWrite c v => Sys2Proof.Machine.execTqcfgWrite c v s
  | .sqctlStop c => Sys2Proof.Machine.execSqctlStop c s
  | .sqctlGo c => Sys2Proof.Machine.execSqctlGo c s
  | .fgctlStop c => Sys2Proof.Machine.execFgctlStop c s
  | .preciseStopComplete r => Sys2Proof.Machine.execPreciseStopComplete r s
  | .fgctlGo c => Sys2Proof.Machine.execFgctlGo c s
  | .fgctlUnpark c => Sys2Proof.Machine.execFgctlUnpark c s
  | .fgctlClrmg c => Sys2Proof.Machine.execFgctlClrmg c s
  | .fglistGo c => Sys2Proof.Machine.execFglistGo c s
  | .dbglistComplete r => Sys2Proof.Machine.execDbglistComplete r s
  | .fglstatRead c d => Sys2Proof.Machine.execFglstatRead c d s
  | .traceRecordWrite p => Sys2Proof.Machine.execTraceRecordWrite p s
  | .traceRecordDrop p => Sys2Proof.Machine.execTraceRecordDrop p s
  | .fgtrcntRead c d => Sys2Proof.Machine.execFgtrcntRead c d s
  | .fgcstopWrite c v => Sys2Proof.Machine.execFgcstopWrite c v s
  | .crashkGo c => Sys2Proof.Machine.execCrashkGo c s
  | .registerWrite c n v => Sys2Proof.Machine.execRegisterWrite c n v s
  | .doorbell p => Sys2Proof.Machine.execDoorbell p s
  | .hostWindowAccess p q => Sys2Proof.Machine.execHostWindowAccess p q s
  | .tdispMessage p q => Sys2Proof.Machine.execTdispMessage p q s
  | .getVersion fn req => Sys2Proof.Machine.execGetVersion fn req s
  | .getCapabilities fn req => Sys2Proof.Machine.execGetCapabilities fn req s
  | .negotiateAlgorithms fn req => Sys2Proof.Machine.execNegotiateAlgorithms fn req s
  | .getDigests fn req => Sys2Proof.Machine.execGetDigests fn req s
  | .getCertificate fn req => Sys2Proof.Machine.execGetCertificate fn req s
  | .challenge fn req => Sys2Proof.Machine.execChallenge fn req s
  | .getMeasurements fn req => Sys2Proof.Machine.execGetMeasurements fn req s
  | .keyExchange fn req => Sys2Proof.Machine.execKeyExchange fn req s
  | .finish fn req => Sys2Proof.Machine.execFinish fn req s
  | .keyUpdate tgt => Sys2Proof.Machine.execKeyUpdate tgt s
  | .endSession fn req => Sys2Proof.Machine.execEndSession fn req s
  | .flitReceive l f => Sys2Proof.Machine.execFlitReceive l f s
  | .linkDown l => Sys2Proof.Machine.execLinkDown l s
  | .storageDma q => Sys2Proof.Machine.execStorageDma q s
  | .deviceBoot => Sys2Proof.Machine.execDeviceBoot s
  | .partitionCreate p cfg => Sys2Proof.Machine.execPartitionCreate p cfg s
  | .partitionDestroy p => Sys2Proof.Machine.execPartitionDestroy p s
  | .illegalWord w => Sys2Proof.Machine.execIllegalWord w s
  | .instructionFetchFault cause tval => Sys2Proof.Machine.execInstructionFetchFault cause tval s
  | .linkRetrain l => Sys2Proof.Machine.execLinkRetrain l s
  | .thermalCool d cl => Sys2Proof.Machine.execThermalCool d cl s
  | .droopEvent d cl => Sys2Proof.Machine.execDroopEvent d cl s

end Sys2Proof.Machine
end

