-- ==== Sys2Proof/Machine/Order.lean ====
section
/-!
DEFINITION. What a step puts around a turn: the firings of one tile go in the order of their ready times (R36), and a STRM or SBAR
completes once what its tokens lead to, or its region, has settled (R301, R302).
-/

namespace Sys2Proof.Machine

open Sys2Proof

/-- A node's turn: the node word in the region's node store, at the site. A slot without a node does nothing. -/
def runNode (s : State) (n : Site) : Out :=
  match (nodeWordAt s n).bind decodeNode with
  | some i => exec i { s with site := n }
  | none => .next s

/-! ### The order of a tile (R36) -/

/-- Activations that may fire a node: those of its waiting tokens and pending results, and the root one. -/
def nodeActs (f : Fabric) (row : BitVec 5) (col slot : BitVec 6) : List (BitVec 12 × BitVec 16) :=
  let toks := (f.waiting.map (·.tok)).filter fun t => t.drow == row && t.dcol == col && t.node == slot
  ((0, 0) :: (toks.map fun t => (t.ctx, t.iter)) ++ (nodeSt f row col slot).pend.filterMap depsAct).dedup

/-- Sites at which nodes of a region could fire, of those nodes that a test names. -/
def sitesOf (s : State) (r : RegionId) (p : NodeAt → Bool) : List Site :=
  match (s.ctl r).cfg with
  | none => []
  | some g => (g.nodes.filter p).flatMap fun x =>
      (nodeActs (s.fab r) x.row x.col x.slot).map fun a => ⟨r, x.row, x.col, x.slot, a.1, a.2⟩

/-- Tokens of a site's activation that wait at one of its ports. -/
def portLen (f : Fabric) (n : Site) (i : BitVec 2) : Nat := f.waiting.countP (atPort n i)

/-- The ready time of a firing that takes s to t (R36): when its last operand arrived, or when its queue had room again; a result
left pending needs only the room, and a due token of an ordered MERGE or a REORD became due with its counter (log 84). -/
def readyTime (s t : State) (n : Site) : Nat :=
  let f := s.fab n.r
  let y := s.node n
  let ports : List (BitVec 2) := [0, 1, 2, 3]
  let used := ports.filter fun i => portLen (t.fab n.r) n i < portLen f n i
  let pending := y.pend.any fun ds => depsAct ds == some (n.ctx, n.iter)
  let heads := ((if used.isEmpty && !pending then ports else used).filterMap (headOf f n)).map (·.at_.toNat)
  heads.foldl max y.roomAt.toNat

/-- Has the turn of a site that takes s to t started a firing of its tile? -/
def hasFired (s t : State) (n : Site) : Bool := firedWithin t n 1 && !firedWithin s n 1

/-- A firing's place in its tile: ready time, slot, CTX, ITER; none when the turn starts none. -/
def firingKey (s : State) (n : Site) (o : Out) : Option (List Nat) :=
  match o with
  | .next t => if hasFired s t n then some [readyTime s t n, n.slot.toNat, n.ctx.toNat, n.iter.toNat] else none
  | .fault _ | .refused _ => none

/-- The due tokens of a node as sites with the moments they became due (R249). -/
def dueSites (s : State) (r : RegionId) (x : NodeAt) : List (Site × Nat) :=
  let y := nodeSt (s.fab r) x.row x.col x.slot
  let n := nodeFields x.word
  match dueTok (s.fab r) y n with
  | some d => [(⟨r, x.row, x.col, x.slot, d.ctx, d.iter⟩, max y.roomAt.toNat (ordCtr y n d.ctx).dueAt.toNat)]
  | none => []

/-- Places of the firings that a tile could start now: its nodes' and the due tokens of ordered nodes. -/
def tileKeys (s : State) (n : Site) : List (List Nat) :=
  let here (x : NodeAt) : Bool := x.row == n.row && x.col == n.col
  let dues := match (s.ctl n.r).cfg with | none => [] | some g => (g.nodes.filter here).flatMap (dueSites s n.r)
  ((sitesOf s n.r here).filterMap fun m => firingKey s m (runNode s m)) ++ dues.filterMap fun (m, at_) =>
    (firingKey s m (execReorderDueEmit m s)).map fun _ => [at_, m.slot.toNat, m.ctx.toNat, m.iter.toNat]

/-- Does another firing of the tile go before one with this place? -/
def isLater (s : State) (n : Site) (k : Option (List Nat)) : Bool :=
  match k with
  | some k => (tileKeys s n).any fun j => j != k && keyLe j k
  | none => false

/-- Must the turn of a node wait for another firing of its tile? -/
def fireHeld (s : State) (n : Site) : Bool := isLater s n (firingKey s n (runNode s n))

/-- Must the emission of a due token wait for another firing of its tile? -/
def dueHeld (s : State) (n : Site) : Bool :=
  isLater s n <| (firingKey s n (execReorderDueEmit n s)).map fun _ =>
    [max (s.node n).roomAt.toNat (((s.node n).ctrs.find? (·.ctx == n.ctx)).map (·.dueAt.toNat) |>.getD 0),
      n.slot.toNat, n.ctx.toNat, n.iter.toNat]

/-! ### Where a round's tokens go (R301) -/

/-- A node's place: tile and slot. -/
abbrev Place := BitVec 5 × BitVec 6 × BitVec 6

def NodeAt.place (x : NodeAt) : Place := (x.row, x.col, x.slot)
def NodeAt.opc (x : NodeAt) : BitVec 8 := x.word.extractLsb' 0 8

/-- The place that a token is bound for. -/
def Token.place (t : Token) : Place := (t.drow, t.dcol, t.node)

/-- The place that a route word sends to from a tile, if it is enabled (R116). -/
def routePlace (w : BitVec 32) (x : NodeAt) : List Place :=
  let d := routeDest w x.row x.col
  if w.getLsbD 31 then [(BitVec.ofInt 5 d.row, BitVec.ofInt 6 d.col, w.extractLsb' 12 6)] else []

/-- The places that a node's results may go to: by its routes, and from a RET to where a CALL's ROUTE1 leads (R116, R253). -/
def targets (g : Cfg) (x : NodeAt) : List Place :=
  let n := nodeFields x.word
  routePlace n.route0 x ++ routePlace n.route1 x ++
    if x.opc == 0x57 then (g.nodes.filter (·.opc == 0x56)).flatMap fun c => routePlace (nodeFields c.word).route1 c else []

/-- Places reached from some in at most k results. -/
def reachGo (g : Cfg) : Nat → List Place → List Place
  | 0, l => l
  | k + 1, l => reachGo g k (l ++ (g.nodes.filter fun x => l.contains x.place).flatMap (targets g)).dedup

/-- Places that a token at a place leads to, itself among them. -/
def downstream (g : Cfg) (p : Place) : List Place := reachGo g g.nodes.length [p]

/-- Nodes whose firings make memory accesses: the memory nodes and those of the rule engine. -/
def NodeAt.accesses (x : NodeAt) : Bool :=
  (0x71 ≤ x.opc.toNat && x.opc.toNat ≤ 0x77) || (0x80 ≤ x.opc.toNat && x.opc.toNat ≤ 0x85)

/-- Does a token at a place lead to a memory access? -/
def leadsToAccess (g : Cfg) (p : Place) : Bool :=
  (g.nodes.filter (·.accesses)).any fun x => (downstream g p).contains x.place

/-- Places through which the tokens of an inward port lead to memory accesses. -/
def roundPlaces (g : Cfg) (code : Word) : List Place :=
  let t := boundaryTile g code
  match pbtOf g code with
  | some e => (downstream g (t.1, t.2, e.slot.setWidth 6)).filter (leadsToAccess g)
  | none => []

/-- Places whose tokens lead to some places; all where one of these waits for others otherwise than through tokens: a CBAR, or a node
with commands in an array queue. -/
def feeders (g : Cfg) (l : List Place) : Place → Bool :=
  let coupled := g.nodes.any fun x => l.contains (NodeAt.place x) && (x.opc == 0x64 || (0x40 ≤ x.opc.toNat && x.opc.toNat ≤ 0x47))
  let from_ := (g.nodes.filter fun (x : NodeAt) => (downstream g x.place).any l.contains).map NodeAt.place
  fun p => coupled || l.contains p || from_.contains p

/-! ### A region that has settled (R301, R302) -/

/-- Sources of tokens that could hop or be delivered. -/
def tokSrcs (f : Fabric) : List TokSrc :=
  (f.links.map fun l => .link l.row l.col l.dir) ++ f.outq.flatMap fun e => [.out e.row e.col e.slot false, .out e.row e.col e.slot true]

/-- What a region's fabric could do of itself at some places: tokens hop and arrive, refill, nodes fire and emit, commands execute,
accesses perform. -/
def regionTurns (s : State) (r : RegionId) (p : Place → Bool) : List (State → Out) :=
  let f := s.fab r
  let sites := sitesOf s r fun x => p x.place
  let cfg : List NodeAt := match (s.ctl r).cfg with | some g => g.nodes.filter fun x => p x.place | none => []
  ((tokSrcs f).flatMap fun x => [execTokenHop r x Flips.clean, execTokenDeliver r x Flips.clean]) ++
    ((List.range f.waiting.length).map (execSprueRefill r)) ++
    (sites.map fun n => fun s => runNode s n) ++
    ((cfg.flatMap (dueSites s r)).map fun x => execReorderDueEmit x.1) ++
    (sites.flatMap fun n => [execCounterChainEmit n, execAgenEmit n, execSpaccFlushEmit n]) ++
    (f.arrayq.flatMap fun c => [execMxclmExecute ⟨⟨r, c.row, c.col⟩, 0⟩, execMxrelExecute ⟨⟨r, c.row, c.col⟩, 0⟩,
      execMxmulExecute ⟨⟨r, c.row, c.col⟩, 0⟩, execMxzeroExecute ⟨⟨r, c.row, c.col⟩, 0⟩, execMxdrnExecute ⟨⟨r, c.row, c.col⟩, 0⟩,
      execMxsigmExecute ⟨⟨r, c.row, c.col⟩, 0⟩, execMxrecExecute ⟨⟨r, c.row, c.col⟩, 0⟩]) ++
    (f.accs.filter fun a => p (a.site.row, a.site.col, a.site.slot)).flatMap fun a =>
      (List.range (max 1 a.pieces.length)).map fun i => execAccessPerform r (64 * a.id + i)

/-- The fabric as far as some places are concerned: what is bound for them or stands at them. Tokens that share a queue with one bound
for them stay. -/
def fabricAt (p : Place → Bool) (f : Fabric) : Fabric :=
  let at_ (row : BitVec 5) (col slot : BitVec 6) : Bool := p (row, col, slot)
  { f with
    outq := f.outq.filter fun e => at_ e.row e.col e.slot || e.deps.any fun d => p d.tok.place
    links := f.links.filter fun l => f.links.any fun m => m.row == l.row && m.col == l.col && m.dir == l.dir && p m.tok.place
    waiting := f.waiting.filter fun w => p w.tok.place
    parkArea := f.parkArea.filter fun w => p w.tok.place
    parkTab := f.parkTab.filter fun x => at_ x.row x.col x.slot
    nodes := f.nodes.filter fun x => at_ x.row x.col x.slot
    arrayq := f.arrayq.filter fun c => at_ c.row c.col c.slot
    accs := f.accs.filter fun a => at_ a.site.row a.site.col a.site.slot }

/-- Does a turn leave the state as it is, but for the site it works at? -/
def changesNothing (s : State) (t : State → Out) : Bool :=
  match t s with
  | .next s' => decide ({ s' with site := s.site } = s)
  | .fault _ | .refused _ => false

/-- Something of a fabric that time or a resolution still brings on: a delayed departure, a parked or held activation, a token that
waits for a context, a pending key. -/
def stillToCome (f : Fabric) : Bool :=
  f.outq.any (·.after != 0) || !f.parkTab.isEmpty || !f.parkArea.isEmpty ||
    f.accs.any (fun a => a.held || a.mwcas.isSome || a.pieces.any fun p => !p.done && a.space == 1) ||
    f.nodes.any fun x => !x.held.isEmpty || !x.keys.isEmpty

/-- Has a fabric a token under way that nothing but room in a queue holds back? -/
def inTransit (s : State) (r : RegionId) (f : Fabric) : Bool :=
  !f.links.isEmpty || f.outq.any fun e => (outHead s r e.row e.col e.slot false).isSome || (outHead s r e.row e.col e.slot true).isSome

/-- The state as some places of a region meet it in a later fc, when locks, recalls, links, a log's order and sleep hold nothing back
any more. -/
def laterAt (s : State) (r : RegionId) (p : Place → Bool) : State :=
  let s := s.updFab r fun f => { fabricAt p f with fired := [], lastDel := [], cohFc := [], sent := [] }
  let s := (s.updDbg r fun d => { d with replay := none }).updCtl r fun c => { c with power := 0 }
  s.updMs fun ms => { ms with
    locks := [], recalls := []
    net := { ms.net with links := ms.net.links.map fun (k : Link) => { k with down := false } } }

/-- Some places of a region have settled: it runs, nothing is still to come there, and no turn of theirs, in a later fc, changes
anything. What waits then waits for tokens that are not there yet (log 78). -/
def settledAt (s : State) (r : RegionId) (p : Place → Bool) : Bool :=
  let later := laterAt s r p
  (s.ctl r).st == .running && (s.dbg r).stop == .going && !stillToCome (later.fab r) && !inTransit s r (later.fab r) &&
    (regionTurns later r p).all (changesNothing later)

/-- A region has settled. -/
def regionSettled (s : State) (r : RegionId) : Bool := settledAt s r fun _ => true

/-- Does a fabric hold a token, an operand or a result? -/
def fabricBusy (f : Fabric) : Bool :=
  !f.links.isEmpty || f.outq.any (!·.deps.isEmpty) || !f.waiting.isEmpty || !f.parkArea.isEmpty || !f.parkTab.isEmpty ||
    !f.arrayq.isEmpty || !f.accs.isEmpty || f.nodes.any nodeBusy

/-- May tokens of an inward round still lead to accesses: some stand where they do, and what feeds these places has not settled
(R301; log 78)? -/
def roundBusy (s : State) (r : RegionId) (code : Word) : Bool :=
  match (s.ctl r).cfg with
  | none => false
  | some g =>
    let l := roundPlaces g code
    fabricBusy (fabricAt l.contains (s.fab r)) && !settledAt s r (feeders g l)

/-- Does the step hold an operation's completion back: an inward STRM's, whose tokens lead to accesses yet (R301), or an SBAR's
(R302)? -/
def opHeld (s : State) (k : Nat) : Bool :=
  match findOp s k with
  | some o => match o.kind with
    | .strm r code _ _ out => !out && roundBusy s r code
    | .sbar r => !regionSettled s r
    | _ => false
  | none => false

/-- Is an event held back? -/
def heldBack (s : State) (i : Instr) : Bool :=
  match i with
  | .reorderDueEmit n => dueHeld s n
  | .strmComplete k | .sbarComplete k => opHeld s k
  | _ => false

end Sys2Proof.Machine
end

