-- ==== Sys2Proof/Machine/Step.lean ====
section
/-!
DEFINITION. One step: one turn of one agent (log 1). An empty agenda boots the device or lets the current core go on.
-/

namespace Sys2Proof.Machine

open Sys2Proof

/-- A core's turn. -/
def coreTurn (s : State) : Out :=
  match coreNext s with
  | .idle s => .next s
  | .run i s => exec i s

/-- A node's turn; it comes to nothing while another firing of its tile goes first (R36). -/
def fireTurn (s : State) (n : Site) : Out := if fireHeld s n then .next s else runNode s n

/-- An event's turn; it comes to nothing while it is held back. -/
def eventTurn (s : State) (i : Instr) : Out := if heldBack s i then .next s else exec i s

/-- A turn of the agenda. -/
def runTurn (s : State) : Turn → Out
  | .core c => coreTurn { s with cur := c }
  | .fire n => fireTurn s n
  | .event i => eventTurn s i

/-- One step of the machine. -/
def step (s : State) : Host.Outcome State Fault Refusal :=
  match s.agenda with
  | [] => if s.booted then coreTurn (tick s) else exec .deviceBoot (tick s)
  | t :: rest => runTurn (tick { s with agenda := rest }) t

/-- Partition 0 as `withFetchWord` sets it: running, granted low memory, translation enabled with the top table at PA 0. -/
def fetchPart (p : Partition) : Partition := { p with st := .running, grant := [(0, 2 ^ 29)], ptroot := 1, keyed := true }

/-- Memory with a top entry at PA 0, an L1 leaf for the first 512 MiB, and a word at PA 0x20000. -/
def fetchMem (m : Memory) (w : Nat) : Memory :=
  Memory.writeLE (Memory.writeLE (Memory.writeLE m 0 0x10001 8) 0x10000 0x1CF 8) 0x20000 w 4

/-- A one-node configuration. -/
def fetchCfg (w : Nat) : Cfg :=
  ⟨1, 1, 0, 0, 16, 0x10000, [⟨0, 0, 0, BitVec.ofNat 128 w⟩], [], [], [], 0⟩

/-- s with an instruction stored where the next step fetches it: a core word at the pc of SY core 0, which runs in
partition 0; a node word in slot 0 of tile (0,0) of region 0, which runs and has its turn (log 11). -/
def State.withFetchWord (s : State) (nbits w : Nat) : State :=
  if nbits ≤ 32 then
    let s := { s with agenda := [.core (.sy 0)] }
    let s := s.updPart 0 fetchPart
    let s := s.updMs fun ms => { ms with mem := fetchMem ms.mem w }
    s.updCore (.sy 0) fun c => { c with part := some 0, run := .running, pc := 0x20000 }
  else
    let s := { s with agenda := [.fire ⟨0, 0, 0, 0, 0, 0⟩] }
    s.updCtl 0 fun c => { c with st := .running, crows := 1, ccols := 1, cfg := some (fetchCfg w) }

end Sys2Proof.Machine
end

