-- ==== Sys2Proof/Safety.lean ====
section
/-!
DEFINITION. The words in which statements about the machine are made: when a core's instruction can complete, the state it
completes into, what an access touches, when a node can fire, and the invariant of memory.
-/

namespace Sys2Proof.Machine

open Sys2Proof

/-! ### Instructions of a core -/

/-- None of the registers `rs` is pending: an instruction of the current core that names them need not wait (R163). -/
def State.Free (s : State) (rs : List Reg) : Prop := ∀ r ∈ rs, s.me.pending r = false

/-- An instruction of the core whose turn it is can complete without more ado: no register is pending, and the core does not
single-step at U level (R392). -/
def State.Ready (s : State) (rs : List Reg) : Prop :=
  s.Free rs ∧ ¬(s.me.level = .u ∧ s.me.dbgc.getLsbD 0 = true)

/-- The g registers that an instruction of the cores reads or writes: it waits while one of them is pending (R141, R163). -/
def gRegs : Instr → List Reg
  | .add d a b | .sub d a b | .and d a b | .or d a b | .xor d a b | .sll d a b | .srl d a b | .sra d a b | .slt d a b | .sltu d a b
  | .min d a b | .max d a b | .mul d a b | .mulh d a b | .mulhu d a b | .div d a b | .divu d a b | .rem d a b | .remu d a b
  | .amoadd d a b _ _ | .amoswap d a b _ _ | .amomin d a b _ _ _ | .amomax d a b _ _ _ | .amocas d a b _ _ | .waitw d a b
  | .reqr d a b | .resumr d a b | .preemptSnapshot d a b | .migrate d a b | .coll d a b | .sqstart d a b | .select d a b
  | .modify d a b => [d, a, b]
  | .launch d a b e | .strm d a b e | .copy d a b e => [d, a, b, e]
  | .clz d a | .popc d a | .addi d a _ | .andi d a _ | .ori d a _ | .xori d a _ | .slti d a _ | .slli d a _ | .srli d a _
  | .srai d a _ | .ld d a _ | .sd d a _ | .lb d a _ | .lbu d a _ | .lh d a _ | .lhu d a _ | .lw d a _ | .lwu d a _ | .sb d a _
  | .sh d a _ | .sw d a _ | .lda d a _ | .stl d a _ | .jalr d a _ | .mwcas d a | .rqry d a | .loadimg d a | .killr d a
  | .preemptKill d a _ | .sbar d a | .cmpct d a | .publish d a | .assert d a => [d, a]
  | .lui d _ | .fcmp d _ _ _ _ | .fmvg d _ _ | .fsig d _ _ | .settle d | .sread d _ _ | .swrite d _ _ => [d]
  | .flw _ a _ | .fld _ a _ | .fsw _ a _ | .fsd _ a _ | .fldt _ a _ _ | .fsdt _ a _ | .fmvf _ a _ | .fsigset _ a _ | .tlbinv a
  | .replay a | .fresRetry a _ | .fresKill a _ | .cacheopClean a | .cacheopInval a | .cacheopFlush a | .cacheopPfr a | .cacheopPfw a
  | .cacheopIinv a | .retract a | .fired a | .scoreclr a => [a]
  | .beq a b _ | .bne a b _ | .blt a b _ | .bge a b _ | .bltu a b _ | .bgeu a b _ | .fresSupply a b => [a, b]
  | .jal _ => [31]
  | .fcvt d a src dst _ => match CvtTyFmt src, CvtTyFmt dst with
    | none, some _ => [a]
    | some _, none => [d]
    | some _, some _ | none, none => []
  | _ => []

/-- The state in which the current core has completed an instruction and goes on at an address. DBGC.SKIP clears at U level
(R392). -/
def State.went (s : State) (pc : Word) : State :=
  s.updMe fun c => { c with pc := pc, dbgc := if c.level = .u then c.dbgc &&& ~~~2#64 else c.dbgc }

/-- The state in which the current core has completed an instruction and moved to the next word: at U level under single
step it has taken STEP there (R392). -/
def State.retired (s : State) : State :=
  if s.me.level = .u ∧ s.me.dbgc.getLsbD 0 = true then takeTrap (s.went (s.me.pc + 4)) s.cur .s 0x03 false 0 (s.me.pc + 4)
  else s.went (s.me.pc + 4)

/-- The instruction of the current core has raised a cause: the exception is taken from the state before it (R140, R192). A response
that failed authentication is spent with it (R405). -/
def State.raised (s : State) (cause : BitVec 8) (tval : Word) : State :=
  takeTrap (if cause = cLINK_AUTH then authTaken (s.updMe clearSkip) tval else s.updMe clearSkip) s.cur
    (trapLevel cause s.me.level) cause false tval s.me.pc

/-- A load of n bytes at a VA by the current core meets no cause and no wait: it reads v and leaves s'. -/
def State.Loads (s : State) (va : Word) (n v : Nat) (s' : State) : Prop :=
  va.toNat % n = 0 ∧ watchHit s.me va n false = false ∧
    ∃ t s1, translate s (coreCtx s) .read va = .ok t s1 ∧ readAt s1 (coreCtx s) t n va = .ok v s'

/-- A store of the n low bytes of v at a VA by the current core meets no cause and no wait: it leaves s'. -/
def State.Stores (s : State) (va : Word) (v n : Nat) (s' : State) : Prop :=
  va.toNat % n = 0 ∧ watchHit s.me va n true = false ∧
    ∃ t s1, translate s (coreCtx s) .write va = .ok t s1 ∧ writeAt s1 (coreCtx s) t v n va = .ok () s'

/-- Physical addresses of the leaf that a walk for a VA may mark (R85), with their mirrors in open migration windows (R93). -/
def State.markedBy (s : State) (va : Word) : List Nat :=
  match s.me.part with
  | none => []
  | some p => match walk s (s.part p).ptroot va with
    | .ok l => (List.range 8).flatMap fun i => (l.at_ :: mirrors s.ms l.at_).map (· + i)
    | .error _ => []

/-- Physical addresses of the dirty bytes that the current core holds of S pages, with their mirrors in open migration windows: what
an access that needs room for another copy may write home (R78, R88, R93; log 62). -/
def State.dirtyHeld (s : State) : List Nat :=
  (s.ms.slines.filter (·.agent == .coreD s.cur)).flatMap fun l =>
    ((List.range 128).filter fun i => l.dirty.getLsbD i).flatMap fun i =>
      (128 * l.line + i) :: mirrors s.ms (128 * l.line + i)

/-- The byte at home at a physical address. -/
def State.byteAt (s : State) (pa : Nat) : Byte := Memory.read s.ms.mem pa

/-- An asynchronous operation with token register g[d] and source registers `uses` can be issued for partition p: the core
runs for p, fewer than 16 of its registers are pending, and no lock holds back what the core has stored on S pages (R99, R163,
R165). -/
def State.CanIssue (s : State) (d : Reg) (uses : List Reg) (p : PartId) : Prop :=
  s.Free (d :: uses) ∧ (pendCount s.me < 16 ∨ d = 0) ∧ s.me.part = some p ∧ syncHeld s (.coreD s.cur) = false

/-- A state with one more operation under way. -/
def State.withOp (s : State) (o : Op) : State := { s with ops := s.ops ++ [o] }

/-- The floating-point flags of the current core with further ones raised. -/
def State.withFlags (s : State) (fl : FpFlags) : State := s.updMe fun c => { c with fcsr := c.fcsr ||| fl.bits.zeroExtend 64 }

/-- No exception that an operation signals is enabled (R51). -/
def State.NoFpTrap (s : State) (fl : FpFlags) : Prop :=
  (fl.bits &&& s.me.fcsr.extractLsb' 8 5) = 0

/-- A result tag is not trapped by SIGLOW: the test is off, the tag reaches the threshold, or an operand was below it
(R66). -/
def State.NoSigLow (s : State) (tag : Nat) (xs : List Nat) : Prop :=
  s.me.sigctl.getLsbD 7 = true → sigThr s.me.sigctl ≤ tag ∨ ∃ x ∈ xs, x < sigThr s.me.sigctl

/-- A floating-point instruction whose result meets no trap keeps the flags it signals, writes value bits and tag to f[d], and
goes on at pc + 4 (R51, R66, R154). `xs` are its operands' tags. -/
def State.FpGives (s : State) (i : Instr) (d : Reg) (bits : Nat) (fl : FpFlags) (tag : Nat) (xs : List Nat) : Prop :=
  s.NoFpTrap fl → s.NoSigLow tag xs →
    exec i s = .next (((s.withFlags fl).wf d (BitVec.ofNat 64 bits) (BitVec.ofNat 7 tag)).went (s.me.pc + 4))

/-- A floating-point instruction traps with the flags it signals kept and no register written: with the first exception that is
enabled, or else with SIGLOW, whose TVAL holds the result's tag and the threshold (R51, R66, R154). `xs` are its operands' tags. -/
def State.FpTraps (s : State) (i : Instr) (fl : FpFlags) (tag : Nat) (xs : List Nat) : Prop :=
  (∀ c, enabledCause s.me.fcsr fl = some c → exec i s = .next ((s.withFlags fl).raised c 0)) ∧
  (s.NoFpTrap fl → s.me.sigctl.getLsbD 7 = true → tag < sigThr s.me.sigctl → (∀ x ∈ xs, sigThr s.me.sigctl ≤ x) →
    exec i s = .next ((s.withFlags fl).raised 0x40 (BitVec.ofNat 64 (tag + 256 * sigThr s.me.sigctl))))

/-- An operation that the current core has issued is under way with token register g[d], which is pending; the core has moved
on (R163). `t` is the state in which it begins. -/
def State.Started (s : State) (i : Instr) (d : Reg) (p : PartId) (kind : OpKind) (t : State) : Prop :=
  exec i s = .next (t.withOp { issueOp s d p with kind := kind }).retired

/-- An operation that the current core has issued ended at once: g[d] holds v (R164), and the core has acquired (R165). `t` is the
state in which it ended. -/
def State.EndedAtOnce (s : State) (i : Instr) (d : Reg) (p : PartId) (v : Word) (t : State) : Prop :=
  exec i s = .next (endOp t (issueOp s d p) v).retired

/-- A MWCAS of core c has ended between s and t: g[d] holds the header h, the core runs on behind the instruction, and no MWCAS of
its number is left (R100, R102). -/
def State.MwcasEnded (s t : State) (k : Nat) (c : CoreId) (d : Reg) (h : Word) : Prop :=
  (t.core c).run = .running ∧ (t.core c).pc = (s.core c).pc + 4 ∧ (d ≠ 0 → (t.core c).rg d = h) ∧
    (∀ r, r ≠ d → (t.core c).rg r = (s.core c).rg r) ∧ ∀ x ∈ t.ms.mwcas, x.1.op ≠ k

/-- The state after the last lock of a MWCAS has been granted and its entries compared (R100), and the MWCAS then. -/
def State.compared (s : State) (m : Mwcas) (o : MwOwner) (l : Nat) : Mwcas × State :=
  let m1 := { m with want := [], held := m.held ++ [l] }
  let ms1 := lockLine m l s.fclock s.ms
  let r := mwCompare s.fresh { ms1 with mwcas := ms1.mwcas.filter (·.1.op != m.op) ++ [(m1, o)] } m1
  (r.1, setMw { s with ms := r.2, fresh := s.fresh + if m.entries.any (fun e => isPeer e.2.1) then m.n else 0 } r.1)

/-- The words that a MWCAS leaves in its block can be written at once, in s, which leaves s' (R100). -/
def State.BlockWritten (s : State) (m : Mwcas) (o : MwOwner) (h : Word) (s' : State) : Prop :=
  blkWrites s ⟨some m.part, m.agent, .s, some m.op, false, m.stream, (mwAgents s m o).drop 1, 0⟩ (mwWords m h) = .ok () s'

/-- The current core may run an instruction: its level is high enough, the rule engine is on for an instruction of that engine,
and a special register exists at the core (R110, R186, R196). -/
def State.MayRun (s : State) (i : Instr) : Prop :=
  let ruled : Prop := ∃ p, s.me.part = some p ∧ (s.rules p).en = true ∧ 10 ≤ (s.rules p).logn ∧ (s.rules p).logn ≤ 20
  match i with
  | .tlbinv _ | .replay _ | .fresSupply _ _ | .fresRetry _ _ | .fresKill _ _ | .sqstart _ _ _ | .migrate _ _ _ => s.me.level ≠ .u
  | .assert _ _ | .retract _ | .modify _ _ _ | .settle _ | .select _ _ _ | .fired _ | .scoreclr _ => ruled
  | .sread _ n m => ∃ x, regInfo (regNum n m).toNat = some x ∧ regOn s.cur x = true ∧ levelNat x.rd ≤ levelNat s.me.level
  | .swrite _ n m => ∃ x, regInfo (regNum n m).toNat = some x ∧ regOn s.cur x = true ∧
      levelNat (x.wr.getD x.rd) ≤ levelNat s.me.level
  | _ => True

/-- The rule engine of the current core's partition p is on, and its working memory's size is legal (R186, R307). -/
def State.RulesOn (s : State) (p : PartId) : Prop :=
  s.me.part = some p ∧ (s.rules p).en = true ∧ 10 ≤ (s.rules p).logn ∧ (s.rules p).logn ≤ 20

/-- Operation k is under way and is o. -/
def State.Under (s : State) (k : Nat) (o : Op) : Prop := findOp s k = some o

/-! ### Nodes -/

/-- The site's node can start a firing of its activation, has no earlier result to emit first, and no token at its ports has bits
that storage has flipped (R34, R36, R347). -/
def State.CanStart (s : State) : Prop :=
  canFire s = true ∧ (s.node s.site).pend = [] ∧ flipped s s.site [0, 1, 2, 3] = false

/-- The state after a firing that takes a token from each port of `eat` and sends the pairs `rs` on the two routes. -/
def State.fired (s0 s : State) (opc : BitVec 8) (nf : NodeFields) (eat : List (BitVec 2)) (rs : List Pair) : State :=
  let x := firingAt s0 opc nf
  finishFire s x eat (rs.map fun p => departures (s.fab x.n.r) x.nf x.n.row x.n.col p.1 p.2) (firstTok rs) 0

/-- Every port of a firing has its operand, of a kind and format that the port takes, no operand is of a special kind, and a
predicate port does not suppress the firing (R202, R203). -/
def Firing.Plain (x : Firing) (ok : BitVec 2 → Token → Bool) : Prop :=
  x.ready = true ∧ (∀ t ∈ x.toks, t.kind ≠ kERROR ∧ t.kind ≠ kBUBBLE ∧ t.kind ≠ kSTOP) ∧
    (∀ t, x.p = some t → t.kind = kDATA ∧ t.pred = true) ∧
    ([0, 1, 2] : List (BitVec 2)).all (fun i => (x.port i).all fun t => portKind x.nf i == 1 || ok i t) = true

/-- A result does not park its activation with SIGLOW (R212). -/
def State.NoSigLowNode (s : State) (x : Firing) (t : Token) : Prop := sigLowNode s x t = false

/-! ### Memory -/

/-- The instruction addresses a core holds are those of whole words: its pc, and what its trap registers lead to (R137, R192). -/
def Core.wordAligned (c : Core) : Prop :=
  ∀ x ∈ [c.pc, c.ts.tvec, c.ts.tpc, c.th.tvec, c.th.tpc], x.extractLsb' 0 2 = 0

/-- The instruction addresses of every core are those of whole words. -/
def State.pcsAligned (s : State) : Prop := ∀ c, (s.core c).wordAligned

end Sys2Proof.Machine
end

