-- ==== Sys2Proof/Certificates/Slice0/Obligations.lean ====
section
/-!
DEFINITION. Statements for the provers: what the rules of spec/ make the machine do, instruction by instruction and as a
whole.
-/

open Sys2Proof Sys2Proof.Machine

/-- Decoding the words of any well-formed instruction that has an encoding gives the instruction back, with every operand. -/
def Obligations.DecodingAnEncodedInstructionGivesItBack : Prop :=
  ∀ i : Instr, i.wf = true → encode i ≠ [] →
    decodeBytes ((encode i).flatMap fun w => natBytes 4 w.toNat) = some i

/-- The words that Table 6-8 works out from the encoding tables, and the bytes of Table 20-2, decode to the instructions they
stand for. -/
def Obligations.WordsOfTheTablesDecodeAsWritten : Prop :=
  decodeS 0x00A63800 = some (.add 5 6 7) ∧
  decodeS 0x8422193A = some (.fma 1 2 3 4 .dyn .s) ∧
  decodeS 0xD5240000 = some (.mwcas 9 4) ∧
  decodeS 0xFDAA5B09 = some (.copy 13 10 11 12) ∧
  decodeS 0x94630005 = some (.bsig 3 12 5) ∧
  decodeBytes [0x84, 0x08, 0x00, 0x83, 0x43, 0x00, 0x00, 0x00, 0x00, 0x10, 0x00, 0x81, 0x00, 0x30, 0x00, 0x81] =
    some (.score { fmt := 0x08, var := 0, flags := 0, arity := 3, ka := 0, kb := 0, kc := 2, imm := 0x43,
                   route0 := 0x81001000, route1 := 0x81003000 })

/-- A word fetched at a core's pc that decodes to an instruction is executed in the state after the fetch, time having passed. A turn of a
node executes the node word of its site, unless another firing of its tile goes before it (R36); a turn of an event executes the event,
unless it is held back: the emission of a due token behind another firing of its tile (R36; log 84, the model's choice), the completion of
an inward STRM or of an SBAR whose region has not settled (log 78). That turns on an agenda drive nodes and events, and that an empty
agenda lets the current core go on, is the model's choice (log 1), and so is that a turn held back only lets time pass (logs 1 and
84). -/
def Obligations.AStepRunsTheDecodedInstruction : Prop :=
  (∀ (s s1 : State) (w : BitVec 32) (i : Instr), s.agenda = [] → s.booted = true → s.me.run = .running →
    s.me.crashStop = false → s.me.stopReq = false → takenInt (tick s) s.cur = none →
    ¬(s.me.dbgstop = true ∧ s.me.level = .u) → fetchAt (tick s) s.cur = .ok w s1 → decodeS w = some i →
    step s = exec i s1) ∧
  (∀ (s s1 : State) (rest : List Turn) (c : CoreId) (w : BitVec 32) (i : Instr), s.agenda = .core c :: rest →
    (s.core c).run = .running → (s.core c).crashStop = false → (s.core c).stopReq = false →
    takenInt (tick { s with agenda := rest, cur := c }) c = none →
    ¬((s.core c).dbgstop = true ∧ (s.core c).level = .u) →
    fetchAt (tick { s with agenda := rest, cur := c }) c = .ok w s1 → decodeS w = some i → step s = exec i s1) ∧
  (∀ (s : State) (rest : List Turn) (n : Site) (w : BitVec 128) (i : Instr), s.agenda = .fire n :: rest →
    nodeWordAt s n = some w → decodeNode w = some i →
    let s1 := tick { s with agenda := rest }
    step s = if fireHeld s1 n then .next s1 else exec i { s1 with site := n }) ∧
  (∀ (s : State) (rest : List Turn) (i : Instr), s.agenda = .event i :: rest →
    let s1 := tick { s with agenda := rest }
    step s = if heldBack s1 i then .next s1 else exec i s1) ∧
  (∀ (s : State) (i : Instr), heldBack s i = true → (∃ n, i = .reorderDueEmit n) ∨ ∃ k, i = .strmComplete k ∨ i = .sbarComplete k)

/-- A word that decodes to nothing raises ILLEGAL with the word in TVAL (R111); a fetch that faults raises its cause with the VA
(R148), or goes the way of a double fault when it is the first of a handler that has waited to be fetched (R331), and one whose
fetch faults no longer raises nothing. An instruction of S and H raises PRIV at U level, with its word in TVAL and no effect (R110, R140).
That a fault of a started core's first fetch ends its SQSTART is the model's choice (log 48). -/
def Obligations.IllegalAndPrivilegedWordsRaise : Prop :=
  (∀ (s : State) (w : BitVec 32) (cause : BitVec 8) (va : Word), s.me.run = .running →
    -- the SQSTART that waits for this fetch ends
    let u := startDone s s.cur
    (decodeS w = none → exec (.illegalWord w) s = .next (s.raised 0x20 (w.zeroExtend 64))) ∧
    (fetchAt s s.cur = .trap cause va → u.me.entering = none →
      exec (.instructionFetchFault cause va) s = .next (u.raised cause va)) ∧
    (∀ first, fetchAt s s.cur = .trap cause va → u.me.entering = some first →
      exec (.instructionFetchFault cause va) s = .next (handlerFault u u.cur first cause)) ∧
    (fetchAt s s.cur ≠ .trap cause va → exec (.instructionFetchFault cause va) s = .next s)) ∧
  (∀ (s : State) (d a b : Reg) (e : BitVec 5), s.me.level = .u →
    ∀ i ∈ [Instr.hvcall e, .rett, .tlbinv a, .tlbsync, .halt, .replay a, .fresSupply a b, .fresRetry a b, .fresKill a b,
      .sqstart d a b, .migrate d a b], exec i s = .next (s.raised 0x21 (wordOf i)))

/-- Every register-register form writes the value Table 8-3 gives to g[d] and goes on at pc + 4, changing nothing else; a write to
g0 is discarded (R138, R142). The immediate forms write the value Table 8-4 gives to g[d] and go on at pc + 4, changing nothing
else. Division rounds toward zero and the remainder has the dividend's sign; −2^63 by −1 gives −2^63 and 0; a divisor of 0
raises INT_DIVZERO, with no register written (R143). -/
def Obligations.IntegerInstructionsWriteTheirResults : Prop :=
  (∀ (s : State) (d a b : Reg), s.Ready [d, a, b] →
    let x := s.rg a
    let y := s.rg b
    let gives (i : Instr) (v : Word) : Prop := exec i s = .next ((s.wg d v).went (s.me.pc + 4))
    gives (.add d a b) (x + y) ∧
    gives (.sub d a b) (x - y) ∧
    gives (.and d a b) (x &&& y) ∧
    gives (.or d a b) (x ||| y) ∧
    gives (.xor d a b) (x ^^^ y) ∧
    gives (.sll d a b) (x <<< (y.toNat % 64)) ∧
    gives (.srl d a b) (x >>> (y.toNat % 64)) ∧
    gives (.sra d a b) (x.sshiftRight (y.toNat % 64)) ∧
    gives (.slt d a b) (if x.toInt < y.toInt then 1 else 0) ∧
    gives (.sltu d a b) (if x.toNat < y.toNat then 1 else 0) ∧
    gives (.min d a b) (if x.toInt ≤ y.toInt then x else y) ∧
    gives (.max d a b) (if y.toInt ≤ x.toInt then x else y) ∧
    gives (.mul d a b) (x * y) ∧
    gives (.mulh d a b) ((x.signExtend 128 * y.signExtend 128).extractLsb' 64 64) ∧
    gives (.mulhu d a b) ((x.zeroExtend 128 * y.zeroExtend 128).extractLsb' 64 64) ∧
    gives (.clz d a) (BitVec.ofNat 64 (64 - x.toNat.size)) ∧
    gives (.popc d a) (BitVec.ofNat 64 ((List.range 64).filter fun i => x.getLsbD i).length)) ∧
  (∀ (s : State) (d a : Reg) (imm : BitVec 16) (n : BitVec 6), s.Ready [d, a] →
    let x := s.rg a
    let gives (i : Instr) (v : Word) : Prop := exec i s = .next ((s.wg d v).went (s.me.pc + 4))
    gives (.addi d a imm) (x + imm.signExtend 64) ∧
    gives (.andi d a imm) (x &&& imm.zeroExtend 64) ∧
    gives (.ori d a imm) (x ||| imm.zeroExtend 64) ∧
    gives (.xori d a imm) (x ^^^ imm.zeroExtend 64) ∧
    gives (.slti d a imm) (if x.toInt < imm.toInt then 1 else 0) ∧
    gives (.lui d imm) (imm.signExtend 64 * 0x10000) ∧
    gives (.slli d a n) (x <<< n.toNat) ∧
    gives (.srli d a n) (x >>> n.toNat) ∧
    gives (.srai d a n) (x.sshiftRight n.toNat)) ∧
  (∀ (s : State) (d a b : Reg), s.Ready [d, a, b] →
    let x := s.rg a
    let y := s.rg b
    let gives (i : Instr) (v : Word) : Prop := exec i s = .next ((s.wg d v).went (s.me.pc + 4))
    (y ≠ 0 →
      gives (.div d a b) (x.sdiv y) ∧ gives (.rem d a b) (x.srem y) ∧
      gives (.divu d a b) (BitVec.ofNat 64 (x.toNat / y.toNat)) ∧ gives (.remu d a b) (BitVec.ofNat 64 (x.toNat % y.toNat))) ∧
    (y = 0 → ∀ i ∈ [Instr.div d a b, .divu d a b, .rem d a b, .remu d a b], exec i s = .next (s.raised 0x46 0)))

/-- A conditional branch goes to pc + 4 × sext(off) when its condition holds and to pc + 4 when it does not, and changes nothing
else (R145, R147). JAL writes pc + 4 to g31 and jumps; JALR takes its target from g[a] as it was before, raises MISALIGN with
the target when its low bits are not 0, and otherwise links and jumps (R146). -/
def Obligations.BranchesAndJumpsGoWhereTheirRulesSay : Prop :=
  (∀ (s : State) (a b f : Reg) (off : BitVec 16) (thr : BitVec 7) (off14 : BitVec 14), s.Ready [a, b] →
    let x := s.rg a
    let y := s.rg b
    let goes (i : Instr) (c : Prop) (dest : Word) : Prop :=
      (c → exec i s = .next (s.went dest)) ∧ (¬c → exec i s = .next (s.went (s.me.pc + 4)))
    let there := s.me.pc + 4 * off.signExtend 64
    goes (.beq a b off) (x = y) there ∧
    goes (.bne a b off) (x ≠ y) there ∧
    goes (.blt a b off) (x.toInt < y.toInt) there ∧
    goes (.bge a b off) (y.toInt ≤ x.toInt) there ∧
    goes (.bltu a b off) (x.toNat < y.toNat) there ∧
    goes (.bgeu a b off) (y.toNat ≤ x.toNat) there ∧
    goes (.bsig f thr off14) ((s.rf f).tag.toNat < thr.toNat) (s.me.pc + 4 * off14.signExtend 64)) ∧
  (∀ (s : State) (d a : Reg) (off : BitVec 26) (imm : BitVec 16), s.Ready [d, a, 31] →
    let t := s.rg a + imm.signExtend 64
    exec (.jal off) s = .next ((s.wg 31 (s.me.pc + 4)).went (s.me.pc + 4 * off.signExtend 64)) ∧
    (t.extractLsb' 0 2 = 0 → exec (.jalr d a imm) s = .next ((s.wg d (s.me.pc + 4)).went t)) ∧
    (t.extractLsb' 0 2 ≠ 0 → exec (.jalr d a imm) s = .next (s.raised 0x22 t)))

/-- An instruction of the cores that reads or writes a pending register waits: it changes nothing, so that a later turn of the core
executes it again (R141, R163). `gRegs` lists the g registers of each; one that its level, its partition's rule engine or its
register number does not let run raises instead. -/
def Obligations.PendingRegistersHoldAnInstruction : Prop :=
  ∀ (s : State) (i : Instr) (r : Reg), r ∈ gRegs i → s.me.pending r = true → s.MayRun i → exec i s = .next s

/-- A load whose access meets no cause writes the loaded bytes, extended as Table 8-5 says, to g[d], or with the format's precision
as its tag to f[d] (R150, R152). A store whose access meets no cause stores the low bytes of its register and goes on at pc + 4;
an STL is a release at DEVICE scope (R150 to R152), for which it waits while a lock covers a line it would write (R99); that it
releases once more after its store is the model's choice (log 7). FLDT reads a value and its tag from a 16-byte slot, the tag cut to the
format's precision; FSDT writes both, as two 8-byte accesses (R70, R153). -/
def Obligations.LoadsAndStoresMoveTheirBytes : Prop :=
  (∀ (s s' : State) (d a : Reg) (off : BitVec 12) (off16 : BitVec 16) (v : Nat),
    let va := s.rg a + off.signExtend 64
    let va16 := s.rg a + off16.signExtend 64
    let gives (i : Instr) (w : Word) : Prop := exec i s = .next ((s'.wg d w).went (s.me.pc + 4))
    (s.Ready [d, a] →
      (s.Loads va 1 v s' → gives (.lb d a off) ((BitVec.ofNat 8 v).signExtend 64) ∧
        gives (.lbu d a off) ((BitVec.ofNat 8 v).zeroExtend 64)) ∧
      (s.Loads va 2 v s' → gives (.lh d a off) ((BitVec.ofNat 16 v).signExtend 64) ∧
        gives (.lhu d a off) ((BitVec.ofNat 16 v).zeroExtend 64)) ∧
      (s.Loads va 4 v s' → gives (.lw d a off) ((BitVec.ofNat 32 v).signExtend 64) ∧
        gives (.lwu d a off) ((BitVec.ofNat 32 v).zeroExtend 64)) ∧
      (s.Loads va16 8 v s' → gives (.ld d a off16) (BitVec.ofNat 64 v)) ∧
      (s.Loads va 8 v s' → exec (.lda d a off) s = .next ((s'.acquireMe.wg d (BitVec.ofNat 64 v)).went (s.me.pc + 4)))) ∧
    (s.Ready [a] →
      (s.Loads va 4 v s' → exec (.flw d a off) s = .next ((s'.wf d (BitVec.ofNat 64 v) 24).went (s.me.pc + 4))) ∧
      (s.Loads va 8 v s' → exec (.fld d a off) s = .next ((s'.wf d (BitVec.ofNat 64 v) 53).went (s.me.pc + 4))))) ∧
  (∀ (s s' : State) (d a : Reg) (off : BitVec 12) (off16 : BitVec 16),
    let va := s.rg a + off.signExtend 64
    let va16 := s.rg a + off16.signExtend 64
    let done (i : Instr) : Prop := exec i s = .next (s'.went (s.me.pc + 4))
    (s.Ready [d, a] →
      (s.Stores va (s.rg d).toNat 1 s' → done (.sb d a off)) ∧
      (s.Stores va (s.rg d).toNat 2 s' → done (.sh d a off)) ∧
      (s.Stores va (s.rg d).toNat 4 s' → done (.sw d a off)) ∧
      (s.Stores va16 (s.rg d).toNat 8 s' → done (.sd d a off16)) ∧
      (∀ t s1, va.toNat % 8 = 0 → watchHit s.me va 8 true = false → translate s (coreCtx s) .write va = .ok t s1 →
        (syncHeld s (.coreD s.cur) = true → exec (.stl d a off) s = .next s) ∧
        (syncHeld s (.coreD s.cur) = false → writeAt s1.releaseMe (coreCtx s) t (s.rg d).toNat 8 va = .ok () s' →
          exec (.stl d a off) s = .next (s'.releaseMe.went (s.me.pc + 4))))) ∧
    (s.Ready [a] →
      (s.Stores va (s.rf d).val.toNat 4 s' → done (.fsw d a off)) ∧
      (s.Stores va (s.rf d).val.toNat 8 s' → done (.fsd d a off)))) ∧
  (∀ (s s1 s2 s3 : State) (t : Xl) (d a : Reg) (f : FFmt) (off : BitVec 12) (v tg : Nat),
    let va := s.rg a + off.signExtend 64
    let t2 : Xl := { t with pa := t.pa + 8 }
    s.Ready [a] → va.toNat % 16 = 0 →
    (watchHit s.me va 16 false = false → translate s (coreCtx s) .read va = .ok t s1 →
      readAt s1 (coreCtx s) t 8 va = .ok v s2 → readAt s2 (coreCtx s) t2 8 (va + 8) = .ok tg s3 →
      exec (.fldt d a f off) s = .next
        ((s3.wf d (BitVec.ofNat 64 (v % 2 ^ fmtWidth f)) (BitVec.ofNat 7 (min (tg % 128) (fmtPrec f)))).went (s.me.pc + 4))) ∧
    (watchHit s.me va 16 true = false → translate s (coreCtx s) .write va = .ok t s1 →
      writeAt s1 (coreCtx s) t (s.rf d).val.toNat 8 va = .ok () s2 →
      writeAt s2 (coreCtx s) t2 (s.rf d).tag.toNat 8 (va + 8) = .ok () s3 →
      exec (.fsdt d a off) s = .next (s3.went (s.me.pc + 4))))

/-- A misaligned load or store raises MISALIGN with its VA (R149, R153). -/
def Obligations.MisalignedAccessesRaise : Prop :=
  ∀ (s : State) (d a : Reg) (f : FFmt) (off : BitVec 12) (off16 : BitVec 16),
    let va := s.rg a + off.signExtend 64
    let va16 := s.rg a + off16.signExtend 64
    s.Ready [d, a] →
    (va.toNat % 2 ≠ 0 → ∀ i ∈ [Instr.lh d a off, .lhu d a off, .sh d a off], exec i s = .next (s.raised 0x22 va)) ∧
    (va.toNat % 4 ≠ 0 → ∀ i ∈ [Instr.lw d a off, .lwu d a off, .sw d a off, .flw d a off, .fsw d a off],
      exec i s = .next (s.raised 0x22 va)) ∧
    (va.toNat % 8 ≠ 0 → ∀ i ∈ [Instr.fld d a off, .fsd d a off, .lda d a off, .stl d a off],
      exec i s = .next (s.raised 0x22 va)) ∧
    (va16.toNat % 8 ≠ 0 → ∀ i ∈ [Instr.ld d a off16, .sd d a off16], exec i s = .next (s.raised 0x22 va16)) ∧
    (va.toNat % 16 ≠ 0 → ∀ i ∈ [Instr.fldt d a f off, .fsdt d a off], exec i s = .next (s.raised 0x22 va))

/-- What a load of any size leaves unchanged: every register but the one it loads, every special register, and every byte at home but
the leaf of its page that the walk may mark and, on an S page, dirty bytes of copies that the core holds, one of which may make room
(R85, R88; log 62); it reads its bytes lowest first on a D or U page (R8, R150). What a store of any size leaves unchanged: every
register, and every byte at home but these, the bytes stored and their mirrors in an open migration window; on a D or U page with no
window open the bytes stored read back (R8, R93, R150). LDA and STL may write every dirty byte that the core holds of S pages home
(R88, R151; log 7, the model's choice). -/
def Obligations.LoadsAndStoresLeaveTheRestAlone : Prop :=
  ∀ (s : State) (d a : Reg) (f : FFmt) (off : BitVec 12) (off16 : BitVec 16) (x : Xl) (s1 : State),
    Memory.wf s.ms.mem = true → s.Ready [d, a] →
    let va := s.rg a + off.signExtend 64
    let va16 := s.rg a + off16.signExtend 64
    let kept (t : State) : Prop :=
      t.me.fcsr = s.me.fcsr ∧ t.me.sigctl = s.me.sigctl ∧ t.me.ts = s.me.ts ∧ t.me.th = s.me.th ∧ t.me.level = s.me.level ∧
        t.me.timecmp = s.me.timecmp ∧ t.me.sel = s.me.sel ∧ t.me.dbgwva = s.me.dbgwva ∧
        t.me.dbgc &&& ~~~2#64 = s.me.dbgc &&& ~~~2#64 ∧ t.me.pend = s.me.pend ∧
        (∀ c, c ≠ s.cur → t.core c = s.core c) ∧ t.parts = s.parts ∧ t.regions = s.regions ∧ t.dies = s.dies ∧
        t.syscfg = s.syscfg ∧ t.ops = s.ops ∧ t.ports = s.ports
    let intoG (t : State) : Prop := kept t ∧ t.me.f = s.me.f ∧ ∀ r, r ≠ d → t.rg r = s.rg r
    let intoF (t : State) : Prop := kept t ∧ t.me.g = s.me.g ∧ ∀ r, r ≠ d → t.rf r = s.rf r
    let stored (t : State) : Prop := kept t ∧ t.me.g = s.me.g ∧ t.me.f = s.me.f
    let same (at_ : Word) (far : Prop) (places : List Nat) (n : Nat) (t : State) : Prop :=
      ∀ pa, pa ∉ s.markedBy at_ → (x.coh = 1 ∨ far → pa ∉ s.dirtyHeld) →
        (∀ q ∈ places, ∀ i < n, pa ≠ q + i ∧ pa ∉ mirrors s.ms (q + i) ∧ ∀ y ∈ mirrors s.ms q, pa ≠ y + i) →
        t.byteAt pa = s.byteAt pa
    let plain : Prop := isPeer x.pa = false ∧ isDevice x.pa = false ∧ x.coh ≠ 1
    (∀ i ∈ [((.lb d a off : Instr), 1, va), (.lbu d a off, 1, va), (.lh d a off, 2, va), (.lhu d a off, 2, va), (.lw d a off, 4, va),
        (.lwu d a off, 4, va), (.ld d a off16, 8, va16), (.lda d a off, 8, va)],
      ∀ v s', s.Loads i.2.2 i.2.1 v s' → translate s (coreCtx s) .read i.2.2 = .ok x s1 →
        (plain → v = Memory.readLE s1.ms.mem x.pa i.2.1) ∧
        ∃ t, exec i.1 s = .next t ∧ intoG t ∧ same i.2.2 (i.1 = .lda d a off) [] 0 t) ∧
    (∀ i ∈ [((.flw d a off : Instr), 4), (.fld d a off, 8)],
      ∀ v s', s.Loads va i.2 v s' → translate s (coreCtx s) .read va = .ok x s1 →
        (plain → v = Memory.readLE s1.ms.mem x.pa i.2) ∧ ∃ t, exec i.1 s = .next t ∧ intoF t ∧ same va False [] 0 t) ∧
    (∀ v tg s2 s3, va.toNat % 16 = 0 → watchHit s.me va 16 false = false → translate s (coreCtx s) .read va = .ok x s1 →
      readAt s1 (coreCtx s) x 8 va = .ok v s2 → readAt s2 (coreCtx s) { x with pa := x.pa + 8 } 8 (va + 8) = .ok tg s3 →
      ∃ t, exec (.fldt d a f off) s = .next t ∧ intoF t ∧ same va False [] 0 t) ∧
    (∀ i ∈ [((.sb d a off : Instr), 1, va, (s.rg d).toNat), (.sh d a off, 2, va, (s.rg d).toNat), (.sw d a off, 4, va, (s.rg d).toNat),
        (.sd d a off16, 8, va16, (s.rg d).toNat), (.fsw d a off, 4, va, (s.rf d).val.toNat), (.fsd d a off, 8, va, (s.rf d).val.toNat)],
      ∀ s', s.Stores i.2.2.1 i.2.2.2 i.2.1 s' → translate s (coreCtx s) .write i.2.2.1 = .ok x s1 →
        ∃ t, exec i.1 s = .next t ∧ stored t ∧ same i.2.2.1 False [x.pa] i.2.1 t ∧
          (plain → s1.ms.migrations = [] → Memory.readLE t.ms.mem x.pa i.2.1 = i.2.2.2 % 256 ^ i.2.1)) ∧
    (∀ s', va.toNat % 8 = 0 → watchHit s.me va 8 true = false → translate s (coreCtx s) .write va = .ok x s1 →
      syncHeld s (.coreD s.cur) = false → writeAt s1.releaseMe (coreCtx s) x (s.rg d).toNat 8 va = .ok () s' →
      ∃ t, exec (.stl d a off) s = .next t ∧ stored t ∧ same va True [x.pa] 8 t) ∧
    (∀ s2 s3, va.toNat % 16 = 0 → watchHit s.me va 16 true = false → translate s (coreCtx s) .write va = .ok x s1 →
      writeAt s1 (coreCtx s) x (s.rf d).val.toNat 8 va = .ok () s2 →
      writeAt s2 (coreCtx s) { x with pa := x.pa + 8 } (s.rf d).tag.toNat 8 (va + 8) = .ok () s3 →
      ∃ t, exec (.fsdt d a off) s = .next t ∧ stored t ∧ same va False [x.pa, x.pa + 8] 8 t)

/-- FENCE at DIE scope and wider writes the core's dirty bytes home and drops its copies, and it completes (R161, R162). While a
lock covers a line it would write, it waits (R99). The model's choices: it writes the dirty bytes home at CORE scope too, so that the
core's fetches and walks see them (log 7), and the words that the core holds for fetching go (log 5). -/
def Obligations.FenceActsOnTheCoresCopies : Prop :=
  ∀ (s : State) (sc : Scope), s.Ready [] →
    (syncHeld s (.coreD s.cur) = true → exec (.fence sc) s = .next s) ∧
    (syncHeld s (.coreD s.cur) = false →
    ∃ t, exec (.fence sc) s = .next t ∧ t.me.icache = [] ∧ t.me.g = s.me.g ∧ t.me.f = s.me.f ∧ t.me.pc = s.me.pc + 4 ∧
      (sc = .core → t.ms = releaseS (.coreD s.cur) s.ms) ∧
      (sc ≠ .core → (∀ l ∈ t.ms.slines, l.agent ≠ .coreD s.cur) ∧
        t.ms.mem = (acquireS (.coreD s.cur) (releaseS (.coreD s.cur) s.ms)).mem))

/-- An atomic of n bytes at VA g[a] whose access meets no cause: its old value is `old`, it writes what `f` says of it, and leaves
s'; one that releases waits while a lock covers a line of the core's S-copies (R99). The read-modify-write of an atomic at home returns the bytes as they stand, lowest first, and puts the new ones in their
place (R158). -/
def Obligations.AtomicsReadModifyWrite : Prop :=
  (∀ (s s1 s2 : State) (x : Xl) (d a b : Reg) (u w : Bool) (ord : Order) (old : Nat), s.Ready [d, a, b] →
    let n := if w then 4 else 8
    let va := s.rg a
    let arg (r : Reg) : Nat := (s.rg r).toNat % 2 ^ (8 * n)
    let num (sg : Bool) (v : Nat) : Int := if sg && 2 ^ (8 * n - 1) ≤ v then (v : Int) - 2 ^ (8 * n) else v
    let low (z : Int) : Nat := (z % 2 ^ (8 * n)).toNat
    let result (sg : Bool) : Word := if w then (if sg then (BitVec.ofNat 32 old).signExtend 64 else (BitVec.ofNat 32 old).zeroExtend 64)
      else BitVec.ofNat 64 old
    let s1' := if ord = .rl ∨ ord = .ar then s1.releaseMe else s1
    let s2' := if ord = .aq ∨ ord = .ar then s2.acquireMe else s2
    let held : Bool := (ord == .rl || ord == .ar) && syncHeld s (.coreD s.cur)
    let gives (i : Instr) (sg : Bool) (f : Nat → Option Nat) : Prop :=
      (held = true → exec i s = .next s) ∧
      (held = false → rmwAt s1' (coreCtx s) x n va f = .ok old s2 →
        exec i s = .next ((s2'.wg d (result sg)).went (s.me.pc + 4)))
    va.toNat % n = 0 → translate s (coreCtx s) .write va = .ok x s1 → isDevice x.pa = false →
    watchHit s.me va n false = false → watchHit s.me va n true = false →
    gives (.amoadd d a b w ord) true (fun o => some (low (num true o + num true (arg b)))) ∧
    gives (.amoswap d a b w ord) true (fun _ => some (arg b)) ∧
    gives (.amomin d a b u w ord) (!u) (fun o => some (low (min (num (!u) o) (num (!u) (arg b))))) ∧
    gives (.amomax d a b u w ord) (!u) (fun o => some (low (max (num (!u) o) (num (!u) (arg b))))) ∧
    gives (.amocas d a b w ord) true (fun o => if o = arg d then some (arg b) else none)) ∧
  (∀ (s : State) (x : Ctx) (t : Xl) (n : Nat) (va : Word) (f : Nat → Option Nat) (v : Nat), Memory.wf s.ms.mem = true →
    isDevice t.pa = false → isPeer t.pa = false → keyErased s x = false → (linesOf t.pa n).any (lockedBy s x) = false →
    lineFault s x (linesOf t.pa n) = none →
    (∀ g ∈ x.agent :: x.mates, findSLine s.ms g (lineOf t.pa) = none) → s.ms.migrations = [] → f (Memory.readLE s.ms.mem t.pa n) = some v →
    ∃ u, rmwAt s x t n va f = .ok (Memory.readLE s.ms.mem t.pa n) u ∧ Memory.readLE u.ms.mem t.pa n = v % 256 ^ n ∧
      ∀ pa, pa < t.pa ∨ t.pa + n ≤ pa → u.byteAt pa = s.byteAt pa)

/-- A MWCAS that passes its checks begins: the core waits for it, its first lock request is out, and no byte at home has changed but
by its release (R99, R102, R159). The home slice grants a lock whose line is free, whose table has room and which no earlier
request precedes; the last grant compares every entry, and one that differs releases every lock and writes nothing of the new
values (R99 to R101, R103). The model's choices: a grant goes in the order in which the requests were sent (log 45), and a commit
whose slice holds several locks has the last one's place (log 68).
A MWCAS completes. One whose entries lie on one line, while no other MWCAS is under way and no recall is out, begins, has its lock
granted and its entries compared in the next turn of its own, and ends there with its failure header in g[d] when an entry differs
from its EXP; when all are equal it ends with the success header in the turn of its one commit (R99 to R103, R159). In general the
last grant ends a MWCAS whose compare failed, and the last commit one whose compare succeeded, as soon as its block can be written;
the core then goes on behind the instruction (R100, R102). -/
def Obligations.MwcasLocksComparesAndCommits : Prop :=
  (∀ (s s1 : State) (m : Mwcas) (p : PartId) (d a : Reg), s.Ready [d, a] → s.me.part = some p →
    mwcasCheck s.acquireMe (coreCtx s) p (fun va w => watchHit s.me va 8 w) (s.rg a) s.nextOp = .ok m s1 →
    syncHeld s1 (.coreD s.cur) = false → ∃ t, exec (.mwcas d a) s = .next t ∧ t.me.run = .mwcas m.op ∧ t.me.pc = s.me.pc ∧ t.me.g = s.me.g ∧
      (m, MwOwner.core s.cur d) ∈ t.ms.mwcas ∧ t.ms.locks = s1.ms.locks ∧ t.ms.mem = s1.releaseMe.ms.mem ∧
      t.nextOp = s.nextOp + 1 ∧ m.want ≠ [] ∧ m.held = []) ∧
  ((∀ (s : State) (k : Nat) (m : Mwcas) (o : MwOwner) (l : Nat) (rest : List Nat), findMw s k = some (m, o) →
    m.want = l :: rest → rest ≠ [] → lockable s.ms m = true → lockTurn s.ms m = true →
    ∃ t, exec (.crucibleLockGrant k) s = .next t ∧ (l, m.op) ∈ t.ms.locks ∧ t.ms.mem = s.ms.mem ∧
      ({ m with want := rest, held := m.held ++ [l] }, o) ∈ t.ms.mwcas) ∧
  (∀ (s : State) (k : Nat) (m : Mwcas) (o : MwOwner) (l : Nat), findMw s k = some (m, o) →
    -- a last grant, and a commit below, wait for a link that is down under a word of theirs
    m.want = [l] → ((∀ va, mwDead s m (fun _ => true) = some va → exec (.crucibleLockGrant k) s = .next s) ∧
    (mwDead s m (fun _ => true) = none → lockable s.ms m = true → lockTurn s.ms m = true →
    let r := s.compared m o l
    exec (.crucibleLockGrant k) s = .next (mwEnd r.2 r.1 o) ∧
    r.2.ms.mem = s.ms.mem ∧ r.2.ms.peerWrites = s.ms.peerWrites ∧ r.1.observed.length = m.entries.length ∧
    ((∃ e ∈ m.entries.zip r.1.observed, e.1.2.2.2.1 ≠ e.2) →
      r.1.commits = m.commits ∧ r.1.held = [] ∧ (m.entries.length ≤ 16 → m.n ≤ 16 → ∀ h, r.1.result = some h → h.getLsbD 63 = false) ∧
        ∀ x ∈ l :: m.held, (x, m.op) ∉ r.2.ms.locks)))) ∧
  (∀ (s : State) (k : Nat) (m : Mwcas) (o : MwOwner) (sl sl2 : Nat) (rest : List Nat), findMw s k = some (m, o) →
    m.op = k → m.commits = sl :: sl2 :: rest →
    let dead := mwDead s m fun e => sliceOf (lineOf e.2.1) == sl
    (∀ va, dead = some va → exec (.mwcasCommit k) s = .next s) ∧
    (dead = none → ∃ t, exec (.mwcasCommit k) s = .next t ∧
      let ms := (m.entries.filter fun e => sliceOf (lineOf e.2.1) = sl).foldl
        (fun ms e => homeWrite m.part ms e.2.1 e.2.2.2.2.toNat 8) s.ms
      t.ms.mem = ms.mem ∧ t.ms.peerWrites = ms.peerWrites ∧ ∀ l ∈ m.held, sliceOf l = sl → (l, m.op) ∉ t.ms.locks))) ∧
  -- completion
  (∀ (s s1 : State) (m : Mwcas) (p : PartId) (d a : Reg) (l : Nat), s.Ready [d, a] → s.me.part = some p →
    mwcasCheck s.acquireMe (coreCtx s) p (fun va w => watchHit s.me va 8 w) (s.rg a) s.nextOp = .ok m s1 →
    syncHeld s1 (.coreD s.cur) = false → s1.ms.mwcas = [] → s1.ms.locks = [] → s1.ms.recalls = [] → m.want = [l] →
    let o := MwOwner.core s.cur d
    let t1 := mwBegin (s1.releaseMe.updMe fun c => { c with run := .mwcas m.op }) m o
    let r := t1.compared m o l
    mwDead t1 m (fun _ => true) = none →
    exec (.mwcas d a) s = .next t1 ∧
    (∀ h u, r.1.result = some h → h.getLsbD 63 = false → r.2.BlockWritten r.1 o h u →
      ∃ t, exec (.crucibleLockGrant m.op) t1 = .next t ∧ s.MwcasEnded t m.op s.cur d h) ∧
    (r.1.commits = [sliceOf l] → exec (.crucibleLockGrant m.op) t1 = .next r.2 ∧
      let m2 := { r.1 with commits := [], committed := 1, held := [] }
      ∀ h u, r.1.result = some h → (setMw { r.2 with ms := mwCommitSlice r.2.ms r.1 (sliceOf l) } m2).BlockWritten m2 o h u →
        ∃ t, exec (.mwcasCommit m.op) r.2 = .next t ∧ s.MwcasEnded t m.op s.cur d h)) ∧
  (∀ (s u : State) (k : Nat) (m : Mwcas) (c : CoreId) (d : Reg) (l : Nat) (h : Word), findMw s k = some (m, .core c d) → m.op = k →
    m.want = [l] → mwDead s m (fun _ => true) = none → lockable s.ms m = true → lockTurn s.ms m = true → (s.core c).run = .mwcas k →
    ¬((s.core c).level = .u ∧ (s.core c).dbgc.getLsbD 0 = true) →
    let r := s.compared m (.core c d) l
    r.1.result = some h → r.1.commits = [] → r.2.BlockWritten r.1 (.core c d) h u →
    ∃ t, exec (.crucibleLockGrant k) s = .next t ∧ s.MwcasEnded t k c d h) ∧
  (∀ (s u : State) (k : Nat) (m : Mwcas) (c : CoreId) (d : Reg) (sl : Nat) (h : Word), findMw s k = some (m, .core c d) → m.op = k →
    m.commits = [sl] → m.result = some h → mwDead s m (fun e => sliceOf (lineOf e.2.1) == sl) = none → (s.core c).run = .mwcas k →
    ¬((s.core c).level = .u ∧ (s.core c).dbgc.getLsbD 0 = true) →
    let m2 := { m with commits := [], committed := m.committed + 1, held := m.held.filter (sliceOf · != sl) }
    (setMw { s with ms := mwCommitSlice s.ms m sl } m2).BlockWritten m2 (.core c d) h u →
    ∃ t, exec (.mwcasCommit k) s = .next t ∧ s.MwcasEnded t k c d h)

/-- The arithmetic forms compute on the operands' values in the instruction's format, round once in the mode RM selects, and
write the encoding with the tag of Table 8-6, keeping the flags (R50, R51, R154). -/
def Obligations.FloatArithmeticRoundsOnce : Prop :=
  ∀ (s : State) (d a b c : Reg) (rm m : RMode) (f : FFmt), s.Ready [] → resolveRm s.me.fcsr rm = some m →
    let F := fmtOf f
    let x := opVal (s.rf a) f
    let y := opVal (s.rf b) f
    let z := opVal (s.rf c) f
    let sx := opTag (s.rf a) f
    let sy := opTag (s.rf b) f
    let sz := opTag (s.rf c) f
    let gives (i : Instr) (e : Exact) (tag : FVal → Nat) (xs : List Nat) : Prop :=
      let r := e.round F m
      s.FpGives i d r.bits r.fl (tag (decodeF F r.bits)) xs
    gives (.fadd d a b rm f) (addF m x y) (sumTag F x y sx sy (addF m x y)) [sx, sy] ∧
    gives (.fsub d a b rm f) (addF m x y.negate) (sumTag F x y sx sy (addF m x y.negate)) [sx, sy] ∧
    gives (.fmul d a b rm f) (mulF x y) (prodTag F x y sx sy false (mulF x y)) [sx, sy] ∧
    gives (.fdiv d a b rm f) (divF (fmtPrec f + 3) x y) (prodTag F x y sx sy true (divF (fmtPrec f + 3) x y)) [sx, sy] ∧
    gives (.fsqrt d a rm f) (sqrtF (fmtPrec f + 3) x) (sqrtTag F x sx) [sx] ∧
    gives (.fma d a b c rm f) (fmaF m x y z) (fmaTag F x y z sx sy sz (fmaF m x y z)) [sx, sy, sz] ∧
    gives (.fms d a b c rm f) (fmaF m x y z.negate) (fmaTag F x y z.negate sx sy sz (fmaF m x y z.negate)) [sx, sy, sz]

/-- FMIN and FMAX deliver one of their operands, or the canonical NaN when both are NaN, and signal NV on a signalling one; FSGN
delivers a's magnitude with the sign its variant chooses and signals nothing (Table 8-6). FCMP writes 1 or 0 to g[d]: EQ and UN
signal NV on a signalling NaN only, LT and LE on any NaN; a comparison with a NaN is false but for UN (R155). -/
def Obligations.SelectionsAndComparisons : Prop :=
  (∀ (s : State) (d a b : Reg) (v : SgnVar) (f : FFmt), s.Ready [] →
    let F := fmtOf f
    let x := opVal (s.rf a) f
    let y := opVal (s.rf b) f
    let nv : FpFlags := { nv := isSNaN x || isSNaN y }
    let xs := [opTag (s.rf a) f, opTag (s.rf b) f]
    let gives (i : Instr) (z : Reg) : Prop :=
      s.FpGives i d (opBits (s.rf z) f) nv (finalTag F (opVal (s.rf z) f) true (opTag (s.rf z) f)) xs
    (isNaN x = true → isNaN y = true → s.FpGives (.fmin d a b f) d (canonNaN F) nv 0 xs ∧ s.FpGives (.fmax d a b f) d (canonNaN F) nv 0 xs) ∧
    (isNaN x = true → isNaN y = false → gives (.fmin d a b f) b ∧ gives (.fmax d a b f) b) ∧
    (isNaN x = false → isNaN y = true → gives (.fmin d a b f) a ∧ gives (.fmax d a b f) a) ∧
    (isNaN x = false → isNaN y = false →
      gives (.fmin d a b f) (if ltTotal y x then b else a) ∧ gives (.fmax d a b f) (if ltTotal x y then b else a)) ∧
    (isNaN x = false →
      let h := 2 ^ (fmtWidth f - 1)
      let sa := opBits (s.rf a) f / h == 1
      let sb := opBits (s.rf b) f / h == 1
      let sg := match v with | .j => sb | .n => !sb | .x => sa != sb
      let bits := opBits (s.rf a) f % h + (if sg then h else 0)
      s.FpGives (.fsgn d a b v f) d bits {} (finalTag F (decodeF F bits) true (opTag (s.rf a) f)) xs) ∧
    (isNaN x = true →
      s.FpGives (.fsgn d a b v f) d (canonNaN F) {} (finalTag F (decodeF F (canonNaN F)) true (opTag (s.rf a) f)) xs)) ∧
  (∀ (s : State) (d a b : Reg) (v : CmpVar) (f : FFmt), s.Ready [d] →
    let x := opVal (s.rf a) f
    let y := opVal (s.rf b) f
    let un := isNaN x || isNaN y
    let sn := isSNaN x || isSNaN y
    let nv := match v with | .eq | .un => sn | .lt | .le => un
    let holds := match v with
      | .eq => !un && cmpVal x y == 0
      | .lt => !un && decide (cmpVal x y < 0)
      | .le => !un && decide (cmpVal x y ≤ 0)
      | .un => un
    s.NoFpTrap { nv := nv } →
      exec (.fcmp d a b v f) s = .next (((s.withFlags { nv := nv }).wg d (if holds then 1 else 0)).went (s.me.pc + 4)))

/-- FRND gives the integral value of a finite operand in the mode RM selects and signals NX when it differs; infinities keep their
value and a NaN gives the canonical NaN (Table 8-6). FCVT rounds a
value into another format, a register's integer into a format, or a value into an integer in a register (R108, R156). The model's
choices: a signalling NaN signals NV in an exact widening too (log 88), and an integer's result has the tag p, an infinity too (log
69). -/
def Obligations.ConversionsBetweenTypes : Prop :=
  (∀ (s : State) (d a : Reg) (rm m : RMode) (f : FFmt), s.Ready [] → resolveRm s.me.fcsr rm = some m →
    let F := fmtOf f
    let sx := opTag (s.rf a) f
    let tag (bits : Nat) : Nat := finalTag F (decodeF F bits) true sx
    let gives (bits : Nat) (fl : FpFlags) : Prop := s.FpGives (.frnd d a rm f) d bits fl (tag bits) [sx]
    (∀ n k e, opVal (s.rf a) f = .num n k e →
      gives (roundF F m n (roundInt m n k e).1 0).bits { nx := (roundInt m n k e).2 }) ∧
    (∀ n, opVal (s.rf a) f = .inf n → gives (encInf F n) {}) ∧
    (∀ q, opVal (s.rf a) f = .nan q → gives (canonNaN F) { nv := q })) ∧
  (∀ (s : State) (d a : Reg) (src dst : CvtTy) (rm m : RMode), resolveRm s.me.fcsr rm = some m →
    (∀ fs fd, CvtTyFmt src = some fs → CvtTyFmt dst = some fd → s.Ready [] →
      let e := exactOf (opVal (s.rf a) fs)
      let r := e.round (fmtOf fd) m
      s.FpGives (.fcvt d a src dst rm) d r.bits r.fl
        (cvtTag (fmtOf fs) (fmtOf fd) (opTag (s.rf a) fs) (isZeroE e) (decodeF (fmtOf fd) r.bits)) [opTag (s.rf a) fs]) ∧
    (∀ fd, CvtTyFmt src = none → CvtTyFmt dst = some fd → s.Ready [a] →
      let w := (cvtInt src).1
      let v := (s.rg a).toNat % 2 ^ w
      let i : Int := if (cvtInt src).2 && 2 ^ (w - 1) ≤ v then (v : Int) - 2 ^ w else v
      let r := (Exact.num (i < 0) i.natAbs 0).round (fmtOf fd) m
      s.NoFpTrap r.fl → exec (.fcvt d a src dst rm) s = .next
        (((s.withFlags r.fl).wf d (BitVec.ofNat 64 r.bits)
          (BitVec.ofNat 7 (fmtPrec fd))).went (s.me.pc + 4))) ∧
    (∀ fs, CvtTyFmt src = some fs → CvtTyFmt dst = none → s.Ready [d] →
      let w := (cvtInt dst).1
      let r := toIntF m w (cvtInt dst).2 (opVal (s.rf a) fs)
      s.NoFpTrap r.2 → exec (.fcvt d a src dst rm) s = .next
        (((s.withFlags r.2).wg d (if w = 32 then (if (cvtInt dst).2 then (BitVec.ofInt 32 r.1).signExtend 64
            else (BitVec.ofInt 32 r.1).zeroExtend 64) else BitVec.ofInt 64 r.1)).went (s.me.pc + 4))))

/-- The moves carry bits between the files: FMVG the low bits of f[a], FMVF g[a]'s with the format's precision as tag, FSIG the
tag cut to the precision; FSIGSET sets f[d]'s tag to min(g[a], p) and keeps its value. FCSR stays (R157, Table 8-7). -/
def Obligations.MovesBetweenTheFiles : Prop :=
  ∀ (s : State) (d a : Reg) (f : FFmt),
    let p := match f with | .d => 53 | .s => 24 | .h => 11 | .b => 8
    let w := match f with | .d => 64 | .s => 32 | .h => 16 | .b => 16
    (s.Ready [d] →
      exec (.fmvg d a f) s = .next ((s.wg d (BitVec.ofNat 64 ((s.rf a).val.toNat % 2 ^ w))).went (s.me.pc + 4)) ∧
      exec (.fsig d a f) s = .next ((s.wg d (BitVec.ofNat 64 (min (s.rf a).tag.toNat p))).went (s.me.pc + 4))) ∧
    (s.Ready [a] →
      exec (.fmvf d a f) s = .next
        ((s.wf d (BitVec.ofNat 64 ((s.rg a).toNat % 2 ^ w)) (BitVec.ofNat 7 p)).went (s.me.pc + 4)) ∧
      exec (.fsigset d a f) s = .next
        ((s.wf d (s.rf d).val (BitVec.ofNat 7 (min (s.rg a).toNat p))).went (s.me.pc + 4)))

/-- An enabled exception traps with the flags kept and no register written, the first in the order NV, DZ, OF, UF, NX; a result
of low significance raises SIGLOW with TVAL holding its tag and the threshold: so does every floating-point instruction that signals
an exception or writes a tag (R51, R66, R154 to R156). A rounding mode of 5 to 7 under DYN raises ILLEGAL (R50). That a signalling NaN
signals NV in an exact widening FCVT too is the model's choice (log 88). -/
def Obligations.FloatTrapsKeepTheFlags : Prop :=
  (∀ (s : State) (d a b c : Reg) (rm m : RMode) (f : FFmt), resolveRm s.me.fcsr rm = some m →
    let F := fmtOf f
    let x := opVal (s.rf a) f
    let y := opVal (s.rf b) f
    let z := opVal (s.rf c) f
    let sx := opTag (s.rf a) f
    let sy := opTag (s.rf b) f
    let sz := opTag (s.rf c) f
    let traps (i : Instr) (e : Exact) (tag : FVal → Nat) (xs : List Nat) : Prop :=
      let r := e.round F m
      s.FpTraps i r.fl (tag (decodeF F r.bits)) xs
    let kept (bits : Nat) : Nat := finalTag F (decodeF F bits) true sx
    traps (.fadd d a b rm f) (addF m x y) (sumTag F x y sx sy (addF m x y)) [sx, sy] ∧
    traps (.fsub d a b rm f) (addF m x y.negate) (sumTag F x y sx sy (addF m x y.negate)) [sx, sy] ∧
    traps (.fmul d a b rm f) (mulF x y) (prodTag F x y sx sy false (mulF x y)) [sx, sy] ∧
    traps (.fdiv d a b rm f) (divF (fmtPrec f + 3) x y) (prodTag F x y sx sy true (divF (fmtPrec f + 3) x y)) [sx, sy] ∧
    traps (.fsqrt d a rm f) (sqrtF (fmtPrec f + 3) x) (sqrtTag F x sx) [sx] ∧
    traps (.fma d a b c rm f) (fmaF m x y z) (fmaTag F x y z sx sy sz (fmaF m x y z)) [sx, sy, sz] ∧
    traps (.fms d a b c rm f) (fmaF m x y z.negate) (fmaTag F x y z.negate sx sy sz (fmaF m x y z.negate)) [sx, sy, sz] ∧
    (∀ n k e, x = .num n k e → let bits := (roundF F m n (roundInt m n k e).1 0).bits
      s.FpTraps (.frnd d a rm f) { nx := (roundInt m n k e).2 } (kept bits) [sx]) ∧
    (∀ n, x = .inf n → s.FpTraps (.frnd d a rm f) {} (kept (encInf F n)) [sx]) ∧
    (∀ q, x = .nan q → s.FpTraps (.frnd d a rm f) { nv := q } (kept (canonNaN F)) [sx])) ∧
  (∀ (s : State) (d a b : Reg) (v : SgnVar) (w : CmpVar) (f : FFmt),
    let F := fmtOf f
    let x := opVal (s.rf a) f
    let y := opVal (s.rf b) f
    let nv : FpFlags := { nv := isSNaN x || isSNaN y }
    let xs := [opTag (s.rf a) f, opTag (s.rf b) f]
    let tag (z : Reg) : Nat := finalTag F (opVal (s.rf z) f) true (opTag (s.rf z) f)
    let low : Nat := match minMax false x y with | none => 0 | some fromA => tag (if fromA then a else b)
    let high : Nat := match minMax true x y with | none => 0 | some fromA => tag (if fromA then a else b)
    let h := 2 ^ (fmtWidth f - 1)
    let sa := opBits (s.rf a) f / h == 1
    let sb := opBits (s.rf b) f / h == 1
    let sg := match v with | .j => sb | .n => !sb | .x => sa != sb
    let signed := if isNaN x then canonNaN F else opBits (s.rf a) f % h + (if sg then h else 0)
    let cmp : FpFlags := { nv := match w with | .eq | .un => isSNaN x || isSNaN y | .lt | .le => isNaN x || isNaN y }
    s.FpTraps (.fmin d a b f) nv low xs ∧ s.FpTraps (.fmax d a b f) nv high xs ∧
    s.FpTraps (.fsgn d a b v f) {} (finalTag F (decodeF F signed) true (opTag (s.rf a) f)) xs ∧
    (s.Free [d] → ∀ c, enabledCause s.me.fcsr cmp = some c → exec (.fcmp d a b w f) s = .next ((s.withFlags cmp).raised c 0))) ∧
  (∀ (s : State) (d a : Reg) (src dst : CvtTy) (rm m : RMode), resolveRm s.me.fcsr rm = some m →
    (∀ fs fd, CvtTyFmt src = some fs → CvtTyFmt dst = some fd →
      let e := exactOf (opVal (s.rf a) fs)
      let r := e.round (fmtOf fd) m
      s.FpTraps (.fcvt d a src dst rm) r.fl
        (cvtTag (fmtOf fs) (fmtOf fd) (opTag (s.rf a) fs) (isZeroE e) (decodeF (fmtOf fd) r.bits)) [opTag (s.rf a) fs]) ∧
    (∀ fd c, CvtTyFmt src = none → CvtTyFmt dst = some fd → s.Free [a] →
      let w := (cvtInt src).1
      let v := (s.rg a).toNat % 2 ^ w
      let i : Int := if (cvtInt src).2 && 2 ^ (w - 1) ≤ v then (v : Int) - 2 ^ w else v
      let fl := ((Exact.num (i < 0) i.natAbs 0).round (fmtOf fd) m).fl
      enabledCause s.me.fcsr fl = some c → exec (.fcvt d a src dst rm) s = .next ((s.withFlags fl).raised c 0)) ∧
    (∀ fs c, CvtTyFmt src = some fs → CvtTyFmt dst = none → s.Free [d] →
      let fl := (toIntF m (cvtInt dst).1 (cvtInt dst).2 (opVal (s.rf a) fs)).2
      enabledCause s.me.fcsr fl = some c → exec (.fcvt d a src dst rm) s = .next ((s.withFlags fl).raised c 0))) ∧
  (∀ (fcsr : Word) (fl : FpFlags),
    let nv := fl.nv && fcsr.getLsbD 12
    let dz := fl.dz && fcsr.getLsbD 11
    let of := fl.of && fcsr.getLsbD 10
    let uf := fl.uf && fcsr.getLsbD 9
    let nx := fl.nx && fcsr.getLsbD 8
    (nv = true → enabledCause fcsr fl = some 0x41) ∧
    (nv = false → dz = true → enabledCause fcsr fl = some 0x42) ∧
    (nv = false → dz = false → of = true → enabledCause fcsr fl = some 0x43) ∧
    (nv = false → dz = false → of = false → uf = true → enabledCause fcsr fl = some 0x44) ∧
    (nv = false → dz = false → of = false → uf = false → nx = true → enabledCause fcsr fl = some 0x45) ∧
    (nv = false → dz = false → of = false → uf = false → nx = false → enabledCause fcsr fl = none)) ∧
  (∀ (s : State) (d a b c : Reg) (f : FFmt), (s.me.fcsr.extractLsb' 5 3).toNat ∈ [5, 6, 7] →
    ∀ i ∈ [Instr.fadd d a b .dyn f, .fsub d a b .dyn f, .fmul d a b .dyn f, .fdiv d a b .dyn f, .fsqrt d a .dyn f,
      .frnd d a .dyn f, .fma d a b c .dyn f, .fms d a b c .dyn f, .fcvt d a .d .s .dyn, .fcvt d a .h .b .dyn],
      exec i s = .next (s.raised 0x20 (wordOf i)))

/-- TRAP, BRK and HVCALL complete before their trap: TPC is the next instruction's address, TVAL the immediate, IE goes to PIE and
is cleared, PPL holds the old level, pc is TVEC and the level that of R192; no register is written (R192, R194). The level a
cause is taken at: HVCALL and DOUBLEFAULT at H, others at S from U and at H from S and H (R192). A fault of the handler's first
fetch raises DOUBLEFAULT at H with both causes in TVAL; one at H raises MCHECK, which stops the partition (R331). -/
def Obligations.TrapsEnterTheirHandler : Prop :=
  (∀ (s : State) (e : BitVec 5) (i : Instr) (cause : BitVec 8),
    (i, cause) ∈ [(Instr.trap e, (0x00 : BitVec 8)), (.brk e, 0x02), (.hvcall e, 0x01)] →
    (i = .hvcall e → s.me.level ≠ .u) → (∀ o ∈ s.ops, o.kind ≠ .sqstart s.cur) →
    let t := trapLevel cause s.me.level
    let old := s.me.trapRegs t
    (fetchFaults ((s.updMe clearSkip).updMe fun c => enterTrap c t cause false (e.zeroExtend 64) (s.me.pc + 4)) s.cur).1 = none →
    ∃ u, exec i s = .next u ∧ u.me.pc = old.tvec ∧ u.me.level = t ∧ u.me.g = s.me.g ∧ u.me.f = s.me.f ∧
      u.me.fcsr = s.me.fcsr ∧ u.me.run = .running ∧
      (u.me.trapRegs t).tpc = s.me.pc + 4 ∧ (u.me.trapRegs t).tcause = cause.zeroExtend 64 ∧
      (u.me.trapRegs t).tval = e.zeroExtend 64 ∧ (u.me.trapRegs t).tvec = old.tvec ∧ (u.me.trapRegs t).tscr = old.tscr ∧
      (u.me.trapRegs t).status.getLsbD 0 = false ∧ (u.me.trapRegs t).status.getLsbD 1 = old.status.getLsbD 0 ∧
      (u.me.trapRegs t).status.extractLsb' 2 2 = levelCode s.me.level ∧ (u.me.trapRegs t).status.extractLsb' 4 60 = 0) ∧
  (∀ (cause : BitVec 8) (l : Level), trapLevel cause l =
    if cause = 0x01 ∨ cause = 0xA1 then .h else if l = .u then .s else .h) ∧
  (∀ (s : State) (c : CoreId) (cause f : BitVec 8) (tval tpc : Word),
    let s1 := s.updCore c fun x => enterTrap x .s cause false tval tpc
    let s2 := (fetchFaults s1 c).2.updCore c fun x => enterTrap x .h 0xA1 false (0#48 ++ f ++ cause) x.ts.tvec
    (fetchFaults s1 c).1 = some f →
    ((fetchFaults s2 c).1 = none → takeTrap s c .s cause false tval tpc = (fetchFaults s2 c).2) ∧
    (∀ g, (fetchFaults s2 c).1 = some g → takeTrap s c .s cause false tval tpc = mcheckCore (fetchFaults s2 c).2 c))

/-- RETT returns to TPC at the level PPL names, with IE := PIE, when PPL is not above the current level; otherwise, and at
PPL = 11, it raises ILLEGAL; at U it raises PRIV (R195). -/
def Obligations.RettReturnsFromATrap : Prop :=
  (∀ s : State, s.me.level = .u → exec .rett s = .next (s.raised 0x21 0xFC000023)) ∧
  ∀ (s : State) (l : Level), s.me.level ≠ .u →
    let t := s.me.trapRegs s.me.level
    (t.status.extractLsb' 2 2 = levelCode l → levelNat l ≤ levelNat s.me.level →
      ∃ u, exec .rett s = .next u ∧ u.me.pc = t.tpc ∧ u.me.level = l ∧ u.me.g = s.me.g ∧ u.me.f = s.me.f ∧
        (u.me.trapRegs s.me.level).status.getLsbD 0 = t.status.getLsbD 1 ∧
        (u.me.trapRegs s.me.level).status.extractLsb' 1 63 = t.status.extractLsb' 1 63 ∧
        (u.me.trapRegs s.me.level).tpc = t.tpc ∧ u.ms = s.ms ∧ (∀ c, c ≠ s.cur → u.core c = s.core c)) ∧
    (t.status.extractLsb' 2 2 = levelCode l → levelNat s.me.level < levelNat l →
      exec .rett s = .next (s.raised 0x20 0xFC000023)) ∧
    (t.status.extractLsb' 2 2 = 3 → exec .rett s = .next (s.raised 0x20 0xFC000023))

/-- SREAD writes what the register reads to g[d], SWRITE writes g[d] to the register; a read-only register keeps its value; a
write of PFQHEAD, which is a release (R337), waits while a lock covers a line it would write (R99); below the register's level both
raise PRIV, and an unassigned number raises ILLEGAL (R196). A register holds the bits that its table gives it of what is written, and reads 0 elsewhere; FCSR's flags clear where a 1 is written (Tables 3-7, 9-9 to 9-11, 21-9,
24-1, 24-7, 25-2, 26-3). -/
def Obligations.SpecialRegistersAreReadAndWritten : Prop :=
  (∀ (s : State) (d n m : Reg) (i : RegInfo),
    let k := (regNum n m).toNat
    (regInfo k = some i → regOn s.cur i = true →
      (levelNat i.rd ≤ levelNat s.me.level → s.Free [d] → readWaits s s.cur k = false →
        exec (.sread d n m) s = .next ((sreadCore s s.cur k).2.wg d (regRead s s.cur k)).retired) ∧
      (levelNat s.me.level < levelNat i.rd → exec (.sread d n m) s = .next (s.raised 0x21 (wordOf (.sread d n m)))) ∧
      (∀ l, i.wr = some l → levelNat l ≤ levelNat s.me.level → s.Free [d] →
        (writeWaits s s.cur k = false → exec (.swrite d n m) s = .next (regWrite s s.cur k (s.rg d)).retired) ∧
        (writeWaits s s.cur k = true → exec (.swrite d n m) s = .next s)) ∧
      (∀ l, i.wr = some l → levelNat s.me.level < levelNat l →
        exec (.swrite d n m) s = .next (s.raised 0x21 (wordOf (.swrite d n m)))) ∧
      (i.wr = none → levelNat i.rd ≤ levelNat s.me.level → s.Free [d] → exec (.swrite d n m) s = .next s.retired)) ∧
    (regInfo k = none →
      exec (.sread d n m) s = .next (s.raised 0x20 (wordOf (.sread d n m))) ∧
      exec (.swrite d n m) s = .next (s.raised 0x20 (wordOf (.swrite d n m))))) ∧
  (∀ (s : State) (v : Word), s.me.part ≠ none →
    (∀ x ∈ [((0x001 : Nat), (0xFF : Word)), (0x010, 7), (0x011, ~~~3), (0x012, ~~~3), (0x013, 0x1FF), (0x014, ~~~0), (0x015, ~~~0),
        (0x016, ~~~0), (0x020, 0x000FFFFFFFFFF001), (0x030, 0x0000FFFFFFFFE001), (0x031, 0x0000FFFFFFFFF1FF), (0x032, 0x3FFFFFF),
        (0x040, 7), (0x0C0, 0x3FF), (0x0D0, 0xFF), (0x0D2, 0xFFFFFFFF), (0x0D4, 0xF7F), (0x0E0, 0x3C3F), (0x0E8, 0xFFFFFC3F),
        (0x0EC, 0x1FF), (0x0ED, ~~~0), (0x0F0, 0x000FFFFFFFFFC000), (0x0F1, 0x1F), (0x101, 0xFF), (0x110, 0xF), (0x111, ~~~3),
        (0x112, ~~~3), (0x113, 0x1FF), (0x114, ~~~0), (0x115, ~~~0)],
      regRead (regWrite s s.cur x.1 v) s.cur x.1 = v &&& x.2) ∧
    regRead (regWrite s s.cur 0x000 v) s.cur 0x000 = (v &&& 0x1FE0) ||| (s.me.fcsr &&& 0x1F &&& ~~~v))

/-- The register writes and reads that are events of their own do what the register's own access does, when the core runs and
its level allows it; those of FGCTL and FGLIST wake the region, or wait until it can wake (R196, R307, R337, R344, R366, R375, R381
to R384, R388, R392, R393). -/
def Obligations.RegisterEventsActAsTheirAccesses : Prop :=
  ∀ (s : State) (c : CoreId) (v : Word) (d : Reg) (n : BitVec 10) (q : CoreId) (r : RegionId) (p : PartId),
    (regAllowed s c 0x016 true = true →
      exec (.timecmpSWrite c v) s = .next (s.updCore c fun x => { x with timecmp := v })) ∧
    (regAllowed s c 0x022 true = true → (s.core c).part = some p → syncHeld s (.coreD c) = false →
      exec (.pfqheadWrite c v) s = .next ((s.updMs (releaseS (.coreD c))).updPart p fun q =>
        { q with pfqhead := BitVec.ofNat 16 ((v &&& 0xFFFF).toNat % 2 ^ (q.pfqsize.extractLsb' 0 5).toNat) })) ∧
    (regAllowed s c 0x023 false = true → (s.core c).pending d = false → (s.core c).part = some p →
      exec (.pfqtailRead c d) s = .next ((s.updMs (acquireS (.coreD c))).updCore c (·.wg d ((s.part p).pfqtail.zeroExtend 64)))) ∧
    (regAllowed s c 0x041 true = true → (s.core c).part = some p → deltaInFlight s p = false → (s.rules p).insts = [] →
      exec (.wmbaseWrite c v) s = .next (s.updRules p fun q => { q with wmbase := v &&& 0xFC0FFFFFFFFF001F })) ∧
    (regAllowed s c 0x041 true = true → (s.core c).part = some p → deltaInFlight s p = true →
      exec (.wmbaseWrite c v) s = .next s) ∧
    (regAllowed s c 0x0D1 true = true → ∃ t, exec (.tqcfgWrite c v) s = .next t ∧
      let x := queueOf t (s.core c).sel.tqsel
      x.rank = v.extractLsb' 0 3 ∧ x.en = v.getLsbD 7 ∧ x.owner = v.extractLsb' 8 4 ∧
        x.bids = if v.getLsbD 7 then (queueOf s (s.core c).sel.tqsel).bids else []) ∧
    (regAllowed s c 0x0A7 true = true → selectedSq s c = some q → (s.core q).run = .running →
      exec (.sqctlStop c) s = .next (s.updCore q fun x => { x with stopReq := true })) ∧
    (∀ l, regAllowed s c 0x0A7 true = true → selectedSq s c = some q → (s.core q).stoppedNow = true →
      levelOfCode (s.core q).sqlevel = some l → l ≠ .h → ∃ t, exec (.sqctlGo c) s = .next t ∧
        t.core q = { s.core q with run := .running, level := l, stopReq := false, entering := none }) ∧
    (regAllowed s c 0x0E3 true = true → fgRegion s c = some r → sleepsOn s r = false →
      let u := wakeRegion s r
      ((u.ctl r).st = .running → (u.dbg r).stop = .going →
        exec (.fgctlStop c) s = .next (u.updDbg r fun x => { x with stop := .stopping })) ∧
      ((u.dbg r).stop ≠ .going → exec (.fgctlGo c) s = .next (touch (u.updDbg r fun x => { x with stop := .going, replayAt := u.fclock }) r)) ∧
      exec (.fgctlUnpark c) s = .next (fgUnpark u r) ∧
      exec (.fgctlClrmg c) s = .next (u.updDbg r fun x => { x with mg := [] })) ∧
    (regAllowed s c 0x0E4 true = true → fgRegion s c = some r → sleepsOn s r = false → ((wakeRegion s r).dbg r).listing = false →
      ((wakeRegion s r).dbg r).stop = .stopped →
      exec (.fglistGo c) s = .next ((wakeRegion s r).updDbg r fun x =>
        { x with listing := true, listDone := false, listErr := false, listOvf := false, listCount := 0 })) ∧
    (fgRegion s c = some r → sleepsOn s r = true →
      ∀ i ∈ [Instr.fgctlStop c, .fgctlGo c, .fgctlUnpark c, .fgctlClrmg c, .fglistGo c], exec i s = .next s) ∧
    (regAllowed s c 0x0E5 false = true → (s.core c).pending d = false → fgRegion s c = some r →
      exec (.fglstatRead c d) s = .next ((if (s.dbg r).listDone = true then s.updMs (acquireS (.coreD c)) else s).updCore c
        (·.wg d (fglstatVal (s.dbg r))))) ∧
    (regAllowed s c 0x0E7 false = true → (s.core c).pending d = false → (s.core c).part = some p →
      exec (.fgtrcntRead c d) s = .next ((s.updMs (acquireS (.coreD c))).updCore c (·.wg d (s.part p).fgtrcnt))) ∧
    (regAllowed s c 0x0EE true = true → cstopCore v = some q → (s.core c).part ≠ none → (s.core q).part = (s.core c).part →
      exec (.fgcstopWrite c v) s = .next (s.updCore q fun x => { x with dbgstop := true })) ∧
    (regAllowed s c 0x0EF true = true → (s.core c).part = some p →
      ((s.part p).crashk.getLsbD 0 = false → exec (.crashkGo c) s = .next s) ∧
      ((s.part p).crashk.getLsbD 0 = true → writeWaits s c 0x0EF = false → exec (.crashkGo c) s = .next (crashGo s p)) ∧
      (writeWaits s c 0x0EF = true → exec (.crashkGo c) s = .next s)) ∧
    (regAllowed s c n.toNat true = true → writeWaits s c n.toNat = false →
      exec (.registerWrite c n v) s = .next (regWrite s c n.toNat v)) ∧
    (regAllowed s c n.toNat true = false → exec (.registerWrite c n v) s = .next s)

/-- WAITW waits while the word equals g[b] and otherwise gives it; WFE waits unless an interrupt is pending; HALT stops the core
behind it; TLBSYNC waits for what its partition's TLBINVs removed. The events that end the waits let the core go on (R87, R185, R193, R197 to
R199). The model's choices: what TLBSYNC ends, for every core of its partition (log 79), and the event TIMER, which moves the fabric clock
to a core's TIMECMP (logs 1 and 2). -/
def Obligations.WaitsEndAsTheirRulesSay : Prop :=
  ∀ (s s' : State) (d a b : Reg) (v : Nat) (c : CoreId) (p : PartId) (cause : BitVec 8),
    let after (f : Core → Core) : State := s.updCore c fun x =>
      { f x with run := .running, pc := x.pc + 4, dbgc := if x.level = .u then x.dbgc &&& ~~~2#64 else x.dbgc }
    let steps := (s.core c).level = .u ∧ (s.core c).dbgc.getLsbD 0 = true
    (s.Free [d, a, b] → s.Loads (s.rg a) 8 v s' →
      (BitVec.ofNat 64 v ≠ s.rg b → exec (.waitw d a b) s = .next (s'.acquireMe.wg d (BitVec.ofNat 64 v)).retired) ∧
      (BitVec.ofNat 64 v = s.rg b →
        exec (.waitw d a b) s = .next (s'.acquireMe.updMe fun x => { x with run := .waitw d a b }))) ∧
    ((s.core c).run = .waitw d a b → exec (.waitwWake c) s = .next (s.updCore c fun x => { x with run := .running })) ∧
    (pendingInt s s.cur ≠ none → exec .wfe s = .next s.retired) ∧
    (pendingInt s s.cur = none → exec .wfe s = .next (s.updMe fun x => { x with run := .wfe })) ∧
    ((s.core c).run = .wfe → ¬steps → exec (.wfeWake c) s = .next (after id)) ∧
    (s.me.level ≠ .u → s.me.pend = 0 → exec .halt s = .next (s.updMe fun x =>
      { x with run := .halted, sqlevel := levelCode x.level, stopReq := false, crashStop := false, pc := x.pc + 4 })) ∧
    (s.me.level ≠ .u → s.Free [a] → s.me.part = some p → ∃ t, exec (.tlbinv a) s = .next t ∧
      (∀ e ∈ t.ms.tlb, e.part = p → invCovers (s.rg a) e = false) ∧
      (∀ e ∈ s.ms.tlb, e.part ≠ p → e ∈ t.ms.tlb) ∧ t.ms.mem = s.ms.mem ∧ t.me.g = s.me.g ∧ t.me.pc = s.me.pc + 4) ∧
    (s.me.level ≠ .u → tlbSynced s s.cur = true →
      exec .tlbsync s = .next (tlbSyncDone s s.cur).retired) ∧
    (s.me.level ≠ .u → tlbSynced s s.cur = true → s.me.part = some p → ∃ t, exec .tlbsync s = .next t ∧
      t.me.pc = s.me.pc + 4 ∧ t.me.g = s.me.g ∧ ∀ z, (s.core z).part = some p → (t.core z).inv = []) ∧
    (s.me.level ≠ .u → tlbSynced s s.cur = false → exec .tlbsync s = .next (s.updMe fun x => { x with run := .tlbsync })) ∧
    ((s.core c).run = .tlbsync → tlbSynced s c = true → ¬steps →
      ∃ t, exec (.tlbsyncComplete c) s = .next t ∧ (t.core c).run = .running ∧ (t.core c).pc = (s.core c).pc + 4 ∧
        (t.core c).g = (s.core c).g ∧ t.ms = (tlbSyncDone s c).ms) ∧
    ((s.core c).timecmp ≠ 0 → s.fclock.toNat < (s.core c).timecmp.toNat →
      exec (.timer c) s = .next { s with fclock := (s.core c).timecmp }) ∧
    (takenInt s c = some cause → exec (.interruptTake c) s = .next (takeInt s c cause))

/-- Interrupts are taken at S level, at U always and at S with IE = 1, THERMAL before HOSTEVENT before PFQEVENT, on SY cores,
then TIMER; HOSTEVENT and THERMAL clear when taken and TPC is where the core goes on (R193, R198, R356). TVAL of HOSTEVENT, PFQEVENT
and TIMER is given nowhere: a free value (log 2, the model's choice). -/
def Obligations.InterruptsAreTakenInTheirOrder : Prop :=
  ∀ (s : State) (c : CoreId) (p : PartId) (n : BitVec 4), (s.core c).part = some p → c = .sy n → (s.core c).run = .running →
    let on := (s.core c).level = .u ∨ ((s.core c).level = .s ∧ (s.core c).ts.status.getLsbD 0 = true)
    let q := s.part p
    let pfq := q.pfqsize.getLsbD 16 = true ∧ q.pfqhead ≠ q.pfqtail
    let time := (s.core c).timecmp ≠ 0 ∧ (s.core c).timecmp.toNat ≤ s.fclock.toNat
    (¬on → takenInt s c = none) ∧
    (on → q.thermal ≠ none → takenInt s c = some 0xA6) ∧
    (on → q.thermal = none → q.hostEvent = true → takenInt s c = some 0x08) ∧
    (on → q.thermal = none → q.hostEvent = false → pfq → takenInt s c = some 0x0A) ∧
    (on → q.thermal = none → q.hostEvent = false → ¬pfq → time → takenInt s c = some 0x09) ∧
    (on → q.thermal = none → q.hostEvent = false → ¬pfq → ¬time → takenInt s c = none) ∧
    (∀ cause th, takenInt s c = some cause → q.thermal = some th ∨ (q.thermal = none ∧ th = 0) →
      let s1 := ((s.useFresh 1).updPart p fun q => if cause = 0xA6 then { q with thermal := none }
        else if cause = 0x08 then { q with hostEvent := false } else q)
      exec (.interruptTake c) s = .next (takeTrap s1 c .s cause true
        (if cause = 0xA6 then th.zeroExtend 64 else Config.freeWord s.fresh) (s.core c).pc))

/-- A CACHEOP acts on the line of g[a] once its page is found: CLEAN writes the core's dirty bytes home, INVAL discards the copy,
FLUSH does both, PFR and PFW prefetch and drop any fault, IINV drops the line's instruction words; a fault of the others raises
its cause, and a U page is left alone (R201). CLEAN and FLUSH wait while a lock covers the line they would write (R99). -/
def Obligations.CacheopsActOnOneLine : Prop :=
  ∀ (s s1 : State) (a : Reg) (t : Xl) (cause : BitVec 8) (va : Word), s.Free [a] →
    let found (w : Bool) := probeVa s (coreCtx s) w (s.rg a) = .ok t s1
    let line := lineOf t.pa
    (found false → cleanWaits s1 t = true → exec (.cacheopClean a) s = .next s) ∧
    (found true → cleanWaits s1 t = true → exec (.cacheopFlush a) s = .next s) ∧
    (found false → t.coh ≠ 2 →
      (cleanWaits s1 t = false → exec (.cacheopClean a) s = .next (cleanLine s1 t).retired) ∧
      exec (.cacheopIinv a) s = .next (s1.updMe fun c => { c with icache := c.icache.filter fun w => lineOf w.1 != line }).retired) ∧
    (found true → t.coh ≠ 2 →
      exec (.cacheopInval a) s = .next (dropLine s1 t).retired ∧
      (cleanWaits s1 t = false → exec (.cacheopFlush a) s = .next (dropLine (cleanLine s1 t) t).retired) ∧
      findSLine (dropLine s1 t).ms (.coreD s1.cur) line = none ∧ (dropLine s1 t).ms.mem = s1.ms.mem) ∧
    (found false → t.coh = 2 → exec (.cacheopClean a) s = .next s1.retired ∧ exec (.cacheopIinv a) s = .next s1.retired) ∧
    (found true → t.coh = 2 → exec (.cacheopInval a) s = .next s1.retired ∧ exec (.cacheopFlush a) s = .next s1.retired) ∧
    (probeVa s (coreCtx s) false (s.rg a) = .trap cause va →
      exec (.cacheopClean a) s = .next (s.raised cause va) ∧ exec (.cacheopIinv a) s = .next (s.raised cause va)) ∧
    (probeVa s (coreCtx s) true (s.rg a) = .trap cause va →
      exec (.cacheopInval a) s = .next (s.raised cause va) ∧ exec (.cacheopFlush a) s = .next (s.raised cause va)) ∧
    exec (.cacheopPfr a) s = .next (prefetch s (coreCtx s) false (s.rg a)).retired ∧
    exec (.cacheopPfw a) s = .next (prefetch s (coreCtx s) true (s.rg a)).retired ∧
    (∀ w, (prefetch s (coreCtx s) w (s.rg a)).core = s.core)

/-- REPLAY resolves what a page's faults hold, after a release; FRES resolves the fault that an entry in memory names, as its
mode says: SUPPLY and RETRY only a resumable one, ILLEGAL being raised of another, and of an image that SUPPLY refuses; a fault already
resolved, or ended by REPLAY or a kill, or one that is not recorded, has no effect and raises nothing (R200, R339, R360). A supplied token that would come out of
its port's order waits for a later turn (R35; log 84, the model's choice). -/
def Obligations.FaultsAreResolvedByReplayAndFres : Prop :=
  ∀ (s s1 s2 : State) (a b : Reg) (p : PartId) (e im : List Byte) (f : FaultRec) (t : Token), s.me.level ≠ .u → s.Free [a, b] →
    s.me.part = some p →
    let stands : Prop := f.resolved = false ∧ (f.resumable = true → faultStands s1 p f.id = true)
    (syncHeld s (.coreD s.cur) = false →
      exec (.replay a) s = .next (replayPage s.releaseMe p ((s.rg a).toNat / 65536)).retired) ∧
    (syncHeld s (.coreD s.cur) = true → exec (.replay a) s = .next s) ∧
    ((s.rg a).toNat % 64 = 0 → loadBytes s (coreCtx s) (s.rg a) 64 = .ok e s1 → faultOf (s1.part p) e = none →
      exec (.fresRetry a b) s = .next s1.retired ∧ exec (.fresKill a b) s = .next s1.retired) ∧
    ((s.rg a).toNat % 64 = 0 → loadBytes s (coreCtx s) (s.rg a) 64 = .ok e s1 → faultOf (s1.part p) e = some f →
      (stands → f.resumable = true → exec (.fresRetry a b) s = .next (resolveFault s1 p f.id .retry).retired) ∧
      (f.resolved = false → f.resumable = false →
        exec (.fresRetry a b) s = .next (s1.raised 0x20 (wordOf (.fresRetry a b)))) ∧
      (stands → exec (.fresKill a b) s = .next (resolveFault s1 p f.id .kill).retired) ∧
      (¬stands → exec (.fresRetry a b) s = .next s1.retired ∧ exec (.fresKill a b) s = .next s1.retired)) ∧
    ((s.rg a).toNat % 64 = 0 → (s.rg b).toNat % 64 = 0 → loadBytes s (coreCtx s) (s.rg a) 64 = .ok e s1 →
      (faultOf (s1.part p) e = none → exec (.fresSupply a b) s = .next s1.retired) ∧
      (faultOf (s1.part p) e = some f → ¬stands → exec (.fresSupply a b) s = .next s1.retired) ∧
      (faultOf (s1.part p) e = some f → f.resolved = false → f.resumable = false →
        exec (.fresSupply a b) s = .next (s1.raised 0x20 (wordOf (.fresSupply a b)))) ∧
      (faultOf (s1.part p) e = some f → stands → f.resumable = true →
        loadBytes s1 (coreCtx s1) (s1.rg b) 80 = .ok im s2 →
        (imageTok im = none → exec (.fresSupply a b) s = .next (s1.raised 0x20 (wordOf (.fresSupply a b)))) ∧
        (imageTok im = some t → supplyWaits s2 p f.id (.supply t) = false →
          exec (.fresSupply a b) s = .next (resolveFault s2 p f.id (.supply t)).retired) ∧
        (imageTok im = some t → supplyWaits s2 p f.id (.supply t) = true → exec (.fresSupply a b) s = .next s1))) ∧
    ((s.rg a).toNat % 64 ≠ 0 → exec (.fresSupply a b) s = .next (s.raised 0x22 (s.rg a)) ∧
      exec (.fresRetry a b) s = .next (s.raised 0x22 (s.rg a)) ∧ exec (.fresKill a b) s = .next (s.raised 0x22 (s.rg a)))

/-- The instructions on regions begin as their rules say, once their checks pass: REQR and RESUMR place a bid in a Tundish queue;
LAUNCH, KILLR, PREEMPT, STRM and SBAR start on their region, which wakes (R163, R168 to R175, R178). A KILLR in the fc of the
region's quiescence finds it RUNNING and wins (R362). -/
def Obligations.RegionInstructionsBegin : Prop :=
  ∀ (s u : State) (d a b e : Reg) (p : PartId) (r : RegionId) (g : Cfg) (h : ShapeRec) (pb : PbtAt) (x : Xl),
    let S := issueState s d
    let T := wakeRegion S r
    let va := s.rg a
    let vb := s.rg b
    let ve := s.rg e
    let q : BitVec 6 := vb.extractLsb' 0 6
    let mine := regionArg S (issueOp s d p) va = .ok r ∧ (T.ctl r).power = 0
    let die : DieId := (dieOfCore s.cur).getD (va.extractLsb' 8 2)
    let bids (z : DieId) := (S.die z).queues[q.toNat]'q.isLt
    let queued (i : Instr) (z : DieId) (t : State) (k : OpKind) : Prop :=
      (bids z).en = true → (bids z).owner = p → (bids z).bids.length < 16 →
        s.Started i d p k (t.updDie z fun y => { y with
          queues := y.queues.set q.toNat { bids z with bids := (bids z).bids ++ [s.nextOp] } q.isLt, round := true, w4 := false })
    (s.CanIssue d [a, b] p → va.extractLsb' 10 54 = 0 → vb.extractLsb' 6 58 = 0 →
      1 ≤ (va.extractLsb' 0 4).toNat → (va.extractLsb' 0 4).toNat ≤ 9 →
      1 ≤ (va.extractLsb' 4 4).toNat → (va.extractLsb' 4 4).toNat ≤ 11 →
      queued (.reqr d a b) die S (.reqr die q (va.extractLsb' 0 4).toNat (va.extractLsb' 4 4).toNat)) ∧
    (∀ hd body s1 s2 s3 sv, s.CanIssue d [a, b] p → loadBytes S (hubCtx p s.me.level) va 128 = .ok hd s1 →
      saveAgrees s1 (issueOp s d p) hd = .ok r →
      loadBytes s1 (hubCtx p s.me.level) (va + 128) (4096 * leAt hd 12 4 - 128) = .ok body s2 →
      savedAs s2 r (shake256 body) = some sv → leAt hd 96 32 = (shake256 body).toNat → sv.region.ctl.cfg = some g →
      saveRsigOk s2 (issueOp s d p) hd g.rsig = .ok true s3 → replayBad (s3.dbg r) g = false →
      queued (.resumr d a b) (dieOfRegion r) s3 (.resumr (dieOfRegion r) q va r)) ∧
    (s.CanIssue d [a, b, e] p → mine → ve.toNat % 8 = 0 → probeVa T (hubCtx p s.me.level) true ve = .ok x u →
      (u.ctl r).st ∈ [.idle, .running, .loading] →
      s.Started (.launch d a b e) d p (.launch r (vb &&& ~~~63#64) (vb.extractLsb' 0 6) ve) u) ∧
    (s.CanIssue d [a] p → mine → (T.ctl r).st ∈ [.running, .frozen, .saved] →
      s.Started (.killr d a) d p (.killr r) (killRunning T r 0xA9)) ∧
    (s.CanIssue d [a] p → mine → (T.ctl r).st = .idle → s.Started (.killr d a) d p (.killr r) (freeRegion T r)) ∧
    (s.CanIssue d [a] p → mine → (T.ctl r).st = .running → (T.ctl r).cfg = some g → g.flags.getLsbD 0 = true →
      s.Started (.preemptKill d a b) d p (.killr r) (killRunning T r 0xA8)) ∧
    (s.CanIssue d [a, b] p → mine → (T.ctl r).st ∈ [.running, .frozen] → vb.toNat % 4096 = 0 →
      probePages T (hubCtx p s.me.level) vb (saveUnits (T.ctl r)).toNat = .ok () u →
      s.Started (.preemptSnapshot d a b) d p (.snapshot r vb) u) ∧
    (s.CanIssue d [a, b, e] p → mine → (T.ctl r).st ∈ [.loading, .running] → (T.ctl r).cfg = some g → pbtOf g ve = some pb →
      ve.extractLsb' 9 55 = 0 → hasConsumer g ve pb = true → vb = 0 → strmRecord pb.raw ve = .ok h → ending (T.ctl r) = false →
      regionSyncHeld T r = false → inChecks T r = false →
      s.Started (.strm d a b e) d p (.strm r ve h (T.ctl r).phase (portOut ve))
        ((regionSync T r).updCtl r fun c => { c with idleSince := none, quietAt := none })) ∧
    -- while the LAUNCH is at its checks the record is not known
    (s.CanIssue d [a, b, e] p → mine → inChecks T r = true → exec (.strm d a b e) s = .next s) ∧
    (s.CanIssue d [a] p → mine → (T.ctl r).st = .running → ending (T.ctl r) = false →
      s.Started (.sbar d a) d p (.sbar r) (T.updCtl r fun c => { c with idleSince := none, quietAt := none }))

/-- An operation refused at issue ends at once with 0x100 | its cause: a region that is not the caller's gives PRIV, one in a state
that does not allow it ILLEGAL, a misaligned address MISALIGN (R164, R167, R171 to R174, R178). -/
def Obligations.RefusedOperationsEndWithTheirCause : Prop :=
  ∀ (s : State) (d a b e : Reg) (p : PartId) (r : RegionId) (c : BitVec 8),
    let S := issueState s d
    let T := wakeRegion S r
    let arg := regionArg S (issueOp s d p) (s.rg a)
    let mine := arg = .ok r ∧ (T.ctl r).power = 0
    let fails (i : Instr) (t : State) (c : BitVec 8) : Prop := s.EndedAtOnce i d p (0x100 ||| c.zeroExtend 64) t
    (s.CanIssue d [a, b, e] p → arg = .error c → fails (.launch d a b e) S c ∧ fails (.strm d a b e) S c) ∧
    (s.CanIssue d [a] p → arg = .error c → fails (.killr d a) S c ∧ fails (.sbar d a) S c ∧ fails (.preemptKill d a b) S c) ∧
    (s.CanIssue d [a] p → mine → (T.ctl r).st ∈ [.free, .loading] → fails (.killr d a) T 0x20) ∧
    (s.CanIssue d [a] p → mine → (T.ctl r).st ≠ .running → fails (.sbar d a) T 0x20 ∧ fails (.preemptKill d a b) T 0x20) ∧
    (s.CanIssue d [a, b, e] p → mine → (s.rg e).toNat % 8 ≠ 0 → fails (.launch d a b e) T 0x22) ∧
    (s.CanIssue d [a] p → (s.rg a).toNat % 64 ≠ 0 → fails (.loadimg d a) S 0x22 ∧ fails (.cmpct d a) S 0x22) ∧
    (63 < (s.rg a).toNat → arg = .error 0x21) ∧
    ((s.rg a).toNat ≤ 63 → (S.ctl ((s.rg a).setWidth 6)).st ≠ .free → (S.ctl ((s.rg a).setWidth 6)).part ≠ p → arg = .error 0x21)

/-- RQRY gives a region's state, shape, origin, die and save size where it is the caller's, and otherwise 0 (R169). That an SQ core reads a
region of its partition on another die too is the model's choice (log 96). -/
def Obligations.RegionsAreDescribedByRqry : Prop :=
  ∀ (s : State) (d a : Reg), s.Free [d, a] →
    let r : RegionId := (s.rg a).setWidth 6
    let x := s.ctl r
    ∃ v, exec (.rqry d a) s = .next (s.wg d v).retired ∧
      (63 < (s.rg a).toNat ∨ x.st = .free ∨ some x.part ≠ s.me.part → v = 0) ∧
      ((s.rg a).toNat ≤ 63 → x.st ≠ .free → some x.part = s.me.part →
        (v.extractLsb' 0 4).toNat = stateCode x.st ∧ v.extractLsb' 4 4 = BitVec.ofNat 4 x.crows ∧
        v.extractLsb' 8 4 = BitVec.ofNat 4 x.ccols ∧ v.extractLsb' 12 4 = BitVec.ofNat 4 x.orow ∧
        v.extractLsb' 16 4 = BitVec.ofNat 4 x.ocol ∧ v.extractLsb' 20 2 = dieOfRegion r ∧ v.extractLsb' 22 10 = 0 ∧
        v.extractLsb' 32 32 = saveUnits x)

/-- The instructions on the hub's engines, on pages, on the rule engine's settling and on SQ cores begin as their rules say, once
their checks pass (R163, R170, R179 to R183, R188, R189, R199). That SQSTART ends at once with 1 even when the first fetch of the
core that it starts faults is the model's choice (log 48). -/
def Obligations.EngineInstructionsBegin : Prop :=
  ∀ (s T : State) (d a b e : Reg) (p : PartId) (n : Nat × Nat) (l : Leaf) (old : Nat),
    let S := issueState s d
    let va := s.rg a
    let vb := s.rg b
    let ve := s.rg e
    (s.CanIssue d [a] p → va.toNat % 64 = 0 →
      s.Started (.loadimg d a) d p (.loadimg va) S ∧ s.Started (.cmpct d a) d p (.cmpct va) S) ∧
    (s.CanIssue d [a, b, e] p → ve.toNat < 2 ^ 40 → ve ≠ 0 → va.toNat + ve.toNat ≤ 2 ^ 52 → vb.toNat + ve.toNat ≤ 2 ^ 52 →
      va.toNat + ve.toNat ≤ vb.toNat ∨ vb.toNat + ve.toNat ≤ va.toNat → s.Started (.copy d a b e) d p (.copy va vb ve) S) ∧
    (s.CanIssue d [a, b, e] p → ve = 0 → s.EndedAtOnce (.copy d a b e) d p 1 S) ∧
    (s.CanIssue d [a] p → viewLook S (issueOp s d p) va = .ok (some n) T → s.Started (.publish d a) d p (.publish va) T) ∧
    (s.me.level ≠ .u → s.CanIssue d [a, b] p → migrateCheck S (issueOp s d p) va vb = .ok (.ok (l, old)) T →
      windowOpen S p va = false →
      s.Started (.migrate d a b) d p (.migrate va vb old true) (openWindow T (issueOp s d p) va vb old)) ∧
    (s.me.level ≠ .u → s.CanIssue d [a, b] p → windowOpen S p va = true →
      s.Started (.migrate d a b) d p (.migrate va vb 0 false) S) ∧
    (s.CanIssue d [a, b] p → va.toNat % 64 = 0 → vb.toNat % 64 = 0 → s.Started (.coll d a b) d p (.coll va vb) S) ∧
    (s.RulesOn p → s.CanIssue d [] p → s.Started (.settle d) d p .settle S) ∧
    (s.RulesOn p → s.CanIssue d [a, b] p → 1 ≤ vb.toNat → vb.toNat ≤ 64 → (S.rules p).batch = none → va.toNat % 64 = 0 →
      s.Started (.select d a b) d p (.select va vb) (S.updRules p fun q => { q with selected := true })) ∧
    (s.me.level ≠ .u → s.CanIssue d [a, b] p → va.toNat ≤ 63 → vb.toNat % 4 = 0 →
      let c := CoreId.sq (va.setWidth 6)
      (S.core c).part = some p → (S.core c).run ∈ [.held, .halted, .stopped] →
        let u := wakeDie (S.updCore c (startedCore vb)) c
        (u.core c).pc = vb ∧ (u.core c).level = .s ∧ (u.core c).run = .running ∧ (u.core c).fcsr = 0 ∧ (u.core c).sigctl = 0 ∧
          (u.core c).f = Vector.replicate 32 ⟨0, 0⟩ ∧ (u.core c).g = (S.core c).g ∧
          (fetchAt u c ≠ .wait → s.EndedAtOnce (.sqstart d a b) d p 1 (fetchFaults u c).2) ∧
          -- a first fetch that waits leaves the token register pending
          (fetchAt u c = .wait → s.Started (.sqstart d a b) d p (.sqstart c) u))

/-- An operation that ends delivers its value to its token register, which is pending no more, leaves every other register as it
is, and is under way no more (R163, R164). -/
def Obligations.OperationsDeliverTheirValue : Prop :=
  ∀ (s : State) (o : Op) (v : Word),
    let t := finishOp s o v
    (o.d ≠ 0 → (t.core o.core).rg o.d = v) ∧ (t.core o.core).pending o.d = false ∧
      (∀ r, r ≠ o.d → (t.core o.core).rg r = (s.core o.core).rg r ∧
        (t.core o.core).pending r = (s.core o.core).pending r) ∧
      (t.core o.core).f = (s.core o.core).f ∧ (t.core o.core).pc = (s.core o.core).pc ∧
      (∀ c, c ≠ o.core → t.core c = s.core c) ∧ (∀ x ∈ t.ops, x.id ≠ o.id) ∧
      (∀ x ∈ s.ops, x.id ≠ o.id → x ∈ t.ops) ∧ t.parts = s.parts ∧ t.regions = s.regions

/-- ASSERT writes a new WME under the next timetag and injects its + delta; RETRACT marks a WME and injects its − delta; MODIFY does
both; FIRED takes the batch's instantiations; WAVE begins the next wave; SCORECLR clears a score table (R187, R190, R191, R309,
R312, R325, R327). -/
def Obligations.RuleInstructionsActOnWorkingMemory : Prop :=
  ∀ (s s1 s2 s3 s4 s5 : State) (d a b : Reg) (p : PartId) (src : Nat) (x y : Xl) (w0 : Word), s.RulesOn p →
    let q := s.rules p
    let tt := q.timetag
    let stamp := if q.selected then q.wave + 1 else q.wave
    -- RET, bit 0 of the old WME's word 0, at home, and the − delta of the WME as it then stands
    let marked (u : State) : Prop := Memory.wf s.ms.mem = true → s.ms.migrations = [] → isPeer x.pa = false → isDevice x.pa = false →
      x.coh ≠ 1 → Memory.readLE u.ms.mem x.pa 8 = (w0 ||| 1).toNat
    let va := q.slot (s.rg a).toNat
    let wrote (z : State) (v : Nat) (u u' : State) : Prop := writeAt z (hubCtx p s.me.level) x (w0 ||| 1).toNat 8 va = .ok () u ∧
      readAt u (hubCtx p s.me.level) x 128 va = .ok v u'
    let minus (v : Nat) : Delta :=
      ⟨q.deltaCount, BitVec.ofNat 40 (s.rg a).toNat, true, ((wmeWords v).headD 0 ||| 0x80) :: (wmeWords v).tail, stamp⟩
    (s.Free [d, a] → sourceWme s (s.rg a) = .ok src s1 → slotAt s1 p tt 8 128 = .ok (x, 0) s2 → tt < 2 ^ 40 → injRoom s p 1 = true →
      (s2.ctl q.net).power = 0 →
      doAssert s2 p x tt src d = .ok () s3 →
      exec (.assert d a) s = .next s3.retired ∧ (s3.rules p).timetag = tt + 1 ∧ (d ≠ 0 → s3.rg d = BitVec.ofNat 64 tt) ∧
        (s3.fab q.net).injq = (s.fab q.net).injq ++ [⟨q.deltaCount, BitVec.ofNat 40 tt, false, newWme src tt, stamp⟩]) ∧
    (s.Free [a] → slotAt s p (s.rg a).toNat 128 8 = .ok (x, w0) s1 → retractable (s.rg a).toNat w0 = true → injRoom s p 1 = true →
      (s1.ctl q.net).power = 0 → doRetract s1 p x (s.rg a).toNat w0 = .ok () s2 → exec (.retract a) s = .next s2.retired ∧
        marked s2 ∧ ∀ v u u', wrote s1 v u u' → (s2.fab q.net).injq = (s.fab q.net).injq ++ [minus v]) ∧
    (s.Free [a] → slotAt s p (s.rg a).toNat 128 8 = .ok (x, w0) s1 → retractable (s.rg a).toNat w0 = false →
      exec (.retract a) s = .next (s.raised 0x91 (s.rg a))) ∧
    (s.Free [d, a, b] → sourceWme s (s.rg b) = .ok src s1 → slotAt s1 p (s.rg a).toNat 128 8 = .ok (x, w0) s2 →
      slotAt s2 p tt 8 128 = .ok (y, 0) s3 → retractable (s.rg a).toNat w0 = true → tt < 2 ^ 40 → injRoom s p 2 = true →
      (s3.ctl q.net).power = 0 → doRetract s3 p x (s.rg a).toNat w0 = .ok () s4 → doAssert s4 p y tt src d = .ok () s5 →
      exec (.modify d a b) s = .next s5.retired ∧ (s5.rules p).timetag = tt + 1 ∧ (d ≠ 0 → s5.rg d = BitVec.ofNat 64 tt) ∧
        marked s4 ∧ ∀ v u u', wrote s3 v u u' → (s5.fab q.net).injq = (s.fab q.net).injq ++
          [minus v, ⟨q.deltaCount + 1, BitVec.ofNat 40 tt, false, newWme src tt, stamp⟩]) ∧
    (s.Free [a] → ∀ k, q.batch = some k →
      (s.rg a = k.zeroExtend 64 → exec (.fired a) s = .next (s.updRules p fun q =>
        { q with batch := none, insts := q.insts.filter (·.batch != some k) }).retired) ∧
      (s.rg a ≠ k.zeroExtend 64 → exec (.fired a) s = .next (s.raised 0x20 (wordOf (.fired a))))) ∧
    (q.batch = none → deltaInFlight s p = false →
      exec .wave s = .next (s.updRules p fun q => { q with wave := q.wave + 1, selected := false }).retired) ∧
    (q.batch ≠ none ∨ deltaInFlight s p = true → exec .wave s = .next (s.raised 0x20 (wordOf .wave))) ∧
    (∀ r row col base n, s.Free [a] → (s.rg a).toNat ≤ 15 → deltaInFlight s p = false → netRegion s p = some r →
      scoreArea s r (s.rg a).toNat = some (row, col, base, n) → (s.ctl q.net).power = 0 →
      exec (.scoreclr a) s = .next (s.updFab r fun f => scrZero f row col base (16 * n)).retired) ∧
    (s.Free [a] → 15 < (s.rg a).toNat → exec (.scoreclr a) s = .next (s.raised 0x20 (wordOf (.scoreclr a))))

/-- The loads and ends of regions complete as their rules say: LOADIMG with 1 and its record, or with the cause of the check that
failed; LAUNCH loads a configuration into an idle region and completes when it runs; KILLR, PREEMPT, STRM and SBAR complete with
1 once what they wait for is over, a STRM whose round has failed with its value; the end of an inward STRM and of an SBAR
synchronises the region's L1s, for which it waits while a lock covers a line it would write (R99, R127, R128, R171 to R173, R175 to
R178, R301, R302, R341). That an outward token is taken in a turn of its own before its first unit is stored is the model's choice
(log 46). -/
def Obligations.RegionOperationsComplete : Prop :=
  ∀ (s s1 s2 : State) (k : Nat) (o : Op) (r : RegionId) (g : Cfg) (bs : List Byte) (m : Image) (c : BitVec 8) (va img cw : Word)
    (idx : BitVec 6) (h : ShapeRec) (code : Word) (ph : Nat) (out : Bool) (par : Flips), s.Under k o →
    let x := hubCtx o.part o.lvl
    (o.kind = .loadimg va → readImage s x va = .ok bs s1 →
      (signatureOk (s1.part o.part) bs = true → checkImage bs = .ok m → m.data = [] →
        let o1 := { o with kind := .loadimgData [] (loadRecOf va m) }
        exec (.loadimgComplete k) s = .next (finishOp ((putOp s1 o1).updPart o.part fun q =>
          { q with loads := addLoad q.loads (loadRecOf va m) }) o1 1)) ∧
      (signatureOk (s1.part o.part) bs = true → checkImage bs = .ok m →
        let todo := m.data.map dataTarget
        let o1 := { o with kind := .loadimgData todo (loadRecOf va m) }
        exec (.loadimgComplete k) s = copyData (putOp s1 o1) o1 (loadRecOf va m) todo) ∧
      (signatureOk (s1.part o.part) bs = true → checkImage bs = .error c →
        exec (.loadimgComplete k) s = .next (finishOp s1 o (failWord c))) ∧
      (signatureOk (s1.part o.part) bs = false → exec (.loadimgComplete k) s = .next (finishOp s1 o (failWord cLOAD_SIGNATURE)))) ∧
    (∀ rec, o.kind = .loadimgData [(va, bs)] rec → storeBytes s x va bs.length bs = .ok none s1 →
      let o1 := { o with kind := .loadimgData [] rec }
      exec (.loadimgComplete k) s = .next (finishOp ((putOp s1 o1).updPart o.part fun q =>
        { q with loads := addLoad q.loads rec }) o1 1)) ∧
    (o.kind = .launch r img idx cw →
      (s.ops.takeWhile (·.id != k)).any (fun y => match y.kind with | .launch q _ _ _ => q == r | _ => false) = false →
      (s.ctl r).st = .idle → (s.ctl r).power = 0 → o.held = none → o.unit = 0 → storeVa s x cw 0 8 = .ok () s1 →
      let begun := beginLoad s1 o r cw
      (begun.ctl r).st = .loading ∧
      (launchCheck begun o r img idx = .loads g s2 → exec (.launchTakeEffect k) s = .next (loadRegion s2 o r img idx cw g) ∧
        ((loadRegion s2 o r img idx cw g).ctl r).st = .loading ∧ ((loadRegion s2 o r img idx cw g).ctl r).cfg = some g) ∧
      -- checks that wait leave the region LOADING
      (launchCheck begun o r img idx = .wait → exec (.launchTakeEffect k) s = .next (putOp begun { o with unit := 1 })) ∧
      (launchCheck begun o r img idx = .refused c → storeVa begun x cw (failWord c).toNat 8 = .ok () s2 →
        exec (.launchTakeEffect k) s = .next (endLoad s2 { o with unit := 2, buf := [c] } r c) ∧
        ((endLoad s2 { o with unit := 2, buf := [c] } r c).ctl r).st = .idle)) ∧
    (o.kind = .loading r →
      exec (.loadComplete k) s = .next (finishOp (s.updCtl r fun c => { c with st := .running, lastFire := s.fclock }) o 1)) ∧
    (o.kind = .killr r → exec (.killrComplete k) s = .next (finishOp s o 1)) ∧
    (o.kind = .snapshot r va → (s.ctl r).st ∈ [.running, .frozen] → (s.ctl r).power = 0 → settledForSave s r = true →
      let w := saveArea r (s.ctl r) s.fclock s.fresh
      storeBytes (regionSync (s.useFresh 1) r) x va w.1.length w.1 = .ok none s1 →
      exec (.snapshotComplete k) s = .next (finishOp (saveRegion s1 r w.2) o 1) ∧ ((saveRegion s1 r w.2).ctl r).st = .saved) ∧
    (o.kind = .strm r code h ph out →
      (∀ v, o.fail = some v ∧ (s.ctl r).killing = none ∨ v = 1 ∧ o.fail = none ∧ strmTurn s o r code = true ∧ roundUnits h ≤ o.unit →
        (out = true → exec (.strmComplete k) s = .next (finishOp s o v)) ∧
        (out = false → regionSyncHeld s r = false → exec (.strmComplete k) s = .next (finishOp (regionSync s r) o v)) ∧
        (out = false → regionSyncHeld s r = true → exec (.strmComplete k) s = .next s)) ∧
      (strmTurn s o r code = true → o.unit < roundUnits h → (s.ctl r).cfg = some g →
        (out = false → exec (.streamRoundAccess ⟨k, par⟩) s = streamIn s o r g code h par) ∧
        (out = true → o.buf = [] → exec (.streamRoundAccess ⟨k, par⟩) s = .next (streamTake s o r g code h)) ∧
        (out = true → o.buf ≠ [] → exec (.streamRoundAccess ⟨k, par⟩) s = streamOut s o r code h))) ∧
    (o.kind = .sbar r → o.fail = none → (s.ops.takeWhile (·.id != k)).any (fun y => streamRegion y.kind == some r) = false →
      storesOut (s.fab r) = false → (s.ctl r).st = .running → regionSyncHeld s r = false →
      exec (.sbarComplete k) s =
        .next (finishOp ((regionSync s r).updCtl r fun c => { c with phase := c.phase + 1 }) o 1))

/-- A unit of a stream round: an inward unit is loaded and, when it is the last of its token, the boundary tile checks the token's
parity and it is delivered, in the order of the tile's sources (R21, R35, R347); an outward one is stored, and the token is gone with its
last, both at the address of the shape record's walk (R75, R76, R176); a block of ZB elements has its scale byte beside it (R274). That a round goes on unit by unit, in turns of its own, and that a token is delivered in the very
step that loads its last unit is the model's choice (log 46), and so is the wait of one that would come out of order (log 84). -/
def Obligations.StreamUnitsMoveBytes : Prop :=
  ∀ (s s1 s2 s3 : State) (o : Op) (r : RegionId) (g : Cfg) (code : Word) (h : ShapeRec) (bs sc : List Byte) (par : Flips),
    let x := hubCtx o.part o.lvl
    let va := unitVa h o.unit
    let q := if h.fmt = 0x0F then 16 else 8
    -- the unit's bytes, and with the first unit of a block of q, under ZB pairing, the block's scale byte
    let scales : Prop := h.zbp = true ∧ o.unit % q = 0
    let loads : Prop := ∃ s0, loadBytes s x va (unitBytes h.fmt) = .ok bs s0 ∧
      (scales → loadBytes s0 x (h.scaleAddr va) 1 = .ok sc s1) ∧ (¬scales → sc = [] ∧ s1 = s0)
    let stores : Prop := ∃ s0, storeBytes s x va (unitBytes h.fmt)
        ((o.buf.drop (o.unit % unitsPer h.fmt * unitBytes h.fmt)).take (unitBytes h.fmt)) = .ok none s0 ∧
      (scales → storeBytes s0 x (h.scaleAddr va) 1 [o.sbuf.getD (o.unit % unitsPer h.fmt / q) 0] = .ok none s1) ∧ (¬scales → s1 = s0)
    (loads → o.unit + 1 ≠ nextTokUnit h o.unit →
      streamIn s o r g code h par =
        .next (putOp (touch s1 r) { o with unit := o.unit + 1, buf := o.buf ++ bs, sbuf := o.sbuf ++ sc })) ∧
    (loads → o.unit + 1 = nextTokUnit h o.unit →
      let t := streamTok g code kDATA (h.fmt.setWidth 5) (BitVec.ofNat 7 ((fmtP (h.fmt.setWidth 5)).getD 0)) true
        (BitVec.ofNat 64 (bytesNat (o.sbuf ++ sc))) (BitVec.ofNat 512 (bytesNat (o.buf ++ bs)))
      let check := checkParity (touch s1 r) r (boundaryTile g code).1 (boundaryTile g code).2 t par
      let next (z : State) : Prop := streamIn s o r g code h par = .next (putOp z { o with unit := o.unit + 1, buf := [], sbuf := [] })
      (outOfTurn s r t (portSrc g code) = true → streamIn s o r g code h par = .next s) ∧
      (outOfTurn s r t (portSrc g code) = false → check = (none, s2) → next s2) ∧
      (∀ u, outOfTurn s r t (portSrc g code) = false → check = (some u, s2) →
        arriveTok (noteDel s2 r u (portSrc g code)) r u par.store = some s3 → next s3)) ∧
    -- the last outward unit of a token leaves nothing of it
    (stores → o.unit + 1 ≠ nextTokUnit h o.unit →
      streamOut s o r code h = .next (touch (putOp s1 { o with unit := o.unit + 1 }) r)) ∧
    (stores → o.unit + 1 = nextTokUnit h o.unit →
      streamOut s o r code h = .next (touch (putOp s1 { o with unit := o.unit + 1, buf := [], sbuf := [] }) r)) ∧
    (unitsPer h.fmt = 1 → o.unit < roundUnits h → o.unit + 1 = nextTokUnit h o.unit) ∧
    (∀ m : Int, h.zbp = true → (va - h.base).toInt = m * (q : Int) → h.scaleAddr va = h.base + h.s3 + BitVec.ofInt 64 m) ∧
    (h.e0 ≠ 0 → ∀ j, unitVa { h with ndim := 1 } j = h.base + BitVec.ofNat 64 (j % h.e0.toNat) * h.s0)

/-- The engines' operations complete with 1 when they have moved their bytes, and with the cause of a fault where they meet one:
COPY leaves the source's bytes at the destination, CMPCT the selected elements, PUBLISH flips its view's selector, MIGRATE moves
its page, COLL sends its buffer to the next member of its ring, takes those of the others in and sends them on, and stores its result
once they are all there (R93, R97, R164, R179 to R184, R407). The model's choices: a COPY that faults leaves a prefix of its destination
written (log 28), the order of a collective's reduction (log 29), how a group's ring is found and how its buffers travel (log 87), and
that PUBLISH moves the scatters translated before to the copy it hides (log 60). -/
def Obligations.EngineOperationsComplete : Prop :=
  ∀ (s s1 s2 s3 s4 : State) (k : Nat) (o : Op) (dst src len desc va frame group : Word) (old at_ n w : Nat)
    (bs peer gb eb db own : List Byte) (c : BitVec 8) (tv : Word) (l : Leaf), s.Under k o →
    let x := hubCtx o.part o.lvl
    let root := (s.part o.part).ptroot
    let d := parseLadle bs
    let counts := (List.range d.num).map fun i => leAt gb (4 * i) 4
    let parts := if d.mode = 0 then ladlePrefixes d counts else ladleSelect d gb
    (o.kind = .copy dst src len →
      (loadBytes s x src len.toNat = .ok bs s1 → storeBytes s1 (shadowCtx o) dst bs.length bs = .ok none s2 →
        exec (.copyComplete k) s = .next (finishOp s2 o 1)) ∧
      (loadBytes s x src len.toNat = .ok bs s1 → storeBytes s1 (shadowCtx o) dst bs.length bs = .ok (some (c, tv)) s2 →
        exec (.copyComplete k) s = .next (finishOp s2 o (failWord c))) ∧
      (loadBytes s x src len.toNat = .trap c tv → exec (.copyComplete k) s = .next (finishOp s o (failWord c)))) ∧
    (o.kind = .cmpct desc → loadBytes s x desc 64 = .ok bs s1 → ladleBad bs = false →
      (d.mode = 1 → d.aux = 0 → loadBytes s1 x (BitVec.ofNat 64 d.src) d.srcN = .ok own s2 →
        ladleMeets d (ladleNonzero d own).length = false →
        exec (.cmpctComplete k) s = ladleWrite s2 o desc d [] (ladleNonzero d own)) ∧
      (d.mode = 0 ∨ d.aux ≠ 0 → loadBytes s1 x (BitVec.ofNat 64 d.aux) d.auxN = .ok gb s2 →
        (d.mode = 0 → ∀ c ∈ counts, c ≤ d.cap) → ladleMeets d ((parts.map (·.2)).sum * d.es) = false →
        loadParts s2 x d parts = .ok own s3 → exec (.cmpctComplete k) s = ladleWrite s3 o desc d counts own)) ∧
    (∀ offs, offs = (if d.mode = 0 then (runningSums 0 counts).flatMap fun c => natBytes 4 c else []) →
      storeBytes s (shadowCtx o) (BitVec.ofNat 64 d.dst) own.length own = .ok none s1 →
      storeBytes s1 (shadowCtx o) (BitVec.ofNat 64 d.offs) offs.length offs = .ok none s2 →
      storeBytes s2 (shadowCtx o) (desc + 48) 8 (natBytes 8 (own.length / d.es)) = .ok none s3 →
      ladleWrite s o desc d counts own = .next (finishOp s3 o 1)) ∧
    (o.kind = .publish va → viewLook s o va = .ok (some (n, at_)) s1 →
      ((s1.ops.takeWhile (·.id != k)).any fun y => y.part == o.part && transfersInto s1 va.toNat (65536 * n) y) = false →
      vaBusy s1 o.part false va.toNat (65536 * n) = false → homeCheck s1 x (at_ + 8) 8 va false = .ok () s2 →
      let pte := readPte s2 (at_ + 8)
      exec (.publishFlip k) s = .next (finishOp (switchView
        (s2.updMs (tableWrite o.part (at_ + 8) (pte ^^^ 0x10000) s2.fclock)) o.part va.toNat (65536 * n) (pte.getLsbD 16)) o 1)) ∧
    (o.kind = .migrate va frame old true → copyHeld s x old frame.toNat = false →
      tableCheck s x va (walkReads s root va) = .ok () s1 → walk s1 root va = .ok l →
      framesCause s1 old frame.toNat = none → lineFault s1 x (linesOf old 65536) = none →
      let keep := ((s1.ms.migrations.find? (·.op == o.id)).map (·.wrote)).getD []
      let t := copyPage (closeWindow s1 o) o.part old frame.toNat keep
      exec (.migrationSwitch k) s = .next (finishOp (switchPage (t.updMs
        (tableWrite o.part l.at_ ((l.pte &&& 0xFFFF00000000FFFF) ||| BitVec.ofNat 64 frame.toNat) t.fclock)) o.part old
        frame.toNat) o 1)) ∧
    (o.kind = .coll group desc → loadBytes s x group 16 = .ok gb s1 → loadBytes s1 x (group + 16) (4 * leAt gb 0 4) = .ok eb s2 →
      loadBytes s2 x desc 64 = .ok db s3 → collBad s3 gb eb db = false →
      let d := parseColl db
      exec (.collComplete k peer .broken) s = .next (finishOp s3 o (failWord cILLEGAL)) ∧
      (ringWin s3 o.part gb eb 1 = none → ∀ news, exec (.collComplete k peer news) s = .next (finishOp s3 o (failWord cILLEGAL))) ∧
      (ringWin s3 o.part gb eb 1 = some w → (s3.peerLink w).down = false →
        ((ringFrom s3 o.part gb eb).any fun l => (s3.ms.net.link l).authFail.contains (o.part, .coll)) = false →
        exec (.collComplete k peer .flows) s = collMove s3 o d gb eb peer w)) ∧
    (let d := parseColl db
      let nn := leAt gb 0 4
      let rank := leAt gb 4 4
      let ln := d.srcN nn * d.es
      ((o.unit = 0 ∧ loadBytes s x (BitVec.ofNat 64 d.src) ln = .ok own s1 ∧ s2 = s1.updMs (ringSend o.part w own)) ∨
        (o.unit = 1 ∧ own = o.sbuf ∧ s2 = s)) →
      let y := s2.ports.flitsIn.foldl (ringTake o.part (ringFrom s2 o.part gb eb) nn ln) ⟨o.buf, [], []⟩
      let s3 := (s2.updMs (ringSend o.part w y.onward)).updPorts fun h => { h with flitsIn := y.rest }
      let o' := { o with unit := 1, sbuf := own, buf := y.had }
      let members := ringMembers nn rank ln own y.had
      let res := collResult d members rank s3.fresh
      (y.had.length < (nn - 1) * ln → collMove s o d gb eb peer w = .next (putOp s3 o')) ∧
      (¬ y.had.length < (nn - 1) * ln → peer = (members.eraseIdx rank).flatten →
        storeBytes (s3.useFresh d.count) (shadowCtx o') (BitVec.ofNat 64 d.dst) res.length res = .ok none s4 →
        collMove s o d gb eb peer w = .next (finishOp s4 o' 1)))

/-- SETTLE completes with the number of eligible instantiations once the network has settled; SELECT forms the batch of the rule of
admission in the serial order and writes its records; a delta that has settled is forgotten; a delivery of the network makes or
removes an instantiation; an admission round runs when it is asked for (R188, R189, R310, R318, R323 to R327, R367). That RMCOUNT
stays at a SETTLE that fails, and that a creation number is used up only when an instantiation is made, are the model's choices (log
50). -/
def Obligations.RuleOperationsComplete : Prop :=
  ∀ (s s1 : State) (k : Nat) (o : Op) (buf limit : Word) (p : PartId) (n : BitVec 16) (dl : Delta) (dv : Delivery) (d : DieId),
    let q := s.rules o.part
    let num := (eligible q).length
    (s.Under k o → o.kind = .settle → settled s o.part = true → q.overflow = false → q.scoreTimeout = false →
      exec (.settleComplete k) s = .next (finishOp (s.updRules o.part fun q => { q with rmcount := BitVec.ofNat 64 num }) o
        (BitVec.ofNat 64 (min num 0xFF)))) ∧
    (s.Under k o → o.kind = .settle → settled s o.part = true → q.overflow = true →
      exec (.settleComplete k) s = .next (finishOp (s.updRules o.part fun _ => q) o 0x190)) ∧
    (s.Under k o → o.kind = .select buf limit → q.batch = none → settled s o.part = true → q.overflow = false →
      q.scoreTimeout = false →
      let b := takeBatch limit.toNat (sortBy sigmaBefore (eligible q)) [] []
      let bs := b.flatMap (instRecord · q.nextBatch)
      (b = [] → exec (.selectBatch k) s = .next (finishOp s o 0)) ∧
      (b ≠ [] → storeBytes s (hubCtx o.part o.lvl) buf bs.length bs = .ok none s1 →
        exec (.selectBatch k) s = .next (finishOp (s1.updRules o.part fun q => { q with
          batch := some q.nextBatch, nextBatch := q.nextBatch + 1
          insts := q.insts.map fun i => if (b.map (·.create)).contains i.create then { i with batch := some q.nextBatch } else i })
          o (BitVec.ofNat 64 b.length)))) ∧
    ((s.rules p).unsettled.find? (·.n = n) = some dl → deltaDone s p n = true → dl.neg = false →
      exec (.deltaSettled p n) s = .next (s.updRules p fun q => { q with unsettled := q.unsettled.filter (·.n != n) })) ∧
    ((s.rules p).deliveries.find? (·.id = k) = some dv → ((s.rules p).deliveries.find? (·.node = dv.node)).map (·.id) = some k →
      let tts := (List.range 8).map fun i => (dv.lanes.getD i 0).extractLsb' 0 40
      let l7 := dv.lanes.getD 7 0
      let s2 := s.updRules p fun q => { q with deliveries := q.deliveries.filter (·.id != k) }
      (l7.getLsbD 63 = true → exec (.csuDelivery p k) s = .next (s2.updRules p fun q =>
        { q with insts := q.insts.filter fun i => !(i.rule == dRule dv.desc && i.tts == tts) })) ∧
      (l7.getLsbD 63 = false → csuRoom s2 p = false →
        exec (.csuDelivery p k) s = .next (s2.updRules p fun q => { q with overflow := true })) ∧
      (l7.getLsbD 63 = false → csuRoom s2 p = true → (dv.desc.headD 0).getLsbD 39 = false →
        exec (.csuDelivery p k) s = .next (s2.updRules p fun q => { q with
          creation := q.creation + 1
          insts := q.insts ++ [⟨q.creation, dRule dv.desc, tts, (dv.desc.headD 0).extractLsb' 16 16, dv.stamp, dv.desc, none⟩] }))) ∧
    ((s.die d).round = false → exec (.tundishAdmissionRound d) s = .next s) ∧
    ((s.die d).round = true →
      exec (.tundishAdmissionRound d) s =
        .next (roundGo d (s.updDie d fun x => { x with round := false }) [] (roundBids s d)))

/-- A floating-point vector node computes lane by lane on its operands' values, rounds once to nearest even, and sends one token
whose tag is its lanes' least (R64, R204, R205, R207). The last five rows rest on the model's series, log 15. -/
def Obligations.FloatVectorNodesComputeLaneByLane : Prop :=
  ∀ (s : State) (nf : NodeFields) (a b c : Token), s.CanStart →
    let F := (fmtFloat nf.fmt).getD fp32
    let v (t : Token) (i : Nat) : FVal := decodeF F (t.lane F.width i)
    let g (t : Token) : Nat := min t.sig.toNat F.p
    let val (e : Exact) : FVal := (rneF F e).2
    let gives (i : Instr) (opc : BitVec 8) (lane : Nat → Nat × Nat) : Prop :=
      let x := firingAt s opc nf
      let t := x.fpResult nf.fmt ((List.range (laneCount nf.fmt)).map lane)
      s.NoSigLowNode x t → exec i s = .next (s.fired s opc nf (tokPorts nf) [both t])
    let rounds (i : Instr) (opc : BitVec 8) (e : Nat → Exact) (tag : Nat → FVal → Nat) : Prop :=
      gives i opc fun k => ((rneF F (e k)).1, tag k (val (e k)))
    let plain (opc : BitVec 8) (a b c : Option Token) : Prop :=
      (firingAt s opc nf).Plain (fun _ t => isData t nf.fmt) ∧
        (firingAt s opc nf).a = a ∧ (firingAt s opc nf).b = b ∧ (firingAt s opc nf).c = c
    (plain 0x00 (some a) (some b) none → rounds (.vadd nf) 0x00 (fun k => addF .rne (v a k) (v b k))
      fun k => sumTag F (v a k) (v b k) (g a) (g b) (addF .rne (v a k) (v b k))) ∧
    (plain 0x01 (some a) (some b) none → rounds (.vsub nf) 0x01 (fun k => addF .rne (v a k) (v b k).negate)
      fun k => sumTag F (v a k) (v b k) (g a) (g b) (addF .rne (v a k) (v b k).negate)) ∧
    (plain 0x02 (some a) (some b) none → rounds (.vmul nf) 0x02 (fun k => mulF (v a k) (v b k))
      fun k => prodTag F (v a k) (v b k) (g a) (g b) false (mulF (v a k) (v b k))) ∧
    (plain 0x03 (some a) (some b) (some c) → rounds (.vfma nf) 0x03 (fun k => fmaF .rne (v a k) (v b k) (v c k))
      fun k => fmaTag F (v a k) (v b k) (v c k) (g a) (g b) (g c) (fmaF .rne (v a k) (v b k) (v c k))) ∧
    (plain 0x04 (some a) (some b) none → gives (.vmin nf) 0x04 fun k => match minMax false (v a k) (v b k) with
      | none => (canonNaN F, 0)
      | some true => (encV F (v a k), finalTag F (v a k) true (g a))
      | some false => (encV F (v b k), finalTag F (v b k) true (g b))) ∧
    (plain 0x05 (some a) (some b) none → gives (.vmax nf) 0x05 fun k => match minMax true (v a k) (v b k) with
      | none => (canonNaN F, 0)
      | some true => (encV F (v a k), finalTag F (v a k) true (g a))
      | some false => (encV F (v b k), finalTag F (v b k) true (g b))) ∧
    (plain 0x06 (some a) none none → gives (.vabs nf) 0x06 fun k =>
      let z := if (v a k).neg then (v a k).negate else v a k
      (encV F z, finalTag F z true (g a))) ∧
    (plain 0x07 (some a) none none → gives (.vneg nf) 0x07 fun k =>
      (encV F (v a k).negate, finalTag F (v a k).negate true (g a))) ∧
    (plain 0x08 (some a) (some b) none → rounds (.vdiv nf) 0x08 (fun k => divF (F.p + 3) (v a k) (v b k))
      fun k => prodTag F (v a k) (v b k) (g a) (g b) true (divF (F.p + 3) (v a k) (v b k))) ∧
    (plain 0x09 (some a) none none → rounds (.vsqrt nf) 0x09 (fun k => sqrtF (F.p + 3) (v a k))
      fun k => sqrtTag F (v a k) (g a)) ∧
    (plain 0x0A (some a) none none → rounds (.vrsq nf) 0x0A (fun k => rsqrtF (F.p + 3) (v a k))
      fun k => unaryTag F (v a k) (g a) (rsqrtF (F.p + 3) (v a k))) ∧
    (plain 0x0B (some a) none none → rounds (.vrcp nf) 0x0B (fun k => divF (F.p + 3) (.num false 1 0) (v a k))
      fun k => unaryTag F (v a k) (g a) (divF (F.p + 3) (.num false 1 0) (v a k))) ∧
    (plain 0x0C (some a) none none → rounds (.vexp2 nf) 0x0C (fun k => exp2F (v a k))
      fun k => unaryTag F (v a k) (g a) (exp2F (v a k))) ∧
    (plain 0x0D (some a) none none → rounds (.vlog2 nf) 0x0D (fun k => log2F (v a k))
      fun k => unaryTag F (v a k) (g a) (log2F (v a k))) ∧
    (plain 0x0E (some a) none none → rounds (.vtanh nf) 0x0E (fun k => tanhF (v a k))
      fun k => unaryTag F (v a k) (g a) (tanhF (v a k)))

/-- An integer node computes lane by lane modulo 2^w, or saturated where its variant says so; bitwise nodes act on all bits; an
INDEX operand gives an INDEX result; VCMP gives all-ones lanes and PRED, VSEL selects (R208 to R210). -/
def Obligations.IntegerVectorNodesComputeLaneByLane : Prop :=
  ∀ (s : State) (nf : NodeFields) (a b c : Token), s.CanStart →
    let w := laneBits nf.fmt
    let sg := isSigned nf.fmt
    let num (x : Nat) : Int := if sg && 2 ^ (w - 1) ≤ x then (x : Int) - 2 ^ w else x
    let wrap (z : Int) : Nat := (z % 2 ^ w).toNat
    let sat (z : Int) : Nat := wrap (if sg then max (-(2 ^ (w - 1))) (min (2 ^ (w - 1) - 1) z) else max 0 (min (2 ^ w - 1) z))
    let plain (opc : BitVec 8) : Prop := (firingAt s opc nf).Plain (fun _ t => isDataIdx t nf.fmt) ∧
      (firingAt s opc nf).a = some a ∧ (firingAt s opc nf).b = some b
    let gives (i : Instr) (opc : BitVec 8) (lane : Nat → Nat → Nat) : Prop := plain opc →
      let x := firingAt s opc nf
      exec i s = .next (s.fired s opc nf (tokPorts nf) [both (x.keepIndex (x.intResult nf.fmt
        ((List.range (laneCount nf.fmt)).map fun k => lane (a.lane w k) (b.lane w k))))])
    let bits (i : Instr) (opc : BitVec 8) (op : BitVec 512 → BitVec 512 → BitVec 512) (ops : BitVec 64 → BitVec 64 → BitVec 64) :
        Prop := plain opc →
      let x := firingAt s opc nf
      exec i s = .next (s.fired s opc nf (tokPorts nf) [both (x.keepIndex
        { x.result kDATA nf.fmt (min (tokSig a) (tokSig b)) (op a.payload b.payload) with
          scale := if nf.fmt == 0xF || nf.fmt == 0x10 then ops a.scale b.scale else 0 })])
    gives (.viadd nf) 0x10 (fun x y => if nf.var = 1 then sat (num x + num y) else wrap (num x + num y)) ∧
    gives (.visub nf) 0x11 (fun x y => if nf.var = 1 then sat (num x - num y) else wrap (num x - num y)) ∧
    gives (.vimul nf) 0x12 (fun x y => if nf.var = 0 then wrap (num x * num y) else if nf.var = 1 then wrap (num x * num y / 2 ^ w)
      else sat (num x * num y)) ∧
    gives (.vshl nf) 0x16 (fun x y => x * 2 ^ (y % w) % 2 ^ w) ∧
    (nf.var ≠ 1 → gives (.vshr nf) 0x17 (fun x y => x / 2 ^ (y % w))) ∧
    (nf.var = 1 → gives (.vshr nf) 0x17 (fun x y => wrap ((if 2 ^ (w - 1) ≤ x then (x : Int) - 2 ^ w else x) / 2 ^ (y % w)))) ∧
    bits (.vand nf) 0x13 (· &&& ·) (· &&& ·) ∧
    bits (.vor nf) 0x14 (· ||| ·) (· ||| ·) ∧
    bits (.vxor nf) 0x15 (· ^^^ ·) (· ^^^ ·) ∧
    (fmtFloat nf.fmt = none → plain 0x18 →
      let x := firingAt s 0x18 nf
      let hs := (List.range (laneCount nf.fmt)).map fun k => cmpI nf.var (num (a.lane w k)) (num (b.lane w k))
      exec (.vcmp nf) s = .next (s.fired s 0x18 nf (tokPorts nf) [both
        { x.intResult (uFmt nf.fmt) (hs.map fun h => if h then 2 ^ w - 1 else 0) with pred := hs.any id }])) ∧
    (∀ F, fmtFloat nf.fmt = some F → plain 0x18 →
      let x := firingAt s 0x18 nf
      let hs := (List.range (laneCount nf.fmt)).map fun k => cmpF nf.var (decodeF F (a.lane w k)) (decodeF F (b.lane w k))
      exec (.vcmp nf) s = .next (s.fired s 0x18 nf (tokPorts nf) [both
        { x.intResult (uFmt nf.fmt) (hs.map fun h => if h then 2 ^ w - 1 else 0) with pred := hs.any id }])) ∧
    (let x := firingAt s 0x19 nf
     x.Plain (fun i t => if i = 0 then (t.kind == kDATA || t.kind == kINDEX) && intOfWidth t.fmt w else isDataIdx t nf.fmt) →
     x.a = some a → x.b = some b → x.c = some c →
     let sel (k : Nat) : Bool := a.lane w k != 0
     let any := (List.range (laneCount nf.fmt)).any sel
     let all := (List.range (laneCount nf.fmt)).all sel
     exec (.vsel nf) s = .next (s.fired s 0x19 nf (tokPorts nf) [both (x.result kDATA nf.fmt
       (if all then tokSig b else if any then min (tokSig b) (tokSig c) else tokSig c)
       (packLanes w ((List.range (laneCount nf.fmt)).map fun k => if sel k then b.lane w k else c.lane w k)))]))

/-- The reductions, scans and permutes, the butterfly and the significance nodes: what each sends for its operands (R211 to R216,
R223 to R225). -/
def Obligations.ReductionsPermutesAndSignificance : Prop :=
  ∀ (s : State) (nf : NodeFields) (a b : Token), s.CanStart →
    let w := laneBits nf.fmt
    let nn := (nf.imm.extractLsb' 0 7).toNat
    let lanes := laneCount nf.fmt
    let plain (opc : BitVec 8) (ok : BitVec 2 → Token → Bool) : Prop := (firingAt s opc nf).Plain ok ∧ (firingAt s opc nf).a = some a
    let idx : BitVec 2 → Token → Bool := fun _ t => isDataIdx t nf.fmt
    let sends (i : Instr) (opc : BitVec 8) (t : Firing → Token) : Prop :=
      exec i s = .next (s.fired s opc nf (tokPorts nf) [both (t (firingAt s opc nf))])
    let reduces (i : Instr) (opc : BitVec 8) (op : Elt → Elt → Elt) : Prop := plain opc idx →
      let r := narrowElt nf.fmt ((treeRed op 7 ((List.range nn).map (eltOf nf.fmt a))).headD (.int 0))
      let t := (firingAt s opc nf).result kDATA nf.fmt (if (fmtP nf.fmt).isSome then r.2 else 0)
        (packLanes w (if nf.var = 1 then List.replicate lanes r.1 else [r.1]))
      s.NoSigLowNode (firingAt s opc nf) t → sends i opc fun _ => t
    reduces (.vrsum nf) 0x20 addElt ∧ reduces (.vrmax nf) 0x21 (mmElt true) ∧ reduces (.vrmin nf) 0x22 (mmElt false) ∧
    (plain 0x23 idx → nf.var = 0 → sends (.vargmx nf) 0x23 fun x => x.intResult 7 [((argMax nf.fmt a nn).map (·.1)).getD 0]) ∧
    (∀ m, plain 0x23 idx → nf.var ≠ 0 → argMax nf.fmt a nn = some m →
      sends (.vargmx nf) 0x23 fun x => x.result kDATA nf.fmt (tokSig a) (packLanes w (List.replicate lanes (a.lane w m.1)))) ∧
    (plain 0x23 idx → nf.var ≠ 0 → argMax nf.fmt a nn = none →
      sends (.vargmx nf) 0x23 fun x => x.result kDATA nf.fmt 0
        (packLanes w (List.replicate lanes (canonNaN ((fmtFloat nf.fmt).getD fp32))))) ∧
    (plain 0x24 idx →
      let x := firingAt s 0x24 nf
      let zero : Elt := if (fmtFloat nf.fmt).isSome then .fp (.num false 0 0) 24 else .int 0
      let carry := match x.b with
        | some b => some (eltOf nf.fmt b 0)
        | none => if nf.var = 0 ∨ nf.var = 1 then some zero else none
      let op := if nf.var = 0 ∨ nf.var = 1 then addElt else mmElt (nf.var == 2)
      let rs := (scanLanes op (nf.var == 1) carry ((List.range lanes).map (eltOf nf.fmt a))).map (narrowElt nf.fmt)
      let t := if (fmtP nf.fmt).isSome then x.fpResult nf.fmt rs else x.intResult nf.fmt (rs.map (·.1))
      s.NoSigLowNode x t → sends (.vscan nf) 0x24 fun _ => t) ∧
    (let wide := nf.imm.getLsbD 4
     let m := if wide then 32 else 64
     let j := (nf.imm.extractLsb' 0 4).toNat
     let i (k : Nat) : Nat := b.lane (if wide then 16 else 8) k
     let inside := ∀ k < m, j * m + k < lanes → i k < lanes
     plain 0x25 (fun i t => if i = 0 then isDataIdx t nf.fmt else isDataIdx t (if wide then 6 else 5)) →
       (firingAt s 0x25 nf).b = some b →
       (nf.var ≠ 1 ∨ inside → sends (.vperm nf) 0x25 fun x =>
         { x.result kDATA nf.fmt (tokSig a) (packLanes w ((List.range lanes).map fun k =>
             if j * m ≤ k ∧ k < j * m + m ∧ i (k - j * m) < lanes then a.lane w (i (k - j * m)) else 0)) with
           scale := if nf.fmt == 0xF || nf.fmt == 0x10 then a.scale else 0 }) ∧
       (nf.var = 1 → ¬inside →
         let x := firingAt s 0x25 nf
         exec (.vperm nf) s = .next (s.fired (noteFault s x.n 0x83 x.info) 0x25 nf (tokPorts nf) [both (x.error 0x83)]))) ∧
    (plain 0x26 idx → sends (.vbcast nf) 0x26 fun x =>
      x.result kDATA nf.fmt (tokSig a) (packLanes w (List.replicate lanes (a.lane w nn)))) ∧
    (plain 0x27 idx →
      (nf.var = 0 → sends (.vpopc nf) 0x27 fun x => x.intResult 7 [a.lanes.countP (laneNonzero nf.fmt)]) ∧
      (nf.var = 1 → sends (.vpopc nf) 0x27 fun x => x.intResult 0x11 (a.lanes.map fun v => if laneNonzero nf.fmt v then 1 else 0)) ∧
      (nf.var ≠ 0 → nf.var ≠ 1 → sends (.vpopc nf) 0x27 fun x => x.intResult nf.fmt (a.lanes.map (bitCount w)))) ∧
    (plain 0x34 (fun _ t => isData t 0xA) →
      let st := (nf.imm.extractLsb' 0 3).toNat
      let d := 2 ^ st
      let near := (firingAt s 0x34 nf).fpResult 0xA ((List.range 16).map fun i =>
        if i / d % 2 = 0 then bflyLane false (fpLane fp32 a i) (fpLane fp32 a (i + d))
        else bflyLane true (fpLane fp32 a (i - d)) (fpLane fp32 a i))
      let far := (firingAt s 0x34 nf).fpResult 0xA ((List.range 16).map fun i =>
        bflyLane (nf.var == 1) (fpLane fp32 a i) (fpLane fp32 b i))
      (st ≠ 4 → s.NoSigLowNode (firingAt s 0x34 nf) near → sends (.bfly nf) 0x34 fun _ => near) ∧
      (st = 4 → (firingAt s 0x34 nf).b = some b → s.NoSigLowNode (firingAt s 0x34 nf) far → sends (.bfly nf) 0x34 fun _ => far)) ∧
    (plain 0x35 (fun i t => if i = 0 then isData t nf.fmt else isDataIdx t 5) →
      let p := (fmtP nf.fmt).getD 0
      let v := if portKind nf 1 = 1 then nn else b.lane 8 0
      (nf.var = 0 → sends (.vsig nf) 0x35 fun x => x.intResult 5 [tokSig a]) ∧
      (nf.var = 1 → (firingAt s 0x35 nf).b = some b →
        sends (.vsig nf) 0x35 fun x => { x.retag a with sig := BitVec.ofNat 7 (min v p) }) ∧
      (nf.var ≠ 0 → nf.var ≠ 1 → (firingAt s 0x35 nf).b = some b →
        sends (.vsig nf) 0x35 fun x => { x.retag a with sig := BitVec.ofNat 7 (min (min a.sig.toNat v) p) })) ∧
    (plain 0x36 (fun _ t => isData t nf.fmt) →
      let high := decide (nn ≤ tokSig a)
      (nf.var = 0 → sends (.sigchk nf) 0x36 fun x => { x.retag a with pred := high }) ∧
      (nf.var ≠ 0 → high = true → sends (.sigchk nf) 0x36 fun x => x.retag a) ∧
      (nf.var ≠ 0 → high = false → exec (.sigchk nf) s =
        .next (parkFiring s (firingAt s 0x36 nf) 0x40 (firingAt s 0x36 nf).info (some a))))

/-- The conversion nodes: VCVT and DQ convert the elements that PART selects, to nearest even; QZ collects the tokens of a group and
sends one block-format token; CV8 scales, rounds and steps the converter's LFSR where its variant is stochastic (R53, R217 to
R221). The model's choices: DQ, and VCVT from a block format, give each lane the two steps of R63 and take the least (log 90), and QZ
tests SIGLOW on its completing firing alone (log 89). -/
def Obligations.ConversionNodesConvertTheirElements : Prop :=
  ∀ (s : State) (nf : NodeFields) (a : Token), s.CanStart →
    let src := cvSrc nf
    let plain (opc : BitVec 8) (ok : BitVec 2 → Token → Bool) : Prop := (firingAt s opc nf).Plain ok ∧ (firingAt s opc nf).a = some a
    let idx : BitVec 2 → Token → Bool := fun _ t => isDataIdx t src
    let data : BitVec 2 → Token → Bool := fun _ t => isData t src
    let sends (i : Instr) (opc : BitVec 8) (t : Token) : Prop :=
      s.NoSigLowNode (firingAt s opc nf) t → exec i s = .next (s.fired s opc nf (tokPorts nf) [both t])
    (isZB src = false → isZB nf.fmt = false →
      (plain 0x30 idx → sends (.vcvt nf) 0x30 (cvResult (firingAt s 0x30 nf) (cvElem src nf.fmt a)))) ∧
    (isZB src = false → isZB nf.fmt = true → plain 0x30 idx →
      let zb8 := nf.fmt == 0xF
      let vs := (List.range (laneCount src)).map fun i => (fpLane ((fmtFloat src).getD fp16) a i).1
      let b := quantBlock zb8 none none vs
      -- an element that is NaN or infinite, or one not zero that becomes zero, leaves no significance
      let lost := (vs.zip b.2.2).any fun p => match p.1 with
        | .num _ m _ => m != 0 && p.2 % 2 ^ (if zb8 then 6 else 2) == 0
        | .inf _ | .nan _ => true
      sends (.vcvt nf) 0x30 (zbToken (firingAt s 0x30 nf) zb8 (cvPart nf)
        (if lost then 0 else min (tokSig a) (if zb8 then 6 else 2)) [b])) ∧
    -- from a block format, by either node
    (isZB src = true → plain 0x30 idx →
      sends (.vcvt nf) 0x30 (cvResult (firingAt s 0x30 nf) (dqElem (src == 0xF) nf.fmt a))) ∧
    (isZB src = true → plain 0x32 idx →
      sends (.dq nf) 0x32 (cvResult (firingAt s 0x32 nf) (dqElem (src == 0xF) nf.fmt a))) ∧
    (let x := firingAt s 0x31 nf
     let y := s.node x.n
     let per := laneCount nf.fmt / laneCount src
     let keep (toks : List Token) : State := s.updNode x.n fun y => { y with groups := y.groups.map fun h =>
       if h.ctx == x.n.ctx && h.iter == x.n.iter then { h with toks := toks } else h }
     let gone : State := s.updNode x.n fun y =>
       { y with groups := y.groups.filter fun g => !(g.ctx == x.n.ctx && g.iter == x.n.iter) }
     let left : State := if nf.var.toNat % 2 = 1 then
       setLfsr gone x.n (lfsrSteps (laneCount nf.fmt) (lfsrAt (gone.fab x.n.r) x.n)) else gone
     (∀ g, plain 0x31 data → qzGroup y x.n = some g → g.toks.length + 1 ≠ per →
       exec (.qz nf) s = .next (s.fired (keep (g.toks ++ [a])) 0x31 nf (tokPorts nf) [])) ∧
     (plain 0x31 data → qzGroup y x.n = none → y.groups.length < 4 →
       exec (.qz nf) s = .next (s.fired (s.updNode x.n fun y =>
         { y with groups := y.groups ++ [⟨x.n.ctx, x.n.iter, [a]⟩] }) 0x31 nf (tokPorts nf) [])) ∧
     (∀ g, plain 0x31 data → qzGroup y x.n = some g → g.toks.length + 1 = per → s.NoSigLowNode x (qzToken s x (g.toks ++ [a])) →
       exec (.qz nf) s = .next (s.fired left 0x31 nf (tokPorts nf) [both (qzToken s x (g.toks ++ [a]))])) ∧
     (∀ g, x.a = some a → a.kind = kSTOP → qzGroup y x.n = some g → s.NoSigLowNode x (qzToken s x g.toks) →
       exec (.qz nf) s = .next (s.fired left 0x31 nf (tokPorts nf) [both (qzToken s x g.toks)]))) ∧
    (plain 0x33 data →
      let x := firingAt s 0x33 nf
      let F := (fmtFloat src).getD fp32
      let G := (fmtFloat nf.fmt).getD fp32
      let l := lfsrAt (s.fab x.n.r) x.n
      let t := cvResult x fun i =>
        let v := scaleVal (fpLane F a i).1 (cvK nf)
        let k := if laneCount src ≤ laneCount nf.fmt then i else i - cvPart nf * laneCount nf.fmt
        let r := if isFPV nf.fmt then (rneF G (exactOf v)).1 else cv8Round G nf.var.toNat (lfsrR (lfsrSteps (k + 1) l)) v
        (r, cvtTag F G (min a.sig.toNat F.p) (isZeroV v) (decodeF G r))
      s.NoSigLowNode x t → exec (.cv8 nf) s = .next (s.fired
        (if nf.var.toNat % 2 = 1 then setLfsr s x.n (lfsrSteps (min (laneCount src) (laneCount nf.fmt)) l) else s)
        0x33 nf (tokPorts nf) [both t])) ∧
    (∀ opc, opc = 0x31 ∧ (qzGroup (s.node s.site) s.site ≠ none ∨ (s.node s.site).groups.length < 4) ∨ opc = 0x33 →
      a.kind = kPARAM → a.fmt = 7 → (firingAt s opc nf).Plain (fun _ _ => true) → (firingAt s opc nf).a = some a →
      let t := s.fired (setLfsr s s.site (seedOf (a.payload.extractLsb' 0 32))) opc nf (tokPorts nf) []
      (opc = 0x31 → exec (.qz nf) s = .next t) ∧ (opc = 0x33 → exec (.cv8 nf) s = .next t))

/-- The special kinds in a data node: an ERROR leaves again, before any other rule; then a BUBBLE, or a predicate that suppresses
the firing, gives a BUBBLE; STOPs on every port give one STOP of the highest level; a STOP beside other tokens is FMT_BAD, and the
activation goes on (R203, R242, R243). -/
def Obligations.SpecialKindsPassThroughNodes : Prop :=
  ∀ (s : State) (nf : NodeFields), s.CanStart → ∀ p : Instr × BitVec 8, p ∈ ([
      (.vadd nf, 0x00), (.vsub nf, 0x01), (.vmul nf, 0x02), (.vfma nf, 0x03), (.vmin nf, 0x04), (.vmax nf, 0x05), (.vabs nf, 0x06),
      (.vneg nf, 0x07), (.vdiv nf, 0x08), (.vsqrt nf, 0x09), (.vrsq nf, 0x0A), (.vrcp nf, 0x0B), (.vexp2 nf, 0x0C),
      (.vlog2 nf, 0x0D), (.vtanh nf, 0x0E), (.viadd nf, 0x10), (.visub nf, 0x11), (.vimul nf, 0x12), (.vand nf, 0x13),
      (.vor nf, 0x14), (.vxor nf, 0x15), (.vshl nf, 0x16), (.vshr nf, 0x17)] : List (Instr × BitVec 8)) →
    let x := firingAt s p.2 nf
    let abc := ((tokPorts nf).filter (· != 3)).filterMap x.port
    let suppressed := nf.flags.getLsbD 1 = true ∧ ∃ t, x.p = some t ∧ (t.kind = kBUBBLE ∨ t.pred = false)
    let free := ∀ t ∈ x.toks, t.kind ≠ kERROR
    let sends (t : Token) : Prop := exec p.1 s = .next (s.fired s p.2 nf (tokPorts nf) [both t])
    x.ready = true →
      (∀ e, x.toks.find? (·.kind == kERROR) = some e → sends (x.retag e)) ∧
      (free → (∃ t ∈ abc, t.kind = kBUBBLE) ∨ suppressed → sends (x.bubble nf.fmt)) ∧
      (free → ¬suppressed → abc ≠ [] → (∀ t ∈ abc, t.kind = kSTOP) →
        sends (x.stop nf.fmt (BitVec.ofNat 2 ((abc.map fun t => (stopLevel t).toNat).foldl max 0)))) ∧
      (free → ¬suppressed → (∀ t ∈ abc, t.kind ≠ kBUBBLE) → (∃ t ∈ abc, t.kind = kSTOP) → (∃ t ∈ abc, t.kind ≠ kSTOP) →
        exec p.1 s = .next (s.fired (noteFault s x.n 0x87 x.info) p.2 nf (tokPorts nf) [both (x.error 0x87)]))

/-- What the nodes that steer, select, copy, delay, count and make tokens send for the tokens they take (R246 to R249, R253, R257 to
R262). The SEQ of an untriggered CONST is open, log 22. -/
def Obligations.FlowNodesSendTheirTokens : Prop :=
  ∀ (s : State) (nf : NodeFields) (a b c : Token), s.CanStart →
    let n := s.site
    let all := tokPorts nf
    let taken (opc : BitVec 8) : Prop :=
      (firingAt s opc nf).ready = true ∧ (firingAt s opc nf).badFmt = false ∧ (firingAt s opc nf).a = some a
    let sends (i : Instr) (opc : BitVec 8) (rs : List Pair) : Prop := exec i s = .next (s.fired s opc nf all rs)
    let usable (t : Token) : Prop := t.kind ≠ kERROR ∧ t.kind ≠ kBUBBLE
    let fails (i : Instr) (opc cause : BitVec 8) (p : Token → Pair) : Prop :=
      let x := firingAt s opc nf
      exec i s = .next (s.fired (noteFault s n cause x.info) opc nf all [p (x.error cause)])
    let first (opc : BitVec 8) (i : BitVec 2) (t : Token) : Prop :=
      mergePort (firingAt s opc nf) = some i ∧ (firingAt s opc nf).port i = some t ∧ fmtReserved t.fmt = false
    -- STEER: by the predicate of b, or of a alone; a STOP fires without its predicate
    (taken 0x50 → a.kind ≠ kSTOP → nf.arity ≠ 2 ∨ ((firingAt s 0x50 nf).b = some b ∧ usable b) →
      let o := if nf.var = 1 then some a.bubble else none
      sends (.steer nf) 0x50 [if (if nf.arity = 2 then b else a).pred then (some a, o) else (o, some a)]) ∧
    ((firingAt s 0x50 nf).a = some a → a.kind = kSTOP → nf.ka = 0 → fmtReserved a.fmt = false →
      exec (.steer nf) s = .next (s.fired s 0x50 nf [0] [both a])) ∧
    (taken 0x54 → (firingAt s 0x54 nf).b = some b → usable b →
      sends (.next nf) 0x54 [if b.pred then (some a, none) else (none, some a)]) ∧
    (taken 0x61 → (firingAt s 0x61 nf).b = some b → (firingAt s 0x61 nf).c = some c → usable a →
      (a.lane (laneBits a.fmt) 0 = 0 → sends (.selx nf) 0x61 [both b]) ∧
      (a.lane (laneBits a.fmt) 0 = 1 → sends (.selx nf) 0x61 [both c]) ∧
      (2 ≤ a.lane (laneBits a.fmt) 0 → fails (.selx nf) 0x61 0x83 both)) ∧
    -- SWITCH: destination i, or all of them for a STOP
    (taken 0x60 → (firingAt s 0x60 nf).b = some b → usable b →
      let x := firingAt s 0x60 nf
      let cnt := (nf.imm.extractLsb' 0 6).toNat + 1
      let k := b.lane (laneBits b.fmt) 0
      (a.kind ≠ kSTOP → k < cnt →
        exec (.switch nf) s = .next (finishFire s x all [switchDep nf n.row n.col a k] (some a) 0)) ∧
      (a.kind = kSTOP → exec (.switch nf) s =
        .next (finishFire s x all [(List.range cnt).flatMap (switchDep nf n.row n.col a)] (some a) 0)) ∧
      (a.kind ≠ kSTOP → cnt ≤ k → fails (.switch nf) 0x60 0x83 fun t => (none, some t))) ∧
    -- an unordered MERGE: the earlier-arrived head
    (∀ i t, fORD nf = false → first 0x51 i t → exec (.merge nf) s = .next (s.fired s 0x51 nf [i] [both t])) ∧
    (taken 0x5C →
      (nf.var = 1 → a.kind = kSTOP → (stopLevel a).toNat ≤ (nf.imm.extractLsb' 0 2).toNat → sends (.stopg nf) 0x5C []) ∧
      (nf.var = 1 → a.kind ≠ kSTOP ∨ (nf.imm.extractLsb' 0 2).toNat < (stopLevel a).toNat → sends (.stopg nf) 0x5C [both a]) ∧
      (nf.var ≠ 1 → sends (.stopg nf) 0x5C ((a :: markStops a).map both))) ∧
    (taken 0x5D → exec (.delay nf) s = .next (finishFire s (firingAt s 0x5D nf) all [departures (s.fab n.r) nf n.row n.col (some a) (some a)]
      (some a) (s.fclock + (nf.imm.extractLsb' 0 16).zeroExtend 64))) ∧
    (taken 0x5E → (s.node n).reported = false →
      (nf.var ≠ 1 → a.kind ≠ kDONE → sends (.sink nf) 0x5E []) ∧
      (nf.var = 1 ∨ a.kind = kDONE → exec (.sink nf) s = .next (s.fired (s.updNode n fun y =>
        { y with count := y.count + 1, reported := decide (nf.imm.toNat ≤ y.count + 1) }) 0x5E nf all []))) ∧
    (taken 0x5E → (s.node n).reported = true → fails (.sink nf) 0x5E 0x8F both) ∧
    (taken 0x5F → sends (.dup nf) 0x5F ((List.range ((nf.imm.extractLsb' 0 16).toNat + 1)).map fun k =>
      both (if nf.var = 1 then { a with seq := BitVec.ofNat 16 k } else a))) ∧
    -- CNT: a counts up, b counts down
    (let k := cntAt (s.fab n.r) n
     (∀ t, first 0x65 0 t →
       exec (.cnt nf) s = .next (s.fired (setCnt s n (k.1 + 1, k.2 + 1)) 0x65 nf [0] [(some t, none)])) ∧
     (∀ t, first 0x65 1 t → k.1 ≠ 0 → ¬(k.1 = 1 ∧ nf.var = 1) →
       exec (.cnt nf) s = .next (s.fired (setCnt s n (k.1 - 1, k.2)) 0x65 nf [1] [])) ∧
     (∀ t, first 0x65 1 t → k.1 = 1 → nf.var = 1 →
       exec (.cnt nf) s = .next (s.fired (setCnt s n (0, k.2)) 0x65 nf [1]
         [(none, some (((firingAt s 0x65 nf).alone 1).result kCTRL 7 0 (packLanes 32 [k.2])))]))) ∧
    (taken 0x66 → nf.arity ≠ 0 → usable a → a.kind ≠ kSTOP → sends (.const nf) 0x66
      [both { immToken n nf.fmt nf.imm 0 with kind := constKind nf.var, seq := (firingAt s 0x66 nf).seq }]) ∧
    (nf.arity = 0 → n.ctx = 0 → n.iter = 0 → (s.node n).reported = false →
      exec (.const nf) s = .next (s.fired (tookFree (s.updNode n fun y => { y with reported := true }) n) 0x66 nf []
        [both { immToken n nf.fmt nf.imm 0 with kind := constKind nf.var, seq := freeSeq s n }])) ∧
    (∀ e, regionGoing s n.r = true → (s.fab n.r).outq.find? (fun e => e.row == n.row && e.col == n.col && e.slot == n.slot &&
        e.after != 0) = some e → e.after.toNat ≤ s.fclock.toNat →
      exec (.delayRelease n) s = .next (s.updFab n.r fun f => { f with
        outq := f.outq.map fun o => if o.id = e.id then { o with after := 0 } else o }))

/-- Loops and calls: an entry keeps or draws the context of its parent, a back edge stays within the window, the last exit and a
return close the context once no cohort that it leaves has seen an arrival in this fc (R265), a return without a call is in
error, done tokens are counted, a draw that finds the pool dry waits or parks, and a context that no token carries
returns to the pool (R30 to R32, R250 to R253). Which free context is drawn is open, log 21; that the error of a return without a
call leaves on the node's routes is the model's choice, log 72. -/
def Obligations.ContextsAreDrawnAndReturned : Prop :=
  ∀ (s : State) (nf : NodeFields) (t : Token) (g : Cfg), s.CanStart → (s.ctl s.site.r).cfg = some g →
    let n := s.site
    let f := s.fab n.r
    let lid := nf.imm.extractLsb' 0 6
    let taken (opc : BitVec 8) : Prop :=
      (firingAt s opc nf).ready = true ∧ (firingAt s opc nf).badFmt = false ∧ (firingAt s opc nf).a = some t
    let x := firingAt s 0x53 nf
    let first (i : BitVec 2) : Prop := mergePort { x with arr := x.arr.filter (·.1 != 2) } = some i ∧ x.port i = some t ∧
      fmtReserved t.fmt = false
    let known (b : Binding) : Bool := b.lid == some lid && b.pctx == t.ctx && b.piter == t.iter && !b.closed
    (heldTok s n = none →
      (first 0 → entryOk f nf t = false → exec (.loop nf) s = .next
        (s.fired (noteFault s n 0x8F (x.alone 0).info) 0x53 nf [0] [both ((x.alone 0).error 0x8F)])) ∧
      (∀ b, first 0 → entryOk f nf t = true → f.bindings.find? known = some b →
        exec (.loop nf) s = .next (s.fired s 0x53 nf [0] [both { t with ctx := b.ctx, iter := 0 }])) ∧
      (∀ c, first 0 → entryOk f nf t = true → f.bindings.find? known = none →
        drawContext s n g (nf.imm.extractLsb' 20 2 == 2#2) = .got c →
        exec (.loop nf) s = .next (s.fired (addBinding s n ⟨c, some lid, t.ctx, t.iter, 0, 0, false, n.row, n.col, 0⟩) 0x53 nf [0]
          [both { t with ctx := c, iter := 0 }])) ∧
      (∀ b, first 1 → openBinding f t.ctx = some b → b.lid = some lid →
        (t.iter - BitVec.ofNat 16 b.done).toNat < (nf.imm.extractLsb' 6 8).toNat + 1 →
        exec (.loop nf) s = .next (s.fired s 0x53 nf [1] [both t]))) ∧
    (∀ b, taken 0x55 → openBinding f t.ctx = some b → b.lid = some lid →
      b.exits + 1 < lexitCount g lid ∨ leaveWaits s n.r (·.1 == t.ctx) = false →
      let ds := departures f nf n.row n.col (some t) (some t)
      let left := s.updFab n.r fun f => { f with bindings := f.bindings.map fun e =>
        if e.ctx == t.ctx && !e.closed then { e with exits := e.exits + 1 } else e }
      exec (.lexit nf) s = .next (finishFire
        (if lexitCount g lid ≤ b.exits + 1 then closeBinding left n.r t.ctx (entryId f ds) else left)
        (firingAt s 0x55 nf) (tokPorts nf) [ds] (some t) 0)) ∧
    (heldTok s n = none → taken 0x56 →
      (∀ c, drawContext s n g true = .got c → exec (.call nf) s = .next
        (s.fired (addBinding s n ⟨c, none, t.ctx, t.iter, 0, 0, false, n.row, n.col, nf.route1⟩) 0x56 nf (tokPorts nf)
          [(some { t with ctx := c, iter := 0 }, none)])) ∧
      (drawContext s n g true = .dry → (s.ctl n.r).ctxwait.extractLsb' 0 32 = 0#32 →
        exec (.call nf) s = .next (parkFiring s (firingAt s 0x56 nf) 0x82 (firingAt s 0x56 nf).info none)) ∧
      (drawContext s n g true = .dry → (s.ctl n.r).ctxwait.extractLsb' 0 32 ≠ 0#32 →
        exec (.call nf) s = .next
          (s.fired ((noteChoice s n .dry).updNode n fun y => { y with held := y.held ++ [(t, s.fclock)] }) 0x56 nf [0] []))) ∧
    (taken 0x57 → (∀ b, openBinding f t.ctx = some b → b.lid ≠ none) → exec (.ret nf) s = .next
      (s.fired (noteFault s n 0x8F (firingAt s 0x57 nf).info) 0x57 nf (tokPorts nf) [both ((firingAt s 0x57 nf).error 0x8F)])) ∧
    (∀ b, taken 0x57 → openBinding f t.ctx = some b → b.lid = none → leaveWaits s n.r (·.1 == t.ctx) = false →
      let d := routeDest b.cont b.row b.col
      let t' := { t with
        ctx := b.pctx, iter := b.piter, drow := BitVec.ofInt 5 d.row, dcol := BitVec.ofInt 6 d.col,
        node := b.cont.extractLsb' 12 6, port := b.cont.extractLsb' 10 2 }
      exec (.ret nf) s = .next (finishFire (closeBinding s n.r t.ctx (some f.nextId)) (firingAt s 0x57 nf) (tokPorts nf)
        [[⟨false, d, t'⟩]] (some t') 0)) ∧
    (∀ (r : RegionId) (src : TokSrc) (d : Dest) (row : BitVec 5) (col : BitVec 6) (lid : BitVec 6),
      tokAt s r src = some (t, d, row, col) → deliverable s r src = true → nextHop row.toNat col.toNat d = none →
      doneLid s r t = some lid → isDead (s.fab r) t.ctx t.iter = false → isParked (s.fab r) t.ctx t.iter = false →
      (∀ i, cmpMatches (s.dbg r) t i = false) →
      (s.fab r).bindings.any (fun b => b.ctx == t.ctx && b.lid == some lid) = true →
      exec (.loopDoneAbsorb r src) s = .next ((removeTok s r src).updFab r fun f => { f with
        bindings := f.bindings.map fun b =>
          if b.ctx == t.ctx && b.lid == some lid then { b with done := b.done + 1 } else b })) ∧
    (∀ since opc, (s.node n).held.find? (fun e => e.1.ctx == n.ctx && e.1.iter == n.iter) = some (t, since) →
      fieldsAt s n.r n.row n.col n.slot = some (opc, nf) → opc = 0x56 ∨ opc = 0x53 → expires s n g = true →
      ((s.ctl n.r).ctxwait.extractLsb' 0 32).toNat ≤ (s.fclock - since).toNat →
      ∀ s', park (dropHeld s n true) n 0x82 { node := nodeBits opc nf, seq := t.seq, ops := [t] } [⟨false, since, 0, t⟩] = .parked s' →
        exec (.ctxwaitExpiry n) s = .next (noteChoice s' n .expired)) ∧
    (∀ (r : RegionId) (c : BitVec 12), (s.fab r).retiring.any (fun y => y.1 == c && exitLeft (s.fab r) y.2) = true →
      ctxHeld (s.fab r) c = false →
      ∃ s', exec (.contextReturn r c) s = .next s' ∧
        (s'.fab r).bindings = (s.fab r).bindings.filter (·.ctx != c) ∧
        (s'.fab r).retiring = (s.fab r).retiring.filter (·.1 != c) ∧
        (s'.fab r).dead = (s.fab r).dead.filter (·.1 != c))

/-- An ordered MERGE and a REORD take an arriving token into the window of its context, which has one of the node's counters from
then on, and send the due one; cohorts are joined and left, and a barrier holds a member's token until the whole cohort has arrived;
within one fc joins come first, then leaves, then arrivals (R33, R249, R263 to R265). -/
def Obligations.OrderedMergesAndCohorts : Prop :=
  ∀ (s : State) (nf : NodeFields) (t : Token), s.CanStart →
    let n := s.site
    let y := s.node n
    let k := cohortOf nf
    let taken (opc : BitVec 8) : Prop :=
      (firingAt s opc nf).ready = true ∧ (firingAt s opc nf).badFmt = false ∧ (firingAt s opc nf).a = some t
    let holds (opc : BitVec 8) (i : BitVec 2) : Prop := (firingAt s opc nf).port i = some t ∧ fmtReserved t.fmt = false ∧
      streamStopped s y opc nf n i = false ∧ ordArr y opc nf t = .hold
    let ordered (ins : Instr) (opc : BitVec 8) (i : BitVec 2) : Prop :=
      let z := takeArr (withCtr y nf t) nf s.fclock t
      (∀ d, dueTok (s.fab n.r) z nf = some d →
        exec ins s = .next (s.fired (s.updNode n fun _ => takeDue z nf s.fclock d) opc nf [i] [both d])) ∧
      (dueTok (s.fab n.r) z nf = none → exec ins s = .next (s.fired (s.updNode n fun _ => z) opc nf [i] []))
    (∀ i, fORD nf = true → mergePort (firingAt s 0x51 nf) = some i → holds 0x51 i → ordered (.merge nf) 0x51 i) ∧
    (holds 0x52 0 → ordered (.reord nf) 0x52 0) ∧
    ((firingAt s 0x52 nf).a = some t → fmtReserved t.fmt = false → streamStopped s y 0x52 nf n 0 = false →
      ordArr y 0x52 nf t = .window → exec (.reord nf) s = .next (s.updNode n fun y => withCtr y nf t)) ∧
    (∀ opc d, fieldsAt s n.r n.row n.col n.slot = some (opc, nf) → opc = 0x52 ∨ (opc = 0x51 ∧ fORD nf = true) →
      dueTok (s.fab n.r) y nf = some d → d.ctx = n.ctx → d.iter = n.iter →
      exec (.reorderDueEmit n) s = .next (finishFire (s.updNode n fun _ => takeDue y nf s.fclock d) ⟨n, opc, nf, none, none, none, none, []⟩ []
        [departures (s.fab n.r) nf n.row n.col (some d) (some d)] (some d) 0)) ∧
    (taken 0x62 →
      (t.ctx, t.iter) ∈ members (s.fab n.r) k → exec (.cjoin nf) s = .next (s.fired s 0x62 nf (tokPorts nf) [both t])) ∧
    (taken 0x62 → (t.ctx, t.iter) ∉ members (s.fab n.r) k → (members (s.fab n.r) k).length < 1024 →
      cohNow s n.r k false = false → cohNow s n.r k true = false → exec (.cjoin nf) s = .next (s.fired
        (sweepBarriers (s.updFab n.r fun f => { f with cohorts := f.cohorts ++ [(k, t.ctx, t.iter)] }) n.r k) 0x62 nf (tokPorts nf)
        [both t])) ∧
    (taken 0x63 → (t.ctx, t.iter) ∉ members (s.fab n.r) k →
      exec (.cleave nf) s = .next (s.fired (noteCoh s n.r k false) 0x63 nf (tokPorts nf) [both t])) ∧
    (taken 0x63 → (t.ctx, t.iter) ∈ members (s.fab n.r) k → cohNow s n.r k true = false → exec (.cleave nf) s = .next (s.fired
      (sweepBarriers (noteCoh (s.updFab n.r fun f => { f with
        cohorts := f.cohorts.filter (fun m => !(m.1 == k && m.2.1 == t.ctx && m.2.2 == t.iter)) }) n.r k false) n.r k)
      0x63 nf (tokPorts nf) [both t])) ∧
    (taken 0x62 ∧ (t.ctx, t.iter) ∉ members (s.fab n.r) k ∧ (cohNow s n.r k false = true ∨ cohNow s n.r k true = true) →
      exec (.cjoin nf) s = .next s) ∧
    (taken 0x63 ∧ (t.ctx, t.iter) ∈ members (s.fab n.r) k ∧ cohNow s n.r k true = true → exec (.cleave nf) s = .next s) ∧
    (taken 0x64 → (t.ctx, t.iter) ∉ members (s.fab n.r) k →
      exec (.cbar nf) s = .next (s.fired (noteCoh s n.r k true) 0x64 nf (tokPorts nf) [both t])) ∧
    (taken 0x64 → (t.ctx, t.iter) ∈ members (s.fab n.r) k → heldTok s n = none →
      exec (.cbar nf) s = .next (finishFire (sweepBarriers (noteCoh (s.updNode n fun y =>
        { y with held := y.held ++ [(t, s.fclock)] }) n.r k true) n.r k) (firingAt s 0x64 nf) (tokPorts nf) [] none 0))

/-- Chains and sparse iteration: an enable opens a pass, whose points leave one by one with their marks, completions being counted;
bitmap tops open a pass over their set bits; ISECT and UNION walk two heads in step and end at two STOPs (R254 to R256). A SEQ that no
rule gives is open, log 22; the special kinds at a SLOOP are log 23; that the token of an empty pass, a CTR's or an SLOOP's, has SEQ 0 and
payload 0 is the model's choice, log 52. -/
def Obligations.ChainsAndSparseIterationRunTheirPasses : Prop :=
  (∀ (s : State) (nf : NodeFields) (a b : Token), s.CanStart →
    let n := s.site
    let usable (t : Token) : Prop := t.kind ≠ kERROR ∧ t.kind ≠ kBUBBLE ∧ fmtReserved t.fmt = false
    let both2 (opc : BitVec 8) : Prop := (firingAt s opc nf).a = some a ∧ (firingAt s opc nf).b = some b
    let begins (p : Pass) : State := s.updNode n fun z => { z with pass := some p }
    -- CTR
    ((s.node n).pass = none → nf.kc ≠ 0 ∨ (firingAt s 0x58 nf).c = none → both2 0x58 → usable a → usable b →
      (0 ∉ ctrExtents nf b → exec (.ctr nf) s = .next
        (s.fired (begins ⟨a, b, 0, ctrPoints nf b, 0, none, []⟩) 0x58 nf [0, 1] [])) ∧
      (0 ∈ ctrExtents nf b → nf.var = 0 → exec (.ctr nf) s = .next
        (s.fired s 0x58 nf [0, 1] [both (passTok nf a kINDEX false (2 ^ ctrLevels nf - 1) 0 0)])) ∧
      (0 ∈ ctrExtents nf b → nf.var ≠ 0 → exec (.ctr nf) s = .next
        (s.fired (tookFree s n) 0x58 nf [0, 1] [(none, some (passTok nf a kCTRL true 0 (freeSeq s n) 0))]))) ∧
    (∀ p t, (s.node n).pass = some p → nf.kc = 0 → (firingAt s 0x58 nf).c = some t → exec (.ctr nf) s = .next
      (s.fired (begins { p with done := p.done + 1, err := if p.err.isNone && t.kind == kERROR then some t else p.err })
        0x58 nf [2] [])) ∧
    -- SLOOP
    (let x := firingAt s 0x59 nf
     let top := slCombine nf a.payload (x.b.getD a).payload
     (s.node n).pass = none → x.ready = true → x.a = some a →
     (∀ t ∈ x.toks, t.kind ≠ kERROR ∧ t.kind ≠ kBUBBLE ∧ t.kind ≠ kSTOP ∧ t.fmt = 0x11) →
     (slTree nf = false → exec (.sloop nf) s = .next (s.fired (begins ⟨a, x.b.getD a, 512, (setBits top).length, 1, none,
        if setBits top = [] then [slEmpty nf a] else slToks nf a 0 (setBits top)⟩) 0x59 nf (tokPorts nf) [])) ∧
     (slTree nf = true → exec (.sloop nf) s = .next
        (s.fired (begins (slSettle nf ⟨a, x.b.getD a, 0, 0, 0, none, []⟩)) 0x59 nf (tokPorts nf) []))) ∧
    -- ISECT and UNION
    (∀ opc, opc = 0x5A ∨ opc = 0x5B →
      let i : Instr := if opc = 0x5A then .isect nf else .union nf
      let x := firingAt s opc nf
      let f := fibreOf (s.node n) n
      x.ready = true → both2 opc → f.skipA = false → f.skipB = false →
      (a.kind = kDATA → a.fmt = nf.fmt → b.kind = kDATA → b.fmt = nf.fmt →
        let w := fibWalk nf (opc == 0x5B) (opc == 0x5B && nf.var == 1) a b 33 f
        let usedA := decide (w.1.posA = 16)
        let usedB := decide (w.1.posB = 16)
        let eat : List (BitVec 2) := (if usedA then [0] else []) ++ (if usedB then [1] else [])
        let g := { w.1 with posA := if usedA then 0 else w.1.posA, posB := if usedB then 0 else w.1.posB }
        (w.2 = .used ∨ w.2 = .full →
          (w.1.out.length < 16 → exec i s = .next (s.fired (setFibre s n g) opc nf eat [])) ∧
          (16 ≤ w.1.out.length → exec i s = .next
            (s.fired (setFibre s n { g with out := [] }) opc nf eat [both (fibFlush nf x w.1.out)])))) ∧
      (a.kind = kSTOP → b.kind = kSTOP → stopLevel a = stopLevel b →
        (f.out = [] → exec i s = .next (s.fired (dropFibre s n) opc nf [0, 1] [both (x.retag a)])) ∧
        (f.out ≠ [] → exec i s = .next (s.fired (setFibre s n { f with out := [] }) opc nf [] [both (fibFlush nf x f.out)]))))) ∧
  -- the emissions of a pass
  (∀ (s : State) (n : Site) (nf : NodeFields) (p : Pass), regionGoing s n.r = true →
    outCount (s.fab n.r) n.row n.col n.slot < 4 → (s.node n).pass = some p →
    let es := ctrExtents nf p.desc
    let emits (t : State) : Prop := exec (.counterChainEmit n) s = .next t
    (fieldsAt s n.r n.row n.col n.slot = some (0x58, nf) →
      (nf.var ≠ 3 → p.point < p.total →
        nf.var = 0 ∨ (ctrChildren nf : Int) * ((p.point : Int) - ctrWindow nf + 1) ≤ (p.done : Int) →
        let t := passTok nf p.enable (if nf.var = 0 then kINDEX else kCTRL) true (ctrMarks es p.point) (BitVec.ofNat 16 p.point)
          (ctrPayload nf p.desc (ctrIdx es p.point))
        emits (chainEmit (setPass s n (if nf.var = 0 ∧ p.point + 1 = p.total then none else some { p with point := p.point + 1 }))
          n nf (some t) (if nf.var = 0 then some t else none))) ∧
      (nf.var = 3 → p.point = 0 → emits (chainEmit (setPass (tookFree s n) n (some { p with point := 1 })) n nf
        (some (passTok nf p.enable kCTRL true (2 ^ ctrLevels nf - 1) (freeSeq s n) (ctrPayload nf p.desc fun _ => 0))) none)) ∧
      (let count := if nf.var = 3 then 1 else p.total
       count ≤ p.point → ctrChildren nf * count ≤ p.done →
        let t := match p.err with
          | some e => { e with ctx := p.enable.ctx, iter := p.enable.iter }
          | none => passTok nf p.enable kCTRL true 0 (freeSeq s n) (packLanes 32 [p.total])
        emits (chainEmit (setPass (tookFree s n) n none) n nf none (some t)))) ∧
    (fieldsAt s n.r n.row n.col n.slot = some (0x59, nf) →
      (∀ t u rest, p.out = t :: u :: rest →
        emits (chainEmit (setPass s n (some { p with out := u :: rest })) n nf (some t) (some t))) ∧
      (∀ t, p.out = [t] → p.done = 1 →
        let t' := if slTree nf then { t with scale := t.scale ||| 2 } else t
        emits (chainEmit (setPass s n none) n nf (some t') (some t')))))

/-- A command node appends its command to its tile's queue and reserves its output; MXF fills a slot row and echoes its command word,
by the state in which the tile's queued commands leave the slot (R228, R230, R232, R234). That the row lands in the slot once those of
the queued commands that change it have run is the model's choice (log 53). -/
def Obligations.MatrixNodesQueueTheirCommands : Prop :=
  ∀ (s : State) (nf : NodeFields) (a b : Token), s.CanStart →
    let n := s.site
    let f := s.fab n.r
    (tileCmds f n.row n.col).length < 8 →
    (∀ p : Instr × BitVec 8, p ∈ ([(.mxclm nf, 0x41), (.mxrel nf, 0x42), (.mxmul nf, 0x43), (.mxdrn nf, 0x44), (.mxzero nf, 0x45),
        (.mxrec nf, 0x46), (.mxsigm nf, 0x47)] : List (Instr × BitVec 8)) →
      (firingAt s p.2 nf).Plain (fun _ t => t.fmt == 8 && (t.kind == kCTRL || t.kind == kDATA || t.kind == kINDEX)) →
      (firingAt s p.2 nf).a = some a →
      exec p.1 s = .next (s.fired (s.updFab n.r fun f => { f with
        outq := f.outq ++ [⟨f.nextId, n.row, n.col, n.slot, true, 3, 0, none, []⟩], nextId := f.nextId + 1
        arrayq := f.arrayq ++ [⟨n.row, n.col, n.slot, p.2, nf,
          (((firingAt s p.2 nf).arr.find? (·.1 == 0)).map (·.2)).getD 0, a, f.nextId⟩] }) p.2 nf (tokPorts nf) [])) ∧
    (let x := firingAt s 0x40 nf
     let slot := b.payload.extractLsb' 0 6
     let write := fillRow f ⟨n.row, n.col, slot, n.ctx, b.payload.extractLsb' 6 5, a.fmt, tokSig a, a.payload, a.scale, []⟩
     x.Plain (fun i t => if i = 0 then t.kind == kDATA && (rowCap t.fmt).isSome else isDataIdx t 7) → x.a = some a → x.b = some b →
     (b.payload.extractLsb' 11 501 ≠ 0#501 →
       exec (.mxf nf) s = .next (s.fired (noteFault s n 0x8E x.info) 0x40 nf (tokPorts nf) [both (x.error 0x8E)])) ∧
     (b.payload.extractLsb' 11 501 = 0#501 →
       (∀ g, write = .done g → exec (.mxf nf) s = .next
         (s.fired (s.updFab n.r fun _ => g) 0x40 nf (tokPorts nf) [both (x.echo 7 (b.lane 32 0))])) ∧
       (write = .parks → exec (.mxf nf) s = .next (parkFiring s x 0x86 x.info none)) ∧
       (write = .bad →
         exec (.mxf nf) s = .next (s.fired (noteFault s n 0x87 x.info) 0x40 nf (tokPorts nf) [both (x.error 0x87)]))))

/-- The next command of a tile's queue executes: slots are claimed and released together or not at all, products are summed into an
accumulator, accumulators are cleared, drained, read and recorded, and the result fills the entry reserved; a malformed word gives
MX_CMD (R56, R67, R231, R232, R235 to R239). -/
def Obligations.MatrixCommandsExecute : Prop :=
  ∀ (s : State) (t : TileAt) (c : ArrayCmd), regionGoing s t.r = true →
    let f := s.fab t.r
    let w := cmdWord c.tok
    let slots := (cmdSlots c).map (omSlot f c.row c.col)
    let next (opc : BitVec 8) : Prop := cmdNext s t opc = some c ∧ cmdOk c = true
    let ends (i : Instr) (k : Fabric → Fabric) (r : Token) : Prop := exec i s = .next (cmdDone (s.updFab t.r k) t.r c r)
    let echo := cmdEcho t.r c
    (next 0x41 → (∀ o ∈ slots, o.held = false) → ends (.mxclmExecute ⟨t, 0⟩) (fun f => slots.foldl (fun f o =>
      setOmSlot f { o with held := true, owner := c.tok.ctx, present := 0, tag := 63, rows := [] }) f) echo) ∧
    (next 0x41 → (∃ o ∈ slots, o.held = true) → exec (.mxclmExecute ⟨t, 0⟩) s = .next (cmdPark s t.r c)) ∧
    (next 0x42 → (∀ o ∈ slots, omOwned o c.tok.ctx = true) → ends (.mxrelExecute ⟨t, 0⟩) (fun f => slots.foldl (fun f o =>
      setOmSlot f { o with held := false }) f) echo) ∧
    (next 0x43 →
      let k := 8 * ((w.extractLsb' 22 4).toNat + 1)
      let nn := 8 * ((w.extractLsb' 20 2).toNat + 1)
      let mm := 8 * ((w.extractLsb' 18 2).toNat + 1)
      let ta := w.getLsbD 1
      let acc := w.extractLsb' 3 3
      let a := omSlot f c.row c.col (w.extractLsb' 6 6)
      let b := omSlot f c.row c.col (w.extractLsb' 12 6)
      omOwned a c.tok.ctx = true → omOwned b c.tok.ctx = true → (ta = true → k ≤ 32) →
      rowsPresent a (if ta then k else mm) = true → rowsPresent b nn = true →
      fmtPair a.sfmt b.sfmt = true → (ta = true → a.sfmt ≠ 0xF ∧ a.sfmt ≠ 0x10) →
      (if ta then mm else k) ≤ (rowCap a.sfmt).getD 0 → k ≤ (rowCap b.sfmt).getD 0 →
      ends (.mxmulExecute ⟨t, 0⟩) (fun f => amSet f c.row c.col acc ((List.range mm).flatMap fun m => (List.range nn).map fun n =>
        let old := if w.getLsbD 0 then amGet f c.row c.col acc m n else (0, 24)
        let r := mulElem a b ta k (decodeF fp32 old.1, old.2) m n
        (m, n, (rneF fp32 (exactOf r.1)).1, r.2))) echo) ∧
    (next 0x45 → ends (.mxzeroExecute ⟨t, 0⟩) (fun f => { f with am := f.am.filter fun x =>
      !(x.row == c.row && x.col == c.col && (cmdAccs c).contains x.acc) }) echo) ∧
    (next 0x44 →
      let first := if w.getLsbD 8 then 16 else 0
      let row := (w.extractLsb' 3 5).toNat
      let r := drainRow f c (w.extractLsb' 0 3) row first
      exec (.mxdrnExecute ⟨t, 0⟩) s = .next (cmdDone
        (if c.n.var = 1 then s.updFab t.r fun f => amSet f c.row c.col (w.extractLsb' 0 3)
          ((List.range (laneCount c.n.fmt)).map fun i => (row, first + i, 0, 24)) else s) t.r c
        ((cmdFiring t.r c).result kDATA c.n.fmt r.2 (packLanes (laneBits c.n.fmt) r.1)))) ∧
    (next 0x47 → exec (.mxsigmExecute ⟨t, 0⟩) s = .next (cmdDone s t.r c ((cmdFiring t.r c).result kDATA 5 0 (packLanes 8 ((List.range 64).map fun i =>
      (amGet f c.row c.col (w.extractLsb' 0 3) (2 * (w.extractLsb' 3 4).toNat + i / 32) (i % 32)).2))))) ∧
    (next 0x46 →
      let r := recRows f c (w.extractLsb' 0 3) (8 * ((w.extractLsb' 9 2).toNat + 1)) 0 (omSlot f c.row c.col (w.extractLsb' 3 6))
      (∃ o, r.2 = .done o) → ends (.mxrecExecute ⟨t, 0⟩) (fun f => setOmSlot f r.1) echo) ∧
    (∀ p : Instr × BitVec 8, p ∈ ([(.mxclmExecute ⟨t, 0⟩, 0x41), (.mxrelExecute ⟨t, 0⟩, 0x42), (.mxmulExecute ⟨t, 0⟩, 0x43), (.mxdrnExecute ⟨t, 0⟩, 0x44),
        (.mxzeroExecute ⟨t, 0⟩, 0x45), (.mxrecExecute ⟨t, 0⟩, 0x46), (.mxsigmExecute ⟨t, 0⟩, 0x47)] : List (Instr × BitVec 8)) →
      cmdNext s t p.2 = some c → cmdOk c = false → exec p.1 s = .next (cmdError s t.r c 0x8E))

/-- A memory node starts an access when its operands and addresses pass their checks, and the node's other effects: addresses are
generated, parameters applied, rows accumulated and flushed; an access that fails its checks parks the activation (R270 to R288),
and one to a link that is down waits (log 65). -/
def Obligations.MemoryNodesStartTheirAccesses : Prop :=
  ∀ (s : State) (nf : NodeFields) (a : Token), s.CanStart →
    let n := s.site
    let all := tokPorts nf
    let plain (opc : BitVec 8) : Prop :=
      let x := firingAt s opc nf
      x.ready = true ∧ x.a = some a ∧ (∀ t ∈ x.all, t.kind ≠ kERROR ∧ t.kind ≠ kBUBBLE) ∧ (∀ t ∈ x.toks, t.kind ≠ kSTOP) ∧
        (∀ t, x.p = some t → t.pred = true)
    let addr : Prop := isAddr a = true ∧ emptyAddr a = false
    let va := addrLane a 0
    -- the state with an access under way; `block` tells whose results wait for it, `deps` what departs at once
    let begun (s1 : State) (opc : BitVec 8) (ps : List Piece) (wants : Bool) (block : BitVec 2) (deps : List Dep) : State :=
      let x := firingAt s opc nf
      let sp := portSpace s1 x
      let s2 := if wants then (reserveEntry s1 n block deps).2 else pushEntry s1 n deps 0 none
      s2.updFab n.r fun f => { f with
        accs := f.accs ++ [⟨f.nextId, n, opc, nf, (tokPorts nf).filterMap (headOf (s1.fab n.r) n), x.all, memPort nf, sp.1, sp.2, ps, 0,
          if wants then some (s1.fab n.r).nextId else none, none, none, false⟩]
        nextId := f.nextId + 1 }
    let starts (i : Instr) (opc : BitVec 8) (ps : List (Word × Nat × Nat)) (wants : Bool) (block : BitVec 2) (deps : List Dep) :
        Prop :=
      let x := firingAt s opc nf
      let placed := placeAll s x (portSpace s x).1 ps
      (∀ qs s1, placed = .ok qs s1 → qs ≠ [] →
        exec i s = .next (s.fired (begun s1 opc qs wants block deps) opc nf all [])) ∧
      (∀ c v, placed = .trap c v →
        (linkCause c = false → exec i s = .next (parkFiring s x c { accFault x v (accType opc) with cut := ps } none)) ∧
        (linkCause c = true → exec i s = .next s))
    (plain 0x71 → addr → aligned va (accBytes nf) = true →
      starts (.ldn nf) 0x71 (cutPieces va (accBytes nf) ++ scalePiece nf a) true 3 []) ∧
    (∀ b, plain 0x72 → addr → (firingAt s 0x72 nf).b = some b → fmtReserved b.fmt = false → nf.fmt = 0 ∨ b.fmt = nf.fmt →
      (portSpace s (firingAt s 0x72 nf)).1 ≠ 2 → aligned va (accBytes nf) = true →
      let copy := { b with ctx := n.ctx, iter := n.iter, seq := (firingAt s 0x72 nf).seq, pred := true }
      starts (.stn nf) 0x72 (cutPieces va (accBytes nf) ++ scalePiece nf a) (fCMPL nf) 0
        (if nf.var = 1 then departures (s.fab n.r) nf n.row n.col (some copy) none else [])) ∧
    (∀ p : Instr × BitVec 8, p ∈ ([(.ldx nf, 0x73), (.stx nf, 0x74)] : List (Instr × BitVec 8)) → ∀ h,
      portShape s n.r n.row n.col (memPort nf) = some h → plain p.2 → gatherQueue s n < 64 → a.fmt = 7 ∨ a.fmt = 3 →
      a.kind = kINDEX ∨ a.kind = kDATA → emptyAddr a = false →
      (p.2 = 0x74 → ∀ b, (firingAt s p.2 nf).b = some b → b.fmt = nf.fmt) →
      (∀ ps, gatherPieces nf h a = some ps → starts p.1 p.2 ps (p.2 == 0x73 || fCMPL nf)
        (if p.2 = 0x73 ∧ fORD nf = true then 3 else 0) []) ∧
      (gatherPieces nf h a = none → let x := firingAt s p.2 nf
        exec p.1 s = .next (s.fired (noteFault s n 0x83 x.info) p.2 nf all [both (x.error 0x83)]))) ∧
    (plain 0x75 → addr → (∀ b, (firingAt s 0x75 nf).b = some b → b.fmt = nf.fmt) →
      (∀ c, (firingAt s 0x75 nf).c = some c → c.fmt = nf.fmt) →
      starts (.atom nf) 0x75 [(va, laneBits nf.fmt / 8, 0)] true 0 []) ∧
    (plain 0x76 → addr → exec (.mcas nf) s = .next (s.fired (begun s 0x76 [] true 0 []) 0x76 nf all [])) ∧
    (plain 0x77 → addr → exec (.pref nf) s = .next (s.fired (prefetch s (portCtx s n (memPort nf)) (nf.var == 1) va) 0x77 nf all [])) ∧
    (plain 0x79 → (firingAt s 0x79 nf).badFmt = false →
      exec (.param nf) s = .next (s.fired s 0x79 nf all [both ((firingAt s 0x79 nf).result kPARAM nf.fmt 0
        (if nf.fmt = 8 then packLanes 64 [(paramValue a).toNat, (nf.imm.extractLsb' 0 3).toNat]
         else packLanes 32 [(paramValue a).toNat]))])) ∧
    -- AGEN: the earlier of a parameter and an enable, the parameter at equal arrival, in an open round, and when it came before the end
    -- of the last one
    (∀ h, shapeAt s n.r n.row n.col n.slot = some h →
      let x := firingAt s 0x70 nf
      let since (i : BitVec 2) : Option Nat := (x.arr.find? (·.1 == i)).map (·.2.toNat)
      let paramFirst : Prop := ∃ v, since 1 = some v ∧ ((s.node n).pass ≠ none ∨ v ≤ (s.node n).roundEnd.toNat ∨ ∀ u, since 0 = some u → v ≤ u)
      (∀ t, paramFirst → x.b = some t → paramOk t = true → exec (.agen nf) s = .next (s.fired
        (s.updNode n fun y => if y.pass.isSome then { y with params := y.params ++ [t] } else { y with shape := some (applyParam h t) })
        0x70 nf [1] [])) ∧
      (¬paramFirst → x.a = some a → (s.node n).pass = none → a.kind ≠ kERROR → a.kind ≠ kBUBBLE →
        fmtReserved a.fmt = false →
        (nf.var = 0 → exec (.agen nf) s = .next (s.fired (s.updNode n fun z => { z with
          pass := some ⟨a, a, 0, h.ext 0 * h.ext 1 * h.ext 2 * h.ext 3, 0, none, []⟩ }) 0x70 nf [0] [])) ∧
        (let is := (List.range h.ndim.toNat).map fun j => a.lane 32 j
         nf.var ≠ 0 → a.kind = kDATA ∨ a.kind = kINDEX → a.fmt = 3 ∨ a.fmt = 7 → (∀ j < h.ndim.toNat, a.lane 32 j < h.ext j) →
          exec (.agen nf) s = .next (s.fired s 0x70 nf [0] [both (addrTok ((x.alone 0).result kINDEX 8 0 0) h true is
            (a.scale &&& 0xF) (x.alone 0).seq)])))) ∧
    -- SPACC: values are added to the row; a STOP begins its flush
    (∀ h, portShape s n.r n.row n.col (memPort nf) = some h →
      let x := firingAt s 0x78 nf
      let base := h.base.toNat
      let l := h.e0.toNat
      let bind (t : State) : State := t.updNode n fun z => { z with bound := some (n.ctx, n.iter) }
      x.ready = true → x.a = some a → (∀ t ∈ x.all, t.kind ≠ kERROR ∧ t.kind ≠ kBUBBLE) → (∀ t, x.p = some t → t.pred = true) →
      (s.node n).flush = none → (∀ b ∈ (s.node n).bound, b = (n.ctx, n.iter)) → portBusy s x = false →
      (isData a 0x13 = true →
        let ls := ((List.range 16).map fun i => (a.lane 32 i % 65536, a.lane 32 i / 65536)).filter fun p => p.1 != 0xFFFF
        ((∀ p ∈ ls, p.1 < l) → spRange base l (ls.map (·.1)) = none → exec (.spacc nf) s = .next (s.fired
          (bind (s.updFab n.r fun f => ls.foldl (fun f p => spAdd f n base l p.1 p.2 (min a.sig.toNat 11)) f)) 0x78 nf all [])) ∧
        (∀ o, (∀ p ∈ ls, p.1 < l) → spRange base l (ls.map (·.1)) = some o → exec (.spacc nf) s =
          .next (parkFiring s x 0x64 (accInfo x (BitVec.ofNat 64 o) 8 3) none)) ∧
        ((∃ p ∈ ls, l ≤ p.1) → exec (.spacc nf) s = .next
          (s.fired (noteFault (bind s) n 0x83 x.info) 0x78 nf all [both (x.error 0x83)]))) ∧
      (a.kind = kSTOP → spRange base l [l - 1] = none →
        let r := spFlush x (s.fab n.r) base l
        exec (.spacc nf) s = .next (s.fired ((bind (s.updFab n.r fun _ => r.2)).updNode n fun z => { z with
          flush := some (x.retag a), pass := some ⟨x.retag a, a, 0, 0, 0, none, r.1⟩ }) 0x78 nf (all.filter (· != 0)) [])))

/-- Address tokens and flushes leave one by one; a piece of an access performs after the earlier accesses of its port to the same
bytes, and the last one sends the results; an access that faults parks its activation; a held one translates again, a fault that
found the park table full is repeated (R76, R77, R271, R282, R285 to R288, R333, R338, R363). The model's choices: SEQ 0 of the token of
an empty round (log 52), that a repeated fault takes a turn of the agenda (log 1), and that a held access of a region which a kill waits
for tries again where it stands (log 54). -/
def Obligations.AccessesPerformAndEmissionsLeave : Prop :=
  ∀ (s : State),
    (∀ (n : Site) (nf : NodeFields) (p : Pass), regionGoing s n.r = true → outCount (s.fab n.r) n.row n.col n.slot < 4 →
      (s.node n).pass = some p →
      (∀ h, fieldsAt s n.r n.row n.col n.slot = some (0x70, nf) → shapeAt s n.r n.row n.col n.slot = some h →
        let es := (List.range h.ndim.toNat).map h.ext
        let at_ := addrTok p.enable h true (roundIdx h p.point) (BitVec.ofNat 64 (ctrMarks es p.point)) (BitVec.ofNat 16 p.point)
        let empty := addrTok p.enable h false [] (BitVec.ofNat 64 (2 ^ h.ndim.toNat - 1)) 0
        (p.point + 1 < p.total → exec (.agenEmit n) s = .next (chainEmit (s.updNode n fun y =>
          { y with pass := some { p with point := p.point + 1 } }) n nf (some at_) (some at_))) ∧
        (p.total ≤ p.point + 1 → let t := if p.total = 0 then empty else at_
          exec (.agenEmit n) s = .next (chainEmit (s.updNode n fun y =>
            { y with pass := none, params := [], shape := some (y.params.foldl applyParam h), roundEnd := s.fclock })
            n nf (some t) (some t)))) ∧
      (∀ st, fieldsAt s n.r n.row n.col n.slot = some (0x78, nf) → (s.node n).flush = some st →
        (∀ t rest, p.out = t :: rest → exec (.spaccFlushEmit n) s =
          .next (chainEmit (setPass s n (some { p with out := rest })) n nf (some t) none)) ∧
        (p.out = [] → exec (.spaccFlushEmit n) s = .next (chainEmit
          ((eatPorts s { n with ctx := st.ctx, iter := st.iter } [0]).updNode n fun z =>
            { z with flush := none, pass := none, bound := none }) n nf (some st) none)))) ∧
    (∀ (r : RegionId) (k : Nat) (a : Acc), (s.fab r).accs.find? (·.id = k / 64) = some a → accessing s r = true →
      a.held = false → a.site.r = r →
      (∀ p, a.opc ≠ 0x76 → a.pieces[k % 64]? = some p → p.done = false → mayPerform (s.fab r) a p = true →
        scoreboardHas (s.fab r) a (k % 64) = true →
        (∀ v s1, performPiece s a p = .ok v s1 →
          let a' := pieceDone a (k % 64) v
          exec (.accessPerform r k) s = .next (if a'.pieces.all (·.done) then accDone s1 a' else touch (setAcc s1 a') r)) ∧
        (∀ c va, performPiece s a p = .trap c va → exec (.accessPerform r k) s = .next (accPark s a c va))) ∧
      (a.opc = 0x76 → a.mwres ≠ none → exec (.accessPerform r k) s = .next (accDone s a))) ∧
    -- a store of a load's shape to the tile's scratch, and a load from it
    (∀ (a : Acc) (p : Piece) (b : Token), a.space = 0 →
      (a.opc = 0x71 ∨ a.opc = 0x73 → performPiece s a p = .ok (scrRead (s.fab a.site.r) a.site.row a.site.col p.pa p.n) s) ∧
      (a.opc = 0x72 ∨ a.opc = 0x74 → a.arg 1 = some b → performPiece s a p = .ok 0 (s.updFab a.site.r fun f =>
        scrWrite f a.site.row a.site.col p.pa (storeBytesOf b p.off p.n) p.n))) ∧
    (∀ (r : RegionId) (k : Nat) (a : Acc), (s.fab r).accs.find? (·.id = k) = some a → a.held = true → (s.ctl r).st = .running →
      a.site.r = r → mergerRoom s.ms (s.ctl r).part = true →
      ((s.ctl r).killing = none → isParked (s.fab r) a.site.ctx a.site.iter = true ∨ parkCount (s.fab r) < 256 →
        exec (.heldAccessRetranslate r k) s = .next (readyAgain (dropAcc s a) r a.ops)) ∧
      -- one that a kill waits for tries again where it stands: its pieces that have performed stay so, the others translate again
      (∀ ps s1, (s.ctl r).killing ≠ none → a.opc ≠ 0x76 → (portSpace s (accFiring a)).1 ≠ 2 →
        placeAll s (accFiring a) (portSpace s (accFiring a)).1 ((a.pieces.filter (!·.done)).map fun p => (p.va, p.n, p.off)) = .ok ps s1 →
        exec (.heldAccessRetranslate r k) s = .next (setAcc s1 { a with
          held := false, space := (portSpace s (accFiring a)).1, ct := (portSpace s (accFiring a)).2
          pieces := a.pieces.filter (·.done) ++ ps }))) ∧
    (∀ n : Site, parkCount (s.fab n.r) < 256 →
      ((∀ a ∈ (s.fab n.r).accs, a.held = true → a.site ≠ n) →
        exec (.parkTableRetry n) s = .next { s with agenda := .fire n :: s.agenda }) ∧
      (∀ a, (s.fab n.r).accs.find? (fun a => a.held && a.site == n) = some a → (s.ctl n.r).st = .running → (s.ctl n.r).killing = none →
        exec (.parkTableRetry n) s = .next { readyAgain (dropAcc s a) n.r a.ops with agenda := .fire n :: s.agenda }))

/-- What the rule nodes do: DELTA takes the next injected delta and sends its halves, ALPHA tests and binds, BJOIN and BNEG probe
and change their memory, SCORE passes, holds or asks, TERM delivers to the conflict set, and a special kind is consumed (R312, R315 to
R323). -/
def Obligations.RuleNodesMatchAndDeliver : Prop :=
  ∀ (s : State) (nf : NodeFields) (a b c : Token), s.CanStart →
    let n := s.site
    let p := (s.ctl n.r).part
    let q := s.rules p
    let all := tokPorts nf
    let first (opc : BitVec 8) (i : BitVec 2) (t : Token) : Prop :=
      mergePort (ruleHeads s (firingAt s opc nf)) = some i ∧ (firingAt s opc nf).port i = some t ∧ isData t 8 = true
    -- DELTA
    (∀ d rest, (s.fab n.r).injq = d :: rest → n.ctx = 0 → n.iter = d.n → q.unsettled.length < 256 →
      (d.neg = true → ∀ e ∈ q.unsettled, e.neg = false → e.tt ≠ d.tt) →
      let half (k : Nat) : Token := { (firingAt s 0x80 nf).result kDATA 0x14 0
        (packLanes 64 (((d.words.drop (8 * k)).take 8).map (·.toNat))) with scale := BitVec.ofNat 64 k, seq := d.n }
      exec (.delta nf) s = .next (s.fired ((s.updFab n.r fun f => { f with injq := rest }).updRules p fun q =>
        { q with unsettled := q.unsettled ++ [d] }) 0x80 nf [] [(some (half 0), some (half 1))])) ∧
    -- ALPHA
    (let x := firingAt s 0x81 nf
     x.ready = true → (∀ t ∈ x.toks, isData t 0x14 = true) → x.a = some a → x.b = some b →
     let ws := lanes64 a ++ ((x.c.map lanes64).getD [])
     let l0 := (lanes64 b).headD 0
     let w0 := ws.headD 0
     let attr (i : Nat) : Word := ws.getD i 0
     let passes : Prop := w0.extractLsb' 48 16 = l0.extractLsb' 0 16 ∧
       ∀ k < (l0.extractLsb' 24 4).toNat, alphaTest (lanes64 b) attr k = true
     let lane (i : Nat) : Word := (if i = (l0.extractLsb' 16 3).toNat then (w0.extractLsb' 8 40).zeroExtend 64 else 0) |||
       (if i = 7 then (if w0.getLsbD 7 then 1#64 <<< 63 else 0) else 0)
     let key := (l0.extractLsb' 20 4).toNat
     (passes → exec (.alpha nf) s = .next (s.fired s 0x81 nf all
       [both (condTok x ((List.range 8).map lane) (if key = 0 then 0 else attr key))])) ∧
     (¬passes → exec (.alpha nf) s = .next (s.fired s 0x81 nf all []))) ∧
    -- BJOIN and BNEG
    (∀ (bneg : Bool) (i : BitVec 2) (h : ShapeRec), let opc : BitVec 8 := if bneg then 0x83 else 0x82
      let ins : Instr := if bneg then .bneg nf else .bjoin nf
      let y := (firingAt s opc nf).alone i
      let m : Beta := ⟨n.row, n.col, h.base.toNat, h.e0.toNat⟩
      let step := betaStep bneg (s.fab n.r) m (i == 0) (lanes64 a) a.scale
      let past := pastScratch 128 ((betaOrder m a.scale).map (m.base + 128 * ·))
      first opc i a → portShape s n.r n.row n.col (memPort nf) = some h →
      -- an area that a parameter has moved past the scratch
      (∀ o, past = some o →
        exec ins s = .next (parkFiring s (firingAt s opc nf) 0x64 (accInfo y (BitVec.ofNat 64 o) 128 1) none)) ∧
      (∀ f rs ks s1, past = none → step = some (f, rs) →
        outKeys s y (nf.imm.extractLsb' 2 3).toNat (nf.imm.extractLsb' 5 4).toNat rs = .ok ks s1 →
        exec ins s = .next (s.fired (s1.updFab n.r fun _ => f) opc nf [i] ((rs.zip ks).map fun r => both (condTok y r.1 r.2)))) ∧
      (past = none → step = none → exec ins s = .next (parkFiring s (firingAt s opc nf) 0x93 y.info none))) ∧
    -- SCORE: a − token passes; a + token passes by a known score or is held; a return serves the tokens held
    (∀ h, let x := firingAt s 0x84 nf
      x.c = some c → portShape s n.r n.row n.col (memPort nf) = some h →
      (first 0x84 0 a → a.payload.getLsbD 511 = true →
        exec (.score nf) s = .next (s.fired s 0x84 nf [0] [(some a, none)])) ∧
      (∀ vs hash s1, first 0x84 0 a → a.payload.getLsbD 511 = false →
        scoreValues s (x.alone 0) (lanes64 a) c [5, 4, 3, 2, 1, 0] = .ok (vs, hash) s1 →
        let model : Word := (nf.imm.extractLsb' 6 12).zeroExtend 64
        let key := 1#64 <<< 63 ||| model <<< 48 ||| (hash &&& 0xFFFFFFFFFFFF)
        let keys := (s1.node n).keys
        let es := scoreProbe (s1.fab n.r) n h key
        let entry := es.find? fun e => e.2.1 == key
        (∀ o, scorePast es (·.2.1 == key) = some o →
          exec (.score nf) s = .next (parkFiring s x 0x64 (accInfo (x.alone 0) (BitVec.ofNat 64 o) 16 1) none)) ∧
        (scorePast es (·.2.1 == key) = none →
        (∀ e, entry = some e → exec (.score nf) s = .next (s.fired s1 0x84 nf [0]
          [(scored (selThr c) (e.2.2.extractLsb' 0 16) a, none)])) ∧
        (entry = none → (keys.map (·.held.length)).sum < 64 → keys.any (·.key == key) = true →
          exec (.score nf) s = .next (s.fired (s1.updNode n fun y => { y with keys := y.keys.map fun k =>
            if k.key == key then { k with held := k.held ++ [a] } else k }) 0x84 nf [0] [])) ∧
        (entry = none → (keys.map (·.held.length)).sum < 64 → keys.any (·.key == key) = false → keys.length < 32 →
          exec (.score nf) s = .next (s.fired (s1.updNode n fun y => { y with
            keys := y.keys ++ [⟨key, s1.fclock, selTimeout c, [a]⟩] }) 0x84 nf [0]
            [(none, some ((x.alone 0).result kDATA 8 0 (packLanes 64 ((key :: model :: vs).map (·.toNat)))))])))) ∧
      (first 0x84 1 a → (s.node n).keys.find? (·.key == a.payload.extractLsb' 0 64) = none →
        exec (.score nf) s = .next (s.fired s 0x84 nf [1] [])) ∧
      (∀ k e, first 0x84 1 a → (s.node n).keys.find? (·.key == a.payload.extractLsb' 0 64) = some k →
        scorePast (scoreProbe (s.fab n.r) n h (a.payload.extractLsb' 0 64)) (fun e => !e.2.1.getLsbD 63) = none →
        (scoreProbe (s.fab n.r) n h (a.payload.extractLsb' 0 64)).find? (fun e => !e.2.1.getLsbD 63) = some e →
        let key := a.payload.extractLsb' 0 64
        let sc : BitVec 16 := a.payload.extractLsb' 64 16
        let s1 := (s.updNode n fun y => { y with keys := y.keys.filter (·.key != key) }).updFab n.r fun f =>
          scrWrite (scrWrite f n.row n.col e.1 key.toNat 8) n.row n.col (e.1 + 8) sc.toNat 8
        let ts := k.held.filterMap (scored (selThr c) sc)
        exec (.score nf) s = .next (finishFire s1 x [1] (ts.map fun t => departures (s1.fab n.r) nf n.row n.col (some t) none)
          ts.head? 0))) ∧
    -- TERM
    ((firingAt s 0x85 nf).a = some a → (firingAt s 0x85 nf).b = some b → isData a 8 = true →
      let stamp := ((q.unsettled.find? (·.n == n.iter)).map (·.stamp)).getD q.wave
      let id := (q.deliveries.map (·.id)).foldl max 0 + 1
      exec (.term nf) s = .next (s.fired (s.updRules p fun q => { q with
        deliveries := q.deliveries ++ [⟨id, (n.row, n.col, n.slot), n.iter, lanes64 a, lanes64 b, stamp⟩] }) 0x85 nf [0] [])) ∧
    -- special kinds
    ((firingAt s 0x81 nf).ready = true → (∃ t ∈ (firingAt s 0x81 nf).toks, t.kind = kBUBBLE ∨ t.kind = kSTOP) →
      (∀ t ∈ (firingAt s 0x81 nf).toks, t.kind ≠ kERROR) → exec (.alpha nf) s = .next (s.fired s 0x81 nf all [])) ∧
    -- a key whose return does not come
    (∀ key k opc, (s.node n).keys.find? (·.key == key) = some k → fieldsAt s n.r n.row n.col n.slot = some (opc, nf) → opc = 0x84 →
      k.since.toNat + k.timeout ≤ s.fclock.toNat →
      let at_ : Site := match k.held.head? with | some t => { n with ctx := t.ctx, iter := t.iter } | none => n
      let s1 := noteFault (s.updNode n fun y => { y with keys := y.keys.filter (·.key != key) }) at_ 0x92
        { node := nodeBits opc nf, seq := (k.held.head?.map (·.seq)).getD 0, ops := k.held.take 1 }
      exec (.scoreTimeout n key) s = .next (s1.updRules (s1.ctl n.r).part fun q => { q with scoreTimeout := true }))

/-- A token hops one tile along its row first, is delivered at its destination's port or at the edge of the region, in the order of
its fc, and refills the matching store; one that fails its parity check on both sends but for the tag's group goes on as an ERROR.
The fabric's periodic events: quiescence completes a region with 1, a kill ends, a hang freezes the region, an error of its
configuration store has it read again (R20, R35 to R37, R39, R345 to R347, R362, R363, R390). The model's choices: a token that leaves at
an edge port always finds room (log 17), what the entry of a parity error says of its activation (log 64), and that a delivery which
would come out of its fc's order waits for a later turn (log 84). -/
def Obligations.TokensHopAndRegionsEnd : Prop :=
  ∀ (s : State) (r : RegionId),
    (∀ src t d row col row' col' dir, regionGoing s r = true → tokAt s r src = some (t, d, row, col) →
      nextHop row.toNat col.toNat d = some (row', col', dir) → insideCfg s r row' col' = true →
      linkCount (s.fab r) (BitVec.ofInt 5 row') (BitVec.ofInt 6 col') dir < 16 → isParked (s.fab r) t.ctx t.iter = false →
      -- one token each fc over a stream
      (streamUsed s r (BitVec.ofInt 5 row') (BitVec.ofInt 6 col') dir = true → exec (.tokenHop r src .clean) s = .next s) ∧
      (streamUsed s r (BitVec.ofInt 5 row') (BitVec.ofInt 6 col') dir = false →
        exec (.tokenHop r src .clean) s =
          .next ((removeTok (noteSent s r (BitVec.ofInt 5 row') (BitVec.ofInt 6 col') dir) r src).updFab r fun f =>
            { f with links := f.links ++ [⟨BitVec.ofInt 5 row', BitVec.ofInt 6 col', dir, d, t⟩] }))) ∧
    (∀ (row col : Int) (d : Dest), (col < d.col → nextHop row col d = some (row, col + 1, .w)) ∧
      (d.col < col → nextHop row col d = some (row, col - 1, .e)) ∧
      (col = d.col → row < d.row → nextHop row col d = some (row + 1, col, .n)) ∧
      (col = d.col → d.row < row → nextHop row col d = some (row - 1, col, .s)) ∧
      (col = d.col → row = d.row → nextHop row col d = none)) ∧
    (∀ src t d row col g, deliverable s r src = true → tokAt s r src = some (t, d, row, col) → (s.ctl r).cfg = some g →
      nextHop row.toNat col.toNat d = none → isDead (s.fab r) t.ctx t.iter = false → isParked (s.fab r) t.ctx t.iter = false →
      (∀ i, cmpMatches (s.dbg r) t i = false) → doneLid s r t = none → outOfTurn s r t src = false →
      (s.fab r).waiting.countP (fun w => !w.spilled && w.tok.drow == t.drow && w.tok.dcol == t.dcol) <
        msEntries t.drow.toNat t.dcol.toNat →
      exec (.tokenDeliver r src .clean) s = .next ((noteDel (removeTok s r src) r t src).updFab r fun f =>
        { f with waiting := f.waiting ++ [⟨false, s.fclock, 0, t⟩] })) ∧
    -- a delivery that would come before one that a later source has made to the port in the same fc waits
    (∀ src t d row col g par, deliverable s r src = true → tokAt s r src = some (t, d, row, col) → (s.ctl r).cfg = some g →
      nextHop row.toNat col.toNat d = none → outOfTurn s r t src = true → exec (.tokenDeliver r src par) s = .next s) ∧
    -- bits that both sends flip so that a group other than the tag's fails
    (∀ src t d row col row' col' dir par bad, regionGoing s r = true → tokAt s r src = some (t, d, row, col) →
      nextHop row.toNat col.toNat d = some (row', col', dir) → insideCfg s r row' col' = true →
      linkCount (s.fab r) (BitVec.ofInt 5 row') (BitVec.ofInt 6 col') dir < 16 →
      streamUsed s r (BitVec.ofInt 5 row') (BitVec.ofInt 6 col') dir = false → par.queue = 0 →
      (∀ u, checkOf t par.first ≠ .pass u) → checkOf t par.second = .tagged bad →
      let s1 := removeTok (parityFault (noteSent s r (BitVec.ofInt 5 row') (BitVec.ofInt 6 col') dir) r
        (BitVec.ofInt 5 row') (BitVec.ofInt 6 col') (some bad)) r src
      isParked (s1.fab r) bad.ctx bad.iter = false → exec (.tokenHop r src par) s = .next (s1.updFab r fun f =>
        { f with links := f.links ++ [⟨BitVec.ofInt 5 row', BitVec.ofInt 6 col', dir, d, bad.toError 0x80⟩] })) ∧
    -- bits that the queue it leaves has flipped: the tile of the queue finds them, and there is no second copy
    (∀ src t d row col row' col' dir par bad, regionGoing s r = true → tokAt s r src = some (t, d, row, col) →
      nextHop row.toNat col.toNat d = some (row', col', dir) → insideCfg s r row' col' = true →
      linkCount (s.fab r) (BitVec.ofInt 5 row') (BitVec.ofInt 6 col') dir < 16 →
      streamUsed s r (BitVec.ofInt 5 row') (BitVec.ofInt 6 col') dir = false → checkOf t par.queue = .tagged bad → par.first = 0 →
      let s1 := removeTok (noteSent (parityFault s r row col (some bad)) r (BitVec.ofInt 5 row') (BitVec.ofInt 6 col') dir) r src
      isParked (s1.fab r) bad.ctx bad.iter = false → exec (.tokenHop r src par) s = .next (s1.updFab r fun f =>
        { f with links := f.links ++ [⟨BitVec.ofInt 5 row', BitVec.ofInt 6 col', dir, d, bad.toError 0x80⟩] })) ∧
    (∀ src t d row col g row' col' dir side idx, regionGoing s r = true → tokAt s r src = some (t, d, row, col) →
      (s.ctl r).cfg = some g → nextHop row.toNat col.toNat d = some (row', col', dir) → insideCfg s r row' col' = false →
      edgePort g d = some (side, idx) →
      exec (.tokenDeliver r src .clean) s = .next ((removeTok s r src).updFab r fun f =>
        { f with edge := f.edge ++ [⟨side, idx, 0, t⟩] })) ∧
    (∀ k w, regionGoing s r = true → (s.fab r).waiting[k]? = some w →
      (s.fab r).waiting.countP (fun x => !x.spilled && (x.tok.drow == w.tok.drow && x.tok.dcol == w.tok.dcol)) <
        msEntries w.tok.drow.toNat w.tok.dcol.toNat →
      let here (x : WaitTok) : Bool := x.spilled && (x.tok.drow == w.tok.drow && x.tok.dcol == w.tok.dcol)
      let i := (s.fab r).waiting.findIdx here
      (∀ x, (s.fab r).waiting[i]? = some x → x.flips = 0 → exec (.sprueRefill r k) s = .next (s.updFab r fun f =>
        { f with waiting := f.waiting.modify i fun y => { y with spilled := false, tok := x.tok, flips := 0 } })) ∧
      ((∀ x ∈ (s.fab r).waiting, here x = false) → exec (.sprueRefill r k) s = .next s)) ∧
    -- quiescence takes effect once the fc in which it came is over
    ((s.ctl r).heldStore = none → (s.ctl r).killing = none → quiescent s r = true →
      ((s.ctl r).quietAt = none →
        exec (.regionQuiescence r) s = .next (s.updCtl r fun c => { c with quietAt := some s.fclock })) ∧
      (∀ t, (s.ctl r).quietAt = some t → t.toNat < s.fclock.toNat → exec (.regionQuiescence r) s = .next (finalStore s r 1))) ∧
    -- what a completion store waited for, and the last access of a kill
    (∀ v x, (s.ctl r).heldStore = some (v, 0, x) → exec (.regionQuiescence r) s = .next (finalStore s r v)) ∧
    ((s.ctl r).heldStore = none → (s.ctl r).killing ≠ none → exec (.regionQuiescence r) s = .next (killDone s r)) ∧
    -- a region that holds a token and does nothing for the interval, or whose replay uses no entry for it, freezes
    (let past (t : Word) : Prop := t.toNat + 2 ^ max 10 (s.syscfg.extractLsb' 10 5).toNat ≤ s.fclock.toNat
      ∀ va s1, regionGoing s r = true →
        (heldTokens (s.fab r) ≠ 0 ∧ past (s.ctl r).lastFire) ∨ ((s.dbg r).replay ≠ none ∧ past (s.dbg r).replayAt) →
        writeHangMap s r = .ok va s1 → exec (.hangTimeout r) s = .next (freeze s1 r 0x84 va)) ∧
    (∀ (t : TileAt) (g : Cfg), t.r = r → (s.ctl r).st = .running → (s.ctl r).power = 0 → (s.ctl r).cfg = some g →
      let d := dieOfRegion r
      let at_ := dieTile (s.ctl r) t.row t.col
      let noted (u : State) : State := u.updDie d fun x => { x with
        ueLast := (at_.1, at_.2, u.fclock) :: x.ueLast.filter fun e => !(e.1 == at_.1 && e.2.1 == at_.2) }
      let again := (s.die d).ueLast.any fun e => e.1 == at_.1 && e.2.1 == at_.2 && s.fclock.toNat ≤ e.2.2.toNat + 2 ^ 26
      let gives (m : MRes Bool) : Prop :=
        again = false ∧ reread s (hubCtx (s.ctl r).part (s.ctl r).cwLvl) (s.ctl r).imageVA (s.ctl r).cfgIdx g.rsig = m
      (∀ s1, gives (.ok true s1) → exec (.cfgStoreUe t) s = .next (noted s1)) ∧
      (∀ s1, gives (.ok false s1) → exec (.cfgStoreUe t) s = .next (freeze (noted s1) r 0x85 0)) ∧
      (again = true → exec (.cfgStoreUe t) s = .next (freeze (noted s) r 0x85 0)))

/-- The directory, translations, agents and the fault queue: what a request, a walk, a merge, a recall past its time and a death leave
(R85, R90 to R92, R99, R332, R336). That a request waits behind another agent's unanswered recall, and that one for the data of a
poisoned or altered line gets no copy and leaves no record, are the model's choices (log 66). -/
def Obligations.MemoryAgentsAndTheFaultQueue : Prop :=
  ∀ (s s1 : State) (g : Agent) (p : PartId) (va : Word) (acc : Access) (lvl : Level) (x : Xl),
    (translate s ⟨some p, g, lvl, none, false, false, [], mtCache g 1 1⟩ acc va = .ok x s1 → exec (.pageWalk g p va acc lvl) s = .next s1) ∧
    (∀ (line : Nat) (req : HomeReq), line * 128 < peerBase → g ≠ .hub →
      let pa := line * 128
      let logs (code : BitVec 8) : Prop := exec (.homeRequest g line req) s =
        .next (s.updPorts fun h => { h with rasLog := h.rasLog ++ [⟨code, BitVec.ofNat 64 pa⟩] })
      (req.incarnation ≠ incarnationOf s.ms g → logs 0x70) ∧
      -- a request under an erased key; one for the data of a line that cannot be read gets no copy
      (req.incarnation = incarnationOf s.ms g → (s.part req.part).keyed = false → logs 0xA5) ∧
      (∀ code, req.incarnation = incarnationOf s.ms g → (s.part req.part).keyed = true → req.kind = .read ∨ req.kind = .write →
        lineFault s (hubCtx req.part .s) [line] = some code → exec (.homeRequest g line req) s = .next s) ∧
      (req.incarnation = incarnationOf s.ms g → (s.part req.part).keyed = true →
        (req.kind = .read ∨ req.kind = .write → lineFault s (hubCtx req.part .s) [line] = none) →
        (s.ms.locks.any (·.1 = line) = false → (∀ x ∈ s.ms.recalls, x.2.1 = line → x.1 = g) →
          exec (.homeRequest g line req) s = .next (match req.kind with
            | .read => s.updMs (dirRead (some g) pa s.fclock)
            | .write => s.updMs (dirWrite (some g) pa s.fclock)
            | .evict => evictLine s g line
            | .capacity => s.updMs fun ms => { ms with dir := ms.dir.filter fun e => !dirCovers e pa }
            | .recall => if holdsLine s.ms g pa = true ∧ (∀ x ∈ s.ms.recalls, x.1 = g → x.2.1 ≠ line) then
                s.updMs fun ms => { ms with recalls := ms.recalls ++ [(g, line, s.fclock)] } else s)) ∧
        -- a request for a line under a lock waits
        (s.ms.locks.any (·.1 = line) = true → req.kind ≠ .recall → exec (.homeRequest g line req) s = .next s))) ∧
    (∀ (base size : Nat) (l h : DirEntry) (st : DirState), size ∈ (List.range 9).map (fun k => 128 * 2 ^ k) → base % (2 * size) = 0 →
      s.ms.dir.find? (fun e => decide (e.base = base) && decide (e.size = size)) = some l →
      s.ms.dir.find? (fun e => decide (e.base = base + size) && decide (e.size = size)) = some h →
      l.since.toNat + 2 ^ (s.syscfg.extractLsb' 0 5).toNat ≤ s.fclock.toNat →
      h.since.toNat + 2 ^ (s.syscfg.extractLsb' 0 5).toNat ≤ s.fclock.toNat →
      mergeStates (some l.st) (some h.st) = some st →
      exec (.directoryMerge base size) s = .next (s.updMs fun ms => { ms with
        dir := ⟨base, 2 * size, st, BitVec.ofNat 64 (max l.since.toNat h.since.toNat)⟩ ::
          ms.dir.filter fun e => !rangesMeet e.base e.size base (2 * size) })) ∧
    (∀ line t, (g, line, t) ∈ s.ms.recalls → t.toNat + 2 ^ (s.syscfg.extractLsb' 5 5).toNat ≤ s.fclock.toNat →
      exec (.recallTimeout g) s = .next (agentDead s g)) ∧
    ((∀ x ∈ s.ms.recalls, x.1 = g → s.fclock.toNat < x.2.2.toNat + 2 ^ (s.syscfg.extractLsb' 5 5).toNat) →
      exec (.recallTimeout g) s = .next s) ∧
    (g ≠ .hub → exec (.agentDeath g) s = .next (agentDead s g)) ∧
    (s.ms.mwcas = [] → let t := agentDead s g
      incarnationOf t.ms g = incarnationOf s.ms g + 1 ∧ (∀ e ∈ t.ms.dir, e.st ≠ .ow g) ∧ (∀ e ∈ t.ms.tlb, e.agent ≠ g) ∧
        t.ms.mem = s.ms.mem) ∧
    ((s.part p).st = .running → exec (.partitionMcheckStop p) s = .next (mcheckStop s p)) ∧
    (∀ id ws rest, (s.part p).deferred = (id, ws) :: rest → pfqWrite s p id ws = (.done, s1) →
      exec (.pfqDeferredWrite p) s = .next (s1.updPart p fun q => { q with deferred := rest })) ∧
    -- an entry that finds no room is dropped and counted, and one that is kept waits
    (pfqRoom (s.part p) = false → ∀ id ws, ws.length ≠ 1 → pfqWrite s p id ws = (.full, s))

/-- Power states and the debug unit's writes: idle regions enter the state their partition tolerates and wake from it, free clusters
enter W3, clusters slow down and cool, droop is counted; a precise stop completes, DBGLIST writes its records, trace records are written or dropped (R356,
R374 to R377, R382 to R384). The model's choices: a THERMAL pending earlier is kept (log 55), the idle interval begins at an IDLE_ENTRY (log
56), at which the free clusters of the die fall asleep too (log 85), and DBGLIST's stores are made at S level (log 8). -/
def Obligations.PowerAndDebugEventsAct : Prop :=
  ∀ (s s1 : State) (r : RegionId) (d : DieId) (cl : BitVec 7) (p : PartId),
    let c := s.ctl r
    -- the free clusters of the die whose interval is over sleep, whatever the region does
    let z := s.updDie (dieOfRegion r) fun x => { x with
      asleep := (freeClusters s (dieOfRegion r)).filter fun k => x.asleep.contains k ||
        decide ((freeSince s (dieOfRegion r) k).toNat + 2 ^ (s.syscfg.extractLsb' 21 5).toNat ≤ s.fclock.toNat) }
    (regionIdle s r = false ∨ c.power ≠ 0 → exec (.idleEntry r) s = .next z) ∧
    (regionIdle s r = true → c.power = 0 → c.idleSince = none →
      exec (.idleEntry r) s = .next (z.updCtl r fun c => { c with idleSince := some s.fclock })) ∧
    (∀ t, regionIdle s r = true → c.power = 0 → c.idleSince = some t →
      t.toNat + 2 ^ (s.syscfg.extractLsb' 21 5).toNat ≤ s.fclock.toNat → powerTarget s r < 3 →
      exec (.idleEntry r) s = .next (z.updCtl r fun c => { c with power := powerTarget s r })) ∧
    (∀ t, regionIdle s r = true → c.power = 0 → c.idleSince = some t →
      t.toNat + 2 ^ (s.syscfg.extractLsb' 21 5).toNat ≤ s.fclock.toNat → powerTarget s r = 3 →
      exec (.idleEntry r) s = .next (enterW3 z r)) ∧
    (c.power ≠ 0 → c.power < 3 →
      exec (.regionWake r) s = .next (s.updCtl r fun c => { c with power := 0, idleSince := some s.fclock })) ∧
    (dieW4Ready s d = true → exec (.dieW4Entry d) s = .next (s.updDie d fun x => { x with w4 := true })) ∧
    (cl.toNat ≤ 98 → cl ∉ (s.die d).limited → exec (.thermalLimit d cl) s =
      .next ((clusterOwners s d cl).foldl (fun s p => s.updPart p fun q =>
        { q with thermal := q.thermal.orElse fun _ => some (d ++ 0#1 ++ cl) })
        (s.updDie d fun x => { x with limited := cl :: x.limited }))) ∧
    (exec (.thermalCool d cl) s = .next (s.updDie d fun x => { x with limited := x.limited.filter (· != cl) })) ∧
    (cl.toNat ≤ 98 → exec (.droopEvent d cl) s = .next (s.updDie d fun x => { x with droop := bumpDroop x.droop cl })) ∧
    ((s.dbg r).stop = .stopping → (∀ l ∈ (s.fab r).links, nextHop l.row.toNat l.col.toNat l.dest ≠ none) →
      (s.fab r).accs.all (stuckAcc s (s.fab r)) = true →
      exec (.preciseStopComplete r) s = .next (trace (s.updDbg r fun d => { d with stop := .stopped }) r 0 0 0 0 0 6 0 none)) ∧
    ((s.dbg r).listing = true →
      let all := (sortBy (fun a b => keyLe (listKey a.2) (listKey b.2)) (listTokens (s.fab r))).map listRecord
      let cap := 128 * (((s.dbg r).fglist.extractLsb' 1 11).toNat + 1)
      ∀ n err, writeRecords s (hubCtx c.part .s) ((s.dbg r).fglist &&& 0x000FFFFFFFFFF000) 0 (all.take cap) = .ok (n, err) s1 →
        exec (.dbglistComplete r) s = .next (s1.updDbg r fun d => { d with
          listing := false, listDone := true, listErr := d.listErr || err, listOvf := decide (cap < all.length), listCount := BitVec.ofNat 32 n })) ∧
    (∀ t ws rest, (s.part p).traceq = (t, ws) :: rest →
      let took := s.updPart p fun q => { q with traceq := rest }
      let q := s.part p
      let idx := (q.fgtrcnt.extractLsb' 0 40).toNat
      (s.fclock.toNat ≤ t.toNat + 64 → traceOn q = true →
        storeWords took p ((q.fgtrace &&& 0x000FFFFFFFFFF000) +
          BitVec.ofNat 64 (32 * (idx % 2 ^ (q.fgtrace.extractLsb' 1 5).toNat))) ws = .ok none s1 →
        exec (.traceRecordWrite p) s = .next (s1.updPart p fun q => { q with
          fgtrcnt := (q.fgtrcnt &&& 0xFFFFFF0000000000) ||| BitVec.ofNat 64 ((idx + 1) % 2 ^ 40) })) ∧
      (t.toNat + 64 < s.fclock.toNat → exec (.traceRecordDrop p) s =
        .next (s.updPart p fun q => dropCount { q with traceq := rest })))

/-- A request of the host to a virtual function: DOORBELL and WINBASE act, the window reads and writes memory at U level, a fault
completes poisoned, and a request that is not served is Unsupported; TDISP moves its interface through its states (R193, R395, R396,
R399). What is served, the codes of the answers, and when a write that waits is tried again are logs 20, 33 and 34. -/
def Obligations.HostRequestsAreServed : Prop :=
  ∀ (s s1 : State) (p : PartId) (q : HostReq) (bs : List Byte),
    let size := hostReqSize q
    let off := q.off.toNat
    let va := (s.part p).winbase + (q.off.zeroExtend 64 - 0x1000)
    (vfServed s p true = true → winWaiting s p = [] →
      exec (.doorbell p) s = .next (toHost (s.updPart p fun q => { q with hostEvent := true }) (.done p))) ∧
    -- behind a window write that a lock holds back a doorbell waits too
    (∀ va' bs' rest, vfServed s p true = true → winWaiting s p = (va', bs') :: rest → bs' ≠ [] →
      storeBytes s (hubCtx p .u) va' bs'.length bs' = .wait →
      exec (.doorbell p) s = .next (setWinQueue s p ((va', bs') :: rest ++ [(0, [])]))) ∧
    (vfServed s p true = false → exec (.doorbell p) s = .next (toHost s (.unsupported p))) ∧
    (vfServed s p q.ide = false → stateRead s p q = false →
      exec (.hostWindowAccess p q) s = .next (toHost s (.unsupported p))) ∧
    (4096 < off % 4096 + size → exec (.hostWindowAccess p q) s = .next (toHost s (.unsupported p))) ∧
    (vfServed s p q.ide = true → off % 4096 + size ≤ 4096 →
      (0x1000 ≤ off → q.write = true → winWaiting s p = [] → q.data ≠ [] →
        (storeBytes s (hubCtx p .u) va q.data.length q.data = .ok none s1 →
          exec (.hostWindowAccess p q) s = .next (setWinQueue (toHost s1 (.done p)) p [])) ∧
        (∀ c v, storeBytes s (hubCtx p .u) va q.data.length q.data = .trap c v ∨
            storeBytes s (hubCtx p .u) va q.data.length q.data = .ok (some (c, v)) s1 →
          exec (.hostWindowAccess p q) s = .next (toHost s (.poisoned p))) ∧
        (storeBytes s (hubCtx p .u) va q.data.length q.data = .wait →
          exec (.hostWindowAccess p q) s = .next (setWinQueue s p [(va, q.data)]))) ∧
      (0x1000 ≤ off → q.write = false → winWaiting s p = [] → loadBytes s (hubCtx p .u) va q.len.toNat = .ok bs s1 →
        exec (.hostWindowAccess p q) s = .next (toHost s1 (.data p bs))) ∧
      (∀ c v, 0x1000 ≤ off → q.write = false → winWaiting s p = [] → loadBytes s (hubCtx p .u) va q.len.toNat = .trap c v →
        exec (.hostWindowAccess p q) s = .next (toHost s (.poisoned p))) ∧
      (off = 8 → q.write = true → q.data = bs → bs.length = 8 →
        ∃ t, exec (.hostWindowAccess p q) s = .next t ∧
          (t.part p).winbase = BitVec.ofNat 64 (bs.foldr (fun b n => b.toNat + 256 * n) 0) &&& 0x000FFFFFFFFFF000) ∧
      (off = 8 → q.write = false → q.len = 8 → exec (.hostWindowAccess p q) s = .next (toHost (s.useFresh 4096)
        (.data p ((List.range 8).map fun k => BitVec.ofNat 8 ((s.part p).winbase.toNat / 256 ^ k)))))) ∧
    (fnExists s (.vf p) = true → sessionUp s (.vf p) = true →
      let moves (m : TdispMsg) (from_ to_ : TdispState) : Prop := (s.part p).tdisp = from_ →
        ∃ t, exec (.tdispMessage p m) s = .next t ∧ (t.part p).tdisp = to_
      moves .lock .unlocked .locked ∧ moves .start .locked .run ∧ moves .stop .run .unlocked ∧ moves .stop .locked .unlocked ∧
        moves .getState (s.part p).tdisp (s.part p).tdisp ∧
        (∀ slot root, ∃ t, exec (.tdispMessage p (.fillKey slot root)) s = .next t ∧
          (t.part p).keySlots = (slot, root) :: (s.part p).keySlots.filter (·.1 != slot)))

/-- The security processor answers a function that exists: signed answers use the next one-time key, and past the last key there is
only ERROR; a session begins with KEY_EXCHANGE and FINISH, and ends (R397, R398, R402). The response codes and which answers are signed
are log 35. -/
def Obligations.TheSecurityProcessorAnswers : Prop :=
  ∀ (s : State) (fn : SpdmFn) (req : List Byte), fnExists s fn = true →
    let answers (i : Instr) (s1 : State) (code : BitVec 8) : Prop :=
      exec i s = .next (respond (s1.useFresh 8) ⟨fn, code, false, none, freeReply s1⟩)
    let next := s.updPorts fun h => { h with sigIndex := s.ports.sigIndex + 1 }
    let signs (i : Instr) (code : BitVec 8) (data : List Word) : Prop :=
      (s.ports.sigIndex < 2 ^ 20 →
        exec i s = .next (respond (next.useFresh 8) ⟨fn, code, false, some s.ports.sigIndex, data⟩)) ∧
      (2 ^ 20 ≤ s.ports.sigIndex → exec i s = .next (respond s ⟨fn, 0x7F, true, none, []⟩))
    answers (.getVersion fn req) s 0x04 ∧ answers (.getCapabilities fn req) s 0x61 ∧
    answers (.negotiateAlgorithms fn req) s 0x63 ∧ answers (.getDigests fn req) s 0x01 ∧ answers (.getCertificate fn req) s 0x02 ∧
    signs (.challenge fn req) 0x03 (freeReply s) ∧
    ((req.getD 2 0).getLsbD 0 = true → signs (.getMeasurements fn req) 0x60 (measuredOf s fn)) ∧
    ((req.getD 2 0).getLsbD 0 = false →
      exec (.getMeasurements fn req) s = .next (respond s ⟨fn, 0x60, false, none, measuredOf s fn⟩)) ∧
    (sessionGen s fn = none → s.ports.sigIndex < 2 ^ 20 → ∃ t, exec (.keyExchange fn req) s = .next t ∧
      sessionGen t fn = some 0 ∧ t.ports.sigIndex = s.ports.sigIndex + 1) ∧
    (sessionGen s fn ≠ none → exec (.keyExchange fn req) s = .next (respond s ⟨fn, 0x7F, true, none, []⟩)) ∧
    (sessionGen s fn = some 0 → answers (.finish fn req) (setSession s fn (some 1)) 0x65) ∧
    (sessionUp s fn = true → answers (.endSession fn req) (setSession s fn none) 0x6C) ∧
    (∀ g, sessionGen s fn = some (g + 1) → answers (.keyUpdate (.session fn)) (setSession s fn (some (g + 2))) 0x69)

/-- A link takes flits in the order of their SEQ under the key of the pair that sends: a flit whose check fails is counted and asked
for again, one out of order is left, one that fails authentication is logged and marks what it fails, and a request of a partition
whose key is erased is logged; any other request is served and answered by a response, data of a collective wait for it;
what this device sends has the next SEQ of its pair, a nonce that names the pair and the direction, and stays in the replay buffer of
64; no key serves SEQ 2^48 − 1; a key update starts SEQ again; a link goes down and retrains (R401, R404, R405). That a flit failing
authentication advances SEQ, that the replays are counted by failures, that a KEY_UPDATE renews both directions while a retrained
link keeps its SEQ, and the bodies of a request and its response, are the model's choices (log 38). -/
def Obligations.LinksTakeFlitsInOrder : Prop :=
  ∀ (s s1 : State) (l : BitVec 4) (f : Flit) (bs : List Byte) (c : BitVec 8) (va : Word),
    let k := linkOf s l
    let e := keyOf k.keys f.src f.dst
    let took (t : State) : State := updLink t l fun k => { k with keys := setKey { e with seq := e.seq + 1 } k.keys, fails := 0 }
    let gives (t : State) : Prop := exec (.flitReceive l f) s = .next t
    let logs (t : State) (code : BitVec 8) (info : Word) : State := t.updPorts fun h => { h with rasLog := h.rasLog ++ [⟨code, info⟩] }
    let inOrder : Prop := k.down = false ∧ f.lcrcOk = true ∧ f.seq = e.seq ∧ e.seq.toNat ≠ 2 ^ 48 - 1
    -- data of a collective wait for it; a request is served and answered by a response
    (inOrder → f.atagOk = true → f.typ = 3 → gives ((took s).updPorts fun h => { h with flitsIn := h.flitsIn ++ [(l, f)] })) ∧
    (inOrder → f.atagOk = true → f.typ = 1 → (s.part f.dst).keyed = true →
      (servePeer s f = .ok bs s1 → gives (peerReply (took s1) l f bs)) ∧
      (servePeer s f = .trap c va → gives (peerReply (took s) l f [c])) ∧ (servePeer s f = .wait → gives s)) ∧
    (∀ (t : State) (dev : BitVec 16),
      ((List.range 192).find? fun w => (t.pwinOf w).getLsbD 63 && winLink (t.pwinOf w) == l).map (fun w => winDev (t.pwinOf w)) = some dev →
      peerReply t l f bs = t.updMs fun ms => { ms with net := ms.net.send l dev f.dst f.src 2 bs }) ∧
    (inOrder → f.atagOk = true → f.typ = 0 ∨ f.typ = 2 → gives (took s)) ∧
    (inOrder → f.atagOk = true → f.typ = 1 → (s.part f.dst).keyed = false → gives (logs (took s) 0xA5 (f.dst.zeroExtend 64))) ∧
    -- a flit that fails authentication fails what its partition has outstanding over the link
    (inOrder → f.atagOk = false → gives (logs (updLink (took s) l fun k => { k with authFail := authMark f k.authFail })
      0xA4 (l.zeroExtend 64)) ∧ ∀ a, a ≠ .other → (f.typ = 3 ∧ a = .coll ∨ f.typ = 2 ∧ a = f.answers) →
        (f.dst, a) ∈ authMark f k.authFail) ∧
    (k.down = false → f.lcrcOk = false → k.fails < 16 → gives (updLink s l fun k => { k with fails := k.fails + 1 })) ∧
    (k.down = false → f.lcrcOk = false → 16 ≤ k.fails → gives (linkGoesDown s l)) ∧
    (k.down = false → f.lcrcOk = true → f.seq ≠ e.seq ∨ e.seq.toNat = 2 ^ 48 - 1 → gives s) ∧
    (k.down = true → gives s) ∧
    (∀ (t : Net) dev src dst typ data,
      let x := keyOf (t.link l).tx src dst
      let u := t.send l dev src dst typ data
      let sent : SentFlit → Prop := fun y => y.src = src ∧ y.dst = dst ∧ y.typ = typ ∧ y.data = data ∧
        y.nonce = y.seq ++ src ++ dst ++ 0#7 ++ BitVec.ofBool (dev.toNat < t.devnum.toNat) ++ 0#32
      (x.seq.toNat < 2 ^ 48 - 2 → keyOf (u.link l).tx src dst = { x with seq := x.seq + 1 } ∧
        ∃ y, (u.link l).replay.getLast? = some y ∧ y.seq = x.seq ∧ sent y) ∧
      (x.seq.toNat = 2 ^ 48 - 2 → keyOf (u.link l).tx src dst = { x with seq := 1, gen := x.gen + 1 } ∧
        ∃ y, (u.link l).replay.getLast? = some y ∧ y.seq = 0 ∧ sent y) ∧
      (∀ a b, (a, b) ≠ (src, dst) → keyOf (u.link l).tx a b = keyOf (t.link l).tx a b) ∧
      ((t.link l).replay.length ≤ 64 → (u.link l).replay.length ≤ 64)) ∧
    (∀ src dst, ∃ t, exec (.keyUpdate (.link l src dst)) s = .next t ∧
      keyOf (linkOf t l).keys src dst = ⟨src, dst, 0, (keyOf k.keys src dst).gen + 1⟩ ∧
      keyOf (linkOf t l).tx src dst = ⟨src, dst, 0, (keyOf k.tx src dst).gen + 1⟩) ∧
    (k.down = false → exec (.linkDown l) s = .next (linkGoesDown s l)) ∧
    (exec (.linkRetrain l) s = .next (updLink s l fun k => { k with down := false, fails := 0 }))

/-- The storage device reads and writes its owner's grant and nothing else; at power-on the firmware is verified, the columns retire
and the monitor starts at H; a partition is created over cores and frames that no other holds, starts at S at its entry, and leaves
nothing assigned when it is destroyed (R24, R348, R394, R401, R402). What verification finds, and the monitor's entry, are free values,
log 37. -/
def Obligations.StoragePowerOnAndPartitions : Prop :=
  ∀ (s s1 : State) (p : PartId) (q : DmaReq) (g : PartCfg) (bs : List Byte) (c : CoreId),
    let inside := granted (s.part p) q.pa.toNat (dmaReqSize q) = true ∧ (s.part p).keyed = true ∧
      q.pa.toNat + dmaReqSize q ≤ peerBase
    (storageOwner s = none → exec (.storageDma q) s = .next (toDevice s .unsupported)) ∧
    (storageOwner s = some p → ¬inside → (s.part p).keyed = true → exec (.storageDma q) s = .next (toDevice s .unsupported)) ∧
    (storageOwner s = some p → (s.part p).keyed = false → exec (.storageDma q) s =
      .next (toDevice (s.updPorts fun h => { h with rasLog := h.rasLog ++ [⟨0xA5, BitVec.ofNat 64 q.pa.toNat⟩] }) .unsupported)) ∧
    (storageOwner s = some p → inside → q.write = true → writePhys s (hubCtx p .h) q.pa.toNat q.data.length q.data = .ok () s1 →
      exec (.storageDma q) s = .next (toDevice s1 .done)) ∧
    (storageOwner s = some p → inside → q.write = false → readPhys s (hubCtx p .h) q.pa.toNat q.len.toNat = .ok bs s1 →
      exec (.storageDma q) s = .next (toDevice s1 (.data bs))) ∧
    (s.booted = false →
      let m := extendFree s s.ports.measured
      let w := Config.freeWord s.fresh
      let up : State := { s with booted := true, fresh := s.fresh + 32 }
      let whole : State := { up with dies := up.dies.map retireColumn }
      exec .deviceBoot s = .next (if Config.firmwareGenuine s.fresh = false then haltAll up
        else if Config.monitorGenuine s.fresh = false then haltAll whole
        else ((whole.updPorts fun h => { h with measured := m }).updMs fun ms =>
          { ms with net := { ms.net with devnum := w.extractLsb' 0 16 } }).updCore (.sy 0) (monitorCore w))) ∧
    -- a device that bring-up has held creates no partition
    (s.heldUp = true → exec (.partitionCreate p g) s = .next s) ∧
    (mayCreate s p g = true → g.verified = true → firstSy g = some c → ∃ t, exec (.partitionCreate p g) s = .next t ∧
      (t.part p).st = .running ∧ (t.part p).ptroot = ptrootBits g.ptroot ∧
      (t.part p).grant = g.grant.map (fun x => (x.1.toNat, x.2.toNat)) ∧
      (t.core c).pc = g.entry &&& ~~~3#64 ∧ (t.core c).run = .running ∧ (t.core c).level = .s ∧
      (∀ d ∈ cfgCores g, (t.core d).part = some p)) ∧
    (mayCreate s p g = true → g.verified = false → exec (.partitionCreate p g) s = .next (haltAll s)) ∧
    ((s.part p).st ≠ .absent → ∃ t, exec (.partitionDestroy p) s = .next t ∧ t.part p = Partition.reset ∧
      (∀ d ∈ coresOf s p, (t.core d).part = none ∧ (t.core d).run = .halted) ∧ sessionGen t (.vf p) = none)

/-- The machine after reset: the values that the tables give, nothing pending, no partition, every core held, every region free, and a
memory in its canonical form (Tables 1-7, 3-5, 3-7, 5-8, 9-9, 21-3, 21-7, 21-9, 24-3, 25-2, 26-3). The values where the tables have a
dash are log 3; that memory which nothing has written reads 0, so that the list is empty, is log 4. Both are the model's choices. -/
def Obligations.ResetLeavesTheTabledValues : Prop :=
  let s := State.reset
  Memory.wf s.ms.mem = true ∧ s.ms.mem = [] ∧ s.fclock = 0 ∧ s.ops = [] ∧ s.ports.stgown = 0 ∧
  s.syscfg.extractLsb' 0 5 = 20 ∧ s.syscfg.extractLsb' 5 5 = 14 ∧ s.syscfg.extractLsb' 10 5 = 24 ∧ s.syscfg.extractLsb' 15 5 = 16 ∧
  s.syscfg.extractLsb' 21 5 = 14 ∧
  (∀ c, (s.core c).fcsr = 0 ∧ (s.core c).sigctl = 0 ∧ (s.core c).run = .held ∧ (s.core c).ts.status = 0 ∧ (s.core c).th.status = 0 ∧
    (s.core c).pend = 0 ∧ (s.core c).part = none ∧ (s.core c).dbgc = 0 ∧ (s.core c).timecmp = 0 ∧ s.pcsAligned) ∧
  (∀ p, (s.part p).st = .absent ∧ (s.part p).ptroot.getLsbD 0 = false ∧ (s.part p).pfqsize = 6 ∧ (s.part p).pfqbase.getLsbD 0 = false ∧
    (s.part p).fgtrace.extractLsb' 1 5 = 7 ∧ (s.part p).lattol = 0 ∧ (s.part p).rules.rmcfg = 0) ∧
  (∀ r, (s.ctl r).st = .free ∧ (s.ctl r).sigctl = 0 ∧ (s.ctl r).ctxwait = 0x10000 ∧ (s.dbg r).listDone = true) ∧
  (∀ d, (s.die d).retcol = 0xFF ∧ (s.die d).w4 = false)

/-- Every step of every agent keeps the memory in its canonical form: addresses rising, and no entry equal to what an unlisted
address reads as. It keeps the pc of every core, its trap vectors and its saved pcs those of whole words (R138). -/
def Obligations.EveryStepKeepsTheMemoryCanonical : Prop :=
  ∀ s t : State, step s = .next t →
    (Memory.wf s.ms.mem = true → Memory.wf t.ms.mem = true) ∧ (s.pcsAligned → t.pcsAligned)

/-- A firing is its region's own: with no merge-order log, no fault queue enabled and no operand whose
bits storage has flipped, the nodes named leave every core, die and operation
under way, the ports, every byte of memory, every other region and every other partition as they were (R34, R202). -/
def Obligations.AFiringLeavesTheRestAlone : Prop :=
  ∀ (s t : State) (nf : NodeFields) (i : Instr), i ∈ ([
      .vadd nf, .vsub nf, .vmul nf, .vfma nf, .vmin nf, .vmax nf, .vabs nf, .vneg nf, .vdiv nf, .vsqrt nf, .viadd nf, .visub nf,
      .vimul nf, .vand nf, .vor nf, .vxor nf, .vshl nf, .vshr nf, .dup nf, .stopg nf, .delay nf, .cleave nf, .cjoin nf]
      : List Instr) →
    flipped s s.site [0, 1, 2, 3] = false →
    (s.ctl s.site.r).cfg.all (fun g => !g.flags.getLsbD 2) = true → (s.part (s.ctl s.site.r).part).pfqbase.getLsbD 0 = false →
    exec i s = .next t →
    t.sq = s.sq ∧ t.sy = s.sy ∧ t.dies = s.dies ∧ t.ops = s.ops ∧ t.ports = s.ports ∧ t.ms.mem = s.ms.mem ∧
      (∀ r, r ≠ s.site.r → t.region r = s.region r) ∧ (∀ p, p ≠ (s.ctl s.site.r).part → t.part p = s.part p)
end

