-- ==== Sys2Proof/Laws/State.lean ====
section
/-!
SUPPORT. Reading State after an update: one lemma per field per update, and reading the indexed parts back.
-/

namespace Sys2Proof.Machine

open Sys2Proof

variable (s : State)

/-! ### updPart -/

@[simp] theorem State.agenda_updPart (p : PartId) (f : Partition → Partition) : (s.updPart p f).agenda = s.agenda := rfl
@[simp] theorem State.cur_updPart (p : PartId) (f : Partition → Partition) : (s.updPart p f).cur = s.cur := rfl
@[simp] theorem State.site_updPart (p : PartId) (f : Partition → Partition) : (s.updPart p f).site = s.site := rfl
@[simp] theorem State.fresh_updPart (p : PartId) (f : Partition → Partition) : (s.updPart p f).fresh = s.fresh := rfl
@[simp] theorem State.booted_updPart (p : PartId) (f : Partition → Partition) : (s.updPart p f).booted = s.booted := rfl
@[simp] theorem State.heldUp_updPart (p : PartId) (f : Partition → Partition) : (s.updPart p f).heldUp = s.heldUp := rfl
@[simp] theorem State.fclock_updPart (p : PartId) (f : Partition → Partition) : (s.updPart p f).fclock = s.fclock := rfl
@[simp] theorem State.syscfg_updPart (p : PartId) (f : Partition → Partition) : (s.updPart p f).syscfg = s.syscfg := rfl
@[simp] theorem State.sq_updPart (p : PartId) (f : Partition → Partition) : (s.updPart p f).sq = s.sq := rfl
@[simp] theorem State.sy_updPart (p : PartId) (f : Partition → Partition) : (s.updPart p f).sy = s.sy := rfl
@[simp] theorem State.regions_updPart (p : PartId) (f : Partition → Partition) : (s.updPart p f).regions = s.regions := rfl
@[simp] theorem State.dies_updPart (p : PartId) (f : Partition → Partition) : (s.updPart p f).dies = s.dies := rfl
@[simp] theorem State.ms_updPart (p : PartId) (f : Partition → Partition) : (s.updPart p f).ms = s.ms := rfl
@[simp] theorem State.ops_updPart (p : PartId) (f : Partition → Partition) : (s.updPart p f).ops = s.ops := rfl
@[simp] theorem State.nextOp_updPart (p : PartId) (f : Partition → Partition) : (s.updPart p f).nextOp = s.nextOp := rfl
@[simp] theorem State.nextFault_updPart (p : PartId) (f : Partition → Partition) : (s.updPart p f).nextFault = s.nextFault := rfl
@[simp] theorem State.ports_updPart (p : PartId) (f : Partition → Partition) : (s.updPart p f).ports = s.ports := rfl
@[simp] theorem State.saves_updPart (p : PartId) (f : Partition → Partition) : (s.updPart p f).saves = s.saves := rfl

/-! ### updRegion -/

@[simp] theorem State.agenda_updRegion (r : RegionId) (f : Region → Region) : (s.updRegion r f).agenda = s.agenda := rfl
@[simp] theorem State.cur_updRegion (r : RegionId) (f : Region → Region) : (s.updRegion r f).cur = s.cur := rfl
@[simp] theorem State.site_updRegion (r : RegionId) (f : Region → Region) : (s.updRegion r f).site = s.site := rfl
@[simp] theorem State.fresh_updRegion (r : RegionId) (f : Region → Region) : (s.updRegion r f).fresh = s.fresh := rfl
@[simp] theorem State.booted_updRegion (r : RegionId) (f : Region → Region) : (s.updRegion r f).booted = s.booted := rfl
@[simp] theorem State.heldUp_updRegion (r : RegionId) (f : Region → Region) : (s.updRegion r f).heldUp = s.heldUp := rfl
@[simp] theorem State.fclock_updRegion (r : RegionId) (f : Region → Region) : (s.updRegion r f).fclock = s.fclock := rfl
@[simp] theorem State.syscfg_updRegion (r : RegionId) (f : Region → Region) : (s.updRegion r f).syscfg = s.syscfg := rfl
@[simp] theorem State.sq_updRegion (r : RegionId) (f : Region → Region) : (s.updRegion r f).sq = s.sq := rfl
@[simp] theorem State.sy_updRegion (r : RegionId) (f : Region → Region) : (s.updRegion r f).sy = s.sy := rfl
@[simp] theorem State.parts_updRegion (r : RegionId) (f : Region → Region) : (s.updRegion r f).parts = s.parts := rfl
@[simp] theorem State.dies_updRegion (r : RegionId) (f : Region → Region) : (s.updRegion r f).dies = s.dies := rfl
@[simp] theorem State.ms_updRegion (r : RegionId) (f : Region → Region) : (s.updRegion r f).ms = s.ms := rfl
@[simp] theorem State.ops_updRegion (r : RegionId) (f : Region → Region) : (s.updRegion r f).ops = s.ops := rfl
@[simp] theorem State.nextOp_updRegion (r : RegionId) (f : Region → Region) : (s.updRegion r f).nextOp = s.nextOp := rfl
@[simp] theorem State.nextFault_updRegion (r : RegionId) (f : Region → Region) : (s.updRegion r f).nextFault = s.nextFault := rfl
@[simp] theorem State.ports_updRegion (r : RegionId) (f : Region → Region) : (s.updRegion r f).ports = s.ports := rfl
@[simp] theorem State.saves_updRegion (r : RegionId) (f : Region → Region) : (s.updRegion r f).saves = s.saves := rfl

/-! ### updCtl -/

@[simp] theorem State.agenda_updCtl (r : RegionId) (f : RegionCtl → RegionCtl) : (s.updCtl r f).agenda = s.agenda := rfl
@[simp] theorem State.cur_updCtl (r : RegionId) (f : RegionCtl → RegionCtl) : (s.updCtl r f).cur = s.cur := rfl
@[simp] theorem State.site_updCtl (r : RegionId) (f : RegionCtl → RegionCtl) : (s.updCtl r f).site = s.site := rfl
@[simp] theorem State.fresh_updCtl (r : RegionId) (f : RegionCtl → RegionCtl) : (s.updCtl r f).fresh = s.fresh := rfl
@[simp] theorem State.booted_updCtl (r : RegionId) (f : RegionCtl → RegionCtl) : (s.updCtl r f).booted = s.booted := rfl
@[simp] theorem State.heldUp_updCtl (r : RegionId) (f : RegionCtl → RegionCtl) : (s.updCtl r f).heldUp = s.heldUp := rfl
@[simp] theorem State.fclock_updCtl (r : RegionId) (f : RegionCtl → RegionCtl) : (s.updCtl r f).fclock = s.fclock := rfl
@[simp] theorem State.syscfg_updCtl (r : RegionId) (f : RegionCtl → RegionCtl) : (s.updCtl r f).syscfg = s.syscfg := rfl
@[simp] theorem State.sq_updCtl (r : RegionId) (f : RegionCtl → RegionCtl) : (s.updCtl r f).sq = s.sq := rfl
@[simp] theorem State.sy_updCtl (r : RegionId) (f : RegionCtl → RegionCtl) : (s.updCtl r f).sy = s.sy := rfl
@[simp] theorem State.parts_updCtl (r : RegionId) (f : RegionCtl → RegionCtl) : (s.updCtl r f).parts = s.parts := rfl
@[simp] theorem State.dies_updCtl (r : RegionId) (f : RegionCtl → RegionCtl) : (s.updCtl r f).dies = s.dies := rfl
@[simp] theorem State.ms_updCtl (r : RegionId) (f : RegionCtl → RegionCtl) : (s.updCtl r f).ms = s.ms := rfl
@[simp] theorem State.ops_updCtl (r : RegionId) (f : RegionCtl → RegionCtl) : (s.updCtl r f).ops = s.ops := rfl
@[simp] theorem State.nextOp_updCtl (r : RegionId) (f : RegionCtl → RegionCtl) : (s.updCtl r f).nextOp = s.nextOp := rfl
@[simp] theorem State.nextFault_updCtl (r : RegionId) (f : RegionCtl → RegionCtl) : (s.updCtl r f).nextFault = s.nextFault := rfl
@[simp] theorem State.ports_updCtl (r : RegionId) (f : RegionCtl → RegionCtl) : (s.updCtl r f).ports = s.ports := rfl
@[simp] theorem State.saves_updCtl (r : RegionId) (f : RegionCtl → RegionCtl) : (s.updCtl r f).saves = s.saves := rfl

/-! ### updFab -/

@[simp] theorem State.agenda_updFab (r : RegionId) (f : Fabric → Fabric) : (s.updFab r f).agenda = s.agenda := rfl
@[simp] theorem State.cur_updFab (r : RegionId) (f : Fabric → Fabric) : (s.updFab r f).cur = s.cur := rfl
@[simp] theorem State.site_updFab (r : RegionId) (f : Fabric → Fabric) : (s.updFab r f).site = s.site := rfl
@[simp] theorem State.fresh_updFab (r : RegionId) (f : Fabric → Fabric) : (s.updFab r f).fresh = s.fresh := rfl
@[simp] theorem State.booted_updFab (r : RegionId) (f : Fabric → Fabric) : (s.updFab r f).booted = s.booted := rfl
@[simp] theorem State.heldUp_updFab (r : RegionId) (f : Fabric → Fabric) : (s.updFab r f).heldUp = s.heldUp := rfl
@[simp] theorem State.fclock_updFab (r : RegionId) (f : Fabric → Fabric) : (s.updFab r f).fclock = s.fclock := rfl
@[simp] theorem State.syscfg_updFab (r : RegionId) (f : Fabric → Fabric) : (s.updFab r f).syscfg = s.syscfg := rfl
@[simp] theorem State.sq_updFab (r : RegionId) (f : Fabric → Fabric) : (s.updFab r f).sq = s.sq := rfl
@[simp] theorem State.sy_updFab (r : RegionId) (f : Fabric → Fabric) : (s.updFab r f).sy = s.sy := rfl
@[simp] theorem State.parts_updFab (r : RegionId) (f : Fabric → Fabric) : (s.updFab r f).parts = s.parts := rfl
@[simp] theorem State.dies_updFab (r : RegionId) (f : Fabric → Fabric) : (s.updFab r f).dies = s.dies := rfl
@[simp] theorem State.ms_updFab (r : RegionId) (f : Fabric → Fabric) : (s.updFab r f).ms = s.ms := rfl
@[simp] theorem State.ops_updFab (r : RegionId) (f : Fabric → Fabric) : (s.updFab r f).ops = s.ops := rfl
@[simp] theorem State.nextOp_updFab (r : RegionId) (f : Fabric → Fabric) : (s.updFab r f).nextOp = s.nextOp := rfl
@[simp] theorem State.nextFault_updFab (r : RegionId) (f : Fabric → Fabric) : (s.updFab r f).nextFault = s.nextFault := rfl
@[simp] theorem State.ports_updFab (r : RegionId) (f : Fabric → Fabric) : (s.updFab r f).ports = s.ports := rfl
@[simp] theorem State.saves_updFab (r : RegionId) (f : Fabric → Fabric) : (s.updFab r f).saves = s.saves := rfl

/-! ### updDbg -/

@[simp] theorem State.agenda_updDbg (r : RegionId) (f : RegionDbg → RegionDbg) : (s.updDbg r f).agenda = s.agenda := rfl
@[simp] theorem State.cur_updDbg (r : RegionId) (f : RegionDbg → RegionDbg) : (s.updDbg r f).cur = s.cur := rfl
@[simp] theorem State.site_updDbg (r : RegionId) (f : RegionDbg → RegionDbg) : (s.updDbg r f).site = s.site := rfl
@[simp] theorem State.fresh_updDbg (r : RegionId) (f : RegionDbg → RegionDbg) : (s.updDbg r f).fresh = s.fresh := rfl
@[simp] theorem State.booted_updDbg (r : RegionId) (f : RegionDbg → RegionDbg) : (s.updDbg r f).booted = s.booted := rfl
@[simp] theorem State.heldUp_updDbg (r : RegionId) (f : RegionDbg → RegionDbg) : (s.updDbg r f).heldUp = s.heldUp := rfl
@[simp] theorem State.fclock_updDbg (r : RegionId) (f : RegionDbg → RegionDbg) : (s.updDbg r f).fclock = s.fclock := rfl
@[simp] theorem State.syscfg_updDbg (r : RegionId) (f : RegionDbg → RegionDbg) : (s.updDbg r f).syscfg = s.syscfg := rfl
@[simp] theorem State.sq_updDbg (r : RegionId) (f : RegionDbg → RegionDbg) : (s.updDbg r f).sq = s.sq := rfl
@[simp] theorem State.sy_updDbg (r : RegionId) (f : RegionDbg → RegionDbg) : (s.updDbg r f).sy = s.sy := rfl
@[simp] theorem State.parts_updDbg (r : RegionId) (f : RegionDbg → RegionDbg) : (s.updDbg r f).parts = s.parts := rfl
@[simp] theorem State.dies_updDbg (r : RegionId) (f : RegionDbg → RegionDbg) : (s.updDbg r f).dies = s.dies := rfl
@[simp] theorem State.ms_updDbg (r : RegionId) (f : RegionDbg → RegionDbg) : (s.updDbg r f).ms = s.ms := rfl
@[simp] theorem State.ops_updDbg (r : RegionId) (f : RegionDbg → RegionDbg) : (s.updDbg r f).ops = s.ops := rfl
@[simp] theorem State.nextOp_updDbg (r : RegionId) (f : RegionDbg → RegionDbg) : (s.updDbg r f).nextOp = s.nextOp := rfl
@[simp] theorem State.nextFault_updDbg (r : RegionId) (f : RegionDbg → RegionDbg) : (s.updDbg r f).nextFault = s.nextFault := rfl
@[simp] theorem State.ports_updDbg (r : RegionId) (f : RegionDbg → RegionDbg) : (s.updDbg r f).ports = s.ports := rfl
@[simp] theorem State.saves_updDbg (r : RegionId) (f : RegionDbg → RegionDbg) : (s.updDbg r f).saves = s.saves := rfl

/-! ### updDie -/

@[simp] theorem State.agenda_updDie (d : DieId) (f : Die → Die) : (s.updDie d f).agenda = s.agenda := rfl
@[simp] theorem State.cur_updDie (d : DieId) (f : Die → Die) : (s.updDie d f).cur = s.cur := rfl
@[simp] theorem State.site_updDie (d : DieId) (f : Die → Die) : (s.updDie d f).site = s.site := rfl
@[simp] theorem State.fresh_updDie (d : DieId) (f : Die → Die) : (s.updDie d f).fresh = s.fresh := rfl
@[simp] theorem State.booted_updDie (d : DieId) (f : Die → Die) : (s.updDie d f).booted = s.booted := rfl
@[simp] theorem State.heldUp_updDie (d : DieId) (f : Die → Die) : (s.updDie d f).heldUp = s.heldUp := rfl
@[simp] theorem State.fclock_updDie (d : DieId) (f : Die → Die) : (s.updDie d f).fclock = s.fclock := rfl
@[simp] theorem State.syscfg_updDie (d : DieId) (f : Die → Die) : (s.updDie d f).syscfg = s.syscfg := rfl
@[simp] theorem State.sq_updDie (d : DieId) (f : Die → Die) : (s.updDie d f).sq = s.sq := rfl
@[simp] theorem State.sy_updDie (d : DieId) (f : Die → Die) : (s.updDie d f).sy = s.sy := rfl
@[simp] theorem State.parts_updDie (d : DieId) (f : Die → Die) : (s.updDie d f).parts = s.parts := rfl
@[simp] theorem State.regions_updDie (d : DieId) (f : Die → Die) : (s.updDie d f).regions = s.regions := rfl
@[simp] theorem State.ms_updDie (d : DieId) (f : Die → Die) : (s.updDie d f).ms = s.ms := rfl
@[simp] theorem State.ops_updDie (d : DieId) (f : Die → Die) : (s.updDie d f).ops = s.ops := rfl
@[simp] theorem State.nextOp_updDie (d : DieId) (f : Die → Die) : (s.updDie d f).nextOp = s.nextOp := rfl
@[simp] theorem State.nextFault_updDie (d : DieId) (f : Die → Die) : (s.updDie d f).nextFault = s.nextFault := rfl
@[simp] theorem State.ports_updDie (d : DieId) (f : Die → Die) : (s.updDie d f).ports = s.ports := rfl
@[simp] theorem State.saves_updDie (d : DieId) (f : Die → Die) : (s.updDie d f).saves = s.saves := rfl

/-! ### updMs -/

@[simp] theorem State.agenda_updMs (f : MemSys → MemSys) : (s.updMs f).agenda = s.agenda := rfl
@[simp] theorem State.cur_updMs (f : MemSys → MemSys) : (s.updMs f).cur = s.cur := rfl
@[simp] theorem State.site_updMs (f : MemSys → MemSys) : (s.updMs f).site = s.site := rfl
@[simp] theorem State.fresh_updMs (f : MemSys → MemSys) : (s.updMs f).fresh = s.fresh := rfl
@[simp] theorem State.booted_updMs (f : MemSys → MemSys) : (s.updMs f).booted = s.booted := rfl
@[simp] theorem State.heldUp_updMs (f : MemSys → MemSys) : (s.updMs f).heldUp = s.heldUp := rfl
@[simp] theorem State.fclock_updMs (f : MemSys → MemSys) : (s.updMs f).fclock = s.fclock := rfl
@[simp] theorem State.syscfg_updMs (f : MemSys → MemSys) : (s.updMs f).syscfg = s.syscfg := rfl
@[simp] theorem State.sq_updMs (f : MemSys → MemSys) : (s.updMs f).sq = s.sq := rfl
@[simp] theorem State.sy_updMs (f : MemSys → MemSys) : (s.updMs f).sy = s.sy := rfl
@[simp] theorem State.parts_updMs (f : MemSys → MemSys) : (s.updMs f).parts = s.parts := rfl
@[simp] theorem State.regions_updMs (f : MemSys → MemSys) : (s.updMs f).regions = s.regions := rfl
@[simp] theorem State.dies_updMs (f : MemSys → MemSys) : (s.updMs f).dies = s.dies := rfl
@[simp] theorem State.ops_updMs (f : MemSys → MemSys) : (s.updMs f).ops = s.ops := rfl
@[simp] theorem State.nextOp_updMs (f : MemSys → MemSys) : (s.updMs f).nextOp = s.nextOp := rfl
@[simp] theorem State.nextFault_updMs (f : MemSys → MemSys) : (s.updMs f).nextFault = s.nextFault := rfl
@[simp] theorem State.ports_updMs (f : MemSys → MemSys) : (s.updMs f).ports = s.ports := rfl
@[simp] theorem State.saves_updMs (f : MemSys → MemSys) : (s.updMs f).saves = s.saves := rfl

/-! ### updPorts -/

@[simp] theorem State.agenda_updPorts (f : Ports → Ports) : (s.updPorts f).agenda = s.agenda := rfl
@[simp] theorem State.cur_updPorts (f : Ports → Ports) : (s.updPorts f).cur = s.cur := rfl
@[simp] theorem State.site_updPorts (f : Ports → Ports) : (s.updPorts f).site = s.site := rfl
@[simp] theorem State.fresh_updPorts (f : Ports → Ports) : (s.updPorts f).fresh = s.fresh := rfl
@[simp] theorem State.booted_updPorts (f : Ports → Ports) : (s.updPorts f).booted = s.booted := rfl
@[simp] theorem State.heldUp_updPorts (f : Ports → Ports) : (s.updPorts f).heldUp = s.heldUp := rfl
@[simp] theorem State.fclock_updPorts (f : Ports → Ports) : (s.updPorts f).fclock = s.fclock := rfl
@[simp] theorem State.syscfg_updPorts (f : Ports → Ports) : (s.updPorts f).syscfg = s.syscfg := rfl
@[simp] theorem State.sq_updPorts (f : Ports → Ports) : (s.updPorts f).sq = s.sq := rfl
@[simp] theorem State.sy_updPorts (f : Ports → Ports) : (s.updPorts f).sy = s.sy := rfl
@[simp] theorem State.parts_updPorts (f : Ports → Ports) : (s.updPorts f).parts = s.parts := rfl
@[simp] theorem State.regions_updPorts (f : Ports → Ports) : (s.updPorts f).regions = s.regions := rfl
@[simp] theorem State.dies_updPorts (f : Ports → Ports) : (s.updPorts f).dies = s.dies := rfl
@[simp] theorem State.ms_updPorts (f : Ports → Ports) : (s.updPorts f).ms = s.ms := rfl
@[simp] theorem State.ops_updPorts (f : Ports → Ports) : (s.updPorts f).ops = s.ops := rfl
@[simp] theorem State.nextOp_updPorts (f : Ports → Ports) : (s.updPorts f).nextOp = s.nextOp := rfl
@[simp] theorem State.nextFault_updPorts (f : Ports → Ports) : (s.updPorts f).nextFault = s.nextFault := rfl
@[simp] theorem State.saves_updPorts (f : Ports → Ports) : (s.updPorts f).saves = s.saves := rfl

/-! ### useFresh -/

@[simp] theorem State.agenda_useFresh (n : Nat) : (s.useFresh n).agenda = s.agenda := rfl
@[simp] theorem State.cur_useFresh (n : Nat) : (s.useFresh n).cur = s.cur := rfl
@[simp] theorem State.site_useFresh (n : Nat) : (s.useFresh n).site = s.site := rfl
@[simp] theorem State.booted_useFresh (n : Nat) : (s.useFresh n).booted = s.booted := rfl
@[simp] theorem State.heldUp_useFresh (n : Nat) : (s.useFresh n).heldUp = s.heldUp := rfl
@[simp] theorem State.fclock_useFresh (n : Nat) : (s.useFresh n).fclock = s.fclock := rfl
@[simp] theorem State.syscfg_useFresh (n : Nat) : (s.useFresh n).syscfg = s.syscfg := rfl
@[simp] theorem State.sq_useFresh (n : Nat) : (s.useFresh n).sq = s.sq := rfl
@[simp] theorem State.sy_useFresh (n : Nat) : (s.useFresh n).sy = s.sy := rfl
@[simp] theorem State.parts_useFresh (n : Nat) : (s.useFresh n).parts = s.parts := rfl
@[simp] theorem State.regions_useFresh (n : Nat) : (s.useFresh n).regions = s.regions := rfl
@[simp] theorem State.dies_useFresh (n : Nat) : (s.useFresh n).dies = s.dies := rfl
@[simp] theorem State.ms_useFresh (n : Nat) : (s.useFresh n).ms = s.ms := rfl
@[simp] theorem State.ops_useFresh (n : Nat) : (s.useFresh n).ops = s.ops := rfl
@[simp] theorem State.nextOp_useFresh (n : Nat) : (s.useFresh n).nextOp = s.nextOp := rfl
@[simp] theorem State.nextFault_useFresh (n : Nat) : (s.useFresh n).nextFault = s.nextFault := rfl
@[simp] theorem State.ports_useFresh (n : Nat) : (s.useFresh n).ports = s.ports := rfl
@[simp] theorem State.saves_useFresh (n : Nat) : (s.useFresh n).saves = s.saves := rfl

@[simp] theorem State.ms_updMs_eq (f : MemSys → MemSys) : (s.updMs f).ms = f s.ms := rfl
@[simp] theorem State.ports_updPorts_eq (f : Ports → Ports) : (s.updPorts f).ports = f s.ports := rfl
@[simp] theorem State.fresh_useFresh_eq (n : Nat) : (s.useFresh n).fresh = s.fresh + n := rfl

/-! ### updCore -/

@[simp] theorem State.agenda_updCore (c : CoreId) (f : Core → Core) : (s.updCore c f).agenda = s.agenda := by cases c <;> rfl
@[simp] theorem State.cur_updCore (c : CoreId) (f : Core → Core) : (s.updCore c f).cur = s.cur := by cases c <;> rfl
@[simp] theorem State.site_updCore (c : CoreId) (f : Core → Core) : (s.updCore c f).site = s.site := by cases c <;> rfl
@[simp] theorem State.fresh_updCore (c : CoreId) (f : Core → Core) : (s.updCore c f).fresh = s.fresh := by cases c <;> rfl
@[simp] theorem State.booted_updCore (c : CoreId) (f : Core → Core) : (s.updCore c f).booted = s.booted := by cases c <;> rfl
@[simp] theorem State.heldUp_updCore (c : CoreId) (f : Core → Core) : (s.updCore c f).heldUp = s.heldUp := by cases c <;> rfl
@[simp] theorem State.fclock_updCore (c : CoreId) (f : Core → Core) : (s.updCore c f).fclock = s.fclock := by cases c <;> rfl
@[simp] theorem State.syscfg_updCore (c : CoreId) (f : Core → Core) : (s.updCore c f).syscfg = s.syscfg := by cases c <;> rfl
@[simp] theorem State.parts_updCore (c : CoreId) (f : Core → Core) : (s.updCore c f).parts = s.parts := by cases c <;> rfl
@[simp] theorem State.regions_updCore (c : CoreId) (f : Core → Core) : (s.updCore c f).regions = s.regions := by cases c <;> rfl
@[simp] theorem State.dies_updCore (c : CoreId) (f : Core → Core) : (s.updCore c f).dies = s.dies := by cases c <;> rfl
@[simp] theorem State.ms_updCore (c : CoreId) (f : Core → Core) : (s.updCore c f).ms = s.ms := by cases c <;> rfl
@[simp] theorem State.ops_updCore (c : CoreId) (f : Core → Core) : (s.updCore c f).ops = s.ops := by cases c <;> rfl
@[simp] theorem State.nextOp_updCore (c : CoreId) (f : Core → Core) : (s.updCore c f).nextOp = s.nextOp := by cases c <;> rfl
@[simp] theorem State.nextFault_updCore (c : CoreId) (f : Core → Core) : (s.updCore c f).nextFault = s.nextFault := by cases c <;> rfl
@[simp] theorem State.ports_updCore (c : CoreId) (f : Core → Core) : (s.updCore c f).ports = s.ports := by cases c <;> rfl
@[simp] theorem State.saves_updCore (c : CoreId) (f : Core → Core) : (s.updCore c f).saves = s.saves := by cases c <;> rfl

/-! ### The indexed parts -/

@[simp] theorem State.core_updCore_self (c : CoreId) (f : Core → Core) : (s.updCore c f).core c = f (s.core c) := by
  cases c <;> simp [State.updCore, State.setCore, State.core]

theorem State.core_updCore_ne {c d : CoreId} (h : d ≠ c) (f : Core → Core) : (s.updCore c f).core d = s.core d := by
  cases c <;> cases d <;> simp_all [State.updCore, State.setCore, State.core]
  all_goals
    rw [Vector.getElem_set_ne]
    exact fun e => h (BitVec.eq_of_toNat_eq e.symm)

@[simp] theorem State.part_updPart_self (p : PartId) (f : Partition → Partition) : (s.updPart p f).part p = f (s.part p) := by
  simp [State.updPart, State.setPart, State.part]

theorem State.part_updPart_ne {p q : PartId} (h : q ≠ p) (f : Partition → Partition) : (s.updPart p f).part q = s.part q := by
  simp only [State.updPart, State.setPart, State.part]
  rw [Vector.getElem_set_ne]
  exact fun e => h (BitVec.eq_of_toNat_eq e.symm)

@[simp] theorem State.region_updRegion_self (r : RegionId) (f : Region → Region) :
    (s.updRegion r f).region r = f (s.region r) := by
  simp [State.updRegion, State.setRegion, State.region]

theorem State.region_updRegion_ne {r q : RegionId} (h : q ≠ r) (f : Region → Region) :
    (s.updRegion r f).region q = s.region q := by
  simp only [State.updRegion, State.setRegion, State.region]
  rw [Vector.getElem_set_ne]
  exact fun e => h (BitVec.eq_of_toNat_eq e.symm)

@[simp] theorem State.die_updDie_self (d : DieId) (f : Die → Die) : (s.updDie d f).die d = f (s.die d) := by
  simp [State.updDie, State.setDie, State.die]

@[simp] theorem State.core_updPart (p : PartId) (f : Partition → Partition) (c : CoreId) :
    (s.updPart p f).core c = s.core c := rfl
@[simp] theorem State.core_updRegion (r : RegionId) (f : Region → Region) (c : CoreId) :
    (s.updRegion r f).core c = s.core c := rfl
@[simp] theorem State.core_updDie (d : DieId) (f : Die → Die) (c : CoreId) : (s.updDie d f).core c = s.core c := rfl
@[simp] theorem State.core_updMs (f : MemSys → MemSys) (c : CoreId) : (s.updMs f).core c = s.core c := rfl
@[simp] theorem State.core_updPorts (f : Ports → Ports) (c : CoreId) : (s.updPorts f).core c = s.core c := rfl
@[simp] theorem State.core_useFresh (n : Nat) (c : CoreId) : (s.useFresh n).core c = s.core c := rfl
@[simp] theorem State.part_updCore (c : CoreId) (f : Core → Core) (p : PartId) : (s.updCore c f).part p = s.part p := by
  cases c <;> rfl
@[simp] theorem State.region_updCore (c : CoreId) (f : Core → Core) (r : RegionId) :
    (s.updCore c f).region r = s.region r := by cases c <;> rfl
@[simp] theorem State.die_updCore (c : CoreId) (f : Core → Core) (d : DieId) : (s.updCore c f).die d = s.die d := by
  cases c <;> rfl

/-! ### The core whose turn it is -/

@[simp] theorem State.cur_updMe (f : Core → Core) : (s.updMe f).cur = s.cur := by simp [State.updMe]
@[simp] theorem State.ms_updMe (f : Core → Core) : (s.updMe f).ms = s.ms := by simp [State.updMe]
@[simp] theorem State.me_updMe (f : Core → Core) : (s.updMe f).me = f s.me := by
  simp [State.updMe, State.me]

/-- The core whose turn it is sees only its own record and its number. -/
theorem State.me_congr {s t : State} (hc : t.cur = s.cur) (h : t.core s.cur = s.core s.cur) : t.me = s.me := by
  simp [State.me, hc, h]

/-! ### Registers -/

@[simp] theorem Core.rg_zero (c : Core) : c.rg 0 = 0 := by simp [Core.rg]
@[simp] theorem Core.wg_zero (c : Core) (v : Word) : c.wg 0 v = c := by simp [Core.wg]

theorem Core.rg_wg_self (c : Core) {r : Reg} (h : r ≠ 0) (v : Word) : (c.wg r v).rg r = v := by
  simp only [Core.rg, Core.wg, if_neg h, Vector.getElem_set_self]

theorem Core.rg_wg_ne (c : Core) {r q : Reg} (h : q ≠ r) (v : Word) : (c.wg r v).rg q = c.rg q := by
  unfold Core.rg Core.wg
  split
  · rfl
  · split
    · rfl
    · rw [Vector.getElem_set_ne]
      exact fun e => h (BitVec.eq_of_toNat_eq e.symm)

@[simp] theorem Core.pc_wg (c : Core) (r : Reg) (v : Word) : (c.wg r v).pc = c.pc := by unfold Core.wg; split <;> rfl
@[simp] theorem Core.level_wg (c : Core) (r : Reg) (v : Word) : (c.wg r v).level = c.level := by
  unfold Core.wg; split <;> rfl
@[simp] theorem Core.dbgc_wg (c : Core) (r : Reg) (v : Word) : (c.wg r v).dbgc = c.dbgc := by
  unfold Core.wg; split <;> rfl
@[simp] theorem Core.f_wg (c : Core) (r : Reg) (v : Word) : (c.wg r v).f = c.f := by unfold Core.wg; split <;> rfl
@[simp] theorem Core.g_wf (c : Core) (r : Reg) (v : Word) (t : BitVec 7) : (c.wf r v t).g = c.g := rfl
@[simp] theorem Core.pc_wf (c : Core) (r : Reg) (v : Word) (t : BitVec 7) : (c.wf r v t).pc = c.pc := rfl
@[simp] theorem Core.rf_wf_self (c : Core) (r : Reg) (v : Word) (t : BitVec 7) : (c.wf r v t).rf r = ⟨v, t⟩ := by
  simp [Core.rf, Core.wf]

@[simp] theorem State.me_wg (r : Reg) (v : Word) : (s.wg r v).me = s.me.wg r v := by simp [State.wg]
@[simp] theorem State.me_wf (r : Reg) (v : Word) (t : BitVec 7) : (s.wf r v t).me = s.me.wf r v t := by simp [State.wf]

end Sys2Proof.Machine
end

