-- ==== Sys2Proof/Laws/Memory.lean ====
section
/-!
SUPPORT. Byte memory: reading after a write, and the canonical form that every memory operation keeps.
-/

namespace Sys2Proof.Machine

open Sys2Proof

theorem Memory.wfFrom_mono {lo hi : Nat} (h : lo ≤ hi) {m : Memory} (w : Memory.wfFrom hi m = true) :
    Memory.wfFrom lo m = true := by
  cases m with
  | nil => rfl
  | cons c m =>
    obtain ⟨k, v⟩ := c
    simp only [Memory.wfFrom, Bool.and_eq_true, decide_eq_true_eq] at w ⊢
    exact ⟨⟨by omega, w.1.2⟩, w.2⟩

/-- Below every listed address a byte reads as unlisted. -/
theorem Memory.read_below {lo : Nat} {m : Memory} (w : Memory.wfFrom lo m = true) {a : Nat} (h : a < lo) :
    Memory.read m a = 0 := by
  cases m with
  | nil => rfl
  | cons c m =>
    obtain ⟨k, v⟩ := c
    simp only [Memory.wfFrom, Bool.and_eq_true, decide_eq_true_eq] at w
    simp [Memory.read, show a < k by omega]

theorem Memory.wfFrom_consNZ {lo a : Nat} (b : Byte) {m : Memory} (h : lo ≤ a) (w : Memory.wfFrom (a + 1) m = true) :
    Memory.wfFrom lo (Memory.consNZ a b m) = true := by
  unfold Memory.consNZ
  split
  · exact Memory.wfFrom_mono (by omega) w
  · rename_i hb
    simp only [Memory.wfFrom, w, Bool.and_true, Bool.and_eq_true, decide_eq_true_eq, bne_iff_ne]
    exact ⟨h, hb⟩

/-- A write keeps the canonical form. -/
theorem Memory.wfFrom_write {lo : Nat} {m : Memory} (w : Memory.wfFrom lo m = true) {a : Nat} (b : Byte) (h : lo ≤ a) :
    Memory.wfFrom lo (Memory.write m a b) = true := by
  induction m generalizing lo with
  | nil => exact Memory.wfFrom_consNZ b h rfl
  | cons c m ih =>
    obtain ⟨k, v⟩ := c
    have w' := w
    simp only [Memory.wfFrom, Bool.and_eq_true, decide_eq_true_eq] at w'
    unfold Memory.write
    split
    · refine Memory.wfFrom_consNZ b h ?_
      simp only [Memory.wfFrom, Bool.and_eq_true, decide_eq_true_eq]
      exact ⟨⟨by omega, w'.1.2⟩, w'.2⟩
    · split
      · exact Memory.wfFrom_consNZ b h (by simp_all)
      · simp only [Memory.wfFrom, Bool.and_eq_true, decide_eq_true_eq]
        exact ⟨w'.1, ih w'.2 (by omega)⟩

theorem Memory.wf_write {m : Memory} (w : Memory.wf m = true) (a : Nat) (b : Byte) : Memory.wf (Memory.write m a b) = true :=
  Memory.wfFrom_write w b (Nat.zero_le a)

theorem Memory.wf_writeLE {m : Memory} (w : Memory.wf m = true) (a v n : Nat) : Memory.wf (Memory.writeLE m a v n) = true := by
  induction n generalizing m a v with
  | zero => exact w
  | succ n ih => exact ih (Memory.wf_write w a _) _ _

theorem Memory.wf_writeBytes {m : Memory} (w : Memory.wf m = true) (a : Nat) (bs : List Byte) :
    Memory.wf (Memory.writeBytes m a bs) = true := by
  induction bs generalizing m a with
  | nil => exact w
  | cons b bs ih => exact ih (Memory.wf_write w a b) _

theorem Memory.wfFrom_filter {lo : Nat} {m : Memory} (w : Memory.wfFrom lo m = true) (p : Nat × Byte → Bool) :
    Memory.wfFrom lo (m.filter p) = true := by
  induction m generalizing lo with
  | nil => rfl
  | cons c m ih =>
    obtain ⟨k, v⟩ := c
    simp only [Memory.wfFrom, Bool.and_eq_true, decide_eq_true_eq] at w
    rw [List.filter_cons]
    split
    · simp only [Memory.wfFrom, Bool.and_eq_true, decide_eq_true_eq]
      exact ⟨w.1, ih w.2⟩
    · exact Memory.wfFrom_mono (by omega) (ih w.2)

/-- A read after a write: the byte written there, the old bytes elsewhere. -/
theorem Memory.read_write {lo : Nat} {m : Memory} (w : Memory.wfFrom lo m = true) (a c : Nat) (b : Byte) :
    Memory.read (Memory.write m a b) c = if c = a then b else Memory.read m c := by
  have nz (m : Memory) (hm : ∀ c ≤ a, Memory.read m c = 0) :
      Memory.read (Memory.consNZ a b m) c = if c = a then b else Memory.read m c := by
    unfold Memory.consNZ
    split
    · rename_i hb
      split
      · rename_i hc; rw [hc, hm a (Nat.le_refl a), hb]
      · rfl
    · simp only [Memory.read]
      split
      · rename_i hlt
        rw [if_neg (by omega), hm c (by omega)]
      · rfl
  induction m generalizing lo with
  | nil => exact nz [] fun _ _ => rfl
  | cons x m ih =>
    obtain ⟨k, v⟩ := x
    have w' := w
    simp only [Memory.wfFrom, Bool.and_eq_true, decide_eq_true_eq] at w'
    unfold Memory.write
    split
    · rename_i hak
      exact nz _ fun c hc => by simp [Memory.read, show c < k by omega]
    · split
      · rename_i hak
        subst hak
        rw [nz m fun c hc => Memory.read_below w'.2 (by omega)]
        split
        · rfl
        · rename_i hne
          simp only [Memory.read]
          split
          · exact Memory.read_below w'.2 (by omega)
          · simp
      · simp only [Memory.read]
        split
        · rename_i h1; rw [if_neg (by omega)]
        · split
          · rename_i h1 h2; subst h2; rw [if_neg (by omega)]
          · exact ih w'.2

theorem Memory.read_write_ne {m : Memory} (w : Memory.wf m = true) {a c : Nat} (h : c ≠ a) (b : Byte) :
    Memory.read (Memory.write m a b) c = Memory.read m c := by rw [Memory.read_write w, if_neg h]

/-- Addresses outside a write of n bytes read as before. -/
theorem Memory.read_writeLE_ne {m : Memory} (w : Memory.wf m = true) (a v n c : Nat) (h : c < a ∨ a + n ≤ c) :
    Memory.read (Memory.writeLE m a v n) c = Memory.read m c := by
  induction n generalizing m a v with
  | zero => rfl
  | succ n ih =>
    rw [Memory.writeLE, ih (Memory.wf_write w a _) _ _ (by omega), Memory.read_write_ne w (by omega)]

/-- A number written reads back. -/
theorem Memory.readLE_writeLE {m : Memory} (w : Memory.wf m = true) (a v n : Nat) :
    Memory.readLE (Memory.writeLE m a v n) a n = v % 256 ^ n := by
  induction n generalizing m a v with
  | zero => simp [Memory.readLE, Nat.mod_one]
  | succ n ih =>
    rw [Memory.writeLE, Memory.readLE, ih (Memory.wf_write w a _),
      Memory.read_writeLE_ne (Memory.wf_write w a _) _ _ _ _ (by omega), Memory.read_write w, if_pos rfl]
    have h1 := Nat.mod_mul (x := v) (a := 256) (b := 256 ^ n)
    rw [Nat.pow_succ, Nat.mul_comm (256 ^ n) 256, h1]
    simp [BitVec.toNat_ofNat]

/-! ### Home -/

@[simp] theorem netRequest_mem (p : PartId) (w : Nat) (l : List Byte) (ms : MemSys) : (netRequest p w l ms).mem = ms.mem := rfl

/-- What is written to a peer leaves this device's memory alone (R406). -/
@[simp] theorem peerSend_mem (p : PartId) (ms : MemSys) (pa v n : Nat) : (peerSend p ms pa v n).mem = ms.mem := rfl

@[simp] theorem noteWrote_mem (pa n : Nat) (ms : MemSys) : (noteWrote pa n ms).mem = ms.mem := rfl

theorem putHome_wf (p : PartId) (v n : Nat) {ms : MemSys} (w : Memory.wf ms.mem = true) (pa : Nat) :
    Memory.wf (putHome p v n ms pa).mem = true := by
  unfold putHome
  split
  · exact w
  · exact Memory.wf_writeLE w _ _ _

theorem homeWrite_wf (p : PartId) {ms : MemSys} (w : Memory.wf ms.mem = true) (pa v n : Nat) :
    Memory.wf (homeWrite p ms pa v n).mem = true := by
  have go (l : List Nat) (ms : MemSys) (h : Memory.wf ms.mem = true) :
      Memory.wf (l.foldl (putHome p v n) ms).mem = true := by
    induction l generalizing ms with
    | nil => exact h
    | cons a l ih => exact ih _ (putHome_wf p v n h a)
  exact go _ _ w

theorem writeThrough_wf {ms : MemSys} (w : Memory.wf ms.mem = true) (l : SLine) : Memory.wf (writeThrough ms l).mem = true := by
  have go (is : List Nat) (ms : MemSys) (h : Memory.wf ms.mem = true) :
      Memory.wf (is.foldl (fun ms i => if l.dirty.getLsbD i then
        homeWrite l.part ms (l.line * 128 + i) (l.data.extractLsb' (8 * i) 8).toNat 1 else ms) ms).mem = true := by
    induction is generalizing ms with
    | nil => exact h
    | cons i is ih =>
      refine ih _ ?_
      dsimp only
      split
      · exact homeWrite_wf _ h _ _ _
      · exact h
  exact go _ _ w

theorem writeThroughs_wf (ls : List SLine) {ms : MemSys} (w : Memory.wf ms.mem = true) :
    Memory.wf (ls.foldl writeThrough ms).mem = true := by
  induction ls generalizing ms with
  | nil => exact w
  | cons l ls ih => exact ih (writeThrough_wf w l)

theorem releaseS_wf (g : Agent) {ms : MemSys} (w : Memory.wf ms.mem = true) : Memory.wf (releaseS g ms).mem = true :=
  writeThroughs_wf _ w

theorem acquireS_wf (g : Agent) {ms : MemSys} (w : Memory.wf ms.mem = true) : Memory.wf (acquireS g ms).mem = true :=
  writeThroughs_wf _ w

theorem flushSLine_wf (line : Nat) (g : Agent) {ms : MemSys} (w : Memory.wf ms.mem = true) :
    Memory.wf (flushSLine ms line g).mem = true := by
  unfold flushSLine
  split
  · exact writeThrough_wf w _
  · exact w

theorem flushSLines_wf (line : Nat) (gs : List Agent) {ms : MemSys} (w : Memory.wf ms.mem = true) :
    Memory.wf (gs.foldl (flushSLine · line) ms).mem = true := by
  induction gs generalizing ms with
  | nil => exact w
  | cons g gs ih => exact ih (flushSLine_wf line g w)

theorem dirRead_mem (g : Option Agent) (pa : Nat) (now : Word) (ms : MemSys) : (dirRead g pa now ms).mem = ms.mem := by
  unfold dirRead
  split
  · split <;> rfl
  · dsimp only; split <;> rfl

theorem dirWrite_mem (g : Option Agent) (pa : Nat) (now : Word) (ms : MemSys) : (dirWrite g pa now ms).mem = ms.mem := by
  unfold dirWrite
  dsimp only
  cases ms.dir.find? (dirCovers · pa) with
  | none => rfl
  | some e => dsimp only; split <;> rfl

end Sys2Proof.Machine
end

