-- ==== Sys2Proof/Laws/Ops.lean ====
section
/-!
SUPPORT. What each shared operation of the cores can do, said once: completing an instruction, waiting for registers, raising
a cause, translating and accessing memory, issuing and ending an operation.
-/

namespace Sys2Proof.Machine

open Sys2Proof

variable (s : State)

/-! ### Completing an instruction -/

theorem clearSkip_with_pc (c : Core) (pc : Word) :
    { clearSkip c with pc := pc } = { c with pc := pc, dbgc := if c.level = .u then c.dbgc &&& ~~~2#64 else c.dbgc } := by
  unfold clearSkip; split <;> rfl

/-- Without single step, an instruction that goes to an address completes there. -/
theorem retireTo_eq (pc : Word) (h : ¬(s.me.level = .u ∧ s.me.dbgc.getLsbD 0 = true)) :
    retireTo s pc = .next (s.went pc) := by
  have hf : (fun c : Core => { clearSkip c with pc := pc }) =
      fun c => { c with pc := pc, dbgc := if c.level = .u then c.dbgc &&& ~~~2#64 else c.dbgc } :=
    funext fun c => clearSkip_with_pc c pc
  unfold retireTo State.went
  rw [hf]
  exact if_neg (by simpa using h)

theorem retire_eq (h : ¬(s.me.level = .u ∧ s.me.dbgc.getLsbD 0 = true)) : retire s = .next (s.went (s.me.pc + 4)) :=
  retireTo_eq s _ h

/-- Completing an instruction, single step or not. -/
theorem retire_retired : retire s = .next s.retired := by
  unfold State.retired
  split
  · next h =>
    have hf : (fun c : Core => { clearSkip c with pc := s.me.pc + 4 }) =
        fun c => { c with pc := s.me.pc + 4, dbgc := if c.level = .u then c.dbgc &&& ~~~2#64 else c.dbgc } :=
      funext fun c => clearSkip_with_pc c _
    unfold retire retireTo State.went
    rw [hf]
    refine (if_pos (by simpa using h)).trans ?_
    simp only [State.cur_updMe, cSTEP]
  · next h => exact retire_eq s h

/-- An instruction that completes always leaves a next state. -/
theorem retireTo_next (pc : Word) : ∃ t, retireTo s pc = .next t := by
  unfold retireTo
  dsimp only
  split <;> exact ⟨_, rfl⟩

theorem needRegs_eq {rs : List Reg} (h : ∀ r ∈ rs, s.me.pending r = false) (k : Out) : needRegs s rs k = k := by
  unfold needRegs
  rw [if_neg]
  simpa using h

/-- An instruction that names a pending register changes nothing. -/
theorem needRegs_wait {rs : List Reg} {r : Reg} (hr : r ∈ rs) (h : s.me.pending r = true) (k : Out) :
    needRegs s rs k = .next s := by
  unfold needRegs
  rw [if_pos]
  simpa using ⟨r, hr, h⟩

/-- Spending a response changes the memory system only. -/
theorem authTaken_eq (va : Word) : authTaken s va = { s with ms := (authTaken s va).ms } := by
  unfold authTaken
  split
  · split <;> rfl
  · rfl

@[simp] theorem cur_authTaken (va : Word) : (authTaken s va).cur = s.cur := by rw [authTaken_eq]

@[simp] theorem me_authTaken (va : Word) : (authTaken s va).me = s.me := by
  rw [State.me, State.me, authTaken_eq]
  cases s.cur <;> rfl

theorem raise_eq (cause : BitVec 8) (tval : Word) : raise s cause tval = .next (s.raised cause tval) := by
  have h1 : (s.updMe clearSkip).cur = s.cur := by simp
  have h2 : (s.updMe clearSkip).me.level = s.me.level := by
    simp only [State.me_updMe, clearSkip]; split <;> rfl
  have h3 : (s.updMe clearSkip).me.pc = s.me.pc := by
    simp only [State.me_updMe, clearSkip]; split <;> rfl
  unfold raise State.raised
  dsimp only
  split <;> simp only [cur_authTaken, me_authTaken, h1, h2, h3]

theorem me_went (pc : Word) : (s.went pc).me =
    { s.me with pc := pc, dbgc := if s.me.level = .u then s.me.dbgc &&& ~~~2#64 else s.me.dbgc } := by
  simp [State.went]

@[simp] theorem ms_went (pc : Word) : (s.went pc).ms = s.ms := by simp [State.went]
@[simp] theorem g_went (pc : Word) : (s.went pc).me.g = s.me.g := by simp [State.went]
@[simp] theorem f_went (pc : Word) : (s.went pc).me.f = s.me.f := by simp [State.went]
@[simp] theorem pc_went (pc : Word) : (s.went pc).me.pc = pc := by simp [State.went]

/-! ### What an access leaves alone: everything but the memory system and the model's supply of free values -/

/-- Two states that differ at most in the memory system and the counter of free values. -/
def SameButMs (s t : State) : Prop := t = { s with ms := t.ms, fresh := t.fresh }

theorem SameButMs.refl : SameButMs s s := rfl

theorem SameButMs.trans {s t u : State} (h : SameButMs s t) (k : SameButMs t u) : SameButMs s u := by
  unfold SameButMs at *
  rw [k, h]

theorem SameButMs.core {s t : State} (h : SameButMs s t) (c : CoreId) : t.core c = s.core c := by
  rw [h]; cases c <;> rfl

theorem SameButMs.cur {s t : State} (h : SameButMs s t) : t.cur = s.cur := by rw [h]

theorem SameButMs.me {s t : State} (h : SameButMs s t) : t.me = s.me := by
  rw [State.me, State.me, h.cur, h.core]

theorem sameButMs_ms (ms : MemSys) : SameButMs s { s with ms := ms } := rfl
theorem sameButMs_updMs (f : MemSys → MemSys) : SameButMs s (s.updMs f) := rfl
theorem sameButMs_useFresh (n : Nat) : SameButMs s (s.useFresh n) := rfl

/-- A property of every state that a checked access can leave. -/
def MRes.All {α : Type} (p : State → Prop) : MRes α → Prop
  | .ok _ s => p s
  | .trap _ _ | .wait => True

theorem MRes.All.mono {α : Type} {p q : State → Prop} {r : MRes α} (h : r.All p) (k : ∀ s, p s → q s) : r.All q := by
  cases r with
  | ok a s => exact k s h
  | trap | wait => trivial

theorem MRes.All.bind {α β : Type} {p q : State → Prop} {r : MRes α} {k : α → State → MRes β} (h : r.All p)
    (hk : ∀ a s, p s → (k a s).All q) : (r.bind k).All q := by
  cases r with
  | ok a s => exact hk a s h
  | trap | wait => trivial

/-- What a checked access keeps: all but the memory system and the supply of free values, and the canonical form of memory. -/
def Keeps (s t : State) : Prop := SameButMs s t ∧ (Memory.wf s.ms.mem = true → Memory.wf t.ms.mem = true)

theorem Keeps.refl : Keeps s s := ⟨SameButMs.refl s, id⟩

theorem Keeps.trans {s t u : State} (h : Keeps s t) (k : Keeps t u) : Keeps s u := ⟨h.1.trans k.1, k.2 ∘ h.2⟩

/-- A step of a checked access that keeps what the one before it kept. -/
theorem MRes.All.then {α β : Type} {s : State} {r : MRes α} {k : α → State → MRes β} (h : r.All (Keeps s))
    (hk : ∀ a t, (k a t).All (Keeps t)) : (r.bind k).All (Keeps s) := by
  refine h.bind fun a t ht => ?_
  have := hk a t
  cases hr : k a t with
  | ok b u => rw [hr] at this; exact ht.trans this
  | trap | wait => trivial

theorem MRes.All.trans {α : Type} {s t : State} {r : MRes α} (h : Keeps s t) (k : r.All (Keeps t)) : r.All (Keeps s) :=
  k.mono fun _ hu => h.trans hu

theorem homeCheck_all (x : Ctx) (pa n : Nat) (va : Word) (whole : Bool) :
    (homeCheck s x pa n va whole).All fun t => t = s := by
  unfold homeCheck
  dsimp only
  repeat' split
  all_goals trivial

theorem homeCheck_keeps (x : Ctx) (pa n : Nat) (va : Word) (whole : Bool) : (homeCheck s x pa n va whole).All (Keeps s) := by
  have := homeCheck_all s x pa n va whole
  cases h : homeCheck s x pa n va whole with
  | ok a t => rw [h] at this; rw [show t = s from this]; exact Keeps.refl s
  | trap | wait => trivial

theorem tableCheck_keeps (x : Ctx) (va : Word) (l : List Nat) : (tableCheck s x va l).All (Keeps s) := by
  induction l generalizing s with
  | nil => exact Keeps.refl s
  | cons pa l ih =>
    refine (homeCheck_keeps s x pa 8 va false).then fun _ t => ?_
    split
    · trivial
    · refine MRes.All.trans ?_ (ih _)
      split
      · exact ⟨rfl, id⟩
      · exact Keeps.refl t

theorem tlbInstall_mem (k : Nat) (e : TlbEntry) (ms : MemSys) : (tlbInstall k e ms).mem = ms.mem := rfl

/-- A walk changes the memory system only, and memory stays canonical. -/
theorem walkInstall_all (x : Ctx) (p : PartId) (acc : Access) (va : Word) : (walkInstall s x p acc va).All (Keeps s) := by
  unfold walkInstall
  refine (tableCheck_keeps s x va _).then fun _ t => ?_
  split
  · trivial
  · refine (tableCheck_keeps t x va _).then fun _ t => ?_
    split
    · trivial
    · split
      · refine ⟨rfl, fun w => ?_⟩
        dsimp only
        rw [tlbInstall_mem]
        split
        · exact w
        · exact homeWrite_wf _ (by rw [dirWrite_mem]; exact w) _ _ _
      · trivial

/-- Translating changes the memory system only: cached translations, and the marks of a leaf. -/
theorem translate_all (x : Ctx) (acc : Access) (va : Word) : (translate s x acc va).All (Keeps s) := by
  unfold translate
  split
  · trivial
  · split
    · trivial
    · split
      · trivial
      · refine MRes.All.then ?_ fun e t => ?_
        · split
          · split
            · exact Keeps.refl s
            · trivial
          · exact walkInstall_all s x _ acc va
        · dsimp only
          split
          · trivial
          · exact Keeps.refl t

/-- A change of the memory system that leaves memory canonical. -/
theorem keeps_updMs (f : MemSys → MemSys) (h : Memory.wf s.ms.mem = true → Memory.wf (f s.ms).mem = true) :
    Keeps s (s.updMs f) := ⟨rfl, h⟩

theorem sRead_mem (ms : MemSys) (x : Filler) (pa n : Nat) : (sRead ms x pa n).2.mem = ms.mem := by
  unfold sRead fillSLine
  cases findSLine ms x.agent (lineOf pa) <;> rfl

theorem sWrite_mem (ms : MemSys) (x : Filler) (pa v n : Nat) : (sWrite ms x pa v n).mem = ms.mem := by
  unfold sWrite fillSLine dropSLine
  cases findSLine ms x.agent (lineOf pa) <;> rfl

/-- Making room for an S-copy writes back what another copy holds. -/
theorem makeRoom_keeps (g : Agent) (line : Nat) : (makeRoom s g line).All (Keeps s) := by
  unfold makeRoom
  dsimp only
  split
  · exact Keeps.refl s
  · split
    · trivial
    · exact ⟨rfl, fun w => flushSLine_wf _ _ w⟩

/-- Asking home for a line sends at most a request to a peer. -/
theorem askHome_keeps (x : Ctx) (pa n : Nat) : Keeps s (askHome s x pa n) := by
  unfold askHome
  split
  · exact ⟨rfl, fun w => w⟩
  · exact Keeps.refl s

theorem readHome_keeps (x : Ctx) (pa n : Nat) : (readHome s x pa n).All (Keeps s) := by
  unfold readHome
  split
  · show Keeps s _
    split
    · exact askHome_keeps s x pa n
    · exact ⟨rfl, id⟩
  · exact Keeps.refl s

/-- A write at home changes this device's memory, or what has gone to a peer or a device. -/
theorem writeHome_keeps (x : Ctx) (pa v n : Nat) : Keeps s (writeHome s x pa v n) := by
  unfold writeHome
  split
  · exact keeps_updMs s _ id
  · exact keeps_updMs s _ fun w => homeWrite_wf _ w _ _ _

/-- A read changes the memory system only and keeps memory canonical. -/
theorem readAt_all (x : Ctx) (t : Xl) (n : Nat) (va : Word) : (readAt s x t n va).All (Keeps s) := by
  refine (homeCheck_keeps s x t.pa n va false).then fun _ u => ?_
  dsimp only
  split
  · exact ⟨rfl, fun w => by dsimp only; rw [dirRead_mem]; exact w⟩
  · split
    · refine (makeRoom_keeps u x.agent _).then fun _ u => ?_
      have h : Keeps u { u with ms := (sRead u.ms (fillerOf u x) t.pa n).2 } := ⟨rfl, fun w => by dsimp only; rw [sRead_mem]; exact w⟩
      show Keeps u _
      split
      · exact h
      · exact h.trans (askHome_keeps _ x _ _)
    · split
      · exact askHome_keeps u x _ _
      · exact readHome_keeps u x _ _

/-- A write changes the memory system only and keeps memory canonical. -/
theorem writeAt_all (x : Ctx) (t : Xl) (v n : Nat) (va : Word) : (writeAt s x t v n va).All (Keeps s) := by
  refine (homeCheck_keeps s x t.pa n va _).then fun _ u => ?_
  have clear (u w : State) (h : Keeps u w) :
      Keeps u (if (n == 128 && t.pa % 128 == 0) = true then w.updMs (clearLine (lineOf t.pa)) else w) := by
    split
    · exact h.trans (keeps_updMs w _ id)
    · exact h
  dsimp only
  split
  · exact clear u _ ((keeps_updMs u _ fun w => by rw [dirWrite_mem]; exact w).trans (writeHome_keeps _ x _ _ _))
  · split
    · refine (makeRoom_keeps u x.agent _).then fun _ u => ?_
      have h : Keeps u { u with ms := sWrite u.ms (fillerOf u x) t.pa v n } := ⟨rfl, fun w => by dsimp only; rw [sWrite_mem]; exact w⟩
      show Keeps u _
      split
      · exact h
      · exact h.trans (askHome_keeps _ x _ _)
    · split
      · exact clear u _ ((keeps_updMs u _ fun w => flushSLines_wf _ _ w).trans (writeHome_keeps _ x _ _ _))
      · exact clear u _ (writeHome_keeps u x _ _ _)

/-- A read-modify-write changes the memory system only and keeps memory canonical. -/
theorem rmwAt_all (x : Ctx) (t : Xl) (n : Nat) (va : Word) (f : Nat → Option Nat) : (rmwAt s x t n va f).All (Keeps s) := by
  refine (homeCheck_keeps s x t.pa n va false).then fun _ u => ?_
  have h : Keeps u (u.updMs fun ms => if t.coh == 0#2 then dirWrite (copier u x t) t.pa u.fclock ms
      else (x.agent :: x.mates).foldl (flushSLine · (lineOf t.pa)) ms) :=
    keeps_updMs u _ fun w => by
      split
      · rw [dirWrite_mem]; exact w
      · exact flushSLines_wf _ _ w
  refine MRes.All.bind ((readHome_keeps _ x t.pa n).mono fun _ k => h.trans k) fun old w k => ?_
  show Keeps u _
  split
  · exact k.trans (writeHome_keeps w x _ _ _)
  · exact k

theorem loadVa_all (x : Ctx) (va : Word) (n : Nat) : (loadVa s x va n).All (Keeps s) :=
  (translate_all s x .read va).then fun t u => readAt_all u x t n va

theorem storeVa_all (x : Ctx) (va : Word) (v n : Nat) : (storeVa s x va v n).All (Keeps s) :=
  (translate_all s x .write va).then fun t u => writeAt_all u x t v n va

/-! ### Operations -/

theorem issue_eq {d : Reg} {uses : List Reg} {p : PartId} (h : s.CanIssue d uses p) (k : State → Op → Out) :
    issue s d uses k = k (issueState s d) (issueOp s d p) := by
  obtain ⟨hr, hc, hp, hs⟩ := h
  unfold issue
  rw [needRegs_eq s hr, if_neg, hp]
  · exact if_neg (by simp [hs])
  · rcases hc with hc | hc
    · simp; omega
    · subst hc; simp

/-- Completing an operation takes it off the list. -/
theorem ops_completeOp (o : Op) (v : Word) : (completeOp s o v).ops = s.ops.filter (·.id != o.id) := by
  simp [completeOp]

/-- Completing an operation writes its token register and clears the mark (R163, R164). -/
theorem core_completeOp (o : Op) (v : Word) : (completeOp s o v).core o.core =
    { s.core o.core with
      g := if o.d = 0 then (s.core o.core).g else (s.core o.core).g.set o.d.toNat v o.d.isLt
      pend := (s.core o.core).pend &&& ~~~(1#32 <<< o.d.toNat)
      run := if (s.core o.core).run = .issue o.id then .running else (s.core o.core).run } := by
  unfold completeOp
  rw [State.core_updCore_self]
  cases o.core <;> rfl

end Sys2Proof.Machine
end

