-- ==== Sys2Proof/Tests/Slice0.lean ====
section
/-!
SUPPORT. Tests: the ill-formed terms that WellFormed refuses, words written out from the tables of spec/ with what they decode to,
one step on small states, and for each statement of the obligations states and operands that meet its hypotheses.
-/

namespace Sys2Proof.Tests
open Sys2Proof Sys2Proof.Machine
set_option Elab.async false

theorem test_decode_integer :
  decodeS 0x00A63800 = some (.add 5 6 7) ∧
  decodeS 0x00A63801 = some (.sub 5 6 7) ∧
  decodeS 0x00A63802 = some (.and 5 6 7) ∧
  decodeS 0x00A63803 = some (.or 5 6 7) ∧
  decodeS 0x00A63804 = some (.xor 5 6 7) ∧
  decodeS 0x00A63805 = some (.sll 5 6 7) ∧
  decodeS 0x00A63806 = some (.srl 5 6 7) ∧
  decodeS 0x00A63807 = some (.sra 5 6 7) ∧
  decodeS 0x00A63808 = some (.slt 5 6 7) ∧
  decodeS 0x00A63809 = some (.sltu 5 6 7) ∧
  decodeS 0x00A6380A = some (.min 5 6 7) ∧
  decodeS 0x00A6380B = some (.max 5 6 7) ∧
  decodeS 0x04A63800 = some (.mul 5 6 7) ∧
  decodeS 0x04A63801 = some (.mulh 5 6 7) ∧
  decodeS 0x04A63802 = some (.mulhu 5 6 7) ∧
  decodeS 0x04A63803 = some (.div 5 6 7) ∧
  decodeS 0x04A63804 = some (.divu 5 6 7) ∧
  decodeS 0x04A63805 = some (.rem 5 6 7) ∧
  decodeS 0x04A63806 = some (.remu 5 6 7) ∧
  decodeS 0x08A60000 = some (.clz 5 6) ∧
  decodeS 0x08A60001 = some (.popc 5 6) := by decide +kernel

theorem test_decode_immediate_and_memory :
  decodeS 0x40A6D2E1 = some (.addi 5 6 0xd2e1) ∧
  decodeS 0x44A6D2E1 = some (.andi 5 6 0xd2e1) ∧
  decodeS 0x48A6D2E1 = some (.ori 5 6 0xd2e1) ∧
  decodeS 0x4CA6D2E1 = some (.xori 5 6 0xd2e1) ∧
  decodeS 0x50A6D2E1 = some (.slti 5 6 0xd2e1) ∧
  decodeS 0x54A0D2E1 = some (.lui 5 0xd2e1) ∧
  decodeS 0x58A60021 = some (.slli 5 6 0x21) ∧
  decodeS 0x58A60061 = some (.srli 5 6 0x21) ∧
  decodeS 0x58A600A1 = some (.srai 5 6 0x21) ∧
  decodeS 0x60A6D2E1 = some (.ld 5 6 0xd2e1) ∧
  decodeS 0x64A6D2E1 = some (.sd 5 6 0xd2e1) ∧
  decodeS 0x68A602E1 = some (.lb 5 6 0x2e1) ∧
  decodeS 0x68A612E1 = some (.lbu 5 6 0x2e1) ∧
  decodeS 0x68A622E1 = some (.lh 5 6 0x2e1) ∧
  decodeS 0x68A632E1 = some (.lhu 5 6 0x2e1) ∧
  decodeS 0x68A642E1 = some (.lw 5 6 0x2e1) ∧
  decodeS 0x68A652E1 = some (.lwu 5 6 0x2e1) ∧
  decodeS 0x6CA602E1 = some (.sb 5 6 0x2e1) ∧
  decodeS 0x6CA612E1 = some (.sh 5 6 0x2e1) ∧
  decodeS 0x6CA622E1 = some (.sw 5 6 0x2e1) ∧
  decodeS 0x70A602E1 = some (.flw 5 6 0x2e1) ∧
  decodeS 0x70A612E1 = some (.fld 5 6 0x2e1) ∧
  decodeS 0x70A622E1 = some (.fsw 5 6 0x2e1) ∧
  decodeS 0x70A632E1 = some (.fsd 5 6 0x2e1) ∧
  decodeS 0x70A652E1 = some (.fldt 5 6 .s 0x2e1) ∧
  decodeS 0x70A682E1 = some (.fsdt 5 6 0x2e1) ∧
  decodeS 0x74A602E1 = some (.lda 5 6 0x2e1) ∧
  decodeS 0x74A612E1 = some (.stl 5 6 0x2e1) := by decide +kernel

theorem test_decode_float :
  decodeS 0x80A6380A = some (.fadd 5 6 7 .rtz .s) ∧
  decodeS 0x80A6384A = some (.fsub 5 6 7 .rtz .s) ∧
  decodeS 0x80A6388A = some (.fmul 5 6 7 .rtz .s) ∧
  decodeS 0x80A638CA = some (.fdiv 5 6 7 .rtz .s) ∧
  decodeS 0x80A6010A = some (.fsqrt 5 6 .rtz .s) ∧
  decodeS 0x80A63942 = some (.fmin 5 6 7 .s) ∧
  decodeS 0x80A63982 = some (.fmax 5 6 7 .s) ∧
  decodeS 0x80A639CA = some (.fsgn 5 6 7 .n .s) ∧
  decodeS 0x80A63A0A = some (.fcmp 5 6 7 .lt .s) ∧
  decodeS 0x80A6024A = some (.frnd 5 6 .rtz .s) ∧
  decodeS 0x84A63A4A = some (.fma 5 6 7 9 .rtz .s) ∧
  decodeS 0x88A63A4A = some (.fms 5 6 7 9 .rtz .s) ∧
  decodeS 0x8CA62108 = some (.fcvt 5 6 .w .s .rtz) ∧
  decodeS 0x90A60002 = some (.fmvg 5 6 .s) ∧
  decodeS 0x90A60042 = some (.fmvf 5 6 .s) ∧
  decodeS 0x90A60082 = some (.fsig 5 6 .s) ∧
  decodeS 0x90A600C2 = some (.fsigset 5 6 .s) ∧
  decodeS 0x959852E1 = some (.bsig 12 0x61 0x12e1) := by decide +kernel

theorem test_decode_branch_and_atomic :
  decodeS 0xA0C7D2E1 = some (.beq 6 7 0xd2e1) ∧
  decodeS 0xA4C7D2E1 = some (.bne 6 7 0xd2e1) ∧
  decodeS 0xA8C7D2E1 = some (.blt 6 7 0xd2e1) ∧
  decodeS 0xACC7D2E1 = some (.bge 6 7 0xd2e1) ∧
  decodeS 0xB0C7D2E1 = some (.bltu 6 7 0xd2e1) ∧
  decodeS 0xB4C7D2E1 = some (.bgeu 6 7 0xd2e1) ∧
  decodeS 0xBAE1D2E1 = some (.jal 0x2e1d2e1) ∧
  decodeS 0xBCA6D2E1 = some (.jalr 5 6 0xd2e1) ∧
  decodeS 0xC0A63807 = some (.amoadd 5 6 7 true .ar) ∧
  decodeS 0xC4A63807 = some (.amoswap 5 6 7 true .ar) ∧
  decodeS 0xC8A6380F = some (.amomin 5 6 7 true true .ar) ∧
  decodeS 0xCCA6380F = some (.amomax 5 6 7 true true .ar) ∧
  decodeS 0xD0A63807 = some (.amocas 5 6 7 true .ar) ∧
  decodeS 0xD4A60000 = some (.mwcas 5 6) ∧
  decodeS 0xD8000002 = some (.fence .device) ∧
  decodeS 0xFCA63800 = some (.reqr 5 6 7) := by decide +kernel

theorem test_decode_extended_low :
  decodeS 0xFCA60001 = some (.rqry 5 6) ∧
  decodeS 0xFCA60002 = some (.loadimg 5 6) ∧
  decodeS 0xFCA63A03 = some (.launch 5 6 7 8) ∧
  decodeS 0xFCA60004 = some (.killr 5 6) ∧
  decodeS 0xFCA63805 = some (.preemptKill 5 6 7) ∧
  decodeS 0xFCA63845 = some (.preemptSnapshot 5 6 7) ∧
  decodeS 0xFCA63806 = some (.resumr 5 6 7) ∧
  decodeS 0xFCA63A07 = some (.strm 5 6 7 8) ∧
  decodeS 0xFCA60008 = some (.sbar 5 6) ∧
  decodeS 0xFCA63A09 = some (.copy 5 6 7 8) ∧
  decodeS 0xFCA6000A = some (.cmpct 5 6) ∧
  decodeS 0xFCA6000B = some (.publish 5 6) ∧
  decodeS 0xFCA6380C = some (.migrate 5 6 7) ∧
  decodeS 0xFCA6380D = some (.coll 5 6 7) ∧
  decodeS 0xFCA6380E = some (.waitw 5 6 7) ∧
  decodeS 0xFCA60010 = some (.assert 5 6) ∧
  decodeS 0xFC060011 = some (.retract 6) ∧
  decodeS 0xFCA63812 = some (.modify 5 6 7) ∧
  decodeS 0xFCA00013 = some (.settle 5) ∧
  decodeS 0xFCA63814 = some (.select 5 6 7) ∧
  decodeS 0xFC060015 = some (.fired 6) ∧
  decodeS 0xFC000016 = some (.wave) ∧
  decodeS 0xFC060017 = some (.scoreclr 6) ∧
  decodeS 0xFC000060 = some (.trap 0x1) := by decide +kernel

theorem test_decode_extended_high :
  decodeS 0xFC000061 = some (.hvcall 0x1) ∧
  decodeS 0xFC000062 = some (.brk 0x1) ∧
  decodeS 0xFC000023 = some (.rett) ∧
  decodeS 0xFCAA5824 = some (.sread 5 10 11) ∧
  decodeS 0xFCAA5825 = some (.swrite 5 10 11) ∧
  decodeS 0xFC060026 = some (.tlbinv 6) ∧
  decodeS 0xFC000027 = some (.tlbsync) ∧
  decodeS 0xFC000028 = some (.wfe) ∧
  decodeS 0xFC000029 = some (.halt) ∧
  decodeS 0xFC06002A = some (.replay 6) ∧
  decodeS 0xFC06382B = some (.fresSupply 6 7) ∧
  decodeS 0xFC06386B = some (.fresRetry 6 7) ∧
  decodeS 0xFC0638AB = some (.fresKill 6 7) ∧
  decodeS 0xFCA6382C = some (.sqstart 5 6 7) ∧
  decodeS 0xFC06002D = some (.cacheopClean 6) ∧
  decodeS 0xFC06006D = some (.cacheopInval 6) ∧
  decodeS 0xFC0600AD = some (.cacheopFlush 6) ∧
  decodeS 0xFC0600ED = some (.cacheopPfr 6) ∧
  decodeS 0xFC06012D = some (.cacheopPfw 6) ∧
  decodeS 0xFC06016D = some (.cacheopIinv 6) := by decide +kernel

/-- A node word by Table 6-9: FMT FP32, VAR 2, ARITY 3 with an immediate on b and a sticky c, IMM32, ROUTE0. -/
def nodeWordOf (opc : BitVec 8) : BitVec 128 :=
  0x00000000#32 ++ 0x81001000#32 ++ 0x12345678#32 ++ 0x93#8 ++ 0x08#8 ++ 0x4A#8 ++ opc

def nodeFieldsOf : NodeFields := ⟨0x0A, 2, 0x08, 0, 1, 2, 3, 0x12345678, 0x81001000, 0⟩

theorem test_decode_every_node :
    ([(0x00, Instr.vadd), (0x01, Instr.vsub), (0x02, Instr.vmul), (0x03, Instr.vfma), (0x04, Instr.vmin), (0x05, Instr.vmax),
      (0x06, Instr.vabs), (0x07, Instr.vneg), (0x08, Instr.vdiv), (0x09, Instr.vsqrt), (0x0A, Instr.vrsq), (0x0B, Instr.vrcp),
      (0x0C, Instr.vexp2), (0x0D, Instr.vlog2), (0x0E, Instr.vtanh), (0x10, Instr.viadd), (0x11, Instr.visub), (0x12,
      Instr.vimul), (0x13, Instr.vand), (0x14, Instr.vor), (0x15, Instr.vxor), (0x16, Instr.vshl), (0x17, Instr.vshr), (0x18,
      Instr.vcmp), (0x19, Instr.vsel), (0x20, Instr.vrsum), (0x21, Instr.vrmax), (0x22, Instr.vrmin), (0x23, Instr.vargmx),
      (0x24, Instr.vscan), (0x25, Instr.vperm), (0x26, Instr.vbcast), (0x27, Instr.vpopc), (0x30, Instr.vcvt), (0x31,
      Instr.qz), (0x32, Instr.dq), (0x33, Instr.cv8), (0x34, Instr.bfly), (0x35, Instr.vsig), (0x36, Instr.sigchk), (0x40,
      Instr.mxf), (0x41, Instr.mxclm), (0x42, Instr.mxrel), (0x43, Instr.mxmul), (0x44, Instr.mxdrn), (0x45, Instr.mxzero),
      (0x46, Instr.mxrec), (0x47, Instr.mxsigm), (0x50, Instr.steer), (0x51, Instr.merge), (0x52, Instr.reord), (0x53,
      Instr.loop), (0x54, Instr.next), (0x55, Instr.lexit), (0x56, Instr.call), (0x57, Instr.ret), (0x58, Instr.ctr), (0x59,
      Instr.sloop), (0x5A, Instr.isect), (0x5B, Instr.union), (0x5C, Instr.stopg), (0x5D, Instr.delay), (0x5E, Instr.sink),
      (0x5F, Instr.dup), (0x60, Instr.switch), (0x61, Instr.selx), (0x62, Instr.cjoin), (0x63, Instr.cleave), (0x64,
      Instr.cbar), (0x65, Instr.cnt), (0x66, Instr.const), (0x70, Instr.agen), (0x71, Instr.ldn), (0x72, Instr.stn), (0x73,
      Instr.ldx), (0x74, Instr.stx), (0x75, Instr.atom), (0x76, Instr.mcas), (0x77, Instr.pref), (0x78, Instr.spacc), (0x79,
      Instr.param), (0x80, Instr.delta), (0x81, Instr.alpha), (0x82, Instr.bjoin), (0x83, Instr.bneg), (0x84, Instr.score),
      (0x85, Instr.term)]
      : List (BitVec 8 × (NodeFields → Instr))).all
      (fun p => decodeNode (nodeWordOf p.1) == some (p.2 nodeFieldsOf)) = true := by decide +kernel

/-! ### Well-formedness: for each check a term it refuses -/

def node0 : NodeFields := ⟨0x0A, 0, 0, 0, 0, 3, 2, 0, 0x81001000, 0⟩

theorem test_wf_accepts : (Instr.vadd node0).wf = true ∧ (Instr.fcvt 1 2 .w .s .rne).wf = true := by decide
theorem test_wf_fcvt_two_integers : (Instr.fcvt 1 2 .w .l .rne).wf = false := by decide
theorem test_wf_fcvt_same_types : (Instr.fcvt 1 2 .s .s .rne).wf = false := by decide
theorem test_wf_port_kind_below_arity : (Instr.vadd { node0 with kb := 3 }).wf = false := by decide
theorem test_wf_port_kind_above_arity : (Instr.vadd { node0 with kc := 0 }).wf = false := by decide
theorem test_wf_two_immediates : (Instr.vadd { node0 with ka := 1, kb := 1 }).wf = false := by decide
theorem test_wf_disabled_route : (Instr.vadd { node0 with route0 := 0x1000 }).wf = false := by decide
theorem test_wf_route_reserved_bit : (Instr.vadd { node0 with route1 := 0x80000001 }).wf = false := by decide
theorem test_wf_tagop_reserved : (Instr.vadd { node0 with route1 := 0x80000300 }).wf = false := by decide
theorem test_wf_tile_off_the_die : (Instr.mxmulExecute ⟨⟨0, 27, 0⟩, 0⟩).wf = false ∧ (Instr.agenEmit ⟨0, 0, 33, 0, 0, 0⟩).wf = false ∧
    (Instr.tokenHop 0 (.link 27 0 .n) .clean).wf = false := by decide
theorem test_wf_cluster : (Instr.thermalLimit 0 99).wf = false := by decide

/-! ### Instructions of a core -/

/-- SY core 0 in partition 0 at S level, with translation of low memory, and some registers. -/
def core0 : State :=
  (State.reset.withFetchWord 32 0).updMe fun c => { c with
    g := (((c.g.set 1 7).set 2 (-3 : Word)).set 4 0x100008).set 5 0x40000000
    f := ((c.f.set 1 ⟨0x3F800000, 24⟩).set 2 ⟨0x40000000, 20⟩).set 3 ⟨0x7FC00000, 0⟩ }

/-- The same core at U level. -/
def coreU : State := core0.updMe fun c => { c with level := .u }

/-- A test on the state an instruction answers. -/
def gives (i : Instr) (s : State) (t : State → Bool) : Bool := match exec i s with | .next u => t u | _ => false


theorem test_add : gives (.add 3 1 2) core0 (fun t => t.rg 3 == 4 && t.me.pc == 0x20004) = true := by decide +kernel

/-- Results of an access. -/
def okM {α : Type} (r : MRes α) : Bool := match r with | .ok _ _ => true | .trap _ _ | .wait => false

theorem ok_of {α : Type} {r : MRes α} (h : okM r = true) : ∃ a s, r = .ok a s := by
  cases r with
  | ok a s => exact ⟨a, s, rfl⟩
  | trap _ _ | wait => cases h

/-- Does a load meet no cause? -/
def loadsB (s : State) (va : Word) (n : Nat) : Bool :=
  va.toNat % n == 0 && !watchHit s.me va n false &&
    match translate s (coreCtx s) .read va with
    | .ok t s1 => okM (readAt s1 (coreCtx s) t n va)
    | .trap _ _ | .wait => false

theorem loads_of {s : State} {va : Word} {n : Nat} (h : loadsB s va n = true) : ∃ v s', s.Loads va n v s' := by
  simp only [loadsB, Bool.and_eq_true, Bool.not_eq_true', beq_iff_eq] at h
  obtain ⟨⟨h1, h2⟩, h3⟩ := h
  split at h3
  · next t s1 ht =>
    obtain ⟨v, s', hv⟩ := ok_of h3
    exact ⟨v, s', h1, h2, t, s1, ht, hv⟩
  all_goals cases h3

/-- Does a store meet no cause? -/
def storesB (s : State) (va : Word) (v n : Nat) : Bool :=
  va.toNat % n == 0 && !watchHit s.me va n true &&
    match translate s (coreCtx s) .write va with
    | .ok t s1 => okM (writeAt s1 (coreCtx s) t v n va)
    | .trap _ _ | .wait => false

theorem stores_of {s : State} {va : Word} {v n : Nat} (h : storesB s va v n = true) : ∃ s', s.Stores va v n s' := by
  simp only [storesB, Bool.and_eq_true, Bool.not_eq_true', beq_iff_eq] at h
  obtain ⟨⟨h1, h2⟩, h3⟩ := h
  split at h3
  · next t s1 ht =>
    obtain ⟨v, s', hv⟩ := ok_of h3
    cases v
    exact ⟨s', h1, h2, t, s1, ht, hv⟩
  all_goals cases h3

theorem free_of {s : State} {rs : List Reg} (h : rs.all (fun r => !s.me.pending r) = true) : s.Free rs := by
  intro r hr
  have := List.all_eq_true.mp h r hr
  simpa using this

theorem ready_of {s : State} {rs : List Reg} (h : rs.all (fun r => !s.me.pending r) = true)
    (k : (s.me.level == .u && s.me.dbgc.getLsbD 0) = false) : s.Ready rs :=
  ⟨free_of h, fun ⟨a, b⟩ => by rw [a, b] at k; exact absurd k (by decide)⟩

/-- Core 0 with 16 bytes at 0x100000. -/
def coreM : State := core0.updMs fun ms => { ms with
  mem := Memory.writeLE (Memory.writeLE ms.mem 0x100000 0xFEDCBA9876543210 8) 0x100008 0x8182838485868788 8 }

/-! #### Witnesses: states and operands that meet the hypotheses of the statements -/

theorem witness_IntegerInstructionsWriteTheirResults :
    core0.Ready [3, 1, 2] ∧ core0.Ready [3, 1] ∧ core0.rg 2 ≠ 0 ∧ core0.rg 0 = 0 := by
  refine ⟨ready_of ?_ ?_, ready_of ?_ ?_, ?_, ?_⟩ <;> decide +kernel

theorem witness_IntegerInstructions_of_g0 : core0.Ready [0, 1, 2] ∧ core0.rg 0 = 0 := by
  refine ⟨ready_of ?_ ?_, ?_⟩ <;> decide +kernel

theorem witness_BranchesAndJumpsGoWhereTheirRulesSay :
    core0.Ready [1, 2] ∧ core0.Ready [3, 4, 31] ∧ (core0.rg 4 + (8 : BitVec 16).signExtend 64).extractLsb' 0 2 = 0 ∧
      (core0.rg 1 + (8 : BitVec 16).signExtend 64).extractLsb' 0 2 ≠ 0 := by
  refine ⟨ready_of ?_ ?_, ready_of ?_ ?_, ?_, ?_⟩ <;> decide +kernel

theorem witness_PendingRegistersHoldAnInstruction :
    (core0.updMe fun c => { c with pend := 2 }).me.pending 1 = true ∧ (1 : Reg) ∈ [3, 1, 2] := by decide +kernel

theorem witness_LoadsMoveTheirBytes :
    core0.Ready [3, 4] ∧ core0.Ready [4] ∧ (∃ v s', coreM.Loads (coreM.rg 4 + (0 : BitVec 12).signExtend 64) 1 v s') ∧
      (∃ v s', coreM.Loads (coreM.rg 4 + (2 : BitVec 12).signExtend 64) 2 v s') ∧
      (∃ v s', coreM.Loads (coreM.rg 4 + (-4 : BitVec 12).signExtend 64) 4 v s') ∧
      (∃ v s', coreM.Loads (coreM.rg 4 + (-8 : BitVec 16).signExtend 64) 8 v s') := by
  refine ⟨ready_of ?_ ?_, ready_of ?_ ?_, loads_of ?_, loads_of ?_, loads_of ?_, loads_of ?_⟩ <;> decide +kernel

theorem witness_StoresMoveTheirBytes :
    (∃ s', coreM.Stores (coreM.rg 4 + (1 : BitVec 12).signExtend 64) (coreM.rg 2).toNat 1 s') ∧
      (∃ s', coreM.Stores (coreM.rg 4 + (2 : BitVec 12).signExtend 64) (coreM.rg 2).toNat 2 s') ∧
      (∃ s', coreM.Stores (coreM.rg 4 + (4 : BitVec 12).signExtend 64) (coreM.rg 2).toNat 4 s') ∧
      (∃ s', coreM.Stores (coreM.rg 4 + (-8 : BitVec 16).signExtend 64) (coreM.rg 2).toNat 8 s') := by
  refine ⟨stores_of ?_, stores_of ?_, stores_of ?_, stores_of ?_⟩ <;> decide +kernel

theorem witness_TaggedLoadsAndStores :
    (coreM.rg 4 + (-8 : BitVec 12).signExtend 64).toNat % 16 = 0 ∧ watchHit coreM.me (coreM.rg 4 - 8) 16 false = false ∧
      (∃ v s', coreM.Loads (coreM.rg 4 - 8) 8 v s') ∧ (∃ v s', coreM.Loads (coreM.rg 4 - 8 + 8) 8 v s') ∧
      watchHit coreM.me (coreM.rg 4 - 8) 16 true = false ∧
      (∃ s', coreM.Stores (coreM.rg 4 - 8) (coreM.rf 1).val.toNat 8 s') := by
  refine ⟨?_, ?_, loads_of ?_, loads_of ?_, ?_, stores_of ?_⟩ <;> decide +kernel

theorem witness_MisalignedAccessesRaise :
    (core0.rg 4 + (1 : BitVec 12).signExtend 64).toNat % 2 ≠ 0 ∧ (core0.rg 4 + (2 : BitVec 12).signExtend 64).toNat % 4 ≠ 0 ∧
      (core0.rg 4 + (4 : BitVec 16).signExtend 64).toNat % 8 ≠ 0 ∧ (core0.rg 4 + (0 : BitVec 12).signExtend 64).toNat % 16 ≠ 0 := by
  decide +kernel

/-- The page of the stores above: a D page of partition 0, not a peer's, with no window open. -/
theorem witness_LoadsAndStoresLeaveTheRestAlone :
    Memory.wf coreM.ms.mem = true ∧ coreM.ms.migrations = [] ∧
      ∃ x s1, translate coreM (coreCtx coreM) .write (coreM.rg 4) = .ok x s1 := by
  refine ⟨?_, ?_, ok_of ?_⟩ <;> decide +kernel

theorem test_translation_of_low_memory :
    (match translate coreM (coreCtx coreM) .write (coreM.rg 4) with
      | .ok x _ => x.pa == 0x100008 && !isPeer x.pa && x.coh != 1
      | _ => false) = true := by decide +kernel

/-! #### Results, from the tables of 08_sequencer_core.md by hand -/

theorem test_register_forms : ([(.add 3 1 2, 4), (.sub 3 1 2, 10), (.and 3 1 2, 5), (.or 3 1 2, -1), (.xor 3 1 2, -6),
    (.sll 3 1 2, 0xE000000000000000), (.srl 3 2 1, 0x01FFFFFFFFFFFFFF), (.sra 3 2 1, -1), (.slt 3 1 2, 0), (.sltu 3 1 2, 1),
    (.min 3 1 2, -3), (.max 3 1 2, 7), (.mul 3 1 2, -21), (.mulh 3 1 2, -1), (.mulhu 3 1 2, 6), (.div 3 1 2, -2),
    (.divu 3 2 1, 0x2492492492492491), (.rem 3 1 2, 1), (.remu 3 1 2, 7), (.clz 3 1, 61), (.popc 3 1, 3)] : List (Instr × Word)).all
    (fun p => gives p.1 core0 fun t => t.rg 3 == p.2 && t.me.pc == 0x20004) = true := by decide +kernel

theorem test_immediate_forms : ([(.addi 3 2 0xFFFF, -4), (.andi 3 2 0xFFFF, 0xFFFD), (.ori 3 2 2, -1), (.xori 3 2 1, -4),
    (.slti 3 2 0, 1), (.lui 3 0x8000, 0xFFFFFFFF80000000), (.slli 3 2 4, -48), (.srli 3 2 60, 15), (.srai 3 2 1, -2)]
    : List (Instr × Word)).all (fun p => gives p.1 core0 fun t => t.rg 3 == p.2) = true := by decide +kernel

theorem test_write_to_g0 : gives (.add 0 1 2) core0 (fun t => t.rg 0 == 0 && t.me.pc == 0x20004) = true := by decide +kernel

theorem test_division_by_zero : gives (.div 3 1 0) core0 (fun t =>
    t.me.level == .h && t.me.th.tcause == 0x46 && t.me.th.tpc == 0x20000 && t.rg 3 == 0) = true := by decide +kernel

theorem test_division_overflow : gives (.div 3 6 7) (core0.updMe fun c => { c with g := (c.g.set 6 (1 <<< 63)).set 7 (-1) })
    (fun t => t.rg 3 == 1 <<< 63) = true := by decide +kernel

theorem test_branches : ([(.beq 1 2 0x10, 0x20004), (.bne 1 2 0xFFFF, 0x1FFFC), (.blt 2 1 4, 0x20010), (.bge 1 1 4, 0x20010),
    (.bltu 1 2 4, 0x20010), (.bgeu 1 2 4, 0x20004), (.bsig 2 21 8, 0x20020), (.bsig 2 20 8, 0x20004), (.jal 0x3FFFFFF, 0x1FFFC),
    (.jalr 4 4 8, 0x100010)] : List (Instr × Word)).all (fun p => gives p.1 core0 fun t => t.me.pc == p.2) = true := by
  decide +kernel

theorem test_jump_links : gives (.jal 4) core0 (fun t => t.rg 31 == 0x20004) = true ∧
    gives (.jalr 4 4 8) core0 (fun t => t.rg 4 == 0x20004) = true := by decide +kernel

theorem test_loads : ([(.lb 3 4 0, 0xFFFFFFFFFFFFFF88), (.lbu 3 4 0, 0x88), (.lh 3 4 2, 0xFFFFFFFFFFFF8586), (.lhu 3 4 2, 0x8586),
    (.lw 3 4 0xFFC, 0xFFFFFFFFFEDCBA98), (.lwu 3 4 4, 0x81828384), (.ld 3 4 0, 0x8182838485868788), (.lda 3 4 0xFF8, 0xFEDCBA9876543210)]
    : List (Instr × Word)).all (fun p => gives p.1 coreM fun t => t.rg 3 == p.2) = true := by decide +kernel

theorem test_stores : ([(.sb 2 4 1, 0x100009, 1, 0xFD), (.sh 2 4 2, 0x10000A, 2, 0xFFFD), (.sw 2 4 4, 0x10000C, 4, 0xFFFFFFFD),
    (.sd 2 4 0, 0x100008, 8, 0xFFFFFFFFFFFFFFFD), (.stl 2 4 8, 0x100010, 8, 0xFFFFFFFFFFFFFFFD), (.fsw 1 4 0, 0x100008, 4, 0x3F800000),
    (.fsd 1 4 8, 0x100010, 8, 0x3F800000)] : List (Instr × Nat × Nat × Nat)).all
    (fun p => gives p.1 coreM fun t => Memory.readLE t.ms.mem p.2.1 p.2.2.1 == p.2.2.2 && t.byteAt 0x100000 == 0x10) = true := by
  decide +kernel

theorem test_float_loads : gives (.flw 4 4 0) coreM (fun t => t.rf 4 == ⟨0x85868788, 24⟩) = true ∧
    gives (.fld 4 4 0) coreM (fun t => t.rf 4 == ⟨0x8182838485868788, 53⟩) = true ∧
    gives (.fldt 4 4 .h 0xFF8) coreM (fun t => t.rf 4 == ⟨0x3210, 8⟩) = true ∧
    gives (.fsdt 2 4 0xFF8) coreM (fun t => Memory.readLE t.ms.mem 0x100000 8 == 0x40000000 &&
      Memory.readLE t.ms.mem 0x100008 8 == 20) = true := by decide +kernel

theorem test_misaligned : gives (.lw 3 4 2) core0 (fun t => t.me.th.tcause == 0x22 && t.me.th.tval == 0x10000A) = true := by
  decide +kernel

theorem test_page_fault : gives (.ld 3 5 0) core0 (fun t => t.me.th.tcause == 0x60 && t.me.th.tval == 0x40000000) = true := by
  decide +kernel

/-! #### Atomics, fences, floating point -/

/-- Does an atomic meet no cause? -/
def rmwB (s : State) (va : Word) (n : Nat) (f : Nat → Option Nat) : Bool :=
  match translate s (coreCtx s) .write va with
  | .ok t s1 => !isDevice t.pa && okM (rmwAt s1 (coreCtx s) t n va f)
  | .trap _ _ | .wait => false

theorem witness_AtomicsReadModifyWrite :
    coreM.Ready [3, 4, 1] ∧ (coreM.rg 4).toNat % 8 = 0 ∧ watchHit coreM.me (coreM.rg 4) 8 false = false ∧
      watchHit coreM.me (coreM.rg 4) 8 true = false ∧
      rmwB coreM (coreM.rg 4) 8 (fun o => some (o + 1)) = true ∧ rmwB coreM (coreM.rg 4) 4 (fun _ => none) = true := by
  refine ⟨ready_of ?_ ?_, ?_, ?_, ?_, ?_, ?_⟩ <;> decide +kernel

theorem witness_ReadModifyWriteActsAtHome :
    Memory.wf coreM.ms.mem = true ∧ isDevice 0x100008 = false ∧ isPeer 0x100008 = false ∧ keyErased coreM (coreCtx coreM) = false ∧
      (linesOf 0x100008 8).any (lockedBy coreM (coreCtx coreM)) = false ∧
      (linesOf 0x100008 8).any (coreM.ms.poison.contains ·) = false ∧ (linesOf 0x100008 8).any (coreM.ms.badMac.contains ·) = false ∧
      findSLine coreM.ms (coreCtx coreM).agent (lineOf 0x100008) = none ∧ coreM.ms.migrations = [] := by decide +kernel

theorem test_atomics : ([(.amoadd 3 4 1 false .ar, 0x818283848586878F, 0x8182838485868788),
    (.amoswap 3 4 1 true .plain, 0x8182838400000007, 0xFFFFFFFF85868788), (.amomin 3 4 1 false false .plain, 0x8182838485868788, 0x8182838485868788),
    (.amomin 3 4 1 true false .plain, 7, 0x8182838485868788), (.amomax 3 4 1 false true .aq, 0x8182838400000007, 0xFFFFFFFF85868788),
    (.amocas 3 4 1 false .rl, 0x8182838485868788, 0x8182838485868788)] : List (Instr × Nat × Word)).all
    (fun p => gives p.1 coreM fun t => Memory.readLE t.ms.mem 0x100008 8 == p.2.1 && t.rg 3 == p.2.2) = true := by decide +kernel

theorem test_fence : gives (.fence .device) coreM (fun t => t.me.pc == 0x20004) = true ∧ coreM.Ready [] := by
  refine ⟨?_, ready_of ?_ ?_⟩ <;> decide +kernel

/-- A MWCAS block of two entries at 0x100100: 0x100000, expected as it stands, new 5; 0x100080, expected 0, new 9 (Table 5-10). -/
def coreB : State := (coreM.updMs fun ms => { ms with
  mem := [(0x100100, 2), (0x100108, 0x100000), (0x100110, 0xFEDCBA9876543210), (0x100118, 5), (0x100120, 0x100080),
    (0x100130, 9)].foldl (fun m e => Memory.writeLE m e.1 e.2 8) ms.mem }).updMe fun c => { c with g := c.g.set 8 0x100100 }

/-- The state a meaning answers. -/
def after (s : State) (f : State → Host.Outcome State Fault Refusal) : State := match f s with | .next t => t | _ => s

/-- The MWCAS of `coreB` begun, and with one lock and both locks granted. -/
def mwId : Nat := coreB.nextOp
def mw0 : State := after coreB (execMwcas 3 8)
def mw1 : State := after mw0 (execCrucibleLockGrant mwId)
def mw2 : State := after mw1 (execCrucibleLockGrant mwId)

theorem witness_MwcasLocksComparesAndCommits : coreB.Ready [3, 8] ∧ coreB.me.part = some 0 ∧
    ∃ m s1, mwcasCheck coreB.acquireMe (coreCtx coreB) 0 (fun va w => watchHit coreB.me va 8 w) (coreB.rg 8) coreB.nextOp =
      .ok m s1 := by
  refine ⟨ready_of ?_ ?_, ?_, ok_of ?_⟩ <;> decide +kernel

theorem witness_TheCrucibleGrantsAndCommits :
    (match findMw mw0 mwId with
      | some (m, _) => m.want.length == 2 && lockable mw0.ms m && lockTurn mw0.ms m
      | none => false) = true ∧
    (match findMw mw1 mwId with
      | some (m, _) => m.want.length == 1 && lockable mw1.ms m && lockTurn mw1.ms m
      | none => false) = true ∧
    (match findMw mw2 mwId with
      | some (m, _) => m.op == mwId && m.commits.length == 2
      | none => false) = true := by decide +kernel

theorem test_mwcas_begins : mw0.ms.mwcas.length = 1 ∧ mw0.me.pc = 0x20000 ∧ mw0.ms.mem = coreB.ms.mem := by decide +kernel

theorem test_crucible_commits_both : (let t := after (after mw2 (execMwcasCommit mwId)) (execMwcasCommit mwId)
    Memory.readLE t.ms.mem 0x100000 8 = 5 ∧ Memory.readLE t.ms.mem 0x100080 8 = 9 ∧ Memory.readLE t.ms.mem 0x100100 8 = 2 ^ 63 + 2 ∧
      t.ms.locks = [] ∧ t.rg 3 = 0x8000000000000002) := by decide +kernel

/-! #### Floating point -/

/-- SIGLOW on with threshold 22, every exception enabled. -/
def coreT : State := core0.updMe fun c => { c with sigctl := 0x80 + 22, fcsr := 0x1F00, f := c.f.set 2 ⟨0x40000000, 24⟩ }

theorem witness_FloatArithmeticRoundsOnce : core0.Ready [] ∧ resolveRm core0.me.fcsr .dyn = some .rne ∧
    (∀ fl, core0.NoFpTrap fl) ∧ (∀ t xs, core0.NoSigLow t xs) :=
  ⟨ready_of (by decide +kernel) (by decide +kernel), by decide +kernel,
    fun fl => by
      have h : core0.me.fcsr.extractLsb' 8 5 = 0 := by decide +kernel
      simp [State.NoFpTrap, h],
    fun t xs h => absurd h (by decide +kernel)⟩

theorem witness_SelectionsAndComparisons : core0.Ready [4] ∧ isNaN (opVal (core0.rf 3) .s) = true ∧
    isNaN (opVal (core0.rf 1) .s) = false ∧ isNaN (opVal (core0.rf 2) .s) = false := by
  refine ⟨ready_of ?_ ?_, ?_, ?_, ?_⟩ <;> decide +kernel

theorem witness_ConversionsBetweenTypes : core0.Ready [1] ∧ resolveRm core0.me.fcsr .rne = some .rne ∧
    CvtTyFmt .s = some .s ∧ CvtTyFmt .d = some .d ∧ CvtTyFmt .l = none ∧ core0.NoFpTrap {} ∧
    (∃ n k e, opVal (core0.rf 1) .s = .num n k e) ∧ (∃ q, opVal (core0.rf 3) .s = .nan q) ∧ opVal ⟨0x7F800000, 24⟩ .s = .inf false := by
  refine ⟨ready_of ?_ ?_, ?_, ?_, ?_, ?_, by unfold State.NoFpTrap; decide +kernel, ⟨_, _, _, rfl⟩, ⟨_, rfl⟩, ?_⟩ <;> decide +kernel

theorem witness_MovesBetweenTheFiles : core0.Ready [4] ∧ core0.Ready [1] := by
  refine ⟨ready_of ?_ ?_, ready_of ?_ ?_⟩ <;> decide +kernel

theorem witness_FloatTrapsKeepTheFlags :
    enabledCause coreT.me.fcsr { dz := true } = some 0x42 ∧ enabledCause coreT.me.fcsr { nv := true, nx := true } = some 0x41 ∧
      coreT.NoFpTrap {} ∧ coreT.me.sigctl.getLsbD 7 = true ∧ sigThr coreT.me.sigctl ≤ opTag (coreT.rf 1) .s ∧
      sigThr coreT.me.sigctl ≤ opTag (coreT.rf 2) .s ∧
      ((0xA0 : Word).extractLsb' 5 3).toNat ∈ [5, 6, 7] := by
  refine ⟨?_, ?_, by unfold State.NoFpTrap; decide +kernel, ?_, ?_, ?_, ?_⟩ <;> decide +kernel

theorem test_float_results : ([(.fadd 4 1 2 .rne .s, 0x40400000), (.fsub 4 1 2 .rne .s, 0xBF800000), (.fmul 4 2 2 .rtz .s, 0x40800000),
    (.fdiv 4 1 2 .rne .s, 0x3F000000), (.fsqrt 4 1 .rne .s, 0x3F800000), (.fma 4 1 2 2 .dyn .s, 0x40800000),
    (.fms 4 1 2 2 .dyn .s, 0), (.fmin 4 1 2 .s, 0x3F800000), (.fmax 4 1 2 .s, 0x40000000), (.fmax 4 1 3 .s, 0x3F800000),
    (.fsgn 4 1 2 .n .s, 0xBF800000), (.frnd 4 2 .rne .s, 0x40000000), (.fcvt 4 2 .s .d .rne, 0x4000000000000000),
    (.fcvt 4 2 .l .s .rne, 0xC0400000), (.fdiv 4 1 0 .rne .s, 0x7F800000)] : List (Instr × Word)).all
    (fun p => gives p.1 core0 fun t => (t.rf 4).val == p.2 && t.me.pc == 0x20004) = true := by decide +kernel

theorem test_float_to_registers : ([(.fcmp 4 1 2 .lt .s, 1), (.fcmp 4 1 3 .un .s, 1), (.fcmp 4 1 3 .le .s, 0), (.fcvt 4 2 .s .w .rne, 2),
    (.fmvg 4 2 .h, 0), (.fmvg 4 2 .s, 0x40000000), (.fsig 4 1 .s, 24), (.fsig 4 1 .b, 8)] : List (Instr × Word)).all
    (fun p => gives p.1 core0 fun t => t.rg 4 == p.2) = true := by decide +kernel

theorem test_flags : gives (.fcmp 4 1 3 .le .s) core0 (fun t => t.me.fcsr == 0x10) = true ∧
    gives (.fdiv 4 1 0 .rne .s) core0 (fun t => t.me.fcsr == 0x08) = true := by decide +kernel

theorem test_tags : gives (.fmvf 4 1 .h) core0 (fun t => t.rf 4 == ⟨7, 11⟩) = true ∧
    gives (.fsigset 1 1 .s) core0 (fun t => t.rf 1 == ⟨0x3F800000, 7⟩) = true ∧
    gives (.fadd 4 1 2 .rne .s) core0 (fun t => (t.rf 4).tag == 20) = true := by decide +kernel

theorem test_float_trap : gives (.fdiv 4 1 0 .rne .s) coreT (fun t =>
    t.me.th.tcause == 0x42 && t.me.fcsr == 0x1F08 && t.rf 4 == core0.rf 4) = true := by decide +kernel

theorem test_illegal_rounding_mode : gives (.fadd 4 1 2 .dyn .s) (core0.updMe fun c => { c with fcsr := 0xA0 }) (fun t =>
    t.me.th.tcause == 0x20) = true := by decide +kernel

/-! #### Traps, privilege, special registers, waits, interrupts -/

/-- Core 0 with handlers at 0x20100 (S) and 0x20200 (H), at S level and at U level. -/
def coreS : State := core0.updMe fun c => { c with
  ts := { c.ts with tvec := 0x20100, status := 1, tpc := 0x20040, tscr := 9 }, th := { c.th with tvec := 0x20200 } }
def coreSU : State := coreS.updMe fun c => { c with level := .u }
def coreSH : State := coreS.updMe fun c => { c with level := .h }

theorem witness_IllegalAndPrivilegedWordsRaise : core0.me.run = .running ∧ decodeS 0xFFFFFFFF = none ∧ coreU.me.level = .u := by
  decide +kernel

theorem witness_TrapsEnterTheirHandler :
    (Instr.brk 5, (0x02 : BitVec 8)) ∈ [(Instr.trap 5, (0x00 : BitVec 8)), (.brk 5, 0x02), (.hvcall 5, 0x01)] ∧
    coreSU.ops = [] ∧ coreS.ops = [] ∧
    trapLevel 0x02 coreSU.me.level = .s ∧ trapLevel 0x01 coreS.me.level = .h ∧
    (fetchFaults ((coreSU.updMe clearSkip).updMe fun c => enterTrap c .s 0x02 false 5 0x20004) coreSU.cur).1 = none ∧
    (fetchFaults ((coreS.updMe clearSkip).updMe fun c => enterTrap c .h 0x01 false 5 0x20004) coreS.cur).1 = none := by
  decide +kernel

/-- A handler whose fetch faults, at S and, as its level 3 is no address, at H. -/
theorem witness_DoubleFault :
    ((fetchFaults ((coreSU.updMe fun c => { c with ts := { c.ts with tvec := 0x40000000 } }).updCore coreSU.cur
      fun x => enterTrap x .s 0x02 false 5 0x20004) coreSU.cur).1).isSome = true := by decide +kernel

theorem witness_RettReturnsFromATrap : coreSU.me.level = .u ∧ coreS.me.level ≠ .u ∧
    (coreS.me.trapRegs coreS.me.level).status.extractLsb' 2 2 = levelCode .u ∧ levelNat .u ≤ levelNat coreS.me.level ∧
    (let c := coreS.updMe fun c => { c with ts := { c.ts with status := 8 } };
      (c.me.trapRegs c.me.level).status.extractLsb' 2 2 = levelCode .h ∧ levelNat c.me.level < levelNat .h) ∧
    (let c := coreS.updMe fun c => { c with ts := { c.ts with status := 12 } };
      (c.me.trapRegs c.me.level).status.extractLsb' 2 2 = 3) := by decide +kernel

theorem test_trap_from_u : gives (.trap 9) coreSU (fun t => t.me.pc == 0x20100 && t.me.level == .s && t.me.ts.tpc == 0x20004 &&
    t.me.ts.tcause == 0 && t.me.ts.tval == 9 && t.me.ts.status == 2 && t.me.ts.tscr == 9) = true := by decide +kernel
theorem test_brk_from_s : gives (.brk 3) coreS (fun t => t.me.pc == 0x20200 && t.me.level == .h && t.me.th.tpc == 0x20004 &&
    t.me.th.tcause == 2 && t.me.th.tval == 3 && t.me.th.status.extractLsb' 2 2 == 1) = true := by decide +kernel
theorem test_hvcall : gives (.hvcall 7) coreS (fun t => t.me.pc == 0x20200 && t.me.level == .h && t.me.th.tcause == 1) = true ∧
    gives (.hvcall 7) coreSU (fun t => t.me.pc == 0x20100 && t.me.ts.tcause == 0x21 && t.me.ts.tval == 0xFC0001E1) = true := by
  decide +kernel
theorem test_rett : gives .rett (coreS.updMe fun c => { c with ts := { c.ts with status := 2 } }) (fun t =>
    t.me.pc == 0x20040 && t.me.level == .u && t.me.ts.status == 3) = true ∧
    gives .rett coreSU (fun t => t.me.ts.tcause == 0x21) = true := by decide +kernel
theorem test_double_fault : gives (.trap 9) (coreSU.updMe fun c => { c with ts := { c.ts with tvec := 0x40000000 } }) (fun t =>
    t.me.pc == 0x20200 && t.me.level == .h && t.me.th.tcause == 0xA1 && t.me.th.tval.extractLsb' 0 8 == 0) = true := by
  decide +kernel
theorem test_illegal_word : gives (.illegalWord 0xFFFFFFFF) coreSU (fun t =>
    t.me.ts.tcause == 0x20 && t.me.ts.tval == 0xFFFFFFFF && t.me.ts.tpc == 0x20000) = true := by decide +kernel
theorem test_fetch_fault : (let s := coreSU.updMe fun c => { c with pc := 0x40000000 };
    gives (.instructionFetchFault 0x60 0x40000000) s (fun t => t.me.ts.tcause == 0x60 && t.me.ts.tval == 0x40000000) = true ∧
    gives (.instructionFetchFault 0x61 0x40000000) s (fun t => t.me.ts.tcause == 0 && t.me.pc == 0x40000000) = true) := by
  decide +kernel

/-- 0x016 is TIMECMP, 0x030 WATCH0, 0x1FF is unassigned; 0x016 is S's, and 0x010 STATUS. -/
theorem witness_SpecialRegistersAreReadAndWritten :
    (∃ i, regInfo (regNum 0 0x16).toNat = some i ∧ regOn coreS.cur i = true ∧ levelNat i.rd ≤ levelNat coreS.me.level ∧
      levelNat coreSU.me.level < levelNat i.rd ∧ (∃ l, i.wr = some l ∧ levelNat l ≤ levelNat coreS.me.level ∧
        levelNat coreSU.me.level < levelNat l)) ∧
    readWaits coreS coreS.cur (regNum 0 0x16).toNat = false ∧ coreS.me.part ≠ none ∧ regInfo (regNum 0x0F 0x1F).toNat = none :=
  ⟨⟨_, rfl, by decide +kernel⟩, by decide +kernel⟩

theorem test_swrite_sread : gives (.swrite 1 0 0x16) coreS (fun t => t.me.timecmp == 7 && t.me.pc == 0x20004) = true ∧
    gives (.sread 3 0 0x14) (coreS.updMe fun c => { c with ts := { c.ts with tval := 77 } }) (fun t => t.rg 3 == 77) = true ∧
    gives (.swrite 1 0 0x16) coreSU (fun t => t.me.ts.tcause == 0x21) = true ∧
    gives (.sread 3 0x0F 0x1F) coreS (fun t => t.me.th.tcause == 0x20) = true := by decide +kernel

theorem test_fcsr_flags_clear_on_ones : gives (.swrite 1 0 0) (coreS.updMe fun c => { c with fcsr := 0x1F }) (fun t =>
    t.me.fcsr == 0x18) = true := by decide +kernel

/-- Core 0 at H with region 3 and SQ core 5 of its partition selected; the region runs, SQ core 5 is halted. -/
def coreG : State :=
  ((((coreSH.updCtl 3 fun c => { c with st := .running }).updCore (.sq 5) fun c => { c with part := some 0, run := .halted }).updMe
    fun c => { c with sel := { c.sel with fgsel := 3, sqsel := 5 } }).updPart 0 fun q => { q with crashk := 1, pfqtail := 6 })

theorem witness_RegisterEventsActAsTheirAccesses :
    (([0x016, 0x022, 0x041, 0x0D1, 0x0A7, 0x0E3, 0x0E4, 0x0EE, 0x0EF] : List Nat).all fun n => regAllowed coreG coreG.cur n true) = true ∧
    (([0x023, 0x0E5, 0x0E7] : List Nat).all fun n => regAllowed coreG coreG.cur n false) = true ∧
    (coreG.core coreG.cur).part = some 0 ∧ deltaInFlight coreG 0 = false ∧ (coreG.rules 0).insts = [] ∧
    selectedSq coreG coreG.cur = some (.sq 5) ∧ (coreG.core (.sq 5)).stoppedNow = true ∧
    levelOfCode (coreG.core (.sq 5)).sqlevel = some .s ∧ fgRegion coreG coreG.cur = some 3 ∧ (coreG.ctl 3).st = .running ∧
    (coreG.dbg 3).stop = .going ∧ (coreG.dbg 3).listing = false ∧ cstopCore 5 = some (.sq 5) ∧
    (coreG.core (.sq 5)).part = (coreG.core coreG.cur).part ∧ (coreG.part 0).crashk.getLsbD 0 = true ∧
    regAllowed coreG coreG.cur 0x3FF true = false := by decide +kernel

theorem witness_RegisterEvents_otherCases :
    deltaInFlight (coreG.updRules 0 fun q => { q with unsettled := [⟨1, 1, false, [], 0⟩] }) 0 = true ∧
    ((coreG.updCore (.sq 5) fun c => { c with run := .running }).core (.sq 5)).run = .running ∧
    ((coreG.updDbg 3 fun d => { d with stop := .stopped }).dbg 3).stop ≠ .going := by decide +kernel

theorem test_register_events :
    (let t := after coreG (execPfqheadWrite coreG.cur 0x145);
      (t.part 0).pfqhead = 5) ∧
    (let t := after coreG (execPfqtailRead coreG.cur 9);
      t.rg 9 = 6) ∧
    (let t := after coreG (execTqcfgWrite coreG.cur 0x383);
      (queueOf t 0).rank = 3 ∧ (queueOf t 0).en = true ∧ (queueOf t 0).owner = 3) ∧
    (let t := after coreG (execFgctlStop coreG.cur);
      (t.dbg 3).stop = .stopping) ∧
    (let t := after coreG (execSqctlGo coreG.cur);
      (t.core (.sq 5)).run = .running) ∧
    (let t := after coreG (execFgcstopWrite coreG.cur 5);
      (t.core (.sq 5)).dbgstop = true) := by decide +kernel

theorem witness_WaitsEndAsTheirRulesSay :
    coreM.Free [3, 4, 1] ∧ (∃ v s', coreM.Loads (coreM.rg 4) 8 v s') ∧ pendingInt coreS coreS.cur = none ∧
    pendingInt (coreS.updPart 0 fun q => { q with hostEvent := true }) coreS.cur = some 0x08 ∧ coreS.me.level ≠ .u ∧
    coreS.me.pend = 0 ∧ coreS.me.part = some 0 ∧ tlbSynced coreS coreS.cur = true ∧
    ((coreS.updMe fun c => { c with run := .waitw 3 4 1, timecmp := 9 }).core coreS.cur).run = .waitw 3 4 1 ∧
    coreS.fclock.toNat < 9 ∧ ((coreS.updMe fun c => { c with run := .wfe }).core coreS.cur).run = .wfe ∧
    takenInt (coreS.updPart 0 fun q => { q with hostEvent := true }) coreS.cur = some 0x08 := by
  refine ⟨free_of ?_, loads_of ?_, ?_⟩ <;> decide +kernel

theorem test_waitw : gives (.waitw 3 4 1) coreM (fun t => t.rg 3 == 0x8182838485868788 && t.me.pc == 0x20004) = true ∧
    gives (.waitw 3 4 1) (coreM.updMe fun c => { c with g := c.g.set 1 0x8182838485868788 }) (fun t =>
      t.me.run == .waitw 3 4 1 && t.me.pc == 0x20000) = true := by decide +kernel

theorem test_wfe_halt : gives .wfe coreS (fun t => t.me.run == .wfe) = true ∧
    gives .halt coreS (fun t => t.me.run == .halted && t.me.pc == 0x20004) = true := by decide +kernel

theorem test_tlb : gives (.ld 3 4 0) coreM (fun t => t.ms.tlb.length == 1 &&
    gives (.tlbinv 4) t (fun u => u.ms.tlb.length == 0 && gives .tlbsync u fun v => v.me.pc == 0x2000C)) = true := by decide +kernel

theorem witness_InterruptsAreTakenInTheirOrder :
    (coreS.core coreS.cur).part = some 0 ∧ coreS.cur = .sy 0 ∧ (coreS.core coreS.cur).run = .running ∧
    (coreS.core coreS.cur).ts.status.getLsbD 0 = true ∧ (coreSU.core coreSU.cur).level = .u ∧
    (core0.core core0.cur).ts.status.getLsbD 0 = false := by decide +kernel

theorem test_interrupts :
    (let t := after (coreS.updPart 0 fun q => { q with hostEvent := true, thermal := some 0x105 }) (execInterruptTake coreS.cur);
      t.me.pc = 0x20100 ∧ t.me.ts.tcause.extractLsb' 0 8 = 0xA6 ∧ t.me.ts.tval = 0x105 ∧ t.me.ts.tpc = 0x20000 ∧
        (t.part 0).thermal = none ∧ (t.part 0).hostEvent = true) := by decide +kernel

theorem witness_CacheopsActOnOneLine : coreM.Free [4] ∧
    (∃ t s1, probeVa coreM (coreCtx coreM) false (coreM.rg 4) = .ok t s1) ∧
    (∃ t s1, probeVa coreM (coreCtx coreM) true (coreM.rg 4) = .ok t s1) ∧
    (match probeVa coreM (coreCtx coreM) false (coreM.rg 5), probeVa coreM (coreCtx coreM) true (coreM.rg 5) with
      | .trap _ _, .trap _ _ => true | _, _ => false) = true := by
  refine ⟨free_of ?_, ok_of ?_, ok_of ?_, ?_⟩ <;> decide +kernel

theorem test_cacheops : ([.cacheopClean 4, .cacheopInval 4, .cacheopFlush 4, .cacheopPfr 4, .cacheopPfw 4, .cacheopPfw 5, .cacheopIinv 4]
    : List Instr).all (fun i => gives i coreM fun t => t.me.pc == 0x20004 && t.ms.mem.length == coreM.ms.mem.length) = true := by
  decide +kernel

/-- Entry 0 of a fault queue in memory at 0x100200 for fault 7 of region 3, by which an activation is parked, with an image of a token at
0x100240. -/
def coreP : State :=
  ((((coreM.updCtl 3 fun c => { c with st := .running }).updFab 3 fun f =>
    { f with parkTab := [⟨0, 0, false, 0x60, 0, 0, 0, 0, none, 7, [], []⟩] }).updMs fun ms => { ms with
    mem := [(0x100200, 5 + 3 * 2 ^ 48), (0x100210, 77), (0x100240, 6), (0x100280, 0x1234)].foldl
      (fun m e => Memory.writeLE m e.1 e.2 8) ms.mem }).updPart 0 fun q =>
    { q with faults := [⟨7, 3, 0x60, 77, some 5, 0, true, true, false, []⟩] }).updMe fun c =>
      { c with g := (c.g.set 10 0x100200).set 11 0x100240 }

def fresB (e im : Bool) : Bool :=
  (!im || (match loadBytes coreP (coreCtx coreP) (coreP.rg 11) 80 with | .ok b _ => (imageTok b).isSome | _ => false)) &&
  (!e || match loadBytes coreP (coreCtx coreP) (coreP.rg 10) 64 with
    | .ok b s1 => (match faultOf (s1.part 0) b with | some f => f.id == 7 && f.resumable && !f.resolved && faultStands s1 0 7 | none => false)
    | _ => false)

theorem witness_FaultsAreResolvedByReplayAndFres : coreP.me.level ≠ .u ∧ coreP.Free [10, 11] ∧ coreP.me.part = some 0 ∧
    (coreP.rg 10).toNat % 64 = 0 ∧ (coreP.rg 11).toNat % 64 = 0 ∧ fresB true true = true ∧ (coreP.rg 4).toNat % 64 ≠ 0 := by
  refine ⟨?_, free_of ?_, ?_⟩ <;> decide +kernel

theorem test_fres : ([.fresRetry 10 11, .fresKill 10 11, .fresSupply 10 11] : List Instr).all (fun i => gives i coreP fun t =>
    (t.part 0).faults.all (·.resolved) && t.me.pc == 0x20004) = true := by decide +kernel

theorem test_replay : gives (.replay 10) coreP (fun t => t.me.pc == 0x20004) = true := by decide +kernel

/-! #### Regions, images, engines, rules -/

/-- An image of 240 bytes: header, section table, and a CFG section for a 1 by 1 cluster whose tile (0,0) holds SINK.DONE with N = 1
in slot 0 (Tables 6-15 to 6-17); its RSIG was worked out apart from the model. -/
def img : Nat :=
  0x1f100005e00000000000000010000000000000000 * 2 ^ (8 * 192) +
  0x94fbf24d9de7e0c5950f43e8550b61c36eba387d6ab9889fe5f19361d96665630000000000000000000000000000000000000000000100000001000000000101 * 2 ^ (8 * 128) +
  0x6000000000000000800000000000000001 * 2 ^ (8 * 64) +
  0x1000000000000000e0000000000000004000000000000000f00001000135494d53
def imgRsig : BitVec 256 := 0x94fbf24d9de7e0c5950f43e8550b61c36eba387d6ab9889fe5f19361d9666563

def sinkCfg : Cfg := ⟨1, 1, 0, 0, 16, 0x10000, [⟨0, 0, 0, 0x1F100005E⟩], [], [], [], imgRsig⟩

theorem test_image_passes_its_checks : (match checkImage (natBytes 240 img) with
    | .ok m => loadRecOf 0x110000 m == ⟨0x110000, [(0, imgRsig)], 0, (loadRecOf 0x110000 m).used⟩
    | .error _ => false) = true := by decide +kernel

/-- A byte that Table 6-16 reserves, and a tile outside the shape. -/
theorem test_image_is_refused : checkImage (natBytes 240 (img + 2 ^ (8 * 95))) = .error 0x89 ∧
    checkImage (natBytes 240 (img + 99 * 2 ^ (8 * 192))) = .error 0x8D := by decide +kernel

/-- Core 0 at S with the image at 0x110000 and its load record, region 3 of its partition, and operands in registers:
g12 = 3, g13 = 0x110000 (index 0), g14 = 0x100300, g15 = 2 rows by 3 columns, g16 = 0x100400. -/
def coreR (st : RState) : State :=
  ((((coreM.updMs fun ms => { ms with mem := Memory.writeLE ms.mem 0x110000 img 240 }).updPart 0 fun q =>
    { q with loads := [⟨0x110000, [(0, imgRsig)], 0, 0⟩] }).updCtl 3 fun c => { c with st := st, crows := 1, ccols := 1 }).updMe fun c =>
    { c with g := ((((c.g.set 12 3).set 13 0x110000).set 14 0x100300).set 15 0x32).set 16 0x101000 }).updDie 0 fun z =>
    { z with queues := z.queues.set 0 ⟨0, true, 0, [], 0⟩ }

/-- The region with the SINK configuration loaded. -/
def coreC (st : RState) : State := (coreR st).updCtl 3 fun c => { c with cfg := some sinkCfg }

theorem issue_of {s : State} {d : Reg} {us : List Reg} {p : PartId} (h : (d :: us).all (fun r => !s.me.pending r) = true)
    (k : (pendCount s.me < 16 ∨ d = 0) ∧ s.me.part = some p ∧ syncHeld s (.coreD s.cur) = false) : s.CanIssue d us p := ⟨free_of h, k⟩

def probesB (s : State) (w : Bool) (va : Word) : Bool := okM (probeVa s (hubCtx 0 .s) w va)

theorem witness_RegionInstructionsBegin :
    (coreR .idle).CanIssue 3 [15, 0] 0 ∧ (coreR .idle).CanIssue 3 [12, 13, 14] 0 ∧
    ((coreR .idle).rg 15).extractLsb' 10 54 = 0 ∧ ownsAll (issueState (coreR .idle) 3) 0 0 = false ∧
    (((issueState (coreR .idle) 3).die 0).queues[0]).en = true ∧ (((issueState (coreR .idle) 3).die 0).queues[0]).owner = 0 ∧
    regionArg (issueState (coreR .idle) 3) (issueOp (coreR .idle) 3 0) ((coreR .idle).rg 12) = .ok 3 ∧
    probesB (wakeRegion (issueState (coreR .idle) 3) 3) true ((coreR .idle).rg 14) = true ∧
    ((wakeRegion (issueState (coreR .idle) 3) 3).ctl 3).st = .idle ∧
    ((wakeRegion (issueState (coreR .running) 3) 3).ctl 3).st = .running ∧
    okM (probePages (wakeRegion (issueState (coreR .running) 3) 3) (hubCtx 0 .s) ((coreR .running).rg 16)
      (saveUnits ((wakeRegion (issueState (coreR .running) 3) 3).ctl 3)).toNat) = true ∧
    ((wakeRegion (issueState (coreC .running) 3) 3).ctl 3).cfg = some sinkCfg := by
  refine ⟨issue_of ?_ ?_, issue_of ?_ ?_, ?_⟩ <;> decide +kernel

theorem test_region_instructions : ([(.reqr 3 15 0, .reqr 0 0 2 3), (.launch 3 12 13 14, .launch 3 0x110000 0 0x100300)]
    : List (Instr × OpKind)).all (fun p => gives p.1 (coreR .idle) fun t =>
      (t.ops.map (·.kind)) == [p.2] && t.me.pending 3 && t.me.pc == 0x20004) = true := by decide +kernel

theorem test_killr_and_preempt : gives (.killr 3 12) (coreR .running) (fun t => (t.ctl 3).st == .frozen || (t.ops.map (·.kind)) == [.killr 3]) = true ∧
    gives (.preemptSnapshot 3 12 16) (coreR .running) (fun t => (t.ops.map (·.kind)) == [.snapshot 3 0x101000]) = true ∧
    gives (.sbar 3 12) (coreR .running) (fun t => (t.ops.map (·.kind)) == [.sbar 3]) = true := by decide +kernel

/-- A save area at 0x120000 for region 3: header of Table 21-4, with no body (SHAKE256 of nothing, FIPS 202). -/
def zeroHash : BitVec 256 := 0x2f76d56e64270cb5821bb862ea52cd3f24eb3e74eb3f3b23138da80b2bddb946
def coreV : State :=
  ((coreC .saved).updMs fun ms => { ms with
    mem := ([(0x120000, 8, 0x0003000000000000 + 0x00014B355350), (0x120008, 8, 0x0101), (0x120010, 8, 0x110000),
      (0x120040, 32, imgRsig.toNat), (0x120060, 32, zeroHash.toNat)] : List (Nat × Nat × Nat)).foldl
      (fun m e => Memory.writeLE m e.1 e.2.2 e.2.1) ms.mem }).updCtl 3 (fun c => { c with savedHash := zeroHash })
    |>.updMe fun c => { c with g := c.g.set 17 0x120000 }

/-- Everything that RESUMR checks before its bid. -/
def resumB (s : State) (va : Word) : Bool :=
  let S := issueState s 3
  let o := issueOp s 3 0
  match loadBytes S (hubCtx 0 .s) va 128 with
  | .ok hd s1 => match saveAgrees s1 o hd with
    | .ok r => match loadBytes s1 (hubCtx 0 .s) (va + 128) (4096 * leAt hd 12 4 - 128) with
      | .ok body s2 =>
        let h := shake256 body
        match savedAs s2 r h with
        | some sv => leAt hd 96 32 == h.toNat && match sv.region.ctl.cfg with
          | some g => match saveRsigOk s2 o hd g.rsig with
            | .ok true s3 => !replayBad (s3.dbg r) g
            | _ => false
          | none => false
        | none => false
      | _ => false
    | .error _ => false
  | _ => false

theorem witness_ResumrBegins : resumB coreV (coreV.rg 17) = true ∧ coreV.CanIssue 3 [17, 0] 0 := by
  refine ⟨?_, issue_of ?_ ?_⟩ <;> decide +kernel

/-- A state with one operation under way for partition 0 at S level, with token register g3. -/
def withKind (s : State) (kind : OpKind) : State := (issueState s 3).withOp { issueOp s 3 0 with kind := kind }
def opOf (s : State) (kind : OpKind) : Op := { issueOp s 3 0 with kind := kind }

/-- An inward port of the SINK configuration: north side, column 0, one U32 element of 4 bytes at 0x100000 per token. -/
def inShape : ShapeRec := ⟨0x100000, 0x07, 1, 0, 2, 1, 1, 1, 4, 0, 0, 0⟩
def inRaw : List Byte := natBytes 64 (0x100000 + 7 * 2 ^ 64 + 1 * 2 ^ 72 + 2 * 2 ^ 96 + 2 ^ 128 + 2 ^ 160 + 2 ^ 192 + 4 * 2 ^ 224)
def strmCfg : Cfg := { sinkCfg with pbt := [⟨0, 0, false, 0, 0, inShape, inRaw⟩] }
def coreS3 (st : RState) : State := (coreR st).updCtl 3 fun c => { c with cfg := some strmCfg }

theorem witness_StrmBegins : (coreS3 .running).CanIssue 3 [12, 0, 0] 0 ∧ strmRecord inRaw 0 = .ok inShape ∧
    (match pbtOf strmCfg 0 with | some pb => hasConsumer strmCfg 0 pb && pb.raw == inRaw | none => false) = true := by
  refine ⟨issue_of ?_ ?_, ?_, ?_⟩ <;> decide +kernel

theorem test_strm : gives (.strm 3 12 0 0) (coreS3 .running) (fun t =>
    (t.ops.map (·.kind)) == [.strm 3 0 inShape 0 false]) = true := by decide +kernel

theorem witness_RegionOperationsComplete :
    (withKind (coreC .running) (.loadimg 0x110000)).Under (coreC .running).nextOp (opOf (coreC .running) (.loadimg 0x110000)) ∧
    (let s := withKind (coreC .running) (.loadimg 0x110000);
      (match readImage s (hubCtx 0 .s) 0x110000 with
        | .ok b s1 => b == natBytes 240 img && !signatureOk (s1.part 0) b
        | _ => false) = true) ∧
    (let s := withKind (coreR .idle) (.launch 3 0x110000 0 0x100300);
      (match storeVa s (hubCtx 0 .s) 0x100300 0 8 with
        | .ok _ s1 =>
          let s1 := beginLoad s1 (opOf (coreR .idle) (.launch 3 0x110000 0 0x100300)) 3 0x100300
          (match launchCheck s1 (opOf (coreR .idle) (.launch 3 0x110000 0 0x100300)) 3 0x110000 0 with
          | .loads g _ => g == sinkCfg
          | _ => false) &&
            (match launchCheck s1 (opOf (coreR .idle) (.launch 3 0x110000 0 0x100300)) 3 0x110000 1 with
              | .refused c => c == 0x8C && okM (storeVa s1 (hubCtx 0 .s) 0x100300 0x18C 8)
              | _ => false) &&
            (match launchCheck (s1.updMs fun ms => { ms with locks := [(0x2200, 99)] })
                (opOf (coreR .idle) (.launch 3 0x110000 0 0x100300)) 3 0x110000 0 with
              | .wait => true
              | _ => false)
        | _ => false) = true) ∧
    (let s := withKind (coreS3 .running) (.strm 3 0 inShape 0 false);
      strmTurn s (opOf (coreS3 .running) (.strm 3 0 inShape 0 false)) 3 0 = true ∧ roundUnits inShape = 2) ∧
    (let s := withKind (coreR .running) (.sbar 3);
      storesOut (s.fab 3) = false ∧ settledForSave s 3 = true ∧ regionSyncHeld s 3 = false ∧ (s.ctl 3).st = .running ∧ (s.ctl 3).heldStore = none) := by
  refine ⟨?_, ?_⟩
  · unfold State.Under; decide +kernel
  · decide +kernel

theorem test_launch : (let t := after (withKind (coreR .idle) (.launch 3 0x110000 0 0x100300)) (execLaunchTakeEffect (coreR .idle).nextOp);
    (t.ctl 3).st = .loading ∧ (t.ctl 3).cfg = some sinkCfg ∧ Memory.readLE t.ms.mem 0x100300 8 = 0) := by decide +kernel

theorem test_loadimg_without_a_key :
    (let t := after (withKind (coreR .idle) (.loadimg 0x110000)) (execLoadimgComplete (coreR .idle).nextOp);
    t.rg 3 = 0x18C ∧ t.me.pending 3 = false ∧ t.ops = []) := by decide +kernel

theorem test_stream_in : (let t := after (withKind (coreS3 .running) (.strm 3 0 inShape 0 false)) (execStreamRoundAccess ⟨(coreS3 .running).nextOp, .clean⟩);
    t.ops.map (fun o => (o.unit, o.buf)) = [(1, [0x10, 0x32, 0x54, 0x76])]) := by decide +kernel

/-- WMEs, a whole token each, and ZB8 under ZB pairing. -/
def rawShape : ShapeRec := { inShape with fmt := 0x14, s0 := 64 }
def zbShape : ShapeRec := { inShape with fmt := 0x0F, flags := 1, s0 := 64, s3 := 0x100 }

theorem witness_StreamUnitsOfWholeTokens : unitsPer rawShape.fmt = 1 ∧ 0 < roundUnits rawShape ∧ 0 + 1 = nextTokUnit rawShape 0 ∧
    zbShape.zbp = true ∧ 0 % 16 = 0 ∧ zbShape.scaleAddr (unitVa zbShape 0) = 0x100100 ∧
    (let s := withKind (coreS3 .running) (.strm 3 0 inShape 0 true)
     okM (storeBytes s (hubCtx 0 .s) (unitVa rawShape 0) (unitBytes rawShape.fmt) (natBytes (unitBytes rawShape.fmt) 5)) = true ∧
     okM (storeBytes s (hubCtx 0 .s) 0x100100 1 [7]) = true ∧ okM (loadBytes s (hubCtx 0 .s) 0x100100 1) = true) := by decide +kernel

theorem witness_StreamUnitsMoveBytes : inShape.zbp = false ∧ inShape.e0 ≠ 0 ∧
    (let s := withKind (coreS3 .running) (.strm 3 0 inShape 0 false);
      (match loadBytes s (hubCtx 0 .s) (unitVa inShape 0) (unitBytes inShape.fmt) with | .ok bs _ => bs.length == 4 | _ => false) = true ∧
      0 + 1 ≠ nextTokUnit inShape 0) := by decide +kernel

theorem witness_RefusedOperationsEndWithTheirCause : (coreR .idle).CanIssue 3 [12, 13, 14] 0 ∧ (coreR .idle).CanIssue 3 [12] 0 ∧
    regionArg (issueState (coreR .idle) 3) (issueOp (coreR .idle) 3 0) ((coreR .idle).rg 5) = .error 0x21 ∧
    regionArg (issueState (coreR .idle) 3) (issueOp (coreR .idle) 3 0) ((coreR .idle).rg 12) = .ok 3 ∧
    ((wakeRegion (issueState (coreR .idle) 3) 3).ctl 3).st ≠ .running ∧ ((coreR .idle).rg 1).toNat % 8 ≠ 0 ∧
    ((wakeRegion (issueState (coreR .free) 3) 3).ctl 3).st ∈ [RState.free, .loading] := by
  refine ⟨issue_of ?_ ?_, issue_of ?_ ?_, ?_⟩ <;> decide +kernel

theorem test_refused : gives (.sbar 3 12) (coreR .idle) (fun t => t.rg 3 == 0x120 && !t.me.pending 3) = true ∧
    gives (.killr 3 5) (coreR .idle) (fun t => t.rg 3 == 0x121) = true ∧
    gives (.loadimg 3 1) (coreR .idle) (fun t => t.rg 3 == 0x122) = true := by decide +kernel

theorem witness_RegionsAreDescribedByRqry : (coreR .running).Free [3, 12] ∧ ((coreR .running).rg 12).toNat ≤ 63 ∧
    ((coreR .running).ctl 3).st ≠ .free ∧ some ((coreR .running).ctl 3).part = (coreR .running).me.part :=
  ⟨free_of (by decide +kernel), by decide +kernel⟩

theorem test_rqry : gives (.rqry 3 12) (coreR .running) (fun t => t.rg 3 == 0x113) = true ∧
    gives (.rqry 3 5) (coreR .running) (fun t => t.rg 3 == 0) = true := by decide +kernel

/-- Pages of 64 KiB at VA 0x20000000 (PA 0x200000) and, shadowed, at 0x20010000 (PA 0x220000), a view of the latter. -/
def coreE : State :=
  ((coreR .running).updMs fun ms => { ms with
    mem := [(0x10008, 0x30001), (0x30000, 0x20018F), (0x30008, 0x22038F), (0x40000, 0x20010000), (0x40008, 1)].foldl
      (fun m e => Memory.writeLE m e.1 e.2 8) ms.mem }).updPart 0 (fun q => { q with viewtab := 0x40001 })
    |>.updMe fun c => { c with g := (((c.g.set 18 0x20000000).set 19 0x20010000).set 20 0x240000).set 21 8 }

theorem witness_EngineInstructionsBegin : coreE.CanIssue 3 [16, 13, 21] 0 ∧ (coreE.rg 16).toNat % 64 = 0 ∧
    (coreE.rg 21).toNat < 2 ^ 40 ∧ coreE.rg 21 ≠ 0 ∧ (coreE.rg 16).toNat + 8 ≤ (coreE.rg 13).toNat ∧ coreE.rg 0 = 0 ∧
    (match viewLook (issueState coreE 3) (issueOp coreE 3 0) (coreE.rg 19) with | .ok v _ => v == some (1, 0x40000) | _ => false) = true ∧
    coreE.me.level ≠ .u ∧
    (match migrateCheck (issueState coreE 3) (issueOp coreE 3 0) (coreE.rg 18) (coreE.rg 20) with | .ok (.ok _) _ => true | _ => false) = true ∧
    windowOpen (issueState coreE 3) 0 (coreE.rg 18) = false ∧
    (let c := (coreE.updCore (.sq 5) fun c => { c with part := some 0, run := .halted });
      ((issueState c 3).core (.sq 5)).part = some 0 ∧ ((issueState c 3).core (.sq 5)).run ∈ [Run.held, .halted, .stopped]) := by
  refine ⟨issue_of ?_ ?_, ?_⟩ <;> decide +kernel

theorem test_engine_instructions : ([(.loadimg 3 13, .loadimg 0x110000), (.cmpct 3 13, .cmpct 0x110000), (.copy 3 16 13 21, .copy 0x101000 0x110000 8),
    (.publish 3 19, .publish 0x20010000), (.migrate 3 18 20, .migrate 0x20000000 0x240000 0x200000 true), (.coll 3 13 16, .coll 0x110000 0x101000)]
    : List (Instr × OpKind)).all (fun p => gives p.1 coreE fun t => (t.ops.map (·.kind)) == [p.2] && t.me.pending 3) = true := by
  decide +kernel

theorem test_copy_of_nothing : gives (.copy 3 16 13 0) coreE (fun t => t.rg 3 == 1 && t.ops == []) = true := by decide +kernel

theorem test_sqstart : gives (.sqstart 3 0 13) (coreE.updCore (.sq 0) fun c => { c with part := some 0, run := .halted }) (fun t =>
    t.rg 3 == 1 && (t.core (.sq 0)).run == .running && (t.core (.sq 0)).pc == 0x110000 && (t.core (.sq 0)).level == .s) = true := by
  decide +kernel

/-- A group of two devices with this one (device 0) first at 0x102000, an all-gather of one FP32 of 0x100108 to 0x100118 at 0x102040. -/
def coreL : State :=
  coreE.updMs fun ms => { ms with
    net := { ms.net with pwin := ms.net.pwin.set 0 0x8000000000000005 }
    mem := ([(0x102000, 16, 2), (0x102010, 8, 0x500000000), (0x102040, 3, 0x0A0001), (0x102048, 8, 1), (0x102050, 8, 0x100108), (0x102058, 8, 0x100118),
      (0x100108, 4, 0x3F800000), (0x102080, 8, 0x100000), (0x102088, 8, 0x100400), (0x1020A0, 8, 16), (0x1020A8, 2, 0x0100)] : List (Nat × Nat × Nat)).foldl
      (fun m e => Memory.writeLE m e.1 e.2.2 e.2.1) ms.mem }

theorem test_copy : (let t := after (withKind coreL (.copy 0x101000 0x100000 8)) (execCopyComplete coreL.nextOp);
    t.rg 3 = 1 ∧ Memory.readLE t.ms.mem 0x101000 8 = 0xFEDCBA9876543210) := by decide +kernel

/-- 16 bytes, none of them 0: mode 1 with no mask keeps them all. -/
theorem test_cmpct : (let t := after (withKind coreL (.cmpct 0x102080)) (execCmpctComplete coreL.nextOp);
    t.rg 3 = 1 ∧ Memory.readLE t.ms.mem 0x100400 8 = 0xFEDCBA9876543210 ∧ Memory.readLE t.ms.mem 0x1020B0 8 = 16) := by decide +kernel

theorem test_publish : (let t := after (withKind coreL (.publish 0x20010000)) (execPublishFlip coreL.nextOp);
    t.rg 3 = 1 ∧ Memory.readLE t.ms.mem 0x40008 8 = 0x10001) := by decide +kernel

theorem witness_EngineOperationsComplete :
    (match exec (.migrate 3 18 20) coreL with
      | .next s => (match findOp s coreL.nextOp with
        | some o => o.kind == .migrate 0x20000000 0x240000 0x200000 true && framesCause s 0x200000 0x240000 == none && !copyHeld s (hubCtx 0 .s) 0x200000 0x240000 &&
          okM (tableCheck s (hubCtx 0 .s) 0x20000000 (walkReads s (s.part 0).ptroot 0x20000000)) &&
          lineFault s (hubCtx 0 .s) (linesOf 0x200000 65536) == none &&
          (match walk s (s.part 0).ptroot 0x20000000 with | .ok l => l.at_ == 0x30000 | .error _ => false)
        | none => false)
      | _ => false) = true ∧
    (let s := withKind coreL (.coll 0x102000 0x102040);
      (match loadBytes s (hubCtx 0 .s) 0x102000 16, loadBytes s (hubCtx 0 .s) 0x102010 8, loadBytes s (hubCtx 0 .s) 0x102040 64 with
        | .ok g _, .ok e _, .ok d s3 => !collBad s3 g e d && ringWin s3 0 g e 1 == some 0 && !(s3.peerLink 0).down &&
          !((ringFrom s3 0 g e).any fun l => (s3.ms.net.link l).authFail.contains (0, .coll)) &&
          (ringWin { s3 with ms := { s3.ms with net := { s3.ms.net with pwin := Vector.replicate 192 0 } } } 0 g e 1).isNone
        | _, _, _ => false) = true) ∧
    (let s := withKind coreL (.cmpct 0x102080);
      (match loadBytes s (hubCtx 0 .s) 0x102080 64 with
        | .ok b _ => !ladleBad b && (parseLadle b).mode == 1 && (parseLadle b).aux == 0 && !ladleMeets (parseLadle b) 16 &&
          (match loadBytes s (hubCtx 0 .s) (BitVec.ofNat 64 (parseLadle b).src) (parseLadle b).srcN with
            | .ok own _ => (ladleNonzero (parseLadle b) own).length == 16
            | _ => false)
        | _ => false) = true) ∧
    (let s := withKind coreL (.publish 0x20010000);
      (match viewLook s ⟨0, .sy 0, 3, .s, 0, .publish 0x20010000, 0, 0, [], [], none, none⟩ 0x20010000 with | .ok v s1 => v == some (1, 0x40000) && okM (homeCheck s1 (hubCtx 0 .s) 0x40008 8 0x20010000 false) | _ => false) = true ∧
      (s.ops.takeWhile (·.id != coreL.nextOp)) = [] ∧ vaBusy s 0 false 0x20010000 65536 = false) := by decide +kernel

/-- What the other member of coreL's ring sends, over the link of the window to it. -/
def ringS : State :=
  (withKind coreL (.coll 0x102000 0x102040)).updPorts fun h => { h with flitsIn := [(winLink (coreL.pwinOf 0), ⟨0, 0, 0, 3, natBytes 4 0x40000000, .other, true, true⟩)] }

/-- A COLL whose flit has come, and one whose has not. -/
theorem witness_CollMoves : (match loadBytes ringS (hubCtx 0 .s) 0x102000 16, loadBytes ringS (hubCtx 0 .s) 0x102010 8 with
      | .ok g _, .ok e _ => (ringS.ports.flitsIn.foldl (ringTake 0 (ringFrom ringS 0 g e) 2 4) ⟨[], [], []⟩).had == natBytes 4 0x40000000 &&
          ringMembers 2 (leAt g 4 4) 4 [] (natBytes 4 0x40000000) == (if leAt g 4 4 = 0 then [[], natBytes 4 0x40000000] else [natBytes 4 0x40000000, []])
      | _, _ => false) = true ∧
    gives (.collComplete coreL.nextOp [] .flows) (withKind coreL (.coll 0x102000 0x102040)) (fun t => t.ops.any (·.unit == 1) &&
      ((t.peerLink 0).replay.map (·.data.length)) == [4]) = true := by decide +kernel

/-- 1.0 of this member, then 2.0 of the other. -/
theorem test_coll : (let t := after ringS (execCollComplete coreL.nextOp (natBytes 4 0x40000000) .flows);
    t.rg 3 = 1 ∧ Memory.readLE t.ms.mem 0x100118 8 = 0x400000003F800000) := by decide +kernel

/-! #### The rule engine -/

/-- A score node at slot 1 of MT (1,1) with table 0 on port 3 (IMM32 0x43 has PORT 3 in [1:0], the table in [5:2]), and the AGEN at
slot 0 that binds port 3; the table's 4 entries of 16 bytes begin at 0x8000 of scratch. -/
def netCfg : Cfg := { sinkCfg with
  nodes := [⟨1, 1, 0, BitVec.ofNat 128 (0x70 + 0x800 + 0xF1000000 + 3 * 2 ^ 32)⟩, ⟨1, 1, 1, BitVec.ofNat 128 (0x84 + 0x800 + 0x83000000 + 0x03 * 2 ^ 32)⟩]
  shapes := [⟨1, 1, 0, ⟨0x8000, 0x08, 1, 2, 4, 1, 1, 1, 16, 0, 0, 0⟩⟩] }

/-- Core 0 at S with the rule engine on: 1,024 slots at 0x140000, the network in region 3, one WME of class 2 with timetag 1 and word 1
= 0x77 in its slot, a source WME of class 1 at 0x150000. g22 = 1, g23 = 0x150000. -/
def coreW : State :=
  ((((core0.updMs fun ms => { ms with
    mem := [(0x140080, 0x0002000000000100), (0x140088, 0x77), (0x150000, 0x0001FFFFFFFFFF55), (0x150008, 0x99)].foldl
      (fun m e => Memory.writeLE m e.1 e.2 8) ms.mem }).updRules 0 fun q =>
      { q with rmcfg := 1, wmbase := 0x0C0000000014000A, timetag := 2 }).updCtl 3 fun c =>
        { c with st := .running, cfg := some netCfg, crows := 1, ccols := 1 }).updMe fun c => { c with g := (c.g.set 22 1).set 23 0x150000 })

def coreWI : State := coreW.updRules 0 fun q => { q with
  insts := [⟨5, 10, [1], 50, 0, [0x0101000100320_00A], some 7⟩, ⟨6, 11, [1], 40, 0, [0x01010001002_8000B], none⟩], batch := some 7, nextBatch := 8 }

theorem rulesOn_of {s : State} {p : PartId}
    (h : s.me.part = some p ∧ (s.rules p).en = true ∧ 10 ≤ (s.rules p).logn ∧ (s.rules p).logn ≤ 20) : s.RulesOn p := h

def assertB : Bool :=
  match sourceWme coreW (coreW.rg 23) with
  | .ok src s1 => match slotAt s1 0 2 8 128 with
    | .ok (x, w) s2 => w == 0 && okM (doAssert s2 0 x 2 src 3)
    | _ => false
  | _ => false

def retractB : Bool :=
  match slotAt coreW 0 1 128 8 with
  | .ok (x, w) s1 => retractable 1 w && okM (doRetract s1 0 x 1 w) && !isPeer x.pa && !isDevice x.pa && x.coh != 1
  | _ => false

theorem witness_RuleInstructionsActOnWorkingMemory : coreW.RulesOn 0 ∧ coreW.Free [3, 22, 23] ∧ assertB = true ∧ retractB = true ∧
    (coreW.rules 0).timetag = 2 ∧ injRoom coreW 0 2 = true ∧ (coreW.rules 0).batch = none ∧ deltaInFlight coreW 0 = false ∧
    (coreW.rg 0).toNat ≤ 15 ∧ netRegion coreW 0 = some 3 ∧ scoreArea coreW 3 0 = some (1, 1, 0x8000, 4) ∧
    15 < (coreW.rg 23).toNat ∧ (coreWI.rules 0).batch = some 7 ∧ coreWI.rg 1 = 7 ∧ coreWI.RulesOn 0 ∧
    (match slotAt coreW 0 7 128 8 with | .ok (_, w) _ => !retractable 7 w | _ => false) = true :=
  by
  unfold State.RulesOn State.Free; decide +kernel

theorem test_assert : gives (.assert 3 23) coreW (fun t => t.rg 3 == 2 && Memory.readLE t.ms.mem 0x140100 8 == 0x0001000000000200 &&
    Memory.readLE t.ms.mem 0x140108 8 == 0x99 && (t.rules 0).timetag == 3 &&
    ((t.fab 3).injq.map fun d => (d.tt, d.neg)) == [(2, false)]) = true := by decide +kernel

theorem test_retract : gives (.retract 22) coreW (fun t => Memory.readLE t.ms.mem 0x140080 8 == 0x0002000000000101 &&
    ((t.fab 3).injq.map fun d => (d.tt, d.neg)) == [(1, true)]) = true ∧
    gives (.retract 1) coreW (fun t => t.me.th.tcause == 0x91 && t.me.th.tval == 7) = true := by decide +kernel

theorem test_modify : gives (.modify 3 22 23) coreW (fun t => t.rg 3 == 2 &&
    ((t.fab 3).injq.map fun d => (d.tt, d.neg)) == [(1, true), (2, false)]) = true := by decide +kernel

theorem test_fired_wave : gives (.fired 1) coreWI (fun t => ((t.rules 0).insts.map (·.create)) == [6] && (t.rules 0).batch == none) = true ∧
    gives .wave coreWI (fun t => t.me.th.tcause == 0x20) = true ∧
    gives .wave coreW (fun t => (t.rules 0).wave == 1) = true := by decide +kernel

theorem test_scoreclr : gives (.scoreclr 0) coreW (fun t => t.me.pc == 0x20004) = true ∧
    gives (.scoreclr 23) coreW (fun t => t.me.th.tcause == 0x20) = true := by decide +kernel

theorem test_rule_operations_begin : gives (.settle 3) coreW (fun t => (t.ops.map (·.kind)) == [.settle] && t.me.pending 3) = true ∧
    gives (.settle 3) core0 (fun t => t.me.th.tcause == 0x20) = true := by decide +kernel

/-- A delivery that adds an instantiation of rule 12 for timetag 1, its descriptor unnegated. -/
def coreWD : State := coreW.updRules 0 fun q => { q with
  deliveries := [⟨4, (1, 1, 0), 9, [1, 0, 0, 0, 0, 0, 0, 0], [0x010100010028000C], 0⟩], unsettled := [⟨9, 1, false, [], 0⟩] }

theorem witness_RuleOperationsComplete :
    (withKind coreW .settle).Under coreW.nextOp (opOf coreW .settle) ∧
    settled (withKind coreW .settle) 0 = true ∧ (coreW.rules 0).overflow = false ∧ (coreW.rules 0).scoreTimeout = false ∧
    ((coreWD.rules 0).deliveries.find? (·.id = 4)).isSome = true ∧
    (((coreWD.rules 0).deliveries.find? (·.node = (1, 1, 0))).map (·.id)) = some 4 ∧ csuRoom coreWD 0 = true ∧
    ((coreW.rules 0).unsettled.find? (·.n = 9)) = none ∧ (coreW.die 0).round = false ∧
    (let t := coreW.updRules 0 fun q => { q with unsettled := [⟨9, 1, false, [], 0⟩] };
      ((t.rules 0).unsettled.find? (·.n = 9)).isSome = true ∧ deltaDone t 0 9 = true) := by
  refine ⟨?_, ?_⟩
  · unfold State.Under; decide +kernel
  · decide +kernel

theorem test_settle : (let s := withKind (coreWI.updRules 0 fun q => { q with batch := none }) .settle;
    (after s (execSettleComplete coreWI.nextOp)).rg 3 = 2) := by decide +kernel

/-- The same with no batch yet, and a SELECT under way. -/
def coreWS : State := coreWI.updRules 0 fun q => { q with batch := none, insts := q.insts.map fun i => { i with batch := none } }

theorem test_select : (let t := after (withKind coreWS (.select 0x160000 2)) (execSelectBatch coreWI.nextOp);
    (t.rules 0).batch = some 8 ∧ Memory.readLE t.ms.mem 0x160000 4 = 5) := by decide +kernel

theorem test_csu : ((after coreWD (execCsuDelivery 0 4)).rules 0).insts.map (fun i => (i.rule, i.sal)) = [(12, 40)] ∧
    ((after coreWD (execDeltaSettled 0 9)).rules 0).unsettled.length = 1 := by decide +kernel


/-! #### Nodes -/

/-- Fields of a node whose result goes one tile east to slot 1, port a; the ports not given take no operand. -/
def nf1 (fmt : BitVec 5) (var : BitVec 3) (imm : BitVec 32) : NodeFields := ⟨fmt, var, 0, 0, 3, 3, 1, imm, 0x81001000, 0⟩
def nf2 (fmt : BitVec 5) (var : BitVec 3) (imm : BitVec 32) : NodeFields := ⟨fmt, var, 0, 0, 0, 3, 2, imm, 0x81001000, 0⟩
def nf3 (fmt : BitVec 5) (var : BitVec 3) (imm : BitVec 32) : NodeFields := ⟨fmt, var, 0, 0, 0, 0, 3, imm, 0x81001000, 0⟩

/-- A token of activation (0, 0) at a port of slot 0 of tile (0,0). -/
def tok (port : BitVec 2) (kind : BitVec 3) (fmt : BitVec 5) (p : BitVec 512) : Token :=
  ⟨kind, fmt, BitVec.ofNat 7 ((fmtP fmt).getD 0), true, 0, 0, 0, 0, 0, port, 5, 0, p⟩

/-- The same value in every lane. -/
def lanes (port : BitVec 2) (fmt : BitVec 5) (v : Nat) : Token :=
  tok port 0 fmt (packLanes (laneBits fmt) (List.replicate (laneCount fmt) v))

/-- Region 0 running with a node word in slot 0 of tile (0,0) and tokens waiting there. -/
def nodeS (w : Nat) (toks : List Token) : State :=
  (State.reset.withFetchWord 128 w).updFab 0 fun f => { f with waiting := toks.map fun t => ⟨false, 0, 0, t⟩ }

/-- The tokens that have left on ROUTE0, or on ROUTE1. -/
def sent (s : State) (route : Bool := false) : List Token :=
  (s.fab 0).outq.flatMap fun e => (e.deps.filter (·.route == route)).map (·.tok)

/-- The lanes of the one token sent. -/
def lanesOf (s : State) : List Nat := match sent s with | [t] => t.lanes | _ => []

/-- Each instruction, on its tokens, sends one token whose lanes are all this value. -/
def fills (l : List (Instr × List Token × Nat)) : Bool :=
  l.all fun p => gives p.1 (nodeS 0 p.2.1) fun t => match sent t with
    | [u] => (u.lanes.all (· == p.2.2)) && u.seq == 5 && u.kind == 0
    | _ => false

def startB (s : State) : Bool := canFire s && ((s.node s.site).pend.isEmpty && !flipped s s.site [0, 1, 2, 3])

theorem start_of {s : State} (h : startB s = true) : s.CanStart := by
  simp only [startB, Bool.and_eq_true, List.isEmpty_iff, Bool.not_eq_true'] at h; exact h

/-- The test of `Firing.Plain`. -/
def plainB (x : Firing) (ok : BitVec 2 → Token → Bool) : Bool :=
  x.ready && x.toks.all (fun t => t.kind != kERROR && t.kind != kBUBBLE && t.kind != kSTOP) &&
    x.p.all (fun t => t.kind == kDATA && t.pred) &&
    ([0, 1, 2] : List (BitVec 2)).all fun i => (x.port i).all fun t => portKind x.nf i == 1 || ok i t

theorem plain_of {x : Firing} {ok : BitVec 2 → Token → Bool} (h : plainB x ok = true) : x.Plain ok := by
  simp only [plainB, Bool.and_eq_true, List.all_eq_true, bne_iff_ne, beq_iff_eq, Option.all_eq_true] at h
  obtain ⟨⟨⟨h1, h2⟩, h3⟩, h4⟩ := h
  exact ⟨h1, fun t ht => ⟨(h2 t ht).1.1, (h2 t ht).1.2, (h2 t ht).2⟩, fun t ht => h3 t ht, by
    simpa only [List.all_eq_true, Option.all_eq_true] using h4⟩

def fp (port : BitVec 2) (v : Nat) : Token := lanes port 0xA v

/-- FP32 lanes: 1.5 and 2.0; 4.0. -/
def fpS : State := nodeS 0 [fp 0 0x3FC00000, fp 1 0x40000000, fp 2 0x40800000]

theorem witness_FloatVectorNodesComputeLaneByLane : fpS.CanStart ∧
    (firingAt fpS 0x00 (nf2 0xA 0 0)).Plain (fun _ t => isData t 0xA) ∧ (firingAt fpS 0x00 (nf2 0xA 0 0)).a = some (fp 0 0x3FC00000) ∧
    (firingAt fpS 0x00 (nf2 0xA 0 0)).b = some (fp 1 0x40000000) ∧ (firingAt fpS 0x00 (nf2 0xA 0 0)).c = none ∧
    (firingAt fpS 0x03 (nf3 0xA 0 0)).Plain (fun _ t => isData t 0xA) ∧ (firingAt fpS 0x03 (nf3 0xA 0 0)).c = some (fp 2 0x40800000) ∧
    (firingAt fpS 0x09 (nf1 0xA 0 0)).Plain (fun _ t => isData t 0xA) ∧ (firingAt fpS 0x09 (nf1 0xA 0 0)).b = none ∧
    (∀ t, fpS.NoSigLowNode (firingAt fpS 0x00 (nf2 0xA 0 0)) t) :=
  ⟨start_of (by decide +kernel), plain_of (by decide +kernel), by decide +kernel, by decide +kernel, by decide +kernel,
    plain_of (by decide +kernel), by decide +kernel, plain_of (by decide +kernel), by decide +kernel,
    fun t => by
      have h : fSIGT (firingAt fpS 0x00 (nf2 0xA 0 0)).nf = false := by decide +kernel
      unfold State.NoSigLowNode sigLowNode
      rw [h]; rfl⟩

theorem test_float_nodes : fills [
    (.vadd (nf2 0xA 0 0), [fp 0 0x3FC00000, fp 1 0x40000000], 0x40600000), (.vsub (nf2 0xA 0 0), [fp 0 0x3FC00000, fp 1 0x40000000], 0xBF000000),
    (.vmul (nf2 0xA 0 0), [fp 0 0x3FC00000, fp 1 0x40000000], 0x40400000),
    (.vfma (nf3 0xA 0 0), [fp 0 0x3FC00000, fp 1 0x40000000, fp 2 0x40800000], 0x40E00000),
    (.vmin (nf2 0xA 0 0), [fp 0 0x3FC00000, fp 1 0x40000000], 0x3FC00000), (.vmax (nf2 0xA 0 0), [fp 0 0x3FC00000, fp 1 0x40000000], 0x40000000),
    (.vabs (nf1 0xA 0 0), [fp 0 0xBFC00000], 0x3FC00000), (.vneg (nf1 0xA 0 0), [fp 0 0x3FC00000], 0xBFC00000),
    (.vdiv (nf2 0xA 0 0), [fp 0 0x3FC00000, fp 1 0x40000000], 0x3F400000), (.vsqrt (nf1 0xA 0 0), [fp 0 0x40800000], 0x40000000),
    (.vrsq (nf1 0xA 0 0), [fp 0 0x40800000], 0x3F000000), (.vrcp (nf1 0xA 0 0), [fp 0 0x40800000], 0x3E800000)] = true := by decide +kernel

/-- 2^2, log2 4, tanh 0: exact in every series. -/
theorem test_transcendental_nodes : fills [(.vexp2 (nf1 0xA 0 0), [fp 0 0x40000000], 0x40800000),
    (.vlog2 (nf1 0xA 0 0), [fp 0 0x40800000], 0x40000000), (.vtanh (nf1 0xA 0 0), [fp 0 0], 0)] = true := by decide +kernel

def i32 (port : BitVec 2) (v : Nat) : Token := lanes port 3 v
def inS : State := nodeS 0 [i32 0 0x7FFFFFFF, i32 1 2, i32 2 9]

theorem witness_IntegerVectorNodesComputeLaneByLane : inS.CanStart ∧
    (firingAt inS 0x10 (nf2 3 0 0)).Plain (fun _ t => isDataIdx t 3) ∧ (firingAt inS 0x10 (nf2 3 0 0)).a = some (i32 0 0x7FFFFFFF) ∧
    (firingAt inS 0x10 (nf2 3 0 0)).b = some (i32 1 2) ∧ fmtFloat 3 = none ∧ fmtFloat 0xA = some fp32 ∧
    (firingAt fpS 0x18 (nf2 0xA 0 0)).Plain (fun _ t => isDataIdx t 0xA) ∧
    (firingAt inS 0x19 (nf3 3 0 0)).Plain (fun i t => if i = 0 then (t.kind == kDATA || t.kind == kINDEX) && intOfWidth t.fmt 32
      else isDataIdx t 3) := by
  refine ⟨start_of ?_, plain_of ?_, ?_, ?_, ?_, ?_, plain_of ?_, plain_of ?_⟩ <;> decide +kernel

theorem test_integer_nodes : fills [
    (.viadd (nf2 3 0 0), [i32 0 0x7FFFFFFF, i32 1 2], 0x80000001), (.viadd (nf2 3 1 0), [i32 0 0x7FFFFFFF, i32 1 2], 0x7FFFFFFF),
    (.visub (nf2 7 1 0), [lanes 0 7 1, lanes 1 7 2], 0), (.vimul (nf2 3 1 0), [i32 0 0x7FFFFFFF, i32 1 4], 1),
    (.vand (nf2 3 0 0), [i32 0 6, i32 1 3], 2), (.vor (nf2 3 0 0), [i32 0 6, i32 1 3], 7), (.vxor (nf2 3 0 0), [i32 0 6, i32 1 3], 5),
    (.vshl (nf2 3 0 0), [i32 0 3, i32 1 33], 6), (.vshr (nf2 3 0 0), [i32 0 0x80000000, i32 1 31], 1),
    (.vshr (nf2 3 1 0), [i32 0 0x80000000, i32 1 31], 0xFFFFFFFF), (.vsel (nf3 3 0 0), [i32 0 1, i32 1 7, i32 2 9], 7),
    (.vsel (nf3 3 0 0), [i32 0 0, i32 1 7, i32 2 9], 9)] = true := by decide +kernel

theorem test_vcmp : gives (.vcmp (nf2 3 0 0)) (nodeS 0 [i32 0 4, i32 1 4]) (fun t => (sent t).all fun u => u.pred && u.fmt == 7 &&
    u.lanes.all (· == 0xFFFFFFFF)) = true := by decide +kernel

/-- Lanes 0, 1, …, 15 of I32. -/
def ramp : Token := tok 0 0 3 (packLanes 32 (List.range 16))
def u8s (port : BitVec 2) (l : List Nat) : Token := tok port 0 5 (packLanes 8 l)

theorem witness_ReductionsPermutesAndSignificance : inS.CanStart ∧
    (firingAt inS 0x20 (nf1 3 0 4)).Plain (fun _ t => isDataIdx t 3) ∧ (firingAt inS 0x20 (nf1 3 0 4)).a = some (i32 0 0x7FFFFFFF) ∧
    (firingAt fpS 0x34 (nf1 0xA 0 1)).Plain (fun _ t => isData t 0xA) ∧ (firingAt fpS 0x36 (nf1 0xA 0 4)).Plain (fun _ t => isData t 0xA) ∧
    (firingAt (nodeS 0 [ramp, u8s 1 [3]]) 0x25 (nf2 3 0 0)).Plain
      (fun i t => if i = 0 then isDataIdx t 3 else isDataIdx t 5) ∧
    argMax 3 ramp 4 ≠ none := by
  refine ⟨start_of ?_, plain_of ?_, ?_, plain_of ?_, plain_of ?_, plain_of ?_, ?_⟩ <;> decide +kernel

/-- Each instruction, on its tokens, sends one token with these first lanes. -/
def begins (l : List (Instr × List Token × List Nat)) : Bool :=
  l.all fun p => gives p.1 (nodeS 0 p.2.1) fun t => (lanesOf t).take p.2.2.length == p.2.2

theorem test_reductions : begins [(.vrsum (nf1 3 0 4), [ramp], [6, 0]), (.vrmax (nf1 3 1 16), [ramp], [15, 15]), (.vrmin (nf1 3 0 16), [ramp], [0, 0]),
    (.vargmx (nf1 3 0 16), [ramp], [15, 0]), (.vscan (nf1 3 0 0), [ramp], [0, 1, 3, 6, 10]), (.vscan (nf1 3 1 0), [ramp], [0, 0, 1, 3, 6]),
    (.vperm (nf2 3 0 0), [ramp, u8s 1 [3, 15, 16, 2]], [3, 15, 0, 2]), (.vbcast (nf1 3 0 7), [ramp], [7, 7]),
    (.vpopc (nf1 3 0 0), [ramp], [15, 0]), (.vpopc (nf1 3 2 0), [ramp], [0, 1, 1, 2, 1])] = true := by decide +kernel

/-- 1.0 + 2.0 and 1.0 − 2.0 in neighbouring lanes; the tag of 24; a tag set to 7. -/
theorem test_butterfly_and_significance : begins [
    (.bfly (nf1 0xA 0 0), [tok 0 0 0xA (packLanes 32 [0x3F800000, 0x40000000])], [0x40400000, 0xBF800000, 0, 0]),
    (.vsig (nf1 0xA 0 0), [fp 0 0x3F800000], [24, 0])] = true ∧
    gives (.vsig (nf2 0xA 1 0)) (nodeS 0 [fp 0 0x3F800000, u8s 1 [7]]) (fun t => (sent t).map (·.sig) == [7]) = true ∧
    gives (.sigchk (nf1 0xA 0 25)) (nodeS 0 [fp 0 0x3F800000]) (fun t => (sent t).map (·.pred) == [false]) = true ∧
    gives (.sigchk (nf1 0xA 1 25)) (nodeS 0 [fp 0 0x3F800000]) (fun t => sent t == [] && (t.fab 0).parkTab.length == 1) = true := by
  decide +kernel

/-- FP16 1.0 in every lane; a group of QZ that waits for its second token; a PARAM. -/
def h1 : Token := lanes 0 0xB 0x3C00
theorem witness_ConversionNodesConvertTheirElements : (nodeS 0 [h1]).CanStart ∧
    (firingAt (nodeS 0 [h1]) 0x30 (nf1 0xA 0 0xB00)).Plain (fun _ t => isDataIdx t (cvSrc (nf1 0xA 0 0xB00))) ∧
    (firingAt (nodeS 0 [h1]) 0x31 (nf1 0xF 0 0xB00)).Plain (fun _ t => isData t (cvSrc (nf1 0xF 0 0xB00))) ∧
    qzGroup ((nodeS 0 [h1]).node (nodeS 0 [h1]).site) (nodeS 0 [h1]).site = none ∧
    isZB (cvSrc (nf1 0xF 0 0xB00)) = false ∧ isZB (cvSrc (nf1 0xA 0 0xF00)) = true := by
  refine ⟨start_of ?_, plain_of ?_, plain_of ?_, ?_, ?_, ?_⟩ <;> decide +kernel

theorem test_vcvt : begins [(.vcvt (nf1 0xA 0 0xB00), [h1], List.replicate 16 0x3F800000), (.vcvt (nf1 3 0 0xA00), [fp 0 0x40200000], [2, 2])] = true := by
  decide +kernel

theorem test_cv8 : begins [(.cv8 (nf1 0xD 0 0xB00), [h1], [0x38, 0x38])] = true := by decide +kernel

theorem test_qz_collects : gives (.qz (nf1 0xF 0 0xA00)) (nodeS 0 [fp 0 0x3F800000]) (fun t => sent t == [] &&
    ((t.node t.site).groups.map fun g => g.toks.length) == [1]) = true := by decide +kernel

theorem test_dq_of_zero : begins [(.dq (nf1 0xA 0 0xF00), [tok 0 0 0xF 0], [0, 0])] = true := by decide +kernel

theorem witness_SpecialKindsPassThroughNodes : (nodeS 0 [tok 0 6 0xA 0x85, tok 1 0 0xA 0]).CanStart ∧
    (firingAt (nodeS 0 [tok 0 6 0xA 0x85, tok 1 0 0xA 0]) 0x00 (nf2 0xA 0 0)).ready = true ∧
    ((firingAt (nodeS 0 [tok 0 6 0xA 0x85, tok 1 0 0xA 0]) 0x00 (nf2 0xA 0 0)).toks.find? (·.kind == kERROR)).isSome = true := by
  refine ⟨start_of ?_, ?_, ?_⟩ <;> decide +kernel

theorem test_special_kinds : ([([tok 0 6 0xA 0x85, tok 1 5 0xA 0], 6), ([tok 0 5 0xA 0, tok 1 0 0xA 0], 5), ([tok 0 3 0xA 0, tok 1 3 0xA 1], 3),
    ([tok 0 3 0xA 0, tok 1 0 0xA 0], 6)] : List (List Token × BitVec 3)).all
    (fun p => gives (.vadd (nf2 0xA 0 0)) (nodeS 0 p.1) fun t => (sent t).map (·.kind) == [p.2]) = true := by decide +kernel

/-! #### Flow nodes -/

/-- A two-ported node with both routes: east to slot 1 and south to slot 2. -/
def fl1 (var : BitVec 3) (imm : BitVec 32) : NodeFields := { nf1 0 var imm with route1 := 0x80042000 }
def fl2 (var : BitVec 3) (imm : BitVec 32) : NodeFields := { nf2 0 var imm with route1 := 0x80042000 }
def falseTok (t : Token) : Token := { t with pred := false }

/-- What each instruction sends on its two routes: the kinds with the lowest lane. -/
def routes (l : List (Instr × List Token × List Nat × List Nat)) : Bool :=
  l.all fun p => gives p.1 (nodeS 0 p.2.1) fun t =>
    (sent t).map (·.lane 32 0) == p.2.2.1 && (sent t true).map (·.lane 32 0) == p.2.2.2

def flS : State := nodeS 0 [i32 0 1, i32 1 2, i32 2 3]

/-- A decrement that finds the counter at 1. -/
def cntS : State := setCnt (nodeS 0 [i32 1 4]) ⟨0, 0, 0, 0, 0, 0⟩ (1, 6)

theorem witness_FlowNodesSendTheirTokens : flS.CanStart ∧
    (firingAt flS 0x50 (fl2 0 0)).ready = true ∧ (firingAt flS 0x50 (fl2 0 0)).badFmt = false ∧
    (firingAt flS 0x50 (fl2 0 0)).a = some (i32 0 1) ∧ (firingAt flS 0x50 (fl2 0 0)).b = some (i32 1 2) ∧
    (firingAt flS 0x61 (nf3 0 0 0)).c = some (i32 2 3) ∧ (i32 0 1).kind ≠ kERROR ∧ (i32 0 1).kind ≠ kBUBBLE ∧
    (i32 0 1).lane (laneBits 3) 0 = 1 ∧ mergePort (firingAt flS 0x51 (fl2 0 0)) = some 0 ∧ (flS.node flS.site).reported = false ∧
    mergePort (firingAt cntS 0x65 { fl1 1 0 with ka := 3, kb := 0 }) = some 1 ∧ (cntAt (cntS.fab 0) cntS.site).1 = 1 ∧
    flS.site.ctx = 0 ∧ flS.site.iter = 0 :=
  ⟨start_of (by decide +kernel), by decide +kernel⟩

theorem witness_DelayRelease :
    (let s := match exec (.delay (fl1 0 5)) flS with | .next t => { t with fclock := t.fclock + 5 } | _ => flS;
    regionGoing s 0 = true ∧ (((s.fab 0).outq.find? fun e => e.row == 0 && e.col == 0 && e.slot == 0 && e.after != 0).any
      fun e => decide (e.after.toNat ≤ s.fclock.toNat)) = true) := by decide +kernel

theorem test_flow_routes : routes [
    (.steer (fl2 0 0), [i32 0 7, i32 1 0], [7], []), (.steer (fl2 0 0), [i32 0 7, falseTok (i32 1 0)], [], [7]),
    (.next (fl2 0 0), [i32 0 7, falseTok (i32 1 0)], [], [7]), (.merge (fl2 0 0), [i32 1 8], [8], [8]),
    (.selx (nf3 0 0 0), [i32 0 1, i32 1 7, i32 2 9], [9], []), (.selx (nf3 0 0 0), [i32 0 0, i32 1 7, i32 2 9], [7], []),
    (.dup (fl1 0 1), [i32 0 7], [7], [7]), (.delay (fl1 0 5), [i32 0 7], [7], [7]), (.stopg (fl1 0 0), [i32 0 7], [7], [7]),
    (.const (nf1 3 0 9), [i32 0 7], [9], []), (.sink (fl1 0 3), [i32 0 7], [], [])] = true := by decide +kernel

/-- SWITCH with 4 destinations one column apart (IMM32 = count − 1, dx 1): lane 2 chooses the third. -/
theorem test_switch : gives (.switch { fl2 0 (3 + 1 * 4096) with route1 := 0 }) (nodeS 0 [i32 0 7, i32 1 2]) (fun t =>
    ((t.fab 0).outq.flatMap fun e => e.deps.map (·.dest)) == [⟨0, 3⟩]) = true := by decide +kernel

theorem test_sink_counts : gives (.sink (fl1 1 1)) (nodeS 0 [i32 0 7]) (fun t =>
    (t.node t.site).count == 1 && (t.node t.site).reported) = true := by decide +kernel

theorem test_cnt : gives (.cnt { fl1 1 0 with ka := 3, kb := 0 }) cntS (fun t => sent t == [] &&
    (sent t true).map (fun u => (u.kind, u.lane 32 0)) == [(2, 6)] && (cntAt (t.fab 0) t.site).1 == 0) = true := by decide +kernel

/-- Context 7 holds a loop of LID 3 entered from activation (0, 0). -/
def loopS (toks : List Token) : State :=
  ((nodeS 0 toks).updFab 0 fun f => { f with bindings := [⟨7, some 3, 0, 0, 0, 0, false, 0, 0, 0⟩] }).updCtl 0 fun c =>
    { c with cfg := c.cfg.map fun g => { g with nodes := [⟨0, 0, 0, 0x55 + 0xF1000000 + 3 * 2 ^ 32⟩] } }
def inLoop (t : Token) : Token := { t with ctx := 7, iter := 2 }
def loopIn : State := { loopS [inLoop (i32 0 1), inLoop (i32 1 1)] with site := ⟨0, 0, 0, 0, 7, 2⟩ }
/-- The same in context 7 of a call. -/
def callIn : State := loopIn.updFab 0 fun f => { f with bindings := [⟨7, none, 0, 0, 0, 0, false, 0, 0, 0x81001000⟩] }

theorem witness_ContextsAreDrawnAndReturned : (loopS [i32 0 1, i32 1 1]).CanStart ∧ heldTok (loopS [i32 0 1]) (loopS [i32 0 1]).site = none ∧
    (let x := firingAt (loopS [i32 0 1]) 0x53 (fl2 0 3);
      mergePort { x with arr := x.arr.filter (·.1 != 2) } = some 0 ∧ x.port 0 = some (i32 0 1)) ∧
    entryOk ((loopS [i32 0 1]).fab 0) (fl2 0 3) (i32 0 1) = true ∧
    (((loopS [i32 0 1]).fab 0).bindings.find? fun b => b.lid == some 3 && b.pctx == 0 && b.piter == 0 && !b.closed).isSome = true ∧
    loopIn.CanStart ∧
    (let x := firingAt (loopIn.updFab 0 fun f => { f with waiting := [⟨false, 0, 0, inLoop (i32 1 1)⟩] }) 0x53 (fl2 0 0x83);
      mergePort { x with arr := x.arr.filter (·.1 != 2) } = some 1) ∧
    (openBinding (loopIn.fab 0) 7).isSome = true ∧ (firingAt loopIn 0x55 (fl1 0 3)).ready = true ∧
    (openBinding (callIn.fab 0) 7).any (fun b => b.lid.isNone) = true ∧ (firingAt callIn 0x57 (fl1 0 0)).ready = true := by
  refine ⟨start_of ?_, ?_, ?_, ?_, ?_, start_of ?_, ?_⟩ <;> decide +kernel

theorem witness_ContextReturn :
    (let s := loopIn.updFab 0 fun f => { f with retiring := [(7, none)], waiting := [] };
    (s.fab 0).retiring.any (fun y => y.1 == 7 && exitLeft (s.fab 0) y.2) = true ∧ ctxHeld (s.fab 0) 7 = false) := by decide +kernel

theorem test_loop_entry_keeps_its_context : gives (.loop (fl2 0 3)) (loopS [i32 0 1]) (fun t =>
    (sent t).map (fun u => (u.ctx, u.iter)) == [(7, 0)]) = true := by decide +kernel

theorem test_loop_back_edge : gives (.loop (fl2 0 0x83)) (loopIn.updFab 0 fun f => { f with waiting := [⟨false, 0, 0, inLoop (i32 1 1)⟩] })
    (fun t => (sent t).map (fun u => (u.ctx, u.iter)) == [(7, 2)]) = true := by decide +kernel

theorem test_exits : gives (.lexit (fl1 0 3)) loopIn (fun t => (sent t).length == 1 &&
      (t.fab 0).bindings.all fun b => b.exits == 1) = true ∧
    gives (.ret (fl1 0 0)) callIn (fun t => (t.fab 0).outq.all fun e => e.deps.all fun d => d.tok.ctx == 0 && d.tok.node == 1) = true := by
  decide +kernel

/-! Ordered merges, cohorts -/

def merged : NodeFields := { fl2 0 0 with flags := 1 }
theorem witness_OrderedMergesAndCohorts : flS.CanStart ∧ fORD merged = true ∧ mergePort (firingAt flS 0x51 merged) = some 0 ∧
    (firingAt flS 0x51 merged).port 0 = some (i32 0 1) ∧ streamStopped flS (flS.node flS.site) 0x51 merged flS.site 0 = false ∧
    ordArr (flS.node flS.site) 0x51 merged (i32 0 1) = .hold ∧
    ((0 : BitVec 12), (0 : BitVec 16)) ∉ members (flS.fab 0) (cohortOf (fl1 0 4)) ∧
    (let s := flS.updFab 0 fun f => { f with cohorts := [(cohortOf (fl1 0 4), 0, 0)] };
      ((0 : BitVec 12), (0 : BitVec 16)) ∈ members (s.fab 0) (cohortOf (fl1 0 4)) ∧ heldTok s s.site = none) :=
  ⟨start_of (by decide +kernel), by decide +kernel⟩

theorem test_cohorts : gives (.cjoin (fl1 0 4)) (nodeS 0 [i32 0 1]) (fun t => (t.fab 0).cohorts == [(cohortOf (fl1 0 4), 0, 0)] &&
      (sent t).length == 1) = true ∧
    gives (.cleave (fl1 0 4)) ((nodeS 0 [i32 0 1]).updFab 0 fun f => { f with cohorts := [(cohortOf (fl1 0 4), 0, 0)] }) (fun t =>
      (t.fab 0).cohorts == []) = true ∧
    gives (.cbar (fl1 0 4)) (nodeS 0 [i32 0 1]) (fun t => (sent t).length == 1) = true := by decide +kernel

/-- SEQ 5 comes before the due SEQ 0: it is held. -/
theorem test_reord_holds : gives (.reord (fl1 1 0)) (nodeS 0 [i32 0 1]) (fun t => sent t == [] && (t.fab 0).waiting == []) = true ∧
    gives (.reord (fl1 1 0)) (nodeS 0 [{ i32 0 1 with seq := 0 }]) (fun t => (sent t).length == 1) = true := by decide +kernel

/-! Chains, sparse iteration -/

/-- A chain of one level with extent 2; a bitmap with bits 1 and 4. -/
def ctrS : State := nodeS 0x0000000081001000000000004200005800 [tok 0 2 7 0, lanes 1 7 2]
def bitmap : Token := tok 0 0 0x11 0x12
theorem witness_ChainsAndSparseIterationRunTheirPasses : ctrS.CanStart ∧ (ctrS.node ctrS.site).pass = none ∧
    (firingAt ctrS 0x58 (nf2 7 0 0)).a = some (tok 0 2 7 0) ∧ (firingAt ctrS 0x58 (nf2 7 0 0)).b = some (lanes 1 7 2) ∧
    0 ∉ ctrExtents (nf2 7 0 0) (lanes 1 7 2) ∧ 0 ∈ ctrExtents (nf2 7 0 0) (lanes 1 7 0) ∧
    (firingAt (nodeS 0 [bitmap]) 0x59 (nf1 7 0 0)).ready = true ∧ slTree (nf1 7 0 0) = false ∧ bitmap.fmt = 0x11 :=
  ⟨start_of (by decide +kernel), by decide +kernel⟩

/-- Keys 1, 3 against 3, 4 in lanes of key and value. -/
def keys (port : BitVec 2) (l : List Nat) : Token := tok port 0 0x12 (packLanes 32 l)
theorem witness_SparseWalks :
    (let s := nodeS 0 [keys 0 [1, 3], keys 1 [3, 4]];
    (firingAt s 0x5A (nf2 0x12 0 0)).ready = true ∧ (firingAt s 0x5A (nf2 0x12 0 0)).a = some (keys 0 [1, 3]) ∧
    (fibreOf (s.node s.site) s.site).skipA = false ∧ (fibreOf (s.node s.site) s.site).skipB = false) ∧
    (let s := nodeS 0 [tok 0 3 0x12 1, tok 1 3 0x12 1];
    (firingAt s 0x5A (nf2 0x12 0 0)).ready = true ∧ (fibreOf (s.node s.site) s.site).out = [] ∧ (tok 0 3 0x12 1).kind = kSTOP) := by
  decide +kernel

theorem test_ctr_begins : gives (.ctr (nf2 7 0 0)) ctrS (fun t => ((t.node t.site).pass.map (·.total)) == some 2 && sent t == [] &&
    (t.fab 0).waiting == []) = true := by decide +kernel

theorem test_sloop_begins : gives (.sloop (nf1 7 0 0)) (nodeS 0 [bitmap]) (fun t =>
    (t.node t.site).pass.any (fun p => p.out.length == 2 && p.total == 2)) = true := by decide +kernel

theorem test_stops_end_both_heads : ([.isect (nf2 0x12 0 0), .union (nf2 0x12 0 0)] : List Instr).all (fun i =>
    gives i (nodeS 0 [tok 0 3 0x12 1, tok 1 3 0x12 1]) fun t => (sent t).map (·.kind) == [3] && (t.fab 0).waiting == []) = true := by
  decide +kernel

/-! #### Matrix nodes -/

/-- A command word on port a of a matrix node, and the node. -/
def cmdTok (w : Nat) : Token := tok 0 2 8 (BitVec.ofNat 512 w)
def mx : NodeFields := nf1 8 0 0
/-- A slot of tile (0,0) held by context 0 with 8 rows of 1.0 in FP16. -/
def ones (slot : BitVec 6) : OmSlot := ⟨0, 0, slot, true, 0, 0xFF, 0xB, 11, (List.range 8).map fun r => (BitVec.ofNat 5 r, (lanes 0 0xB 0x3C00).payload, 0)⟩
/-- Region 0 with slots 1 and 2 of ones, slot 5 claimed, and 5.0 in element (1,1) of accumulator 3. -/
def mxS (toks : List Token) : State := (nodeS 0 toks).updFab 0 fun f => { f with om := [ones 1, ones 2, ⟨0, 0, 5, true, 0, 0, 0, 63, []⟩], am := [⟨0, 0, 3, 1, 1, 0x40A00000, 24⟩] }
def tile0 : TileAt := ⟨0, 0, 0⟩
/-- The next command of tile (0,0), with its reserved entry 0. -/
def mxC (opc : BitVec 8) (nf : NodeFields) (w : Nat) : State :=
  (mxS []).updFab 0 fun f => { f with
    arrayq := [⟨0, 0, 0, opc, nf, 0, cmdTok w, 0⟩], outq := [⟨0, 0, 0, 0, true, 3, 0, none, []⟩], nextId := 1 }

theorem witness_MatrixNodesQueueTheirCommands : (mxS [cmdTok 0x41]).CanStart ∧ (tileCmds ((mxS [cmdTok 0x41]).fab 0) 0 0).length < 8 ∧
    (firingAt (mxS [cmdTok 0x41]) 0x41 mx).Plain (fun _ t => t.fmt == 8 && (t.kind == kCTRL || t.kind == kDATA || t.kind == kINDEX)) ∧
    (firingAt (mxS [cmdTok 0x41]) 0x41 mx).a = some (cmdTok 0x41) ∧
    (let s := mxS [lanes 0 0xB 0x3C00, tok 1 0 7 (BitVec.ofNat 512 (1 + 8 * 64))];
      plainB (firingAt s 0x40 (nf2 7 0 0)) (fun i t => if i = 0 then t.kind == kDATA && (rowCap t.fmt).isSome else isDataIdx t 7) = true ∧
      slotPending 0 0 1 (s.fab 0) (tileCmds (s.fab 0) 0 0) = [] ∧
        (match fillRow (s.fab 0) ⟨0, 0, 1, 0, 8, 0xB, 11, 0, 0, []⟩ with | .done _ => true | _ => false) = true) := by
  refine ⟨start_of ?_, ?_, plain_of ?_, ?_, ?_⟩ <;> decide +kernel

theorem test_commands_queue : ([.mxclm mx, .mxrel mx, .mxmul mx, .mxdrn mx, .mxzero mx, .mxrec mx, .mxsigm mx] : List Instr).all (fun i =>
    gives i (mxS [cmdTok 0x41]) fun t => (t.fab 0).arrayq.length == 1 && sent t == []) = true := by decide +kernel

theorem test_mxf : gives (.mxf (nf2 7 0 0)) (mxS [lanes 0 0xB 0x3C00, tok 1 0 7 (BitVec.ofNat 512 (1 + 8 * 64))]) (fun t =>
    (omSlot (t.fab 0) 0 0 1).present == 0x1FF && (sent t).map (·.lane 32 0) == [0x201]) = true := by decide +kernel

theorem witness_MatrixCommandsExecute :
    (let s := mxC 0x43 mx 0x2040;
      regionGoing s 0 = true ∧ ((cmdNext s tile0 0x43).any fun c => cmdOk c) = true ∧
      omOwned (omSlot (s.fab 0) 0 0 1) 0 = true ∧ rowsPresent (omSlot (s.fab 0) 0 0 1) 8 = true ∧ fmtPair 0xB 0xB = true ∧
      8 ≤ (rowCap 0xB).getD 0) ∧
    (let s := mxC 0x41 mx 0x43; ((cmdNext s tile0 0x41).any fun c => cmdOk c && (cmdSlots c).all fun k => !(omSlot (s.fab 0) 0 0 k).held) = true) ∧
    (let s := mxC 0x41 mx 0x41; ((cmdNext s tile0 0x41).any fun c => cmdOk c && (cmdSlots c).any fun k => (omSlot (s.fab 0) 0 0 k).held) = true) ∧
    (let s := mxC 0x42 mx 0x41; ((cmdNext s tile0 0x42).any fun c => cmdOk c && (cmdSlots c).all fun k => omOwned (omSlot (s.fab 0) 0 0 k) 0) = true) ∧
    (let s := mxC 0x45 mx 8; ((cmdNext s tile0 0x45).any fun c => cmdOk c) = true) ∧
    (let s := mxC 0x44 (nf1 0xA 0 0) 0xB; ((cmdNext s tile0 0x44).any fun c => cmdOk c) = true) ∧
    (let s := mxC 0x41 mx 0; ((cmdNext s tile0 0x41).any fun c => !cmdOk c) = true) := by decide +kernel

theorem test_mxmul : gives (.mxmulExecute ⟨tile0, 0⟩) (mxC 0x43 mx 0x2040) (fun t => amGet (t.fab 0) 0 0 0 7 7 == (0x41000000, 14) &&
    (sent t).map (·.lane 32 0) == [0x2040] && (t.fab 0).arrayq == []) = true := by decide +kernel

theorem test_slots : gives (.mxclmExecute ⟨tile0, 0⟩) (mxC 0x41 mx 0x43) (fun t => (omSlot (t.fab 0) 0 0 3).held) = true ∧
    gives (.mxclmExecute ⟨tile0, 0⟩) (mxC 0x41 mx 0x41) (fun t => (t.fab 0).parkTab.length == 1) = true ∧
    gives (.mxrelExecute ⟨tile0, 0⟩) (mxC 0x42 mx 0x41) (fun t => !(omSlot (t.fab 0) 0 0 1).held) = true ∧
    gives (.mxclmExecute ⟨tile0, 0⟩) (mxC 0x41 mx 0) (fun t => (sent t).map (fun u => (u.kind, u.lane 8 0)) == [(6, 0x8E)]) = true := by decide +kernel

/-- Row 1 of accumulator 3 has 5.0 in lane 1; cleared, the element reads as zero; its tag as an integer; rows recorded in slot 5. -/
theorem test_accumulators : gives (.mxdrnExecute ⟨tile0, 0⟩) (mxC 0x44 (nf1 0xA 0 0) 0xB) (fun t => (lanesOf t).take 3 == [0, 0x40A00000, 0]) = true ∧
    gives (.mxzeroExecute ⟨tile0, 0⟩) (mxC 0x45 mx 8) (fun t => amGet (t.fab 0) 0 0 3 1 1 == (0, 24)) = true ∧
    gives (.mxsigmExecute ⟨tile0, 0⟩) (mxC 0x47 (nf1 5 0 0) 3) (fun t => (lanesOf t).take 2 == [24, 24]) = true ∧
    gives (.mxrecExecute ⟨tile0, 0⟩) (mxC 0x46 (nf1 0xB 0 0) (3 + 5 * 8)) (fun t =>
      ((omSlot (t.fab 0) 0 0 5).rows.any fun r => r.1 == 1 && r.2.1.extractLsb' 16 16 == 0x4500)) = true := by decide +kernel

/-! #### Memory nodes -/

/-- Shape record of port 0 (scratch, at 0x8000, 4 elements of 4 bytes). -/
def scrShape : ShapeRec := ⟨0x8000, 0x07, 1, 0, 4, 1, 1, 1, 4, 0, 0, 0⟩
/-- A node at slot 0, an AGEN at slot 5 that binds port 0 to scratch, one at slot 6 that binds port 1 to global memory. -/
def memS (w : Nat) (toks : List Token) : State :=
  (((State.reset.withFetchWord 32 0).withFetchWord 128 w).updFab 0 fun f => { f with
    waiting := toks.map fun t => ⟨false, 0, 0, t⟩, scratch := [(0x8000, 0x11), (0x8001, 0x22)] }).updCtl 0 fun c => { c with
      cfg := c.cfg.map fun g => { g with
        nodes := g.nodes ++ [⟨0, 0, 5, 0xF1000870⟩, ⟨0, 0, 6, 0x5F1000870⟩]
        shapes := [⟨0, 0, 0, scrShape⟩, ⟨0, 0, 5, scrShape⟩, ⟨0, 0, 6, { scrShape with base := 0x100000 }⟩] } }
/-- An address token. -/
def adr (va : Nat) : Token := tok 0 1 8 (BitVec.ofNat 512 va)
def ldW : NodeFields := nf1 7 0 8
def stW : NodeFields := nf2 7 0 8
def gl (nf : NodeFields) : NodeFields := { nf with imm := nf.imm ||| 1 }

def plainM (s : State) (opc : BitVec 8) (nf : NodeFields) : Bool :=
  let x := firingAt s opc nf
  x.ready && x.a.isSome && x.all.all (fun t => t.kind != kERROR && t.kind != kBUBBLE) && x.toks.all (fun t => t.kind != kSTOP) && x.p.isNone

def placedB (s : State) (opc : BitVec 8) (nf : NodeFields) (ps : List (Word × Nat × Nat)) : Bool :=
  match placeAll s (firingAt s opc nf) (portSpace s (firingAt s opc nf)).1 ps with | .ok qs _ => !qs.isEmpty | _ => false

theorem witness_MemoryNodesStartTheirAccesses : (memS 0 [adr 0x8000, i32 1 7]).CanStart ∧
    plainM (memS 0 [adr 0x8000]) 0x71 ldW = true ∧ isAddr (adr 0x8000) = true ∧ emptyAddr (adr 0x8000) = false ∧
    aligned (addrLane (adr 0x8000) 0) (accBytes ldW) = true ∧
    placedB (memS 0 [adr 0x8000]) 0x71 ldW (cutPieces 0x8000 4 ++ scalePiece ldW (adr 0x8000)) = true ∧
    placedB (memS 0 [adr 0x100000]) 0x71 (gl ldW) (cutPieces 0x100000 4) = true ∧
    (match placeAll (memS 0 [adr 0x40000000]) (firingAt (memS 0 [adr 0x40000000]) 0x71 (gl ldW)) 1 (cutPieces 0x40000000 4) with
      | .trap c _ => c == 0x60 | _ => false) = true ∧
    plainM (memS 0 [adr 0x8000, lanes 1 7 9]) 0x72 stW = true ∧ (portSpace (memS 0 []) (firingAt (memS 0 []) 0x72 stW)).1 ≠ 2 ∧
    portShape (memS 0 []) 0 0 0 (memPort ldW) = some scrShape ∧ gatherQueue (memS 0 []) (memS 0 []).site < 64 ∧
    (gatherPieces (nf1 7 0 0) scrShape (lanes 0 7 3)).isSome = true ∧ gatherPieces (nf1 7 1 0) scrShape (lanes 0 7 4) = none ∧
    shapeAt (memS 0 []) 0 0 0 0 = some scrShape ∧ paramOk (tok 1 7 8 0x9000) = true :=
  ⟨start_of (by decide +kernel), by decide +kernel⟩

theorem test_accesses_start : ([(.ldn ldW, [adr 0x8000]), (.stn stW, [adr 0x8000, lanes 1 7 9]), (.ldx (nf1 7 0 0), [lanes 0 7 3]),
    (.stx (nf2 7 0 0), [lanes 0 7 3, lanes 1 7 9]), (.atom (nf2 7 0 0), [adr 0x8000, lanes 1 7 9]), (.mcas (nf1 8 0 1), [adr 0x100000])]
    : List (Instr × List Token)).all (fun p => gives p.1 (memS 0 p.2) fun t => (t.fab 0).accs.length == 1 && (t.fab 0).waiting == []) = true := by
  decide +kernel

theorem test_node_page_fault_parks : gives (.ldn (gl ldW)) (memS 0 [adr 0x40000000]) (fun t => (t.fab 0).parkTab.length == 1 &&
    (t.fab 0).accs == []) = true := by decide +kernel

theorem test_pref_and_param : gives (.pref (nf1 8 0 1)) (memS 0 [adr 0x100000]) (fun t => sent t == [] && (t.fab 0).accs == []) = true ∧
    gives (.param (nf1 8 0 3)) (memS 0 [i32 0 0xFFFFFFFE]) (fun t => (sent t).map (fun u => (u.kind, u.lane 64 0, u.lane 64 1)) ==
      [(7, 0xFFFFFFFFFFFFFFFE, 3)]) = true := by decide +kernel

theorem test_agen : gives (.agen (nf1 8 1 0)) (memS 0 [lanes 0 7 3]) (fun t => (sent t).map (fun u => (u.kind, u.lane 64 0)) == [(1, 0x800C)]) = true ∧
    gives (.agen (nf1 8 0 0)) (memS 0 [tok 0 2 7 0]) (fun t => ((t.node t.site).pass.map (·.total)) == some 4) = true ∧
    gives (.agen (nf2 8 0 0)) (memS 0 [tok 1 7 8 0x9000]) (fun t => ((t.node t.site).shape.map (·.base)) == some 0x9000) = true := by
  decide +kernel

/-- 1.0 for column 2, then a STOP. -/
def cv (l : List Nat) : Token := tok 0 0 0x13 (packLanes 32 (l ++ List.replicate (16 - l.length) 0xFFFF))
theorem witness_Spacc :
    (let s := memS 0 [cv [0x3C000002]];
      let x := firingAt s 0x78 (nf1 0x13 0 0);
      x.ready = true ∧ x.a = some (cv [0x3C000002]) ∧ x.p = none ∧ (s.node s.site).flush = none ∧ portBusy s x = false ∧
      isData (cv [0x3C000002]) 0x13 = true) := by decide +kernel

theorem test_spacc : gives (.spacc (nf1 0x13 0 0)) (memS 0 [cv [0x3C000002]]) (fun t =>
      spEntry (t.fab 0) t.site 0x8000 4 2 == (0x3F800000, 11) && sent t == []) = true ∧
    gives (.spacc (nf1 0x13 0 0)) (memS 0 [tok 0 3 0x13 1]) (fun t => (t.node t.site).flush.isSome) = true := by decide +kernel

/-- An LDN under way that reads scratch; an AGEN with an open round; a SPACC that flushes. -/
def ldS : State := match exec (.ldn ldW) (memS 0 [adr 0x8000]) with | .next t => t | _ => State.reset
def agS : State := match exec (.agen (nf1 8 0 0)) (memS 0x000000008100100000000000F1000870 [tok 0 2 7 0]) with | .next t => t | _ => State.reset
def spS : State := match exec (.spacc (nf1 0x13 0 0)) (memS 0x000000008100100000000000F1001378 [tok 0 3 0x13 1]) with | .next t => t | _ => State.reset

theorem witness_AccessesPerformAndEmissionsLeave :
    (((ldS.fab 0).accs.head?).any fun a => (ldS.fab 0).accs.find? (·.id = (64 * a.id) / 64) == some a && !a.held && a.site.r == 0 &&
      ((a.pieces[0]?).any fun p => !p.done && mayPerform (ldS.fab 0) a p && (match performPiece ldS a p with | .ok v _ => v == 0x2211 | _ => false))) = true ∧
    accessing ldS 0 = true ∧ regionGoing agS 0 = true ∧ outCount (agS.fab 0) 0 0 0 < 4 ∧ (agS.node agS.site).pass.isSome = true ∧
    fieldsAt agS 0 0 0 0 = some (0x70, nf1 8 0 0) ∧ shapeAt agS 0 0 0 0 = some scrShape ∧
    fieldsAt spS 0 0 0 0 = some (0x78, nf1 0x13 0 0) ∧ (spS.node spS.site).flush.isSome = true ∧
    mergerRoom ldS.ms 0 = true ∧ parkCount (ldS.fab 0) < 256 ∧ (ldS.fab 0).accs.all (fun a => !a.held) = true ∧
    (let s := ldS.updFab 0 fun f => { f with accs := f.accs.map fun (a : Acc) => { a with held := true } }
     ((s.fab 0).accs.head?.any fun a => (s.fab 0).accs.find? (fun x => x.held && x.site == a.site) == some a) = true ∧
       (s.ctl 0).st = .running ∧ (s.ctl 0).killing = none) := by decide +kernel

theorem test_access_performs : (((ldS.fab 0).accs.head?).map fun a =>
    let t := after ldS (execAccessPerform 0 (64 * a.id));
    ((t.fab 0).accs.length, (sent t).map fun u => u.lane 32 0)) = some (0, [0x2211]) := by decide +kernel

/-- The first address of the round; the STOP that ends the row. -/
theorem test_emissions : (let t := after agS (execAgenEmit ⟨0, 0, 0, 0, 0, 0⟩);
      (sent t).map (fun u => u.lane 64 0) = [0x8000]) ∧
    (let t := after spS (execSpaccFlushEmit ⟨0, 0, 0, 0, 0, 0⟩);
      (sent t).map (·.kind) = [3] ∧ (t.node t.site).flush = none) := by decide +kernel

/-! #### Rule nodes -/

/-- A score or beta node over 4 entries of scratch at port 0, in partition 0, with the rule engine on. -/
def ruS (w : Nat) (toks : List Token) : State :=
  ((memS w toks).updRules 0 fun q => { q with rmcfg := 1 }).updCtl 0 fun c => { c with
    cfg := c.cfg.map fun g => { g with shapes := [⟨0, 0, 5, { scrShape with fmt := 8, s0 := 128 }⟩] } }
/-- The same with a sticky token at port b. -/
def ruB (toks : List Token) (b : Token) : State := (ruS 0 toks).updCtl 0 fun c => { c with
  cfg := c.cfg.map fun g => { g with stickies := [⟨0, 0, 0, 1, b⟩] } }
def st2 : NodeFields := { nf2 8 0 0 with kb := 2 }
def d64 (port : BitVec 2) (l : List Nat) : Token := tok port 0 8 (packLanes 64 l)
/-- A CALL (class 1) with timetag 9 and word 1 = 5; a test descriptor: class 1, condition 0, key word 1, one test word 1 EQ 5. -/
def wme : Token := tok 0 0 0x14 (packLanes 64 [0x0001000000000900, 5])
def test1 (k : Nat) : Token := d64 1 [0x01100001, 0x01, k]
def dS : State := { (ruS 0 []).updFab 0 fun f => { f with injq := [⟨7, 9, false, [0x0001000000000900, 5], 0⟩] } with site := ⟨0, 0, 0, 0, 0, 7⟩ }
def sel (port : BitVec 2) : Token := tok port 0 7 (packLanes 32 (List.replicate 14 0 ++ [60, 0]))

theorem witness_RuleNodesMatchAndDeliver : dS.CanStart ∧ ((dS.fab 0).injq.head?).isSome = true ∧ (dS.rules 0).unsettled = [] ∧
    (ruB [wme] (test1 5)).CanStart ∧ (firingAt (ruB [wme] (test1 5)) 0x81 st2).ready = true ∧
    (firingAt (ruB [wme] (test1 5)) 0x81 st2).a = some wme ∧ isData wme 0x14 = true ∧
    mergePort (ruleHeads (ruS 0 [d64 0 [9]]) (firingAt (ruS 0 [d64 0 [9]]) 0x82 (nf2 8 0 0))) = some 0 ∧ isData (d64 0 [9]) 8 = true ∧
    portShape (ruS 0 []) 0 0 0 (memPort (nf2 8 0 0)) = some { scrShape with fmt := 8, s0 := 128 } ∧
    (betaStep false ((ruS 0 []).fab 0) ⟨0, 0, 0x8000, 4⟩ true (lanes64 (d64 0 [9])) 0).isSome = true ∧
    (firingAt (ruS 0 [d64 0 [9], sel 2]) 0x84 (nf3 8 0 0)).c = some (sel 2) ∧
    mergePort (ruleHeads (ruS 0 [d64 0 [9], sel 2]) (firingAt (ruS 0 [d64 0 [9], sel 2]) 0x84 (nf3 8 0 0))) = some 0 ∧ (d64 0 [9]).payload.getLsbD 511 = false ∧
    (match scoreValues (ruS 0 [d64 0 [9], sel 2]) ((firingAt (ruS 0 [d64 0 [9], sel 2]) 0x84 (nf3 8 0 0)).alone 0) (lanes64 (d64 0 [9]))
      (sel 2) [5, 4, 3, 2, 1, 0] with | .ok _ _ => true | _ => false) = true ∧
    (firingAt (ruB [d64 0 [9]] (d64 1 [5])) 0x85 st2).b = some (d64 1 [5]) := by
  refine ⟨start_of ?_, ?_, ?_, start_of ?_, ?_⟩ <;> decide +kernel

theorem test_delta : gives (.delta { nf1 0x14 0 0 with route1 := 0x80042000 }) dS (fun t => (sent t).map (fun u => (u.lane 64 0, u.iter)) ==
    [(0x0001000000000900, 7)] && ((t.rules 0).unsettled.map (·.n)) == [7] && (t.fab 0).injq == []) = true := by decide +kernel

theorem test_alpha : gives (.alpha st2) (ruB [wme] (test1 5)) (fun t => (sent t).map (fun u => (u.lane 64 0, u.scale)) == [(9, 5)]) = true ∧
    gives (.alpha st2) (ruB [wme] (test1 6)) (fun t => sent t == [] && (t.fab 0).waiting == []) = true := by decide +kernel

/-- A first left token has nothing to join; a token that no right entry blocks passes a BNEG. -/
theorem test_beta : gives (.bjoin (nf2 8 0 0)) (ruS 0 [d64 0 [9]]) (fun t => sent t == [] &&
      scrRead (t.fab 0) 0 0 0x8000 8 == 9 && scrRead (t.fab 0) 0 0 0x8048 1 == 1) = true ∧
    gives (.bneg (nf2 8 0 0)) (ruS 0 [d64 0 [9]]) (fun t => (sent t).map (·.lane 64 0) == [9]) = true := by decide +kernel

/-- An unknown key is asked for on ROUTE1 and the token held; an unasked return is dropped. -/
theorem test_score : gives (.score { nf3 8 0 0 with route1 := 0x80042000 }) (ruS 0 [d64 0 [9], sel 2]) (fun t => sent t == [] &&
      (sent t true).length == 1 && ((t.node t.site).keys.map (·.held.length)) == [1]) = true ∧
    gives (.score (nf3 8 0 0)) (ruS 0 [d64 1 [9], sel 2]) (fun t => sent t == []) = true := by decide +kernel

theorem test_term : gives (.term st2) (ruB [d64 0 [9]] (d64 1 [5])) (fun t =>
    ((t.rules 0).deliveries.map fun d => (d.lanes.headD 0, d.desc.headD 0)) == [(9, 5)]) = true := by decide +kernel

/-! #### Tokens and regions -/

/-- A token bound for tile (0,1) at the head of slot 0's output; one that has arrived at tile (0,0) over the west link. -/
def toE : Token := { i32 0 7 with dcol := 1, node := 1 }
def hopS : State := (memS 0 []).updFab 0 fun f => { f with
  outq := [⟨3, 0, 0, 0, false, 0, 0, none, [⟨false, ⟨0, 1⟩, toE⟩]⟩], links := [⟨0, 0, .w, ⟨0, 0⟩, i32 0 8⟩], nextId := 4 }
/-- A token on its way out of the region to the north. -/
def outS : State := (memS 0 []).updFab 0 fun f => { f with outq := [⟨3, 0, 0, 0, false, 0, 0, none, [⟨false, ⟨-1, 0⟩, i32 0 7⟩]⟩], nextId := 4 }

theorem witness_TokensHopAndRegionsEnd : regionGoing hopS 0 = true ∧
    tokAt hopS 0 (.out 0 0 0 false) = some (toE, ⟨0, 1⟩, 0, 0) ∧ nextHop 0 0 ⟨0, 1⟩ = some (0, 1, .w) ∧ insideCfg hopS 0 0 1 = true ∧
    linkCount (hopS.fab 0) 0 1 .w < 16 ∧ isParked (hopS.fab 0) 0 0 = false ∧
    deliverable hopS 0 (.link 0 0 .w) = true ∧ tokAt hopS 0 (.link 0 0 .w) = some (i32 0 8, ⟨0, 0⟩, 0, 0) ∧ isDead (hopS.fab 0) 0 0 = false ∧
    ((List.finRange 16).all fun i => !cmpMatches (hopS.dbg 0) (i32 0 8) i) = true ∧ doneLid hopS 0 (i32 0 8) = none ∧
    outOfTurn hopS 0 (i32 0 8) (.link 0 0 .w) = false ∧ (hopS.ctl 0).killing = none ∧
    (hopS.ctl 0).heldStore = none ∧ quiescent (memS 0 []) 0 = true ∧ heldTokens (hopS.fab 0) ≠ 0 ∧
    (match writeHangMap { hopS with fclock := 2 ^ 40 } 0 with | .ok va _ => va == 0 | _ => false) = true ∧
    ((hopS.ctl 0).lastFire.toNat + 2 ^ max 10 (hopS.syscfg.extractLsb' 10 5).toNat ≤ 2 ^ 40) := by decide +kernel

/-- Bit 0 of the payload flips: group 0 fails. -/
def flip1 : Flips := ⟨0, 1, 1, 0⟩

theorem witness_ParityAndOrder :
    (checkOf toE 1 = .tagged { toE with payload := toE.payload ^^^ 1 }) ∧
    isParked ((removeTok (parityFault hopS 0 0 1 (some { toE with payload := toE.payload ^^^ 1 })) 0 (.out 0 0 0 false)).fab 0) 0 0 = false ∧
    -- a later source has delivered in the fc
    outOfTurn (hopS.updFab 0 fun f => { f with lastDel := [(0, 0, 0, 0, 4, 0)] }) 0 (i32 0 8) (.link 0 0 .w) = true ∧
    (let s := hopS.updCtl 0 fun c => { c with killing := some 0xA9 }; (s.ctl 0).heldStore = none ∧ (s.ctl 0).killing ≠ none) ∧
    (let s := hopS.updCtl 0 fun c => { c with heldStore := some (1, 0, 0) }; (s.ctl 0).heldStore = some (1, 0, 0)) := by
  decide +kernel

/-- An error of a configuration store whose image reads as before, as changed, and a second time. -/
theorem witness_CfgStoreUe : (let s := coreC .running; (s.ctl 3).st = .running ∧ (s.ctl 3).cfg = some sinkCfg ∧
      (match reread (s.updCtl 3 fun c => { c with imageVA := 0x110000 }) (hubCtx 0 .s) 0x110000 0 imgRsig with | .ok b _ => b | _ => false) = true ∧
      (match reread s (hubCtx 0 .s) 0x200000 0 imgRsig with | .ok b _ => !b | _ => false) = true) ∧
    ((coreC .running).die 0).ueLast = [] := by decide +kernel

theorem witness_EdgeDelivery :
    tokAt outS 0 (.out 0 0 0 false) = some (i32 0 7, ⟨-1, 0⟩, 0, 0) ∧ nextHop 0 0 ⟨-1, 0⟩ = some (-1, 0, .s) ∧
    insideCfg outS 0 (-1) 0 = false ∧ ((outS.ctl 0).cfg.bind fun g => edgePort g ⟨-1, 0⟩) = some (0, 0) := by decide +kernel

theorem witness_SprueRefill :
    (let s := hopS.updFab 0 fun f => { f with waiting := [⟨true, 0, 0, i32 0 8⟩] };
    (s.fab 0).waiting[0]?.any (fun x => x.flips == 0 && x.spilled) = true ∧
      (s.fab 0).waiting.countP (fun x => !x.spilled && (x.tok.drow == 0 && x.tok.dcol == 0)) < msEntries 0 0) := by decide +kernel

theorem test_token_hop : gives (.tokenHop 0 (.out 0 0 0 false) .clean) hopS (fun t =>
    (t.fab 0).links.any (fun l => l.row == 0 && l.col == 1 && l.dir == .w && l.tok == toE) && (t.fab 0).outq == []) = true := by decide +kernel
theorem test_parity_error : gives (.tokenHop 0 (.out 0 0 0 false) flip1) hopS (fun t =>
    ((t.fab 0).links.find? fun l => l.col == 1).any (fun l => l.tok.kind == kERROR && l.tok.lane 8 0 == 0x80) &&
      (t.die 0).badTiles == [(0, 1)]) = true := by decide +kernel
theorem test_token_deliver : gives (.tokenDeliver 0 (.link 0 0 .w) .clean) hopS (fun t =>
    ((t.fab 0).waiting.map (·.tok)) == [i32 0 8] && (t.fab 0).links == []) = true ∧
    gives (.tokenDeliver 0 (.out 0 0 0 false) .clean) outS (fun t => ((t.fab 0).edge.map fun e => (e.side, e.idx, e.tok)) == [(0, 0, i32 0 7)]) = true := by
  decide +kernel
theorem test_sprue_refill : gives (.sprueRefill 0 0) (hopS.updFab 0 fun f => { f with waiting := [⟨true, 0, 0, i32 0 8⟩] }) (fun t =>
    ((t.fab 0).waiting.map (·.spilled)) == [false]) = true := by decide +kernel
theorem test_quiescence : gives (.regionQuiescence 0) ((memS 0 []).updCtl 0 fun c => { c with cword := 0x100400, cwLvl := .s }) (fun t =>
    (t.ctl 0).st == .running && gives (.regionQuiescence 0) { t with fclock := t.fclock + 1 } fun u =>
      Memory.readLE u.ms.mem 0x100400 8 == 1 && (u.ctl 0).st == .idle) = true := by decide +kernel
theorem test_hang : (let t := after { hopS with fclock := 2 ^ 40 } (execHangTimeout 0); (t.ctl 0).st = .frozen ∧ (t.ctl 0).fault = 0x84) := by
  decide +kernel

/-! #### The memory system's agents and the fault queue -/

/-- Directory entries of two quiet siblings; an agent that holds one. -/
def dirS : State := ((memS 0 []).updMs fun ms => { ms with
  dir := [⟨0x200000, 128, .sh [.cluster 0 3], 0⟩, ⟨0x200080, 128, .sh [.cluster 0 4], 0⟩], recalls := [(.cluster 0 3, 0x4000, 0)] })
def agent3 : Agent := .cluster 0 3

theorem witness_MemoryAgentsAndTheFaultQueue :
    (∃ x s1, translate dirS ⟨some 0, agent3, .s, none, false, false, [], 0⟩ .read 0x100000 = .ok x s1) ∧
    0x4000 * 128 < peerBase ∧ agent3 ≠ .hub ∧ incarnationOf dirS.ms agent3 = 0 ∧ agentPart dirS agent3 = none ∧
    128 ∈ (List.range 9).map (fun k => 128 * 2 ^ k) ∧ 0x200000 % (2 * 128) = 0 ∧
    (dirS.ms.dir.find? fun e => decide (e.base = 0x200000) && decide (e.size = 128)).isSome = true ∧
    (dirS.ms.dir.find? fun e => decide (e.base = 0x200000 + 128) && decide (e.size = 128)).isSome = true ∧
    (mergeStates (some (.sh [.cluster 0 3])) (some (.sh [.cluster 0 4]))).isSome = true ∧ holdsLine dirS.ms agent3 0x200000 = true ∧
    dirS.ms.locks.any (·.1 = 0x4000) = false ∧ (∀ x ∈ dirS.ms.recalls, x.2.1 = 0x4000 → x.1 = agent3) ∧ (agent3, 0x4000, 0) ∈ dirS.ms.recalls ∧
    (dirS.updMs fun ms => { ms with locks := [(0x4000, 9)] }).ms.locks.any (·.1 = 0x4000) = true ∧
    dirS.ms.mwcas = [] ∧ (dirS.part 0).st = .running ∧ pfqRoom (dirS.part 0) = false ∧
    (let s := dirS.updPart 0 fun q => { q with pfqbase := 0x100001, pfqsize := 0x10006, deferred := [(1, [0, 0, 0, 0, 0, 0, 0, 0])] };
      (pfqWrite s 0 1 [0, 0, 0, 0, 0, 0, 0, 0]).1 = .done) :=
  ⟨ok_of (by decide +kernel), by decide +kernel⟩

theorem test_home_request :
    (let t := after dirS (execHomeRequest agent3 0x4000 ⟨.write, 0, 0⟩); t.ms.dir.any (fun e => e.base == 0x200000 && e.st == .ow agent3) = true) ∧
    (let t := after dirS (execHomeRequest agent3 0x4000 ⟨.write, 0, 5⟩); t.ms.dir = dirS.ms.dir ∧ t.ports.rasLog.length = 1) := by decide +kernel
theorem test_directory_merge : (let t := after { dirS with fclock := 2 ^ 40 } (execDirectoryMerge 0x200000 128);
    t.ms.dir.map (fun e => (e.base, e.size)) = [(0x200000, 256)]) := by decide +kernel
theorem test_agent_death : (let t := after { dirS with fclock := 0x4000 } (execRecallTimeout agent3); incarnationOf t.ms agent3 = 1 ∧
    t.ms.dir.all (fun e => e.st != .sh [agent3]) = true) ∧
    incarnationOf (after { dirS with fclock := 0x3FFF } (execRecallTimeout agent3)).ms agent3 = 0 := by decide +kernel

/-! #### Power, debug, and the device's boundary -/

/-- A die with nothing on it; a quiet region. -/
def idleS : State := (memS 0 []).updFab 0 fun f => { f with waiting := [] }
def wideS : State := (idleS.updPart 0 fun q => { q with lattol := 400, pwrbase := 1 }).updCtl 0 fun c => { c with st := .idle, cfg := none }
def traceS : State := { idleS.updPart 0 fun q => { q with fgtrace := 0x10000F, traceq := [(0, [1, 2, 3, 4])] } with fclock := 50 }
def listS : State := hopS.updDbg 0 fun d => { d with fglist := 0x100003, listing := true, listDone := false, stop := .stopping }

theorem witness_PowerAndDebugEventsAct :
    regionIdle idleS 0 = true ∧ (idleS.ctl 0).power = 0 ∧
    (let s := { idleS.updCtl 0 (fun c => { c with idleSince := some 0 }) with fclock := 16384 };
      regionIdle s 0 = true ∧ (s.ctl 0).idleSince = some 0 ∧ 2 ^ (s.syscfg.extractLsb' 21 5).toNat ≤ s.fclock.toNat ∧ powerTarget s 0 < 3) ∧
    powerTarget wideS 0 = 3 ∧ regionIdle wideS 0 = true ∧ ((idleS.updCtl 0 fun c => { c with power := 2 }).ctl 0).power = 2 ∧
    dieW4Ready State.reset 0 = true ∧ (98#7).toNat ≤ 98 ∧ (98#7) ∉ (idleS.die 0).limited ∧
    (listS.dbg 0).stop = .stopping ∧ (∀ l ∈ (listS.fab 0).links, nextHop l.row.toNat l.col.toNat l.dest = none) ∧ (idleS.fab 0).links = [] ∧
    (idleS.fab 0).accs.all (stuckAcc idleS (idleS.fab 0)) = true ∧ regionIdle hopS 0 = false ∧ (listS.dbg 0).listing = true ∧
    (traceS.part 0).traceq = [(0, [1, 2, 3, 4])] ∧ traceS.fclock.toNat ≤ 64 ∧ traceOn (traceS.part 0) = true ∧
    okM (storeWords (traceS.updPart 0 fun q => { q with traceq := [] }) 0 0x100000 [1, 2, 3, 4]) = true ∧
    64 < ({ traceS with fclock := 65 } : State).fclock.toNat := by decide +kernel

theorem test_idle_entry : gives (.idleEntry 0) { (wideS.updCtl 0 fun c => { c with idleSince := some 0 }) with fclock := 0x3FFF } (fun t =>
      (t.ctl 0).power == 0) = true ∧
    gives (.idleEntry 0) { ((idleS.updPart 0 fun q => { q with lattol := 15 }).updCtl 0 fun c => { c with idleSince := some 0 }) with fclock := 0x4000 }
      (fun t => (t.ctl 0).power == 2) = true := by decide +kernel
theorem test_wake : gives (.regionWake 0) (idleS.updCtl 0 fun c => { c with power := 1 }) (fun t => (t.ctl 0).power == 0) = true := by decide +kernel
theorem test_thermal : gives (.thermalLimit 0 0) idleS (fun t => (t.part 0).thermal == some 0 && (t.die 0).limited == [0] &&
    gives (.thermalCool 0 0) t fun u => (u.die 0).limited == []) = true := by decide +kernel
theorem test_droop : gives (.droopEvent 0 98) idleS (fun t => (t.die 0).droop == [(98, 1)]) = true := by decide +kernel
theorem test_trace : (let t := after traceS (execTraceRecordWrite 0); Memory.readLE t.ms.mem 0x100008 8 = 2 ∧ (t.part 0).fgtrcnt = 1) ∧
    (let t := after { traceS with fclock := 65 } (execTraceRecordDrop 0); (t.part 0).fgtrcnt = 0x0000010000000000 ∧ (t.part 0).traceq = []) := by
  decide +kernel

/-- Partition 0 with its session up and its interface in RUN, the window at 1 MiB. -/
def hostS : State := { (idleS.updPart 0 fun q => { q with tdisp := .run, winbase := 0x100000 }).updPorts fun h =>
  { h with sessions := [(.vf 0, 1)] } with booted := true }
def hRead (off : BitVec 16) : HostReq := ⟨true, false, off, 8, []⟩
def hWrite (off : BitVec 16) (bs : List Byte) : HostReq := ⟨true, true, off, 0, bs⟩
def bytes8 : List Byte := [0x78, 0x56, 0x34, 0x12, 0, 0, 0, 0]

theorem witness_HostRequestsAreServed : vfServed hostS 0 true = true ∧ vfServed idleS 0 true = false ∧ stateRead idleS 0 (hRead 0x1000) = false ∧
    4096 < (0xFFC : Nat) % 4096 + 8 ∧ okM (storeBytes hostS (hubCtx 0 .u) 0x100008 8 bytes8) = true ∧
    okM (loadBytes hostS (hubCtx 0 .u) 0x100008 8) = true ∧
    (match loadBytes hostS (hubCtx 0 .u) 0x40000000 8 with | .trap _ _ => true | _ => false) = true ∧
    fnExists hostS (.vf 0) = true ∧ sessionUp hostS (.vf 0) = true := by decide +kernel

theorem test_host_window : (let t := after hostS (execHostWindowAccess 0 (hWrite 0x1008 bytes8)); Memory.readLE t.ms.mem 0x100008 8 = 0x12345678) ∧
    (after hostS (execHostWindowAccess 0 (hWrite 8 bytes8))).part 0 = { hostS.part 0 with winbase := 0x12345000 } ∧
    (after hostS (execHostWindowAccess 0 (hRead 0x10))).ports.hostOut = [.data 0 [0, 0, 0, 0, 0, 0, 0, 0]] ∧
    (after idleS (execHostWindowAccess 0 (hRead 0x1000))).ports.hostOut = [.unsupported 0] := by decide +kernel
theorem test_doorbell : ((after hostS (execDoorbell 0)).part 0).hostEvent = true := by decide +kernel
theorem test_tdisp : ((after hostS (execTdispMessage 0 .stop)).part 0).tdisp = .unlocked ∧
    (after hostS (execTdispMessage 0 .start)).ports.spdmOut = [⟨.vf 0, 0x7F, true, none, []⟩] := by decide +kernel

theorem witness_TheSecurityProcessorAnswers : fnExists hostS .pf = true ∧ hostS.ports.sigIndex < 2 ^ 20 ∧
    sessionGen hostS .pf = none ∧ sessionGen hostS (.vf 0) = some (0 + 1) ∧ sessionUp hostS (.vf 0) = true ∧
    sessionGen (setSession hostS .pf (some 0)) .pf = some 0 ∧
    2 ^ 20 ≤ (hostS.updPorts fun h => { h with sigIndex := 2 ^ 20 }).ports.sigIndex ∧ (([0, 0, 1] : List Byte).getD 2 0).getLsbD 0 = true := by
  decide +kernel
theorem test_spdm_last_key : (after (hostS.updPorts fun h => { h with sigIndex := 2 ^ 20 }) (execChallenge .pf [])).ports.spdmOut =
    [⟨.pf, 0x7F, true, none, []⟩] := by decide +kernel
theorem test_spdm_session : (after (after hostS (execKeyExchange .pf [])) (execFinish .pf [])).ports.sessions = [(.pf, 1), (.vf 0, 1)] ∧
    (after hostS (execEndSession (.vf 0) [])).ports.sessions = [] := by decide +kernel

def flit0 (seq : BitVec 48) (lcrc atag : Bool) : Flit := ⟨seq, 1, 0, 3, [7], .other, lcrc, atag⟩

/-- A peer's request: to read 8 bytes at a VA of partition 0, or to write one. -/
def reqFlit (rw va n : Nat) : Flit := ⟨0, 1, 0, 1, [BitVec.ofNat 8 rw] ++ natBytes 8 va ++ [BitVec.ofNat 8 n, 0x5A], .other, true, true⟩

theorem witness_PeersAreServed :
    (match servePeer hostS (reqFlit 0 0x100008 8), servePeer hostS (reqFlit 0 0x40000000 8),
        servePeer (hostS.updMs fun ms => { ms with locks := [(0x2000, 99)] }) (reqFlit 0 0x100008 8) with
      | .ok b _, .trap _ _, .wait => b.length == 9
      | _, _, _ => false) = true ∧
    ((List.range 192).find? fun w => (({ hostS with ms := { hostS.ms with net := { hostS.ms.net with
      pwin := hostS.ms.net.pwin.set 5 (2 ^ 63 + 3 * 2 ^ 24 + 9) } } } : State).pwinOf w).getLsbD 63) = some 5 ∧
    (0, Answers.coll) ∈ authMark (flit0 0 true false) [] ∧
    (0, Answers.core (.sq 4)) ∈ authMark { flit0 0 true false with typ := 2, answers := .core (.sq 4) } [] := by decide +kernel

theorem test_peer_write : (let t := after hostS (execFlitReceive 3 (reqFlit 1 0x100008 1));
    Memory.readLE t.ms.mem 0x100008 1 = 0x5A ∧ ((t.ms.net.link 3).replay.map fun y => (y.typ, y.src, y.dst, y.data)) = [(2, 0, 1, [0])]) := by
  decide +kernel

/-- The last SEQ of a key that sends. -/
def lastSeq : Net := hostS.ms.net.updLink 3 fun k => { k with tx := [⟨0, 1, 2 ^ 48 - 2, 0⟩] }

theorem witness_LinksTakeFlitsInOrder : (linkOf hostS 3).down = false ∧ (keyOf (linkOf hostS 3).keys 0 1).seq = 0 ∧
    (hostS.part 1).keyed = false ∧ (hostS.part 0).keyed = true ∧ (linkOf hostS 3).fails < 16 ∧
    (updLink hostS 3 fun k => { k with fails := 16 }).ms.net.links[3].fails = 16 ∧ (linkOf (linkGoesDown hostS 3) 3).down = true ∧
    (keyOf (hostS.ms.net.link 3).tx 0 1).seq.toNat < 2 ^ 48 - 2 ∧ (keyOf (lastSeq.link 3).tx 0 1).seq.toNat = 2 ^ 48 - 2 ∧
    (hostS.ms.net.link 3).replay.length ≤ 64 := by decide +kernel
theorem test_flits : (let t := after hostS (execFlitReceive 3 (flit0 0 true true));
      t.ports.flitsIn = [(3, flit0 0 true true)] ∧ (keyOf (linkOf t 3).keys 1 0).seq = 1 ∧
        (after t (execFlitReceive 3 (flit0 0 true true))).ports.flitsIn = [(3, flit0 0 true true)]) ∧
    (linkOf (after hostS (execFlitReceive 3 (flit0 0 false true))) 3).fails = 1 ∧
    (after hostS (execFlitReceive 3 (flit0 0 true false))).ports.rasLog = [⟨0xA4, 3⟩] := by decide +kernel

/-- The storage port belongs to partition 0. -/
def stoS : State := hostS.updPorts fun h => { h with stgown := 0x10 }
def part5 : PartCfg := ⟨1, 0x8000, [(0x30000000, 0x1000)], 2, 0x30000001, 0, 0x12347, true⟩

theorem witness_StoragePowerOnAndPartitions : storageOwner hostS = none ∧ storageOwner stoS = some 0 ∧
    granted (stoS.part 0) 0x200000 8 = true ∧ (stoS.part 0).keyed = true ∧ (0x200000 + 8 ≤ peerBase) ∧
    granted (stoS.part 0) 0x20000000 8 = false ∧
    okM (writePhys stoS (hubCtx 0 .h) 0x200000 8 bytes8) = true ∧ okM (readPhys stoS (hubCtx 0 .h) 0x200000 8) = true ∧
    State.reset.booted = false ∧ mayCreate hostS 5 part5 = true ∧ firstSy part5 = some (.sy 15) ∧ (hostS.part 0).st ≠ .absent := by decide +kernel
theorem test_storage_dma : (let t := after stoS (execStorageDma ⟨true, 0x200000, 0, bytes8⟩);
      Memory.readLE t.ms.mem 0x200000 8 = 0x12345678 ∧ t.ports.dmaOut = [.done]) ∧
    (after stoS (execStorageDma ⟨false, 0x20000000, 8, []⟩)).ports.dmaOut = [.unsupported] := by decide +kernel
theorem test_partition_create : (let t := after hostS (execPartitionDestroy 0); (t.core (.sy 0)).run = .halted ∧ Memory.readLE t.ms.mem 0 8 = 0) := by
  decide +kernel

/-! #### Forms that wait, and completions -/

/-- A MWCAS of two entries on the line of 0x100000, of which the first is equal when `same`. -/
def coreB1 (same : Bool) : State := (coreM.updMs fun ms => { ms with
  mem := [(0x100100, 2), (0x100108, 0x100000), (0x100110, if same then 0xFEDCBA9876543210 else 1), (0x100118, 5), (0x100120, 0x100008),
    (0x100128, 0x8182838485868788), (0x100130, 9)].foldl
    (fun m e => Memory.writeLE m e.1 e.2 8) ms.mem }).updMe fun c => { c with g := c.g.set 8 0x100100 }

/-- Its block can be written in s. -/
def blockB (s : State) (m : Mwcas) (o : MwOwner) : Bool :=
  m.result.any fun h => okM (blkWrites s ⟨some m.part, m.agent, .s, some m.op, false, m.stream, (mwAgents s m o).drop 1, 0⟩ (mwWords m h))

def mwcasB (same : Bool) : Bool :=
  let s := coreB1 same
  match mwcasCheck s.acquireMe (coreCtx s) 0 (fun va w => watchHit s.me va 8 w) (s.rg 8) s.nextOp with
  | .ok m s1 =>
    let o := MwOwner.core s.cur 3
    let t1 := mwBegin (s1.releaseMe.updMe fun c => { c with run := .mwcas m.op }) m o
    !syncHeld s1 (.coreD s.cur) && s1.ms.mwcas.isEmpty && s1.ms.locks.isEmpty && s1.ms.recalls.isEmpty && m.want == [0x2000] &&
      (let r := t1.compared m o 0x2000
       let m2 := { r.1 with commits := [], committed := 1, held := [] }
       (findMw t1 m.op).any (fun x => x.1 == m && lockable t1.ms m && lockTurn t1.ms m) &&
       if same then r.1.commits == [sliceOf 0x2000] &&
          blockB (setMw { r.2 with ms := mwCommitSlice r.2.ms r.1 (sliceOf 0x2000) } m2) m2 o
        else r.1.commits == [] && r.1.result.any (fun h => !h.getLsbD 63) && blockB r.2 r.1 o)
  | _ => false

theorem witness_AMwcasCompletes : (coreB1 true).Ready [3, 8] ∧ (coreB1 false).Ready [3, 8] ∧ mwcasB true = true ∧ mwcasB false = true ∧
    ¬((coreB1 true).me.level = .u ∧ (coreB1 true).me.dbgc.getLsbD 0 = true) := by
  refine ⟨ready_of ?_ ?_, ready_of ?_ ?_, ?_⟩ <;> decide +kernel

/-- The last commit of a MWCAS of two entries. -/
theorem witness_LastCommit : (let s := after mw2 (execMwcasCommit mwId)
    (findMw s mwId).any fun x => x.1.op == mwId && (match x.1.commits with
      | [sl] =>
        let m2 := { x.1 with commits := [], committed := x.1.committed + 1, held := x.1.held.filter (sliceOf · != sl) }
        blockB (setMw { s with ms := mwCommitSlice s.ms x.1 sl } m2) m2 x.2
      | _ => false)) = true := by decide +kernel

theorem test_mwcas_of_one_line :
    (let t := after (after (coreB1 false) (execMwcas 3 8)) (execCrucibleLockGrant mwId);
      t.me.run = .running ∧ t.me.pc = 0x20004 ∧ t.ms.locks = [] ∧ (t.rg 3).getLsbD 63 = false ∧ Memory.readLE t.ms.mem 0x100000 8 = 0xFEDCBA9876543210) ∧
    (let t := after (after (after (coreB1 true) (execMwcas 3 8)) (execCrucibleLockGrant mwId)) (execMwcasCommit mwId);
      t.me.run = .running ∧ t.me.pc = 0x20004 ∧ t.ms.locks = [] ∧ t.rg 3 = 0x8000000000000002 ∧ Memory.readLE t.ms.mem 0x100000 8 = 5) := by
  decide +kernel

/-- Core 0 with a dirty byte of an S-line, 0x100000's, that a MWCAS holds locked. -/
def coreHeld : State := coreP.updMs fun ms => { ms with slines := [⟨.coreD (.sy 0), 0, 0x2000, 0xAA, 1⟩], locks := [(0x2000, 99)] }

theorem witness_FormsThatWaitForALock : syncHeld coreHeld (.coreD coreHeld.cur) = true ∧ coreHeld.Ready [3, 4] ∧
    writeWaits coreHeld coreHeld.cur (regNum 1 2).toNat = true ∧
    (coreHeld.core coreHeld.cur).part = some 0 ∧
    (match probeVa coreHeld (coreCtx coreHeld) false 0x100000 with | .ok t _ => t.pa == 0x100000 | _ => false) = true ∧
    cleanWaits coreHeld ⟨0x100000, 1⟩ = true ∧ writeWaits coreS coreS.cur (regNum 0 0x16).toNat = false ∧
    cleanWaits coreM ⟨0x100000, 0⟩ = false ∧ syncHeld coreM (.coreD coreM.cur) = false := by
  refine ⟨?_, ready_of ?_ ?_, ?_⟩ <;> decide +kernel

theorem test_release_waits_for_a_lock : gives (.stl 1 4 0) coreHeld (fun t => t.me.pc == 0x20000 && t.byteAt 0x100008 == coreHeld.byteAt 0x100008) = true ∧
    gives (.fence .core) coreHeld (fun t => t.me.pc == 0x20000) = true ∧
    gives (.fence .core) (coreHeld.updMs fun ms => { ms with locks := [] }) (fun t => t.me.pc == 0x20004 && t.byteAt 0x100000 == 0xAA) = true := by
  decide +kernel

/-- The fault of the entry is resolved, or not resumable, or no longer recorded (R360). -/
def coreP' (f : FaultRec → FaultRec) : State := coreP.updPart 0 fun q => { q with faults := q.faults.map f }

theorem witness_FresOfFaultsThatAreOver :
    (match loadBytes coreP (coreCtx coreP) 0x100200 64 with
      | .ok e _ => (faultOf ({ coreP.part 0 with faults := [] }) e).isNone &&
          (faultOf ((coreP' fun f => { f with resolved := true }).part 0) e).any (·.resolved) &&
          ((faultOf ((coreP' fun f => { f with resumable := false }).part 0) e).any fun f => !f.resumable && !f.resolved) &&
          !faultStands (coreP.updFab 3 fun f => { f with parkTab := [] }) 0 7
      | _ => false) = true := by decide +kernel

theorem test_fres_of_faults_that_are_over :
    gives (.fresRetry 10 11) (coreP.updPart 0 fun q => { q with faults := [] }) (fun t => t.me.pc == 0x20004 && t.me.th.tcause == 0) = true ∧
    gives (.fresRetry 10 11) (coreP' fun f => { f with resolved := true }) (fun t => t.me.pc == 0x20004) = true ∧
    gives (.fresSupply 10 5) (coreP.updFab 3 fun f => { f with parkTab := [] }) (fun t => t.me.pc == 0x20004 && t.me.th.tcause == 0) = true ∧
    gives (.fresRetry 10 11) (coreP' fun f => { f with resumable := false }) (fun t => t.me.th.tcause == 0x20) = true := by decide +kernel

/-- A kill in the fc of the region's quiescence, and later; a page whose window is open. -/
theorem witness_KillsOfIdleRegions :
    (let s := (coreR .idle)
     let T := wakeRegion (issueState s 3) 3
     regionArg (issueState s 3) (issueOp s 3 0) 3 = .ok 3 ∧ (T.ctl 3).power = 0 ∧ (T.ctl 3).st = .idle) ∧
    windowOpen (issueState ((coreR .idle).updMs fun ms => { ms with migrations := [⟨7, 0, pageOf 0x100000, 0x100000, 0x110000, []⟩] }) 3) 0 0x100000 = true := by
  decide +kernel

theorem test_kill_wins_over_quiescence :
    (let s := (coreR .running).updCtl 3 fun c => { c with quietAt := some 0, cword := 0x100300, cwLvl := .s };
      gives (.killr 3 12) s (fun t => Memory.readLE t.ms.mem 0x100300 8 == 0x1A9 && (t.ctl 3).st == .idle) = true) ∧
    gives (.killr 3 12) (coreR .idle) (fun t => (t.ctl 3).st == .free) = true := by decide +kernel

/-- An arrival at a cohort in this fc; a context of no call; a counter of an ordered node. -/
theorem witness_FlowNodesThatWait :
    (let k := cohortOf (fl1 0 4)
     let s := noteCoh ((nodeS 0 [i32 0 1]).updFab 0 fun f => { f with cohorts := [(k, 0, 0)] }) 0 k true
     cohNow s 0 k true = true ∧ leaveWaits s 0 (·.1 == 0) = true ∧ ((0 : BitVec 12), (0 : BitVec 16)) ∈ members (s.fab 0) k) ∧
    (∀ b, openBinding (loopIn.fab 0) 7 = some b → b.lid ≠ none) ∧ leaveWaits callIn 0 (·.1 == 7) = false ∧
    cohNow flS 0 (cohortOf (fl1 0 4)) true = false ∧ cohNow flS 0 (cohortOf (fl1 0 4)) false = false ∧
    ordArr (flS.node flS.site) 0x52 (fl1 1 0) { i32 0 1 with seq := 64 } = .window := by decide +kernel

theorem test_cohorts_within_one_fc :
    (let k := cohortOf (fl1 0 4)
     let s := noteCoh ((nodeS 0 [i32 0 1]).updFab 0 fun f => { f with cohorts := [(k, 0, 0)] }) 0 k true;
     gives (.cleave (fl1 0 4)) s (fun t => (t.fab 0).cohorts == [(k, 0, 0)] && (t.fab 0).waiting.length == 1) = true) ∧
    gives (.ret (fl1 0 0)) loopIn (fun t => (sent t).map (fun u => (u.kind, u.lane 8 0)) == [(6, 0x8F)]) = true := by decide +kernel

/-- A CALL of a replay whose logged run found no context there, and one whose wait for one expired. -/
def dryS (what : Choice) : State :=
  (nodeS (0x56 + 0xF1000000) []).updDbg 0 fun d => { d with replay := some [], replayDraws := [⟨0, 0, 0, 0, 0, what⟩] }

theorem witness_CallsThatFindNoContext :
    (match fieldsAt (dryS .dry) 0 0 0 0, ((dryS .dry).ctl 0).cfg with
      | some (opc, _), some g => opc == 0x56 && drawContext (dryS .dry) (dryS .dry).site g true == .dry && expires (dryS .expired) (dryS .expired).site g
      | _, _ => false) = true ∧ ((dryS .dry).ctl 0).ctxwait.extractLsb' 0 32 ≠ 0#32 := by decide +kernel

/-- MXF into a slot not held, of another format than its rows, and behind a queued command that changes the slot. -/
theorem witness_MxfOtherwise :
    (match fillRow ((mxS []).fab 0) ⟨0, 0, 9, 0, 8, 0xB, 11, 0, 0, []⟩ with | .parks => true | _ => false) = true ∧
    (match fillRow ((mxS []).fab 0) ⟨0, 0, 1, 0, 8, 0xA, 24, 0, 0, []⟩ with | .bad => true | _ => false) = true ∧
    (match fillRow ((mxC 0x46 (nf1 0xB 0 0) (3 + 5 * 8)).fab 0) ⟨0, 0, 5, 0, 20, 0xB, 11, 0, 0, []⟩ with
      | .done f => f.fills.length == 1 | _ => false) = true := by decide +kernel

/-- SPACC of coordinates past the scratchpad, of one that is no column, and of a STOP. -/
theorem witness_SpaccOtherwise : spRange 0x1FFFF8 4 [0, 1] = some 0x200018 ∧ spRange 0x8000 4 [3] = none ∧
    (∃ p ∈ [(4, 0)], 4 ≤ p.1) ∧ (tok 0 3 0x13 1).kind = kSTOP := by decide +kernel

theorem witness_AccessesOverALink : linkCause 0xA3 = true ∧ linkCause 0x60 = false ∧
    (((ldS.fab 0).accs.head?).any fun a => scoreboardHas (ldS.fab 0) a 0) = true ∧ (ldS.ctl 0).killing = none := by decide +kernel

/-! #### Forms that wait, park, or go another way -/

/-- A fetch that faults where a trap has brought the core to its handler; an instruction of the cores by its registers. -/
theorem witness_CoreForms :
    (let s := coreSU.updMe fun c => { c with pc := 0x40000000, entering := some 0x02 }
     (match fetchAt s s.cur with | .trap c v => c == 0x60 && v == 0x40000000 | _ => false) = true ∧ s.me.entering = some 0x02) ∧
    ((7 : Reg) ∈ gRegs (.sread 7 0 0x16) ∧ (7 : Reg) ∈ gRegs (.amoadd 1 2 7 false .ar) ∧
      (coreS.updMe fun c => { c with pend := 1 <<< 7 }).me.pending 7 = true ∧ coreS.MayRun (.sread 7 0 0x16) ∧ coreS.MayRun (.tlbinv 7) ∧
      coreW.MayRun (.assert 7 8)) :=
  ⟨by decide +kernel, by decide +kernel, by decide +kernel, by decide +kernel, ⟨_, rfl, by decide +kernel⟩, by unfold State.MayRun; decide +kernel,
    ⟨0, by decide +kernel⟩⟩

theorem test_fault_of_a_handlers_fetch : gives (.instructionFetchFault 0x60 0x40000000)
    (coreSU.updMe fun c => { c with pc := 0x40000000, level := .s, entering := some 0x02 }) (fun t =>
      t.me.th.tcause == 0xA1 && t.me.level == .h && t.me.pc == 0x20200) = true := by decide +kernel

/-- The parts of a 16-byte slot, read and written; a store after a release. -/
theorem witness_WideLoadsAndStores :
    (match translate coreM (coreCtx coreM) .write 0x100000 with
      | .ok x s1 => okM (readAt s1 (coreCtx coreM) x 8 0x100000) && okM (writeAt s1.releaseMe (coreCtx coreM) x 7 8 0x100000) &&
          (match writeAt s1 (coreCtx coreM) x 7 8 0x100000 with
            | .ok _ s2 => okM (writeAt s2 (coreCtx coreM) { x with pa := x.pa + 8 } 24 8 0x100008)
            | _ => false)
      | _ => false) = true ∧
    (match translate coreM (coreCtx coreM) .read 0x100000 with
      | .ok x s1 => x.pa == 0x100000 && (match readAt s1 (coreCtx coreM) x 8 0x100000 with
        | .ok _ s2 => okM (readAt s2 (coreCtx coreM) { x with pa := x.pa + 8 } 8 0x100008)
        | _ => false)
      | _ => false) = true := by decide +kernel

/-- A compare of a MWCAS that fails; a core that waits for its MWCAS. -/
theorem witness_FailedCompare :
    (let s := coreB1 false
     match mwcasCheck s.acquireMe (coreCtx s) 0 (fun va w => watchHit s.me va 8 w) (s.rg 8) s.nextOp with
     | .ok m s1 =>
       let t1 := mwBegin (s1.releaseMe.updMe fun c => { c with run := .mwcas m.op }) m (.core s.cur 3)
       (m.entries.zip (t1.compared m (.core s.cur 3) 0x2000).1.observed).any (fun e => e.1.2.2.2.1 != e.2) && (t1.core s.cur).run == .mwcas m.op
     | _ => false) = true ∧
    ((after mw2 (execMwcasCommit mwId)).core coreB.cur).run = .mwcas mwId := by decide +kernel

/-- Exceptions of arithmetic, selection, comparison and conversion, with every trap enabled; the order of two. -/
theorem witness_FloatTraps : resolveRm coreT.me.fcsr .rne = some .rne ∧
    enabledCause coreT.me.fcsr { nv := true } = some 0x41 ∧ enabledCause coreT.me.fcsr { of := true, nx := true } = some 0x43 ∧
    enabledCause coreT.me.fcsr ((Exact.num false (2 ^ 60 + 1) 0).round (fmtOf .s) .rne).fl = some 0x45 ∧ enabledCause coreT.me.fcsr {} = none ∧
    enabledCause coreT.me.fcsr (toIntF .rne 32 true (opVal (coreT.rf 3) .s)).2 = some 0x41 ∧
    coreT.me.sigctl.getLsbD 7 = true ∧ sigThr coreT.me.sigctl = 22 ∧ ((0xA0 : Word).extractLsb' 5 3).toNat ∈ [5, 6, 7] := by decide +kernel

/-- A region that sleeps and cannot wake yet, one that wakes; a supplied token of a stream out of its order; a bad image. -/
theorem witness_SleepAndSupply : sleepsOn coreG 3 = false ∧ ((wakeRegion coreG 3).ctl 3).st = .running ∧
    ((wakeRegion (coreG.updDbg 3 fun d => { d with stop := .stopped }) 3).dbg 3).stop = .stopped ∧
    imageTok (natBytes 80 0) ≠ none ∧ imageTok (natBytes 80 (2 ^ (8 * 75))) = none ∧ supplyWaits coreP 0 7 .retry = false ∧
    (let t := streamTok strmCfg 0 kDATA 7 7 true 0 0
     let s := (withKind (coreS3 .running) (.strm 3 0 inShape 0 false)).updFab 3 fun f => { f with lastDel := [(t.drow, t.dcol, t.node, t.port, 9, 0)] }
     supplyWaits { s with ops := s.ops.map fun o => { o with held := some (7, 0x60, 0) } } 0 7 (.supply t) = true) := by
  decide +kernel

/-- Streams: a round that has failed, one that is over, a region with bytes that a lock keeps from home; the boundary tile's check. -/
theorem witness_StreamForms :
    (let s := withKind (coreS3 .running) (.strm 3 0 inShape 0 false)
     let o := opOf (coreS3 .running) (.strm 3 0 inShape 0 false)
     strmTurn s o 3 0 = true ∧ roundUnits inShape ≤ { o with unit := 2 }.unit ∧ ({ o with fail := some 0x1A9 } : Op).fail = some 0x1A9 ∧
     (s.ctl 3).killing = none ∧ regionSyncHeld s 3 = false ∧
     (let t := streamTok strmCfg 0 kDATA 7 7 true 0 7
      outOfTurn s 3 t (portSrc strmCfg 0) = false ∧
      (match checkParity (touch s 3) 3 (boundaryTile strmCfg 0).1 (boundaryTile strmCfg 0).2 t .clean with
        | (some u, s2) => (arriveTok (noteDel s2 3 u (portSrc strmCfg 0)) 3 u 0).isSome
        | _ => false) = true ∧
      (checkParity (touch s 3) 3 (boundaryTile strmCfg 0).1 (boundaryTile strmCfg 0).2 t ⟨0, (1 : BitVec 664) <<< 663, (1 : BitVec 664) <<< 663, 0⟩).1 = none)) ∧
    okM (storeBytes coreM (hubCtx 0 .s) 0x100000 8 (natBytes 8 7)) = true := by decide +kernel

/-- A stream that has carried its token of this fc; a parameter before an enable, and after it; an access held while its region is killed. -/
theorem witness_NodeForms :
    streamUsed (noteSent hopS 0 0 1 .w) 0 0 1 .w = true ∧ streamUsed hopS 0 0 1 .w = false ∧
    (let f := fun (a b : Word) => firingAt ((memS 0 []).updFab 0 fun f => { f with
        waiting := [⟨false, a, 0, tok 0 2 7 0⟩, ⟨false, b, 0, tok 1 7 8 0x9000⟩] }) 0x70 (nf2 8 0 0);
      ((f 5 5).arr.find? (·.1 == 1)).map (·.2.toNat) = some 5 ∧ ((f 5 5).arr.find? (·.1 == 0)).map (·.2.toNat) = some 5 ∧
        ((f 4 5).arr.find? (·.1 == 0)).map (·.2.toNat) = some 4) ∧
    (let s := (ldS.updFab 0 fun f => { f with accs := f.accs.map fun (a : Acc) => { a with held := true } }).updCtl 0 fun c => { c with killing := some 0xA9 }
     ((s.fab 0).accs.head?).any fun a => a.held && a.opc == 0x71 && (portSpace s (accFiring a)).1 != 2 &&
       okM (placeAll s (accFiring a) (portSpace s (accFiring a)).1 ((a.pieces.filter (!·.done)).map fun p => (p.va, p.n, p.off)))) = true ∧
    (let h : ShapeRec := { scrShape with base := 0x1FFFC0 }
     pastScratch 128 ((betaOrder ⟨0, 0, 0x1FFFC0, 4⟩ 0).map (0x1FFFC0 + 128 * ·)) = some 0x1FFFC0 ∧
     pastScratch 128 ((betaOrder ⟨0, 0, 0x8000, 4⟩ 0).map (0x8000 + 128 * ·)) = none ∧
     (scorePast (scoreProbe ((ruS 0 []).fab 0) (ruS 0 []).site { h with base := 0x1FFFF8 } 3) (·.2.1 == 3)).isSome = true ∧
     scorePast (scoreProbe ((ruS 0 []).fab 0) (ruS 0 []).site { scrShape with fmt := 8, s0 := 128 } 3) (·.2.1 == 3) = none) := by decide +kernel

/-- A parameter that comes after an enable waits for it. -/
theorem test_agen_takes_the_earlier : gives (.agen (nf2 8 0 0)) ((memS 0 []).updFab 0 fun f => { f with
      waiting := [⟨false, 4, 0, tok 0 2 7 0⟩, ⟨false, 5, 0, tok 1 7 8 0x9000⟩] }) (fun t =>
    ((t.node t.site).pass.map (·.total)) == some 4 && (t.node t.site).shape == none) = true ∧
  gives (.agen (nf2 8 0 0)) ((memS 0 []).updFab 0 fun f => { f with
      waiting := [⟨false, 5, 0, tok 0 2 7 0⟩, ⟨false, 5, 0, tok 1 7 8 0x9000⟩] }) (fun t =>
    ((t.node t.site).shape.map (·.base)) == some 0x9000) = true := by decide +kernel

/-- A request under an erased key and one for a poisoned line; a locked window; a replay that uses no entry; a device held at power-on. -/
theorem witness_AgentsAndHostForms :
    ((dirS.updPart 0 fun q => { q with keyed := false }).part 0).keyed = false ∧ (dirS.part 0).keyed = true ∧
    lineFault (dirS.updMs fun ms => { ms with poison := [0x4000] }) (hubCtx 0 .s) [0x4000] = some 0xA2 ∧
    lineFault dirS (hubCtx 0 .s) [0x4000] = none ∧
    winWaiting hostS 0 = [] ∧ winWaiting (setWinQueue hostS 0 [(0x100008, bytes8)]) 0 = [(0x100008, bytes8)] ∧
    (match storeBytes (hostS.updMs fun ms => { ms with locks := [(0x2000, 9)] }) (hubCtx 0 .u) 0x100008 8 bytes8 with | .wait => true | _ => false) = true ∧
    ((hopS.updDbg 0 fun d => { d with replay := some [], replayAt := 0 }).dbg 0).replay ≠ none ∧
    ((stoS.updPart 0 fun q => { q with keyed := false }).part 0).keyed = false ∧ ({ hostS with heldUp := true } : State).heldUp = true := by
  decide +kernel

theorem test_window_write_waits :
    (let s := hostS.updMs fun ms => { ms with locks := [(0x2000, 9)] }
     let t := after (after s (execHostWindowAccess 0 (hWrite 0x1008 bytes8))) (execDoorbell 0);
     (t.part 0).hostEvent = false ∧ winWaiting t 0 = [(0x100008, bytes8), (0, [])] ∧
     (let u := after (t.updMs fun ms => { ms with locks := [] }) (execDoorbell 0);
      (u.part 0).hostEvent = true ∧ Memory.readLE u.ms.mem 0x100008 8 = 0x12345678)) := by decide +kernel

/-- A Ladle with a bitmap, its parts readable and its writes; a last section of an image. -/
theorem witness_EngineForms :
    (let s := withKind coreL (.cmpct 0x102080)
     match loadBytes s (hubCtx 0 .s) 0x102080 64 with
     | .ok b s1 =>
       let l : Ladle := { parseLadle b with aux := 0x100000 }
       match loadBytes s1 (hubCtx 0 .s) 0x100000 l.auxN with
       | .ok x s2 => !ladleMeets l (((ladleSelect l x).map (·.2)).sum * l.es) && okM (loadParts s2 (hubCtx 0 .s) l (ladleSelect l x)) &&
          (match storeBytes s2 (hubCtx 0 .s) 0x100400 5 (natBytes 5 9) with | .ok none _ => true | _ => false)
       | _ => false
     | _ => false) = true ∧
    (dataTarget (natBytes 24 (0x100400 + 8 * 2 ^ 64 + 77 * 2 ^ 128))).1 = 0x100400 := by decide +kernel

theorem test_data_section_is_copied :
    (let l : LoadRec := ⟨0x110080, [(0, imgRsig)], 0, 5⟩
     let t := after (withKind (coreR .idle) (.loadimgData [(0x100400, natBytes 8 77)] l)) (execLoadimgComplete (coreR .idle).nextOp);
     t.rg 3 = 1 ∧ Memory.readLE t.ms.mem 0x100400 8 = 77 ∧ (t.part 0).loads.contains l = true) := by decide +kernel

/-! #### The machine as a whole -/

theorem witness_EveryStepKeepsTheMemoryCanonical : Memory.wf core0.ms.mem = true ∧ Memory.wf State.reset.ms.mem = true ∧
    (match step core0 with | .next _ => true | _ => false) = true ∧ ((CoreId.sy 0 :: (List.finRange 64).map fun i => .sq (BitVec.ofFin i)).all
      fun c => [(core0.core c).pc, (core0.core c).ts.tvec, (core0.core c).ts.tpc, (core0.core c).th.tvec, (core0.core c).th.tpc].all
        fun x => x.extractLsb' 0 2 == 0) = true := by decide +kernel

theorem witness_AFiringLeavesTheRestAlone : Instr.vadd (nf2 0xA 0 0) ∈ [Instr.vadd (nf2 0xA 0 0)] ∧
    flipped fpS fpS.site [0, 1, 2, 3] = false ∧
    (fpS.ctl fpS.site.r).cfg.all (fun g => !g.flags.getLsbD 2) = true ∧ (fpS.part (fpS.ctl fpS.site.r).part).pfqbase.getLsbD 0 = false ∧
    gives (.vadd (nf2 0xA 0 0)) fpS (fun _ => true) = true := by decide +kernel

def fetchesB (s : State) (c : CoreId) (w : BitVec 32) : Bool := match fetchAt s c with | .ok v _ => v == w | _ => false

theorem witness_AStepRunsTheDecodedInstruction :
    (let s := { core0.withFetchWord 32 0x00A63800 with agenda := [], booted := true };
      s.agenda = [] ∧ s.booted = true ∧ s.me.run = .running ∧ s.me.crashStop = false ∧ s.me.stopReq = false ∧ takenInt (tick s) s.cur = none ∧
      s.me.dbgstop = false ∧ fetchesB (tick s) s.cur 0x00A63800 = true) ∧
    (let s := core0.withFetchWord 32 0x00A63800;
      s.agenda = [.core (.sy 0)] ∧ takenInt (tick { s with agenda := [], cur := .sy 0 }) (.sy 0) = none ∧
      fetchesB (tick { s with agenda := [], cur := .sy 0 }) (.sy 0) 0x00A63800 = true) ∧
    decodeS 0x00A63800 = some (.add 5 6 7) ∧
    (let s := State.reset.withFetchWord 128 0x1F100005E;
      s.agenda = [.fire ⟨0, 0, 0, 0, 0, 0⟩] ∧ (nodeWordAt s ⟨0, 0, 0, 0, 0, 0⟩).isSome = true ∧
      ((nodeWordAt s ⟨0, 0, 0, 0, 0, 0⟩).bind decodeNode).isSome = true) ∧
    ({ core0 with agenda := [.event (.doorbell 0)] } : State).agenda = [.event (.doorbell 0)] := by decide +kernel

theorem test_step_runs_add : (match step (core0.withFetchWord 32 0x00A63800) with
    | .next t => t.me.pc == 0x20004 | _ => false) = true := by decide +kernel

theorem witness_DecodingAnEncodedInstruction : (Instr.fma 1 2 3 4 .dyn .s).wf = true ∧ encode (.fma 1 2 3 4 .dyn .s) ≠ [] ∧
    (Instr.vadd node0).wf = true ∧ encode (.vadd node0) ≠ [] := by decide +kernel

end Sys2Proof.Tests
end

section
/-!
PROOFS. The core instructions that compute in registers: integer forms, branches and jumps, moves between the register
files (R142 to R147, R157).
-/

namespace Sys2Proof.Machine

open Sys2Proof

/-! ### Completing after a register write -/

@[simp] theorem Core.level_wf (c : Core) (r : Reg) (v : Word) (t : BitVec 7) : (c.wf r v t).level = c.level := rfl
@[simp] theorem Core.dbgc_wf (c : Core) (r : Reg) (v : Word) (t : BitVec 7) : (c.wf r v t).dbgc = c.dbgc := rfl

theorem State.Ready.mono {s : State} {rs rs' : List Reg} (h : s.Ready rs) (hs : rs' ⊆ rs) : s.Ready rs' :=
  ⟨fun r hr => h.1 r (hs hr), h.2⟩

/-- A register write does not turn single step on: what was ready to complete at an address completes there. -/
theorem State.Ready.retireTo_wg {s : State} {rs : List Reg} (h : s.Ready rs) (d : Reg) (v pc : Word) :
    retireTo (s.wg d v) pc = .next ((s.wg d v).went pc) :=
  retireTo_eq _ pc (by simpa using h.2)

theorem State.Ready.retireG_eq {s : State} {rs : List Reg} (h : s.Ready rs) (d : Reg) (v : Word) :
    retireG s d v = .next ((s.wg d v).went (s.me.pc + 4)) := by
  have hpc : (s.wg d v).me.pc = s.me.pc := by simp
  unfold retireG retire
  rw [hpc, h.retireTo_wg]

/-- An instruction whose registers are ready and that gives g[d] a value writes it and goes on. -/
theorem State.Ready.needRegs_retireG {s : State} {rs : List Reg} (h : s.Ready rs) (d : Reg) (v : Word) :
    needRegs s rs (retireG s d v) = .next ((s.wg d v).went (s.me.pc + 4)) := by
  rw [needRegs_eq s h.1, h.retireG_eq]

theorem State.Ready.retire_wf {s : State} {rs : List Reg} (h : s.Ready rs) (d : Reg) (v : Word) (tag : BitVec 7) :
    retire (s.wf d v tag) = .next ((s.wf d v tag).went (s.me.pc + 4)) := by
  have hpc : (s.wf d v tag).me.pc = s.me.pc := by simp
  rw [← hpc]
  exact retire_eq _ (by simpa using h.2)

/-! ### Integer instructions: the three shapes that Tables 8-3 and 8-4 are made of -/

/-- An instruction of the two-source shape writes what its function gives. -/
theorem exec_of_intRR {s : State} {d a b : Reg} {i : Instr} {v : Word} (h : s.Ready [d, a, b])
    (f : Word → Word → Word) (hi : exec i s = intRR s d a b f) (hv : f (s.rg a) (s.rg b) = v) :
    exec i s = .next ((s.wg d v).went (s.me.pc + 4)) := by
  rw [hi, ← hv]
  exact h.needRegs_retireG d _

/-- An instruction of the one-source shape writes what its function gives. -/
theorem exec_of_intR {s : State} {d a : Reg} {i : Instr} {v : Word} (h : s.Ready [d, a]) (f : Word → Word)
    (hi : exec i s = intR s d a f) (hv : f (s.rg a) = v) : exec i s = .next ((s.wg d v).went (s.me.pc + 4)) := by
  rw [hi, ← hv]
  exact h.needRegs_retireG d _

/-- A division by another divisor than 0 writes what its function gives (R143). -/
theorem exec_of_intDiv {s : State} {d a b : Reg} {i : Instr} {v : Word} (h : s.Ready [d, a, b])
    (hb : s.rg b ≠ 0) (f : Word → Word → Word) (hi : exec i s = intDiv s d a b f) (hv : f (s.rg a) (s.rg b) = v) :
    exec i s = .next ((s.wg d v).went (s.me.pc + 4)) := by
  rw [hi, ← hv]
  exact ((needRegs_eq s h.1 _).trans (if_neg hb)).trans (h.retireG_eq d _)

/-- A division by 0 raises INT_DIVZERO and writes nothing (R143). -/
theorem intDiv_zero {s : State} {d a b : Reg} (h : s.Ready [d, a, b]) (hb : s.rg b = 0) (f : Word → Word → Word) :
    intDiv s d a b f = .next (s.raised cINT_DIVZERO 0) :=
  ((needRegs_eq s h.1 _).trans (if_pos hb)).trans (raise_eq s _ _)

/-! ### The values of Tables 8-3 and 8-4 -/

theorem flag_decide (p : Prop) [Decidable p] : flag (decide p) = if p then 1 else 0 := by
  simp [flag]

theorem flag_slt (x y : Word) : flag (x.slt y) = if x.toInt < y.toInt then 1 else 0 := by
  rw [BitVec.slt_eq_decide, flag_decide]

theorem flag_ult (x y : Word) : flag (x.ult y) = if x.toNat < y.toNat then 1 else 0 := by
  rw [BitVec.ult_eq_decide, flag_decide]

theorem flag_slt_sext (x : Word) (imm : BitVec 16) : flag (x.slt (sext imm)) = if x.toInt < imm.toInt then 1 else 0 := by
  rw [flag_slt, sext, BitVec.toInt_signExtend_of_le (by decide)]

/-- The choice that MIN and MAX make by a strict comparison, made by the weak one the other way round. -/
theorem ite_slt {α : Type} (x y : Word) (u v : α) : (if x.slt y then u else v) = if y.toInt ≤ x.toInt then v else u := by
  rw [BitVec.slt_eq_decide]
  by_cases h : x.toInt < y.toInt
  · rw [if_pos (decide_eq_true h), if_neg (by omega)]
  · rw [if_neg (by simpa using h), if_pos (by omega)]

theorem extractLsb'_ofInt_128 (z : Int) : (BitVec.ofInt 128 z).extractLsb' 64 64 = BitVec.ofInt 64 (z / 2 ^ 64) := by
  apply BitVec.eq_of_toNat_eq
  rw [BitVec.extractLsb'_toNat, BitVec.toNat_ofInt, BitVec.toNat_ofInt, Nat.shiftRight_eq_div_pow]
  omega

/-- The high half of the signed product is cut from the product at 128 bits. -/
theorem mulhS_eq (x y : Word) : mulhS x y = (x.signExtend 128 * y.signExtend 128).extractLsb' 64 64 := by
  unfold mulhS BitVec.signExtend
  rw [← extractLsb'_ofInt_128, BitVec.ofInt_mul]

theorem mulhU_eq (x y : Word) : mulhU x y = (x.zeroExtend 128 * y.zeroExtend 128).extractLsb' 64 64 := by
  have hxy : x.toNat * y.toNat < 2 ^ 128 := by
    calc x.toNat * y.toNat < 2 ^ 64 * 2 ^ 64 := Nat.mul_lt_mul'' x.isLt y.isLt
      _ = 2 ^ 128 := by norm_num
  have hx : (x.zeroExtend 128).toNat = x.toNat := BitVec.toNat_setWidth_of_le (by decide)
  have hy : (y.zeroExtend 128).toNat = y.toNat := BitVec.toNat_setWidth_of_le (by decide)
  apply BitVec.eq_of_toNat_eq
  rw [BitVec.extractLsb'_toNat, BitVec.toNat_mul, hx, hy, Nat.mod_eq_of_lt hxy, Nat.shiftRight_eq_div_pow]
  exact BitVec.toNat_ofNat _ _

/-- The top bit of a number that is not 0 stands at its logarithm. -/
theorem size_eq_log2_add_one {n : Nat} (h : n ≠ 0) : n.size = n.log2 + 1 :=
  le_antisymm (Nat.size_le.2 Nat.lt_log2_self) (Nat.lt_size.2 (Nat.log2_self_le h))

theorem clz64_eq (x : Word) : clz64 x = BitVec.ofNat 64 (64 - x.toNat.size) := by
  unfold clz64
  split
  case isTrue h => rw [h]; rfl
  case isFalse h =>
    rw [size_eq_log2_add_one (by simpa [BitVec.toNat_eq] using h)]
    congr 1
    omega

theorem popc64_eq (x : Word) : popc64 x = BitVec.ofNat 64 ((List.range 64).filter fun i => x.getLsbD i).length := by
  rw [popc64, List.countP_eq_length_filter]

theorem sext_shiftLeft_16 (imm : BitVec 16) : sext imm <<< 16 = imm.signExtend 64 * 0x10000 :=
  BitVec.shiftLeft_eq_mul_twoPow _ 16

theorem exec_lui {s : State} {d : Reg} (h : s.Ready [d]) (imm : BitVec 16) :
    exec (.lui d imm) s = .next ((s.wg d (imm.signExtend 64 * 0x10000)).went (s.me.pc + 4)) := by
  rw [← sext_shiftLeft_16]
  exact h.needRegs_retireG d _

/-- The quotient wraps at −2^63 by −1, as the machine's does (R143). -/
theorem divS_eq (x y : Word) : divS x y = x.sdiv y :=
  BitVec.eq_of_toInt_eq (by rw [divS, BitVec.toInt_ofInt, BitVec.toInt_sdiv])

theorem remS_eq (x y : Word) : remS x y = x.srem y := by
  rw [remS, ← BitVec.toInt_srem, BitVec.ofInt_toInt]

/-- Settles O5: every form but LUI has one of three shapes, and its function gives the table's value. -/
theorem integerInstructionsWriteTheirResults : Obligations.IntegerInstructionsWriteTheirResults := by
  refine ⟨fun s d a b h => ?registers, fun s d a imm n h => ?immediates,
    fun s d a b h => ⟨fun hb => ?divides, fun hb => ?traps⟩⟩
  case registers =>
    have ha : s.Ready [d, a] := h.mono (by simp)
    exact ⟨exec_of_intRR h (· + ·) rfl rfl,
      exec_of_intRR h (· - ·) rfl rfl,
      exec_of_intRR h (· &&& ·) rfl rfl,
      exec_of_intRR h (· ||| ·) rfl rfl,
      exec_of_intRR h (· ^^^ ·) rfl rfl,
      exec_of_intRR h (fun x y => x <<< shamt y) rfl rfl,
      exec_of_intRR h (fun x y => x >>> shamt y) rfl rfl,
      exec_of_intRR h (fun x y => x.sshiftRight (shamt y)) rfl rfl,
      exec_of_intRR h (fun x y => flag (x.slt y)) rfl (flag_slt _ _),
      exec_of_intRR h (fun x y => flag (x.ult y)) rfl (flag_ult _ _),
      exec_of_intRR h (fun x y => if y.slt x then y else x) rfl (ite_slt _ _ _ _),
      exec_of_intRR h (fun x y => if x.slt y then y else x) rfl (ite_slt _ _ _ _),
      exec_of_intRR h (· * ·) rfl rfl,
      exec_of_intRR h mulhS rfl (mulhS_eq _ _),
      exec_of_intRR h mulhU rfl (mulhU_eq _ _),
      exec_of_intR ha clz64 rfl (clz64_eq _),
      exec_of_intR ha popc64 rfl (popc64_eq _)⟩
  case immediates =>
    exact ⟨exec_of_intR h (· + sext imm) rfl rfl,
      exec_of_intR h (· &&& zext imm) rfl rfl,
      exec_of_intR h (· ||| zext imm) rfl rfl,
      exec_of_intR h (· ^^^ zext imm) rfl rfl,
      exec_of_intR h (fun x => flag (x.slt (sext imm))) rfl (flag_slt_sext _ _),
      exec_lui (h.mono (by simp)) imm,
      exec_of_intR h (· <<< n.toNat) rfl rfl,
      exec_of_intR h (· >>> n.toNat) rfl rfl,
      exec_of_intR h (·.sshiftRight n.toNat) rfl rfl⟩
  case divides =>
    exact ⟨exec_of_intDiv h hb divS rfl (divS_eq _ _),
      exec_of_intDiv h hb remS rfl (remS_eq _ _),
      exec_of_intDiv h hb (· / ·) rfl BitVec.udiv_def,
      exec_of_intDiv h hb (· % ·) rfl BitVec.umod_def⟩
  case traps =>
    intro i hi
    simp only [List.mem_cons, List.not_mem_nil, or_false] at hi
    obtain rfl | rfl | rfl | rfl := hi
    all_goals exact intDiv_zero h hb _

/-! ### Branches and jumps -/

/-- A conditional branch whose test says p goes to its target when p holds, and to the next word otherwise (R145). -/
theorem exec_of_branch {s : State} {a b : Reg} {i : Instr} {off : BitVec 16} {p : Prop} (h : s.Ready [a, b])
    (c : Word → Word → Bool) (hi : exec i s = branch s a b off c) (hc : c (s.rg a) (s.rg b) = true ↔ p) :
    (p → exec i s = .next (s.went (target s.me.pc off))) ∧ (¬p → exec i s = .next (s.went (s.me.pc + 4))) := by
  have hb : exec i s = if c (s.rg a) (s.rg b) then retireTo s (target s.me.pc off) else retire s :=
    hi.trans (needRegs_eq s h.1 _)
  rw [hb]
  refine ⟨fun hp => ?_, fun hp => ?_⟩
  · rw [if_pos (hc.2 hp), retireTo_eq s _ h.2]
  · rw [if_neg (mt hc.1 hp), retire_eq s h.2]

/-- BSIG compares the tag held in f, and names no g register (R147). -/
theorem exec_bsig {s : State} {rs : List Reg} (h : s.Ready rs) (f : Reg) (thr : BitVec 7) (off : BitVec 14) :
    ((s.rf f).tag.toNat < thr.toNat → exec (.bsig f thr off) s = .next (s.went (target s.me.pc off))) ∧
    (¬(s.rf f).tag.toNat < thr.toNat → exec (.bsig f thr off) s = .next (s.went (s.me.pc + 4))) :=
  ⟨fun hlt => (if_pos hlt).trans (retireTo_eq s _ h.2), fun hlt => (if_neg hlt).trans (retire_eq s h.2)⟩

theorem not_slt_iff (x y : Word) : (!x.slt y) = true ↔ y.toInt ≤ x.toInt := by
  simp [BitVec.slt_eq_decide]

theorem not_ult_iff (x y : Word) : (!x.ult y) = true ↔ y.toNat ≤ x.toNat := by
  simp [BitVec.ult_eq_decide]

/-- An address is that of a word when its low two bits are 0. -/
theorem aligned_four_iff (va : Word) : aligned va 4 = true ↔ va.extractLsb' 0 2 = 0 := by
  simp [aligned, BitVec.toNat_eq, BitVec.extractLsb'_toNat]

/-- JALR to the address of a word links and jumps; its target is read before the link is written (R146). -/
theorem exec_jalr_aligned {s : State} {d a : Reg} {imm : BitVec 16} (h : s.Ready [d, a])
    (ht : (effAddr (s.rg a) imm).extractLsb' 0 2 = 0) :
    exec (.jalr d a imm) s = .next ((s.wg d (s.me.pc + 4)).went (effAddr (s.rg a) imm)) := by
  have hal : ¬(!aligned (effAddr (s.rg a) imm) 4) = true := by simp [(aligned_four_iff _).2 ht]
  exact ((needRegs_eq s h.1 _).trans (if_neg hal)).trans (h.retireTo_wg d _ _)

theorem exec_jalr_misaligned {s : State} {d a : Reg} {imm : BitVec 16} (h : s.Free [d, a])
    (ht : (effAddr (s.rg a) imm).extractLsb' 0 2 ≠ 0) :
    exec (.jalr d a imm) s = .next (s.raised cMISALIGN (effAddr (s.rg a) imm)) := by
  have hal : (!aligned (effAddr (s.rg a) imm) 4) = true := by simpa using mt (aligned_four_iff _).1 ht
  exact ((needRegs_eq s h _).trans (if_pos hal)).trans (raise_eq s _ _)

/-- Settles O6: the six comparisons share one branch, and alignment of a jump's target is a matter of its low bits. -/
theorem branchesAndJumpsGoWhereTheirRulesSay : Obligations.BranchesAndJumpsGoWhereTheirRulesSay := by
  refine ⟨fun s a b f off thr off14 h => ?branches, fun s d a off imm h => ?jumps⟩
  case branches =>
    exact ⟨exec_of_branch h (· == ·) rfl beq_iff_eq,
      exec_of_branch h (· != ·) rfl bne_iff_ne,
      exec_of_branch h BitVec.slt rfl BitVec.slt_iff_toInt_lt,
      exec_of_branch h (fun x y => !x.slt y) rfl (not_slt_iff _ _),
      exec_of_branch h BitVec.ult rfl BitVec.ult_iff_lt,
      exec_of_branch h (fun x y => !x.ult y) rfl (not_ult_iff _ _),
      exec_bsig h f thr off14⟩
  case jumps =>
    have h31 : s.Ready [31] := h.mono (by simp)
    have hda : s.Ready [d, a] := h.mono (by simp)
    exact ⟨(needRegs_eq s h31.1 _).trans (h.retireTo_wg 31 _ _), exec_jalr_aligned hda, exec_jalr_misaligned hda.1⟩

/-! ### Moves between the register files -/

/-- Settles O17: the format's width and precision are those of the table, and the moves touch nothing else. -/
theorem movesBetweenTheFiles : Obligations.MovesBetweenTheFiles := by
  intro s d a f p w
  have hp : p = fmtPrec f := by cases f <;> rfl
  have hw : w = fmtWidth f := by cases f <;> rfl
  rw [hp, hw]
  refine ⟨fun h => ⟨?fmvg, ?fsig⟩, fun h => ⟨?fmvf, ?fsigset⟩⟩
  case fmvg => exact h.needRegs_retireG d _
  case fsig => exact h.needRegs_retireG d _
  case fmvf => exact (needRegs_eq s h.1 _).trans (h.retire_wf d _ _)
  case fsigset => exact (needRegs_eq s h.1 _).trans (h.retire_wf d _ _)

end Sys2Proof.Machine
end

section
/-!
PROOFS. The trap instructions: RETT (R195).
-/

namespace Sys2Proof.Machine

open Sys2Proof

/-! ### Instructions that need a level (R110) -/

theorem needLevel_of_le {s : State} {l : Level} (h : levelNat l ≤ levelNat s.me.level) (i : Instr) (k : Out) :
    needLevel s l i k = k :=
  if_neg (Nat.not_lt.2 h)

/-- Below the level the instruction raises PRIV, whatever it would have done. -/
theorem needLevel_of_lt {s : State} {l : Level} (h : levelNat s.me.level < levelNat l) (i : Instr) (k : Out) :
    needLevel s l i k = .next (s.raised cPRIV (wordOf i)) :=
  (if_pos h).trans (raise_eq s cPRIV (wordOf i))

/-- Every level but U is at S or above. -/
theorem levelNat_s_le_iff {l : Level} : levelNat .s ≤ levelNat l ↔ l ≠ .u := by
  cases l <;> decide

/-! ### Levels as STATUS_T.PPL holds them (Table 9-9) -/

@[simp] theorem levelOfCode_levelCode (l : Level) : levelOfCode (levelCode l) = some l := by
  cases l <;> rfl

@[simp] theorem levelOfCode_three : levelOfCode 3#2 = none := rfl

/-! ### STATUS_T after RETT -/

theorem getLsbD_zero_statusReturn (status : Word) : (statusReturn status).getLsbD 0 = status.getLsbD 1 := by
  simp [statusReturn]

/-- RETT writes bit 0 of STATUS_T and no other. -/
theorem getLsbD_statusReturn_of_pos (status : Word) {i : Nat} (h : 0 < i) :
    (statusReturn status).getLsbD i = status.getLsbD i := by
  have h0 : (1#64).getLsbD i = false := by simp [BitVec.getLsbD_one, h.ne']
  simp only [statusReturn, BitVec.getLsbD_or, BitVec.getLsbD_and, BitVec.getLsbD_not, h0]
  by_cases hi : i < 64
  · simp [hi]
  · simp [BitVec.getLsbD_of_ge status i (by omega)]

theorem extractLsb'_one_statusReturn (status : Word) (n : Nat) :
    (statusReturn status).extractLsb' 1 n = status.extractLsb' 1 n := by
  ext i hi
  simp [← BitVec.getLsbD_eq_getElem, getLsbD_statusReturn_of_pos status (Nat.zero_lt_one.trans_le (Nat.le_add_right 1 i))]

/-! ### The trap registers of a level -/

@[simp] theorem Core.trapRegs_setTrapRegs_self (c : Core) (l : Level) (t : TrapRegs) :
    (c.setTrapRegs l t).trapRegs l = t := by
  cases l <;> rfl

@[simp] theorem Core.g_setTrapRegs (c : Core) (l : Level) (t : TrapRegs) : (c.setTrapRegs l t).g = c.g := by
  cases l <;> rfl

@[simp] theorem Core.f_setTrapRegs (c : Core) (l : Level) (t : TrapRegs) : (c.setTrapRegs l t).f = c.f := by
  cases l <;> rfl

/-- The trap registers do not lie in pc or the level. -/
theorem Core.trapRegs_with_pc_level (c : Core) (pc : Word) (l m : Level) :
    ({ c with pc := pc, level := l } : Core).trapRegs m = c.trapRegs m := by
  cases m <;> rfl

/-! ### RETT -/

/-- A core that has returned to a level with trap registers t (R195). -/
def Core.returned (c : Core) (t : TrapRegs) (l : Level) : Core :=
  { c.setTrapRegs c.level { t with status := statusReturn t.status } with pc := t.tpc, level := l }

@[simp] theorem Core.g_returned (c : Core) (t : TrapRegs) (l : Level) : (c.returned t l).g = c.g :=
  c.g_setTrapRegs _ _

@[simp] theorem Core.f_returned (c : Core) (t : TrapRegs) (l : Level) : (c.returned t l).f = c.f :=
  c.f_setTrapRegs _ _

@[simp] theorem Core.pc_returned (c : Core) (t : TrapRegs) (l : Level) : (c.returned t l).pc = t.tpc := rfl
@[simp] theorem Core.level_returned (c : Core) (t : TrapRegs) (l : Level) : (c.returned t l).level = l := rfl

@[simp] theorem Core.trapRegs_returned (c : Core) (t : TrapRegs) (l : Level) :
    (c.returned t l).trapRegs c.level = { t with status := statusReturn t.status } :=
  (Core.trapRegs_with_pc_level _ _ _ _).trans (Core.trapRegs_setTrapRegs_self _ _ _)

theorem exec_rett_u {s : State} (h : s.me.level = .u) : exec .rett s = .next (s.raised cPRIV (wordOf .rett)) :=
  needLevel_of_lt (by rw [h]; decide) .rett _

/-- RETT at S and H returns to the level that PPL names, when it is not above the current level. -/
theorem exec_rett_returns {s : State} {l : Level} (h : s.me.level ≠ .u)
    (hp : levelOfCode ((s.me.trapRegs s.me.level).status.extractLsb' 2 2) = some l)
    (hl : levelNat l ≤ levelNat s.me.level) :
    exec .rett s = .next (s.updMe (·.returned (s.me.trapRegs s.me.level) l)) := by
  refine (needLevel_of_le (levelNat_s_le_iff.2 h) .rett _).trans ?_
  simp only [hp]
  exact if_neg (Nat.not_lt.2 hl)

/-- RETT at S and H raises ILLEGAL when PPL names no level, or one above the current level. -/
theorem exec_rett_illegal {s : State} (h : s.me.level ≠ .u)
    (hp : ∀ l, levelOfCode ((s.me.trapRegs s.me.level).status.extractLsb' 2 2) = some l →
      levelNat s.me.level < levelNat l) :
    exec .rett s = .next (s.raised cILLEGAL (wordOf .rett)) := by
  refine (needLevel_of_le (levelNat_s_le_iff.2 h) .rett _).trans ?_
  cases hc : levelOfCode ((s.me.trapRegs s.me.level).status.extractLsb' 2 2) with
  | none => exact raise_eq s _ _
  | some l => exact (if_pos (hp l hc)).trans (raise_eq s _ _)

/-- Settles O20: PPL selects between a return and ILLEGAL, and a return writes the current core alone. -/
theorem rettReturnsFromATrap : Obligations.RettReturnsFromATrap := by
  have hw : wordOf .rett = 0xFC000023 := by decide
  rw [Obligations.RettReturnsFromATrap, ← hw]
  refine ⟨fun s hu => exec_rett_u hu, fun s l h => ⟨fun hp hl => ?returns, fun hp hl => ?above, fun hp => ?three⟩⟩
  case returns =>
    refine ⟨_, exec_rett_returns h (by rw [hp, levelOfCode_levelCode]) hl, ?_⟩
    simp only [State.me_updMe, Core.pc_returned, Core.level_returned, Core.g_returned, Core.f_returned,
      Core.trapRegs_returned, State.ms_updMe, true_and]
    exact ⟨getLsbD_zero_statusReturn _, extractLsb'_one_statusReturn _ _, fun c hc => s.core_updCore_ne hc _⟩
  case above => exact exec_rett_illegal h (by simpa [hp] using hl)
  case three => exact exec_rett_illegal h (by simp [hp])

end Sys2Proof.Machine
end

section
/-!
PROOFS. The decoder undoes the encoder (Tables 6-1 to 6-12): the fields of an encoded word are the fields that were encoded.
-/

namespace Sys2Proof

open BitVec (extractLsb'_append_eq_of_le extractLsb'_append_eq_of_add_le extractLsb'_eq_self)

/-! ### The fields of an encoded core word -/

section
variable (op : BitVec 6) (d a b e : Reg)

theorem fields_encRR (fn : BitVec 11) :
    fOp (encRR op d a b fn) = op ∧ fD (encRR op d a b fn) = d ∧ fA (encRR op d a b fn) = a ∧ fB (encRR op d a b fn) = b ∧
      fFn (encRR op d a b fn) = fn := by
  simp (disch := omega) only [fOp, fD, fA, fB, fFn, encRR, extractLsb'_append_eq_of_le, extractLsb'_append_eq_of_add_le,
    Nat.reduceSub, extractLsb'_eq_self, and_self]

theorem fields_encRI (imm : BitVec 16) :
    fOp (encRI op d a imm) = op ∧ fD (encRI op d a imm) = d ∧ fA (encRI op d a imm) = a ∧ fImm16 (encRI op d a imm) = imm := by
  simp (disch := omega) only [fOp, fD, fA, fImm16, encRI, extractLsb'_append_eq_of_le, extractLsb'_append_eq_of_add_le,
    Nat.reduceSub, extractLsb'_eq_self, and_self]

theorem fields_encM (sel : BitVec 4) (off : BitVec 12) :
    fOp (encM op d a sel off) = op ∧ fD (encM op d a sel off) = d ∧ fA (encM op d a sel off) = a ∧
      fSel (encM op d a sel off) = sel ∧ fOff12 (encM op d a sel off) = off := by
  simp (disch := omega) only [fOp, fD, fA, fSel, fOff12, encM, extractLsb'_append_eq_of_le, extractLsb'_append_eq_of_add_le,
    Nat.reduceSub, extractLsb'_eq_self, and_self]

theorem fields_encFp (sub : BitVec 5) (rm : BitVec 3) (f : FFmt) :
    let w := encFp op d a b sub rm f
    fOp w = op ∧ fD w = d ∧ fA w = a ∧ fB w = b ∧ w.extractLsb' 6 5 = sub ∧ fRm w = rm ∧ fFmt w = f.code ∧ fBit0 w = 0#1 := by
  simp (disch := omega) only [fOp, fD, fA, fB, fRm, fFmt, fBit0, encFp, extractLsb'_append_eq_of_le,
    extractLsb'_append_eq_of_add_le, Nat.reduceSub, extractLsb'_eq_self, and_self]

theorem fields_encAmo (u wd : Bool) (ord : Order) :
    let w := encAmo op d a b u wd ord
    fOp w = op ∧ fD w = d ∧ fA w = a ∧ fB w = b ∧ w.extractLsb' 4 7 = 0#7 ∧ w.extractLsb' 0 2 = ord.code := by
  simp (disch := omega) only [fOp, fD, fA, fB, encAmo, extractLsb'_append_eq_of_le,
    extractLsb'_append_eq_of_add_le, Nat.reduceSub, extractLsb'_eq_self, and_self]

theorem bits_encAmo (u wd : Bool) (ord : Order) :
    (encAmo op d a b u wd ord).getLsbD 3 = u ∧ (encAmo op d a b u wd ord).getLsbD 2 = wd := by
  simp only [encAmo, BitVec.getLsbD_append]
  simp

theorem fields_encX (xf : BitVec 6) :
    fOp (encX d a b e xf) = 0x3F#6 ∧ fD (encX d a b e xf) = d ∧ fA (encX d a b e xf) = a ∧ fB (encX d a b e xf) = b ∧
      fE (encX d a b e xf) = e ∧ fXf (encX d a b e xf) = xf := by
  simp (disch := omega) only [fOp, fD, fA, fB, fE, fXf, encX, extractLsb'_append_eq_of_le, extractLsb'_append_eq_of_add_le,
    Nat.reduceSub, extractLsb'_eq_self, and_self]

end

/-! ### Codes of the small fields -/

@[simp] theorem FFmt.ofCode_code (f : FFmt) : FFmt.ofCode f.code = f := by cases f <;> rfl
@[simp] theorem RMode.ofCode_code (m : RMode) : RMode.ofCode m.code = some m := by cases m <;> rfl
@[simp] theorem SgnVar.ofCode_code (v : SgnVar) : SgnVar.ofCode v.code = some v := by cases v <;> rfl
@[simp] theorem CmpVar.ofCode_code (v : CmpVar) : CmpVar.ofCode v.code = some v := by cases v <;> rfl
@[simp] theorem CvtTy.ofCode_code (t : CvtTy) : CvtTy.ofCode t.code = t := by cases t <;> rfl
@[simp] theorem Order.ofCode_code (o : Order) : Order.ofCode o.code = o := by cases o <;> rfl
@[simp] theorem Scope.ofCode_code (s : Scope) : Scope.ofCode s.code = s := by cases s <;> rfl

/-! ### The forms with fields of their own -/

theorem decodeS_shift (k : BitVec 10) (d a : Reg) (n : BitVec 6) :
    decodeS (0x16#6 ++ d ++ a ++ k ++ n) =
      match k.toNat with | 0 => some (.slli d a n) | 1 => some (.srli d a n) | 2 => some (.srai d a n) | _ => none := by
  have hop : fOp (0x16#6 ++ d ++ a ++ k ++ n) = 0x16 := by
    simp (disch := omega) only [fOp, extractLsb'_append_eq_of_le, Nat.reduceSub, extractLsb'_eq_self]; rfl
  rw [decodeS, decodeImm, hop]
  simp (disch := omega) only [fD, fA, extractLsb'_append_eq_of_le, extractLsb'_append_eq_of_add_le, Nat.reduceSub,
    extractLsb'_eq_self]
  rfl

theorem decodeS_fcvt (d a : Reg) (src dst : CvtTy) (rm : RMode) (h : cvtOk src dst = true) :
    decodeS (0x23#6 ++ d ++ a ++ 0#2 ++ src.code ++ dst.code ++ 0#2 ++ rm.code ++ 0#3) = some (.fcvt d a src dst rm) := by
  have hop : fOp (0x23#6 ++ d ++ a ++ 0#2 ++ src.code ++ dst.code ++ 0#2 ++ rm.code ++ 0#3) = 0x23 := by
    simp (disch := omega) only [fOp, extractLsb'_append_eq_of_le, Nat.reduceSub, extractLsb'_eq_self]; rfl
  rw [decodeS, hop]
  show decodeFcvt _ = _
  rw [decodeFcvt]
  simp (disch := omega) only [fD, fA, fRm, extractLsb'_append_eq_of_le, extractLsb'_append_eq_of_add_le, Nat.reduceSub,
    extractLsb'_eq_self, CvtTy.ofCode_code, RMode.ofCode_code, h]
  rfl

theorem decodeS_bsig (f : Reg) (thr : BitVec 7) (o : BitVec 14) : decodeS (0x25#6 ++ f ++ thr ++ o) = some (.bsig f thr o) := by
  have hop : fOp (0x25#6 ++ f ++ thr ++ o) = 0x25 := by
    simp (disch := omega) only [fOp, extractLsb'_append_eq_of_le, Nat.reduceSub, extractLsb'_eq_self]; rfl
  rw [decodeS, decodeBranch, hop]
  simp (disch := omega) only [fD, extractLsb'_append_eq_of_le, extractLsb'_append_eq_of_add_le, Nat.reduceSub,
    extractLsb'_eq_self]
  rfl

theorem decodeS_jal (o : BitVec 26) : decodeS (0x2E#6 ++ o) = some (.jal o) := by
  have hop : fOp (0x2E#6 ++ o) = 0x2E := by
    simp (disch := omega) only [fOp, extractLsb'_append_eq_of_le, Nat.reduceSub, extractLsb'_eq_self]; rfl
  rw [decodeS, decodeBranch, hop, (show (0x2E#6 ++ o).extractLsb' 0 26 = o by
    rw [extractLsb'_append_eq_of_add_le (by omega), extractLsb'_eq_self])]
  rfl

theorem decodeS_fence (c : Scope) : decodeS (0x36#6 ++ 0#24 ++ c.code) = some (.fence c) := by
  cases c <;> rfl

/-- A core word decodes to the instruction whose word it is. -/
theorem decodeS_encodeS {i : Instr} {w : BitVec 32} (hw : i.wf = true) (h : encodeS i = some w) : decodeS w = some i := by
  cases i with
  | add | sub | and | or | xor | sll | srl | sra | slt | sltu | min | max | mul | mulh | mulhu | div | divu | rem | remu 
  | clz | popc =>
    obtain rfl := Option.some.inj h
    obtain ⟨hop, hd, ha, hb, hfn⟩ := fields_encRR _ _ _ _ _
    rw [decodeS, decodeInt, hop, hd, ha, hb, hfn]
    rfl
  | mwcas =>
    obtain rfl := Option.some.inj h
    obtain ⟨hop, hd, ha, hb, hfn⟩ := fields_encRR _ _ _ _ _
    rw [decodeS, decodeAtomic, hop, hd, ha, hb, hfn]
    rfl
  | addi | andi | ori | xori | slti | lui =>
    obtain rfl := Option.some.inj h
    obtain ⟨hop, hd, ha, himm⟩ := fields_encRI _ _ _ _ 
    rw [decodeS, decodeImm, hop, hd, ha, himm]
    rfl
  | ld | sd =>
    obtain rfl := Option.some.inj h
    obtain ⟨hop, hd, ha, himm⟩ := fields_encRI _ _ _ _ 
    rw [decodeS, decodeMem, hop, hd, ha, himm]
    rfl
  | beq | bne | blt | bge | bltu | bgeu | jalr =>
    obtain rfl := Option.some.inj h
    obtain ⟨hop, hd, ha, himm⟩ := fields_encRI _ _ _ _ 
    rw [decodeS, decodeBranch, hop, hd, ha, himm]
    rfl
  | lb | lbu | lh | lhu | lw | lwu | sb | sh | sw | flw | fld | fsw | fsd | fsdt | lda | stl =>
    obtain rfl := Option.some.inj h
    obtain ⟨hop, hd, ha, hsel, hoff⟩ := fields_encM _ _ _ _ _
    rw [decodeS, decodeMem, hop, hd, ha, hsel, hoff]
    rfl
  | fldt d a f off =>
    obtain rfl := Option.some.inj h
    obtain ⟨hop, hd, ha, hsel, hoff⟩ := fields_encM _ _ _ _ _
    rw [decodeS, decodeMem, hop, hd, ha, hsel, hoff]
    cases f <;> rfl
  | fadd | fsub | fmul | fdiv | fsqrt | frnd  =>
    obtain rfl := Option.some.inj h
    obtain ⟨hop, hd, ha, hb, hsub, hrm, hf, h0⟩ := fields_encFp _ _ _ _ _ _ _
    rw [decodeS, decodeFpArith, hop, hd, ha, hb, hsub, hrm, hf, h0, FFmt.ofCode_code, RMode.ofCode_code]
    rfl
  | fmin | fmax =>
    obtain rfl := Option.some.inj h
    obtain ⟨hop, hd, ha, hb, hsub, hrm, hf, h0⟩ := fields_encFp _ _ _ _ _ _ _
    rw [decodeS, decodeFpArith, hop, hd, ha, hb, hsub, hrm, hf, h0, FFmt.ofCode_code]
    rfl
  | fsgn =>
    obtain rfl := Option.some.inj h
    obtain ⟨hop, hd, ha, hb, hsub, hrm, hf, h0⟩ := fields_encFp _ _ _ _ _ _ _
    rw [decodeS, decodeFpArith, hop, hd, ha, hb, hsub, hrm, hf, h0, FFmt.ofCode_code, SgnVar.ofCode_code]
    rfl
  | fcmp =>
    obtain rfl := Option.some.inj h
    obtain ⟨hop, hd, ha, hb, hsub, hrm, hf, h0⟩ := fields_encFp _ _ _ _ _ _ _
    rw [decodeS, decodeFpArith, hop, hd, ha, hb, hsub, hrm, hf, h0, FFmt.ofCode_code, CmpVar.ofCode_code]
    rfl
  | fma | fms =>
    obtain rfl := Option.some.inj h
    obtain ⟨hop, hd, ha, hb, hsub, hrm, hf, h0⟩ := fields_encFp _ _ _ _ _ _ _
    rw [decodeS, decodeFma, hop, hd, ha, hb, hsub, hrm, hf, h0, FFmt.ofCode_code, RMode.ofCode_code]
    rfl
  | fmvg | fmvf | fsig | fsigset =>
    obtain rfl := Option.some.inj h
    obtain ⟨hop, hd, ha, hb, hsub, hrm, hf, h0⟩ := fields_encFp _ _ _ _ _ _ _
    rw [decodeS, decodeFmv, hop, hd, ha, hb, hsub, hrm, hf, h0, FFmt.ofCode_code]
    rfl
  | amoadd | amoswap | amomin | amomax | amocas =>
    obtain rfl := Option.some.inj h
    obtain ⟨hop, hd, ha, hb, hhi, hord⟩ := fields_encAmo _ _ _ _ _ _ _
    obtain ⟨hu, hwd⟩ := bits_encAmo _ _ _ _ _ _ _
    rw [decodeS, decodeAtomic, hop, hd, ha, hb, hhi, hord, hu, hwd, Order.ofCode_code]
    rfl
  | reqr | rqry | loadimg | launch | killr | preemptKill | preemptSnapshot | resumr | strm | sbar | copy | cmpct | publish
  | migrate | coll | waitw | assert | retract | modify | settle | select | fired | wave | scoreclr | trap | hvcall | brk | rett
  | sread | swrite | tlbinv | tlbsync | wfe | halt | replay | fresSupply | fresRetry | fresKill | sqstart | cacheopClean
  | cacheopInval | cacheopFlush | cacheopPfr | cacheopPfw | cacheopIinv =>
    obtain rfl := Option.some.inj h
    obtain ⟨hop, hd, ha, hb, he, hxf⟩ := fields_encX _ _ _ _ _
    rw [decodeS, decodeX, hop, hd, ha, hb, he, hxf]
    rfl
  | slli | srli | srai => exact Option.some.inj h ▸ decodeS_shift _ _ _ _
  | fcvt d a src dst rm => exact Option.some.inj h ▸ decodeS_fcvt d a src dst rm hw
  | bsig f thr o => exact Option.some.inj h ▸ decodeS_bsig f thr o
  | jal o => exact Option.some.inj h ▸ decodeS_jal o
  | fence c => exact Option.some.inj h ▸ decodeS_fence c
  | _ => exact nomatch (show none = some w from h)

/-! ### Node words -/

theorem nodeOpc_nodeWord (o : BitVec 8) (n : NodeFields) : nodeOpc (nodeWord o n) = o := by
  rw [nodeOpc, nodeWord, extractLsb'_append_eq_of_add_le (by omega), extractLsb'_eq_self]

theorem nodeFields_nodeWord (o : BitVec 8) (n : NodeFields) : nodeFields (nodeWord o n) = n := by
  simp (disch := omega) only [nodeFields, nodeWord, extractLsb'_append_eq_of_le, extractLsb'_append_eq_of_add_le,
    Nat.reduceSub, extractLsb'_eq_self]

/-- Table 6-12 read in both directions. -/
theorem nodeOfOpc_opcOf {i : Instr} {o : BitVec 8} {n : NodeFields} (ho : opcOf i = some o) (hn : i.node? = some n) :
    nodeOfOpc o n = some i := by
  unfold opcOf at ho
  split at ho
  case h_88 => exact absurd ho (by simp)
  all_goals
    obtain rfl := Option.some.inj ho
    obtain rfl := Option.some.inj hn
    rfl

/-- The fields of a well-formed node instruction are those a node word may have. -/
theorem node_ok_of_wf {i : Instr} {o : BitVec 8} {n : NodeFields} (ho : opcOf i = some o) (hn : i.node? = some n)
    (hw : i.wf = true) : n.ok = true := by
  unfold opcOf at ho
  split at ho
  case h_88 => exact absurd ho (by simp)
  all_goals
    obtain rfl := Option.some.inj hn
    exact hw

theorem decodeNode_encodeNode {i : Instr} {w : BitVec 128} (hw : i.wf = true) (h : encodeNode i = some w) :
    decodeNode w = some i := by
  unfold encodeNode at h
  split at h
  case h_1 o n ho hn =>
    obtain rfl := Option.some.inj h
    rw [decodeNode, nodeFields_nodeWord, nodeOpc_nodeWord]
    exact (if_pos (node_ok_of_wf ho hn hw)).trans (nodeOfOpc_opcOf ho hn)
  case h_2 => exact absurd h (by simp)

/-! ### The bytes of a word (R104) -/

/-- The number whose bytes, lowest first, are given. -/
def numOfBytes (bs : List Byte) : Nat := bs.foldr (fun b acc => b.toNat + 256 * acc) 0

theorem numOfBytes_append (xs ys : List Byte) :
    numOfBytes (xs ++ ys) = numOfBytes xs + 256 ^ xs.length * numOfBytes ys := by
  induction xs with
  | nil => simp [numOfBytes]
  | cons x xs ih =>
    simp only [numOfBytes, List.cons_append, List.foldr_cons, List.length_cons, pow_succ] at ih ⊢
    rw [ih]
    ring

theorem natBytes_four (w : Nat) :
    natBytes 4 w = [BitVec.ofNat 8 w, BitVec.ofNat 8 (w / 2 ^ 8), BitVec.ofNat 8 (w / 2 ^ 16), BitVec.ofNat 8 (w / 2 ^ 24)] := by
  simp [natBytes, List.range_succ, Nat.shiftRight_eq_div_pow]

@[simp] theorem length_natBytes (n w : Nat) : (natBytes n w).length = n := by simp [natBytes]

theorem numOfBytes_natBytes_four (w : BitVec 32) : numOfBytes (natBytes 4 w.toNat) = w.toNat := by
  have := w.isLt
  simp only [natBytes_four, numOfBytes, List.foldr_cons, List.foldr_nil, BitVec.toNat_ofNat]
  omega

theorem wordOfBytes_natBytes (w : BitVec 32) : wordOfBytes (natBytes 4 w.toNat) = w := by
  rw [wordOfBytes, ← numOfBytes, numOfBytes_natBytes_four, BitVec.ofNat_toNat, BitVec.setWidth_eq]

/-- The four words of a node word, lowest first, hold its bytes. -/
theorem ofNat_numOfBytes_words (w : BitVec 128) :
    BitVec.ofNat 128 (numOfBytes ([w.extractLsb' 0 32, w.extractLsb' 32 32, w.extractLsb' 64 32, w.extractLsb' 96 32].flatMap
      fun w => natBytes 4 w.toNat)) = w := by
  have := w.isLt
  apply BitVec.eq_of_toNat_eq
  simp only [List.flatMap_cons, List.flatMap_nil, List.append_nil, numOfBytes_append, numOfBytes_natBytes_four, length_natBytes]
  simp only [BitVec.extractLsb'_toNat, Nat.shiftRight_eq_div_pow, BitVec.toNat_ofNat]
  omega

/-- Settles O1: a core word and a node word each decode to what they were encoded from, and bytes in memory give the words back. -/
theorem decodingAnEncodedInstructionGivesItBack : Obligations.DecodingAnEncodedInstructionGivesItBack := by
  intro i hw hne
  unfold encode at hne ⊢
  cases hs : encodeS i with
  | some w =>
    simp only [List.flatMap_cons, List.flatMap_nil, List.append_nil]
    rw [decodeBytes, if_pos (length_natBytes _ _), wordOfBytes_natBytes, decodeS_encodeS hw hs]
  | none =>
    rw [hs] at hne
    cases hn : encodeNode i with
    | none => simp [hn] at hne
    | some w =>
      have hlen : ([w.extractLsb' 0 32, w.extractLsb' 32 32, w.extractLsb' 64 32, w.extractLsb' 96 32].flatMap
          fun w => natBytes 4 w.toNat).length = 16 := by
        simp [List.flatMap_cons]
      dsimp only
      rw [decodeBytes, hlen, if_neg (by decide), if_pos rfl, ← numOfBytes, ofNat_numOfBytes_words, decodeNode_encodeNode hw hn]

end Sys2Proof
end

section
/-!
PROOFS. How a step begins: the words of the tables, what a turn runs, what holds an instruction back or makes it raise
(R110, R111, R141, R148, R163).
-/

namespace Sys2Proof.Machine

open Sys2Proof

/-- Settles O2, by running the decoder on each word. -/
theorem wordsOfTheTablesDecodeAsWritten : Obligations.WordsOfTheTablesDecodeAsWritten := by
  refine ⟨rfl, rfl, rfl, rfl, rfl, ?_⟩
  decide

/-! ### Turns -/

theorem getD_decodeS {w : BitVec 32} {i : Instr} (h : decodeS w = some i) : (decodeS w).getD (.illegalWord w) = i := by
  rw [h]; rfl

/-- A running core that nothing stops or interrupts runs what it fetches. -/
theorem coreTurn_of_fetch {s s1 : State} {w : BitVec 32} {i : Instr} (hrun : s.me.run = .running)
    (hc : s.me.crashStop = false) (hs : s.me.stopReq = false) (hi : takenInt s s.cur = none)
    (hd : ¬(s.me.dbgstop = true ∧ s.me.level = .u)) (hf : fetchAt s s.cur = .ok w s1) (hw : decodeS w = some i) :
    coreTurn s = exec i s1 := by
  have hcrash : crashTurn s = none := by
    unfold crashTurn
    rw [hc]
    split
    · next h => cases h
    · rfl
  have hnext : coreNext s = .run i s1 := by
    unfold coreNext
    simp only [hrun, hcrash, hs, hi, hf, getD_decodeS hw, Option.isSome_none, Bool.false_eq_true, if_false]
    rw [if_neg (by simp), if_neg (by simpa using hd)]
  unfold coreTurn
  rw [hnext]

theorem runNode_of_word {s : State} {n : Site} {w : BitVec 128} {i : Instr} (hn : nodeWordAt s n = some w)
    (hw : decodeNode w = some i) : runNode s n = exec i { s with site := n } := by
  unfold runNode
  rw [hn, Option.bind_some, hw]

theorem heldBack_cases {s : State} {i : Instr} (h : heldBack s i = true) :
    (∃ n, i = .reorderDueEmit n) ∨ ∃ k, i = .strmComplete k ∨ i = .sbarComplete k := by
  unfold heldBack at h
  split at h
  · exact .inl ⟨_, rfl⟩
  · exact .inr ⟨_, .inl rfl⟩
  · exact .inr ⟨_, .inr rfl⟩
  · cases h

/-- Settles O3: each kind of turn is followed from the agenda to `exec`. -/
theorem aStepRunsTheDecodedInstruction : Obligations.AStepRunsTheDecodedInstruction := by
  refine ⟨?current, ?core, ?node, ?event, fun s i h => heldBack_cases h⟩
  case current =>
    intro s s1 w i ha hb hrun hc hs hi hd hf hw
    have hstep : step s = coreTurn (tick s) := by simp [step, ha, hb]
    rw [hstep]
    exact coreTurn_of_fetch (s := tick s) hrun hc hs hi hd hf hw
  case core =>
    intro s s1 rest c w i ha hrun hc hs hi hd hf hw
    have hstep : step s = coreTurn (tick { s with agenda := rest, cur := c }) := by rw [step, ha]; rfl
    rw [hstep]
    exact coreTurn_of_fetch (s := tick { s with agenda := rest, cur := c }) hrun hc hs hi hd hf hw
  case node =>
    intro s rest n w i ha hn hw s1
    have hstep : step s = fireTurn s1 n := by rw [step, ha]; rfl
    have hrun : runNode s1 n = exec i { s1 with site := n } := runNode_of_word (s := s1) hn hw
    rw [hstep, fireTurn, hrun]
  case event =>
    intro s rest i ha s1
    rw [step, ha]
    rfl

/-! ### Words that raise -/

theorem exec_illegalWord {s : State} {w : BitVec 32} (hrun : s.me.run = .running) (hw : decodeS w = none) :
    exec (.illegalWord w) s = .next (s.raised cILLEGAL (w.zeroExtend 64)) :=
  (if_pos (by simp [hrun, hw])).trans (raise_eq s _ _)

/-- A fetch that faults raises its cause from the state in which the SQSTART that waited for it has ended (R148, R331). -/
theorem exec_fetchFault {s : State} {cause : BitVec 8} {va : Word} (hrun : s.me.run = .running)
    (hf : fetchAt s s.cur = .trap cause va) :
    exec (.instructionFetchFault cause va) s = match (startDone s s.cur).me.entering with
      | some first => .next (handlerFault (startDone s s.cur) (startDone s s.cur).cur first cause)
      | none => .next ((startDone s s.cur).raised cause va) := by
  show execInstructionFetchFault cause va s = _
  unfold execInstructionFetchFault
  simp only [hrun, hf, and_self, if_true]
  cases (startDone s s.cur).me.entering with
  | some first => rfl
  | none => exact raise_eq _ _ _

theorem exec_fetchFault_stale {s : State} {cause : BitVec 8} {va : Word} (hf : fetchAt s s.cur ≠ .trap cause va) :
    exec (.instructionFetchFault cause va) s = .next s := by
  show execInstructionFetchFault cause va s = _
  unfold execInstructionFetchFault
  split
  · next c t _ h => exact if_neg fun e => hf (by rw [h, e.1, e.2])
  · rfl

/-- At U level an instruction of S or H raises PRIV. -/
theorem needLevel_of_u {s : State} (h : s.me.level = .u) {l : Level} (hl : l ≠ .u) (i : Instr) (k : Out) :
    needLevel s l i k = .next (s.raised cPRIV (wordOf i)) := by
  refine needLevel_of_lt ?_ i k
  rw [h]
  cases l with
  | u => exact absurd rfl hl
  | s => decide
  | h => decide

/-- Settles O4: illegal words and faulting fetches are events of their own, and the level is looked at first. -/
theorem illegalAndPrivilegedWordsRaise : Obligations.IllegalAndPrivilegedWordsRaise := by
  refine ⟨fun s w cause va hrun => ⟨exec_illegalWord hrun, fun hf he => ?plain, fun first hf he => ?handler,
    exec_fetchFault_stale⟩, fun s d a b e hu i hi => ?level⟩
  case plain => rw [exec_fetchFault hrun hf, he]
  case handler => rw [exec_fetchFault hrun hf, he]
  case level =>
    simp only [List.mem_cons, List.not_mem_nil, or_false] at hi
    obtain rfl | rfl | rfl | rfl | rfl | rfl | rfl | rfl | rfl | rfl | rfl := hi
    all_goals exact needLevel_of_u hu (by decide) _ _

/-! ### Pending registers -/

theorem ruleGuard_on {s : State} {i : Instr} (h : ∃ p, s.me.part = some p ∧ (s.rules p).en = true ∧ 10 ≤ (s.rules p).logn ∧
    (s.rules p).logn ≤ 20) (k : PartId → Out) : ∃ p, ruleGuard s i k = k p := by
  obtain ⟨p, hp, hen, hlo, hhi⟩ := h
  refine ⟨p, ?_⟩
  unfold ruleGuard
  rw [hp]
  exact if_pos (by simp [hen, hlo, hhi])

/-- A special register that a core has and may read at its level: SREAD comes to its registers. -/
theorem exec_sread_of_mayRun {s : State} {d n m : Reg} (h : s.MayRun (.sread d n m)) :
    ∃ k, exec (.sread d n m) s = needRegs s [d] k := by
  obtain ⟨x, hx, hon, hl⟩ := h
  show ∃ k, execSread d n m s = _
  unfold execSread
  simp only [hx, hon, Bool.not_true, Bool.false_eq_true, if_false]
  exact ⟨_, needLevel_of_le hl _ _⟩

theorem exec_swrite_of_mayRun {s : State} {d n m : Reg} (h : s.MayRun (.swrite d n m)) :
    ∃ k, exec (.swrite d n m) s = needRegs s [d] k := by
  obtain ⟨x, hx, hon, hl⟩ := h
  show ∃ k, execSwrite d n m s = _
  unfold execSwrite
  simp only [hx, hon, Bool.not_true, Bool.false_eq_true, if_false]
  cases hw : x.wr with
  | none => exact ⟨_, needLevel_of_le (by simpa [hw] using hl) _ _⟩
  | some l => exact ⟨_, needLevel_of_le (by simpa [hw] using hl) _ _⟩

/-- A conversion waits for the g register that it names. -/
theorem exec_fcvt_wait {s : State} {d a r : Reg} {src dst : CvtTy} {rm : RMode} (hr : r ∈ gRegs (.fcvt d a src dst rm))
    (hp : s.me.pending r = true) : exec (.fcvt d a src dst rm) s = .next s := by
  show execFcvt d a src dst rm s = _
  unfold execFcvt
  unfold gRegs at hr
  cases hs : CvtTyFmt src <;> cases hd : CvtTyFmt dst <;> simp only [hs, hd] at hr ⊢
  · cases hr
  · exact needRegs_wait s hr hp _
  · exact needRegs_wait s hr hp _
  · cases hr

/-- Settles O7: what an instruction does before it looks at its registers does not happen where it may run. -/
theorem pendingRegistersHoldAnInstruction : Obligations.PendingRegistersHoldAnInstruction := by
  intro s i r hr hp hmay
  cases i with
  | tlbinv | replay | fresSupply | fresRetry | fresKill | sqstart | migrate =>
    exact (needLevel_of_le (levelNat_s_le_iff.2 hmay) _ _).trans (needRegs_wait s hr hp _)
  | assert | retract | modify | settle | select | fired | scoreclr =>
    obtain ⟨p, hk⟩ := ruleGuard_on hmay _
    exact hk.trans (needRegs_wait s hr hp _)
  | sread =>
    obtain ⟨k, hk⟩ := exec_sread_of_mayRun hmay
    exact hk.trans (needRegs_wait s hr hp k)
  | swrite =>
    obtain ⟨k, hk⟩ := exec_swrite_of_mayRun hmay
    exact hk.trans (needRegs_wait s hr hp k)
  | fcvt => exact exec_fcvt_wait hr hp
  | add | sub | and | or | xor | sll | srl | sra | slt | sltu | min | max | mul | mulh | mulhu | div | divu | rem | remu | clz
  | popc | addi | andi | ori | xori | slti | lui | slli | srli | srai | ld | sd | lb | lbu | lh | lhu | lw | lwu | sb | sh | sw
  | lda | stl | flw | fld | fsw | fsd | fldt | fsdt | fcmp | fmvg | fmvf | fsig | fsigset | beq | bne | blt | bge | bltu | bgeu
  | jal | jalr | amoadd | amoswap | amomin | amomax | amocas | mwcas | reqr | rqry | loadimg | launch | killr | preemptKill
  | preemptSnapshot | resumr | strm | sbar | copy | cmpct | publish | coll | waitw | cacheopClean | cacheopInval
  | cacheopFlush | cacheopPfr | cacheopPfw | cacheopIinv => exact needRegs_wait s hr hp _
  | _ => exact nomatch (show r ∈ [] from hr)

/-! ### Reset -/

theorem core_reset (c : CoreId) : State.reset.core c = Core.reset := by
  cases c <;> simp [State.core, State.reset]

theorem part_reset (p : PartId) : State.reset.part p = Partition.reset := by
  simp [State.part, State.reset]

theorem region_reset (r : RegionId) : State.reset.region r = Region.reset := by
  simp [State.region, State.reset]

theorem ctl_reset (r : RegionId) : State.reset.ctl r = RegionCtl.reset := congrArg Region.ctl (region_reset r)

theorem dbg_reset (r : RegionId) : State.reset.dbg r = RegionDbg.reset := congrArg Region.dbg (region_reset r)

theorem die_reset (d : DieId) : State.reset.die d = Die.reset := by
  simp [State.die, State.reset]

theorem pcsAligned_reset : State.reset.pcsAligned := by
  intro c
  rw [core_reset]
  intro x hx
  have h0 : x = 0 := by simpa [Core.reset, TrapRegs.reset] using hx
  rw [h0]
  rfl

/-- Settles O58: every core, partition, region and die stands at its own reset record. -/
theorem resetLeavesTheTabledValues : Obligations.ResetLeavesTheTabledValues := by
  refine ⟨rfl, rfl, rfl, rfl, rfl, by decide, by decide, by decide, by decide, by decide, fun c => ?cores, fun p => ?parts,
    fun r => ?regions, fun d => ?dies⟩
  case cores =>
    rw [core_reset]
    exact ⟨rfl, rfl, rfl, rfl, rfl, rfl, rfl, rfl, rfl, pcsAligned_reset⟩
  case parts =>
    rw [part_reset]
    decide
  case regions =>
    rw [ctl_reset, dbg_reset]
    decide
  case dies =>
    rw [die_reset]
    decide

end Sys2Proof.Machine
end

section
/-!
PROOFS. The core's accesses to memory: loads and stores, FENCE, atomics (R149 to R153, R158, R161).
-/

namespace Sys2Proof.Machine

open Sys2Proof

/-! ### Accesses that meet no cause -/

theorem MRes.All.of_ok {α : Type} {p : State → Prop} {r : MRes α} {a : α} {t : State} (h : r.All p) (hr : r = .ok a t) : p t := by
  rw [hr] at h; exact h

theorem Keeps.me {s t : State} (h : Keeps s t) : t.me = s.me := h.1.me

theorem translate_keeps {s t : State} {x : Ctx} {acc : Access} {va : Word} {l : Xl} (h : translate s x acc va = .ok l t) :
    Keeps s t := (translate_all s x acc va).of_ok h

theorem readAt_keeps {s t : State} {x : Ctx} {l : Xl} {n v : Nat} {va : Word} (h : readAt s x l n va = .ok v t) : Keeps s t :=
  (readAt_all s x l n va).of_ok h

theorem writeAt_keeps {s t : State} {x : Ctx} {l : Xl} {n v : Nat} {va : Word} {u : Unit}
    (h : writeAt s x l v n va = .ok u t) : Keeps s t := (writeAt_all s x l v n va).of_ok h

theorem rmwAt_keeps {s t : State} {x : Ctx} {l : Xl} {n v : Nat} {va : Word} {f : Nat → Option Nat}
    (h : rmwAt s x l n va f = .ok v t) : Keeps s t := (rmwAt_all s x l n va f).of_ok h

theorem keeps_releaseMe (s : State) : Keeps s s.releaseMe := ⟨rfl, fun w => releaseS_wf _ w⟩

theorem keeps_acquireMe (s : State) : Keeps s s.acquireMe := ⟨rfl, fun w => acquireS_wf _ w⟩

theorem State.Loads.keeps {s t : State} {va : Word} {n v : Nat} (h : s.Loads va n v t) : Keeps s t := by
  obtain ⟨-, -, l, s1, ht, hr⟩ := h
  exact (translate_keeps ht).trans (readAt_keeps hr)

theorem State.Stores.keeps {s t : State} {va : Word} {n v : Nat} (h : s.Stores va v n t) : Keeps s t := by
  obtain ⟨-, -, l, s1, ht, hr⟩ := h
  exact (translate_keeps ht).trans (writeAt_keeps hr)

theorem onAccess_ok {α : Type} (s0 : State) {r : MRes α} {a : α} {t : State} (h : r = .ok a t) (k : α → State → Out) :
    onAccess s0 r k = k a t := by rw [h]; rfl

theorem not_aligned_eq_false {va : Word} {n : Nat} (h : va.toNat % n = 0) : (!aligned va n) = false := by simp [aligned, h]

theorem not_aligned_eq_true {va : Word} {n : Nat} (h : va.toNat % n ≠ 0) : (!aligned va n) = true := by simp [aligned, h]

theorem coreLoad_of_loads {s t : State} {va : Word} {n v : Nat} (h : s.Loads va n v t) (k : Nat → State → Out) :
    coreLoad s va n k = k v t := by
  obtain ⟨ha, hw, l, s1, ht, hr⟩ := h
  unfold coreLoad
  rw [not_aligned_eq_false ha, if_neg (by simp), onAccess_ok s ht, hw, if_neg (by simp), onAccess_ok s hr]

theorem coreStore_of_stores {s t : State} {va : Word} {n v : Nat} (h : s.Stores va v n t) (k : State → Out) :
    coreStore s va v n k = k t := by
  obtain ⟨ha, hw, l, s1, ht, hr⟩ := h
  unfold coreStore
  rw [not_aligned_eq_false ha, if_neg (by simp), onAccess_ok s ht, hw, if_neg (by simp), onAccess_ok s hr]

theorem coreLoad_misaligned {s : State} {va : Word} {n : Nat} (h : va.toNat % n ≠ 0) (k : Nat → State → Out) :
    coreLoad s va n k = .next (s.raised cMISALIGN va) :=
  (if_pos (not_aligned_eq_true h)).trans (raise_eq s _ _)

theorem coreStore_misaligned {s : State} {va : Word} {n v : Nat} (h : va.toNat % n ≠ 0) (k : State → Out) :
    coreStore s va v n k = .next (s.raised cMISALIGN va) :=
  (if_pos (not_aligned_eq_true h)).trans (raise_eq s _ _)

/-! ### Completing after an access -/

/-- An access leaves the core as it was: what could complete before it can complete after it. -/
theorem State.Ready.of_me {s t : State} {rs : List Reg} (h : s.Ready rs) (ht : t.me = s.me) : t.Ready rs := by
  unfold State.Ready State.Free at *
  rw [ht]
  exact h

theorem State.Ready.retireG_of_me {s t : State} {rs : List Reg} (h : s.Ready rs) (ht : t.me = s.me) (d : Reg) (v : Word) :
    retireG t d v = .next ((t.wg d v).went (s.me.pc + 4)) := by
  rw [(h.of_me ht).retireG_eq, ht]

theorem State.Ready.retire_wf_of_me {s t : State} {rs : List Reg} (h : s.Ready rs) (ht : t.me = s.me) (d : Reg) (v : Word)
    (tag : BitVec 7) : retire (t.wf d v tag) = .next ((t.wf d v tag).went (s.me.pc + 4)) := by
  rw [(h.of_me ht).retire_wf, ht]

theorem State.Ready.retire_of_me {s t : State} {rs : List Reg} (h : s.Ready rs) (ht : t.me = s.me) :
    retire t = .next (t.went (s.me.pc + 4)) := by
  rw [retire_eq t (h.of_me ht).2, ht]

/-! ### Loads and stores of one access -/

theorem loadG_of_loads {s t : State} {d a : Reg} {va : Word} {n v : Nat} (h : s.Ready [d, a]) (hl : s.Loads va n v t)
    (f : Nat → Word) : loadG s d a va n f = .next ((t.wg d (f v)).went (s.me.pc + 4)) := by
  unfold loadG
  rw [needRegs_eq s h.1, coreLoad_of_loads hl, h.retireG_of_me hl.keeps.me]

theorem exec_lda_of_loads {s t : State} {d a : Reg} {off : BitVec 12} {v : Nat} (h : s.Ready [d, a])
    (hl : s.Loads (effAddr (s.rg a) off) 8 v t) :
    exec (.lda d a off) s = .next ((t.acquireMe.wg d (BitVec.ofNat 64 v)).went (s.me.pc + 4)) := by
  refine (needRegs_eq s h.1 _).trans ((coreLoad_of_loads hl _).trans ?_)
  exact h.retireG_of_me (hl.keeps.trans (keeps_acquireMe t)).me d _

theorem loadF_of_loads {s t : State} {d a : Reg} {va : Word} {n v : Nat} {tag : BitVec 7} (h : s.Ready [a])
    (hl : s.Loads va n v t) :
    (needRegs s [a] <| coreLoad s va n fun v s => retire (s.wf d (BitVec.ofNat 64 v) tag)) =
      .next ((t.wf d (BitVec.ofNat 64 v) tag).went (s.me.pc + 4)) := by
  rw [needRegs_eq s h.1, coreLoad_of_loads hl, h.retire_wf_of_me hl.keeps.me]

theorem store_of_stores {s t : State} {rs : List Reg} {va : Word} {n v : Nat} (h : s.Ready rs) (hs : s.Stores va v n t) :
    (needRegs s rs <| coreStore s va v n retire) = .next (t.went (s.me.pc + 4)) := by
  rw [needRegs_eq s h.1, coreStore_of_stores hs, h.retire_of_me hs.keeps.me]

/-! ### STL, FLDT and FSDT -/

/-- STL comes to its release once its page is found (R99, R151). -/
theorem exec_stl_of_translate {s s1 : State} {d a : Reg} {off : BitVec 12} {t : Xl} (h : s.Ready [d, a])
    (ha : (effAddr (s.rg a) off).toNat % 8 = 0) (hw : watchHit s.me (effAddr (s.rg a) off) 8 true = false)
    (ht : translate s (coreCtx s) .write (effAddr (s.rg a) off) = .ok t s1) :
    exec (.stl d a off) s = needSync s (onAccess s
      (writeAt s1.releaseMe (coreCtx s) t (s.rg d).toNat 8 (effAddr (s.rg a) off)) fun _ s2 => retire s2.releaseMe) := by
  show execStl d a off s = _
  unfold execStl
  dsimp only
  rw [needRegs_eq s h.1, not_aligned_eq_false ha, if_neg (by simp), onAccess_ok s ht, hw, if_neg (by simp)]

theorem needSync_held {s : State} (h : syncHeld s (.coreD s.cur) = true) (k : Out) : needSync s k = .next s := if_pos h

theorem needSync_free {s : State} (h : syncHeld s (.coreD s.cur) = false) (k : Out) : needSync s k = k := if_neg (by simp [h])

theorem exec_stl_held {s s1 : State} {d a : Reg} {off : BitVec 12} {t : Xl} (h : s.Ready [d, a])
    (ha : (effAddr (s.rg a) off).toNat % 8 = 0) (hw : watchHit s.me (effAddr (s.rg a) off) 8 true = false)
    (ht : translate s (coreCtx s) .write (effAddr (s.rg a) off) = .ok t s1) (hh : syncHeld s (.coreD s.cur) = true) :
    exec (.stl d a off) s = .next s := by
  rw [exec_stl_of_translate h ha hw ht, needSync_held hh]

theorem exec_stl_stores {s s1 s' : State} {d a : Reg} {off : BitVec 12} {t : Xl} (h : s.Ready [d, a])
    (ha : (effAddr (s.rg a) off).toNat % 8 = 0) (hw : watchHit s.me (effAddr (s.rg a) off) 8 true = false)
    (ht : translate s (coreCtx s) .write (effAddr (s.rg a) off) = .ok t s1) (hh : syncHeld s (.coreD s.cur) = false)
    (hs : writeAt s1.releaseMe (coreCtx s) t (s.rg d).toNat 8 (effAddr (s.rg a) off) = .ok () s') :
    exec (.stl d a off) s = .next (s'.releaseMe.went (s.me.pc + 4)) := by
  have hk : Keeps s s'.releaseMe :=
    (translate_keeps ht).trans ((keeps_releaseMe s1).trans ((writeAt_keeps hs).trans (keeps_releaseMe s')))
  rw [exec_stl_of_translate h ha hw ht, needSync_free hh, onAccess_ok s hs, h.retire_of_me hk.me]

theorem exec_fldt_loads {s s1 s2 s3 : State} {d a : Reg} {f : FFmt} {off : BitVec 12} {t : Xl} {v tg : Nat}
    (h : s.Ready [a]) (ha : (effAddr (s.rg a) off).toNat % 16 = 0) (hw : watchHit s.me (effAddr (s.rg a) off) 16 false = false)
    (ht : translate s (coreCtx s) .read (effAddr (s.rg a) off) = .ok t s1)
    (h1 : readAt s1 (coreCtx s) t 8 (effAddr (s.rg a) off) = .ok v s2)
    (h2 : readAt s2 (coreCtx s) { t with pa := t.pa + 8 } 8 (effAddr (s.rg a) off + 8) = .ok tg s3) :
    exec (.fldt d a f off) s = .next
      ((s3.wf d (BitVec.ofNat 64 (v % 2 ^ fmtWidth f)) (BitVec.ofNat 7 (min (tg % 128) (fmtPrec f)))).went (s.me.pc + 4)) := by
  have hk : Keeps s s3 := (translate_keeps ht).trans ((readAt_keeps h1).trans (readAt_keeps h2))
  show execFldt d a f off s = _
  unfold execFldt
  dsimp only
  rw [needRegs_eq s h.1, not_aligned_eq_false ha, if_neg (by simp), onAccess_ok s ht, hw, if_neg (by simp), onAccess_ok s h1,
    onAccess_ok s h2, h.retire_wf_of_me hk.me]

theorem exec_fsdt_stores {s s1 s2 s3 : State} {d a : Reg} {off : BitVec 12} {t : Xl}
    (h : s.Ready [a]) (ha : (effAddr (s.rg a) off).toNat % 16 = 0) (hw : watchHit s.me (effAddr (s.rg a) off) 16 true = false)
    (ht : translate s (coreCtx s) .write (effAddr (s.rg a) off) = .ok t s1)
    (h1 : writeAt s1 (coreCtx s) t (s.rf d).val.toNat 8 (effAddr (s.rg a) off) = .ok () s2)
    (h2 : writeAt s2 (coreCtx s) { t with pa := t.pa + 8 } (s.rf d).tag.toNat 8 (effAddr (s.rg a) off + 8) = .ok () s3) :
    exec (.fsdt d a off) s = .next (s3.went (s.me.pc + 4)) := by
  have hk : Keeps s s3 := (translate_keeps ht).trans ((writeAt_keeps h1).trans (writeAt_keeps h2))
  show execFsdt d a off s = _
  unfold execFsdt
  dsimp only
  rw [needRegs_eq s h.1, not_aligned_eq_false ha, if_neg (by simp), onAccess_ok s ht, hw, if_neg (by simp), onAccess_ok s h1,
    onAccess_ok s h2, h.retire_of_me hk.me]

/-- Settles O8: each form is a load or a store of one access, but for STL, FLDT and FSDT. -/
theorem loadsAndStoresMoveTheirBytes : Obligations.LoadsAndStoresMoveTheirBytes := by
  refine ⟨fun s s' d a off off16 v => ⟨fun h => ?loadsG, fun h => ?loadsF⟩,
    fun s s' d a off off16 => ⟨fun h => ?storesG, fun h => ?storesF⟩, fun s s1 s2 s3 t d a f off v tg => ?pairs⟩
  case loadsG =>
    exact ⟨fun hl => ⟨loadG_of_loads h hl _, loadG_of_loads h hl _⟩, fun hl => ⟨loadG_of_loads h hl _, loadG_of_loads h hl _⟩,
      fun hl => ⟨loadG_of_loads h hl _, loadG_of_loads h hl _⟩, fun hl => loadG_of_loads h hl _, exec_lda_of_loads h⟩
  case loadsF => exact ⟨loadF_of_loads h, loadF_of_loads h⟩
  case storesG =>
    exact ⟨store_of_stores h, store_of_stores h, store_of_stores h, store_of_stores h,
      fun t s1 ha hw ht => ⟨exec_stl_held h ha hw ht, exec_stl_stores h ha hw ht⟩⟩
  case storesF => exact ⟨store_of_stores h, store_of_stores h⟩
  case pairs => exact fun h ha => ⟨exec_fldt_loads h ha, exec_fsdt_stores h ha⟩

/-! ### Misaligned accesses -/

theorem needRegs_misaligned {s : State} {rs : List Reg} (h : s.Free rs) {va : Word} {n : Nat} (ha : va.toNat % n ≠ 0) (k : Out) :
    (needRegs s rs <| if !aligned va n then raise s cMISALIGN va else k) = .next (s.raised cMISALIGN va) :=
  (needRegs_eq s h _).trans ((if_pos (not_aligned_eq_true ha)).trans (raise_eq s _ _))

/-- Settles O9: every form looks at the alignment of its address first. -/
theorem misalignedAccessesRaise : Obligations.MisalignedAccessesRaise := by
  intro s d a f off off16 va va16 h
  have ha : s.Free [a] := (h.mono (by simp)).1
  refine ⟨fun hm i hi => ?_, fun hm i hi => ?_, fun hm i hi => ?_, fun hm i hi => ?_, fun hm i hi => ?_⟩
  all_goals simp only [List.mem_cons, List.not_mem_nil, or_false] at hi
  · obtain rfl | rfl | rfl := hi
    all_goals exact needRegs_misaligned h.1 hm _
  · obtain rfl | rfl | rfl | rfl | rfl := hi
    iterate 3 exact needRegs_misaligned h.1 hm _
    all_goals exact needRegs_misaligned ha hm _
  · obtain rfl | rfl | rfl | rfl := hi
    iterate 2 exact needRegs_misaligned ha hm _
    all_goals exact needRegs_misaligned h.1 hm _
  · obtain rfl | rfl := hi
    all_goals exact needRegs_misaligned h.1 hm _
  · obtain rfl | rfl := hi
    all_goals exact needRegs_misaligned ha hm _

/-! ### What writes at home change of the memory system -/

/-- Two memory systems that differ at most in what a write at home changes: memory, what has gone to peers, open windows. -/
def SameButHome (a b : MemSys) : Prop :=
  b = { a with mem := b.mem, net := b.net, peerWrites := b.peerWrites, migrations := b.migrations }

theorem SameButHome.refl (a : MemSys) : SameButHome a a := rfl

theorem SameButHome.trans {a b c : MemSys} (h : SameButHome a b) (k : SameButHome b c) : SameButHome a c := by
  unfold SameButHome at *
  rw [k, h]

theorem SameButHome.slines {a b : MemSys} (h : SameButHome a b) : b.slines = a.slines := by rw [h]
theorem SameButHome.locks {a b : MemSys} (h : SameButHome a b) : b.locks = a.locks := by rw [h]
theorem SameButHome.mwcas {a b : MemSys} (h : SameButHome a b) : b.mwcas = a.mwcas := by rw [h]
theorem SameButHome.recalls {a b : MemSys} (h : SameButHome a b) : b.recalls = a.recalls := by rw [h]

/-- Folding steps that each change no more than a write at home does. -/
theorem SameButHome.foldl {α : Type} {f : MemSys → α → MemSys} (hf : ∀ ms x, SameButHome ms (f ms x)) (l : List α) (ms : MemSys) :
    SameButHome ms (l.foldl f ms) := by
  induction l generalizing ms with
  | nil => rfl
  | cons x l ih => exact (hf ms x).trans (ih _)

theorem putHome_sameButHome (p : PartId) (v n : Nat) (ms : MemSys) (pa : Nat) : SameButHome ms (putHome p v n ms pa) := by
  unfold putHome
  split <;> rfl

theorem homeWrite_sameButHome (p : PartId) (ms : MemSys) (pa v n : Nat) : SameButHome ms (homeWrite p ms pa v n) :=
  (SameButHome.foldl (putHome_sameButHome p v n) _ ms).trans rfl

theorem writeThrough_sameButHome (ms : MemSys) (l : SLine) : SameButHome ms (writeThrough ms l) := by
  refine SameButHome.foldl (fun ms i => ?_) _ ms
  split
  · exact homeWrite_sameButHome _ _ _ _ _
  · rfl

theorem writeThroughs_sameButHome (ls : List SLine) (ms : MemSys) : SameButHome ms (ls.foldl writeThrough ms) :=
  SameButHome.foldl writeThrough_sameButHome ls ms

/-- A release changes beside home the dirty marks of the agent's copies. -/
theorem releaseS_locks (g : Agent) (ms : MemSys) : (releaseS g ms).locks = ms.locks := (writeThroughs_sameButHome _ ms).locks

/-! ### FENCE -/

/-- A release writes every dirty byte of the agent home. -/
theorem dirty_of_mem_releaseS {g : Agent} {ms : MemSys} {l : SLine} (h : l ∈ (releaseS g ms).slines) (hl : l.agent = g) :
    l.dirty = 0 := by
  simp only [releaseS, List.mem_map] at h
  obtain ⟨x, -, rfl⟩ := h
  split at hl
  · next hx => rw [if_pos hx]
  · next hx => exact absurd hl (by simpa using hx)

/-- An acquire drops every copy of an agent that has no dirty byte. -/
theorem agent_ne_of_mem_acquireS {g : Agent} {ms : MemSys} (hs : ∀ l ∈ ms.slines, l.agent = g → l.dirty = 0) :
    ∀ l ∈ (acquireS g ms).slines, l.agent ≠ g := by
  intro l h
  simp only [acquireS, (writeThroughs_sameButHome _ ms).slines, List.mem_filterMap] at h
  obtain ⟨x, hx, h⟩ := h
  split at h
  · next hne =>
    obtain rfl := Option.some.inj h
    simpa using hne
  · next he =>
    have hclean : dirtyLocked ms x = false := by
      rw [dirtyLocked, hs x hx (by simpa using he)]
      rfl
    rw [hclean] at h
    cases h

/-- The state in which a FENCE of a scope has acted on the core's copies of S-lines. -/
def State.fenced (s : State) (sc : Scope) : State := if sc = .core then s.releaseMe else s.releaseMe.acquireMe

theorem State.me_fenced (s : State) (sc : Scope) : (s.fenced sc).me = s.me := by
  unfold State.fenced
  split
  · exact (keeps_releaseMe s).me
  · exact ((keeps_releaseMe s).trans (keeps_acquireMe _)).me

theorem State.ms_fenced (s : State) {sc : Scope} (h : sc ≠ .core) :
    (s.fenced sc).ms = acquireS (.coreD s.cur) (releaseS (.coreD s.cur) s.ms) := by
  rw [State.fenced, if_neg h]
  rfl

theorem exec_fence {s : State} {sc : Scope} (h : s.Ready []) (hh : syncHeld s (.coreD s.cur) = false) :
    exec (.fence sc) s = .next (((s.fenced sc).updMe fun c => { c with icache := [] }).went (s.me.pc + 4)) := by
  have hme : ((s.fenced sc).updMe fun c => { c with icache := [] }).me = { s.me with icache := [] } := by
    rw [State.me_updMe, s.me_fenced]
  refine (needSync_free hh _).trans ((retire_eq ((s.fenced sc).updMe fun c => { c with icache := [] }) ?_).trans ?_)
  · rw [hme]; exact h.2
  · rw [hme]

/-- Settles O11: a release leaves no dirty byte with the core, so that the acquire after it drops every copy. -/
theorem fenceActsOnTheCoresCopies : Obligations.FenceActsOnTheCoresCopies := by
  intro s sc h
  refine ⟨fun hh => needSync_held hh _, fun hh => ⟨_, exec_fence h hh, ?_⟩⟩
  simp only [me_went, State.me_updMe, State.me_fenced, ms_went, State.ms_updMe, true_and]
  refine ⟨fun hc => ?core, fun hc => ?wider⟩
  case core => rw [State.fenced, if_pos hc]; rfl
  case wider =>
    rw [s.ms_fenced hc]
    exact ⟨agent_ne_of_mem_acquireS fun l => dirty_of_mem_releaseS, rfl⟩

/-! ### Atomics -/

theorem atomicPlace_of_memory {va : Word} {t : Xl} (s : State) (h : isDevice t.pa = false) : atomicPlace va t s = .ok t s :=
  if_neg (by simp [h])

/-- An atomic whose access meets no cause comes to its read-modify-write, which waits at a lock when it releases. -/
theorem amo_of_translate {s s1 : State} {d a : Reg} {uses : List Reg} {w signed : Bool} {ord : Order} {f : Nat → Option Nat}
    {t : Xl} (h : s.Free (d :: a :: uses)) (ha : (s.rg a).toNat % amoBytes w = 0)
    (ht : translate s (coreCtx s) .write (s.rg a) = .ok t s1) (hd : isDevice t.pa = false)
    (hr : watchHit s.me (s.rg a) (amoBytes w) false = false) (hw : watchHit s.me (s.rg a) (amoBytes w) true = false) :
    amo s d a uses w ord signed f =
      let k : Out := onAccess s (rmwAt (if ordRel ord then s1.releaseMe else s1) (coreCtx s) t (amoBytes w) (s.rg a) f)
        fun old s2 => retireG (if ordAcq ord then s2.acquireMe else s2) d (amoResult (amoBytes w) signed old)
      if ordRel ord then needSync s k else k := by
  have hp : (translate s (coreCtx s) .write (s.rg a)).bind (atomicPlace (s.rg a)) = .ok t s1 := by
    rw [ht]; exact atomicPlace_of_memory s1 hd
  unfold amo
  dsimp only
  rw [needRegs_eq s h, not_aligned_eq_false ha, if_neg (by simp), onAccess_ok s hp, hr, hw, if_neg (by simp)]

theorem ordRel_iff (o : Order) : ordRel o = true ↔ o = .rl ∨ o = .ar := by cases o <;> decide
theorem ordAcq_iff (o : Order) : ordAcq o = true ↔ o = .aq ∨ o = .ar := by cases o <;> decide
theorem ordRel_eq (o : Order) : ordRel o = (o == .rl || o == .ar) := by cases o <;> decide

/-- An atomic that releases waits while a lock covers what the core would write. -/
theorem amo_held {s s1 : State} {d a : Reg} {uses : List Reg} {w signed : Bool} {ord : Order} {f : Nat → Option Nat}
    {t : Xl} (h : s.Free (d :: a :: uses)) (ha : (s.rg a).toNat % amoBytes w = 0)
    (ht : translate s (coreCtx s) .write (s.rg a) = .ok t s1) (hd : isDevice t.pa = false)
    (hr : watchHit s.me (s.rg a) (amoBytes w) false = false) (hw : watchHit s.me (s.rg a) (amoBytes w) true = false)
    (hh : (ordRel ord && syncHeld s (.coreD s.cur)) = true) : amo s d a uses w ord signed f = .next s := by
  rw [Bool.and_eq_true] at hh
  rw [amo_of_translate h ha ht hd hr hw]
  dsimp only
  rw [if_pos hh.1, needSync_held hh.2]

theorem amo_performs {s s1 s2 : State} {d a : Reg} {uses : List Reg} {w signed : Bool} {ord : Order} {f : Nat → Option Nat}
    {t : Xl} {old : Nat} (h : s.Ready (d :: a :: uses)) (ha : (s.rg a).toNat % amoBytes w = 0)
    (ht : translate s (coreCtx s) .write (s.rg a) = .ok t s1) (hd : isDevice t.pa = false)
    (hr : watchHit s.me (s.rg a) (amoBytes w) false = false) (hw : watchHit s.me (s.rg a) (amoBytes w) true = false)
    (hh : (ordRel ord && syncHeld s (.coreD s.cur)) = false)
    (hs : rmwAt (if ordRel ord then s1.releaseMe else s1) (coreCtx s) t (amoBytes w) (s.rg a) f = .ok old s2) :
    amo s d a uses w ord signed f =
      .next (((if ordAcq ord then s2.acquireMe else s2).wg d (amoResult (amoBytes w) signed old)).went (s.me.pc + 4)) := by
  have hrel : Keeps s1 (if ordRel ord then s1.releaseMe else s1) := by
    split
    · exact keeps_releaseMe s1
    · exact Keeps.refl s1
  have hacq : Keeps s2 (if ordAcq ord then s2.acquireMe else s2) := by
    split
    · exact keeps_acquireMe s2
    · exact Keeps.refl s2
  have hk := (translate_keeps ht).trans (hrel.trans ((rmwAt_keeps hs).trans hacq))
  have hout : (onAccess s (rmwAt (if ordRel ord then s1.releaseMe else s1) (coreCtx s) t (amoBytes w) (s.rg a) f)
      fun old s2 => retireG (if ordAcq ord then s2.acquireMe else s2) d (amoResult (amoBytes w) signed old)) =
      .next (((if ordAcq ord then s2.acquireMe else s2).wg d (amoResult (amoBytes w) signed old)).went (s.me.pc + 4)) :=
    (onAccess_ok s hs _).trans (h.retireG_of_me hk.me d _)
  rw [amo_of_translate h.1 ha ht hd hr hw]
  dsimp only
  rw [hout]
  split
  · next hrel => exact needSync_free (by simpa [hrel] using hh) _
  · rfl

/-! ### The read-modify-write at home (R158) -/

theorem dirWrite_migrations (g : Option Agent) (pa : Nat) (now : Word) (ms : MemSys) :
    (dirWrite g pa now ms).migrations = ms.migrations := by
  unfold dirWrite
  dsimp only
  cases ms.dir.find? (dirCovers · pa) with
  | none => rfl
  | some e => dsimp only; split <;> rfl

/-- Flushing a line of which no agent of a list holds a copy changes nothing. -/
theorem flushSLines_of_none {line : Nat} {gs : List Agent} {ms : MemSys} (h : ∀ g ∈ gs, findSLine ms g line = none) :
    gs.foldl (flushSLine · line) ms = ms := by
  induction gs with
  | nil => rfl
  | cons g gs ih =>
    have hg : flushSLine ms line g = ms := by rw [flushSLine, h g (by simp)]
    rw [List.foldl_cons, hg]
    exact ih fun x hx => h x (by simp [hx])

/-- With no window open, a write at home in this device's memory writes the bytes there alone. -/
theorem homeWrite_mem_of_no_window {p : PartId} {ms : MemSys} {pa : Nat} (hm : ms.migrations = []) (hp : isPeer pa = false)
    (v n : Nat) : (homeWrite p ms pa v n).mem = Memory.writeLE ms.mem pa v n := by
  simp [homeWrite, mirrors, hm, putHome, hp]

theorem homeCheck_ok {s : State} {x : Ctx} {pa n : Nat} (va : Word) (hk : keyErased s x = false)
    (hl : (linesOf pa n).any (lockedBy s x) = false) (hf : lineFault s x (linesOf pa n) = none) :
    homeCheck s x pa n va false = .ok () s := by
  simp [homeCheck, hk, hl, hf]

theorem readHome_of_memory {s : State} {x : Ctx} {pa : Nat} (hp : isPeer pa = false) (hd : isDevice pa = false) (n : Nat) :
    readHome s x pa n = .ok (Memory.readLE s.ms.mem pa n) s := by
  simp [readHome, hp, hd]

theorem writeHome_mem_of_no_window {s : State} {x : Ctx} {pa : Nat} (hm : s.ms.migrations = []) (hp : isPeer pa = false)
    (hd : isDevice pa = false) (v n : Nat) : (writeHome s x pa v n).ms.mem = Memory.writeLE s.ms.mem pa v n := by
  rw [writeHome, if_neg (by simp [hd])]
  exact homeWrite_mem_of_no_window hm hp v n

/-- A read-modify-write at home returns the bytes as they stand and leaves a write of the new ones. -/
theorem rmwAt_of_memory {s : State} {x : Ctx} {t : Xl} {n v : Nat} {f : Nat → Option Nat} (va : Word)
    (hd : isDevice t.pa = false) (hp : isPeer t.pa = false) (hk : keyErased s x = false)
    (hl : (linesOf t.pa n).any (lockedBy s x) = false) (hf : lineFault s x (linesOf t.pa n) = none)
    (hs : ∀ g ∈ x.agent :: x.mates, findSLine s.ms g (lineOf t.pa) = none) (hm : s.ms.migrations = [])
    (hv : f (Memory.readLE s.ms.mem t.pa n) = some v) :
    ∃ u, rmwAt s x t n va f = .ok (Memory.readLE s.ms.mem t.pa n) u ∧ u.ms.mem = Memory.writeLE s.ms.mem t.pa v n := by
  have hmem : ∀ s1 : State, s1.ms.mem = s.ms.mem → s1.ms.migrations = [] →
      ∃ u, ((readHome s1 x t.pa n).bind fun old s => MRes.ok old (match f old with | some v => writeHome s x t.pa v n | none => s)) =
        .ok (Memory.readLE s.ms.mem t.pa n) u ∧ u.ms.mem = Memory.writeLE s.ms.mem t.pa v n := by
    intro s1 h1 h2
    refine ⟨writeHome s1 x t.pa v n, ?_, ?_⟩
    · rw [readHome_of_memory hp hd, h1]
      simp only [MRes.bind, hv]
    · rw [writeHome_mem_of_no_window h2 hp hd, h1]
  rw [rmwAt, homeCheck_ok va hk hl hf]
  show ∃ u, (readHome _ x t.pa n).bind _ = _ ∧ _
  split
  · exact hmem _ (dirWrite_mem _ _ _ _) ((dirWrite_migrations _ _ _ _).trans hm)
  · have hfl := flushSLines_of_none hs
    exact hmem _ (congrArg MemSys.mem hfl) ((congrArg MemSys.migrations hfl).trans hm)

/-- Settles O12: the five forms are one read-modify-write with five functions, and at home it is a read and a write of memory. -/
theorem atomicsReadModifyWrite : Obligations.AtomicsReadModifyWrite := by
  refine ⟨?forms, ?home⟩
  case forms =>
    intro s s1 s2 x d a b u w ord old h n va arg num low result s1' s2' held gives ha ht hd hr hw
    have hresult : ∀ sg, amoResult (amoBytes w) sg old = result sg := fun sg => by cases w <;> rfl
    have hs1 : (if ordRel ord then s1.releaseMe else s1) = s1' := by simp only [ordRel_iff]; rfl
    have hs2 : (if ordAcq ord then s2.acquireMe else s2) = s2' := by simp only [ordAcq_iff]; rfl
    have hheld : (ordRel ord && syncHeld s (.coreD s.cur)) = held := by rw [ordRel_eq]
    have form : ∀ i sg f, exec i s = amo s d a [b] w ord sg f → gives i sg f := by
      intro i sg f hi
      refine ⟨fun hh => ?_, fun hh hrmw => ?_⟩
      · exact hi.trans (amo_held h.1 ha ht hd hr hw (hheld.trans hh))
      · rw [hi, amo_performs h ha ht hd hr hw (hheld.trans hh) (by rw [hs1]; exact hrmw), hs2, hresult]
    exact ⟨form _ _ _ rfl, form _ _ _ rfl, form _ _ _ rfl, form _ _ _ rfl, form _ _ _ rfl⟩
  case home =>
    intro s x t n va f v hwf hd hp hk hl hf hs hm hv
    obtain ⟨u, hu, hmem⟩ := rmwAt_of_memory va hd hp hk hl hf hs hm hv
    refine ⟨u, hu, ?_, fun pa hpa => ?_⟩
    · rw [hmem, Memory.readLE_writeLE hwf]
    · rw [State.byteAt, hmem]
      exact Memory.read_writeLE_ne hwf _ _ _ _ hpa

end Sys2Proof.Machine
end

section
/-!
PROOFS. What a load or a store of a core leaves alone at home (R85, R88, R93, R150): every step of an access keeps the memory
system within the addresses that the access may write.
-/

namespace Sys2Proof.Machine

open Sys2Proof

/-! ### Writes at home, byte by byte (R93) -/

/-- A place and its mirrors lie in a set of addresses. -/
def Covered (P : Nat → Prop) (ms : MemSys) (pa : Nat) : Prop := P pa ∧ ∀ y ∈ mirrors ms pa, P y

/-- What an access on behalf of an agent may have made of a memory system: outside the addresses P every byte is as it was, the
windows mirror the same places, and, where S-lines take part, each dirty byte that the agent holds belongs to P. -/
structure Within (g : Agent) (S : Prop) (P : Nat → Prop) (a b : MemSys) : Prop where
  wf : Memory.wf b.mem = true
  mirrors_eq : ∀ pa, mirrors b pa = mirrors a pa
  bytes : ∀ pa, ¬P pa → Memory.read b.mem pa = Memory.read a.mem pa
  dirty : S → ∀ l ∈ b.slines, l.agent = g → ∀ i < 128, l.dirty.getLsbD i = true → Covered P a (l.line * 128 + i)

variable {g : Agent} {S : Prop} {P : Nat → Prop} {a b c : MemSys}

/-- Only memory, the windows and the copies count. -/
theorem Within.congr (h : Within g S P a b) (hm : c.mem = b.mem) (hw : c.migrations = b.migrations)
    (hs : c.slines = b.slines) : Within g S P a c where
  wf := by rw [hm]; exact h.wf
  mirrors_eq pa := by rw [mirrors, hw]; exact h.mirrors_eq pa
  bytes := by rw [hm]; exact h.bytes
  dirty := by rw [hs]; exact h.dirty

theorem Within.dropSome (h : Within g S P a b) (hm : c.mem = b.mem) (hw : c.migrations = b.migrations)
    (hs : ∀ l ∈ c.slines, l ∈ b.slines) : Within g S P a c where
  wf := by rw [hm]; exact h.wf
  mirrors_eq pa := by rw [mirrors, hw]; exact h.mirrors_eq pa
  bytes := by rw [hm]; exact h.bytes
  dirty hS l hl := h.dirty hS l (hs l hl)

theorem Memory.read_writeLE_of_not_mem {m : Memory} (w : Memory.wf m = true) {q v n pa : Nat} (h : ∀ i < n, pa ≠ q + i) :
    Memory.read (Memory.writeLE m q v n) pa = Memory.read m pa := by
  by_cases hlt : pa < q
  · exact Memory.read_writeLE_ne w _ _ _ _ (.inl hlt)
  · by_cases hn : pa < q + n
    · exact absurd (by omega) (h (pa - q) (by omega))
    · exact Memory.read_writeLE_ne w _ _ _ _ (.inr (by omega))

theorem Within.putHome (h : Within g S P a b) (p : PartId) (v : Nat) {n q : Nat} (hq : ∀ i < n, P (q + i)) :
    Within g S P a (putHome p v n b q) := by
  unfold Machine.putHome
  split
  · exact h.congr rfl rfl rfl
  · exact {
      wf := Memory.wf_writeLE h.wf _ _ _
      mirrors_eq := h.mirrors_eq
      bytes := fun pa hpa => (Memory.read_writeLE_of_not_mem h.wf fun i hi e => hpa (by rw [e]; exact hq i hi)).trans (h.bytes pa hpa)
      dirty := h.dirty }

theorem Within.putHomes (h : Within g S P a b) (p : PartId) (v : Nat) {n : Nat} {qs : List Nat}
    (hq : ∀ q ∈ qs, ∀ i < n, P (q + i)) : Within g S P a (qs.foldl (Machine.putHome p v n) b) := by
  induction qs generalizing b with
  | nil => exact h
  | cons q qs ih => exact ih (h.putHome p v (hq q (by simp))) fun r hr => hq r (by simp [hr])

theorem mirrors_noteWrote (q n : Nat) (ms : MemSys) (pa : Nat) : mirrors (noteWrote q n ms) pa = mirrors ms pa := by
  simp only [mirrors, noteWrote, List.filterMap_map]
  congr 1
  funext m
  simp only [Function.comp_apply]
  split <;> rfl

theorem Within.noteWrote (h : Within g S P a b) (q n : Nat) : Within g S P a (noteWrote q n b) where
  wf := h.wf
  mirrors_eq pa := (mirrors_noteWrote q n b pa).trans (h.mirrors_eq pa)
  bytes := h.bytes
  dirty := h.dirty

/-- A write at home reaches its bytes and their places in open windows. -/
theorem Within.homeWrite (h : Within g S P a b) (p : PartId) (v : Nat) {n q : Nat}
    (hq : ∀ y ∈ q :: mirrors a q, ∀ i < n, P (y + i)) : Within g S P a (homeWrite p b q v n) := by
  unfold Machine.homeWrite
  rw [h.mirrors_eq q]
  exact (h.putHomes p v hq).noteWrote q n

/-! ### S-lines (R88) -/

theorem Within.writeThrough (h : Within g S P a b) {l : SLine}
    (hl : ∀ i < 128, l.dirty.getLsbD i = true → Covered P a (l.line * 128 + i)) : Within g S P a (writeThrough b l) := by
  unfold Machine.writeThrough
  have go : ∀ (is : List Nat) (b : MemSys), (∀ i ∈ is, i < 128) → Within g S P a b →
      Within g S P a (is.foldl (fun ms i => if l.dirty.getLsbD i then
        Machine.homeWrite l.part ms (l.line * 128 + i) (l.data.extractLsb' (8 * i) 8).toNat 1 else ms) b) := by
    intro is
    induction is with
    | nil => exact fun b _ h => h
    | cons i is ih =>
      intro b hi h
      refine ih _ (fun j hj => hi j (by simp [hj])) ?_
      dsimp only
      split
      · next hd =>
        obtain ⟨h0, hm⟩ := hl i (hi i (by simp)) hd
        refine h.homeWrite _ _ fun y hy k hk => ?_
        obtain rfl : k = 0 := by omega
        rcases List.mem_cons.1 hy with rfl | hy
        · exact h0
        · exact hm y hy
      · exact h
  exact go _ b (by simp) h

theorem Within.writeThroughs (h : Within g S P a b) {ls : List SLine}
    (hl : ∀ l ∈ ls, ∀ i < 128, l.dirty.getLsbD i = true → Covered P a (l.line * 128 + i)) :
    Within g S P a (ls.foldl Machine.writeThrough b) := by
  induction ls generalizing b with
  | nil => exact h
  | cons l ls ih => exact ih (h.writeThrough (hl l (by simp))) fun x hx => hl x (by simp [hx])

theorem agent_of_findSLine {ms : MemSys} {line : Nat} {l : SLine} (h : findSLine ms g line = some l) :
    l ∈ ms.slines ∧ l.agent = g ∧ l.line = line := by
  have := List.find?_some h
  rw [Bool.and_eq_true, beq_iff_eq, beq_iff_eq] at this
  exact ⟨List.mem_of_find?_eq_some h, this⟩

theorem Within.flushSLine (h : Within g S P a b) (hS : S) (line : Nat) : Within g S P a (flushSLine b line g) := by
  unfold Machine.flushSLine
  split
  · next l hl =>
    obtain ⟨hmem, hg, -⟩ := agent_of_findSLine hl
    exact (h.writeThrough (h.dirty hS l hmem hg)).dropSome rfl rfl fun x hx => (List.mem_filter.1 hx).1
  · exact h

theorem Within.releaseS (h : Within g S P a b) (hS : S) : Within g S P a (releaseS g b) := by
  have hw := h.writeThroughs (ls := b.slines.filter (·.agent == g)) fun l hl =>
    h.dirty hS l (List.mem_filter.1 hl).1 (by simpa using (List.mem_filter.1 hl).2)
  exact {
    wf := hw.wf
    mirrors_eq := hw.mirrors_eq
    bytes := hw.bytes
    dirty := fun _ l hl hg i _ hd => by
      rw [dirty_of_mem_releaseS hl hg] at hd
      simp at hd }

/-- An acquire writes home what no lock holds back; what it leaves dirty was dirty before. -/
theorem Within.acquireS (h : Within g S P a b) (hS : S) : Within g S P a (acquireS g b) := by
  have hw := h.writeThroughs (ls := b.slines.filter fun l => l.agent == g && !dirtyLocked b l) fun l hl => by
    obtain ⟨hm, hp⟩ := List.mem_filter.1 hl
    rw [Bool.and_eq_true, beq_iff_eq] at hp
    exact h.dirty hS l hm hp.1
  refine ⟨hw.wf, hw.mirrors_eq, hw.bytes, fun _ l hl hg i hi hd => ?_⟩
  simp only [Machine.acquireS, (writeThroughs_sameButHome _ b).slines, List.mem_filterMap] at hl
  obtain ⟨x, hx, hl⟩ := hl
  split at hl
  · next hne =>
    obtain rfl := Option.some.inj hl
    exact absurd hg (by simpa using hne)
  · next he =>
    split at hl
    · have hxl : l.line = x.line ∧ l.dirty = x.dirty := by
        rw [← Option.some.inj hl]
        split <;> exact ⟨rfl, rfl⟩
      rw [hxl.1]
      exact h.dirty hS x hx (by simpa using he) i hi (hxl.2 ▸ hd)
    · cases hl

/-- The copy that an access fills is clean. -/
theorem Within.fillSLine (h : Within g S P a b) {x : Filler} (line : Nat) : Within g S P a (Machine.fillSLine b x line).2 := by
  unfold Machine.fillSLine
  split
  · exact h
  · refine ⟨h.wf, h.mirrors_eq, h.bytes, fun hS l hl hg i hi hd => ?_⟩
    rcases List.mem_cons.1 hl with rfl | hl
    · simp at hd
    · exact h.dirty hS l hl hg i hi hd

theorem fillSLine_own (b : MemSys) (x : Filler) (line : Nat) :
    (Machine.fillSLine b x line).1 ∈ (Machine.fillSLine b x line).2.slines ∧ (Machine.fillSLine b x line).1.agent = x.agent ∧
      (Machine.fillSLine b x line).1.line = line := by
  unfold Machine.fillSLine
  split
  · next l hl => exact agent_of_findSLine hl
  · exact ⟨List.mem_cons_self, rfl, rfl⟩

theorem Within.sRead (h : Within g S P a b) (x : Filler) (pa n : Nat) : Within g S P a (sRead b x pa n).2 :=
  h.fillSLine (x := x) (lineOf pa)

/-- The dirty marks that a store of n bytes at an address sets are those of its bytes. -/
theorem le_of_dirtyMark {pa n i : Nat} (h : (BitVec.ofNat 128 ((2 ^ n - 1) * 2 ^ (pa % 128))).getLsbD i = true) :
    pa % 128 ≤ i ∧ i < pa % 128 + n := by
  rw [BitVec.getLsbD_ofNat, Bool.and_eq_true, Nat.testBit_mul_two_pow, Nat.testBit_two_pow_sub_one] at h
  simp at h
  omega

theorem Within.sWrite (h : Within g S P a b) {x : Filler} (hx : x.agent = g) (hm : x.mates = []) {pa n : Nat} (v : Nat)
    (hq : ∀ i < n, Covered P a (pa + i)) : Within g S P a (sWrite b x pa v n) := by
  have hf := h.fillSLine (x := x) (lineOf pa)
  obtain ⟨hown, hagent, hline⟩ := fillSLine_own b x (lineOf pa)
  refine ⟨hf.wf, hf.mirrors_eq, hf.bytes, fun hS l hl hg i hi hd => ?_⟩
  rcases List.mem_cons.1 hl with rfl | hl
  · simp only [BitVec.getLsbD_or, Bool.or_eq_true] at hd
    rcases hd with hd | hd
    · exact hf.dirty hS _ hown (hagent.trans hx) i hi hd
    · obtain ⟨hlo, hhi⟩ := le_of_dirtyMark hd
      have : (Machine.fillSLine b x (lineOf pa)).1.line * 128 + i = pa + (i - pa % 128) := by
        rw [hline, lineOf]
        omega
      exact this ▸ hq (i - pa % 128) (by omega)
  · have hl' : l ∈ (Machine.fillSLine b x (lineOf pa)).2.slines := by
      obtain ⟨y, hy, he⟩ := List.mem_map.1 hl
      rw [if_neg (by simp [hm])] at he
      exact he ▸ (List.mem_filter.1 hy).1
    exact hf.dirty hS l hl' hg i hi hd

/-! ### Accesses at a physical place -/

theorem dirRead_eq (o : Option Agent) (pa : Nat) (now : Word) (ms : MemSys) :
    dirRead o pa now ms = { ms with dir := (dirRead o pa now ms).dir } := by
  unfold dirRead
  split
  · split <;> rfl
  · dsimp only; split <;> rfl

theorem dirWrite_eq (o : Option Agent) (pa : Nat) (now : Word) (ms : MemSys) :
    dirWrite o pa now ms = { ms with dir := (dirWrite o pa now ms).dir } := by
  unfold dirWrite
  dsimp only
  cases ms.dir.find? (dirCovers · pa) with
  | none => rfl
  | some e => dsimp only; split <;> rfl

theorem Within.dirRead (h : Within g S P a b) (o : Option Agent) (pa : Nat) (now : Word) : Within g S P a (dirRead o pa now b) := by
  rw [dirRead_eq]
  exact h.congr rfl rfl rfl

theorem Within.dirWrite (h : Within g S P a b) (o : Option Agent) (pa : Nat) (now : Word) :
    Within g S P a (dirWrite o pa now b) := by
  rw [dirWrite_eq]
  exact h.congr rfl rfl rfl

variable {s t u : State} {x : Ctx}

theorem Within.askHome (h : Within g S P a s.ms) (x : Ctx) (pa n : Nat) : Within g S P a (askHome s x pa n).ms := by
  unfold Machine.askHome
  split
  · exact h.congr rfl rfl rfl
  · exact h

theorem Within.readHome (h : Within g S P a s.ms) {pa n v : Nat} (hr : readHome s x pa n = .ok v t) : Within g S P a t.ms := by
  unfold Machine.readHome at hr
  split at hr
  · split at hr
    · cases hr; exact h.askHome x pa n
    · cases hr; exact h
  · cases hr; exact h

theorem Within.writeHome (h : Within g S P a s.ms) (x : Ctx) {pa n : Nat} (v : Nat)
    (hq : ∀ y ∈ pa :: mirrors a pa, ∀ i < n, P (y + i)) : Within g S P a (writeHome s x pa v n).ms := by
  unfold Machine.writeHome
  split
  · exact h.congr rfl rfl rfl
  · exact h.homeWrite _ v hq

theorem Within.makeRoom (h : Within g S P a s.ms) (hS : S) {line : Nat} {k : Unit} (hr : makeRoom s g line = .ok k t) :
    Within g S P a t.ms := by
  unfold Machine.makeRoom at hr
  dsimp only at hr
  split at hr
  · cases hr; exact h
  · split at hr
    · cases hr
    · cases hr; exact h.flushSLine hS _

theorem homeCheck_eq {pa n : Nat} {va : Word} {w : Bool} {k : Unit} (h : homeCheck s x pa n va w = .ok k t) : t = s :=
  (homeCheck_all s x pa n va w).of_ok h

/-- A checked access that ends well has passed the checks of home. -/
theorem MRes.bind_ok {α β : Type} {r : MRes α} {k : α → State → MRes β} {v : β} (h : r.bind k = .ok v t) :
    ∃ a u, r = .ok a u ∧ k a u = .ok v t := by
  cases r with
  | ok a u => exact ⟨a, u, rfl, h⟩
  | trap | wait => cases h

theorem Within.readAt (h : Within g S P a s.ms) (hg : x.agent = g) (hm : x.mates = []) {l : Xl} (hS : l.coh = 1 → S)
    {n v : Nat} {va : Word} (hr : readAt s x l n va = .ok v t) : Within g S P a t.ms := by
  obtain ⟨_, u, hc, hk⟩ := MRes.bind_ok hr
  obtain rfl := homeCheck_eq hc
  split at hk
  · cases hk
    exact h.dirRead _ _ _
  · split at hk
    · next hs =>
      rw [Bool.and_eq_true, beq_iff_eq] at hs
      obtain ⟨_, w, hroom, hk⟩ := MRes.bind_ok hk
      rw [hg] at hroom
      have hw := (h.makeRoom (hS hs.1) hroom).sRead (fillerOf w x) l.pa n
      cases hk
      split
      · exact hw
      · exact Within.askHome (s := { w with ms := _ }) hw x _ _
    · rw [if_neg (by simp [hm])] at hk
      exact h.readHome hk

theorem Within.clear (h : Within g S P a s.ms) (c : Bool) (line : Nat) :
    Within g S P a (if c then s.updMs (clearLine line) else s).ms := by
  split
  · exact h.congr rfl rfl rfl
  · exact h

theorem Within.writeAt (h : Within g S P a s.ms) (hg : x.agent = g) (hm : x.mates = []) {l : Xl} (hS : l.coh = 1 → S)
    {n v : Nat} {va : Word} {k : Unit} (hq : ∀ y ∈ l.pa :: mirrors a l.pa, ∀ i < n, P (y + i))
    (hc : ∀ i < n, Covered P a (l.pa + i)) (hr : writeAt s x l v n va = .ok k t) : Within g S P a t.ms := by
  obtain ⟨_, u, hck, hk⟩ := MRes.bind_ok hr
  obtain rfl := homeCheck_eq hck
  dsimp only at hk
  split at hk
  · cases hk
    exact (Within.writeHome (s := u.updMs _) (h.dirWrite _ _ _) x v hq).clear _ _
  · split at hk
    · next hs =>
      rw [Bool.and_eq_true, beq_iff_eq] at hs
      obtain ⟨_, w, hroom, hk⟩ := MRes.bind_ok hk
      rw [hg] at hroom
      have hw := (h.makeRoom (hS hs.1) hroom).sWrite (x := fillerOf w x) hg hm v hc
      cases hk
      split
      · exact hw
      · exact Within.askHome (s := { w with ms := _ }) hw x _ _
    · rw [if_neg (by simp [hm])] at hk
      cases hk
      exact (h.writeHome x v hq).clear _ _

/-! ### Translating (R82 to R86) -/

/-- What the checks of the table lines change: requests have gone to peers. -/
theorem tableCheck_ok {va : Word} {pas : List Nat} {k : Unit} (h : tableCheck s x va pas = .ok k t) :
    t = { s with ms := { s.ms with net := t.ms.net } } := by
  induction pas generalizing s with
  | nil => cases h; rfl
  | cons pa pas ih =>
    obtain ⟨_, u, hc, hk⟩ := MRes.bind_ok h
    obtain rfl := homeCheck_eq hc
    split at hk
    · cases hk
    · rw [ih hk]
      split <;> rfl

/-- A walk reads memory and the supply of free values alone. -/
theorem walk_congr {s t : State} (hm : t.ms.mem = s.ms.mem) (hf : t.fresh = s.fresh) (root va : Word) :
    walk t root va = walk s root va := by
  have hp : ∀ pa, readPte t pa = readPte s pa := fun pa => by rw [readPte, readPte, hm, hf]
  unfold walk
  simp only [hp]

/-- A walk writes at most the mark of the leaf that it finds. -/
theorem Within.walkInstall (h : Within g S P s.ms s.ms) {p : PartId} {acc : Access} {va : Word} {e : TlbEntry}
    (hq : ∀ l, walk s (s.part p).ptroot va = .ok l → ∀ y ∈ l.at_ :: mirrors s.ms l.at_, ∀ i < 8, P (y + i))
    (hr : walkInstall s x p acc va = .ok e t) : Within g S P s.ms t.ms := by
  obtain ⟨_, u, hc, hr⟩ := MRes.bind_ok hr
  have hu := tableCheck_ok hc
  have hpart : u.part p = s.part p := by rw [hu]; rfl
  rw [walk_congr (s := s) (by rw [hu]) (by rw [hu]), hpart] at hr
  cases hw : walk s (s.part p).ptroot va with
  | error c => rw [hw] at hr; cases hr
  | ok l =>
    rw [hw] at hr
    obtain ⟨_, v, hc, hr⟩ := MRes.bind_ok hr
    have hv := tableCheck_ok hc
    have hin : Within g S P s.ms v.ms := by
      rw [hv, hu]
      exact h.congr rfl rfl rfl
    split at hr
    · cases hr
    · split at hr
      · cases hr
        refine Within.congr (b := if _ then v.ms else _) ?_ rfl rfl rfl
        split
        · exact hin
        · exact (hin.dirWrite _ _ _).homeWrite _ _ (hq l hw)
      · cases hr

theorem Within.translate (h : Within g S P s.ms s.ms) {acc : Access} {va : Word} {l : Xl}
    (hq : ∀ p f, x.part = some p → walk s (s.part p).ptroot va = .ok f → ∀ y ∈ f.at_ :: mirrors s.ms f.at_, ∀ i < 8, P (y + i))
    (hr : translate s x acc va = .ok l t) : Within g S P s.ms t.ms := by
  unfold Machine.translate at hr
  split at hr
  · cases hr
  · split at hr
    · cases hr
    · next p hp =>
      split at hr
      · cases hr
      · obtain ⟨e, u, he, hr⟩ := MRes.bind_ok hr
        have hu : Within g S P s.ms u.ms := by
          split at he
          · split at he
            · cases he; exact h
            · cases he
          · exact h.walkInstall (fun f => hq p f hp) he
        dsimp only at hr
        split at hr
        · cases hr
        · cases hr; exact hu

/-! ### The addresses that an access of the current core may write -/

/-- Addresses that an access at a VA may write: the mark of its leaf, where S-lines take part (`S`) the dirty bytes that the core
holds, and n bytes at each of its places with their mirrors. -/
def State.mayWrite (s : State) (va : Word) (S : Prop) (places : List Nat) (n pa : Nat) : Prop :=
  pa ∈ s.markedBy va ∨ (S ∧ pa ∈ s.dirtyHeld) ∨
    ∃ q ∈ places, ∃ i < n, pa = q + i ∨ pa ∈ mirrors s.ms (q + i) ∨ ∃ y ∈ mirrors s.ms q, pa = y + i

variable {va : Word} {places : List Nat} {n : Nat}

theorem within_self (hw : Memory.wf s.ms.mem = true) :
    Within (.coreD s.cur) S (s.mayWrite va S places n) s.ms s.ms := by
  refine ⟨hw, fun _ => rfl, fun _ _ => rfl, fun hS l hl hg i hi hd => ?_⟩
  have hin : ∀ q ∈ (128 * l.line + i) :: mirrors s.ms (128 * l.line + i), q ∈ s.dirtyHeld := by
    intro q hq
    simp only [State.dirtyHeld, List.mem_flatMap, List.mem_filter, List.mem_range, beq_iff_eq]
    exact ⟨l, ⟨hl, hg⟩, i, ⟨hi, hd⟩, hq⟩
  rw [Nat.mul_comm l.line 128]
  exact ⟨.inr (.inl ⟨hS, hin _ (by simp)⟩), fun y hy => .inr (.inl ⟨hS, hin y (by simp [hy])⟩)⟩

/-- The mark of a leaf lies among the addresses that an access may write. -/
theorem mayWrite_leaf {p : PartId} {f : Leaf} (hp : s.me.part = some p) (hf : walk s (s.part p).ptroot va = .ok f) :
    ∀ y ∈ f.at_ :: mirrors s.ms f.at_, ∀ i < 8, s.mayWrite va S places n (y + i) := by
  intro y hy i hi
  left
  simp only [State.markedBy, hp, hf, List.mem_flatMap, List.mem_range, List.mem_map]
  exact ⟨i, hi, y, hy, rfl⟩

theorem mayWrite_place {q : Nat} (hq : q ∈ places) :
    ∀ y ∈ q :: mirrors s.ms q, ∀ i < n, s.mayWrite va S places n (y + i) := by
  intro y hy i hi
  refine .inr (.inr ⟨q, hq, i, hi, ?_⟩)
  rcases List.mem_cons.1 hy with rfl | hy
  · exact .inl rfl
  · exact .inr (.inr ⟨y, hy, rfl⟩)

theorem covered_place {q : Nat} (hq : q ∈ places) : ∀ i < n, Covered (s.mayWrite va S places n) s.ms (q + i) :=
  fun i hi => ⟨.inr (.inr ⟨q, hq, i, hi, .inl rfl⟩), fun _ hy => .inr (.inr ⟨q, hq, i, hi, .inr (.inl hy)⟩)⟩

theorem within_translate {acc : Access} {l : Xl} (hw : Memory.wf s.ms.mem = true)
    (ht : translate s (coreCtx s) acc va = .ok l t) :
    Within (.coreD s.cur) S (s.mayWrite va S places n) s.ms t.ms :=
  (within_self hw).translate (fun _ _ hp hf => mayWrite_leaf hp hf) ht

theorem within_loads {l : Xl} {v : Nat} {s' : State} (hw : Memory.wf s.ms.mem = true) (hl : s.Loads va n v s')
    (ht : translate s (coreCtx s) .read va = .ok l t) (hS : l.coh = 1 → S) :
    Within (.coreD s.cur) S (s.mayWrite va S places 0) s.ms s'.ms := by
  obtain ⟨-, -, l', t', ht', hr⟩ := hl
  obtain ⟨rfl, rfl⟩ := MRes.ok.inj (ht'.symm.trans ht)
  exact (within_translate hw ht).readAt rfl rfl hS hr

theorem within_stores {l : Xl} {v : Nat} {s' : State} (hw : Memory.wf s.ms.mem = true) (hs : s.Stores va v n s')
    (ht : translate s (coreCtx s) .write va = .ok l t) (hS : l.coh = 1 → S) :
    Within (.coreD s.cur) S (s.mayWrite va S [l.pa] n) s.ms s'.ms := by
  obtain ⟨-, -, l', t', ht', hr⟩ := hs
  obtain ⟨rfl, rfl⟩ := MRes.ok.inj (ht'.symm.trans ht)
  exact (within_translate hw ht).writeAt rfl rfl hS (mayWrite_place (by simp)) (covered_place (by simp)) hr

/-- What lies within the addresses that an access may write is as it was elsewhere. -/
theorem Within.byteAt (h : Within (.coreD s.cur) S (s.mayWrite va S places n) s.ms t.ms) (pa : Nat) (hm : pa ∉ s.markedBy va)
    (hd : S → pa ∉ s.dirtyHeld)
    (hq : ∀ q ∈ places, ∀ i < n, pa ≠ q + i ∧ pa ∉ mirrors s.ms (q + i) ∧ ∀ y ∈ mirrors s.ms q, pa ≠ y + i) :
    t.byteAt pa = s.byteAt pa := by
  refine h.bytes pa ?_
  rintro (h1 | ⟨hS, h2⟩ | ⟨q, hqm, i, hi, h3⟩)
  · exact hm h1
  · exact hd hS h2
  · obtain ⟨hne, hnm, hny⟩ := hq q hqm i hi
    rcases h3 with h3 | h3 | ⟨y, hy, h3⟩
    · exact hne h3
    · exact hnm h3
    · exact hny y hy h3

/-! ### The bytes read and stored on pages at home -/

theorem readAt_of_memory {l : Xl} {v : Nat} (hp : isPeer l.pa = false) (hd : isDevice l.pa = false) (hc : l.coh ≠ 1)
    (hm : x.mates = []) (hr : readAt s x l n va = .ok v t) : v = Memory.readLE s.ms.mem l.pa n := by
  obtain ⟨_, u, hck, hk⟩ := MRes.bind_ok hr
  obtain rfl := homeCheck_eq hck
  have hc1 : (l.coh == 1#2) = false := beq_eq_false_iff_ne.2 hc
  split at hk
  · cases hk; rfl
  · rw [if_neg (by simp [hc1]), if_neg (by simp [hm]), readHome_of_memory hp hd] at hk
    cases hk
    rfl

theorem writeAt_of_memory {l : Xl} {v : Nat} {k : Unit} (hp : isPeer l.pa = false) (hd : isDevice l.pa = false)
    (hc : l.coh ≠ 1) (hm : x.mates = []) (hw : s.ms.migrations = []) (hr : writeAt s x l v n va = .ok k t) :
    t.ms.mem = Memory.writeLE s.ms.mem l.pa v n := by
  obtain ⟨_, u, hck, hk⟩ := MRes.bind_ok hr
  obtain rfl := homeCheck_eq hck
  have hc1 : (l.coh == 1#2) = false := beq_eq_false_iff_ne.2 hc
  have clear : ∀ (c : Bool) (w : State), (if c then w.updMs (clearLine (lineOf l.pa)) else w).ms.mem = w.ms.mem := by
    intro c w
    split <;> rfl
  dsimp only at hk
  split at hk
  · cases hk
    rw [clear, writeHome_mem_of_no_window ((dirWrite_migrations _ _ _ _).trans hw) hp hd, State.ms_updMs_eq, dirWrite_mem]
  · rw [if_neg (by simp [hc1]), if_neg (by simp [hm])] at hk
    cases hk
    rw [clear, writeHome_mem_of_no_window hw hp hd]

/-! ### What completing leaves alone -/

/-- Everything but the registers, pc and DBGC.SKIP of the current core, memory and the supply of free values is the same. -/
def State.Kept (s t : State) : Prop :=
  t.me.fcsr = s.me.fcsr ∧ t.me.sigctl = s.me.sigctl ∧ t.me.ts = s.me.ts ∧ t.me.th = s.me.th ∧ t.me.level = s.me.level ∧
    t.me.timecmp = s.me.timecmp ∧ t.me.sel = s.me.sel ∧ t.me.dbgwva = s.me.dbgwva ∧
    t.me.dbgc &&& ~~~2#64 = s.me.dbgc &&& ~~~2#64 ∧ t.me.pend = s.me.pend ∧
    (∀ c, c ≠ s.cur → t.core c = s.core c) ∧ t.parts = s.parts ∧ t.regions = s.regions ∧ t.dies = s.dies ∧
    t.syscfg = s.syscfg ∧ t.ops = s.ops ∧ t.ports = s.ports

/-- A change of a core's registers. -/
def RegsOnly (k : Core → Core) : Prop := ∀ c, k c = { c with g := (k c).g, f := (k c).f }

theorem regsOnly_wg (d : Reg) (v : Word) : RegsOnly (·.wg d v) := by
  intro c
  unfold Core.wg
  split <;> rfl

theorem regsOnly_wf (d : Reg) (v : Word) (tag : BitVec 7) : RegsOnly (·.wf d v tag) := fun _ => rfl

theorem regsOnly_id : RegsOnly id := fun _ => rfl

theorem State.setCore_self (s : State) (c : CoreId) : s.setCore c (s.core c) = s := by
  cases c <;> simp [State.setCore, State.core]

theorem State.updMe_id (s : State) : s.updMe id = s := s.setCore_self s.cur

theorem Kept.of_went {s u : State} (h : SameButMs s u) {k : Core → Core} (hk : RegsOnly k) (pc : Word) :
    s.Kept ((u.updMe k).went pc) := by
  have hd : ∀ d : Word, d &&& ~~~2#64 &&& ~~~2#64 = d &&& ~~~2#64 := fun d => by rw [BitVec.and_assoc, BitVec.and_self]
  have hc : ∀ c, c ≠ s.cur → ((u.updMe k).went pc).core c = s.core c := fun c hc => by
    rw [State.went, State.updMe, State.core_updCore_ne _ (by rwa [State.cur_updMe, h.cur]), State.updMe,
      State.core_updCore_ne _ (by rwa [h.cur]), h.core]
  unfold State.Kept
  rw [me_went, State.me_updMe, hk, h.me]
  refine ⟨rfl, rfl, rfl, rfl, rfl, rfl, rfl, rfl, ?_, rfl, hc, ?_⟩
  · dsimp only
    split
    · exact hd _
    · rfl
  · rw [h]
    simp [State.went, State.updMe]

/-! ### Frames of the completed instructions -/

theorem intoG_of_went {s u : State} (h : SameButMs s u) (d : Reg) (v pc : Word) :
    s.Kept ((u.wg d v).went pc) ∧ ((u.wg d v).went pc).me.f = s.me.f ∧ ∀ r, r ≠ d → ((u.wg d v).went pc).rg r = s.rg r := by
  refine ⟨Kept.of_went h (regsOnly_wg d v) pc, by simp [h.me], fun r hr => ?_⟩
  rw [State.rg, me_went, State.me_wg, h.me]
  exact Core.rg_wg_ne s.me hr v

theorem Core.rf_wf_ne (c : Core) {r q : Reg} (h : q ≠ r) (v : Word) (tag : BitVec 7) : (c.wf r v tag).rf q = c.rf q := by
  unfold Core.rf Core.wf
  rw [Vector.getElem_set_ne]
  exact fun e => h (BitVec.eq_of_toNat_eq e.symm)

theorem intoF_of_went {s u : State} (h : SameButMs s u) (d : Reg) (v pc : Word) (tag : BitVec 7) :
    s.Kept ((u.wf d v tag).went pc) ∧ ((u.wf d v tag).went pc).me.g = s.me.g ∧
      ∀ r, r ≠ d → ((u.wf d v tag).went pc).rf r = s.rf r := by
  refine ⟨Kept.of_went h (regsOnly_wf d v tag) pc, by simp [h.me], fun r hr => ?_⟩
  rw [State.rf, me_went, State.me_wf, h.me]
  exact Core.rf_wf_ne s.me hr v tag

theorem stored_of_went {s u : State} (h : SameButMs s u) (pc : Word) :
    s.Kept (u.went pc) ∧ (u.went pc).me.g = s.me.g ∧ (u.went pc).me.f = s.me.f := by
  have hk := Kept.of_went h regsOnly_id pc
  rw [u.updMe_id] at hk
  exact ⟨hk, by simp [h.me], by simp [h.me]⟩

@[simp] theorem State.ms_wg (s : State) (d : Reg) (v : Word) : (s.wg d v).ms = s.ms := s.ms_updMe _
@[simp] theorem State.ms_wf (s : State) (d : Reg) (v : Word) (tag : BitVec 7) : (s.wf d v tag).ms = s.ms := s.ms_updMe _

/-- Bytes that an access may not write are as they were. -/
def SameAt (s : State) (va : Word) (S : Prop) (places : List Nat) (n : Nat) (t : State) : Prop :=
  ∀ pa, pa ∉ s.markedBy va → (S → pa ∉ s.dirtyHeld) →
    (∀ q ∈ places, ∀ i < n, pa ≠ q + i ∧ pa ∉ mirrors s.ms (q + i) ∧ ∀ y ∈ mirrors s.ms q, pa ≠ y + i) →
    t.byteAt pa = s.byteAt pa

theorem loads_plain {l : Xl} {v : Nat} {s' : State} (hl : s.Loads va n v s')
    (ht : translate s (coreCtx s) .read va = .ok l t) :
    (isPeer l.pa = false ∧ isDevice l.pa = false ∧ l.coh ≠ 1) → v = Memory.readLE t.ms.mem l.pa n := by
  rintro ⟨hp, hd, hc⟩
  obtain ⟨-, -, l', t', ht', hr⟩ := hl
  obtain ⟨rfl, rfl⟩ := MRes.ok.inj (ht'.symm.trans ht)
  exact readAt_of_memory hp hd hc rfl hr

theorem stores_plain {l : Xl} {v : Nat} {s' : State} (hw : Memory.wf s.ms.mem = true) (hs : s.Stores va v n s')
    (ht : translate s (coreCtx s) .write va = .ok l t) :
    (isPeer l.pa = false ∧ isDevice l.pa = false ∧ l.coh ≠ 1) → t.ms.migrations = [] →
      Memory.readLE s'.ms.mem l.pa n = v % 256 ^ n := by
  rintro ⟨hp, hd, hc⟩ hm
  have hwt := (translate_keeps ht).2 hw
  obtain ⟨-, -, l', t', ht', hr⟩ := hs
  obtain ⟨rfl, rfl⟩ := MRes.ok.inj (ht'.symm.trans ht)
  rw [writeAt_of_memory hp hd hc rfl hm hr, Memory.readLE_writeLE hwt]

theorem loadG_frame {d a : Reg} {i : Instr} {l : Xl} {v : Nat} {s' : State} {f : Nat → Word} (far : Prop)
    (hw : Memory.wf s.ms.mem = true) (h : s.Ready [d, a]) (hi : exec i s = loadG s d a va n f) (hl : s.Loads va n v s')
    (ht : translate s (coreCtx s) .read va = .ok l t) :
    ((isPeer l.pa = false ∧ isDevice l.pa = false ∧ l.coh ≠ 1) → v = Memory.readLE t.ms.mem l.pa n) ∧
      ∃ u, exec i s = .next u ∧ (s.Kept u ∧ u.me.f = s.me.f ∧ ∀ r, r ≠ d → u.rg r = s.rg r) ∧
        SameAt s va (l.coh = 1 ∨ far) [] 0 u := by
  refine ⟨loads_plain hl ht, _, hi.trans (loadG_of_loads h hl f), intoG_of_went hl.keeps.1 _ _ _, ?_⟩
  refine Within.byteAt ?_
  simpa using within_loads hw hl ht .inl

theorem lda_frame {d a : Reg} {off : BitVec 12} {l : Xl} {v : Nat} {s' : State} {far : Prop} (hfar : far)
    (hw : Memory.wf s.ms.mem = true) (h : s.Ready [d, a]) (hl : s.Loads (effAddr (s.rg a) off) 8 v s')
    (ht : translate s (coreCtx s) .read (effAddr (s.rg a) off) = .ok l t) :
    ((isPeer l.pa = false ∧ isDevice l.pa = false ∧ l.coh ≠ 1) → v = Memory.readLE t.ms.mem l.pa 8) ∧
      ∃ u, exec (.lda d a off) s = .next u ∧ (s.Kept u ∧ u.me.f = s.me.f ∧ ∀ r, r ≠ d → u.rg r = s.rg r) ∧
        SameAt s (effAddr (s.rg a) off) (l.coh = 1 ∨ far) [] 0 u := by
  refine ⟨loads_plain hl ht, _, exec_lda_of_loads h hl, intoG_of_went (hl.keeps.trans (keeps_acquireMe s')).1 _ _ _, ?_⟩
  refine Within.byteAt ?_
  have hin := (within_loads (places := []) hw hl ht (S := l.coh = 1 ∨ far) .inl).acquireS (.inr hfar)
  have hms : s'.acquireMe.ms = acquireS (.coreD s.cur) s'.ms := by rw [State.acquireMe, hl.keeps.1.cur]
  simpa [hms] using hin

theorem loadF_frame {d a : Reg} {i : Instr} {l : Xl} {v : Nat} {s' : State} {tag : BitVec 7} (far : Prop)
    (hw : Memory.wf s.ms.mem = true) (h : s.Ready [a])
    (hi : exec i s = needRegs s [a] (coreLoad s va n fun v s => retire (s.wf d (BitVec.ofNat 64 v) tag)))
    (hl : s.Loads va n v s') (ht : translate s (coreCtx s) .read va = .ok l t) :
    ((isPeer l.pa = false ∧ isDevice l.pa = false ∧ l.coh ≠ 1) → v = Memory.readLE t.ms.mem l.pa n) ∧
      ∃ u, exec i s = .next u ∧ (s.Kept u ∧ u.me.g = s.me.g ∧ ∀ r, r ≠ d → u.rf r = s.rf r) ∧
        SameAt s va (l.coh = 1 ∨ far) [] 0 u := by
  refine ⟨loads_plain hl ht, _, hi.trans (loadF_of_loads h hl), intoF_of_went hl.keeps.1 _ _ _ _, ?_⟩
  refine Within.byteAt ?_
  simpa using within_loads hw hl ht .inl

theorem store_frame {rs : List Reg} {i : Instr} {l : Xl} {v : Nat} {s' : State} (far : Prop)
    (hw : Memory.wf s.ms.mem = true) (h : s.Ready rs) (hi : exec i s = needRegs s rs (coreStore s va v n retire))
    (hs : s.Stores va v n s') (ht : translate s (coreCtx s) .write va = .ok l t) :
    ∃ u, exec i s = .next u ∧ (s.Kept u ∧ u.me.g = s.me.g ∧ u.me.f = s.me.f) ∧ SameAt s va (l.coh = 1 ∨ far) [l.pa] n u ∧
      ((isPeer l.pa = false ∧ isDevice l.pa = false ∧ l.coh ≠ 1) → t.ms.migrations = [] →
        Memory.readLE u.ms.mem l.pa n = v % 256 ^ n) := by
  refine ⟨_, hi.trans (store_of_stores h hs), stored_of_went hs.keeps.1 _, ?_, ?_⟩
  · refine Within.byteAt ?_
    simpa using within_stores hw hs ht .inl
  · simpa using stores_plain hw hs ht

theorem stl_frame {s1 s' : State} {d a : Reg} {off : BitVec 12} {l : Xl} {far : Prop} (hfar : far)
    (hw : Memory.wf s.ms.mem = true) (h : s.Ready [d, a]) (ha : (effAddr (s.rg a) off).toNat % 8 = 0)
    (hwatch : watchHit s.me (effAddr (s.rg a) off) 8 true = false)
    (ht : translate s (coreCtx s) .write (effAddr (s.rg a) off) = .ok l s1) (hh : syncHeld s (.coreD s.cur) = false)
    (hs : writeAt s1.releaseMe (coreCtx s) l (s.rg d).toNat 8 (effAddr (s.rg a) off) = .ok () s') :
    ∃ u, exec (.stl d a off) s = .next u ∧ (s.Kept u ∧ u.me.g = s.me.g ∧ u.me.f = s.me.f) ∧
      SameAt s (effAddr (s.rg a) off) (l.coh = 1 ∨ far) [l.pa] 8 u := by
  have hk1 := translate_keeps ht
  have hk2 : Keeps s s' := hk1.trans ((keeps_releaseMe s1).trans (writeAt_keeps hs))
  have hms1 : s1.releaseMe.ms = releaseS (.coreD s.cur) s1.ms := by rw [State.releaseMe, hk1.1.cur]
  have hms2 : s'.releaseMe.ms = releaseS (.coreD s.cur) s'.ms := by rw [State.releaseMe, hk2.1.cur]
  refine ⟨_, exec_stl_stores h ha hwatch ht hh hs, stored_of_went (hk2.trans (keeps_releaseMe s')).1 _, Within.byteAt ?_⟩
  have hrel := (within_translate (places := [l.pa]) (n := 8) (S := l.coh = 1 ∨ far) hw ht).releaseS (.inr hfar)
  rw [← hms1] at hrel
  have hout := (hrel.writeAt rfl rfl .inl (mayWrite_place (by simp)) (covered_place (by simp)) hs).releaseS (.inr hfar)
  simpa [hms2] using hout

theorem fldt_frame {s1 s2 s3 : State} {d a : Reg} {f : FFmt} {off : BitVec 12} {l : Xl} {v tg : Nat} (far : Prop)
    (hw : Memory.wf s.ms.mem = true) (h : s.Ready [a]) (ha : (effAddr (s.rg a) off).toNat % 16 = 0)
    (hwatch : watchHit s.me (effAddr (s.rg a) off) 16 false = false)
    (ht : translate s (coreCtx s) .read (effAddr (s.rg a) off) = .ok l s1)
    (h1 : readAt s1 (coreCtx s) l 8 (effAddr (s.rg a) off) = .ok v s2)
    (h2 : readAt s2 (coreCtx s) { l with pa := l.pa + 8 } 8 (effAddr (s.rg a) off + 8) = .ok tg s3) :
    ∃ u, exec (.fldt d a f off) s = .next u ∧ (s.Kept u ∧ u.me.g = s.me.g ∧ ∀ r, r ≠ d → u.rf r = s.rf r) ∧
      SameAt s (effAddr (s.rg a) off) (l.coh = 1 ∨ far) [] 0 u := by
  have hk : Keeps s s3 := (translate_keeps ht).trans ((readAt_keeps h1).trans (readAt_keeps h2))
  refine ⟨_, exec_fldt_loads h ha hwatch ht h1 h2, intoF_of_went hk.1 _ _ _ _, Within.byteAt ?_⟩
  have hin := ((within_translate (places := []) (n := 0) (S := l.coh = 1 ∨ far) hw ht).readAt rfl rfl .inl h1).readAt
    (l := { l with pa := l.pa + 8 }) rfl rfl .inl h2
  simpa using hin

theorem fsdt_frame {s1 s2 s3 : State} {d a : Reg} {off : BitVec 12} {l : Xl} (far : Prop)
    (hw : Memory.wf s.ms.mem = true) (h : s.Ready [a]) (ha : (effAddr (s.rg a) off).toNat % 16 = 0)
    (hwatch : watchHit s.me (effAddr (s.rg a) off) 16 true = false)
    (ht : translate s (coreCtx s) .write (effAddr (s.rg a) off) = .ok l s1)
    (h1 : writeAt s1 (coreCtx s) l (s.rf d).val.toNat 8 (effAddr (s.rg a) off) = .ok () s2)
    (h2 : writeAt s2 (coreCtx s) { l with pa := l.pa + 8 } (s.rf d).tag.toNat 8 (effAddr (s.rg a) off + 8) = .ok () s3) :
    ∃ u, exec (.fsdt d a off) s = .next u ∧ (s.Kept u ∧ u.me.g = s.me.g ∧ u.me.f = s.me.f) ∧
      SameAt s (effAddr (s.rg a) off) (l.coh = 1 ∨ far) [l.pa, l.pa + 8] 8 u := by
  have hk : Keeps s s3 := (translate_keeps ht).trans ((writeAt_keeps h1).trans (writeAt_keeps h2))
  refine ⟨_, exec_fsdt_stores h ha hwatch ht h1 h2, stored_of_went hk.1 _, Within.byteAt ?_⟩
  have hin := ((within_translate (places := [l.pa, l.pa + 8]) (n := 8) (S := l.coh = 1 ∨ far) hw ht).writeAt rfl rfl .inl
    (mayWrite_place (by simp)) (covered_place (by simp)) h1).writeAt (l := { l with pa := l.pa + 8 }) rfl rfl .inl
    (mayWrite_place (by simp)) (covered_place (by simp)) h2
  simpa using hin

/-- Settles O10: every form translates and accesses once or twice, and each step keeps within what the access may write. -/
theorem loadsAndStoresLeaveTheRestAlone : Obligations.LoadsAndStoresLeaveTheRestAlone := by
  intro s d a f off off16 x s1 hw h va va16 kept intoG intoF stored same plain
  have ha : s.Ready [a] := h.mono (by simp)
  refine ⟨fun i hi v s' hl ht => ?loadsG, fun i hi v s' hl ht => ?loadsF, fun v tg s2 s3 hal hwatch ht h1 h2 => ?fldt,
    fun i hi s' hs ht => ?stores, fun s' hal hwatch ht hh hs => ?stl, fun s2 s3 hal hwatch ht h1 h2 => ?fsdt⟩
  case loadsG =>
    simp only [List.mem_cons, List.not_mem_nil, or_false] at hi
    obtain rfl | rfl | rfl | rfl | rfl | rfl | rfl | rfl := hi
    iterate 7 exact loadG_frame _ hw h rfl hl ht
    exact lda_frame rfl hw h hl ht
  case loadsF =>
    simp only [List.mem_cons, List.not_mem_nil, or_false] at hi
    obtain rfl | rfl := hi
    all_goals exact loadF_frame False hw ha rfl hl ht
  case fldt => exact fldt_frame False hw ha hal hwatch ht h1 h2
  case stores =>
    simp only [List.mem_cons, List.not_mem_nil, or_false] at hi
    obtain rfl | rfl | rfl | rfl | rfl | rfl := hi
    iterate 4 exact store_frame False hw h rfl hs ht
    all_goals exact store_frame False hw ha rfl hs ht
  case stl => exact stl_frame trivial hw h hal hwatch ht hh hs
  case fsdt => exact fsdt_frame False hw ha hal hwatch ht h1 h2

end Sys2Proof.Machine
end

section
/-!
PROOFS. The floating-point instructions of the cores: one rounding, tags, flags and traps (R50, R51, R66, R154 to R156).
-/

namespace Sys2Proof.Machine

open Sys2Proof

/-! ### Flags and enabled exceptions (R51) -/

theorem getLsbD_raiseFlags_of_le (fcsr : Word) (fl : FpFlags) {i : Nat} (h : 5 ≤ i) :
    (raiseFlags fcsr fl).getLsbD i = fcsr.getLsbD i := by
  have hb : fl.bits.getLsbD i = false := BitVec.getLsbD_of_ge _ _ h
  simp [raiseFlags, hb]

theorem enabledCause_raiseFlags (fcsr : Word) (fl gl : FpFlags) :
    enabledCause (raiseFlags fcsr gl) fl = enabledCause fcsr fl := by
  simp only [enabledCause, getLsbD_raiseFlags_of_le fcsr gl (show 5 ≤ 12 by decide),
    getLsbD_raiseFlags_of_le fcsr gl (show 5 ≤ 11 by decide), getLsbD_raiseFlags_of_le fcsr gl (show 5 ≤ 10 by decide),
    getLsbD_raiseFlags_of_le fcsr gl (show 5 ≤ 9 by decide), getLsbD_raiseFlags_of_le fcsr gl (show 5 ≤ 8 by decide)]

theorem bits_getLsbD (fl : FpFlags) : fl.bits.getLsbD 4 = fl.nv ∧ fl.bits.getLsbD 3 = fl.dz ∧ fl.bits.getLsbD 2 = fl.of ∧
    fl.bits.getLsbD 1 = fl.uf ∧ fl.bits.getLsbD 0 = fl.nx := by
  obtain ⟨nv, dz, of, uf, nx⟩ := fl
  revert nv dz of uf nx
  decide

/-- No exception traps when none of the signalled flags is enabled. -/
theorem enabledCause_of_noFpTrap {s : State} {fl : FpFlags} (h : s.NoFpTrap fl) : enabledCause s.me.fcsr fl = none := by
  obtain ⟨h4, h3, h2, h1, h0⟩ := bits_getLsbD fl
  have hbit : ∀ i < 5, (fl.bits.getLsbD i && s.me.fcsr.getLsbD (8 + i)) = false := by
    intro i hi
    have := congrArg (BitVec.getLsbD · i) h
    simpa [hi] using this
  have hnv : (fl.nv && s.me.fcsr.getLsbD 12) = false := h4 ▸ hbit 4 (by omega)
  have hdz : (fl.dz && s.me.fcsr.getLsbD 11) = false := h3 ▸ hbit 3 (by omega)
  have hof : (fl.of && s.me.fcsr.getLsbD 10) = false := h2 ▸ hbit 2 (by omega)
  have huf : (fl.uf && s.me.fcsr.getLsbD 9) = false := h1 ▸ hbit 1 (by omega)
  have hnx : (fl.nx && s.me.fcsr.getLsbD 8) = false := h0 ▸ hbit 0 (by omega)
  simp only [enabledCause, hnv, hdz, hof, huf, hnx, Bool.false_eq_true, if_false]

theorem State.me_withFlags (s : State) (fl : FpFlags) : (s.withFlags fl).me = { s.me with fcsr := raiseFlags s.me.fcsr fl } := by
  rw [State.withFlags, State.me_updMe]
  rfl

theorem State.enabledCause_withFlags (s : State) (fl : FpFlags) :
    enabledCause (s.withFlags fl).me.fcsr fl = enabledCause s.me.fcsr fl := by
  rw [s.me_withFlags]
  exact enabledCause_raiseFlags _ _ _

theorem State.Ready.withFlags {s : State} {rs : List Reg} (h : s.Ready rs) (fl : FpFlags) : (s.withFlags fl).Ready rs := by
  unfold State.Ready State.Free at *
  rw [s.me_withFlags]
  exact h

theorem State.pc_withFlags (s : State) (fl : FpFlags) : (s.withFlags fl).me.pc = s.me.pc := by rw [s.me_withFlags]

/-! ### The end of R154 -/

/-- `fpFinish` in the state that has kept the flags. -/
theorem fpFinish_eq (s : State) (d : Reg) (bits : Nat) (fl : FpFlags) (tag : Nat) (xs : List Nat) :
    fpFinish s d bits fl tag xs = match enabledCause s.me.fcsr fl with
      | some c => raise (s.withFlags fl) c 0
      | none => if sigLow s.me.sigctl tag xs then
          raise (s.withFlags fl) cSIGLOW (BitVec.ofNat 64 (tag + 256 * sigThr s.me.sigctl))
        else retire ((s.withFlags fl).wf d (BitVec.ofNat 64 bits) (BitVec.ofNat 7 tag)) := by
  have hsig : (s.withFlags fl).me.sigctl = s.me.sigctl := by rw [s.me_withFlags]
  rw [← s.enabledCause_withFlags, ← hsig]
  rfl

theorem sigLow_of_noSigLow {s : State} {tag : Nat} {xs : List Nat} (h : s.NoSigLow tag xs) : sigLow s.me.sigctl tag xs = false := by
  rw [Bool.eq_false_iff]
  intro hlow
  simp only [sigLow, sigEn, Bool.and_eq_true, decide_eq_true_eq, List.all_eq_true] at hlow
  obtain ⟨⟨hen, hlt⟩, hxs⟩ := hlow
  rcases h hen with h | ⟨x, hx, h⟩
  · omega
  · exact absurd (hxs x hx) (by omega)

theorem fpGives_of_finish {s : State} {i : Instr} {d : Reg} {bits : Nat} {fl : FpFlags} {tag : Nat} {xs : List Nat}
    (h : s.Ready []) (hi : exec i s = fpFinish s d bits fl tag xs) : s.FpGives i d bits fl tag xs := by
  intro htrap hlow
  rw [hi, fpFinish_eq, enabledCause_of_noFpTrap htrap]
  dsimp only
  rw [if_neg (by simp [sigLow_of_noSigLow hlow]), (h.withFlags fl).retire_wf, s.pc_withFlags]

theorem fpTraps_of_finish {s : State} {i : Instr} {d : Reg} {bits : Nat} {fl : FpFlags} {tag : Nat} {xs : List Nat}
    (hi : exec i s = fpFinish s d bits fl tag xs) : s.FpTraps i fl tag xs := by
  refine ⟨fun c hc => ?_, fun htrap hen hlt hxs => ?_⟩
  · rw [hi, fpFinish_eq, hc]
    exact raise_eq _ _ _
  · have hlow : sigLow s.me.sigctl tag xs = true := by simpa [sigLow, sigEn, hen, hlt] using hxs
    rw [hi, fpFinish_eq, enabledCause_of_noFpTrap htrap]
    exact (if_pos hlow).trans (raise_eq _ _ _)

theorem withMode_of_some {s : State} {rm m : RMode} (h : resolveRm s.me.fcsr rm = some m) (i : Instr) (k : RMode → Out) :
    withMode s rm i k = k m := by
  rw [withMode, h]

/-! ### The arithmetic forms -/

/-- Settles O14: every form rounds its exact result once and ends as R154 says. -/
theorem floatArithmeticRoundsOnce : Obligations.FloatArithmeticRoundsOnce := by
  intro s d a b c rm m f h hm F x y z sx sy sz gives
  exact ⟨fpGives_of_finish h (withMode_of_some hm _ _), fpGives_of_finish h (withMode_of_some hm _ _),
    fpGives_of_finish h (withMode_of_some hm _ _), fpGives_of_finish h (withMode_of_some hm _ _),
    fpGives_of_finish h (withMode_of_some hm _ _), fpGives_of_finish h (withMode_of_some hm _ _),
    fpGives_of_finish h (withMode_of_some hm _ _)⟩

/-! ### Instructions that keep flags and end otherwise -/

/-- Keeps the signalled flags and goes on, unless one of them is enabled and traps (R51). -/
def flagged (s : State) (fl : FpFlags) (k : State → Out) : Out :=
  match enabledCause (s.withFlags fl).me.fcsr fl with
  | some c => raise (s.withFlags fl) c 0
  | none => k (s.withFlags fl)

theorem flagged_goes {s : State} {fl : FpFlags} (h : s.NoFpTrap fl) (k : State → Out) : flagged s fl k = k (s.withFlags fl) := by
  rw [flagged, s.enabledCause_withFlags, enabledCause_of_noFpTrap h]

theorem flagged_traps {s : State} {fl : FpFlags} {c : BitVec 8} (h : enabledCause s.me.fcsr fl = some c) (k : State → Out) :
    flagged s fl k = .next ((s.withFlags fl).raised c 0) := by
  rw [flagged, s.enabledCause_withFlags, h]
  exact raise_eq _ _ _

theorem flagged_retireG {s : State} {fl : FpFlags} {rs : List Reg} (h : s.NoFpTrap fl) (hr : s.Ready rs) (d : Reg) (v : Word) :
    flagged s fl (retireG · d v) = .next (((s.withFlags fl).wg d v).went (s.me.pc + 4)) := by
  rw [flagged_goes h, (hr.withFlags fl).retireG_eq, s.pc_withFlags]

theorem flagged_retire_wf {s : State} {fl : FpFlags} {rs : List Reg} (h : s.NoFpTrap fl) (hr : s.Ready rs) (d : Reg) (v : Word)
    (tag : BitVec 7) : flagged s fl (fun s => retire (s.wf d v tag)) = .next (((s.withFlags fl).wf d v tag).went (s.me.pc + 4)) := by
  rw [flagged_goes h, (hr.withFlags fl).retire_wf, s.pc_withFlags]

/-! ### Selections and comparisons -/

/-- FMIN and FMAX end with the operand that `minMax` selects, or the canonical NaN. -/
theorem fpMinMax_eq (s : State) (max : Bool) (d a b : Reg) (f : FFmt) :
    fpMinMax s max d a b f = match minMax max (opVal (s.rf a) f) (opVal (s.rf b) f) with
      | none => fpFinish s d (canonNaN (fmtOf f)) { nv := isSNaN (opVal (s.rf a) f) || isSNaN (opVal (s.rf b) f) } 0
          [opTag (s.rf a) f, opTag (s.rf b) f]
      | some fromA =>
        fpFinish s d (opBits (s.rf (if fromA then a else b)) f)
          { nv := isSNaN (opVal (s.rf a) f) || isSNaN (opVal (s.rf b) f) }
          (finalTag (fmtOf f) (opVal (s.rf (if fromA then a else b)) f) true (opTag (s.rf (if fromA then a else b)) f))
          [opTag (s.rf a) f, opTag (s.rf b) f] := by
  unfold fpMinMax
  dsimp only
  cases minMax max (opVal (s.rf a) f) (opVal (s.rf b) f) with
  | none => rfl
  | some fromA => cases fromA <;> rfl

section
variable (max : Bool) {x y : FVal}

theorem minMax_nan_nan (hx : isNaN x = true) (hy : isNaN y = true) : minMax max x y = none := by simp [minMax, hx, hy]

theorem minMax_nan_left (hx : isNaN x = true) (hy : isNaN y = false) : minMax max x y = some false := by simp [minMax, hx, hy]

theorem minMax_nan_right (hx : isNaN x = false) (hy : isNaN y = true) : minMax max x y = some true := by simp [minMax, hx, hy]

theorem minMax_num (hx : isNaN x = false) (hy : isNaN y = false) :
    minMax max x y = some (if max then !ltTotal x y else !ltTotal y x) := by simp [minMax, hx, hy]

end

section
variable {s : State} {max : Bool} {d a b : Reg} {f : FFmt} {i : Instr} (h : s.Ready []) (hi : exec i s = fpMinMax s max d a b f)
include h hi

theorem fpGives_minMax {fromA : Bool} {z : Reg} (hm : minMax max (opVal (s.rf a) f) (opVal (s.rf b) f) = some fromA)
    (hz : (if fromA then a else b) = z) :
    s.FpGives i d (opBits (s.rf z) f) { nv := isSNaN (opVal (s.rf a) f) || isSNaN (opVal (s.rf b) f) }
      (finalTag (fmtOf f) (opVal (s.rf z) f) true (opTag (s.rf z) f)) [opTag (s.rf a) f, opTag (s.rf b) f] := by
  have he := hi.trans (fpMinMax_eq s max d a b f)
  rw [hm] at he
  dsimp only at he
  rw [hz] at he
  exact fpGives_of_finish h he

theorem fpGives_minMax_nan (hm : minMax max (opVal (s.rf a) f) (opVal (s.rf b) f) = none) :
    s.FpGives i d (canonNaN (fmtOf f)) { nv := isSNaN (opVal (s.rf a) f) || isSNaN (opVal (s.rf b) f) } 0
      [opTag (s.rf a) f, opTag (s.rf b) f] := by
  have he := hi.trans (fpMinMax_eq s max d a b f)
  rw [hm] at he
  exact fpGives_of_finish h he

end

theorem ite_bnot (p : Bool) (a b : Reg) : (if (!p) = true then a else b) = if p = true then b else a := by cases p <;> rfl

/-- FCMP keeps its flag and writes the comparison's outcome. -/
theorem exec_fcmp_eq (s : State) (d a b : Reg) (v : CmpVar) (f : FFmt) :
    exec (.fcmp d a b v f) s =
      let x := opVal (s.rf a) f
      let y := opVal (s.rf b) f
      let un := isNaN x || isNaN y
      let sn := isSNaN x || isSNaN y
      let nv := match v with | .eq | .un => sn | .lt | .le => un
      let holds := match v with
        | .eq => !un && cmpVal x y == 0
        | .lt => !un && decide (cmpVal x y < 0)
        | .le => !un && decide (cmpVal x y ≤ 0)
        | .un => un
      needRegs s [d] (flagged s { nv := nv } (retireG · d (if holds then 1 else 0))) := by
  cases v <;> rfl

/-- Settles O15: FMIN and FMAX end with the operand selected, FSGN with the bits it makes, FCMP with its outcome. -/
theorem selectionsAndComparisons : Obligations.SelectionsAndComparisons := by
  refine ⟨fun s d a b v f h => ?select, fun s d a b v f h => ?compare⟩
  case select =>
    intro F x y nv xs gives
    refine ⟨fun hx hy => ⟨fpGives_minMax_nan h rfl (minMax_nan_nan _ hx hy), fpGives_minMax_nan h rfl (minMax_nan_nan _ hx hy)⟩,
      fun hx hy => ⟨fpGives_minMax h rfl (minMax_nan_left _ hx hy) rfl, fpGives_minMax h rfl (minMax_nan_left _ hx hy) rfl⟩,
      fun hx hy => ⟨fpGives_minMax h rfl (minMax_nan_right _ hx hy) rfl, fpGives_minMax h rfl (minMax_nan_right _ hx hy) rfl⟩,
      fun hx hy => ⟨fpGives_minMax h rfl (minMax_num false hx hy) (ite_bnot (ltTotal y x) a b),
        fpGives_minMax h rfl (minMax_num true hx hy) (ite_bnot (ltTotal x y) a b)⟩, fun hx => ?sign, fun hx => ?signNaN⟩
    all_goals
      refine fpGives_of_finish h ?_
      show execFsgn d a b v f s = _
      unfold execFsgn
      simp only [show isNaN (opVal (s.rf a) f) = _ from hx]
      rfl
  case compare =>
    intro x y un sn nv holds hnv
    rw [exec_fcmp_eq]
    exact (needRegs_eq s h.1 _).trans (flagged_retireG hnv h d _)

/-! ### Conversions -/

section
variable {s : State} {rm m : RMode} (hm : resolveRm s.me.fcsr rm = some m) (d a : Reg)
include hm

theorem exec_frnd_num (f : FFmt) {n : Bool} {k : Nat} {e : Int} (hx : opVal (s.rf a) f = .num n k e) :
    exec (.frnd d a rm f) s =
      let bits := (roundF (fmtOf f) m n (roundInt m n k e).1 0).bits
      fpFinish s d bits { nx := (roundInt m n k e).2 } (finalTag (fmtOf f) (decodeF (fmtOf f) bits) true (opTag (s.rf a) f))
        [opTag (s.rf a) f] := by
  refine (withMode_of_some hm _ _).trans ?_
  simp only [hx]

theorem exec_frnd_inf (f : FFmt) {n : Bool} (hx : opVal (s.rf a) f = .inf n) :
    exec (.frnd d a rm f) s =
      fpFinish s d (encInf (fmtOf f) n) {} (finalTag (fmtOf f) (decodeF (fmtOf f) (encInf (fmtOf f) n)) true (opTag (s.rf a) f))
        [opTag (s.rf a) f] := by
  refine (withMode_of_some hm _ _).trans ?_
  simp only [hx]

theorem exec_frnd_nan (f : FFmt) {q : Bool} (hx : opVal (s.rf a) f = .nan q) :
    exec (.frnd d a rm f) s =
      fpFinish s d (canonNaN (fmtOf f)) { nv := q }
        (finalTag (fmtOf f) (decodeF (fmtOf f) (canonNaN (fmtOf f))) true (opTag (s.rf a) f)) [opTag (s.rf a) f] := by
  refine (withMode_of_some hm _ _).trans ?_
  simp only [hx]

theorem exec_fcvt_float {src dst : CvtTy} {fs fd : FFmt} (hs : CvtTyFmt src = some fs) (hd : CvtTyFmt dst = some fd) :
    exec (.fcvt d a src dst rm) s =
      let e := exactOf (opVal (s.rf a) fs)
      let r := e.round (fmtOf fd) m
      fpFinish s d r.bits r.fl (cvtTag (fmtOf fs) (fmtOf fd) (opTag (s.rf a) fs) (isZeroE e) (decodeF (fmtOf fd) r.bits))
        [opTag (s.rf a) fs] := by
  show execFcvt d a src dst rm s = _
  unfold execFcvt
  simp only [hs, hd]
  exact withMode_of_some hm _ _

theorem exec_fcvt_ofInt {src dst : CvtTy} {fd : FFmt} (hs : CvtTyFmt src = none) (hd : CvtTyFmt dst = some fd) :
    exec (.fcvt d a src dst rm) s =
      let w := (cvtInt src).1
      let v := (s.rg a).toNat % 2 ^ w
      let i : Int := if (cvtInt src).2 && 2 ^ (w - 1) ≤ v then (v : Int) - 2 ^ w else v
      let r := (Exact.num (i < 0) i.natAbs 0).round (fmtOf fd) m
      needRegs s [a] (flagged s r.fl fun s => retire (s.wf d (BitVec.ofNat 64 r.bits) (BitVec.ofNat 7 (fmtPrec fd)))) := by
  show execFcvt d a src dst rm s = _
  unfold execFcvt
  simp only [hs, hd]
  exact congrArg (needRegs s [a]) (withMode_of_some hm _ _)

theorem exec_fcvt_toInt {src dst : CvtTy} {fs : FFmt} (hs : CvtTyFmt src = some fs) (hd : CvtTyFmt dst = none) :
    exec (.fcvt d a src dst rm) s =
      let w := (cvtInt dst).1
      let r := toIntF m w (cvtInt dst).2 (opVal (s.rf a) fs)
      needRegs s [d] (flagged s r.2 (retireG · d (if w = 32 then (if (cvtInt dst).2 then (BitVec.ofInt 32 r.1).signExtend 64
        else (BitVec.ofInt 32 r.1).zeroExtend 64) else BitVec.ofInt 64 r.1))) := by
  show execFcvt d a src dst rm s = _
  unfold execFcvt
  simp only [hs, hd]
  exact congrArg (needRegs s [d]) (withMode_of_some hm _ _)

end

/-- Settles O16: a conversion from a float ends as R154 says; one with an integer keeps its flags and writes its result. -/
theorem conversionsBetweenTypes : Obligations.ConversionsBetweenTypes := by
  refine ⟨fun s d a rm m f h hm => ?frnd, fun s d a src dst rm m hm => ⟨fun fs fd hs hd h => ?float, fun fd hs hd h => ?ofInt,
    fun fs hs hd h => ?toInt⟩⟩
  case frnd =>
    exact ⟨fun n k e hx => fpGives_of_finish h (exec_frnd_num hm d a f hx),
      fun n hx => fpGives_of_finish h (exec_frnd_inf hm d a f hx), fun q hx => fpGives_of_finish h (exec_frnd_nan hm d a f hx)⟩
  case float => exact fpGives_of_finish h (exec_fcvt_float hm d a hs hd)
  case ofInt =>
    intro w v i r hnv
    exact (exec_fcvt_ofInt hm d a hs hd).trans ((needRegs_eq s h.1 _).trans (flagged_retire_wf hnv h d _ _))
  case toInt =>
    intro w r hnv
    exact (exec_fcvt_toInt hm d a hs hd).trans ((needRegs_eq s h.1 _).trans (flagged_retireG hnv h d _))

/-! ### Traps -/

/-- The first enabled exception in the order NV, DZ, OF, UF, NX (R51). -/
theorem enabledCause_order (fcsr : Word) (fl : FpFlags) :
    let nv := fl.nv && fcsr.getLsbD 12
    let dz := fl.dz && fcsr.getLsbD 11
    let of := fl.of && fcsr.getLsbD 10
    let uf := fl.uf && fcsr.getLsbD 9
    let nx := fl.nx && fcsr.getLsbD 8
    (nv = true → enabledCause fcsr fl = some 0x41) ∧
    (nv = false → dz = true → enabledCause fcsr fl = some 0x42) ∧
    (nv = false → dz = false → of = true → enabledCause fcsr fl = some 0x43) ∧
    (nv = false → dz = false → of = false → uf = true → enabledCause fcsr fl = some 0x44) ∧
    (nv = false → dz = false → of = false → uf = false → nx = true → enabledCause fcsr fl = some 0x45) ∧
    (nv = false → dz = false → of = false → uf = false → nx = false → enabledCause fcsr fl = none) := by
  dsimp only
  unfold enabledCause
  refine ⟨fun h1 => ?_, fun h1 h2 => ?_, fun h1 h2 h3 => ?_, fun h1 h2 h3 h4 => ?_, fun h1 h2 h3 h4 h5 => ?_,
    fun h1 h2 h3 h4 h5 => ?_⟩
  all_goals simp only [*, Bool.false_eq_true, if_false, if_true]

/-- DYN with a reserved mode in FCSR.RM selects no mode (R50). -/
theorem resolveRm_reserved {fcsr : Word} (h : (fcsr.extractLsb' 5 3).toNat ∈ [5, 6, 7]) : resolveRm fcsr .dyn = none := by
  simp only [List.mem_cons, List.not_mem_nil, or_false] at h
  unfold resolveRm
  obtain h | h | h := h
  all_goals
    rw [h]
    rfl

theorem withMode_reserved {s : State} (h : resolveRm s.me.fcsr .dyn = none) (i : Instr) (k : RMode → Out) :
    withMode s .dyn i k = .next (s.raised cILLEGAL (wordOf i)) := by
  rw [withMode, h]
  exact raise_eq s _ _

/-- FMIN and FMAX trap with the tag of what they would deliver. -/
theorem fpTraps_minMax {s : State} {max : Bool} {d a b : Reg} {f : FFmt} {i : Instr} (hi : exec i s = fpMinMax s max d a b f) :
    s.FpTraps i { nv := isSNaN (opVal (s.rf a) f) || isSNaN (opVal (s.rf b) f) }
      (match minMax max (opVal (s.rf a) f) (opVal (s.rf b) f) with
        | none => 0
        | some fromA => finalTag (fmtOf f) (opVal (s.rf (if fromA then a else b)) f) true (opTag (s.rf (if fromA then a else b)) f))
      [opTag (s.rf a) f, opTag (s.rf b) f] := by
  have he := hi.trans (fpMinMax_eq s max d a b f)
  split at he
  · exact fpTraps_of_finish he
  · exact fpTraps_of_finish he

/-- Settles O18: what ends as R154 says traps as R51 and R66 say, whatever it computed. -/
theorem floatTrapsKeepTheFlags : Obligations.FloatTrapsKeepTheFlags := by
  refine ⟨fun s d a b c rm m f hm => ?arithmetic, fun s d a b v w f => ?select, fun s d a src dst rm m hm => ?convert,
    enabledCause_order, fun s d a b c f hres i hi => ?reserved⟩
  case arithmetic =>
    intro F x y z sx sy sz traps kept
    exact ⟨fpTraps_of_finish (withMode_of_some hm _ _), fpTraps_of_finish (withMode_of_some hm _ _),
      fpTraps_of_finish (withMode_of_some hm _ _), fpTraps_of_finish (withMode_of_some hm _ _),
      fpTraps_of_finish (withMode_of_some hm _ _), fpTraps_of_finish (withMode_of_some hm _ _),
      fpTraps_of_finish (withMode_of_some hm _ _), fun n k e hx => fpTraps_of_finish (exec_frnd_num hm d a f hx),
      fun n hx => fpTraps_of_finish (exec_frnd_inf hm d a f hx), fun q hx => fpTraps_of_finish (exec_frnd_nan hm d a f hx)⟩
  case select =>
    intro F x y nv xs tag low high h sa sb sg signed cmp
    refine ⟨fpTraps_minMax rfl, fpTraps_minMax rfl, fpTraps_of_finish rfl, fun hfree c hc => ?_⟩
    rw [exec_fcmp_eq]
    exact (needRegs_eq s hfree _).trans (flagged_traps hc _)
  case convert =>
    refine ⟨fun fs fd hs hd => fpTraps_of_finish (exec_fcvt_float hm d a hs hd), fun fd c hs hd hfree => ?_,
      fun fs c hs hd hfree => ?_⟩
    · intro w v i fl hc
      exact (exec_fcvt_ofInt hm d a hs hd).trans ((needRegs_eq s hfree _).trans (flagged_traps hc _))
    · intro fl hc
      exact (exec_fcvt_toInt hm d a hs hd).trans ((needRegs_eq s hfree _).trans (flagged_traps hc _))
  case reserved =>
    have hr := resolveRm_reserved hres
    simp only [List.mem_cons, List.not_mem_nil, or_false] at hi
    obtain rfl | rfl | rfl | rfl | rfl | rfl | rfl | rfl | rfl | rfl := hi
    all_goals exact withMode_reserved hr _ _

end Sys2Proof.Machine
end

section
/-!
PROOFS. Traps (R192 to R194, R331): the entry of a handler and the fetch of its first instruction.
-/

namespace Sys2Proof.Machine

open Sys2Proof

/-! ### STATUS_T on trap entry (Table 9-9) -/

theorem statusEnter_bits (status : Word) (l : Level) :
    (statusEnter status l).getLsbD 0 = false ∧ (statusEnter status l).getLsbD 1 = status.getLsbD 0 ∧
      (statusEnter status l).extractLsb' 2 2 = levelCode l ∧ (statusEnter status l).extractLsb' 4 60 = 0 := by
  have hlow : ∀ b : Bool, ∀ l : Level, let w := 0#60 ++ levelCode l ++ BitVec.ofBool b ++ 0#1
      w.getLsbD 0 = false ∧ w.getLsbD 1 = b ∧ w.extractLsb' 2 2 = levelCode l ∧ w.extractLsb' 4 60 = 0 := by
    intro b l
    cases b <;> cases l <;> decide
  exact hlow _ l

/-! ### What a fetch changes of its core (R148) -/

theorem startDone_of_none {s : State} {c : CoreId} (h : ∀ o ∈ s.ops, o.kind ≠ .sqstart c) : startDone s c = s := by
  have hf : s.ops.find? (·.kind == .sqstart c) = none := List.find?_eq_none.2 fun o ho => by simpa using h o ho
  rw [startDone, hf]

/-- A core as a fetch leaves it: it may hold other instruction words, and a handler has begun. -/
def Core.afterFetch (c : Core) (d : Core) : Prop := ∃ ws e, d = { c with icache := ws, entering := e }

theorem Core.afterFetch_refl (c : Core) : c.afterFetch c := ⟨c.icache, c.entering, rfl⟩

theorem Core.afterFetch.trans {a b c : Core} (h : a.afterFetch b) (k : b.afterFetch c) : a.afterFetch c := by
  obtain ⟨ws, e, rfl⟩ := h
  obtain ⟨ws', e', rfl⟩ := k
  exact ⟨ws', e', rfl⟩

theorem core_icachePut (s : State) (c : CoreId) (pa : Nat) (w : BitVec 32) :
    (s.core c).afterFetch ((icachePut s c pa w).core c) := by
  unfold icachePut
  dsimp only
  split
  · rw [State.core_updCore_self, State.core_useFresh]
    exact ⟨_, _, rfl⟩
  · rw [State.core_updCore_self]
    exact ⟨_, _, rfl⟩

theorem icachePut_ops (s : State) (c : CoreId) (pa : Nat) (w : BitVec 32) :
    (icachePut s c pa w).ops = s.ops ∧ (icachePut s c pa w).cur = s.cur := by
  unfold icachePut
  dsimp only
  split <;> simp

/-- What a fetch does to its core, to the operations under way and to the turn, while no SQSTART waits for it. -/
structure FetchKeeps (c : CoreId) (s t : State) : Prop where
  core : (s.core c).afterFetch (t.core c)
  ops : t.ops = s.ops
  cur : t.cur = s.cur

variable {c : CoreId} {s t u : State}

theorem FetchKeeps.refl (c : CoreId) (s : State) : FetchKeeps c s s := ⟨(s.core c).afterFetch_refl, rfl, rfl⟩

theorem FetchKeeps.trans (h : FetchKeeps c s t) (k : FetchKeeps c t u) : FetchKeeps c s u :=
  ⟨h.core.trans k.core, k.ops.trans h.ops, k.cur.trans h.cur⟩

theorem SameButMs.fetchKeeps (h : SameButMs s t) (c : CoreId) : FetchKeeps c s t :=
  ⟨by rw [h.core]; exact (s.core c).afterFetch_refl, by rw [h], h.cur⟩

theorem hasFetched_keeps (h : ∀ o ∈ s.ops, o.kind ≠ .sqstart c) : FetchKeeps c s (hasFetched s c) := by
  have hs : hasFetched s c = s.updCore c fun x => { x with entering := none } :=
    startDone_of_none (by rwa [State.ops_updCore])
  rw [hs]
  exact ⟨by rw [State.core_updCore_self]; exact ⟨_, _, rfl⟩, by simp, by simp⟩

/-- The word fetched goes into the instruction cache, unless it lies on a U page. -/
theorem fetchPut_keeps (coh : BitVec 2) (pa : Nat) (w : BitVec 32) :
    FetchKeeps c s (if coh == 2#2 then s else icachePut s c pa w) := by
  split
  · exact FetchKeeps.refl c s
  · obtain ⟨ho, hc⟩ := icachePut_ops s c pa w
    exact ⟨core_icachePut s c pa w, ho, hc⟩

theorem fetchAt_keeps {w : BitVec 32} (h : ∀ o ∈ s.ops, o.kind ≠ .sqstart c) (hf : fetchAt s c = .ok w t) : FetchKeeps c s t := by
  obtain ⟨l, s1, ht, hk⟩ := MRes.bind_ok hf
  have h1 := (translate_keeps ht).1.fetchKeeps c
  split at hk
  · cases hk
    exact h1.trans (hasFetched_keeps (by rwa [h1.ops]))
  · obtain ⟨_, s2, hc, hk⟩ := MRes.bind_ok hk
    have h2 := h1.trans (((homeCheck_keeps s1 _ _ _ _ _).of_ok hc).1.fetchKeeps c)
    obtain ⟨v, s3, hr, hk⟩ := MRes.bind_ok hk
    have h3 := h2.trans (((readHome_keeps s2 _ _ _).of_ok hr).1.fetchKeeps c)
    have h4 : FetchKeeps c s3 (if l.coh == 0#2 then s3.updMs (dirRead (some (.coreI c)) l.pa s3.fclock) else s3) := by
      split
      · exact (sameButMs_updMs s3 _).fetchKeeps c
      · exact FetchKeeps.refl c s3
    have h5 := h3.trans (h4.trans (fetchPut_keeps (c := c) l.coh l.pa (BitVec.ofNat 32 v)))
    cases hk
    exact h5.trans (hasFetched_keeps (by rwa [h5.ops]))

theorem fetchFaults_keeps (h : ∀ o ∈ s.ops, o.kind ≠ .sqstart c) : FetchKeeps c s (fetchFaults s c).2 := by
  unfold fetchFaults
  split
  · next w t hf => exact fetchAt_keeps h hf
  · exact FetchKeeps.refl c s
  · exact FetchKeeps.refl c s

/-! ### Entering a handler -/

/-- An exception whose handler can be fetched leaves the core at the handler's entry. -/
theorem takeTrap_enters {l : Level} {cause : BitVec 8} {int : Bool} {tval tpc : Word} (h : ∀ o ∈ s.ops, o.kind ≠ .sqstart c)
    (hf : (fetchFaults (s.updCore c fun x => enterTrap x l cause int tval tpc) c).1 = none) :
    (takeTrap s c l cause int tval tpc).cur = s.cur ∧
      (enterTrap (s.core c) l cause int tval tpc).afterFetch ((takeTrap s c l cause int tval tpc).core c) := by
  have hk := fetchFaults_keeps (s := s.updCore c fun x => enterTrap x l cause int tval tpc) (c := c) (by rwa [State.ops_updCore])
  have ht : takeTrap s c l cause int tval tpc = (fetchFaults (s.updCore c fun x => enterTrap x l cause int tval tpc) c).2 := by
    unfold takeTrap
    dsimp only
    split
    · next u hu => rw [hu]
    · next g u hu => rw [hu] at hf; cases hf
  rw [ht]
  refine ⟨by rw [hk.cur, State.cur_updCore], ?_⟩
  have := hk.core
  rwa [State.core_updCore_self] at this

/-- What trap entry writes, field by field (R192). -/
theorem enterTrap_fields (x : Core) (l : Level) (cause : BitVec 8) (int : Bool) (tval tpc : Word) :
    let y := enterTrap x l cause int tval tpc
    let r := x.trapRegs l
    y.pc = r.tvec ∧ y.level = l ∧ y.g = x.g ∧ y.f = x.f ∧ y.fcsr = x.fcsr ∧ y.run = .running ∧
      y.trapRegs l = { r with tpc := tpc, tcause := 0#55 ++ BitVec.ofBool int ++ cause, tval := tval, status := statusEnter r.status x.level } := by
  cases l <;> exact ⟨rfl, rfl, rfl, rfl, rfl, rfl, rfl⟩

theorem trapRegs_afterFetch {x y : Core} (h : x.afterFetch y) (l : Level) : y.trapRegs l = x.trapRegs l := by
  obtain ⟨ws, e, rfl⟩ := h
  cases l <;> rfl

theorem clearSkip_eq (x : Core) : clearSkip x = { x with dbgc := (clearSkip x).dbgc } := by
  unfold clearSkip
  split <;> rfl

theorem trapRegs_clearSkip (x : Core) (l : Level) : (clearSkip x).trapRegs l = x.trapRegs l := by
  rw [clearSkip_eq]
  cases l <;> rfl

/-- An instruction that completes before its trap leaves the core at its handler's entry, TPC behind it (R192, R194). -/
theorem raiseAfter_enters {cause : BitVec 8} {tval : Word} (h : ∀ o ∈ s.ops, o.kind ≠ .sqstart s.cur)
    (hf : (fetchFaults ((s.updMe clearSkip).updMe fun x => enterTrap x (trapLevel cause s.me.level) cause false tval (s.me.pc + 4))
      s.cur).1 = none) :
    ∃ u, raiseAfter s cause tval = .next u ∧
      (enterTrap (clearSkip s.me) (trapLevel cause s.me.level) cause false tval (s.me.pc + 4)).afterFetch u.me := by
  have hme : (s.updMe clearSkip).me = clearSkip s.me := by rw [State.me_updMe]
  have hpc : (s.updMe clearSkip).me.pc = s.me.pc := by rw [hme, clearSkip_eq]
  have hlv : (s.updMe clearSkip).me.level = s.me.level := by rw [hme, clearSkip_eq]
  have hcur : (s.updMe clearSkip).cur = s.cur := s.cur_updMe _
  have hops : ∀ o ∈ (s.updMe clearSkip).ops, o.kind ≠ .sqstart s.cur := by
    rw [State.updMe, State.ops_updCore]
    exact h
  have hr : raiseAfter s cause tval =
      .next (takeTrap (s.updMe clearSkip) s.cur (trapLevel cause s.me.level) cause false tval (s.me.pc + 4)) := by
    unfold raiseAfter
    simp only [hcur, hpc, hlv]
  have hf' : (fetchFaults ((s.updMe clearSkip).updCore s.cur fun x =>
      enterTrap x (trapLevel cause s.me.level) cause false tval (s.me.pc + 4)) s.cur).1 = none := by
    rw [State.updMe, hcur] at hf
    exact hf
  obtain ⟨hc, ha⟩ := takeTrap_enters hops hf'
  refine ⟨_, hr, ?_⟩
  have hcore : (s.updMe clearSkip).core s.cur = clearSkip s.me := by rw [← hcur]; exact hme
  rw [hcore] at ha
  have hm : ∀ u : State, u.cur = (s.updMe clearSkip).cur → u.me = u.core s.cur := fun u hu => by
    rw [State.me, hu, hcur]
  rwa [hm _ hc]

theorem zeroExtend_cause (cause : BitVec 8) : 0#55 ++ BitVec.ofBool false ++ cause = cause.zeroExtend 64 := by
  apply BitVec.eq_of_getLsbD_eq
  intro i hi
  simp only [BitVec.getLsbD_append, BitVec.getLsbD_ofBool, BitVec.getLsbD_setWidth, BitVec.getLsbD_zero]
  by_cases h : i < 8
  · simp [h, hi]
  · simp [h, BitVec.getLsbD_of_ge cause i (by omega)]

/-! ### A handler whose first instruction cannot be fetched (R331) -/

/-- A trap at S whose handler's fetch faults is a double fault, and a second such fault stops the partition. -/
theorem takeTrap_doubleFault {cause f : BitVec 8} {tval tpc : Word}
    (hf : (fetchFaults (s.updCore c fun x => enterTrap x .s cause false tval tpc) c).1 = some f) :
    takeTrap s c .s cause false tval tpc =
      match fetchFaults ((fetchFaults (s.updCore c fun x => enterTrap x .s cause false tval tpc) c).2.updCore c
        fun x => enterTrap x .h cDOUBLEFAULT false (0#48 ++ f ++ cause) x.ts.tvec) c with
      | (none, s) => s
      | (some _, s) => mcheckCore s c := by
  have hs : (fetchFaults (s.updCore c fun x => enterTrap x .s cause false tval tpc) c).2 =
      s.updCore c fun x => enterTrap x .s cause false tval tpc := by
    revert hf
    unfold fetchFaults
    split <;> simp
  have hl : ((s.updCore c fun x => enterTrap x .s cause false tval tpc).core c).level ≠ .h := by
    rw [State.core_updCore_self, (enterTrap_fields (s.core c) .s cause false tval tpc).2.1]
    decide
  have hp : fetchFaults (s.updCore c fun x => enterTrap x .s cause false tval tpc) c =
      (some f, s.updCore c fun x => enterTrap x .s cause false tval tpc) := Prod.ext hf hs
  rw [hs]
  unfold takeTrap
  dsimp only
  rw [hp]
  exact if_neg hl

theorem trapLevel_eq (cause : BitVec 8) (l : Level) :
    trapLevel cause l = if cause = 0x01 ∨ cause = 0xA1 then .h else if l = .u then .s else .h := by
  unfold trapLevel
  simp only [Bool.or_eq_true, decide_eq_true_eq]
  congr 1
  cases l <;> rfl

/-- Settles O19: entry writes the trap registers of its level, and the fetch after it changes none of them. -/
theorem trapsEnterTheirHandler : Obligations.TrapsEnterTheirHandler := by
  refine ⟨fun s e i cause hi hlv hops => ?enters, trapLevel_eq, fun s c cause f tval tpc => ?faults⟩
  case enters =>
    intro t old hf
    have hexec : exec i s = raiseAfter s cause (e.zeroExtend 64) := by
      simp only [List.mem_cons, List.not_mem_nil, or_false, Prod.mk.injEq] at hi
      obtain ⟨rfl, rfl⟩ | ⟨rfl, rfl⟩ | ⟨rfl, rfl⟩ := hi
      · rfl
      · rfl
      · exact needLevel_of_le (levelNat_s_le_iff.2 (hlv rfl)) _ _
    obtain ⟨u, hu, ha⟩ := raiseAfter_enters hops hf
    refine ⟨u, hexec.trans hu, ?_⟩
    have hregs := trapRegs_afterFetch ha t
    obtain ⟨hpc, hl, hg, hfr, hfc, hrun, htr⟩ := enterTrap_fields (clearSkip s.me) t cause false (e.zeroExtend 64) (s.me.pc + 4)
    rw [htr, trapRegs_clearSkip] at hregs
    obtain ⟨hb0, hb1, hb2, hb4⟩ := statusEnter_bits old.status s.me.level
    have hlev : (clearSkip s.me).level = s.me.level := by rw [clearSkip_eq]
    rw [trapRegs_clearSkip] at hpc
    rw [hregs, hlev]
    obtain ⟨ws, en, hme⟩ := ha
    rw [hme]
    refine ⟨hpc, hl, ?_, ?_, ?_, hrun, rfl, zeroExtend_cause cause, rfl, rfl, rfl, hb0, hb1, hb2, hb4⟩
    · exact hg.trans (by rw [clearSkip_eq])
    · exact hfr.trans (by rw [clearSkip_eq])
    · exact hfc.trans (by rw [clearSkip_eq])
  case faults =>
    intro s1 s2 hf
    have h := takeTrap_doubleFault hf
    refine ⟨fun hn => ?_, fun g hg => ?_⟩
    · refine h.trans ?_
      change (match fetchFaults s2 c with | (none, s) => s | (some _, s) => mcheckCore s c) = _
      rw [show fetchFaults s2 c = (none, (fetchFaults s2 c).2) from Prod.ext hn rfl]
    · refine h.trans ?_
      change (match fetchFaults s2 c with | (none, s) => s | (some _, s) => mcheckCore s c) = _
      rw [show fetchFaults s2 c = (some g, (fetchFaults s2 c).2) from Prod.ext hg rfl]

end Sys2Proof.Machine
end

section
/-!
PROOFS. Interrupts (R193, R198), CACHEOP (R201) and the waits of the cores (R185, R197 to R199).
-/

namespace Sys2Proof.Machine

open Sys2Proof

/-! ### Interrupts -/

section
variable {s : State} {c : CoreId}

/-- A running core takes what is pending when its level lets it (R193). -/
theorem takenInt_of_running (hr : (s.core c).run = .running) :
    takenInt s c = if intEnabled (s.core c) then pendingInt s c else none := by
  unfold takenInt
  rw [hr]

theorem intEnabled_iff (x : Core) :
    intEnabled x = true ↔ x.level = .u ∨ (x.level = .s ∧ x.ts.status.getLsbD 0 = true) := by
  unfold intEnabled
  cases x.level <;> simp

theorem pfqPending_iff (q : Partition) : pfqPending q = true ↔ q.pfqsize.getLsbD 16 = true ∧ q.pfqhead ≠ q.pfqtail := by
  simp [pfqPending]

theorem timerPending_iff : timerPending s c = true ↔ (s.core c).timecmp ≠ 0 ∧ (s.core c).timecmp.toNat ≤ s.fclock.toNat := by
  simp [timerPending]

/-- The order of the interrupts of an SY core of a partition. -/
theorem pendingInt_sy {n : BitVec 4} {p : PartId} (hp : (s.core (.sy n)).part = some p) :
    pendingInt s (.sy n) =
      if (s.part p).thermal.isSome then some cTHERMAL
      else if (s.part p).hostEvent then some cHOSTEVENT
      else if pfqPending (s.part p) then some cPFQEVENT
      else if timerPending s (.sy n) then some cTIMER else none := by
  unfold pendingInt
  simp only [hp]
  by_cases h1 : (s.part p).thermal.isSome
  · simp only [h1, if_true]
  · by_cases h2 : (s.part p).hostEvent
    · simp only [h1, h2, if_true, Bool.false_eq_true, if_false]
    · by_cases h3 : pfqPending (s.part p)
      · simp only [h1, h2, h3, if_true, Bool.false_eq_true, if_false]
      · simp only [h1, h2, h3, Bool.false_eq_true, if_false]

theorem exec_interruptTake {cause : BitVec 8} (h : takenInt s c = some cause) : exec (.interruptTake c) s = .next (takeInt s c cause) := by
  change execInterruptTake c s = _
  rw [execInterruptTake, h]

/-- What taking an interrupt does on a running core of a partition. -/
theorem takeInt_of_running {p : PartId} {cause : BitVec 8} {th : BitVec 10} (hp : (s.core c).part = some p)
    (hr : (s.core c).run = .running) (hth : (s.part p).thermal = some th ∨ ((s.part p).thermal = none ∧ th = 0)) :
    takeInt s c cause = takeTrap ((s.useFresh 1).updPart p fun q => if cause = 0xA6 then { q with thermal := none }
        else if cause = 0x08 then { q with hostEvent := false } else q) c .s cause true
      (if cause = 0xA6 then th.zeroExtend 64 else Config.freeWord s.fresh) (s.core c).pc := by
  have htv : ((s.part p).thermal.map fun t => t.zeroExtend 64).getD (0 : Word) = th.zeroExtend 64 := by
    obtain h | ⟨h, rfl⟩ := hth
    · simp [h]
    · simp [h]
  unfold takeInt
  simp only [State.core_useFresh, hp, hr, State.core_updPart, Option.bind_some, htv]
  rfl

end

/-- Settles O24. -/
theorem interruptsAreTakenInTheirOrder : Obligations.InterruptsAreTakenInTheirOrder := by
  rintro s c p n hp rfl hr
  dsimp only
  rw [takenInt_of_running hr, ← intEnabled_iff, ← pfqPending_iff, ← timerPending_iff, pendingInt_sy hp]
  refine ⟨fun h => if_neg h, fun h ht => ?_, fun h ht hh => ?_, fun h ht hh hq => ?_, fun h ht hh hq hm => ?_,
    fun h ht hh hq hm => ?_, fun cause th h hth => ?_⟩
  · rw [if_pos h, if_pos (Option.isSome_iff_ne_none.2 ht)]
    rfl
  · simp only [h, ht, hh, if_true, Option.isSome_none, Bool.false_eq_true, if_false]
    rfl
  · simp only [h, ht, hh, hq, if_true, Option.isSome_none, Bool.false_eq_true, if_false]
    rfl
  · simp only [h, ht, hh, hq, hm, if_true, Option.isSome_none, Bool.false_eq_true, if_false]
    rfl
  · simp only [h, ht, hh, hq, hm, if_true, Option.isSome_none, Bool.false_eq_true, if_false]
  · rw [exec_interruptTake (cause := cause) (by rw [takenInt_of_running hr, pendingInt_sy hp]; exact h), takeInt_of_running hp hr hth]

/-! ### CACHEOP -/

theorem MRes.ok_of_ite_trap {α : Type} {b : Prop} [Decidable b] {c : BitVec 8} {va : Word} {r : MRes α} {v : α} {t : State}
    (h : (if b then .trap c va else r) = .ok v t) : r = .ok v t := by
  split at h
  · cases h
  · exact h

theorem probeVa_keeps {s : State} {x : Ctx} {w : Bool} {va : Word} {t : Xl} {s1 : State} (h : probeVa s x w va = .ok t s1) :
    Keeps s s1 := by
  obtain ⟨l, s2, ht, hk⟩ := MRes.bind_ok h
  cases MRes.ok_of_ite_trap hk
  exact translate_keeps ht

theorem onAccess_trap {α : Type} (s0 : State) {r : MRes α} {c : BitVec 8} {va : Word} (h : r = .trap c va) (k : α → State → Out) :
    onAccess s0 r k = .next (s0.raised c va) := by
  rw [h]
  exact raise_eq s0 c va

section
variable {s s1 : State} {a : Reg} {w : Bool} {t : Xl} {waits : State → Xl → Bool}

theorem cacheop_waits (h : s.Free [a]) (hf : probeVa s (coreCtx s) w (s.rg a) = .ok t s1) (hw : waits s1 t = true)
    (k : Xl → State → State) : cacheop s a w waits k = .next s := by
  unfold cacheop
  rw [needRegs_eq s h, onAccess_ok s hf, if_pos hw]

theorem cacheop_acts (h : s.Free [a]) (hf : probeVa s (coreCtx s) w (s.rg a) = .ok t s1) (hw : waits s1 t = false) (hc : t.coh ≠ 2)
    (k : Xl → State → State) : cacheop s a w waits k = .next (k t s1).retired := by
  unfold cacheop
  rw [needRegs_eq s h, onAccess_ok s hf, if_neg (by simp [hw]), if_neg (by simpa using hc), retire_retired]

theorem cacheop_on_uncached (h : s.Free [a]) (hf : probeVa s (coreCtx s) w (s.rg a) = .ok t s1) (hw : waits s1 t = false) (hc : t.coh = 2)
    (k : Xl → State → State) : cacheop s a w waits k = .next s1.retired := by
  unfold cacheop
  rw [needRegs_eq s h, onAccess_ok s hf, if_neg (by simp [hw]), if_pos (by simpa using hc), retire_retired]

theorem cacheop_faults {cause : BitVec 8} {va : Word} (h : s.Free [a]) (hf : probeVa s (coreCtx s) w (s.rg a) = .trap cause va)
    (k : Xl → State → State) : cacheop s a w waits k = .next (s.raised cause va) := by
  unfold cacheop
  rw [needRegs_eq s h, onAccess_trap s hf]

/-- CLEAN and FLUSH never wait on a U page. -/
theorem cleanWaits_on_uncached (hc : t.coh = 2) : cleanWaits s1 t = false := by
  unfold cleanWaits
  rw [hc]
  rfl

end

theorem findSLine_dropLine (s : State) (t : Xl) : findSLine (dropLine s t).ms (.coreD s.cur) (lineOf t.pa) = none := by
  refine List.find?_eq_none.2 fun l hl => ?_
  have := (List.mem_filter.1 hl).2
  simpa [imp_iff_not_or] using this

theorem core_prefetch (s : State) (x : Ctx) (w : Bool) (va : Word) : (prefetch s x w va).core = s.core := by
  unfold prefetch
  split
  · next t s1 h1 =>
    have h1 := (probeVa_keeps h1).1
    split
    · split
      · next u s2 h2 =>
        have h2 := homeCheck_eq h2
        subst h2
        split
        · exact funext fun c => (h1.trans (sameButMs_ms (s := s2) _)).core c
        · rfl
      · rfl
      · rfl
    · rfl
  · rfl
  · rfl

/-- Settles O25. -/
theorem cacheopsActOnOneLine : Obligations.CacheopsActOnOneLine := by
  intro s s1 a t cause va hf
  refine ⟨fun h hw => cacheop_waits hf h hw _, fun h hw => cacheop_waits hf h hw _,
    fun h hc => ⟨fun hw => cacheop_acts hf h hw hc _, cacheop_acts hf h rfl hc _⟩,
    fun h hc => ⟨cacheop_acts hf h rfl hc _, fun hw => cacheop_acts hf h hw hc _, findSLine_dropLine s1 t, rfl⟩,
    fun h hc => ⟨cacheop_on_uncached hf h (cleanWaits_on_uncached hc) hc _, cacheop_on_uncached hf h rfl hc _⟩,
    fun h hc => ⟨cacheop_on_uncached hf h rfl hc _, cacheop_on_uncached hf h (cleanWaits_on_uncached hc) hc _⟩,
    fun h => ⟨cacheop_faults hf h _, cacheop_faults hf h _⟩, fun h => ⟨cacheop_faults hf h _, cacheop_faults hf h _⟩,
    ?pfr, ?pfw, fun w => core_prefetch s _ w _⟩
  case pfr => exact (needRegs_eq s hf _).trans (retire_retired _)
  case pfw => exact (needRegs_eq s hf _).trans (retire_retired _)

/-! ### Waits -/

theorem State.updCore_updCore (s : State) (c : CoreId) (f g : Core → Core) :
    (s.updCore c f).updCore c g = s.updCore c fun x => g (f x) := by
  cases c <;> simp [State.updCore, State.setCore, State.core]

section
variable {s : State} {c : CoreId}

/-- The events that end a wait complete the instruction and give the turn back. -/
theorem asCore_retire (h : ¬((s.core c).level = .u ∧ (s.core c).dbgc.getLsbD 0 = true)) :
    asCore s c retire = .next (s.updCore c fun x =>
      { x with pc := x.pc + 4, dbgc := if x.level = .u then x.dbgc &&& ~~~2#64 else x.dbgc }) := by
  have hme : ({ s with cur := c } : State).me = s.core c := by cases c <;> rfl
  unfold asCore
  rw [retire_eq { s with cur := c } (by rwa [hme]), hme]
  unfold State.went State.updMe State.updCore State.setCore
  cases c <;> rfl

/-- A core that waited completes its instruction when the wait is over. -/
theorem asCore_running_retire (h : ¬((s.core c).level = .u ∧ (s.core c).dbgc.getLsbD 0 = true)) :
    asCore (s.updCore c fun x => { x with run := .running }) c retire = .next (s.updCore c fun x =>
      { x with run := .running, pc := x.pc + 4, dbgc := if x.level = .u then x.dbgc &&& ~~~2#64 else x.dbgc }) := by
  rw [asCore_retire (by rwa [State.core_updCore_self]), State.updCore_updCore]

theorem exec_waitw_of_loads {s' : State} {d a b : Reg} {v : Nat} (h : s.Free [d, a, b]) (hl : s.Loads (s.rg a) 8 v s') :
    (BitVec.ofNat 64 v ≠ s.rg b → exec (.waitw d a b) s = .next (s'.acquireMe.wg d (BitVec.ofNat 64 v)).retired) ∧
      (BitVec.ofNat 64 v = s.rg b →
        exec (.waitw d a b) s = .next (s'.acquireMe.updMe fun x => { x with run := .waitw d a b })) := by
  have hb : s'.acquireMe.rg b = s.rg b := by rw [State.rg, (hl.keeps.trans (keeps_acquireMe s')).me, State.rg]
  change (_ → execWaitw d a b s = _) ∧ (_ → execWaitw d a b s = _)
  unfold execWaitw
  rw [needRegs_eq s h, coreLoad_of_loads hl]
  dsimp only
  rw [hb]
  exact ⟨fun hv => (if_neg hv).trans (retire_retired _), fun hv => if_pos hv⟩

theorem exec_waitwWake {d a b : Reg} (h : (s.core c).run = .waitw d a b) :
    exec (.waitwWake c) s = .next (s.updCore c fun x => { x with run := .running }) := by
  change execWaitwWake c s = _
  rw [execWaitwWake, h]

theorem exec_wfe : exec .wfe s = if (pendingInt s s.cur).isSome then .next s.retired else .next (s.updMe fun c => { c with run := .wfe }) := by
  rw [← retire_retired]
  rfl

theorem exec_wfeWake (h : (s.core c).run = .wfe) (hs : ¬((s.core c).level = .u ∧ (s.core c).dbgc.getLsbD 0 = true)) :
    exec (.wfeWake c) s = .next (s.updCore c fun x =>
      { x with run := .running, pc := x.pc + 4, dbgc := if x.level = .u then x.dbgc &&& ~~~2#64 else x.dbgc }) :=
  (if_pos h).trans (asCore_running_retire hs)

theorem exec_halt (hl : s.me.level ≠ .u) (hp : s.me.pend = 0) : exec .halt s = .next (s.updMe fun x =>
    { x with run := .halted, sqlevel := levelCode x.level, stopReq := false, crashStop := false, pc := x.pc + 4 }) := by
  change execHalt s = _
  unfold execHalt
  rw [needLevel_of_le (levelNat_s_le_iff.2 hl), if_neg (by simp [hp])]
  rfl

/-! ### TLBINV and TLBSYNC -/

/-- TLBINV removes its partition's translations of what it names and completes. -/
theorem exec_tlbinv {a : Reg} {p : PartId} (hl : s.me.level ≠ .u) (hf : s.Free [a]) (hp : s.me.part = some p) :
    ∃ t, exec (.tlbinv a) s = .next t ∧ t.ms = { s.ms with tlb := s.ms.tlb.filter fun e => !(e.part == p && invCovers (s.rg a) e) } ∧
      t.me.g = s.me.g ∧ t.me.pc = s.me.pc + 4 := by
  have hu : ¬(s.me.level = .u ∧ s.me.dbgc.getLsbD 0 = true) := fun h => hl h.1
  let s1 := s.updMs fun ms => { ms with tlb := ms.tlb.filter fun e => !(e.part == p && invCovers (s.rg a) e) }
  have hx : ∃ f : Core → Core, (∀ x, ∃ i, f x = { x with inv := i }) ∧ exec (.tlbinv a) s = retire (s1.updMe f) := by
    change ∃ f : Core → Core, _ ∧ execTlbinv a s = _
    unfold execTlbinv
    rw [needLevel_of_le (levelNat_s_le_iff.2 hl), needRegs_eq s hf, hp]
    exact ⟨_, fun x => ⟨_, rfl⟩, rfl⟩
  obtain ⟨f, hi, hx⟩ := hx
  obtain ⟨i, hi⟩ := hi s.me
  have hme : (s1.updMe f).me = { s.me with inv := i } := (s1.me_updMe f).trans hi
  refine ⟨_, hx.trans (retire_eq _ (by rwa [hme])), ?_, ?_, ?_⟩
  · rw [ms_went, State.ms_updMe]
    rfl
  · rw [g_went, hme]
  · rw [pc_went, hme]

/-- A core whose ranges of TLBINVs are waited for no more. -/
def Core.synced (x : Core) : Core := { x with inv := [] }

theorem foldl_synced (cs : List CoreId) (s : State) :
    let t := cs.foldl (fun s c => s.updCore c Core.synced) s
    t.cur = s.cur ∧ t.ms = s.ms ∧ ∀ z, t.core z = if z ∈ cs then (s.core z).synced else s.core z := by
  induction cs generalizing s with
  | nil => exact ⟨rfl, rfl, fun z => (if_neg List.not_mem_nil).symm⟩
  | cons c cs ih =>
    obtain ⟨hc, hm, hz⟩ := ih (s.updCore c Core.synced)
    refine ⟨hc.trans (s.cur_updCore _ _), hm.trans (s.ms_updCore _ _), fun z => (hz z).trans ?_⟩
    obtain rfl | h := eq_or_ne z c
    · simp [State.core_updCore_self, Core.synced]
    · simp [State.core_updCore_ne s h, h]

theorem mem_coresOf {p : PartId} (h : (s.core c).part = some p) : c ∈ coresOf s p := by
  refine List.mem_filter.2 ⟨List.mem_append.2 ?_, by simp [h]⟩
  cases c with
  | sq n => exact .inl (List.mem_map.2 ⟨n.toNat, List.mem_range.2 n.isLt, by simp⟩)
  | sy n => exact .inr (List.mem_map.2 ⟨n.toNat, List.mem_range.2 n.isLt, by simp⟩)

theorem part_of_mem_coresOf {p : PartId} (h : c ∈ coresOf s p) : (s.core c).part = some p := by
  simpa using (List.mem_filter.1 h).2

/-- A TLBSYNC leaves each core of its partition with no range to wait for, and the others as they were. -/
theorem core_tlbSyncDone (s : State) (c z : CoreId) :
    (tlbSyncDone s c).cur = s.cur ∧ (tlbSyncDone s c).core z =
      if (s.core z).part = (s.core c).part ∧ (s.core c).part ≠ none then (s.core z).synced else s.core z := by
  unfold tlbSyncDone
  split
  · next hp => exact ⟨rfl, (if_neg fun h => h.2 hp).symm⟩
  · next p hp =>
    rw [hp]
    split
    · next he =>
      refine ⟨rfl, ?_⟩
      split
      · next h =>
        have hi : (s.core z).inv = [] := List.flatMap_eq_nil_iff.1 (List.isEmpty_iff.1 he) z (mem_coresOf h.1)
        rw [Core.synced, ← hi]
      · rfl
    · obtain ⟨hc, -, hz⟩ := foldl_synced (coresOf s p) (acquireAll s (partAgents s p))
      refine ⟨hc, (hz z).trans ?_⟩
      have hm : z ∈ coresOf s p ↔ (s.core z).part = some p ∧ some p ≠ none := by
        simp only [ne_eq, reduceCtorEq, not_false_eq_true, and_true]
        exact ⟨part_of_mem_coresOf, mem_coresOf⟩
      simp only [hm]
      rfl

theorem me_tlbSyncDone (s : State) : ∃ i, (tlbSyncDone s s.cur).me = { s.me with inv := i } := by
  obtain ⟨hc, hz⟩ := core_tlbSyncDone s s.cur s.cur
  have hm : (tlbSyncDone s s.cur).me = (tlbSyncDone s s.cur).core s.cur := by rw [State.me, hc]
  rw [hm, hz]
  split
  · exact ⟨[], rfl⟩
  · exact ⟨s.me.inv, rfl⟩

theorem exec_tlbsync (hl : s.me.level ≠ .u) : exec .tlbsync s =
    if tlbSynced s s.cur then .next (tlbSyncDone s s.cur).retired else .next (s.updMe fun c => { c with run := .tlbsync }) := by
  rw [← retire_retired]
  exact needLevel_of_le (levelNat_s_le_iff.2 hl) _ _

theorem exec_tlbsync_done {p : PartId} (hl : s.me.level ≠ .u) (ht : tlbSynced s s.cur = true) (hp : s.me.part = some p) :
    ∃ t, exec .tlbsync s = .next t ∧ t.me.pc = s.me.pc + 4 ∧ t.me.g = s.me.g ∧
      ∀ z, (s.core z).part = some p → (t.core z).inv = [] := by
  obtain ⟨i, hme⟩ := me_tlbSyncDone s
  have hr : retire (tlbSyncDone s s.cur) = .next ((tlbSyncDone s s.cur).went ((tlbSyncDone s s.cur).me.pc + 4)) :=
    retire_eq _ (by rw [hme]; exact fun h => hl h.1)
  refine ⟨_, ((exec_tlbsync hl).trans (if_pos ht)).trans ((retire_retired _).symm.trans hr), ?_, ?_, fun z hz => ?_⟩
  · rw [pc_went, hme]
  · rw [g_went, hme]
  · obtain ⟨hc, hzc⟩ := core_tlbSyncDone s s.cur z
    rw [hz, if_pos ⟨hp.symm, by rw [show (s.core s.cur).part = some p from hp]; simp⟩] at hzc
    unfold State.went State.updMe
    obtain rfl | h := eq_or_ne z (tlbSyncDone s s.cur).cur
    · rw [State.core_updCore_self, hzc]
      rfl
    · rw [State.core_updCore_ne _ h, hzc]
      rfl

theorem exec_tlbsyncComplete (hr : (s.core c).run = .tlbsync) (ht : tlbSynced s c = true)
    (hs : ¬((s.core c).level = .u ∧ (s.core c).dbgc.getLsbD 0 = true)) :
    ∃ t, exec (.tlbsyncComplete c) s = .next t ∧ (t.core c).run = .running ∧ (t.core c).pc = (s.core c).pc + 4 ∧
      (t.core c).g = (s.core c).g ∧ t.ms = (tlbSyncDone s c).ms := by
  have hz : ∃ i, (tlbSyncDone s c).core c = { s.core c with inv := i } := by
    rw [(core_tlbSyncDone s c c).2]
    split
    · exact ⟨[], rfl⟩
    · exact ⟨(s.core c).inv, rfl⟩
  obtain ⟨i, hz⟩ := hz
  refine ⟨_, (if_pos ⟨hr, ht⟩).trans (asCore_running_retire (by rwa [hz])), ?_, ?_, ?_, State.ms_updCore _ _ _⟩
  · rw [State.core_updCore_self]
  · rw [State.core_updCore_self, hz]
  · rw [State.core_updCore_self, hz]

theorem exec_timer (h0 : (s.core c).timecmp ≠ 0) (h : s.fclock.toNat < (s.core c).timecmp.toNat) :
    exec (.timer c) s = .next { s with fclock := (s.core c).timecmp } :=
  congrArg Host.Outcome.next (if_pos ⟨h0, h⟩)

end

/-- Settles O23. -/
theorem waitsEndAsTheirRulesSay : Obligations.WaitsEndAsTheirRulesSay := by
  intro s s' d a b v c p cause
  refine ⟨exec_waitw_of_loads, exec_waitwWake, fun h => ?wfe, fun h => ?wait, exec_wfeWake, exec_halt, fun hl hf hp => ?inv,
    fun hl ht => (exec_tlbsync hl).trans (if_pos ht), exec_tlbsync_done, fun hl ht => (exec_tlbsync hl).trans (if_neg (by simp [ht])),
    exec_tlbsyncComplete, exec_timer, exec_interruptTake⟩
  case wfe => exact exec_wfe.trans (if_pos (Option.isSome_iff_ne_none.2 h))
  case wait => exact exec_wfe.trans (if_neg (by simp [h]))
  case inv =>
    obtain ⟨t, hx, hm, hg, hpc⟩ := exec_tlbinv hl hf hp
    refine ⟨t, hx, fun e he hep => ?_, fun e he hep => ?_, by rw [hm], hg, hpc⟩
    · rw [hm] at he
      have := (List.mem_filter.1 he).2
      simpa [hep] using this
    · rw [hm]
      exact List.mem_filter.2 ⟨he, by simp [hep]⟩

end Sys2Proof.Machine
end

section
/-!
PROOFS. System registers: SREAD and SWRITE (R196), what a register holds of a write, and the register events.
-/

namespace Sys2Proof.Machine

open Sys2Proof

/-! ### SREAD and SWRITE -/

section
variable {s : State} {d n m : Reg} {i : RegInfo}

theorem exec_sread (hi : regInfo (regNum n m).toNat = some i) (ho : regOn s.cur i = true) :
    exec (.sread d n m) s = needLevel s i.rd (.sread d n m) (needRegs s [d]
      (if readWaits s s.cur (regNum n m).toNat then .next s
        else .next ((sreadCore s s.cur (regNum n m).toNat).2.wg d (regRead s s.cur (regNum n m).toNat)).retired)) := by
  change execSread d n m s = _
  unfold execSread
  dsimp only
  rw [hi]
  dsimp only
  rw [if_neg (by simp [ho]), ← retire_retired]
  rfl

theorem exec_swrite_of_level {l : Level} (hi : regInfo (regNum n m).toNat = some i) (ho : regOn s.cur i = true) (hw : i.wr = some l) :
    exec (.swrite d n m) s = needLevel s l (.swrite d n m) (needRegs s [d]
      (if writeWaits s s.cur (regNum n m).toNat then .next s
        else .next (regWrite s s.cur (regNum n m).toNat (s.rg d)).retired)) := by
  change execSwrite d n m s = _
  unfold execSwrite
  dsimp only
  rw [hi]
  dsimp only
  rw [if_neg (by simp [ho]), hw, ← retire_retired]

theorem exec_swrite_readOnly (hi : regInfo (regNum n m).toNat = some i) (ho : regOn s.cur i = true) (hw : i.wr = none) :
    exec (.swrite d n m) s = needLevel s i.rd (.swrite d n m) (needRegs s [d] (.next s.retired)) := by
  change execSwrite d n m s = _
  unfold execSwrite
  dsimp only
  rw [hi]
  dsimp only
  rw [if_neg (by simp [ho]), hw, ← retire_retired]

theorem exec_sread_unassigned (hi : regInfo (regNum n m).toNat = none) :
    exec (.sread d n m) s = .next (s.raised 0x20 (wordOf (.sread d n m))) := by
  change execSread d n m s = _
  unfold execSread
  dsimp only
  rw [hi]
  exact raise_eq s _ _

theorem exec_swrite_unassigned (hi : regInfo (regNum n m).toNat = none) :
    exec (.swrite d n m) s = .next (s.raised 0x20 (wordOf (.swrite d n m))) := by
  change execSwrite d n m s = _
  unfold execSwrite
  dsimp only
  rw [hi]
  exact raise_eq s _ _

end

/-! ### The bits that a register holds -/

section
variable {s : State} {c : CoreId} {n : Nat} {v : Word}

/-- A register that is a field of its core reads as that field after a write of it. -/
theorem regRead_regWrite_core {f : Core → Core} (g : Core → Word) (hw : regWrite s c n v = s.updCore c f)
    (hr : ∀ t, regRead t c n = g (t.core c)) : regRead (regWrite s c n v) c n = g (f (s.core c)) := by
  rw [hr, hw, State.core_updCore_self]

/-- A register of the core's partition reads as its field after a write of it. -/
theorem regRead_regWrite_part {p : PartId} (hp : (s.core c).part = some p) {f : Partition → Partition} (g : Partition → Word)
    (hw : regWrite s c n v = updPartOf s c f) (hr : ∀ t, regRead t c n = partReg t c g) :
    regRead (regWrite s c n v) c n = g (f (s.part p)) := by
  rw [hr, hw, updPartOf, hp, partReg, partOf]
  dsimp only
  rw [State.core_updPart, hp, Option.map_some, State.part_updPart_self]
  rfl

theorem eq_and_not_zero (v : Word) : v = v &&& ~~~0 := (BitVec.and_allOnes).symm

theorem rmcfg_setRmcfg (v : Word) (q : Rules) : (setRmcfg v q).rmcfg = v &&& 7 := by
  unfold setRmcfg
  dsimp only
  split <;> rfl

/-- FCSR's flags are kept but where a 1 is written (Table 3-7). -/
theorem regRead_regWrite_fcsr :
    regRead (regWrite s c 0x000 v) c 0x000 = (v &&& 0x1FE0) ||| ((s.core c).fcsr &&& 0x1F &&& ~~~v) :=
  regRead_regWrite_core (f := fun x => { x with fcsr := rwW1c 0x1FE0 0x1F x.fcsr v }) (·.fcsr) rfl fun _ => rfl

end

/-- Settles O21. -/
theorem specialRegistersAreReadAndWritten : Obligations.SpecialRegistersAreReadAndWritten := by
  refine ⟨fun s d n m i => ⟨fun hi ho => ⟨fun hl hf hw => ?read, fun hl => ?readLevel, fun l hwr hl hf => ?write, fun l hwr hl => ?writeLevel,
    fun hwr hl hf => ?readOnly⟩, fun hi => ⟨exec_sread_unassigned hi, exec_swrite_unassigned hi⟩⟩, fun s v hp => ⟨?bits, ?fcsr⟩⟩
  case read => rw [exec_sread hi ho, needLevel_of_le hl, needRegs_eq s hf, if_neg (by simp [hw])]
  case readLevel => exact (exec_sread hi ho).trans (needLevel_of_lt hl _ _)
  case write =>
    rw [exec_swrite_of_level hi ho hwr, needLevel_of_le hl, needRegs_eq s hf]
    exact ⟨fun hw => if_neg (by simp [hw]), fun hw => if_pos hw⟩
  case writeLevel => exact (exec_swrite_of_level hi ho hwr).trans (needLevel_of_lt hl _ _)
  case readOnly => rw [exec_swrite_readOnly hi ho hwr, needLevel_of_le hl, needRegs_eq s hf]
  case bits =>
    obtain ⟨p, hp⟩ := Option.ne_none_iff_exists'.1 hp
    simp only [List.forall_mem_cons]
    exact ⟨regRead_regWrite_core (f := fun x => { x with sigctl := v &&& 0xFF }) (·.sigctl) rfl fun _ => rfl,
      regRead_regWrite_core (f := setTrapS 0 v) (·.ts.status) rfl fun _ => rfl,
      regRead_regWrite_core (f := setTrapS 1 v) (·.ts.tvec) rfl fun _ => rfl,
      regRead_regWrite_core (f := setTrapS 2 v) (·.ts.tpc) rfl fun _ => rfl,
      regRead_regWrite_core (f := setTrapS 3 v) (·.ts.tcause) rfl fun _ => rfl,
      (regRead_regWrite_core (f := setTrapS 4 v) (·.ts.tval) rfl fun _ => rfl).trans (eq_and_not_zero v),
      (regRead_regWrite_core (f := setTrapS 5 v) (·.ts.tscr) rfl fun _ => rfl).trans (eq_and_not_zero v),
      (regRead_regWrite_core (f := setTrapS 6 v) (·.timecmp) rfl fun _ => rfl).trans (eq_and_not_zero v),
      regRead_regWrite_part (f := fun p => { p with pfqbase := v &&& 0x000FFFFFFFFFF001 }) hp (·.pfqbase) rfl fun _ => rfl,
      regRead_regWrite_part (f := fun p => { p with ptroot := ptrootBits v }) hp (·.ptroot) rfl fun _ => rfl,
      regRead_regWrite_part (f := fun p => { p with viewtab := v &&& 0x0000FFFFFFFFF1FF }) hp (·.viewtab) rfl fun _ => rfl,
      rfl,
      (regRead_regWrite_part (f := fun p => { p with rules := setRmcfg v p.rules }) hp (·.rules.rmcfg) rfl fun _ => rfl).trans (rmcfg_setRmcfg v _),
      regRead_regWrite_core (f := fun x => { x with sel := { x.sel with badsel := v &&& 0x3FF } }) (·.sel.badsel) rfl fun _ => rfl,
      regRead_regWrite_core (f := fun x => { x with sel := { x.sel with tqsel := v &&& 0xFF } }) (·.sel.tqsel) rfl fun _ => rfl,
      regRead_regWrite_part (f := fun p => { p with lattol := v &&& 0xFFFFFFFF }) hp (·.lattol) rfl fun _ => rfl,
      regRead_regWrite_core (f := fun x => { x with sel := { x.sel with monsel := v &&& 0xF7F } }) (·.sel.monsel) rfl fun _ => rfl,
      regRead_regWrite_core (f := fun x => { x with sel := { x.sel with fgsel := v &&& 0x3C3F } }) (·.sel.fgsel) rfl fun _ => rfl,
      regRead_regWrite_core (f := fun x => { x with sel := { x.sel with mgsel := v &&& 0xFFFFFC3F } }) (·.sel.mgsel) rfl fun _ => rfl,
      regRead_regWrite_core (f := fun x => { x with dbgc := v &&& 0x1FF }) (·.dbgc) rfl fun _ => rfl,
      (regRead_regWrite_core (f := fun x => { x with dbgwva := v }) (·.dbgwva) rfl fun _ => rfl).trans (eq_and_not_zero v),
      regRead_regWrite_part (f := fun p => { p with crashd := v &&& 0x000FFFFFFFFFC000 }) hp (·.crashd) rfl fun _ => rfl,
      rfl,
      regRead_regWrite_core (f := fun x => { x with sel := { x.sel with pwsel := v &&& 0xFF } }) (·.sel.pwsel) rfl fun _ => rfl,
      regRead_regWrite_core (f := fun x => { x with th := setTrapReg true 0 v x.th }) (·.th.status) rfl fun _ => rfl,
      regRead_regWrite_core (f := fun x => { x with th := setTrapReg true 1 v x.th }) (·.th.tvec) rfl fun _ => rfl,
      regRead_regWrite_core (f := fun x => { x with th := setTrapReg true 2 v x.th }) (·.th.tpc) rfl fun _ => rfl,
      regRead_regWrite_core (f := fun x => { x with th := setTrapReg true 3 v x.th }) (·.th.tcause) rfl fun _ => rfl,
      (regRead_regWrite_core (f := fun x => { x with th := setTrapReg true 4 v x.th }) (·.th.tval) rfl fun _ => rfl).trans (eq_and_not_zero v),
      (regRead_regWrite_core (f := fun x => { x with th := setTrapReg true 5 v x.th }) (·.th.tscr) rfl fun _ => rfl).trans (eq_and_not_zero v),
      fun x hx => absurd hx List.not_mem_nil⟩
  case fcsr => exact regRead_regWrite_fcsr

/-! ### Register accesses as events -/

section
variable {s : State} {c : CoreId} {n : Nat} {v : Word} {d : Reg}

theorem regEvent_writes (ha : regAllowed s c n true = true) (hw : writeWaits s c n = false) : regEvent s c n v = .next (regWrite s c n v) :=
  if_pos (by simp [ha, hw])

theorem readEvent_reads (ha : regAllowed s c n false = true) (hp : (s.core c).pending d = false) :
    readEvent s c n d = .next ((sreadCore s c n).2.updCore c (·.wg d (regRead s c n))) :=
  if_pos (by simp [ha, hp])

theorem partReg_of {p : PartId} (hp : (s.core c).part = some p) (f : Partition → Word) : partReg s c f = f (s.part p) := by
  rw [partReg, partOf, hp]
  rfl

/-- Only what the registers that `writeWaits` names reach makes a write of a register wait. -/
theorem writeWaits_eq_false (h1 : n ≠ 0x022) (h2 : n < 0x061 ∨ 0x07F < n) (h3 : n ≠ 0x0E3) (h4 : n ≠ 0x0E4) (h5 : n ≠ 0x0EF) :
    writeWaits s c n = false := by
  have hr : readWaits s c n = false := if_neg (by simp; omega)
  simp [writeWaits, h1, hr, h3, h4, h5]

theorem writeWaits_pfqhead : writeWaits s c 0x022 = syncHeld s (.coreD c) := by
  simp [writeWaits, readWaits]

theorem writeWaits_fgctl {r : RegionId} (hr : fgRegion s c = some r) : writeWaits s c 0x0E3 = sleepsOn s r := by
  simp [writeWaits, readWaits, hr]

theorem writeWaits_fglist {r : RegionId} (hr : fgRegion s c = some r) : writeWaits s c 0x0E4 = sleepsOn s r := by
  simp [writeWaits, readWaits, hr]

theorem fgEvent_acts {r : RegionId} {k : State → RegionId → State} (ha : regAllowed s c n true = true)
    (hr : fgRegion s c = some r) (hw : writeWaits s c n = false) : fgEvent s c n k = .next (k (wakeRegion s r) r) := by
  unfold fgEvent
  rw [if_pos (by simp [ha, hw]), hr]

theorem fgEvent_waits {k : State → RegionId → State} (hw : writeWaits s c n = true) : fgEvent s c n k = .next s :=
  if_neg (by simp [hw])

end

/-! ### TQCFG (R366) -/

theorem dies_killBids (bids : List Nat) (s : State) : (killBids s bids).dies = s.dies := by
  unfold killBids
  induction bids generalizing s with
  | nil => rfl
  | cons k bids ih =>
    refine (ih _).trans ?_
    dsimp only
    split
    · unfold finishOp endOp completeOp
      exact State.dies_updCore _ _ _
    · rfl

/-- The cores that waited at issue go on, and no die changes. -/
theorem dies_foldl_goOn (inside : List Nat) (ops : List Op) (s : State) :
    (ops.foldl (fun s w => if inside.contains w.id && (s.core w.core).run == .issue w.id then
      s.updCore w.core fun c => { c with run := .running } else s) s).dies = s.dies := by
  induction ops generalizing s with
  | nil => rfl
  | cons o ops ih =>
    refine (ih _).trans ?_
    dsimp only
    split
    · exact State.dies_updCore _ _ _
    · rfl

/-- Bids that leave a die leave all its queues, and each queue keeps its registers. -/
theorem queues_takeBids (s : State) (d : DieId) (gone : Nat → Bool) :
    ((takeBids s d gone).die d).queues = (s.die d).queues.map (TQueue.without gone) := by
  unfold takeBids
  dsimp only
  rw [State.die, dies_foldl_goOn, ← State.die]
  split
  · rw [State.die_updDie_self, State.die_updDie_self]
  · rw [State.die_updDie_self]

theorem queueOf_congr {s t : State} (h : t.dies = s.dies) (sel : Word) : queueOf t sel = queueOf s sel := by
  unfold queueOf State.die
  simp only [h]

/-- What a write of TQCFG leaves of the queue it names. -/
theorem queueOf_setTqcfg (s : State) (c : CoreId) (v : Word) :
    let x := queueOf (setTqcfg s c v) (s.core c).sel.tqsel
    x.rank = v.extractLsb' 0 3 ∧ x.en = v.getLsbD 7 ∧ x.owner = v.extractLsb' 8 4 ∧
      x.bids = if v.getLsbD 7 then (queueOf s (s.core c).sel.tqsel).bids else [] := by
  unfold setTqcfg
  dsimp only
  split
  · next hv =>
    unfold queueOf
    simp
  · next hv =>
    rw [queueOf_congr (dies_killBids _ _)]
    unfold queueOf
    simp [queues_takeBids, TQueue.without]

/-! ### SQCTL and CRASHK -/

section
variable {s : State} {c q : CoreId}

/-- GO resumes a stopped core at its LEVEL, which is not H (R344). -/
theorem core_sqGo {l : Level} (hs : (s.core q).stoppedNow = true) (hl : levelOfCode (s.core q).sqlevel = some l) (hh : l ≠ .h) :
    (sqGo s q).core q = { s.core q with run := .running, level := l, stopReq := false, entering := none } := by
  unfold sqGo
  simp only [hs, hl]
  rw [if_neg hh]
  unfold wakeDie
  split
  · rw [State.core_updDie, State.core_updCore_self]
  · rw [State.core_updCore_self]

theorem exec_sqctlGo {l : Level} (ha : regAllowed s c 0x0A7 true = true) (hq : selectedSq s c = some q)
    (hs : (s.core q).stoppedNow = true) (hl : levelOfCode (s.core q).sqlevel = some l) (hh : l ≠ .h) :
    ∃ t, exec (.sqctlGo c) s = .next t ∧
      t.core q = { s.core q with run := .running, level := l, stopReq := false, entering := none } := by
  refine ⟨_, (if_pos ha).trans ?_, core_sqGo hs hl hh⟩
  rw [hq]

theorem exec_sqctlStop (ha : regAllowed s c 0x0A7 true = true) (hq : selectedSq s c = some q) (hr : (s.core q).run = .running) :
    exec (.sqctlStop c) s = .next (s.updCore q fun x => { x with stopReq := true }) := by
  refine (if_pos ha).trans ?_
  rw [hq]
  dsimp only
  have hs : sqStop (s.core q) = { s.core q with stopReq := true } := by
    unfold sqStop
    split
    · next h => rw [hr] at h; cases h
    · next h => rw [hr] at h; cases h
    · next h => rw [hr] at h; cases h
    · rfl
  rw [State.updCore, hs]
  rfl

theorem crashGo_unarmed {p : PartId} (h : (s.part p).crashk.getLsbD 0 = false) : crashGo s p = s :=
  if_pos (by rw [h]; rfl)

theorem exec_crashkGo {p : PartId} (ha : regAllowed s c 0x0EF true = true) (hp : (s.core c).part = some p)
    (hw : writeWaits s c 0x0EF = false) : exec (.crashkGo c) s = .next (crashGo s p) := by
  refine (if_pos (by simp [ha, hw])).trans ?_
  rw [hp]

/-- Without ARM nothing waits for a region. -/
theorem writeWaits_crashk_unarmed {p : PartId} (hp : (s.core c).part = some p) (h : (s.part p).crashk.getLsbD 0 = false) :
    writeWaits s c 0x0EF = false := by
  have hc : crashWaits s p = false := by
    unfold crashWaits
    rw [h]
    rfl
  simp [writeWaits, readWaits, hp, hc]

end

/-! ### FGCTL, FGLIST and the reads that acquire -/

section
variable {s : State} {c : CoreId} {v : Word} {d : Reg} {r : RegionId} {p : PartId}

theorem beginStop_running {u : State} (h1 : (u.ctl r).st = .running) (h2 : (u.dbg r).stop = .going) :
    beginStop u r = u.updDbg r fun x => { x with stop := .stopping } := if_pos ⟨h1, h2⟩

theorem fgGo_stopped {u : State} (h : (u.dbg r).stop ≠ .going) :
    fgGo u r = touch (u.updDbg r fun x => { x with stop := .going, replayAt := u.fclock }) r := if_neg h

theorem listGo_starts {u : State} (h1 : (u.dbg r).listing = false) (h2 : (u.dbg r).stop = .stopped) :
    listGo u r = u.updDbg r fun x => { x with listing := true, listDone := false, listErr := false, listOvf := false, listCount := 0 } :=
  if_neg (by simp [h1, h2])

theorem fgReg_of (hr : fgRegion s c = some r) (f : RegionDbg → Word) : fgReg s c f = f (s.dbg r) := by
  rw [fgReg, hr]
  rfl

theorem getLsbD_fglstatVal (x : RegionDbg) : (fglstatVal x).getLsbD 63 = x.listDone := by
  unfold fglstatVal boolWord
  cases x.listDone <;> cases x.listErr <;> cases x.listOvf <;> simp [BitVec.getLsbD_of_ge]

theorem regRead_fglstat (hr : fgRegion s c = some r) : regRead s c 0x0E5 = fglstatVal (s.dbg r) := fgReg_of hr fglstatVal

/-- FGLSTAT is an acquire where DONE reads 1 (R383). -/
theorem sreadCore_fglstat (hr : fgRegion s c = some r) :
    (sreadCore s c 0x0E5).2 = if (s.dbg r).listDone = true then s.updMs (acquireS (.coreD c)) else s := by
  have hq : readAcquires 0x0E5 (regRead s c 0x0E5) = (s.dbg r).listDone := by
    rw [regRead_fglstat hr, ← getLsbD_fglstatVal]
    rfl
  unfold sreadCore
  dsimp only
  rw [hq]
  rfl

theorem setWmbase_idle (hp : (s.core c).part = some p) (hd : deltaInFlight s p = false) (hi : (s.rules p).insts = []) :
    setWmbase s c v = s.updRules p fun q => { q with wmbase := v &&& 0xFC0FFFFFFFFF001F } := by
  unfold setWmbase
  rw [hp]
  exact if_neg (by simp [hd, hi])

theorem setWmbase_inFlight (hp : (s.core c).part = some p) (hd : deltaInFlight s p = true) : setWmbase s c v = s := by
  unfold setWmbase
  rw [hp]
  exact if_pos (by simp [hd])

theorem setPfqhead_of (hp : (s.core c).part = some p) : setPfqhead s c v = (s.updMs (releaseS (.coreD c))).updPart p fun q =>
    { q with pfqhead := BitVec.ofNat 16 ((v &&& 0xFFFF).toNat % 2 ^ (q.pfqsize.extractLsb' 0 5).toNat) } := by
  unfold setPfqhead updPartOf
  rw [State.core_updMs, hp]
  rfl

theorem cstopWrite_of {q : CoreId} (hv : cstopCore v = some q) (hp : (s.core c).part ≠ none) (hq : (s.core q).part = (s.core c).part) :
    cstopWrite s c v = s.updCore q fun x => { x with dbgstop := true } := by
  unfold cstopWrite
  rw [hv]
  exact if_pos (by simp [hq, Option.isSome_iff_ne_none.2 hp])

end

/-- Settles O22. -/
theorem registerEventsActAsTheirAccesses : Obligations.RegisterEventsActAsTheirAccesses := by
  intro s c v d n q r p
  refine ⟨fun ha => ?timecmp, fun ha hp hh => ?pfqhead, fun ha hd hp => ?pfqtail, fun ha hp hd hi => ?wmbase,
    fun ha hp hd => ?wmbaseKept, fun ha => ?tqcfg, exec_sqctlStop, fun l => exec_sqctlGo, fun ha hr hs => ?fgctl,
    fun ha hr hs hl ht => ?fglist, fun hr hs i hi => ?sleeps, fun ha hd hr => ?fglstat, fun ha hd hp => ?fgtrcnt,
    fun ha hv hp hq => ?cstop, fun ha hp => ?crashk, fun ha hw => regEvent_writes ha hw, fun ha => if_neg (by simp [ha])⟩
  case timecmp => exact regEvent_writes ha (writeWaits_eq_false (by decide) (by decide) (by decide) (by decide) (by decide))
  case pfqhead => exact (regEvent_writes ha (writeWaits_pfqhead.trans hh)).trans (congrArg _ (setPfqhead_of hp))
  case pfqtail =>
    refine (readEvent_reads ha hd).trans ?_
    rw [show regRead s c 0x023 = (s.part p).pfqtail.zeroExtend 64 from partReg_of hp _]
    rfl
  case wmbase =>
    exact (regEvent_writes ha (writeWaits_eq_false (by decide) (by decide) (by decide) (by decide) (by decide))).trans
      (congrArg _ (setWmbase_idle hp hd hi))
  case wmbaseKept =>
    exact (regEvent_writes ha (writeWaits_eq_false (by decide) (by decide) (by decide) (by decide) (by decide))).trans
      (congrArg _ (setWmbase_inFlight hp hd))
  case tqcfg =>
    exact ⟨_, regEvent_writes ha (writeWaits_eq_false (by decide) (by decide) (by decide) (by decide) (by decide)),
      queueOf_setTqcfg s c v⟩
  case fgctl =>
    have hw := (writeWaits_fgctl hr).trans hs
    exact ⟨fun h1 h2 => (fgEvent_acts ha hr hw).trans (congrArg _ (beginStop_running h1 h2)),
      fun h => (fgEvent_acts ha hr hw).trans (congrArg _ (fgGo_stopped h)), fgEvent_acts ha hr hw,
      fgEvent_acts (k := fun s r => s.updDbg r fun d => { d with mg := [] }) ha hr hw⟩
  case fglist => exact (fgEvent_acts ha hr ((writeWaits_fglist hr).trans hs)).trans (congrArg _ (listGo_starts hl ht))
  case sleeps =>
    have h3 := (writeWaits_fgctl hr).trans hs
    have h4 := (writeWaits_fglist hr).trans hs
    simp only [List.mem_cons, List.not_mem_nil, or_false] at hi
    obtain rfl | rfl | rfl | rfl | rfl := hi
    · exact fgEvent_waits h3
    · exact fgEvent_waits h3
    · exact fgEvent_waits h3
    · exact fgEvent_waits (k := fun s r => s.updDbg r fun d => { d with mg := [] }) h3
    · exact fgEvent_waits h4
  case fglstat =>
    refine (readEvent_reads ha hd).trans ?_
    rw [sreadCore_fglstat hr, regRead_fglstat hr]
  case fgtrcnt =>
    refine (readEvent_reads ha hd).trans ?_
    rw [show regRead s c 0x0E7 = (s.part p).fgtrcnt from partReg_of hp _]
    rfl
  case cstop =>
    exact (regEvent_writes ha (writeWaits_eq_false (by decide) (by decide) (by decide) (by decide) (by decide))).trans
      (congrArg _ (cstopWrite_of hv hp hq))
  case crashk =>
    exact ⟨fun h => (exec_crashkGo ha hp (writeWaits_crashk_unarmed hp h)).trans (congrArg _ (crashGo_unarmed h)),
      fun _ hw => exec_crashkGo ha hp hw, fun hw => if_neg (by simp [hw])⟩

end Sys2Proof.Machine
end

section
/-!
PROOFS. What leaves every core as it is and memory canonical: faults, traces and the waking of a region.
-/

namespace Sys2Proof.Machine

open Sys2Proof

/-- From s to t no core changes, nor whose turn it is, and memory stays canonical. -/
structure Calm (s t : State) : Prop where
  sq : t.sq = s.sq
  sy : t.sy = s.sy
  cur : t.cur = s.cur
  wf : Memory.wf s.ms.mem = true → Memory.wf t.ms.mem = true

section
variable {s t u : State}

theorem Calm.refl (s : State) : Calm s s := ⟨rfl, rfl, rfl, id⟩

theorem Calm.trans (h : Calm s t) (k : Calm t u) : Calm s u :=
  ⟨k.sq.trans h.sq, k.sy.trans h.sy, k.cur.trans h.cur, k.wf ∘ h.wf⟩

theorem Calm.core (h : Calm s t) (c : CoreId) : t.core c = s.core c := by
  cases c
  · simp only [State.core, h.sq]
  · simp only [State.core, h.sy]

theorem Calm.me (h : Calm s t) : t.me = s.me := by rw [State.me, h.cur, h.core, State.me]

theorem Calm.rg (h : Calm s t) (r : Reg) : t.rg r = s.rg r := by rw [State.rg, h.me, State.rg]

theorem Calm.updPart (h : Calm s t) (p : PartId) (f : Partition → Partition) : Calm s (t.updPart p f) := ⟨h.sq, h.sy, h.cur, h.wf⟩
theorem Calm.updRegion (h : Calm s t) (r : RegionId) (f : Region → Region) : Calm s (t.updRegion r f) := ⟨h.sq, h.sy, h.cur, h.wf⟩
theorem Calm.updCtl (h : Calm s t) (r : RegionId) (f : RegionCtl → RegionCtl) : Calm s (t.updCtl r f) := ⟨h.sq, h.sy, h.cur, h.wf⟩
theorem Calm.updFab (h : Calm s t) (r : RegionId) (f : Fabric → Fabric) : Calm s (t.updFab r f) := ⟨h.sq, h.sy, h.cur, h.wf⟩
theorem Calm.updDbg (h : Calm s t) (r : RegionId) (f : RegionDbg → RegionDbg) : Calm s (t.updDbg r f) := ⟨h.sq, h.sy, h.cur, h.wf⟩
theorem Calm.updDie (h : Calm s t) (d : DieId) (f : Die → Die) : Calm s (t.updDie d f) := ⟨h.sq, h.sy, h.cur, h.wf⟩
theorem Calm.updPorts (h : Calm s t) (f : Ports → Ports) : Calm s (t.updPorts f) := ⟨h.sq, h.sy, h.cur, h.wf⟩
theorem Calm.updRules (h : Calm s t) (p : PartId) (f : Rules → Rules) : Calm s (t.updRules p f) := ⟨h.sq, h.sy, h.cur, h.wf⟩
theorem Calm.useFresh (h : Calm s t) (n : Nat) : Calm s (t.useFresh n) := ⟨h.sq, h.sy, h.cur, h.wf⟩

/-- A change of the memory system that leaves memory as it is. -/
theorem Calm.updMs (h : Calm s t) {f : MemSys → MemSys} (hf : (f t.ms).mem = t.ms.mem) : Calm s (t.updMs f) :=
  ⟨h.sq, h.sy, h.cur, fun w => (congrArg Memory.wf hf).trans (h.wf w)⟩

/-- A change of the memory system that leaves memory canonical. -/
theorem Calm.updMs_wf (h : Calm s t) {f : MemSys → MemSys} (hf : Memory.wf t.ms.mem = true → Memory.wf (f t.ms).mem = true) :
    Calm s (t.updMs f) := ⟨h.sq, h.sy, h.cur, hf ∘ h.wf⟩

theorem Calm.foldl {α : Type} {f : State → α → State} (hf : ∀ s a, Calm s (f s a)) (l : List α) (h : Calm s t) :
    Calm s (l.foldl f t) := by
  induction l generalizing t with
  | nil => exact h
  | cons a l ih => exact ih (h.trans (hf t a))

theorem Keeps.calm (h : Keeps s t) : Calm s t := ⟨by rw [h.1], by rw [h.1], h.1.cur, h.2⟩

/-- What a checked access that succeeds leaves. -/
theorem MRes.All.calm_of_ok {α : Type} {r : MRes α} {a : α} (h : r.All (Keeps s)) (hr : r = .ok a t) : Calm s t := (h.of_ok hr).calm

theorem MRes.All.bindCalm {α β : Type} {r : MRes α} {k : α → State → MRes β} (h : r.All (Calm s))
    (hk : ∀ a t, (k a t).All (Calm t)) : (r.bind k).All (Calm s) :=
  h.bind fun a t ht => (hk a t).mono fun _ => ht.trans

theorem MRes.All.calm {α : Type} {r : MRes α} (h : r.All (Keeps s)) : r.All (Calm s) := h.mono fun _ k => k.calm

end

/-! ### Accesses of byte sequences -/

theorem loadBytes_all (s : State) (x : Ctx) (va : Word) (n : Nat) : (loadBytes s x va n).All (Keeps s) := by
  induction n generalizing s va with
  | zero => exact Keeps.refl s
  | succ n ih => exact (loadVa_all s x va 1).then fun b t => (ih t (va + 1)).then fun bs u => Keeps.refl u

theorem storeBytes_all (s : State) (x : Ctx) (va : Word) (n : Nat) (bs : List Byte) : (storeBytes s x va n bs).All (Keeps s) := by
  induction n generalizing s va bs with
  | zero => exact Keeps.refl s
  | succ n ih =>
    cases bs with
    | nil => exact Keeps.refl s
    | cons b bs =>
      unfold storeBytes
      dsimp only
      split
      · next h => exact (ih _ _ _).mono fun _ => ((storeVa_all s x va _ _).of_ok h).trans
      · exact Keeps.refl s
      · trivial

theorem storeWords_all (s : State) (p : PartId) (va : Word) (ws : List Word) : (storeWords s p va ws).All (Keeps s) :=
  storeBytes_all s _ va _ _

/-! ### Traces and faults -/

theorem calm_trace (s : State) (r : RegionId) (ctx : BitVec 12) (iter : BitVec 16) (row : BitVec 5) (col slot : BitVec 6)
    (event aux : BitVec 8) (tok : Option Token) : Calm s (trace s r ctx iter row col slot event aux tok) := by
  unfold trace
  dsimp only
  split
  · exact (Calm.refl s).updPart _ _
  · exact Calm.refl s

theorem calm_setWerr (s : State) (p : PartId) : Calm s (setWerr s p) := (Calm.refl s).updPart _ _

theorem calm_pfqRewrite (s : State) (p : PartId) (id : Nat) (w0 : Word) : Calm s (pfqRewrite s p id w0).2 := by
  unfold pfqRewrite
  dsimp only
  split
  · split
    · split
      · split
        · next h => exact (storeWords_all s p _ _).calm_of_ok h
        · exact calm_setWerr s p
        · exact calm_setWerr s p
        · exact Calm.refl s
      · exact Calm.refl s
    · exact Calm.refl s
  · exact Calm.refl s

theorem calm_pfqWrite (s : State) (p : PartId) (id : Nat) (ws : List Word) : Calm s (pfqWrite s p id ws).2 := by
  unfold pfqWrite
  dsimp only
  split
  · exact calm_pfqRewrite s p id _
  · split
    · split
      · next h =>
        dsimp only
        exact ((storeWords_all s p _ _).calm_of_ok h).updPart _ _
      · exact calm_setWerr s p
      · exact calm_setWerr s p
      · exact Calm.refl s
    · exact Calm.refl s

theorem calm_pfqFlush (p : PartId) (s : State) (l : List (Nat × List Word)) : Calm s (pfqFlush p s l) := by
  induction l generalizing s with
  | nil => exact Calm.refl s
  | cons x l ih =>
    obtain ⟨id, ws⟩ := x
    have h := calm_pfqWrite s p id ws
    unfold pfqFlush
    split
    · next u hu =>
      rw [hu] at h
      exact (h.updPart p _).trans (ih _)
    · next u _ hu =>
      rw [hu] at h
      exact h

theorem calm_recordFault (s : State) (p : PartId) (r : RegionId) (cause : BitVec 8) (tag : Word) (resumable parked keep : Bool)
    (rest : List Word) : Calm s (recordFault s p r cause tag resumable parked keep rest).2 := by
  unfold recordFault
  dsimp only
  generalize hf : pfqFlush p _ _ = u
  have hu : Calm s u := by
    rw [← hf]
    refine Calm.trans ?_ (calm_pfqFlush _ _ _)
    exact ⟨rfl, rfl, rfl, id⟩
  generalize hx : (if (u.part p).deferred.isEmpty = true then _ else _) = x
  have hc : Calm s x.2 := by
    rw [← hx]
    split
    · exact hu.trans (calm_pfqWrite _ _ _ _)
    · exact hu
  split
  · exact hc
  · split
    · dsimp only
      exact hc.updPart _ _
    · dsimp only
      exact hc.updPart _ _

theorem calm_noteFault (s : State) (n : Site) (cause : BitVec 8) (i : FaultInfo) : Calm s (noteFault s n cause i) :=
  calm_recordFault s _ _ _ _ _ _ _ _

theorem calm_mergeInto (s : State) (p : PartId) (page : Nat) : Calm s (mergeInto s p page) := by
  unfold mergeInto
  split
  · exact Calm.refl s
  · next m _ =>
    dsimp only
    generalize hg : s.updMs _ = u
    have hu : Calm s u := by
      rw [← hg]
      exact ⟨rfl, rfl, rfl, id⟩
    split
    · exact hu
    · next f _ =>
      split
      · next sq _ =>
        have h := calm_pfqRewrite u p f.id (pfqWord0 f.cause f.region true f.resumable f.parked (m.count + 1) sq)
        split
        · next w hw =>
          rw [hw] at h
          exact (hu.trans h).updPart _ _
        · next w _ hw =>
          rw [hw] at h
          exact hu.trans h
      · exact hu.updPart _ _

theorem calm_freeze (s : State) (r : RegionId) (cause : BitVec 8) (va : Word) : Calm s (freeze s r cause va) := by
  unfold freeze
  dsimp only
  exact (((Calm.refl s).updCtl r _).trans (calm_trace _ _ _ _ _ _ _ _ _ _)).trans (calm_recordFault _ _ _ _ _ _ _ _ _)

/-! ### Waking a region -/

theorem calm_wakeRegion (s : State) (r : RegionId) : Calm s (wakeRegion s r) := by
  have up : Calm s (s.updCtl r fun c => { c with power := 0, idleSince := some s.fclock }) := (Calm.refl s).updCtl _ _
  unfold wakeRegion
  dsimp only
  split
  · exact Calm.refl s
  · split
    · split
      · exact up
      · exact up.trans (calm_freeze _ _ _ _)
      · exact Calm.refl s
      · exact Calm.refl s
    · exact up

end Sys2Proof.Machine
end

section
/-!
PROOFS. Operations: how they are issued, refused and ended (R163 to R165), those on regions (R168 to R178), those on the engines
(R170, R179 to R183, R199), and the resolution of faults (R200).
-/

namespace Sys2Proof.Machine

open Sys2Proof

/-! ### Issuing an operation -/

section
variable {s t : State} {d a b e : Reg} {p : PartId} {r : RegionId} {o : Op} {c : BitVec 8}

theorem endNow_eq (t : State) (o : Op) (v : Word) : endNow t o v = .next (endOp t o v).retired := retire_retired _

theorem start_eq (t : State) (o : Op) (k : OpKind) : start t o k = .next (t.withOp { o with kind := k }).retired := retire_retired _

theorem me_issueState (s : State) (d : Reg) :
    (issueState s d).me = { s.me with pend := if d = 0 then s.me.pend else s.me.pend ||| (1#32 <<< d.toNat) } :=
  State.me_updMe _ _

@[simp] theorem rg_issueState (s : State) (d r : Reg) : (issueState s d).rg r = s.rg r := by
  unfold State.rg
  rw [me_issueState]
  rfl

@[simp] theorem level_issueOp (s : State) (d : Reg) (p : PartId) : (issueOp s d p).lvl = s.me.level := rfl
@[simp] theorem part_issueOp (s : State) (d : Reg) (p : PartId) : (issueOp s d p).part = p := rfl
@[simp] theorem core_issueOp (s : State) (d : Reg) (p : PartId) : (issueOp s d p).core = s.cur := rfl

theorem State.CanIssue.mono {us vs : List Reg} (h : s.CanIssue d us p) (hv : ∀ r ∈ vs, r ∈ us) : s.CanIssue d vs p := by
  obtain ⟨hf, hc, hp, hs⟩ := h
  refine ⟨fun r hr => hf r ?_, hc, hp, hs⟩
  obtain rfl | hr := List.mem_cons.1 hr
  · exact List.mem_cons_self
  · exact List.mem_cons_of_mem _ (hv r hr)

theorem onRegion_error {s0 : State} {v : Word} (h : regionArg s o v = .error c) (k : RegionId → State → Out) :
    onRegion s0 s o v k = endNow s o (failWord c) := by
  rw [onRegion, h]

theorem onRegion_ok {s0 : State} {v : Word} (h : regionArg s o v = .ok r) (hw : ((wakeRegion s r).ctl r).power = 0)
    (k : RegionId → State → Out) : onRegion s0 s o v k = k r (wakeRegion s r) := by
  rw [onRegion, h]
  exact if_pos hw

@[simp] theorem rg_wakeRegion (s : State) (r : RegionId) (q : Reg) : (wakeRegion s r).rg q = s.rg q := (calm_wakeRegion s r).rg q

end

/-! ### Operations that are refused -/

section
variable {s : State} {d a b e : Reg} {p : PartId} {r : RegionId} {c : BitVec 8}

/-- What an instruction on a region does, once it is issued, when the region is not the caller's. -/
theorem issue_onRegion_error {us : List Reg} (h : s.CanIssue d us p) (hr : regionArg (issueState s d) (issueOp s d p) (s.rg a) = .error c)
    (k : State → Op → RegionId → State → Out) :
    issue s d us (fun t o => onRegion s t o (t.rg a) (k t o)) =
      .next (endOp (issueState s d) (issueOp s d p) (0x100 ||| c.zeroExtend 64)).retired := by
  rw [issue_eq s h, rg_issueState, onRegion_error hr, endNow_eq]
  rfl

/-- What an instruction on a region does, once it is issued, when the region is the caller's and awake. -/
theorem issue_onRegion_ok {us : List Reg} (h : s.CanIssue d us p) (hr : regionArg (issueState s d) (issueOp s d p) (s.rg a) = .ok r)
    (hw : ((wakeRegion (issueState s d) r).ctl r).power = 0) (k : State → Op → RegionId → State → Out) :
    issue s d us (fun t o => onRegion s t o (t.rg a) (k t o)) =
      k (issueState s d) (issueOp s d p) r (wakeRegion (issueState s d) r) := by
  rw [issue_eq s h, rg_issueState, onRegion_ok hr hw]

theorem regionArg_beyond {o : Op} {v : Word} (h : 63 < v.toNat) : regionArg s o v = .error 0x21 :=
  if_pos (by simp [h])

theorem regionArg_of_other {o : Op} {v : Word} (h : (s.ctl (v.setWidth 6)).st ≠ .free) (hp : (s.ctl (v.setWidth 6)).part ≠ o.part) :
    regionArg s o v = .error 0x21 := by
  have hq : ((s.ctl (v.setWidth 6)).st != .free && (s.ctl (v.setWidth 6)).part != o.part) = true := by simp [h, hp]
  unfold regionArg
  dsimp only
  rw [if_pos hq]
  exact ite_self _

variable (h1 : s.CanIssue d [a] p) (h3 : s.CanIssue d [a, b, e] p)
  (hr : regionArg (issueState s d) (issueOp s d p) (s.rg a) = .ok r) (hw : ((wakeRegion (issueState s d) r).ctl r).power = 0)

include h1 hr hw in
theorem killr_refused (hs : ((wakeRegion (issueState s d) r).ctl r).st ∈ [RState.free, .loading]) :
    s.EndedAtOnce (.killr d a) d p (0x100 ||| (0x20 : BitVec 8).zeroExtend 64) (wakeRegion (issueState s d) r) := by
  change execKillr d a s = _
  unfold execKillr
  rw [issue_onRegion_ok h1 hr hw]
  simp only [List.mem_cons, List.not_mem_nil, or_false] at hs
  obtain hs | hs := hs
  · rw [hs]
    exact endNow_eq _ _ _
  · rw [hs]
    exact endNow_eq _ _ _

include h1 hr hw in
theorem sbar_refused (hs : ((wakeRegion (issueState s d) r).ctl r).st ≠ .running) :
    s.EndedAtOnce (.sbar d a) d p (0x100 ||| (0x20 : BitVec 8).zeroExtend 64) (wakeRegion (issueState s d) r) := by
  change execSbar d a s = _
  unfold execSbar
  rw [issue_onRegion_ok h1 hr hw]
  rw [if_neg (by simp [hs])]
  exact endNow_eq _ _ _

include h1 hr hw in
theorem preemptKill_refused (hs : ((wakeRegion (issueState s d) r).ctl r).st ≠ .running) :
    s.EndedAtOnce (.preemptKill d a b) d p (0x100 ||| (0x20 : BitVec 8).zeroExtend 64) (wakeRegion (issueState s d) r) := by
  change execPreemptKill d a b s = _
  unfold execPreemptKill
  rw [issue_onRegion_ok h1 hr hw]
  dsimp only
  rw [if_neg (by simp [hs])]
  exact endNow_eq _ _ _

include h3 hr hw in
theorem launch_misaligned (ha : (s.rg e).toNat % 8 ≠ 0) :
    s.EndedAtOnce (.launch d a b e) d p (0x100 ||| (0x22 : BitVec 8).zeroExtend 64) (wakeRegion (issueState s d) r) := by
  change execLaunch d a b e s = _
  unfold execLaunch
  rw [issue_onRegion_ok h3 hr hw]
  dsimp only
  rw [rg_wakeRegion, rg_issueState, if_pos (not_aligned_eq_true ha)]
  exact endNow_eq _ _ _

include h1 in
theorem loadimg_misaligned (ha : (s.rg a).toNat % 64 ≠ 0) :
    s.EndedAtOnce (.loadimg d a) d p (0x100 ||| (0x22 : BitVec 8).zeroExtend 64) (issueState s d) := by
  change execLoadimg d a s = _
  unfold execLoadimg
  rw [issue_eq s h1]
  dsimp only
  rw [rg_issueState, if_pos (not_aligned_eq_true ha)]
  exact endNow_eq _ _ _

include h1 in
theorem cmpct_misaligned (ha : (s.rg a).toNat % 64 ≠ 0) :
    s.EndedAtOnce (.cmpct d a) d p (0x100 ||| (0x22 : BitVec 8).zeroExtend 64) (issueState s d) := by
  change execCmpct d a s = _
  unfold execCmpct
  rw [issue_eq s h1]
  rw [rg_issueState, if_neg (by simp [aligned, ha])]
  exact endNow_eq _ _ _

include h3 in
theorem launch_refused (hr : regionArg (issueState s d) (issueOp s d p) (s.rg a) = .error c) :
    s.EndedAtOnce (.launch d a b e) d p (0x100 ||| c.zeroExtend 64) (issueState s d) := by
  change execLaunch d a b e s = _
  unfold execLaunch
  exact issue_onRegion_error h3 hr _

include h3 in
theorem strm_refused (hr : regionArg (issueState s d) (issueOp s d p) (s.rg a) = .error c) :
    s.EndedAtOnce (.strm d a b e) d p (0x100 ||| c.zeroExtend 64) (issueState s d) := by
  change execStrm d a b e s = _
  unfold execStrm
  exact issue_onRegion_error h3 hr _

include h1 in
theorem regionOperation_refused (hr : regionArg (issueState s d) (issueOp s d p) (s.rg a) = .error c) {i : Instr}
    (hi : i ∈ [Instr.killr d a, .sbar d a, .preemptKill d a b]) :
    s.EndedAtOnce i d p (0x100 ||| c.zeroExtend 64) (issueState s d) := by
  simp only [List.mem_cons, List.not_mem_nil, or_false] at hi
  obtain rfl | rfl | rfl := hi
  · change execKillr d a s = _
    unfold execKillr
    exact issue_onRegion_error h1 hr _
  · change execSbar d a s = _
    unfold execSbar
    exact issue_onRegion_error h1 hr _
  · change execPreemptKill d a b s = _
    unfold execPreemptKill
    exact issue_onRegion_error h1 hr _

end

/-- Settles O28. -/
theorem refusedOperationsEndWithTheirCause : Obligations.RefusedOperationsEndWithTheirCause := by
  intro s d a b e p r c
  exact ⟨fun h hr => ⟨launch_refused h hr, strm_refused h hr⟩,
    fun h hr => ⟨regionOperation_refused (b := b) h hr (by simp), regionOperation_refused (b := b) h hr (by simp),
      regionOperation_refused (b := b) h hr (by simp)⟩,
    fun h hm hs => killr_refused h hm.1 hm.2 hs,
    fun h hm hs => ⟨sbar_refused h hm.1 hm.2 hs, preemptKill_refused h hm.1 hm.2 hs⟩,
    fun h hm ha => launch_misaligned h hm.1 hm.2 ha, fun h ha => ⟨loadimg_misaligned h ha, cmpct_misaligned h ha⟩,
    regionArg_beyond, fun _ hs hp => regionArg_of_other hs hp⟩

/-! ### RQRY (Table 9-2) -/

/-- The fields of RQRY's word. -/
theorem rqryWord_fields {s : State} {c : CoreId} {v : Word} (h1 : v.toNat ≤ 63) (h2 : (s.ctl (v.setWidth 6)).st ≠ .free)
    (h3 : some (s.ctl (v.setWidth 6)).part = (s.core c).part) :
    let x := s.ctl (v.setWidth 6)
    rqryWord s c v = saveUnits x ++ (0#10 ++ dieOfRegion (v.setWidth 6) ++ BitVec.ofNat 4 x.ocol ++ BitVec.ofNat 4 x.orow ++
      BitVec.ofNat 4 x.ccols ++ BitVec.ofNat 4 x.crows ++ BitVec.ofNat 4 (stateCode x.st) : BitVec 32) := by
  exact if_neg (by simp [h1, h2, h3])

theorem extractLsb'_append_high {v w : Nat} (hi : BitVec v) (lo : BitVec w) (i l : Nat) :
    (hi ++ lo).extractLsb' (i + w) l = hi.extractLsb' i l := by
  rw [BitVec.extractLsb'_append_eq_of_le (Nat.le_add_left w i), Nat.add_sub_cancel]

theorem extractLsb'_append_low {v w : Nat} (hi : BitVec v) (lo : BitVec w) : (hi ++ lo).extractLsb' 0 w = lo := by
  rw [BitVec.extractLsb'_append_eq_of_add_le (Nat.zero_add w).le, BitVec.extractLsb'_eq_self]

/-- Reading back the fields of a concatenation laid out as Table 9-2. -/
theorem extract_table92 (sv : BitVec 32) (rsv : BitVec 10) (die : BitVec 2) (oc orr cc cr st : BitVec 4) :
    let v : Word := sv ++ (rsv ++ die ++ oc ++ orr ++ cc ++ cr ++ st : BitVec 32)
    v.extractLsb' 0 4 = st ∧ v.extractLsb' 4 4 = cr ∧ v.extractLsb' 8 4 = cc ∧ v.extractLsb' 12 4 = orr ∧
      v.extractLsb' 16 4 = oc ∧ v.extractLsb' 20 2 = die ∧ v.extractLsb' 22 10 = rsv ∧ v.extractLsb' 32 32 = sv := by
  have low (i l : Nat) (h : i + l ≤ 32) : (sv ++ (rsv ++ die ++ oc ++ orr ++ cc ++ cr ++ st : BitVec 32) : Word).extractLsb' i l =
      (rsv ++ die ++ oc ++ orr ++ cc ++ cr ++ st).extractLsb' i l := BitVec.extractLsb'_append_eq_of_add_le h
  exact ⟨(low 0 4 (by decide)).trans (extractLsb'_append_low _ _),
    (low 4 4 (by decide)).trans ((extractLsb'_append_high _ _ 0 4).trans (extractLsb'_append_low _ _)),
    (low 8 4 (by decide)).trans ((extractLsb'_append_high _ _ 4 4).trans
      ((extractLsb'_append_high _ _ 0 4).trans (extractLsb'_append_low _ _))),
    (low 12 4 (by decide)).trans ((extractLsb'_append_high _ _ 8 4).trans
      ((extractLsb'_append_high _ _ 4 4).trans ((extractLsb'_append_high _ _ 0 4).trans (extractLsb'_append_low _ _)))),
    (low 16 4 (by decide)).trans ((extractLsb'_append_high _ _ 12 4).trans ((extractLsb'_append_high _ _ 8 4).trans
      ((extractLsb'_append_high _ _ 4 4).trans ((extractLsb'_append_high _ _ 0 4).trans (extractLsb'_append_low _ _))))),
    (low 20 2 (by decide)).trans ((extractLsb'_append_high _ _ 16 2).trans ((extractLsb'_append_high _ _ 12 2).trans
      ((extractLsb'_append_high _ _ 8 2).trans ((extractLsb'_append_high _ _ 4 2).trans
        ((extractLsb'_append_high _ _ 0 2).trans (extractLsb'_append_low _ _)))))),
    (low 22 10 (by decide)).trans ((extractLsb'_append_high _ _ 18 10).trans ((extractLsb'_append_high _ _ 14 10).trans
      ((extractLsb'_append_high _ _ 10 10).trans ((extractLsb'_append_high _ _ 6 10).trans
        ((extractLsb'_append_high _ _ 2 10).trans ((extractLsb'_append_high _ _ 0 10).trans BitVec.extractLsb'_eq_self)))))),
    (extractLsb'_append_high _ _ 0 32).trans BitVec.extractLsb'_eq_self⟩

theorem stateCode_lt (x : RState) : stateCode x < 16 := by
  cases x <;> decide

/-- Settles O29. -/
theorem regionsAreDescribedByRqry : Obligations.RegionsAreDescribedByRqry := by
  intro s d a hf
  refine ⟨rqryWord s s.cur (s.rg a), (needRegs_eq s hf _).trans (retire_retired _), fun h => if_pos ?_, fun h1 h2 h3 => ?_⟩
  · simp only [Bool.or_eq_true, decide_eq_true_eq, bne_iff_ne, ne_eq, or_assoc]
    exact h
  · rw [rqryWord_fields h1 h2 h3]
    obtain ⟨hst, hcr, hcc, hor, hoc, hdie, hrsv, hsv⟩ := extract_table92 (saveUnits (s.ctl ((s.rg a).setWidth 6))) 0#10
      (dieOfRegion ((s.rg a).setWidth 6)) (BitVec.ofNat 4 (s.ctl ((s.rg a).setWidth 6)).ocol)
      (BitVec.ofNat 4 (s.ctl ((s.rg a).setWidth 6)).orow) (BitVec.ofNat 4 (s.ctl ((s.rg a).setWidth 6)).ccols)
      (BitVec.ofNat 4 (s.ctl ((s.rg a).setWidth 6)).crows) (BitVec.ofNat 4 (stateCode (s.ctl ((s.rg a).setWidth 6)).st))
    refine ⟨?_, hcr, hcc, hor, hoc, hdie, hrsv, hsv⟩
    rw [hst, BitVec.toNat_ofNat]
    exact Nat.mod_eq_of_lt (stateCode_lt _)

/-! ### Operations that end -/

theorem finishOp_eq (s : State) (o : Op) (v : Word) : finishOp s o v = (completeOp s o v).updMs (acquireS (.coreD o.core)) := rfl

theorem getLsbD_clear (x : BitVec 32) (i : Nat) (j : Nat) (h : j < 32) :
    (x &&& ~~~(1#32 <<< i)).getLsbD j = (x.getLsbD j && decide (j ≠ i)) := by
  by_cases hji : j < i
  · simp [hji, Nat.ne_of_lt hji, h]
  · by_cases he : j = i
    · subst he
      simp
    · have : j - i ≠ 0 := by omega
      simp [he, hji, this, h]

/-- Settles O31. -/
theorem operationsDeliverTheirValue : Obligations.OperationsDeliverTheirValue := by
  intro s o v
  dsimp only
  rw [finishOp_eq]
  simp only [State.core_updMs, core_completeOp, State.ops_updMs, ops_completeOp]
  refine ⟨fun hd => ?value, ?pending, fun r hr => ⟨?others, ?othersPending⟩, trivial, trivial, fun c hc => ?cores, fun x hx => ?gone,
    fun x hx hi => List.mem_filter.2 ⟨hx, by simpa using hi⟩, ?parts, ?regions⟩
  case value =>
    unfold Core.rg
    simp only [if_neg hd]
    exact Vector.getElem_set_self _
  case pending =>
    unfold Core.pending
    rw [getLsbD_clear _ _ _ o.d.isLt]
    simp
  case others =>
    unfold Core.rg
    have hn : o.d.toNat ≠ r.toNat := fun h => hr (BitVec.eq_of_toNat_eq h.symm)
    by_cases hd : o.d = 0
    · simp [hd]
    · simp only [hd, if_false, Vector.getElem_set_ne _ _ hn]
  case othersPending =>
    unfold Core.pending
    rw [getLsbD_clear _ _ _ r.isLt]
    have hn : r.toNat ≠ o.d.toNat := fun h => hr (BitVec.eq_of_toNat_eq h)
    simp [hn]
  case cores =>
    unfold completeOp
    rw [State.core_updCore_ne _ hc]
    cases c <;> rfl
  case gone => simpa using (List.mem_filter.1 hx).2
  case parts => exact State.parts_updCore _ _ _
  case regions => exact State.regions_updCore _ _ _

end Sys2Proof.Machine
end

section
/-!
PROOFS. The operations that begin: on regions (R168 to R178), on the engines, on pages, on the rule engine's settling and on SQ cores
(R170, R179 to R183, R188, R189, R199).
-/

namespace Sys2Proof.Machine

open Sys2Proof

/-! ### What the checks of RESUMR read -/

theorem SameButMs.die {s t : State} (h : SameButMs s t) (d : DieId) : t.die d = s.die d := by rw [h]; rfl

theorem readCfg_all (s : State) (x : Ctx) (va : Word) (idx : BitVec 6) : (readCfg s x va idx).All (Keeps s) := by
  unfold readCfg
  refine (loadBytes_all s x va 64).then fun h t => (loadBytes_all t x _ _).then fun ts u => ?_
  dsimp only
  split
  · exact Keeps.refl u
  · refine (loadBytes_all u x _ _).then fun cb v => ?_
    split
    · exact Keeps.refl v
    · exact (loadBytes_all v x _ _).then fun _ w => Keeps.refl w

theorem reread_all (s : State) (x : Ctx) (va : Word) (idx : BitVec 6) (rsig : BitVec 256) : (reread s x va idx rsig).All (Keeps s) := by
  have h := readCfg_all s x va idx
  unfold reread
  split
  · next hr => rw [hr] at h; exact h
  · next hr => rw [hr] at h; exact h
  · exact Keeps.refl s
  · trivial

theorem saveRsigOk_all (s : State) (o : Op) (h : List Byte) (rsig : BitVec 256) : (saveRsigOk s o h rsig).All (Keeps s) := by
  unfold saveRsigOk
  split
  · exact reread_all s _ _ _ _
  · exact Keeps.refl s

/-! ### Bids -/

/-- A bid that its queue takes, among the first 16, is under way (R364). -/
theorem enqueue_starts {t : State} {o : Op} {z : DieId} {q : BitVec 6} {tq : TQueue} (k : OpKind)
    (hq : (t.die z).queues[q.toNat]'q.isLt = tq) (he : tq.en = true) (ho : tq.owner = o.part) (hl : tq.bids.length < 16) :
    enqueue t o z q k = .next ((t.updDie z fun y => { y with
      queues := y.queues.set q.toNat { tq with bids := tq.bids ++ [o.id] } q.isLt, round := true, w4 := false }).withOp
        { o with kind := k }).retired := by
  subst hq
  unfold enqueue
  dsimp only
  rw [if_neg (by simp [he, ho]), start_eq]
  dsimp only
  rw [if_neg (by omega)]

section
variable {s u : State} {d a b e : Reg} {p : PartId} {r : RegionId}

theorem reqr_starts (h : s.CanIssue d [a, b] p) (ha : (s.rg a).extractLsb' 10 54 = 0) (hb : (s.rg b).extractLsb' 6 58 = 0)
    (hr1 : 1 ≤ ((s.rg a).extractLsb' 0 4).toNat) (hr2 : ((s.rg a).extractLsb' 0 4).toNat ≤ 9)
    (hc1 : 1 ≤ ((s.rg a).extractLsb' 4 4).toNat) (hc2 : ((s.rg a).extractLsb' 4 4).toNat ≤ 11) :
    exec (.reqr d a b) s =
      let die := (dieOfCore s.cur).getD ((s.rg a).extractLsb' 8 2)
      let q := (s.rg b).extractLsb' 0 6
      enqueue (issueState s d) (issueOp s d p) die q (.reqr die q ((s.rg a).extractLsb' 0 4).toNat ((s.rg a).extractLsb' 4 4).toNat) := by
  change execReqr d a b s = _
  unfold execReqr
  rw [issue_eq s h]
  simp only [rg_issueState, core_issueOp]
  refine if_neg ?_
  simp only [Bool.or_eq_true, bne_iff_ne, ne_eq, decide_eq_true_eq, not_or, not_not, not_lt]
  exact ⟨⟨⟨⟨⟨ha, hb⟩, hr1⟩, hr2⟩, hc1⟩, hc2⟩

theorem resumr_starts {hd body : List Byte} {s1 s2 s3 : State} {sv : Save} {g : Cfg} (h : s.CanIssue d [a, b] p)
    (h1 : loadBytes (issueState s d) (hubCtx p s.me.level) (s.rg a) 128 = .ok hd s1)
    (hr : saveAgrees s1 (issueOp s d p) hd = .ok r)
    (h2 : loadBytes s1 (hubCtx p s.me.level) (s.rg a + 128) (4096 * leAt hd 12 4 - 128) = .ok body s2)
    (hv : savedAs s2 r (shake256 body) = some sv) (hh : leAt hd 96 32 = (shake256 body).toNat) (hg : sv.region.ctl.cfg = some g)
    (h3 : saveRsigOk s2 (issueOp s d p) hd g.rsig = .ok true s3) (hb : replayBad (s3.dbg r) g = false) :
    exec (.resumr d a b) s = enqueue s3 (issueOp s d p) (dieOfRegion r) ((s.rg b).extractLsb' 0 6)
      (.resumr (dieOfRegion r) ((s.rg b).extractLsb' 0 6) (s.rg a) r) := by
  change execResumr d a b s = _
  unfold execResumr
  rw [issue_eq s h]
  simp only [rg_issueState, part_issueOp, level_issueOp, h1, hr, h2, hv, hh, hg, h3, hb, beq_self_eq_true, Bool.not_true,
    Bool.false_eq_true, if_false]

variable (hm : regionArg (issueState s d) (issueOp s d p) (s.rg a) = .ok r ∧ ((wakeRegion (issueState s d) r).ctl r).power = 0)

include hm in
theorem launch_starts {x : Xl} (h : s.CanIssue d [a, b, e] p) (ha : (s.rg e).toNat % 8 = 0)
    (hx : probeVa (wakeRegion (issueState s d) r) (hubCtx p s.me.level) true (s.rg e) = .ok x u)
    (hs : (u.ctl r).st ∈ [RState.idle, .running, .loading]) :
    s.Started (.launch d a b e) d p (.launch r (s.rg b &&& ~~~63#64) ((s.rg b).extractLsb' 0 6) (s.rg e)) u := by
  change execLaunch d a b e s = _
  unfold execLaunch
  rw [issue_onRegion_ok h hm.1 hm.2]
  simp only [rg_wakeRegion, rg_issueState, part_issueOp, level_issueOp, not_aligned_eq_false ha, Bool.false_eq_true, if_false, hx]
  simp only [List.mem_cons, List.not_mem_nil, or_false] at hs
  obtain hs | hs | hs := hs
  all_goals
    rw [hs]
    exact start_eq _ _ _

include hm in
theorem killr_starts (h : s.CanIssue d [a] p) (hs : ((wakeRegion (issueState s d) r).ctl r).st ∈ [RState.running, .frozen, .saved]) :
    s.Started (.killr d a) d p (.killr r) (killRunning (wakeRegion (issueState s d) r) r 0xA9) := by
  change execKillr d a s = _
  unfold execKillr
  rw [issue_onRegion_ok h hm.1 hm.2]
  simp only [List.mem_cons, List.not_mem_nil, or_false] at hs
  obtain hs | hs | hs := hs
  all_goals
    rw [hs]
    exact start_eq _ _ _

include hm in
theorem killr_idle_starts (h : s.CanIssue d [a] p) (hs : ((wakeRegion (issueState s d) r).ctl r).st = .idle) :
    s.Started (.killr d a) d p (.killr r) (freeRegion (wakeRegion (issueState s d) r) r) := by
  change execKillr d a s = _
  unfold execKillr
  rw [issue_onRegion_ok h hm.1 hm.2, hs]
  exact start_eq _ _ _

include hm in
theorem preemptKill_starts {g : Cfg} (h : s.CanIssue d [a] p) (hs : ((wakeRegion (issueState s d) r).ctl r).st = .running)
    (hg : ((wakeRegion (issueState s d) r).ctl r).cfg = some g) (hi : g.flags.getLsbD 0 = true) :
    s.Started (.preemptKill d a b) d p (.killr r) (killRunning (wakeRegion (issueState s d) r) r 0xA8) := by
  change execPreemptKill d a b s = _
  unfold execPreemptKill
  rw [issue_onRegion_ok h hm.1 hm.2]
  dsimp only
  rw [hg]
  dsimp only
  rw [if_pos (Bool.and_eq_true_iff.2 ⟨decide_eq_true hs, hi⟩)]
  exact start_eq _ _ _

include hm in
theorem preemptSnapshot_starts (h : s.CanIssue d [a, b] p) (hs : ((wakeRegion (issueState s d) r).ctl r).st ∈ [RState.running, .frozen])
    (ha : (s.rg b).toNat % 4096 = 0)
    (hp : probePages (wakeRegion (issueState s d) r) (hubCtx p s.me.level) (s.rg b)
      (saveUnits ((wakeRegion (issueState s d) r).ctl r)).toNat = .ok () u) :
    s.Started (.preemptSnapshot d a b) d p (.snapshot r (s.rg b)) u := by
  change execPreemptSnapshot d a b s = _
  unfold execPreemptSnapshot
  rw [issue_onRegion_ok h hm.1 hm.2]
  simp only [rg_wakeRegion, rg_issueState, part_issueOp, level_issueOp, not_aligned_eq_false ha, Bool.false_eq_true, if_false, hp]
  simp only [List.mem_cons, List.not_mem_nil, or_false] at hs
  obtain hs | hs := hs
  all_goals
    rw [hs]
    exact start_eq _ _ _

include hm in
theorem strm_starts {g : Cfg} {pb : PbtAt} {h : ShapeRec} (hc : s.CanIssue d [a, b, e] p)
    (hs : ((wakeRegion (issueState s d) r).ctl r).st ∈ [RState.loading, .running])
    (hg : ((wakeRegion (issueState s d) r).ctl r).cfg = some g) (hp : pbtOf g (s.rg e) = some pb)
    (he : (s.rg e).extractLsb' 9 55 = 0) (hn : hasConsumer g (s.rg e) pb = true) (hb : s.rg b = 0)
    (hh : strmRecord pb.raw (s.rg e) = .ok h) (hend : ending ((wakeRegion (issueState s d) r).ctl r) = false)
    (hsy : regionSyncHeld (wakeRegion (issueState s d) r) r = false) (hch : inChecks (wakeRegion (issueState s d) r) r = false) :
    s.Started (.strm d a b e) d p (.strm r (s.rg e) h ((wakeRegion (issueState s d) r).ctl r).phase (portOut (s.rg e)))
      ((regionSync (wakeRegion (issueState s d) r) r).updCtl r fun c => { c with idleSince := none, quietAt := none }) := by
  change execStrm d a b e s = _
  unfold execStrm
  rw [issue_onRegion_ok hc hm.1 hm.2]
  simp only [rg_wakeRegion, rg_issueState, hch, Bool.false_eq_true, if_false, hg]
  simp only [List.mem_cons, List.not_mem_nil, or_false] at hs
  obtain hs | hs := hs
  all_goals
    simp only [hs, hp, hend, he, hn, hb, hh, hsy, Bool.not_true, Bool.or_false, Bool.false_eq_true, if_false,
      if_true]
    exact start_eq _ _ _

include hm in
theorem strm_waits_for_checks (h : s.CanIssue d [a, b, e] p) (hch : inChecks (wakeRegion (issueState s d) r) r = true) :
    exec (.strm d a b e) s = .next s := by
  change execStrm d a b e s = _
  unfold execStrm
  rw [issue_eq s h, rg_issueState, onRegion_ok hm.1 hm.2]
  dsimp only
  rw [if_pos hch]

include hm in
theorem sbar_starts (h : s.CanIssue d [a] p) (hs : ((wakeRegion (issueState s d) r).ctl r).st = .running)
    (hend : ending ((wakeRegion (issueState s d) r).ctl r) = false) :
    s.Started (.sbar d a) d p (.sbar r)
      ((wakeRegion (issueState s d) r).updCtl r fun c => { c with idleSince := none, quietAt := none }) := by
  change execSbar d a s = _
  unfold execSbar
  rw [issue_onRegion_ok h hm.1 hm.2, if_pos (by simp [hs, hend])]
  exact start_eq _ _ _

end

/-- Settles O27. -/
theorem regionInstructionsBegin : Obligations.RegionInstructionsBegin := by
  intro s u d a b e p r g h pb x
  refine ⟨fun hc ha hb hr1 hr2 hc1 hc2 he ho hl => ?reqr, fun hd body s1 s2 s3 sv hc h1 hr h2 hv hh hg h3 hb he ho hl => ?resumr,
    fun hc hm ha hx hs => launch_starts hm hc ha hx hs, fun hc hm hs => killr_starts hm hc hs, fun hc hm hs => killr_idle_starts hm hc hs,
    fun hc hm hs hg hi => preemptKill_starts hm hc hs hg hi, fun hc hm hs ha hp => preemptSnapshot_starts hm hc hs ha hp,
    fun hc hm hs hg hp he hn hb hh hend hsy hch => strm_starts hm hc hs hg hp he hn hb hh hend hsy hch,
    fun hc hm hch => strm_waits_for_checks hm hc hch, fun hc hm hs hend => sbar_starts hm hc hs hend⟩
  case reqr => exact (reqr_starts hc ha hb hr1 hr2 hc1 hc2).trans (enqueue_starts _ rfl he ho hl)
  case resumr =>
    have hk : SameButMs (issueState s d) s3 := (((loadBytes_all _ _ _ _).of_ok h1).1.trans ((loadBytes_all _ _ _ _).of_ok h2).1).trans
      ((saveRsigOk_all _ _ _ _).of_ok h3).1
    refine (resumr_starts hc h1 hr h2 hv hh hg h3 hb).trans (enqueue_starts _ ?_ he ho hl)
    simp only [hk.die]

/-! ### Engines -/

section
variable {s T : State} {d a b e : Reg} {p : PartId}

theorem aligned_of {va : Word} {n : Nat} (h : va.toNat % n = 0) : aligned va n = true := by simp [aligned, h]

theorem loadimg_starts (h : s.CanIssue d [a] p) (ha : (s.rg a).toNat % 64 = 0) :
    s.Started (.loadimg d a) d p (.loadimg (s.rg a)) (issueState s d) := by
  change execLoadimg d a s = _
  unfold execLoadimg
  rw [issue_eq s h]
  simp only [rg_issueState, not_aligned_eq_false ha, Bool.false_eq_true, if_false]
  exact start_eq _ _ _

theorem cmpct_starts (h : s.CanIssue d [a] p) (ha : (s.rg a).toNat % 64 = 0) :
    s.Started (.cmpct d a) d p (.cmpct (s.rg a)) (issueState s d) := by
  change execCmpct d a s = _
  unfold execCmpct
  rw [issue_eq s h]
  simp only [rg_issueState, aligned_of ha, if_true]
  exact start_eq _ _ _

theorem coll_starts (h : s.CanIssue d [a, b] p) (ha : (s.rg a).toNat % 64 = 0) (hb : (s.rg b).toNat % 64 = 0) :
    s.Started (.coll d a b) d p (.coll (s.rg a) (s.rg b)) (issueState s d) := by
  change execColl d a b s = _
  unfold execColl
  rw [issue_eq s h]
  simp only [rg_issueState, aligned_of ha, aligned_of hb, Bool.and_self, if_true]
  exact start_eq _ _ _

theorem extractLsb'_high_eq_zero {v : Word} (h : v.toNat < 2 ^ 40) : v.extractLsb' 40 24 = 0 := by
  apply BitVec.eq_of_toNat_eq
  rw [BitVec.extractLsb'_toNat, Nat.shiftRight_eq_div_pow, Nat.div_eq_of_lt h]
  rfl

/-- Ranges that do not overlap (R179). -/
theorem rangesMeet_eq_false {x n y : Nat} (h : x + n ≤ y ∨ y + n ≤ x) : rangesMeet x n y n = false := by
  simp only [rangesMeet, Bool.and_eq_false_iff, decide_eq_false_iff_not]
  omega

theorem copy_starts (h : s.CanIssue d [a, b, e] p) (hl : (s.rg e).toNat < 2 ^ 40) (h0 : s.rg e ≠ 0)
    (ha : (s.rg a).toNat + (s.rg e).toNat ≤ 2 ^ 52) (hb : (s.rg b).toNat + (s.rg e).toNat ≤ 2 ^ 52)
    (hm : (s.rg a).toNat + (s.rg e).toNat ≤ (s.rg b).toNat ∨ (s.rg b).toNat + (s.rg e).toNat ≤ (s.rg a).toNat) :
    s.Started (.copy d a b e) d p (.copy (s.rg a) (s.rg b) (s.rg e)) (issueState s d) := by
  have hn : (s.rg e).toNat ≠ 0 := fun hz => h0 (BitVec.eq_of_toNat_eq hz)
  have hok : ¬(decide (2 ^ 52 < (s.rg a).toNat + (s.rg e).toNat) || decide (2 ^ 52 < (s.rg b).toNat + (s.rg e).toNat) ||
      rangesMeet (s.rg a).toNat (s.rg e).toNat (s.rg b).toNat (s.rg e).toNat) = true := by
    rw [rangesMeet_eq_false hm, Bool.or_false, Bool.or_eq_true, decide_eq_true_eq, decide_eq_true_eq]
    omega
  change execCopy d a b e s = _
  unfold execCopy
  rw [issue_eq s h]
  simp only [rg_issueState]
  rw [if_neg (by rw [extractLsb'_high_eq_zero hl]; decide), if_neg hn, if_neg hok]
  exact start_eq _ _ _

theorem copy_of_nothing (h : s.CanIssue d [a, b, e] p) (h0 : s.rg e = 0) : s.EndedAtOnce (.copy d a b e) d p 1 (issueState s d) := by
  change execCopy d a b e s = _
  unfold execCopy
  rw [issue_eq s h]
  simp only [rg_issueState, h0]
  exact endNow_eq _ _ _

theorem publish_starts {n : Nat × Nat} (h : s.CanIssue d [a] p) (hv : viewLook (issueState s d) (issueOp s d p) (s.rg a) = .ok (some n) T) :
    s.Started (.publish d a) d p (.publish (s.rg a)) T := by
  have hk : Keeps (issueState s d) T := by
    obtain ⟨_, u, hc, hu⟩ := MRes.bind_ok hv
    injection hu with _ hu
    subst hu
    exact (tableCheck_keeps _ _ _ _).of_ok hc
  change execPublish d a s = _
  unfold execPublish
  rw [issue_eq s h]
  simp only [rg_issueState, hv]
  rw [show T.rg a = s.rg a from (hk.calm.rg a).trans (rg_issueState s d a)]
  exact start_eq _ _ _

theorem migrate_starts {l : Leaf} {old : Nat} (hl : s.me.level ≠ .u) (h : s.CanIssue d [a, b] p)
    (hm : migrateCheck (issueState s d) (issueOp s d p) (s.rg a) (s.rg b) = .ok (.ok (l, old)) T)
    (hw : windowOpen (issueState s d) p (s.rg a) = false) :
    s.Started (.migrate d a b) d p (.migrate (s.rg a) (s.rg b) old true) (openWindow T (issueOp s d p) (s.rg a) (s.rg b) old) := by
  change execMigrate d a b s = _
  unfold execMigrate
  rw [needLevel_of_le (levelNat_s_le_iff.2 hl), issue_eq s h]
  simp only [rg_issueState, part_issueOp, hw, Bool.false_eq_true, if_false, hm]
  exact start_eq _ _ _

theorem migrate_waits {d a b : Reg} (hl : s.me.level ≠ .u) (h : s.CanIssue d [a, b] p)
    (hw : windowOpen (issueState s d) p (s.rg a) = true) :
    s.Started (.migrate d a b) d p (.migrate (s.rg a) (s.rg b) 0 false) (issueState s d) := by
  change execMigrate d a b s = _
  unfold execMigrate
  rw [needLevel_of_le (levelNat_s_le_iff.2 hl), issue_eq s h]
  simp only [rg_issueState, part_issueOp, hw, if_true]
  exact start_eq _ _ _

theorem ruleGuard_of_rulesOn (h : s.RulesOn p) (i : Instr) (k : PartId → Out) : ruleGuard s i k = k p := by
  obtain ⟨hp, hen, hlo, hhi⟩ := h
  unfold ruleGuard
  rw [hp]
  exact if_pos (by simp [hen, hlo, hhi])

theorem settle_starts (hr : s.RulesOn p) (h : s.CanIssue d [] p) : s.Started (.settle d) d p .settle (issueState s d) := by
  change execSettle d s = _
  unfold execSettle
  rw [ruleGuard_of_rulesOn hr, issue_eq s h]
  exact start_eq _ _ _

theorem select_starts (hr : s.RulesOn p) (h : s.CanIssue d [a, b] p) (h1 : 1 ≤ (s.rg b).toNat) (h2 : (s.rg b).toNat ≤ 64)
    (hb : ((issueState s d).rules p).batch = none) (ha : (s.rg a).toNat % 64 = 0) :
    s.Started (.select d a b) d p (.select (s.rg a) (s.rg b)) ((issueState s d).updRules p fun q => { q with selected := true }) := by
  change execSelect d a b s = _
  unfold execSelect
  rw [ruleGuard_of_rulesOn hr, issue_eq s h]
  simp only [rg_issueState]
  rw [if_neg (by simp [hb]; omega), if_neg (by simp [not_aligned_eq_false ha])]
  exact start_eq _ _ _

/-! ### SQSTART -/

/-- A core that SQSTART has started, before its first fetch (R199). -/
theorem core_started (t : State) (c : CoreId) (entry : Word) :
    (wakeDie (t.updCore c (startedCore entry)) c).core c = startedCore entry (t.core c) := by
  unfold wakeDie
  split
  · rw [State.core_updDie, State.core_updCore_self]
  · rw [State.core_updCore_self]

variable {c : CoreId}

/-- SQSTART of a core that is not running starts it: it ends at once, unless the core's first fetch waits (R199). -/
theorem sqstart_begins (hl : s.me.level ≠ .u) (h : s.CanIssue d [a, b] p) (ha : (s.rg a).toNat ≤ 63) (hb : (s.rg b).toNat % 4 = 0)
    (hc : c = .sq ((s.rg a).setWidth 6)) (hp : ((issueState s d).core c).part = some p)
    (hr : ((issueState s d).core c).run ∈ [Run.held, .halted, .stopped]) :
    let u := wakeDie ((issueState s d).updCore c (startedCore (s.rg b))) c
    (fetchAt u c ≠ .wait → s.EndedAtOnce (.sqstart d a b) d p 1 (fetchFaults u c).2) ∧
      (fetchAt u c = .wait → s.Started (.sqstart d a b) d p (.sqstart c) u) := by
  subst hc
  unfold State.EndedAtOnce State.Started
  change (_ → execSqstart d a b s = _) ∧ (_ → execSqstart d a b s = _)
  unfold execSqstart fetchFaults
  rw [needLevel_of_le (levelNat_s_le_iff.2 hl), issue_eq s h]
  simp only [rg_issueState, part_issueOp]
  rw [if_neg (by simp [hp]; omega)]
  simp only [List.mem_cons, List.not_mem_nil, or_false] at hr
  obtain hr | hr | hr := hr
  all_goals
    rw [hr]
    simp only [not_aligned_eq_false hb, Bool.false_eq_true, if_false]
    refine ⟨fun hf => ?_, fun hf => ?_⟩
    · cases hx : fetchAt _ (CoreId.sq ((s.rg a).setWidth 6)) with
      | ok w t => exact endNow_eq _ _ _
      | trap cause tv => exact endNow_eq _ _ _
      | wait => exact absurd hx hf
    · simp only [hf]
      exact start_eq _ _ _

end

/-- Settles O30. -/
theorem engineInstructionsBegin : Obligations.EngineInstructionsBegin := by
  intro s T d a b e p n l old
  refine ⟨fun h ha => ⟨loadimg_starts h ha, cmpct_starts h ha⟩, copy_starts, copy_of_nothing, publish_starts,
    fun hl h hm hw => migrate_starts hl h hm hw, fun hl h hw => migrate_waits hl h hw, coll_starts, settle_starts,
    fun hr h h1 h2 hb ha => select_starts hr h h1 h2 hb ha, fun hl h ha hb hp hr => ?_⟩
  have hu := core_started (issueState s d) (.sq ((s.rg a).setWidth 6)) (s.rg b)
  obtain ⟨hend, hstart⟩ := sqstart_begins hl h ha hb rfl hp hr
  refine ⟨?_, ?_, ?_, ?_, ?_, ?_, ?_, hend, hstart⟩
  · rw [hu]; rfl
  · rw [hu]; rfl
  · rw [hu]; rfl
  · rw [hu]; rfl
  · rw [hu]; rfl
  · rw [hu]; rfl
  · rw [hu]; rfl

/-! ### REPLAY and FRES (R200) -/

section
variable {s s1 s2 : State} {a b : Reg} {p : PartId} {e im : List Byte} {f : FaultRec} {i : Instr}

theorem exec_replay (hl : s.me.level ≠ .u) (hf : s.Free [a]) (hp : s.me.part = some p) :
    exec (.replay a) s = if syncHeld s (.coreD s.cur) then .next s
      else .next (replayPage s.releaseMe p ((s.rg a).toNat / 65536)).retired := by
  change execReplay a s = _
  unfold execReplay
  rw [needLevel_of_le (levelNat_s_le_iff.2 hl), needRegs_eq s hf, hp]
  dsimp only
  rw [retire_retired]
  rfl

theorem fresRead_aligned {va : Word} {n : Nat} (ha : va.toNat % 64 = 0) (hl : loadBytes s (coreCtx s) va n = .ok e s1)
    (k : List Byte → State → Out) : fresRead s va n k = k e s1 := by
  unfold fresRead
  rw [if_neg (by simp [not_aligned_eq_false ha]), onAccess_ok s hl]

theorem fresRead_misaligned {va : Word} {n : Nat} (ha : va.toNat % 64 ≠ 0) (k : List Byte → State → Out) :
    fresRead s va n k = .next (s.raised 0x22 va) := by
  unfold fresRead
  rw [if_pos (not_aligned_eq_true ha)]
  exact raise_eq s _ _

theorem fres_misaligned (hp : s.me.part = some p) (ha : (s.rg a).toNat % 64 ≠ 0) (need : Bool)
    (how : State → (Resolve → State → Out) → Out) : fres s i a need how = .next (s.raised 0x22 (s.rg a)) := by
  unfold fres
  rw [hp]
  exact fresRead_misaligned ha _

/-- A fault that is not over stands (R339). -/
def FaultRec.Stands (f : FaultRec) (s : State) (p : PartId) : Prop := f.resolved = false ∧ (f.resumable = true → faultStands s p f.id = true)

theorem stands_iff : (f.resolved || (f.resumable && !faultStands s p f.id)) = false ↔ f.Stands s p := by
  unfold FaultRec.Stands
  cases f.resolved <;> cases f.resumable <;> cases faultStands s p f.id <;> decide

variable (hp : s.me.part = some p) (ha : (s.rg a).toNat % 64 = 0) (hl : loadBytes s (coreCtx s) (s.rg a) 64 = .ok e s1)
  (need : Bool) (how : State → (Resolve → State → Out) → Out)

include hp ha hl

theorem fres_unrecorded (hf : faultOf (s1.part p) e = none) : fres s i a need how = .next s1.retired := by
  unfold fres
  rw [hp]
  dsimp only
  rw [fresRead_aligned ha hl, hf]
  exact retire_retired _

/-- What a FRES does once its entry has named a recorded fault. -/
theorem fres_of_recorded (hf : faultOf (s1.part p) e = some f) :
    fres s i a need how = if f.resolved || (f.resumable && !faultStands s1 p f.id) then .next s1.retired
      else if need && !f.resumable then .next (s1.raised 0x20 (wordOf i))
      else how s1 fun x u => if supplyWaits u p f.id x then .next s1 else .next (resolveFault u p f.id x).retired := by
  unfold fres
  rw [hp]
  dsimp only
  rw [fresRead_aligned ha hl, hf]
  simp only [retire_retired, raise_eq]
  exact rfl

theorem fres_over (hf : faultOf (s1.part p) e = some f) (hs : ¬f.Stands s1 p) : fres s i a need how = .next s1.retired := by
  rw [fres_of_recorded hp ha hl _ _ hf]
  exact if_pos (Bool.not_eq_false _ ▸ fun h => hs (stands_iff.1 h))

theorem fres_not_resumable (hf : faultOf (s1.part p) e = some f) (hr : f.resolved = false) (hn : f.resumable = false) :
    fres s i a true how = .next (s1.raised 0x20 (wordOf i)) := by
  rw [fres_of_recorded hp ha hl _ _ hf, if_neg (by simp [hr, hn]), if_pos (by simp [hn])]

theorem fres_resolves (hf : faultOf (s1.part p) e = some f) (hs : f.Stands s1 p) (hn : need = true → f.resumable = true) :
    fres s i a need how = how s1 fun x u => if supplyWaits u p f.id x then .next s1 else .next (resolveFault u p f.id x).retired := by
  rw [fres_of_recorded hp ha hl _ _ hf, if_neg (by simp [stands_iff.2 hs]), if_neg]
  cases need
  · simp
  · simp [hn rfl]

end

section
variable {s : State} {a b : Reg}

theorem exec_fresRetry (hl : s.me.level ≠ .u) (hf : s.Free [a]) :
    exec (.fresRetry a b) s = fres s (.fresRetry a b) a true fun s k => k .retry s :=
  (needLevel_of_le (levelNat_s_le_iff.2 hl) _ _).trans (needRegs_eq s hf _)

theorem exec_fresKill (hl : s.me.level ≠ .u) (hf : s.Free [a]) :
    exec (.fresKill a b) s = fres s (.fresKill a b) a false fun s k => k .kill s :=
  (needLevel_of_le (levelNat_s_le_iff.2 hl) _ _).trans (needRegs_eq s hf _)

/-- What FRES SUPPLY does with the image that it reads. -/
def supplyImage (a b : Reg) (s : State) (k : Resolve → State → Out) : Out :=
  fresRead s (s.rg b) 80 fun im s1 => match imageTok im with
    | none => raise s cILLEGAL (wordOf (.fresSupply a b))
    | some t => k (.supply t) s1

theorem supplyImage_refused {s' : State} {im : List Byte} (ha : (s.rg b).toNat % 64 = 0)
    (hl : loadBytes s (coreCtx s) (s.rg b) 80 = .ok im s') (ht : imageTok im = none) (k : Resolve → State → Out) :
    supplyImage a b s k = .next (s.raised 0x20 (wordOf (.fresSupply a b))) := by
  unfold supplyImage
  rw [fresRead_aligned ha hl, ht]
  exact raise_eq s _ _

theorem supplyImage_of {s' : State} {im : List Byte} {t : Token} (ha : (s.rg b).toNat % 64 = 0)
    (hl : loadBytes s (coreCtx s) (s.rg b) 80 = .ok im s') (ht : imageTok im = some t) (k : Resolve → State → Out) :
    supplyImage a b s k = k (.supply t) s' := by
  unfold supplyImage
  rw [fresRead_aligned ha hl, ht]

theorem exec_fresSupply (hl : s.me.level ≠ .u) (hf : s.Free [a, b]) :
    exec (.fresSupply a b) s = fres s (.fresSupply a b) a true (supplyImage a b) :=
  (needLevel_of_le (levelNat_s_le_iff.2 hl) _ _).trans (needRegs_eq s hf _)

end

/-- Settles O26. -/
theorem faultsAreResolvedByReplayAndFres : Obligations.FaultsAreResolvedByReplayAndFres := by
  intro s s1 s2 a b p e im f t hl hf hp
  have himg (hb : loadBytes s (coreCtx s) (s.rg a) 64 = .ok e s1) {h : (s.rg b).toNat % 64 = 0} : (s1.rg b).toNat % 64 = 0 := by
    rwa [((loadBytes_all s _ _ _).calm_of_ok hb).rg b]
  have hfa : s.Free [a] := fun r hr => hf r (List.mem_cons.2 (.inl (List.mem_singleton.1 hr)))
  refine ⟨fun h => ?replay, fun h => ?replayWaits, fun ha hb hn => ⟨?_, ?_⟩, fun ha hb hn => ⟨fun hs hr => ?_, fun hr hn' => ?_, fun hs => ?_,
    fun hs => ⟨?_, ?_⟩⟩, fun ha hba hb => ⟨fun hn => ?_, fun hn hs => ?_, fun hn hr hn' => ?_, fun hn hs hr hi => ⟨fun ht => ?_, fun ht hw => ?_,
    fun ht hw => ?_⟩⟩, fun ha => ⟨?_, ?_, ?_⟩⟩
  case replay => exact (exec_replay hl hfa hp).trans (if_neg (by simp [h]))
  case replayWaits => exact (exec_replay hl hfa hp).trans (if_pos h)
  · exact (exec_fresRetry hl hfa).trans (fres_unrecorded hp ha hb _ _ hn)
  · exact (exec_fresKill hl hfa).trans (fres_unrecorded hp ha hb _ _ hn)
  · exact (exec_fresRetry hl hfa).trans (fres_resolves hp ha hb _ _ hn hs fun _ => hr)
  · exact (exec_fresRetry hl hfa).trans (fres_not_resumable hp ha hb _ hn hr hn')
  · exact (exec_fresKill hl hfa).trans (fres_resolves hp ha hb _ _ hn hs fun h => by cases h)
  · exact (exec_fresRetry hl hfa).trans (fres_over hp ha hb _ _ hn hs)
  · exact (exec_fresKill hl hfa).trans (fres_over hp ha hb _ _ hn hs)
  · exact (exec_fresSupply hl hf).trans (fres_unrecorded hp ha hb _ _ hn)
  · exact (exec_fresSupply hl hf).trans (fres_over hp ha hb _ _ hn hs)
  · exact (exec_fresSupply hl hf).trans (fres_not_resumable hp ha hb _ hn hr hn')
  · rw [exec_fresSupply hl hf, fres_resolves hp ha hb _ _ hn hs fun _ => hr, supplyImage_refused (himg hb (h := hba)) hi ht]
  · rw [exec_fresSupply hl hf, fres_resolves hp ha hb _ _ hn hs fun _ => hr, supplyImage_of (himg hb (h := hba)) hi ht]
    exact if_neg (by simp [hw])
  · rw [exec_fresSupply hl hf, fres_resolves hp ha hb _ _ hn hs fun _ => hr, supplyImage_of (himg hb (h := hba)) hi ht]
    exact if_pos hw
  · exact (exec_fresSupply hl hf).trans (fres_misaligned hp ha _ _)
  · exact (exec_fresRetry hl hfa).trans (fres_misaligned hp ha _ _)
  · exact (exec_fresKill hl hfa).trans (fres_misaligned hp ha _ _)

end Sys2Proof.Machine
end

section
/-!
PROOFS. The rule instructions: working memory and the deltas that ASSERT, RETRACT and MODIFY inject (R187, R309, R312), FIRED, WAVE
and SCORECLR (R190, R191).
-/

namespace Sys2Proof.Machine

open Sys2Proof

variable {s t u v : State} {p : PartId} {x : Ctx} {l : Xl}

/-! ### What a checked access keeps of the fabric and the rule engine -/

theorem SameButMs.part (h : SameButMs s t) (p : PartId) : t.part p = s.part p := by rw [h]; rfl
theorem SameButMs.rules (h : SameButMs s t) (p : PartId) : t.rules p = s.rules p := by rw [h]; rfl
theorem SameButMs.region (h : SameButMs s t) (r : RegionId) : t.region r = s.region r := by rw [h]; rfl
theorem SameButMs.ctl (h : SameButMs s t) (r : RegionId) : t.ctl r = s.ctl r := by rw [h]; rfl
theorem SameButMs.fab (h : SameButMs s t) (r : RegionId) : t.fab r = s.fab r := by rw [h]; rfl
theorem SameButMs.dbg (h : SameButMs s t) (r : RegionId) : t.dbg r = s.dbg r := by rw [h]; rfl

@[simp] theorem State.rules_updRules_self (s : State) (p : PartId) (f : Rules → Rules) : (s.updRules p f).rules p = f (s.rules p) := by
  unfold State.updRules State.rules
  rw [State.part_updPart_self]

@[simp] theorem State.rules_updFab (s : State) (r : RegionId) (f : Fabric → Fabric) (p : PartId) : (s.updFab r f).rules p = s.rules p := rfl
@[simp] theorem State.fab_updRules (s : State) (p : PartId) (f : Rules → Rules) (r : RegionId) : (s.updRules p f).fab r = s.fab r := rfl
@[simp] theorem State.rules_wg (s : State) (d : Reg) (v : Word) (p : PartId) : (s.wg d v).rules p = s.rules p := by
  unfold State.rules State.part State.wg State.updMe
  simp only [State.parts_updCore]
@[simp] theorem State.fab_wg (s : State) (d : Reg) (v : Word) (r : RegionId) : (s.wg d v).fab r = s.fab r := by
  unfold State.fab State.region State.wg State.updMe
  simp only [State.regions_updCore]

@[simp] theorem State.fab_updFab_self (s : State) (r : RegionId) (f : Fabric → Fabric) : (s.updFab r f).fab r = f (s.fab r) := by
  unfold State.updFab State.fab
  rw [State.region_updRegion_self]

/-! ### Injection -/

/-- The delta that an injection appends (R312, R325). -/
def Rules.delta (q : Rules) (neg : Bool) (tt : Nat) (ws : List Word) : Delta :=
  ⟨q.deltaCount, BitVec.ofNat 40 tt, neg, ws, if q.selected then q.wave + 1 else q.wave⟩

theorem rules_inject (s : State) (p : PartId) (neg : Bool) (tt : Nat) (ws : List Word) :
    (inject s p neg tt ws).rules p = { s.rules p with deltaCount := (s.rules p).deltaCount + 1 } := by
  unfold inject
  rw [State.rules_updFab, State.rules_updRules_self]

theorem injq_inject (s : State) (p : PartId) (neg : Bool) (tt : Nat) (ws : List Word) :
    ((inject s p neg tt ws).fab (s.rules p).net).injq =
      (s.fab (s.rules p).net).injq ++ [(s.rules p).delta neg tt ws] := by
  unfold inject
  dsimp only
  rw [State.fab_updFab_self, State.fab_updRules]
  rfl

theorem me_inject (s : State) (p : PartId) (neg : Bool) (tt : Nat) (ws : List Word) : (inject s p neg tt ws).me = s.me := by
  unfold inject
  exact (((Calm.refl s).updRules p _).updFab _ _).me

/-- ASSERT's effect: the next timetag, in g[d] too, and the + delta of the new WME (R187, R309). -/
theorem doAssert_ok {tt src : Nat} {d : Reg} (h : doAssert s p l tt src d = .ok () t) :
    (t.rules p).timetag = tt + 1 ∧ (d ≠ 0 → t.rg d = BitVec.ofNat 64 tt) ∧
      (t.fab (s.rules p).net).injq = (s.fab (s.rules p).net).injq ++ [(s.rules p).delta false tt (newWme src tt)] := by
  obtain ⟨_, w, hw, hk⟩ := MRes.bind_ok h
  have hs := (writeAt_keeps hw).1
  injection hk with _ hk
  subst hk
  have hr : ((w.updRules p fun q => { q with timetag := tt + 1 }).rules p) = { s.rules p with timetag := tt + 1 } := by
    rw [State.rules_updRules_self, hs.rules]
  refine ⟨?_, fun hd => ?_, ?_⟩
  · rw [State.rules_wg, rules_inject, hr]
  · rw [State.rg, State.me_wg, Core.rg_wg_self _ hd]
  · have hn : (s.rules p).net = (((w.updRules p fun q => { q with timetag := tt + 1 }).rules p)).net := by rw [hr]; rfl
    rw [State.fab_wg, hn, injq_inject, hr, State.fab_updRules, hs.fab]
    rfl

theorem wmeWords_eq_cons (v : Nat) : wmeWords v = (wmeWords v).headD 0 :: (wmeWords v).tail := rfl

/-- RETRACT's effect once the slot is marked: the − delta of the WME as it then stands (R309). -/
theorem doRetract_ok {tt v : Nat} {w0 : Word} {u u' : State} (h : doRetract s p l tt w0 = .ok () t)
    (hw : writeAt s (hubCtx p s.me.level) l (w0 ||| 1).toNat 8 ((s.rules p).slot tt) = .ok () u)
    (hr : readAt u (hubCtx p s.me.level) l 128 ((s.rules p).slot tt) = .ok v u') :
    (t.rules p) = { s.rules p with deltaCount := (s.rules p).deltaCount + 1 } ∧
      (t.fab (s.rules p).net).injq = (s.fab (s.rules p).net).injq ++
        [(s.rules p).delta true tt (((wmeWords v).headD 0 ||| 0x80) :: (wmeWords v).tail)] := by
  unfold doRetract at h
  dsimp only at h
  rw [hw] at h
  have h : (match wmeWords v with
    | w :: ws => MRes.ok () (inject u' p true tt ((w ||| 0x80) :: ws))
    | [] => .ok () u') = .ok () t := by
    rw [← h]
    change _ = (readAt u (hubCtx p s.me.level) l 128 ((s.rules p).slot tt)).bind _
    rw [hr]
    rfl
  rw [wmeWords_eq_cons] at h
  injection h with _ h
  subst h
  have hs := (writeAt_keeps hw).1.trans (readAt_keeps hr).1
  rw [rules_inject, hs.rules, show (s.rules p).net = (u'.rules p).net by rw [hs.rules], injq_inject, hs.rules, hs.fab]
  exact ⟨rfl, rfl⟩

/-- What a RETRACT that ends well has written and read. -/
theorem doRetract_accesses {tt : Nat} {w0 : Word} (h : doRetract s p l tt w0 = .ok () t) : ∃ v u u',
    writeAt s (hubCtx p s.me.level) l (w0 ||| 1).toNat 8 ((s.rules p).slot tt) = .ok () u ∧
      readAt u (hubCtx p s.me.level) l 128 ((s.rules p).slot tt) = .ok v u' ∧ SameButMs s u' ∧ t.ms = u'.ms ∧ t.me = s.me := by
  obtain ⟨_, u, hw, hk⟩ := MRes.bind_ok h
  obtain ⟨v, u', hr, hk⟩ := MRes.bind_ok hk
  have hs := (writeAt_keeps hw).1.trans (readAt_keeps hr).1
  rw [wmeWords_eq_cons] at hk
  injection hk with _ hk
  subst hk
  exact ⟨v, u, u', hw, hr, hs, rfl, (me_inject _ _ _ _ _).trans hs.me⟩

/-! ### The mark of a retracted WME at home -/

/-- Without a mirror no window is open. -/
theorem migrations_eq_nil {ms : MemSys} (h : ∀ pa, mirrors ms pa = []) : ms.migrations = [] := by
  refine List.eq_nil_iff_forall_not_mem.2 fun m hm => ?_
  have := List.filterMap_eq_nil_iff.1 (h m.old) m hm
  simp at this

/-- Translating and reading opens no window. -/
theorem migrations_readAt {acc : Access} {va va' : Word} {n k : Nat} (hx : x.mates = []) (hw : Memory.wf s.ms.mem = true)
    (hm : s.ms.migrations = []) (ht : translate s x acc va = .ok l t) (hr : readAt t x l n va' = .ok k u) : u.ms.migrations = [] := by
  have h0 : Within x.agent True (fun _ => True) s.ms s.ms :=
    ⟨hw, fun _ => rfl, fun _ _ => rfl, fun _ _ _ _ _ _ _ => ⟨trivial, fun _ _ => trivial⟩⟩
  have h2 := (h0.translate (fun _ _ _ _ _ _ _ _ => trivial) ht).readAt rfl hx (fun _ => trivial) hr
  refine migrations_eq_nil fun pa => (h2.mirrors_eq pa).trans ?_
  rw [mirrors, hm]
  rfl

theorem migrations_slotAt {tt rd wr : Nat} {a : Xl × Word} (hw : Memory.wf s.ms.mem = true) (hm : s.ms.migrations = [])
    (h : slotAt s p tt rd wr = .ok a t) : t.ms.migrations = [] := by
  obtain ⟨l, w, ht, hk⟩ := MRes.bind_ok h
  obtain ⟨v, z, hr, hz⟩ := MRes.bind_ok (MRes.ok_of_ite_trap hk)
  injection hz with _ hz
  subst hz
  exact migrations_readAt rfl hw hm ht hr

theorem migrations_sourceWme {va : Word} {src : Nat} (hw : Memory.wf s.ms.mem = true) (hm : s.ms.migrations = [])
    (h : sourceWme s va = .ok src t) : t.ms.migrations = [] := by
  obtain ⟨l, w, ht, hk⟩ := MRes.bind_ok (MRes.ok_of_ite_trap h)
  have hc : coreCtx w = coreCtx s := by rw [coreCtx, (translate_keeps ht).me, (translate_keeps ht).1.cur, coreCtx]
  rw [hc] at hk
  exact migrations_readAt rfl hw hm ht (MRes.ok_of_ite_trap hk)

theorem mem_readAt_of_memory {n v : Nat} {va : Word} (hp : isPeer l.pa = false) (hd : isDevice l.pa = false) (hc : l.coh ≠ 1)
    (hm : x.mates = []) (hr : readAt s x l n va = .ok v t) : t.ms.mem = s.ms.mem := by
  obtain ⟨_, u, hck, hk⟩ := MRes.bind_ok hr
  obtain rfl := homeCheck_eq hck
  have hc1 : (l.coh == 1#2) = false := beq_eq_false_iff_ne.2 hc
  split at hk
  · injection hk with _ hk
    subst hk
    exact dirRead_mem _ _ _ _
  · rw [if_neg (by simp [hc1]), if_neg (by simp [hm]), readHome_of_memory hp hd] at hk
    injection hk with _ hk
    subst hk
    rfl

/-- RETRACT leaves RET set in the slot's word 0 (R309). -/
theorem marked_doRetract {tt : Nat} {w0 : Word} (h : doRetract s p l tt w0 = .ok () t) (hw : Memory.wf s.ms.mem = true)
    (hm : s.ms.migrations = []) (hp : isPeer l.pa = false) (hd : isDevice l.pa = false) (hc : l.coh ≠ 1) :
    Memory.readLE t.ms.mem l.pa 8 = (w0 ||| 1).toNat := by
  obtain ⟨v, u, u', hwr, hrd, -, hms, -⟩ := doRetract_accesses h
  rw [hms, mem_readAt_of_memory hp hd hc rfl hrd, writeAt_of_memory hp hd hc rfl hm hwr, Memory.readLE_writeLE hw]
  exact Nat.mod_eq_of_lt (w0 ||| 1).isLt

/-! ### Executing them -/

theorem slotAt_keeps {tt rd wr : Nat} {a : Xl × Word} (h : slotAt s p tt rd wr = .ok a t) : Keeps s t := by
  obtain ⟨l, w, ht, hk⟩ := MRes.bind_ok h
  obtain ⟨v, z, hr, hz⟩ := MRes.bind_ok (MRes.ok_of_ite_trap hk)
  injection hz with _ hz
  subst hz
  exact (translate_keeps ht).trans (readAt_keeps hr)

theorem sourceWme_keeps {va : Word} {src : Nat} (h : sourceWme s va = .ok src t) : Keeps s t := by
  obtain ⟨l, w, ht, hk⟩ := MRes.bind_ok (MRes.ok_of_ite_trap h)
  exact (translate_keeps ht).trans (readAt_keeps (MRes.ok_of_ite_trap hk))

/-- An awake network region takes an injection at once. -/
theorem onNet_awake {s0 : State} (h : (t.ctl (t.rules p).net).power = 0) (k : State → Out) : onNet s0 t p k = k t := by
  have hw : wakeRegion t (t.rules p).net = t := if_pos h
  unfold onNet
  dsimp only
  rw [hw]
  exact if_pos h

theorem onAccess_eq_retire {α : Type} {s0 : State} {r : MRes α} {a : α} (h : r = .ok a t) :
    onAccess s0 r (fun _ s => retire s) = .next t.retired := by
  rw [onAccess_ok s0 h, retire_retired]

section
variable {d a b : Reg} {src : Nat} {w0 : Word} {s1 s2 s3 s4 s5 : State} {y z : Xl}
  (hr : s.RulesOn p)

include hr

theorem exec_assert (hf : s.Free [d, a]) (h1 : sourceWme s (s.rg a) = .ok src s1)
    (h2 : slotAt s1 p (s.rules p).timetag 8 128 = .ok (y, 0) s2) (ht : (s.rules p).timetag < 2 ^ 40) (hi : injRoom s p 1 = true)
    (hp : (s2.ctl (s.rules p).net).power = 0) (h3 : doAssert s2 p y (s.rules p).timetag src d = .ok () s3) :
    exec (.assert d a) s = .next s3.retired := by
  have hrules : s2.rules p = s.rules p := ((sourceWme_keeps h1).trans (slotAt_keeps h2)).1.rules p
  change execAssert d a s = _
  unfold execAssert
  rw [ruleGuard_of_rulesOn hr, needRegs_eq s hf, onAccess_ok s h1, onAccess_ok s h2, if_neg, if_neg (by simp [hi]),
    onNet_awake (by rwa [hrules]), onAccess_eq_retire h3]
  simp
  exact ht

theorem exec_retract (hf : s.Free [a]) (h1 : slotAt s p (s.rg a).toNat 128 8 = .ok (y, w0) s1)
    (ht : retractable (s.rg a).toNat w0 = true) (hi : injRoom s p 1 = true) (hp : (s1.ctl (s.rules p).net).power = 0)
    (h2 : doRetract s1 p y (s.rg a).toNat w0 = .ok () s2) : exec (.retract a) s = .next s2.retired := by
  have hrules : s1.rules p = s.rules p := (slotAt_keeps h1).1.rules p
  change execRetract a s = _
  unfold execRetract
  rw [ruleGuard_of_rulesOn hr, needRegs_eq s hf, onAccess_ok s h1, if_neg (by simp [ht]), if_neg (by simp [hi]),
    onNet_awake (by rwa [hrules]), onAccess_eq_retire h2]

theorem exec_retract_out_of_range (hf : s.Free [a]) (h1 : slotAt s p (s.rg a).toNat 128 8 = .ok (y, w0) s1)
    (ht : retractable (s.rg a).toNat w0 = false) : exec (.retract a) s = .next (s.raised 0x91 (s.rg a)) := by
  change execRetract a s = _
  unfold execRetract
  rw [ruleGuard_of_rulesOn hr, needRegs_eq s hf, onAccess_ok s h1, if_pos (by simp [ht])]
  exact raise_eq s _ _

theorem exec_modify (hf : s.Free [d, a, b]) (h1 : sourceWme s (s.rg b) = .ok src s1)
    (h2 : slotAt s1 p (s.rg a).toNat 128 8 = .ok (y, w0) s2) (h3 : slotAt s2 p (s.rules p).timetag 8 128 = .ok (z, 0) s3)
    (ht : retractable (s.rg a).toNat w0 = true) (htt : (s.rules p).timetag < 2 ^ 40) (hi : injRoom s p 2 = true)
    (hp : (s3.ctl (s.rules p).net).power = 0) (h4 : doRetract s3 p y (s.rg a).toNat w0 = .ok () s4)
    (h5 : doAssert s4 p z (s.rules p).timetag src d = .ok () s5) : exec (.modify d a b) s = .next s5.retired := by
  have hrules : s3.rules p = s.rules p := (((sourceWme_keeps h1).trans (slotAt_keeps h2)).trans (slotAt_keeps h3)).1.rules p
  change execModify d a b s = _
  unfold execModify
  rw [ruleGuard_of_rulesOn hr, needRegs_eq s hf, onAccess_ok s h1, onAccess_ok s h2, onAccess_ok s h3, if_neg (by simp [ht]), if_neg,
    if_neg (by simp [hi]), onNet_awake (by rwa [hrules]), onAccess_ok s h4, onAccess_eq_retire h5]
  simp
  exact htt

theorem exec_fired {k : BitVec 32} (hf : s.Free [a]) (hb : (s.rules p).batch = some k) :
    exec (.fired a) s = if s.rg a = k.zeroExtend 64 then .next (s.updRules p fun q =>
        { q with batch := none, insts := q.insts.filter (·.batch != some k) }).retired
      else .next (s.raised 0x20 (wordOf (.fired a))) := by
  change execFired a s = _
  unfold execFired
  rw [ruleGuard_of_rulesOn hr, needRegs_eq s hf, hb]
  dsimp only
  rw [retire_retired, raise_eq]
  rfl

theorem exec_wave : exec .wave s =
    if (s.rules p).batch.isSome || deltaInFlight s p then .next (s.raised 0x20 (wordOf .wave))
    else .next (s.updRules p fun q => { q with wave := q.wave + 1, selected := false }).retired := by
  change execWave s = _
  unfold execWave
  rw [ruleGuard_of_rulesOn hr, retire_retired, raise_eq]
  rfl

theorem exec_scoreclr {r : RegionId} {row : BitVec 5} {col : BitVec 6} {base n : Nat} (hf : s.Free [a]) (ha : (s.rg a).toNat ≤ 15)
    (hd : deltaInFlight s p = false) (hn : netRegion s p = some r)
    (hs : scoreArea s r (s.rg a).toNat = some (row, col, base, n)) (hp : (s.ctl (s.rules p).net).power = 0) :
    exec (.scoreclr a) s = .next (s.updFab r fun f => scrZero f row col base (16 * n)).retired := by
  change execScoreclr a s = _
  unfold execScoreclr
  rw [ruleGuard_of_rulesOn hr, needRegs_eq s hf, if_neg (by omega), if_neg (by simp [hd]), hn]
  dsimp only
  rw [hs]
  dsimp only
  rw [onNet_awake hp, retire_retired]

theorem exec_scoreclr_illegal (hf : s.Free [a]) (ha : 15 < (s.rg a).toNat) :
    exec (.scoreclr a) s = .next (s.raised 0x20 (wordOf (.scoreclr a))) := by
  change execScoreclr a s = _
  unfold execScoreclr
  rw [ruleGuard_of_rulesOn hr, needRegs_eq s hf, if_pos ha]
  exact raise_eq s _ _

end

/-- Settles O32. -/
theorem ruleInstructionsActOnWorkingMemory : Obligations.RuleInstructionsActOnWorkingMemory := by
  intro s s1 s2 s3 s4 s5 d a b p src x y w0 hr
  refine ⟨fun hf h1 h2 ht hi hp h3 => ?assert, fun hf h1 ht hi hp h2 => ⟨exec_retract hr hf h1 ht hi hp h2, fun hw hm hpe hd hc => ?marked,
    fun v u u' hwr => ?retract⟩, fun hf h1 ht => exec_retract_out_of_range hr hf h1 ht,
    fun hf h1 h2 h3 ht htt hi hp h4 h5 => ⟨exec_modify hr hf h1 h2 h3 ht htt hi hp h4 h5, ?modify⟩,
    fun hf k hb => ⟨fun h => (exec_fired hr hf hb).trans (if_pos h), fun h => (exec_fired hr hf hb).trans (if_neg h)⟩,
    fun hb hd => (exec_wave hr).trans (if_neg (by simp [hb, hd])), fun h => (exec_wave hr).trans (if_pos ?busy),
    fun r row col base n hf ha hd hn hs hp => exec_scoreclr hr hf ha hd hn hs hp, fun hf ha => exec_scoreclr_illegal hr hf ha⟩
  case assert =>
    have hk := ((sourceWme_keeps h1).trans (slotAt_keeps h2)).1
    obtain ⟨hti, hg, hq⟩ := doAssert_ok h3
    rw [hk.rules, hk.fab] at hq
    exact ⟨exec_assert hr hf h1 h2 ht hi hp h3, hti, hg, hq⟩
  case marked => exact marked_doRetract h2 ((slotAt_keeps h1).2 hw) (migrations_slotAt hw hm h1) hpe hd hc
  case retract =>
    have hk := (slotAt_keeps h1).1
    have := (doRetract_ok h2 (u := u) (u' := u') (v := v) (by rw [hk.me, hk.rules]; exact hwr.1) (by rw [hk.me, hk.rules]; exact hwr.2)).2
    rw [hk.rules, hk.fab] at this
    exact this
  case modify =>
    have hk := (((sourceWme_keeps h1).trans (slotAt_keeps h2)).trans (slotAt_keeps h3)).1
    obtain ⟨_, _, _, hwr4, hrd4, -⟩ := doRetract_accesses h4
    obtain ⟨hru, -⟩ := doRetract_ok h4 hwr4 hrd4
    obtain ⟨hti, hg, hq⟩ := doAssert_ok h5
    refine ⟨hti, hg, fun hw hm hpe hd hc => ?_, fun v u u' hwr => ?_⟩
    · have hw1 := (sourceWme_keeps h1).2 hw
      have hw2 := (slotAt_keeps h2).2 hw1
      exact marked_doRetract h4 ((slotAt_keeps h3).2 hw2)
        (migrations_slotAt hw2 (migrations_slotAt hw1 (migrations_sourceWme hw hm h1) h2) h3) hpe hd hc
    · have hq4 := (doRetract_ok h4 (u := u) (u' := u') (v := v) (by rw [hk.me, hk.rules]; exact hwr.1)
        (by rw [hk.me, hk.rules]; exact hwr.2)).2
      rw [hru, hk.rules] at hq
      rw [hk.rules, hk.fab] at hq4
      change (s5.fab (s.rules p).net).injq = (s4.fab (s.rules p).net).injq ++ _ at hq
      rw [hq, hq4, List.append_assoc]
      rfl
  case busy =>
    obtain hb | hd := h
    · simp [Option.isSome_iff_ne_none.2 hb]
    · simp [hd]

end Sys2Proof.Machine
end

section
/-!
PROOFS. Region operations that complete (R127, R128, R171 to R178) and the units of a stream round (R75, R76, R176).
-/

namespace Sys2Proof.Machine

open Sys2Proof

variable {s s1 s2 : State} {k : Nat} {o : Op} {r : RegionId} {c : BitVec 8}

/-! ### Events about an operation -/

theorem onOp_under (h : s.Under k o) (f : Op → Out) : onOp s k f = f o := by
  rw [onOp, show findOp s k = some o from h]

theorem onEngine_ok {α : Type} {s0 : State} {res : MRes α} {a : α} (h : res = .ok a s1) (f : α → State → Out) :
    onEngine s0 o res f = f a s1 := by rw [h]; rfl

theorem onEngine_trap {α : Type} {s0 : State} {res : MRes α} {va : Word} (h : res = .trap c va) (f : α → State → Out) :
    onEngine s0 o res f = .next (finishOp s0 o (failWord c)) := by rw [h]; rfl

theorem engineStore_ok {x : Ctx} {va : Word} {bs : List Byte} (h : storeBytes s x va bs.length bs = .ok none s1) (f : State → Out) :
    engineStore s o x va bs f = f s1 := by rw [engineStore, h]

theorem engineStore_fault {x : Ctx} {va tv : Word} {bs : List Byte} (h : storeBytes s x va bs.length bs = .ok (some (c, tv)) s1)
    (f : State → Out) : engineStore s o x va bs f = .next (finishOp s1 o (failWord c)) := by rw [engineStore, h]

/-! ### What completing keeps of a region -/

theorem regions_finishOp (s : State) (o : Op) (v : Word) : (finishOp s o v).regions = s.regions := by
  rw [finishOp_eq]
  exact State.regions_updCore _ _ _

theorem ctl_congr {t : State} (h : t.regions = s.regions) (r : RegionId) : t.ctl r = s.ctl r := by
  unfold State.ctl State.region
  simp only [h]

@[simp] theorem State.ctl_updFab (s : State) (r q : RegionId) (f : Fabric → Fabric) : (s.updFab r f).ctl q = s.ctl q := by
  unfold State.updFab State.ctl State.updRegion State.setRegion State.region
  by_cases h : q = r
  · subst h
    simp
  · rw [Vector.getElem_set_ne _ _ fun e => h (BitVec.eq_of_toNat_eq e.symm)]

@[simp] theorem State.ctl_updCtl_self (s : State) (r : RegionId) (f : RegionCtl → RegionCtl) : (s.updCtl r f).ctl r = f (s.ctl r) := by
  unfold State.updCtl State.ctl
  rw [State.region_updRegion_self]

@[simp] theorem State.ctl_useFresh (s : State) (n : Nat) (r : RegionId) : (s.useFresh n).ctl r = s.ctl r := rfl

@[simp] theorem State.ctl_updRegion_self (s : State) (r : RegionId) (f : Region → Region) :
    (s.updRegion r f).ctl r = (f (s.region r)).ctl := congrArg Region.ctl (s.region_updRegion_self r f)

theorem ctl_foldl {α : Type} {f : State → α → State} (hf : ∀ s a, (f s a).ctl r = s.ctl r) (l : List α) (s : State) :
    (l.foldl f s).ctl r = s.ctl r := by
  induction l generalizing s with
  | nil => rfl
  | cons a l ih => exact (ih _).trans (hf s a)

theorem ctl_zeroSpacc (s : State) (q : RegionId) (g : Cfg) : (zeroSpacc s q g).ctl r = s.ctl r := by
  refine ctl_foldl (fun s x => ?_) _ s
  dsimp only
  split
  · split
    · exact State.ctl_updFab _ _ _ _
    · rfl
  · rfl

theorem ctl_resetNet (s : State) (p : PartId) (q : RegionId) : (resetNet s p q).ctl r = s.ctl r := by
  unfold resetNet
  split
  · exact ctl_congr rfl r
  · rfl

theorem ctl_seedLfsrs (s : State) (q : RegionId) : (seedLfsrs s q).ctl r = s.ctl r := by
  unfold seedLfsrs
  rw [State.ctl_useFresh, State.ctl_updFab]

/-- A region that has been loaded is LOADING, with its configuration (R171). -/
theorem ctl_loadRegion (s : State) (o : Op) (r : RegionId) (img : Word) (idx : BitVec 6) (cw : Word) (g : Cfg) :
    ((loadRegion s o r img idx cw g).ctl r).st = .loading ∧ ((loadRegion s o r img idx cw g).ctl r).cfg = some g := by
  unfold loadRegion
  dsimp only
  have key : ∀ (u : State) (f : Partition → Partition),
      (putOp ((resetNet (zeroSpacc (seedLfsrs u r) r g) o.part r).updPart o.part f) { o with kind := .loading r }).ctl r = u.ctl r :=
    fun u f => (ctl_congr rfl r).trans ((ctl_resetNet _ _ _).trans ((ctl_zeroSpacc _ _ _).trans (ctl_seedLfsrs _ _)))
  rw [key]
  rw [State.ctl_useFresh, State.ctl_updRegion_self]
  exact ⟨rfl, rfl⟩

theorem ctl_endLoad (s : State) (o : Op) (r : RegionId) (c : BitVec 8) : ((endLoad s o r c).ctl r).st = .idle := by
  unfold endLoad
  rw [ctl_congr (regions_finishOp _ _ _), State.ctl_updCtl_self]

theorem ctl_beginLoad (s : State) (o : Op) (r : RegionId) (cw : Word) : ((beginLoad s o r cw).ctl r).st = .loading := by
  unfold beginLoad
  rw [State.ctl_updCtl_self]

theorem ctl_saveRegion (s : State) (r : RegionId) (hash : BitVec 256) : ((saveRegion s r hash).ctl r).st = .saved := by
  have key : ∀ (u : State) (f : Region → Region) (l : List Save),
      ({ u.updRegion r f with saves := l } : State).ctl r = (f (u.region r)).ctl := fun u f _ => u.ctl_updRegion_self r f
  unfold saveRegion
  dsimp only
  rw [key]

/-! ### LOADIMG -/

section
variable {va : Word} {bs : List Byte} {m : Image} (h : s.Under k o) (hk : o.kind = .loadimg va)
  (hi : readImage s (hubCtx o.part o.lvl) va = .ok bs s1)

include h hk hi

theorem loadimg_unsigned (hs : signatureOk (s1.part o.part) bs = false) :
    exec (.loadimgComplete k) s = .next (finishOp s1 o (failWord cLOAD_SIGNATURE)) := by
  change execLoadimgComplete k s = _
  unfold execLoadimgComplete
  rw [onOp_under h, hk]
  dsimp only
  rw [onEngine_ok hi]
  exact if_pos (by simp [hs])

theorem loadimg_checked (hs : signatureOk (s1.part o.part) bs = true) (hm : checkImage bs = .ok m) :
    let todo := m.data.map dataTarget
    let o1 := { o with kind := .loadimgData todo (loadRecOf va m) }
    exec (.loadimgComplete k) s = copyData (putOp s1 o1) o1 (loadRecOf va m) todo := by
  change execLoadimgComplete k s = _
  unfold execLoadimgComplete
  rw [onOp_under h, hk]
  dsimp only
  rw [onEngine_ok hi, if_neg (by simp [hs]), hm]

theorem loadimg_refused (hs : signatureOk (s1.part o.part) bs = true) (hm : checkImage bs = .error c) :
    exec (.loadimgComplete k) s = .next (finishOp s1 o (failWord c)) := by
  change execLoadimgComplete k s = _
  unfold execLoadimgComplete
  rw [onOp_under h, hk]
  dsimp only
  rw [onEngine_ok hi, if_neg (by simp [hs]), hm]

end

theorem exec_loadimgData {todo : List (Word × List Byte)} {rec : LoadRec} (h : s.Under k o) (hk : o.kind = .loadimgData todo rec) :
    exec (.loadimgComplete k) s = copyData s o rec todo := by
  change execLoadimgComplete k s = _
  unfold execLoadimgComplete
  rw [onOp_under h, hk]

/-! ### LAUNCH -/

theorem launchStore_ok {cw v : Word} (h : storeVa s (hubCtx o.part o.lvl) cw v.toNat 8 = .ok () s1) (f : State → Out) :
    launchStore s o cw v f = f s1 := by
  rw [launchStore, h]

section
variable {img cw : Word} {idx : BitVec 6} {g : Cfg} (h : s.Under k o) (hk : o.kind = .launch r img idx cw)
  (hf : (s.ops.takeWhile (·.id != k)).any (fun y => match y.kind with | .launch q _ _ _ => q == r | _ => false) = false)
  (hs : (s.ctl r).st = .idle) (hp : (s.ctl r).power = 0) (hh : o.held = none) (hu : o.unit = 0)
  (hst : storeVa s (hubCtx o.part o.lvl) cw 0 8 = .ok () s1)

include h hk hf hs hp hh hu hst

/-- The first LAUNCH of an idle region stores 0 to its completion word, and the checks follow. -/
theorem exec_launchTakeEffect : exec (.launchTakeEffect k) s = launchChecks (beginLoad s1 o r cw) o r img idx cw := by
  have hw : wakeRegion s r = s := if_pos hp
  change execLaunchTakeEffect k s = _
  unfold execLaunchTakeEffect
  rw [onOp_under h, hk]
  dsimp only
  rw [hw, hu]
  have h1 : ∀ b : Bool, b = false → ¬(!!b || (s.ctl r).st != if 0 = 0 then RState.idle else .loading) = true := by
    intro b hb
    simp [hb, hs]
  refine (if_neg (h1 _ hf)).trans ?_
  rw [if_neg (by simp [hs, hp, hh])]
  exact launchStore_ok (v := 0) hst _

theorem launch_loads (hc : launchCheck (beginLoad s1 o r cw) o r img idx = .loads g s2) :
    exec (.launchTakeEffect k) s = .next (loadRegion s2 o r img idx cw g) := by
  rw [exec_launchTakeEffect h hk hf hs hp hh hu hst, launchChecks, hc]

theorem launch_checks_wait (hc : launchCheck (beginLoad s1 o r cw) o r img idx = .wait) :
    exec (.launchTakeEffect k) s = .next (putOp (beginLoad s1 o r cw) { o with unit := 1 }) := by
  rw [exec_launchTakeEffect h hk hf hs hp hh hu hst, launchChecks, hc]

theorem launch_is_refused (hc : launchCheck (beginLoad s1 o r cw) o r img idx = .refused c)
    (hw : storeVa (beginLoad s1 o r cw) (hubCtx o.part o.lvl) cw (failWord c).toNat 8 = .ok () s2) :
    exec (.launchTakeEffect k) s = .next (endLoad s2 { o with unit := 2, buf := [c] } r c) := by
  rw [exec_launchTakeEffect h hk hf hs hp hh hu hst, launchChecks, hc]
  exact launchStore_ok (o := { o with unit := 2, buf := [c] }) hw _

end

/-! ### Loads, kills and snapshots that end -/

theorem exec_loadComplete (h : s.Under k o) (hk : o.kind = .loading r) :
    exec (.loadComplete k) s = .next (finishOp (s.updCtl r fun c => { c with st := .running, lastFire := s.fclock }) o 1) := by
  change execLoadComplete k s = _
  unfold execLoadComplete
  rw [onOp_under h, hk]

theorem exec_killrComplete (h : s.Under k o) (hk : o.kind = .killr r) : exec (.killrComplete k) s = .next (finishOp s o 1) := by
  change execKillrComplete k s = _
  unfold execKillrComplete
  rw [onOp_under h, hk]

theorem exec_snapshotComplete {va : Word} (h : s.Under k o) (hk : o.kind = .snapshot r va)
    (hs : (s.ctl r).st ∈ [RState.running, .frozen]) (hp : (s.ctl r).power = 0) (ht : settledForSave s r = true)
    (hw : storeBytes (regionSync (s.useFresh 1) r) (hubCtx o.part o.lvl) va (saveArea r (s.ctl r) s.fclock s.fresh).1.length
      (saveArea r (s.ctl r) s.fclock s.fresh).1 = .ok none s1) :
    exec (.snapshotComplete k) s = .next (finishOp (saveRegion s1 r (saveArea r (s.ctl r) s.fclock s.fresh).2) o 1) := by
  have hwake : wakeRegion s r = s := if_pos hp
  change execSnapshotComplete k s = _
  unfold execSnapshotComplete
  rw [onOp_under h, hk]
  dsimp only
  rw [hwake]
  simp only [List.mem_cons, List.not_mem_nil, or_false] at hs
  obtain hs | hs := hs
  all_goals
    rw [hs]
    dsimp only
    rw [if_neg (by simp [hp, ht]), engineStore_ok hw]

/-! ### Rounds and phases -/

section
variable {code : Word} {h : ShapeRec} {ph : Nat} {out : Bool} {g : Cfg} {par : Flips}
  (hu : s.Under k o) (hk : o.kind = .strm r code h ph out)

include hu hk

/-- A round that is over ends with its value. -/
theorem exec_strmComplete {v : Word} (hv : o.fail = some v ∧ (s.ctl r).killing = none ∨
    v = 1 ∧ o.fail = none ∧ strmTurn s o r code = true ∧ roundUnits h ≤ o.unit) :
    exec (.strmComplete k) s = endRound s o r out v := by
  change execStrmComplete k s = _
  unfold execStrmComplete
  rw [onOp_under hu, hk]
  dsimp only
  obtain ⟨hf, hkill⟩ | ⟨rfl, hf, ht, hr⟩ := hv
  · rw [hf]
    exact if_neg (by simp [hkill])
  · rw [hf]
    exact if_pos (by simp [ht, hr])

theorem exec_streamRoundAccess (ht : strmTurn s o r code = true) (hr : o.unit < roundUnits h) (hg : (s.ctl r).cfg = some g) :
    exec (.streamRoundAccess ⟨k, par⟩) s = if !out then streamIn s o r g code h par
      else if o.buf.isEmpty then .next (streamTake s o r g code h) else streamOut s o r code h := by
  change execStreamRoundAccess ⟨k, par⟩ s = _
  unfold execStreamRoundAccess
  rw [onOp_under hu, hk]
  dsimp only
  rw [hg]
  exact if_neg (by simp [ht, hr])

end

theorem endRound_out (v : Word) : endRound s o r true v = .next (finishOp s o v) := rfl

theorem endRound_in (v : Word) (h : regionSyncHeld s r = false) : endRound s o r false v = .next (finishOp (regionSync s r) o v) := by
  unfold endRound
  rw [if_neg (by decide), if_neg (by simp [h])]

theorem endRound_in_waits (v : Word) (h : regionSyncHeld s r = true) : endRound s o r false v = .next s := by
  unfold endRound
  rw [if_neg (by decide), if_pos h]

theorem exec_sbarComplete (h : s.Under k o) (hk : o.kind = .sbar r) (hf : o.fail = none)
    (he : (s.ops.takeWhile (·.id != k)).any (fun y => streamRegion y.kind == some r) = false) (hs : storesOut (s.fab r) = false)
    (hr : (s.ctl r).st = .running) (hh : regionSyncHeld s r = false) :
    exec (.sbarComplete k) s = .next (finishOp ((regionSync s r).updCtl r fun c => { c with phase := c.phase + 1 }) o 1) := by
  change execSbarComplete k s = _
  unfold execSbarComplete
  rw [onOp_under h, hk]
  exact if_neg (by simp [hf, he, hs, hr, hh])

/-- Settles O33. -/
theorem regionOperationsComplete : Obligations.RegionOperationsComplete := by
  intro s s1 s2 k o r g bs m c va img cw idx h code ph out par hu
  refine ⟨fun hk hi => ⟨fun hs hm hd => ?noData, fun hs hm => loadimg_checked hu hk hi hs hm, fun hs hm => loadimg_refused hu hk hi hs hm,
    fun hs => ?unsigned⟩, fun rec hk hb => ?lastSection, fun hk hf hs hp hh hun hst => ⟨ctl_beginLoad _ _ _ _,
      fun hc => ⟨launch_loads hu hk hf hs hp hh hun hst hc, ctl_loadRegion _ _ _ _ _ _ _⟩,
      fun hc => launch_checks_wait hu hk hf hs hp hh hun hst hc,
      fun hc hw => ⟨launch_is_refused hu hk hf hs hp hh hun hst hc hw, ctl_endLoad _ _ _ _⟩⟩,
    exec_loadComplete hu, exec_killrComplete hu,
    fun hk hs hp ht hw => ⟨exec_snapshotComplete hu hk hs hp ht hw, ctl_saveRegion _ _ _⟩,
    fun hk => ⟨fun v hv => ⟨fun ho => ?out, fun ho hh => ?inward, fun ho hh => ?inwardWaits⟩, fun ht hr hg => ⟨fun ho => ?unitIn,
      fun ho hb => ?take, fun ho hb => ?unitOut⟩⟩, fun hk => exec_sbarComplete hu hk⟩
  case noData =>
    have := loadimg_checked hu hk hi hs hm
    rw [hd] at this
    exact this
  case unsigned => exact loadimg_unsigned hu hk hi hs
  case lastSection =>
    rw [exec_loadimgData hu hk, copyData, engineStore_ok hb]
    rfl
  case out => subst ho; exact exec_strmComplete hu hk hv
  case inward => subst ho; exact (exec_strmComplete hu hk hv).trans (endRound_in v hh)
  case inwardWaits => subst ho; exact (exec_strmComplete hu hk hv).trans (endRound_in_waits v hh)
  case unitIn => subst ho; exact exec_streamRoundAccess hu hk ht hr hg
  case take => subst ho; exact (exec_streamRoundAccess hu hk ht hr hg).trans ((if_neg (by decide)).trans (if_pos (List.isEmpty_iff.2 hb)))
  case unitOut => subst ho; exact (exec_streamRoundAccess hu hk ht hr hg).trans ((if_neg (by decide)).trans
    (if_neg fun h => hb (List.isEmpty_iff.1 h)))

end Sys2Proof.Machine
end

section
/-!
PROOFS. Units of a stream round (R75, R76, R176, R274).
-/

namespace Sys2Proof.Machine

open Sys2Proof

variable {s s1 s2 s3 : State} {o : Op} {r : RegionId} {g : Cfg} {code : Word} {h : ShapeRec} {bs sc : List Byte} {par : Flips}

/-- The scale bytes of a block, as the format counts its elements (R274). -/
def blockOf (h : ShapeRec) : Nat := if h.fmt = 0x0F then 16 else 8

theorem scaleAt_iff (j : Nat) : scaleAt h j = true ↔ h.zbp = true ∧ j % blockOf h = 0 := by
  unfold scaleAt blockOf
  simp only [Bool.and_eq_true, beq_iff_eq]

/-- A unit, and the scale byte of the block that it begins, are loaded. -/
def UnitLoads (s : State) (o : Op) (h : ShapeRec) (bs sc : List Byte) (s1 : State) : Prop :=
  ∃ s0, loadBytes s (hubCtx o.part o.lvl) (unitVa h o.unit) (unitBytes h.fmt) = .ok bs s0 ∧
    (scaleAt h o.unit = true → loadBytes s0 (hubCtx o.part o.lvl) (h.scaleAddr (unitVa h o.unit)) 1 = .ok sc s1) ∧
    (scaleAt h o.unit = false → sc = [] ∧ s1 = s0)

theorem unitLoads_bind (hl : UnitLoads s o h bs sc s1) :
    ((loadBytes s (hubCtx o.part o.lvl) (unitVa h o.unit) (unitBytes h.fmt)).bind fun bs s =>
      if scaleAt h o.unit then (loadBytes s (hubCtx o.part o.lvl) (h.scaleAddr (unitVa h o.unit)) 1).bind fun sc s => .ok (bs, sc) s
      else .ok (bs, []) s) = .ok (bs, sc) s1 := by
  obtain ⟨s0, hb, hs, hn⟩ := hl
  rw [hb]
  change (if scaleAt h o.unit = true then _ else _) = _
  cases hsc : scaleAt h o.unit with
  | true =>
    rw [if_pos rfl, hs hsc]
    rfl
  | false =>
    obtain ⟨rfl, rfl⟩ := hn hsc
    exact if_neg (by decide)

/-- The token that the last unit of an inward token completes. -/
def unitTok (g : Cfg) (code : Word) (h : ShapeRec) (buf sbuf : List Byte) : Token :=
  streamTok g code kDATA (h.fmt.setWidth 5) (BitVec.ofNat 7 ((fmtP (h.fmt.setWidth 5)).getD 0)) true
    (BitVec.ofNat 64 (bytesNat sbuf)) (BitVec.ofNat 512 (bytesNat buf))

/-- A unit within its token joins the bytes that have been loaded of it. -/
theorem streamIn_within (hl : UnitLoads s o h bs sc s1) (hn : o.unit + 1 ≠ nextTokUnit h o.unit) :
    streamIn s o r g code h par =
      .next (putOp (touch s1 r) { o with unit := o.unit + 1, buf := o.buf ++ bs, sbuf := o.sbuf ++ sc }) := by
  unfold streamIn
  dsimp only
  rw [unitLoads_bind hl]
  exact if_neg hn

theorem streamIn_out_of_turn (hl : UnitLoads s o h bs sc s1) (hn : o.unit + 1 = nextTokUnit h o.unit)
    (ht : outOfTurn s r (unitTok g code h (o.buf ++ bs) (o.sbuf ++ sc)) (portSrc g code) = true) :
    streamIn s o r g code h par = .next s := by
  unfold streamIn
  dsimp only
  rw [unitLoads_bind hl]
  exact (if_pos hn).trans (if_pos ht)

theorem streamIn_delivers (hl : UnitLoads s o h bs sc s1) (hn : o.unit + 1 = nextTokUnit h o.unit)
    (ht : outOfTurn s r (unitTok g code h (o.buf ++ bs) (o.sbuf ++ sc)) (portSrc g code) = false)
    (hd : portDeliver (touch s1 r) r g code (unitTok g code h (o.buf ++ bs) (o.sbuf ++ sc)) par = some s2) :
    streamIn s o r g code h par = .next (putOp s2 { o with unit := o.unit + 1, buf := [], sbuf := [] }) := by
  unfold streamIn
  dsimp only
  rw [unitLoads_bind hl]
  unfold unitTok at hd
  refine (if_pos hn).trans ((if_neg (Bool.eq_false_iff.1 ht)).trans ?_)
  rw [hd]

theorem portDeliver_checked {t u : Token} {z : State}
    (hc : checkParity s r (boundaryTile g code).1 (boundaryTile g code).2 t par = (some u, z)) :
    portDeliver s r g code t par = arriveTok (noteDel z r u (portSrc g code)) r u par.store := by
  unfold portDeliver
  dsimp only
  rw [hc]

theorem portDeliver_discarded {t : Token} {z : State}
    (hc : checkParity s r (boundaryTile g code).1 (boundaryTile g code).2 t par = (none, z)) :
    portDeliver s r g code t par = some z := by
  unfold portDeliver
  dsimp only
  rw [hc]

/-- A unit, and the scale byte of the block that it begins, are stored. -/
def UnitStores (s : State) (o : Op) (h : ShapeRec) (s1 : State) : Prop :=
  ∃ s0, storeBytes s (hubCtx o.part o.lvl) (unitVa h o.unit) (unitBytes h.fmt)
      ((o.buf.drop (o.unit % unitsPer h.fmt * unitBytes h.fmt)).take (unitBytes h.fmt)) = .ok none s0 ∧
    (scaleAt h o.unit = true → storeBytes s0 (hubCtx o.part o.lvl) (h.scaleAddr (unitVa h o.unit)) 1
      [o.sbuf.getD (o.unit % unitsPer h.fmt / blockOf h) 0] = .ok none s1) ∧
    (scaleAt h o.unit = false → s1 = s0)

theorem blockOf_eq : (if h.fmt == 0x0F then 16 else 8) = blockOf h := by
  unfold blockOf
  simp only [beq_iff_eq]

/-- The last outward unit of a token leaves nothing of it. -/
theorem streamOut_stores (hst : UnitStores s o h s1) :
    streamOut s o r code h = .next (touch (putOp s1 { o with
      unit := o.unit + 1
      buf := if o.unit + 1 = nextTokUnit h o.unit then [] else o.buf
      sbuf := if o.unit + 1 = nextTokUnit h o.unit then [] else o.sbuf }) r) := by
  obtain ⟨s0, hb, hs, hn⟩ := hst
  unfold streamOut
  dsimp only
  rw [hb]
  cases hsc : scaleAt h o.unit with
  | true =>
    simp only [if_true]
    rw [blockOf_eq, hs hsc]
  | false =>
    obtain rfl := hn hsc
    exact if_neg (by decide)

/-- A format of one unit per token ends a token with every unit. -/
theorem succ_eq_nextTokUnit {j : Nat} (hu : unitsPer h.fmt = 1) (hj : j < roundUnits h) : j + 1 = nextTokUnit h j := by
  unfold nextTokUnit
  rw [hu, Nat.div_one, Nat.mul_one]
  omega

/-- The scale byte of the element m blocks behind the base (R274). -/
theorem scaleAddr_eq {va : Word} {m : Int} (hz : h.zbp = true) (hm : (va - h.base).toInt = m * (blockOf h : Int)) :
    h.scaleAddr va = h.base + h.s3 + BitVec.ofInt 64 m := by
  have hq : ((if h.fmt == 0x0F then 16 else 8 : Int)) = (blockOf h : Int) := by
    rw [← blockOf_eq]
    split <;> rfl
  have h0 : (blockOf h : Int) ≠ 0 := by
    unfold blockOf
    split <;> decide
  unfold ShapeRec.scaleAddr
  rw [if_pos hz, hq, hm, Int.mul_ediv_cancel _ h0]

/-- A walk of one dimension steps by its stride (R76). -/
theorem unitVa_one_dim (j : Nat) :
    unitVa { h with ndim := 1 } j = h.base + BitVec.ofNat 64 (j % h.e0.toNat) * h.s0 := by
  have hidx : roundIdx { h with ndim := 1 } j = [j % h.e0.toNat, 0, 0, 0] := by
    have hx : (List.range 4).map ({ h with ndim := 1 } : ShapeRec).ext = [h.e0.toNat, 1, 1, 1] := rfl
    unfold roundIdx
    rw [hx]
    simp [List.range, List.range.loop, ctrIdx, Nat.mod_one]
  unfold unitVa
  rw [hidx]
  simp [ShapeRec.addr, ShapeRec.str]

/-- Settles O34. -/
theorem streamUnitsMoveBytes : Obligations.StreamUnitsMoveBytes := by
  intro s s1 s2 s3 o r g code h bs sc par
  dsimp only
  have hload : ∀ {s0}, loadBytes s (hubCtx o.part o.lvl) (unitVa h o.unit) (unitBytes h.fmt) = .ok bs s0 ∧
      (h.zbp = true ∧ o.unit % blockOf h = 0 →
        loadBytes s0 (hubCtx o.part o.lvl) (h.scaleAddr (unitVa h o.unit)) 1 = .ok sc s1) ∧
      (¬(h.zbp = true ∧ o.unit % blockOf h = 0) → sc = [] ∧ s1 = s0) → UnitLoads s o h bs sc s1 := by
    rintro s0 ⟨hb, hs, hn⟩
    exact ⟨s0, hb, fun hx => hs ((scaleAt_iff _).1 hx), fun hx => hn fun hy => by rw [(scaleAt_iff _).2 hy] at hx; cases hx⟩
  have hstore : ∀ {s0}, storeBytes s (hubCtx o.part o.lvl) (unitVa h o.unit) (unitBytes h.fmt)
      ((o.buf.drop (o.unit % unitsPer h.fmt * unitBytes h.fmt)).take (unitBytes h.fmt)) = .ok none s0 ∧
      (h.zbp = true ∧ o.unit % blockOf h = 0 → storeBytes s0 (hubCtx o.part o.lvl) (h.scaleAddr (unitVa h o.unit)) 1
        [o.sbuf.getD (o.unit % unitsPer h.fmt / blockOf h) 0] = .ok none s1) ∧
      (¬(h.zbp = true ∧ o.unit % blockOf h = 0) → s1 = s0) → UnitStores s o h s1 := by
    rintro s0 ⟨hb, hs, hn⟩
    exact ⟨s0, hb, fun hx => hs ((scaleAt_iff _).1 hx), fun hx => hn fun hy => by rw [(scaleAt_iff _).2 hy] at hx; cases hx⟩
  refine ⟨fun ⟨s0, hl⟩ hn => streamIn_within (hload hl) hn, fun ⟨s0, hl⟩ hn => ⟨streamIn_out_of_turn (hload hl) hn, fun ht hc => ?_,
    fun u ht hc ha => ?_⟩, fun ⟨s0, hs⟩ hn => ?_, fun ⟨s0, hs⟩ hn => ?_, succ_eq_nextTokUnit, fun m => scaleAddr_eq, fun _ => unitVa_one_dim⟩
  · exact streamIn_delivers (hload hl) hn ht (portDeliver_discarded hc)
  · exact streamIn_delivers (hload hl) hn ht ((portDeliver_checked hc).trans ha)
  · rw [streamOut_stores (hstore hs)]
    simp only [if_neg hn]
  · rw [streamOut_stores (hstore hs)]
    simp only [if_pos hn]

end Sys2Proof.Machine
end

section
/-!
PROOFS. Operations of the hub's engines complete: COPY, CMPCT, PUBLISH, MIGRATE, COLL (R93, R97, R179 to R184, R407).
-/

namespace Sys2Proof.Machine

open Sys2Proof

variable {s s1 s2 s3 s4 : State} {o : Op} {k : Nat} {c : BitVec 8} {tv : Word}

/-! ### COPY -/

section Copy
variable {dst src len : Word} {bs : List Byte}

theorem exec_copyComplete (h : s.Under k o) (hk : o.kind = .copy dst src len) :
    exec (.copyComplete k) s = onEngine s o (loadBytes s (hubCtx o.part o.lvl) src len.toNat) fun bs s =>
      engineStore s o (shadowCtx o) dst bs fun s => .next (finishOp s o 1) := by
  change execCopyComplete k s = _
  rw [execCopyComplete, onOp_under h, hk]

theorem exec_copyComplete_loaded (h : s.Under k o) (hk : o.kind = .copy dst src len)
    (hl : loadBytes s (hubCtx o.part o.lvl) src len.toNat = .ok bs s1) :
    exec (.copyComplete k) s = engineStore s1 o (shadowCtx o) dst bs fun s => .next (finishOp s o 1) := by
  rw [exec_copyComplete h hk, onEngine_ok hl]

theorem exec_copyComplete_trap (h : s.Under k o) (hk : o.kind = .copy dst src len)
    (hl : loadBytes s (hubCtx o.part o.lvl) src len.toNat = .trap c tv) :
    exec (.copyComplete k) s = .next (finishOp s o (failWord c)) := by
  rw [exec_copyComplete h hk, onEngine_trap hl]

end Copy

/-! ### CMPCT -/

section Cmpct
variable {desc : Word} {bs gb own : List Byte}

theorem mode_le_one_of_ladleBad_eq_false (h : ladleBad bs = false) : (parseLadle bs).mode ≤ 1 := by
  simp only [ladleBad, Bool.or_eq_false_iff, decide_eq_false_iff_not, Nat.not_lt] at h
  exact h.1.1.1.2

/-- The nonzero test reads no AUX. -/
theorem Ladle.auxN_of_nonzero_test {l : Ladle} (hm : l.mode = 1) (ha : l.aux = 0) : l.auxN = 0 := by
  rw [Ladle.auxN, if_neg (by omega), if_pos ha]

theorem exec_cmpctComplete_nonzero (h : s.Under k o) (hk : o.kind = .cmpct desc)
    (hl : loadBytes s (hubCtx o.part o.lvl) desc 64 = .ok bs s1) (hb : ladleBad bs = false)
    (hm : (parseLadle bs).mode = 1) (ha : (parseLadle bs).aux = 0)
    (ho : loadBytes s1 (hubCtx o.part o.lvl) (BitVec.ofNat 64 (parseLadle bs).src) (parseLadle bs).srcN = .ok own s2)
    (hmeet : ladleMeets (parseLadle bs) (ladleNonzero (parseLadle bs) own).length = false) :
    exec (.cmpctComplete k) s = ladleWrite s2 o desc (parseLadle bs) [] (ladleNonzero (parseLadle bs) own) := by
  have haux : loadBytes s1 (hubCtx o.part o.lvl) (BitVec.ofNat 64 (parseLadle bs).aux) (parseLadle bs).auxN = .ok [] s1 := by
    rw [Ladle.auxN_of_nonzero_test hm ha, loadBytes]
  change execCmpctComplete k s = _
  rw [execCmpctComplete, onOp_under h, hk]
  dsimp only
  rw [onEngine_ok hl]
  rw [if_neg (by rw [hb]; decide), onEngine_ok haux, if_neg (by rw [hm]; simp), if_pos (by rw [hm, ha]; rfl), onEngine_ok ho,
    if_neg (by rw [hmeet]; decide)]

theorem exec_cmpctComplete_parts {counts : List Nat} {parts : List (Nat × Nat)} (h : s.Under k o) (hk : o.kind = .cmpct desc)
    (hl : loadBytes s (hubCtx o.part o.lvl) desc 64 = .ok bs s1) (hb : ladleBad bs = false)
    (hm : (parseLadle bs).mode = 0 ∨ (parseLadle bs).aux ≠ 0)
    (ha : loadBytes s1 (hubCtx o.part o.lvl) (BitVec.ofNat 64 (parseLadle bs).aux) (parseLadle bs).auxN = .ok gb s2)
    (hc : counts = (List.range (parseLadle bs).num).map fun i => leAt gb (4 * i) 4)
    (hcap : (parseLadle bs).mode = 0 → ∀ c ∈ counts, c ≤ (parseLadle bs).cap)
    (hp : parts = if (parseLadle bs).mode = 0 then ladlePrefixes (parseLadle bs) counts else ladleSelect (parseLadle bs) gb)
    (hmeet : ladleMeets (parseLadle bs) ((parts.map (·.2)).sum * (parseLadle bs).es) = false)
    (ho : loadParts s2 (hubCtx o.part o.lvl) (parseLadle bs) parts = .ok own s3) :
    exec (.cmpctComplete k) s = ladleWrite s3 o desc (parseLadle bs) counts own := by
  have hcap' : ¬ (((decide ((parseLadle bs).mode = 0) && counts.any fun c => decide ((parseLadle bs).cap < c)) = true)) := by
    rw [Bool.and_eq_true, decide_eq_true_eq, List.any_eq_true]
    rintro ⟨hm0, c, hc, hlt⟩
    exact absurd (of_decide_eq_true hlt) (Nat.not_lt.mpr (hcap hm0 c hc))
  have hmode : ¬ ((decide ((parseLadle bs).mode = 1) && decide ((parseLadle bs).aux = 0)) = true) := by
    rw [Bool.and_eq_true, decide_eq_true_eq, decide_eq_true_eq]
    omega
  subst hc hp
  change execCmpctComplete k s = _
  rw [execCmpctComplete, onOp_under h, hk]
  dsimp only
  rw [onEngine_ok hl]
  rw [if_neg (by rw [hb]; decide), onEngine_ok ha, if_neg hcap', if_neg hmode, if_neg (by rw [hmeet]; decide), onEngine_ok ho]

theorem ladleWrite_ok {d : Ladle} {counts : List Nat} {offs : List Byte}
    (hoffs : offs = if d.mode = 0 then (runningSums 0 counts).flatMap fun c => natBytes 4 c else [])
    (h1 : storeBytes s (shadowCtx o) (BitVec.ofNat 64 d.dst) own.length own = .ok none s1)
    (h2 : storeBytes s1 (shadowCtx o) (BitVec.ofNat 64 d.offs) offs.length offs = .ok none s2)
    (h3 : storeBytes s2 (shadowCtx o) (desc + 48) 8 (natBytes 8 (own.length / d.es)) = .ok none s3) :
    ladleWrite s o desc d counts own = .next (finishOp s3 o 1) := by
  have hlen : (natBytes 8 (own.length / d.es)).length = 8 := length_natBytes _ _
  subst hoffs
  rw [ladleWrite, engineStore_ok h1, engineStore_ok h2, engineStore_ok (by rw [hlen]; exact h3)]

end Cmpct

/-! ### PUBLISH and MIGRATE -/

theorem exec_publishFlip {va : Word} {n at_ : Nat} (h : s.Under k o) (hk : o.kind = .publish va)
    (hv : viewLook s o va = .ok (some (n, at_)) s1)
    (he : ((s1.ops.takeWhile (·.id != k)).any fun y => y.part == o.part && transfersInto s1 va.toNat (65536 * n) y) = false)
    (hbusy : vaBusy s1 o.part false va.toNat (65536 * n) = false)
    (hc : homeCheck s1 (hubCtx o.part o.lvl) (at_ + 8) 8 va false = .ok () s2) :
    exec (.publishFlip k) s = .next (finishOp (switchView
      (s2.updMs (tableWrite o.part (at_ + 8) (readPte s2 (at_ + 8) ^^^ 0x10000) s2.fclock)) o.part va.toNat (65536 * n)
      ((readPte s2 (at_ + 8)).getLsbD 16)) o 1) := by
  change execPublishFlip k s = _
  rw [execPublishFlip, onOp_under h, hk]
  dsimp only
  rw [onEngine_ok hv]
  dsimp only
  rw [he, hbusy, if_neg (by decide), onEngine_ok hc]

theorem exec_migrationSwitch {va frame : Word} {old : Nat} {l : Leaf} (h : s.Under k o) (hk : o.kind = .migrate va frame old true)
    (hheld : copyHeld s (hubCtx o.part o.lvl) old frame.toNat = false)
    (ht : tableCheck s (hubCtx o.part o.lvl) va (walkReads s (s.part o.part).ptroot va) = .ok () s1)
    (hw : walk s1 (s.part o.part).ptroot va = .ok l) (hf : framesCause s1 old frame.toNat = none)
    (hl : lineFault s1 (hubCtx o.part o.lvl) (linesOf old 65536) = none) :
    let t := copyPage (closeWindow s1 o) o.part old frame.toNat
      (((s1.ms.migrations.find? (·.op == o.id)).map (·.wrote)).getD [])
    exec (.migrationSwitch k) s = .next (finishOp (switchPage (t.updMs
      (tableWrite o.part l.at_ ((l.pte &&& 0xFFFF00000000FFFF) ||| BitVec.ofNat 64 frame.toNat) t.fclock)) o.part old
      frame.toNat) o 1) := by
  change execMigrationSwitch k s = _
  rw [execMigrationSwitch, onOp_under h, hk]
  dsimp only
  rw [hheld, if_neg (by decide), ht]
  dsimp only
  rw [hw, hf, hl]
  rfl

/-! ### COLL -/

section Coll
variable {group desc : Word} {gb eb db own peer : List Byte} {w : Nat} {news : RingNews}

/-- COLL_COMPLETE of an operation whose group and descriptor are read and pass R183. -/
structure CollReady (s : State) (k : Nat) (o : Op) (group desc : Word) (gb eb db : List Byte) (s3 : State) : Prop where
  under : s.Under k o
  kind : o.kind = .coll group desc
  reads : ∃ s1 s2, loadBytes s (hubCtx o.part o.lvl) group 16 = .ok gb s1 ∧
    loadBytes s1 (hubCtx o.part o.lvl) (group + 16) (4 * leAt gb 0 4) = .ok eb s2 ∧
    loadBytes s2 (hubCtx o.part o.lvl) desc 64 = .ok db s3
  good : collBad s3 gb eb db = false

theorem CollReady.broken (h : CollReady s k o group desc gb eb db s3) :
    exec (.collComplete k peer .broken) s = .next (finishOp s3 o (failWord cILLEGAL)) := by
  obtain ⟨s1, s2, hg, he, hd⟩ := h.reads
  change execCollComplete k peer .broken s = _
  rw [execCollComplete, onOp_under h.under, h.kind]
  dsimp only
  rw [onEngine_ok hg, onEngine_ok he, onEngine_ok hd, if_pos (by simp)]

theorem CollReady.no_window (h : CollReady s k o group desc gb eb db s3) (hw : ringWin s3 o.part gb eb 1 = none) :
    exec (.collComplete k peer news) s = .next (finishOp s3 o (failWord cILLEGAL)) := by
  obtain ⟨s1, s2, hg, he, hd⟩ := h.reads
  change execCollComplete k peer news s = _
  rw [execCollComplete, onOp_under h.under, h.kind]
  dsimp only
  rw [onEngine_ok hg, onEngine_ok he, onEngine_ok hd, hw, ite_self]

theorem CollReady.moves (h : CollReady s k o group desc gb eb db s3) (hw : ringWin s3 o.part gb eb 1 = some w)
    (hup : (s3.peerLink w).down = false)
    (ha : ((ringFrom s3 o.part gb eb).any fun l => (s3.ms.net.link l).authFail.contains (o.part, .coll)) = false) :
    exec (.collComplete k peer .flows) s = collMove s3 o (parseColl db) gb eb peer w := by
  obtain ⟨s1, s2, hg, he, hd⟩ := h.reads
  change execCollComplete k peer .flows s = _
  rw [execCollComplete, onOp_under h.under, h.kind]
  dsimp only
  rw [onEngine_ok hg, onEngine_ok he, onEngine_ok hd, hw, h.good, if_neg (by decide)]
  dsimp only
  rw [hup, if_neg (by decide), ha, if_neg (by decide)]

/-- A COLL's own buffer goes out in its first move and is kept from then on. -/
def OwnOut (s : State) (o : Op) (d : CollOp) (gb : List Byte) (w : Nat) (own : List Byte) (s2 : State) : Prop :=
  (∃ s1, o.unit = 0 ∧ loadBytes s (hubCtx o.part o.lvl) (BitVec.ofNat 64 d.src) (d.srcN (leAt gb 0 4) * d.es) = .ok own s1 ∧
    s2 = s1.updMs (ringSend o.part w own)) ∨ (o.unit = 1 ∧ own = o.sbuf ∧ s2 = s)

/-- A ring's flits as a move of a COLL leaves them. -/
def ringIn (s : State) (o : Op) (d : CollOp) (gb eb : List Byte) : RingIn :=
  s.ports.flitsIn.foldl (ringTake o.part (ringFrom s o.part gb eb) (leAt gb 0 4) (d.srcN (leAt gb 0 4) * d.es)) ⟨o.buf, [], []⟩

theorem collMove_eq {d : CollOp} (h : OwnOut s o d gb w own s2) :
    collMove s o d gb eb peer w =
      let n := leAt gb 0 4
      let rank := leAt gb 4 4
      let len := d.srcN n * d.es
      let y := ringIn s2 o d gb eb
      let s := (s2.updMs (ringSend o.part w y.onward)).updPorts fun h => { h with flitsIn := y.rest }
      let o := { o with unit := 1, sbuf := own, buf := y.had }
      let members := ringMembers n rank len own y.had
      if y.had.length < (n - 1) * len || peer != (members.eraseIdx rank).flatten then .next (putOp s o)
      else engineStore (s.useFresh d.count) o (shadowCtx o) (BitVec.ofNat 64 d.dst) (collResult d members rank s.fresh) fun s =>
        .next (finishOp s o 1) := by
  rw [collMove]
  rcases h with ⟨s1, hu, hl, rfl⟩ | ⟨hu, rfl, rfl⟩
  · simp only [if_pos hu]
    rw [onEngine_ok hl]
    rfl
  · simp only [if_neg (show ¬ o.unit = 0 by omega)]
    rfl

theorem collMove_waits {d : CollOp} (h : OwnOut s o d gb w own s2)
    (hlt : (ringIn s2 o d gb eb).had.length < (leAt gb 0 4 - 1) * (d.srcN (leAt gb 0 4) * d.es)) :
    collMove s o d gb eb peer w = .next (putOp ((s2.updMs (ringSend o.part w (ringIn s2 o d gb eb).onward)).updPorts fun h =>
      { h with flitsIn := (ringIn s2 o d gb eb).rest }) { o with unit := 1, sbuf := own, buf := (ringIn s2 o d gb eb).had }) := by
  rw [collMove_eq h]
  exact if_pos (by rw [decide_eq_true hlt]; rfl)

end Coll

/-- Settles O35, operation by operation through the equations of their completions. -/
theorem engineOperationsComplete : Obligations.EngineOperationsComplete := by
  unfold Obligations.EngineOperationsComplete
  intro s s1 s2 s3 s4 k o dst src len desc va frame group old at_ n w bs peer gb eb db own c tv l h
  dsimp only
  refine ⟨fun hk => ⟨fun hl hs => ?_, fun hl hs => ?_, exec_copyComplete_trap h hk⟩, fun hk hl hb => ⟨fun hm ha ho hmeet => ?_,
    fun hm ha hcap hmeet ho => ?_⟩, fun offs hoffs h1 h2 h3 => ladleWrite_ok hoffs h1 h2 h3, fun hk hv he hbusy hc => ?_,
    fun hk hheld ht hw hf hl => ?_, fun hk hg he hd hgood => ?_, fun hown => ?_⟩
  · rw [exec_copyComplete_loaded h hk hl, engineStore_ok hs]
  · rw [exec_copyComplete_loaded h hk hl, engineStore_fault hs]
  · exact exec_cmpctComplete_nonzero h hk hl hb hm ha ho hmeet
  · exact exec_cmpctComplete_parts h hk hl hb hm ha rfl hcap rfl hmeet ho
  · exact exec_publishFlip h hk hv he hbusy hc
  · exact exec_migrationSwitch h hk hheld ht hw hf hl
  · have hready : CollReady s k o group desc gb eb db s3 := ⟨h, hk, ⟨s1, s2, hg, he, hd⟩, hgood⟩
    exact ⟨hready.broken, fun hw news => hready.no_window hw, fun hw hup ha => hready.moves hw hup ha⟩
  · have hout : OwnOut s o (parseColl db) gb w own s2 := hown.imp_left fun hl => ⟨s1, hl⟩
    refine ⟨collMove_waits hout, fun hge hpeer hs => ?_⟩
    rw [collMove_eq hout]
    refine (if_neg ?_).trans (engineStore_ok hs _)
    rw [Bool.or_eq_true, decide_eq_true_eq, not_or]
    refine ⟨hge, ?_⟩
    rw [bne_iff_ne, ne_eq, not_not]
    exact hpeer

end Sys2Proof.Machine
end

section
/-!
PROOFS. Operations of the rule engine complete (R188, R189, R310, R318, R323 to R327), and the admission round begins (R367).
-/

namespace Sys2Proof.Machine

open Sys2Proof

variable {s s1 : State} {o : Op} {k : Nat} {p : PartId}

/-! ### SETTLE and SELECT -/

theorem ruleFailure_overflow {q : Rules} (h : q.overflow = true) : ruleFailure q = some (cRMN_CS_FULL, q) := by
  rw [ruleFailure, if_pos h]

theorem ruleFailure_none {q : Rules} (h : q.overflow = false) (ht : q.scoreTimeout = false) : ruleFailure q = none := by
  rw [ruleFailure, if_neg (by rw [h]; decide), if_neg (by rw [ht]; decide)]

theorem exec_settleComplete (h : s.Under k o) (hk : o.kind = .settle) (hs : settled s o.part = true)
    (hf : ruleFailure (s.rules o.part) = none) :
    exec (.settleComplete k) s = .next (finishOp (s.updRules o.part fun q => { q with
      rmcount := BitVec.ofNat 64 (eligible (s.rules o.part)).length }) o
      (BitVec.ofNat 64 (min (eligible (s.rules o.part)).length 0xFF))) := by
  change execSettleComplete k s = _
  rw [execSettleComplete, show findOp s k = some o from h]
  dsimp only
  rw [if_pos ⟨hk, hs⟩, hf]

theorem exec_settleComplete_fails {c : BitVec 8} {q : Rules} (h : s.Under k o) (hk : o.kind = .settle)
    (hs : settled s o.part = true) (hf : ruleFailure (s.rules o.part) = some (c, q)) :
    exec (.settleComplete k) s = .next (finishOp (s.updRules o.part fun _ => q) o (failWord c)) := by
  change execSettleComplete k s = _
  rw [execSettleComplete, show findOp s k = some o from h]
  dsimp only
  rw [if_pos ⟨hk, hs⟩, hf]

section Select
variable {buf limit : Word}

/-- The batch that a SELECT forms of a partition's instantiations (R326, R327). -/
def selectBatch (q : Rules) (limit : Word) : List Inst := takeBatch limit.toNat (sortBy sigmaBefore (eligible q)) [] []

/-- The rules once a batch is outstanding (R189). -/
def Rules.withBatch (b : List Inst) (q : Rules) : Rules :=
  { q with
    batch := some q.nextBatch, nextBatch := q.nextBatch + 1
    insts := q.insts.map fun i => if (b.map (·.create)).contains i.create then { i with batch := some q.nextBatch } else i }

theorem exec_selectBatch_empty (h : s.Under k o) (hk : o.kind = .select buf limit) (hb : (s.rules o.part).batch = none)
    (hs : settled s o.part = true) (hf : ruleFailure (s.rules o.part) = none) (he : selectBatch (s.rules o.part) limit = []) :
    exec (.selectBatch k) s = .next (finishOp s o 0) := by
  change execSelectBatch k s = _
  rw [execSelectBatch, show findOp s k = some o from h]
  dsimp only
  rw [hk]
  dsimp only
  rw [hb, if_neg (by decide), hs, if_neg (by decide), hf]
  exact if_pos (List.isEmpty_iff.mpr he)

theorem exec_selectBatch_records (h : s.Under k o) (hk : o.kind = .select buf limit) (hb : (s.rules o.part).batch = none)
    (hs : settled s o.part = true) (hf : ruleFailure (s.rules o.part) = none) {bs : List Byte}
    (hbs : bs = (selectBatch (s.rules o.part) limit).flatMap (instRecord · (s.rules o.part).nextBatch))
    (hne : selectBatch (s.rules o.part) limit ≠ [])
    (hst : storeBytes s (hubCtx o.part o.lvl) buf bs.length bs = .ok none s1) :
    exec (.selectBatch k) s = .next (finishOp (s1.updRules o.part (Rules.withBatch (selectBatch (s.rules o.part) limit))) o
      (BitVec.ofNat 64 (selectBatch (s.rules o.part) limit).length)) := by
  subst hbs
  unfold selectBatch at hst hne ⊢
  change execSelectBatch k s = _
  rw [execSelectBatch, show findOp s k = some o from h]
  dsimp only
  rw [hk]
  dsimp only
  rw [hb, if_neg (by decide), hs, if_neg (by decide), hf]
  dsimp only
  rw [if_neg (by rw [List.isEmpty_iff]; exact hne), hst]
  rfl

end Select

/-! ### Deltas and deliveries -/

theorem exec_deltaSettled {n : BitVec 16} {dl : Delta} (hf : (s.rules p).unsettled.find? (·.n = n) = some dl)
    (hd : deltaDone s p n = true) (hn : dl.neg = false) :
    exec (.deltaSettled p n) s = .next (s.updRules p fun q => { q with unsettled := q.unsettled.filter (·.n != n) }) := by
  change execDeltaSettled p n s = _
  rw [execDeltaSettled, hf]
  dsimp only
  rw [if_pos hd, if_neg (by rw [hn]; decide)]

section Delivery
variable {dv : Delivery}

/-- Does a TERM delivery have its turn: it is its node's earliest (R323)? -/
structure DeliveryDue (s : State) (p : PartId) (k : Nat) (dv : Delivery) : Prop where
  found : (s.rules p).deliveries.find? (·.id = k) = some dv
  first : ((s.rules p).deliveries.find? (·.node = dv.node)).map (·.id) = some k

/-- The state in which a delivery is applied: it waits no more. -/
def takeDelivery (s : State) (p : PartId) (k : Nat) : State :=
  s.updRules p fun q => { q with deliveries := q.deliveries.filter (·.id != k) }

/-- The timetags of a delivery. -/
def Delivery.tts (dv : Delivery) : List (BitVec 40) := (List.range 8).map fun i => (dv.lanes.getD i 0).extractLsb' 0 40

theorem DeliveryDue.removes (h : DeliveryDue s p k dv) (hneg : (dv.lanes.getD 7 0).getLsbD 63 = true) :
    exec (.csuDelivery p k) s = .next ((takeDelivery s p k).updRules p fun q =>
      { q with insts := q.insts.filter fun i => !(i.rule == dRule dv.desc && i.tts == dv.tts) }) := by
  change execCsuDelivery p k s = _
  rw [execCsuDelivery, h.found]
  dsimp only
  rw [h.first, if_neg (by rw [bne_self_eq_false]; decide), if_pos hneg]
  rfl

theorem DeliveryDue.overflows (h : DeliveryDue s p k dv) (hpos : (dv.lanes.getD 7 0).getLsbD 63 = false)
    (hroom : csuRoom (takeDelivery s p k) p = false) :
    exec (.csuDelivery p k) s = .next ((takeDelivery s p k).updRules p fun q => { q with overflow := true }) := by
  change execCsuDelivery p k s = _
  rw [execCsuDelivery, h.found]
  dsimp only
  rw [h.first, if_neg (by rw [bne_self_eq_false]; decide), if_neg (by rw [hpos]; decide)]
  exact if_neg (fun ht => Bool.false_ne_true (hroom.symm.trans ht))

theorem DeliveryDue.makes (h : DeliveryDue s p k dv) (hpos : (dv.lanes.getD 7 0).getLsbD 63 = false)
    (hroom : csuRoom (takeDelivery s p k) p = true) (hsal : (dv.desc.headD 0).getLsbD 39 = false) :
    exec (.csuDelivery p k) s = .next ((takeDelivery s p k).updRules p fun q => { q with
      creation := q.creation + 1
      insts := q.insts ++ [⟨q.creation, dRule dv.desc, dv.tts, (dv.desc.headD 0).extractLsb' 16 16, dv.stamp, dv.desc, none⟩] }) := by
  change execCsuDelivery p k s = _
  rw [execCsuDelivery, h.found]
  dsimp only
  rw [h.first, if_neg (by rw [bne_self_eq_false]; decide), if_neg (by rw [hpos]; decide)]
  refine (if_pos hroom).trans ?_
  rw [if_neg (by rw [hsal]; decide)]
  rfl

end Delivery

/-! ### The admission round -/

/-- The bids of a round are those of the queues and the hold of the die. -/
theorem roundBids_updDie (s : State) (d : DieId) {f : Die → Die} (hq : (f (s.die d)).queues = (s.die d).queues)
    (hh : (f (s.die d)).held = (s.die d).held) : roundBids (s.updDie d f) d = roundBids s d := by
  have hfind : findOp (s.updDie d f) = findOp s := rfl
  have hheads : headsInOrder (s.updDie d f) d = headsInOrder s d := by
    rw [headsInOrder, headsInOrder, queueHeads, queueHeads, State.die_updDie_self, hq, hfind]
  rw [roundBids, roundBids, State.die_updDie_self, hh, hheads]

theorem exec_tundishAdmissionRound {d : DieId} (h : (s.die d).round = true) :
    exec (.tundishAdmissionRound d) s = .next (roundGo d (s.updDie d fun x => { x with round := false }) [] (roundBids s d)) := by
  change execTundishAdmissionRound d s = _
  rw [execTundishAdmissionRound, if_pos h]
  dsimp only
  rw [roundBids_updDie s d rfl rfl]

theorem exec_tundishAdmissionRound_idle {d : DieId} (h : (s.die d).round = false) :
    exec (.tundishAdmissionRound d) s = .next s := by
  change execTundishAdmissionRound d s = _
  rw [execTundishAdmissionRound, if_neg (by rw [h]; decide)]

/-- Settles O36, operation by operation. -/
theorem ruleOperationsComplete : Obligations.RuleOperationsComplete := by
  unfold Obligations.RuleOperationsComplete
  intro s s1 k o buf limit p n dl dv d
  dsimp only
  refine ⟨fun h hk hs hov hto => exec_settleComplete h hk hs (ruleFailure_none hov hto),
    fun h hk hs hov => exec_settleComplete_fails h hk hs (ruleFailure_overflow hov),
    fun h hk hb hs hov hto => ⟨exec_selectBatch_empty h hk hb hs (ruleFailure_none hov hto),
      exec_selectBatch_records h hk hb hs (ruleFailure_none hov hto) rfl⟩,
    exec_deltaSettled, fun hf hfirst => ?_, exec_tundishAdmissionRound_idle, exec_tundishAdmissionRound⟩
  have hdue : DeliveryDue s p k dv := ⟨hf, hfirst⟩
  exact ⟨hdue.removes, hdue.overflows, hdue.makes⟩

end Sys2Proof.Machine
end

section
/-!
PROOFS. What a firing does: the rule of a node that can start, the procedure of R203 for plain operands and for the special kinds;
the floating-point vector nodes (R203 to R207, R242, R243).
-/

namespace Sys2Proof.Machine

open Sys2Proof

variable {s s1 : State} {opc : BitVec 8} {nf : NodeFields}

/-! ### A node that can start a firing -/

/-- No token at a site that can start has flipped bits, so none that a firing takes has. -/
theorem State.CanStart.not_flipped (h : s.CanStart) (ports : List (BitVec 2)) : flipped s s.site ports = false := by
  have hall : ∀ i : BitVec 2, i ∈ ([0, 1, 2, 3] : List (BitVec 2)) := by decide
  have hf := h.2.2
  rw [flipped, List.any_eq_false] at hf ⊢
  exact fun i _ => hf i (hall i)

theorem fireNode_eq (h : s.CanStart) (k : State → Firing → NodeRes) :
    fireNode s opc nf k = .next ((k s (firingAt s opc nf)).finish s (firingAt s opc nf)) := by
  rw [fireNode, if_neg (by rw [h.1]; decide), h.2.1]
  dsimp only
  rw [fireFresh, if_neg (by rw [h.not_flipped]; decide)]

theorem fireNode_out {k : State → Firing → NodeRes} {eat : List (BitVec 2)} {rs : List Pair} (h : s.CanStart)
    (hk : k s (firingAt s opc nf) = .out s1 eat rs 0) : fireNode s opc nf k = .next (s.fired s1 opc nf eat rs) := by
  rw [fireNode_eq h, hk]
  rfl

theorem fireNode_sent {k : State → Firing → NodeRes} {eat : List (BitVec 2)} {dss : List (List Dep)} {t : Option Token}
    (h : s.CanStart) (hk : k s (firingAt s opc nf) = .sent s1 eat dss t) :
    fireNode s opc nf k = .next (finishFire s1 (firingAt s opc nf) eat dss t 0) := by
  rw [fireNode_eq h, hk]
  rfl

theorem fireNode_idle {k : State → Firing → NodeRes} (h : s.CanStart) (hk : k s (firingAt s opc nf) = .idle s1) :
    fireNode s opc nf k = .next s1 := by
  rw [fireNode_eq h, hk]
  rfl

theorem fireNode_wait {k : State → Firing → NodeRes} (h : s.CanStart) (hk : k s (firingAt s opc nf) = .wait) :
    fireNode s opc nf k = .next s := by
  rw [fireNode_eq h, hk]
  rfl

theorem fireNode_park {k : State → Firing → NodeRes} {c : BitVec 8} {i : FaultInfo} {t : Option Token} (h : s.CanStart)
    (hk : k s (firingAt s opc nf) = .park c i t) :
    fireNode s opc nf k = .next (parkFiring s (firingAt s opc nf) c i t) := by
  rw [fireNode_eq h, hk]
  rfl

/-! ### The procedure of R203 -/

section DataNode
variable {x : Firing} {rf : BitVec 5} {ok : BitVec 2 → Token → Bool} {k : State → Firing → NodeRes}

/-- The tokens on a firing's token ports a, b and c. -/
def Firing.abc (x : Firing) : List Token := ((tokPorts x.nf).filter (· != 3)).filterMap x.port

/-- Does a firing's predicate port suppress it (R203)? -/
def Firing.Suppressed (x : Firing) : Prop := x.nf.flags.getLsbD 1 = true ∧ ∃ t, x.p = some t ∧ (t.kind = kBUBBLE ∨ t.pred = false)

theorem Firing.mem_toks_of_mem_abc {t : Token} (h : t ∈ x.abc) : t ∈ x.toks := by
  obtain ⟨i, hi, ht⟩ := List.mem_filterMap.mp h
  exact List.mem_filterMap.mpr ⟨i, List.mem_of_mem_filter hi, ht⟩

theorem Firing.find_error_eq_none (h : ∀ t ∈ x.toks, t.kind ≠ kERROR) : x.toks.find? (·.kind == kERROR) = none := by
  rw [List.find?_eq_none]
  exact fun t ht he => h t ht (beq_iff_eq.mp he)

/-- The tests of R203 in order, once no operand is an ERROR. -/
theorem dataNode_of_no_error (hr : x.ready = true) (he : ∀ t ∈ x.toks, t.kind ≠ kERROR) :
    dataNode s x rf ok k =
      if x.abc.any (·.kind == kBUBBLE) || (fPRD x.nf && (x.p.any fun t => t.kind == kBUBBLE || !t.pred)) then
        oneOut s x (x.bubble rf)
      else if !x.abc.isEmpty && decide ((x.abc.filter (·.kind == kSTOP)).length = x.abc.length) then
        oneOut s x (x.stop rf (BitVec.ofNat 2 (((x.abc.filter (·.kind == kSTOP)).map fun t => (stopLevel t).toNat).foldl max 0)))
      else if !(x.abc.filter (·.kind == kSTOP)).isEmpty || (x.p.any fun t => !(t.kind == kDATA || t.kind == kBUBBLE)) ||
          !([0, 1, 2].all fun i => (x.port i).all fun t => portKind x.nf i == 1 || ok i t) then errOut s x cFMT_BAD
      else k s x := by
  rw [dataNode, if_neg (by rw [hr]; decide)]
  dsimp only
  rw [Firing.find_error_eq_none he]
  rfl

theorem dataNode_error {e : Token} (hr : x.ready = true) (he : x.toks.find? (·.kind == kERROR) = some e) :
    dataNode s x rf ok k = oneOut s x (x.retag e) := by
  rw [dataNode, if_neg (by rw [hr]; decide)]
  dsimp only
  rw [he]

theorem Firing.suppressed_iff :
    (fPRD x.nf && (x.p.any fun t => t.kind == kBUBBLE || !t.pred)) = true ↔ x.Suppressed := by
  simp [Firing.Suppressed, fPRD, Option.any_eq_true]

theorem dataNode_bubble (hr : x.ready = true) (he : ∀ t ∈ x.toks, t.kind ≠ kERROR)
    (hb : (∃ t ∈ x.abc, t.kind = kBUBBLE) ∨ x.Suppressed) : dataNode s x rf ok k = oneOut s x (x.bubble rf) := by
  rw [dataNode_of_no_error hr he, if_pos]
  rw [Bool.or_eq_true, Firing.suppressed_iff, List.any_eq_true]
  exact hb.imp_left fun ⟨t, ht, hk⟩ => ⟨t, ht, beq_iff_eq.mpr hk⟩

/-- A firing that neither a BUBBLE nor its predicate ends goes on to the later tests. -/
theorem Firing.not_bubble (hb : ∀ t ∈ x.abc, t.kind ≠ kBUBBLE) (hs : ¬x.Suppressed) :
    ¬(x.abc.any (·.kind == kBUBBLE) || (fPRD x.nf && (x.p.any fun t => t.kind == kBUBBLE || !t.pred))) = true := by
  rw [Bool.or_eq_true, Firing.suppressed_iff, List.any_eq_true, not_or]
  exact ⟨fun ⟨t, ht, hk⟩ => hb t ht (beq_iff_eq.mp hk), hs⟩

theorem dataNode_stop (hr : x.ready = true) (he : ∀ t ∈ x.toks, t.kind ≠ kERROR) (hs : ¬x.Suppressed) (hne : x.abc ≠ [])
    (hst : ∀ t ∈ x.abc, t.kind = kSTOP) :
    dataNode s x rf ok k = oneOut s x (x.stop rf (BitVec.ofNat 2 ((x.abc.map fun t => (stopLevel t).toNat).foldl max 0))) := by
  have hfil : x.abc.filter (·.kind == kSTOP) = x.abc := List.filter_eq_self.mpr fun t ht => beq_iff_eq.mpr (hst t ht)
  have hb : ∀ t ∈ x.abc, t.kind ≠ kBUBBLE := fun t ht => by rw [hst t ht]; decide
  rw [dataNode_of_no_error hr he, if_neg (Firing.not_bubble hb hs), hfil, if_pos]
  simp [hne]

theorem dataNode_mixture (hr : x.ready = true) (he : ∀ t ∈ x.toks, t.kind ≠ kERROR) (hs : ¬x.Suppressed)
    (hb : ∀ t ∈ x.abc, t.kind ≠ kBUBBLE) (hst : ∃ t ∈ x.abc, t.kind = kSTOP) (hns : ∃ t ∈ x.abc, t.kind ≠ kSTOP) :
    dataNode s x rf ok k = errOut s x cFMT_BAD := by
  obtain ⟨t, ht, hk⟩ := hst
  obtain ⟨u, hu, hnk⟩ := hns
  have hsome : (x.abc.filter (·.kind == kSTOP)).isEmpty = false := by
    rw [List.isEmpty_eq_false_iff]
    exact List.ne_nil_of_mem (List.mem_filter.mpr ⟨ht, beq_iff_eq.mpr hk⟩)
  have hlt : (x.abc.filter (·.kind == kSTOP)).length ≠ x.abc.length := fun hl =>
    hnk (beq_iff_eq.mp (List.length_filter_eq_length_iff.mp hl u hu))
  rw [dataNode_of_no_error hr he, if_neg (Firing.not_bubble hb hs), if_neg (by simp [hlt]), if_pos (by rw [hsome]; rfl)]

theorem dataNode_plain (h : x.Plain ok) : dataNode s x rf ok k = k s x := by
  obtain ⟨hr, hkinds, hp, hok⟩ := h
  have hnb : ∀ t ∈ x.abc, t.kind ≠ kBUBBLE := fun t ht => (hkinds t (Firing.mem_toks_of_mem_abc ht)).2.1
  have hns : ¬x.Suppressed := by
    rintro ⟨_, t, ht, hk⟩
    obtain ⟨hd, hpred⟩ := hp t ht
    rcases hk with hk | hk
    · rw [hd] at hk; exact absurd hk (by decide)
    · rw [hpred] at hk; exact absurd hk (by decide)
  have hstops : x.abc.filter (·.kind == kSTOP) = [] := List.filter_eq_nil_iff.mpr fun t ht hk =>
    (hkinds t (Firing.mem_toks_of_mem_abc ht)).2.2 (beq_iff_eq.mp hk)
  have hall : (!x.abc.isEmpty && decide ((x.abc.filter (·.kind == kSTOP)).length = x.abc.length)) = false := by
    rw [hstops]
    cases x.abc <;> rfl
  have hpok : (x.p.any fun t => !(t.kind == kDATA || t.kind == kBUBBLE)) = false := by
    cases hx : x.p with
    | none => rfl
    | some t => rw [Option.any_some, (hp t hx).1]; rfl
  rw [dataNode_of_no_error hr (fun t ht => (hkinds t ht).1), if_neg (Firing.not_bubble hnb hns),
    if_neg (by rw [hall]; decide), if_neg]
  rw [hstops, hpok, Bool.or_eq_true, not_or]
  refine ⟨by decide, ?_⟩
  rw [Bool.not_eq_true', Bool.not_eq_false]
  exact hok

theorem sigOut_eq {t : Token} (h : s.NoSigLowNode x t) : sigOut s x t = oneOut s x t := by
  rw [sigOut, if_neg (by rw [show sigLowNode s x t = false from h]; decide)]

end DataNode

/-! ### Nodes of one result -/

/-- A data node whose plain operands give one result sends it on its routes. -/
theorem fireNode_dataNode_one {rf : BitVec 5} {ok : BitVec 2 → Token → Bool} {k : State → Firing → NodeRes} {t : Token}
    (h : s.CanStart) (hp : (firingAt s opc nf).Plain ok) (hk : k s (firingAt s opc nf) = oneOut s (firingAt s opc nf) t) :
    fireNode s opc nf (fun s x => dataNode s x rf ok k) = .next (s.fired s opc nf (tokPorts nf) [both t]) :=
  fireNode_out h ((dataNode_plain hp).trans hk)

/-- A data node of plain operands whose result passes the SIGLOW test. -/
theorem fireNode_dataNode_sig {rf : BitVec 5} {ok : BitVec 2 → Token → Bool} {k : State → Firing → NodeRes} {t : Token}
    (h : s.CanStart) (hp : (firingAt s opc nf).Plain ok) (hk : k s (firingAt s opc nf) = sigOut s (firingAt s opc nf) t)
    (hs : s.NoSigLowNode (firingAt s opc nf) t) :
    fireNode s opc nf (fun s x => dataNode s x rf ok k) = .next (s.fired s opc nf (tokPorts nf) [both t]) :=
  fireNode_dataNode_one h hp (hk.trans (sigOut_eq hs))

/-! ### Floating-point vector nodes -/

/-- A floating-point node of plain operands `ts` computes each lane by its rule. -/
theorem fpNode_eq {lane : FloatFmt → List (FVal × Nat) → Nat × Nat} {ls : Nat → Nat × Nat} (h : s.CanStart)
    (hp : (firingAt s opc nf).Plain (fun _ t => isData t nf.fmt))
    (hl : ∀ i, lane ((fmtFloat nf.fmt).getD fp32) (([(firingAt s opc nf).a, (firingAt s opc nf).b, (firingAt s opc nf).c].filterMap
      id).map (fpLane ((fmtFloat nf.fmt).getD fp32) · i)) = ls i)
    (hs : s.NoSigLowNode (firingAt s opc nf) ((firingAt s opc nf).fpResult nf.fmt ((List.range (laneCount nf.fmt)).map ls))) :
    fpNode s opc nf lane = .next (s.fired s opc nf (tokPorts nf)
      [both ((firingAt s opc nf).fpResult nf.fmt ((List.range (laneCount nf.fmt)).map ls))]) := by
  refine fireNode_dataNode_sig h hp ?_ hs
  obtain rfl : (fun i => lane ((fmtFloat nf.fmt).getD fp32) (([(firingAt s opc nf).a, (firingAt s opc nf).b,
    (firingAt s opc nf).c].filterMap id).map (fpLane ((fmtFloat nf.fmt).getD fp32) · i))) = ls := funext hl
  rfl

/-- The exact value of a number of either sign is the operand's own magnitude with the sign that VABS gives. -/
theorem laneSign_abs (f : FloatFmt) (v : FVal) (t : Nat) :
    laneSign (fun _ => false) f [(v, t)] =
      (encV f (if v.neg then v.negate else v), finalTag f (if v.neg then v.negate else v) true t) := by
  match v with
  | .nan _ => rfl
  | .inf true | .inf false => rfl
  | .num true _ _ | .num false _ _ => rfl

theorem laneSign_neg (f : FloatFmt) (v : FVal) (t : Nat) :
    laneSign (fun b => !b) f [(v, t)] = (encV f v.negate, finalTag f v.negate true t) := by
  cases v <;> rfl

/-- What a floating-point node of operands `ops` sends, when its lanes are `ls` and the result passes the SIGLOW test. -/
def FpSends (s : State) (i : Instr) (opc : BitVec 8) (nf : NodeFields) (ls : Nat → Nat × Nat) : Prop :=
  s.NoSigLowNode (firingAt s opc nf) ((firingAt s opc nf).fpResult nf.fmt ((List.range (laneCount nf.fmt)).map ls)) →
    exec i s = .next (s.fired s opc nf (tokPorts nf)
      [both ((firingAt s opc nf).fpResult nf.fmt ((List.range (laneCount nf.fmt)).map ls))])

section Shapes
variable {i : Instr} {lane : FloatFmt → List (FVal × Nat) → Nat × Nat} {ls : Nat → Nat × Nat} {a b c : Token}

theorem fpSends_one (h : s.CanStart) (hi : exec i s = fpNode s opc nf lane)
    (hl : ∀ k, lane ((fmtFloat nf.fmt).getD fp32) [fpLane ((fmtFloat nf.fmt).getD fp32) a k] = ls k)
    (hp : (firingAt s opc nf).Plain (fun _ t => isData t nf.fmt) ∧ (firingAt s opc nf).a = some a ∧
      (firingAt s opc nf).b = none ∧ (firingAt s opc nf).c = none) : FpSends s i opc nf ls := by
  obtain ⟨hp, ha, hb, hc⟩ := hp
  exact fun hs => hi.trans (fpNode_eq h hp (fun k => by rw [ha, hb, hc]; exact hl k) hs)

theorem fpSends_two (h : s.CanStart) (hi : exec i s = fpNode s opc nf lane)
    (hl : ∀ k, lane ((fmtFloat nf.fmt).getD fp32) [fpLane ((fmtFloat nf.fmt).getD fp32) a k,
      fpLane ((fmtFloat nf.fmt).getD fp32) b k] = ls k)
    (hp : (firingAt s opc nf).Plain (fun _ t => isData t nf.fmt) ∧ (firingAt s opc nf).a = some a ∧
      (firingAt s opc nf).b = some b ∧ (firingAt s opc nf).c = none) : FpSends s i opc nf ls := by
  obtain ⟨hp, ha, hb, hc⟩ := hp
  exact fun hs => hi.trans (fpNode_eq h hp (fun k => by rw [ha, hb, hc]; exact hl k) hs)

theorem fpSends_three (h : s.CanStart) (hi : exec i s = fpNode s opc nf lane)
    (hl : ∀ k, lane ((fmtFloat nf.fmt).getD fp32) [fpLane ((fmtFloat nf.fmt).getD fp32) a k,
      fpLane ((fmtFloat nf.fmt).getD fp32) b k, fpLane ((fmtFloat nf.fmt).getD fp32) c k] = ls k)
    (hp : (firingAt s opc nf).Plain (fun _ t => isData t nf.fmt) ∧ (firingAt s opc nf).a = some a ∧
      (firingAt s opc nf).b = some b ∧ (firingAt s opc nf).c = some c) : FpSends s i opc nf ls := by
  obtain ⟨hp, ha, hb, hc⟩ := hp
  exact fun hs => hi.trans (fpNode_eq h hp (fun k => by rw [ha, hb, hc]; exact hl k) hs)

end Shapes

/-- The lane rule of VFMA. -/
def laneFma (f : FloatFmt) : List (FVal × Nat) → Nat × Nat
  | [a, b, c] => ((rneF f (fmaF .rne a.1 b.1 c.1)).1,
      fmaTag f a.1 b.1 c.1 a.2 b.2 c.2 (fmaF .rne a.1 b.1 c.1) (rneF f (fmaF .rne a.1 b.1 c.1)).2)
  | _ => (0, 0)

theorem exec_vfma (nf : NodeFields) (s : State) : exec (.vfma nf) s = fpNode s 0x03 nf laneFma := by
  change execVfma nf s = _
  rw [execVfma]
  refine congrArg (fpNode s 0x03 nf) (funext fun f => funext fun ops => ?_)
  rcases ops with _ | ⟨_, _ | ⟨_, _ | ⟨_, _ | _⟩⟩⟩ <;> rfl

/-- The lane rule of VSQRT. -/
def laneSqrt (f : FloatFmt) : List (FVal × Nat) → Nat × Nat
  | [a] => ((rneF f (sqrtF (f.p + 3) a.1)).1, sqrtTag f a.1 a.2 (rneF f (sqrtF (f.p + 3) a.1)).2)
  | _ => (0, 0)

theorem exec_vsqrt (nf : NodeFields) (s : State) : exec (.vsqrt nf) s = fpNode s 0x09 nf laneSqrt := by
  change execVsqrt nf s = _
  rw [execVsqrt]
  refine congrArg (fpNode s 0x09 nf) (funext fun f => funext fun ops => ?_)
  rcases ops with _ | ⟨_, _ | _⟩ <;> rfl

/-- A minimum or maximum lane by its three answers. -/
theorem laneMinMax_eq (mx : Bool) (f : FloatFmt) (a b : FVal × Nat) {l : Nat × Nat}
    (hn : minMax mx a.1 b.1 = none → l = (canonNaN f, 0))
    (ha : minMax mx a.1 b.1 = some true → l = (encV f a.1, finalTag f a.1 true a.2))
    (hb : minMax mx a.1 b.1 = some false → l = (encV f b.1, finalTag f b.1 true b.2)) : laneMinMax mx f [a, b] = l := by
  rw [laneMinMax]
  cases hm : minMax mx a.1 b.1 with
  | none => exact (hn hm).symm
  | some fromA =>
    cases fromA
    · exact (hb hm).symm
    · exact (ha hm).symm

/-- Settles O37: each node is the lane rule of its row. -/
theorem floatVectorNodesComputeLaneByLane : Obligations.FloatVectorNodesComputeLaneByLane := by
  unfold Obligations.FloatVectorNodesComputeLaneByLane
  intro s nf a b c h
  refine ⟨?_, ?_, ?_, ?_, ?_, ?_, ?_, ?_, ?_, ?_, ?_, ?_, ?_, ?_, ?_⟩
  · exact fpSends_two h (lane := lane2 (addF .rne) sumTag) rfl fun _ => rfl
  · exact fpSends_two h (lane := lane2 (fun a b => addF .rne a b.negate) sumTag) rfl fun _ => rfl
  · exact fpSends_two h (lane := lane2 mulF fun f a b sa sb => prodTag f a b sa sb false) rfl fun _ => rfl
  · exact fpSends_three h (exec_vfma nf s) fun _ => rfl
  · refine fpSends_two h (lane := laneMinMax false) rfl fun _ => ?_
    refine laneMinMax_eq _ _ _ _ ?_ ?_ ?_ <;> intro hm <;> dsimp only [fpLane] at hm <;> rw [hm] <;> rfl
  · refine fpSends_two h (lane := laneMinMax true) rfl fun _ => ?_
    refine laneMinMax_eq _ _ _ _ ?_ ?_ ?_ <;> intro hm <;> dsimp only [fpLane] at hm <;> rw [hm] <;> rfl
  · exact fpSends_one h (lane := laneSign fun _ => false) rfl fun _ => laneSign_abs _ _ _
  · exact fpSends_one h (lane := laneSign fun b => !b) rfl fun _ => laneSign_neg _ _ _
  · exact fpSends_two h (lane := fun f => lane2 (divF (f.p + 3)) (fun f a b sa sb => prodTag f a b sa sb true) f) rfl fun _ => rfl
  · exact fpSends_one h (exec_vsqrt nf s) fun _ => rfl
  · exact fpSends_one h (lane := laneUnary fun f => rsqrtF (f.p + 3)) rfl fun _ => rfl
  · exact fpSends_one h (lane := laneUnary rcpF) rfl fun _ => rfl
  · exact fpSends_one h (lane := laneUnary fun _ => exp2F) rfl fun _ => rfl
  · exact fpSends_one h (lane := laneUnary fun _ => log2F) rfl fun _ => rfl
  · exact fpSends_one h (lane := laneUnary fun _ => tanhF) rfl fun _ => rfl

/-! ### The special kinds -/

/-- A node that follows R203 for every operand, with its own format as that of the result. -/
def FollowsR203 (s : State) (nf : NodeFields) (p : Instr × BitVec 8) : Prop :=
  ∃ ok k, exec p.1 s = fireNode s p.2 nf fun s x => dataNode s x nf.fmt ok k

theorem FollowsR203.one {p : Instr × BitVec 8} {t : Token} (hp : FollowsR203 s nf p) (h : s.CanStart)
    (hk : ∀ ok k, dataNode s (firingAt s p.2 nf) nf.fmt ok k = oneOut s (firingAt s p.2 nf) t) :
    exec p.1 s = .next (s.fired s p.2 nf (tokPorts nf) [both t]) := by
  obtain ⟨ok, k, he⟩ := hp
  exact he.trans (fireNode_out h (hk ok k))

theorem FollowsR203.errs {p : Instr × BitVec 8} {c : BitVec 8} (hp : FollowsR203 s nf p) (h : s.CanStart)
    (hk : ∀ ok k, dataNode s (firingAt s p.2 nf) nf.fmt ok k = errOut s (firingAt s p.2 nf) c) :
    exec p.1 s = .next (s.fired (noteFault s s.site c (firingAt s p.2 nf).info) p.2 nf (tokPorts nf)
      [both ((firingAt s p.2 nf).error c)]) := by
  obtain ⟨ok, k, he⟩ := hp
  exact he.trans (fireNode_out h (hk ok k))

/-- Settles O41: every node of the list follows R203. -/
theorem specialKindsPassThroughNodes : Obligations.SpecialKindsPassThroughNodes := by
  unfold Obligations.SpecialKindsPassThroughNodes
  intro s nf h p hp
  have hf : FollowsR203 s nf p := by
    simp only [List.mem_cons, List.not_mem_nil, or_false] at hp
    obtain rfl | rfl | rfl | rfl | rfl | rfl | rfl | rfl | rfl | rfl | rfl | rfl | rfl | rfl | rfl | rfl | rfl | rfl | rfl | rfl |
      rfl | rfl | rfl := hp <;> exact ⟨_, _, rfl⟩
  dsimp only
  intro hr
  exact ⟨fun e he => hf.one h fun _ _ => dataNode_error hr he,
    fun hfree hb => hf.one h fun _ _ => dataNode_bubble hr hfree hb,
    fun hfree hns hne hst => hf.one h fun _ _ => dataNode_stop hr hfree hns hne hst,
    fun hfree hns hnb hst hmix => hf.errs h fun _ _ => dataNode_mixture hr hfree hns hnb hst hmix⟩

end Sys2Proof.Machine
end

section
/-!
PROOFS. Integer and bitwise vector nodes, compare and select (R208 to R210).
-/

namespace Sys2Proof.Machine

open Sys2Proof

variable {s : State} {opc : BitVec 8} {nf : NodeFields} {a b c : Token}

theorem Firing.get_zero {x : Firing} (h : x.a = some a) : x.get 0 = a := by
  rw [Firing.get, show x.port 0 = some a from h, Option.getD_some]

theorem Firing.get_one {x : Firing} (h : x.b = some b) : x.get 1 = b := by
  rw [Firing.get, show x.port 1 = some b from h, Option.getD_some]

theorem Firing.get_two {x : Firing} (h : x.c = some c) : x.get 2 = c := by
  rw [Firing.get, show x.port 2 = some c from h, Option.getD_some]

/-- The variants 0 and 1 of a node, and the others. -/
theorem var_cases (v : BitVec 3) : v = 0 ∨ v = 1 ∨ ∃ n, v.toNat = n + 2 ∧ v ≠ 0 ∧ v ≠ 1 := by
  by_cases h0 : v = 0
  · exact .inl h0
  by_cases h1 : v = 1
  · exact .inr (.inl h1)
  refine .inr (.inr ⟨v.toNat - 2, ?_, h0, h1⟩)
  have h0' : v.toNat ≠ 0 := fun h => h0 (BitVec.eq_of_toNat_eq h)
  have h1' : v.toNat ≠ 1 := fun h => h1 (BitVec.eq_of_toNat_eq h)
  omega

/-! ### Lanes -/

/-- Saturation limits a lane's exact result to the range of its format (R208). -/
theorem satLane_eq (sg : Bool) (w : Nat) (z : Int) :
    satLane sg w z =
      wrapLane w (if sg then max (-(2 ^ (w - 1))) (min (2 ^ (w - 1) - 1) z) else max 0 (min (2 ^ w - 1) z)) := by
  cases sg <;> rfl

theorem laneInt_true (w x : Nat) : laneInt true w x = if 2 ^ (w - 1) ≤ x then (x : Int) - 2 ^ w else x := by
  simp [laneInt]

/-- The lane of VIMUL by its variant. -/
def vimulLane (nf : NodeFields) (w : Nat) (sg : Bool) (x y : Nat) : Nat :=
  let z := laneInt sg w x * laneInt sg w y
  if nf.var = 0 then wrapLane w z else if nf.var = 1 then wrapLane w (z / 2 ^ w) else satLane sg w z

theorem exec_vimul (nf : NodeFields) (s : State) : exec (.vimul nf) s = intNode s 0x12 nf (vimulLane nf) := by
  change execVimul nf s = _
  rw [execVimul]
  refine congrArg (intNode s 0x12 nf) (funext fun w => funext fun sg => funext fun x => funext fun y => ?_)
  rw [vimulLane]
  obtain hv | hv | ⟨n, hn, h0, h1⟩ := var_cases nf.var
  · rw [hv]; rfl
  · rw [hv]; rfl
  · rw [hn, if_neg h0, if_neg h1]
    rfl

theorem exec_vshr (nf : NodeFields) (s : State) : exec (.vshr nf) s = intNode s 0x17 nf fun w _ x y =>
    if nf.var = 1 then wrapLane w (laneInt true w x / 2 ^ (y % w)) else x / 2 ^ (y % w) := rfl

/-! ### Integer nodes -/

/-- The operands of an integer node of two operands. -/
def IntOps (s : State) (opc : BitVec 8) (nf : NodeFields) (a b : Token) : Prop :=
  (firingAt s opc nf).Plain (fun _ t => isDataIdx t nf.fmt) ∧ (firingAt s opc nf).a = some a ∧ (firingAt s opc nf).b = some b

/-- An integer node computes each lane from those of its operands. -/
theorem intNode_eq {i : Instr} {lane : Nat → Bool → Nat → Nat → Nat} {ls : Nat → Nat} (h : s.CanStart)
    (hi : exec i s = intNode s opc nf lane)
    (hl : ∀ k, lane (laneBits nf.fmt) (isSigned nf.fmt) (a.lane (laneBits nf.fmt) k) (b.lane (laneBits nf.fmt) k) = ls k)
    (hp : IntOps s opc nf a b) :
    exec i s = .next (s.fired s opc nf (tokPorts nf) [both ((firingAt s opc nf).keepIndex ((firingAt s opc nf).intResult nf.fmt
      ((List.range (laneCount nf.fmt)).map ls)))]) := by
  obtain ⟨hp, ha, hb⟩ := hp
  obtain rfl : (fun k => lane (laneBits nf.fmt) (isSigned nf.fmt) (a.lane (laneBits nf.fmt) k) (b.lane (laneBits nf.fmt) k)) = ls :=
    funext hl
  refine hi.trans (fireNode_dataNode_one h hp ?_)
  dsimp only
  rw [Firing.get_zero ha, Firing.get_one hb]

/-- A bitwise node acts on its operands' payloads and, of block formats, scale lanes. -/
theorem bitNode_eq {i : Instr} {op : BitVec 512 → BitVec 512 → BitVec 512} {ops : BitVec 64 → BitVec 64 → BitVec 64}
    (h : s.CanStart) (hi : exec i s = bitNode s opc nf op ops) (hp : IntOps s opc nf a b) :
    exec i s = .next (s.fired s opc nf (tokPorts nf) [both ((firingAt s opc nf).keepIndex
      { (firingAt s opc nf).result kDATA nf.fmt (min (tokSig a) (tokSig b)) (op a.payload b.payload) with
        scale := if nf.fmt == 0xF || nf.fmt == 0x10 then ops a.scale b.scale else 0 })]) := by
  obtain ⟨hp, ha, hb⟩ := hp
  refine hi.trans (fireNode_dataNode_one h hp ?_)
  dsimp only
  rw [Firing.get_zero ha, Firing.get_one hb]

/-- The lane of an addition or subtraction, wrapped or saturated by its variant. -/
theorem addLane_eq (nf : NodeFields) (op : Int → Int → Int) (w : Nat) (sg : Bool) (x y : Nat) :
    addLane nf op w sg x y =
      if nf.var = 1 then wrapLane w (if sg then max (-(2 ^ (w - 1))) (min (2 ^ (w - 1) - 1) (op (laneInt sg w x) (laneInt sg w y)))
        else max 0 (min (2 ^ w - 1) (op (laneInt sg w x) (laneInt sg w y))))
      else wrapLane w (op (laneInt sg w x) (laneInt sg w y)) := by
  rw [addLane, satLane_eq]

theorem vimulLane_eq (nf : NodeFields) (w : Nat) (sg : Bool) (x y : Nat) :
    vimulLane nf w sg x y =
      if nf.var = 0 then wrapLane w (laneInt sg w x * laneInt sg w y)
      else if nf.var = 1 then wrapLane w (laneInt sg w x * laneInt sg w y / 2 ^ w)
      else wrapLane w (if sg then max (-(2 ^ (w - 1))) (min (2 ^ (w - 1) - 1) (laneInt sg w x * laneInt sg w y))
        else max 0 (min (2 ^ w - 1) (laneInt sg w x * laneInt sg w y))) := by
  rw [vimulLane, satLane_eq]

/-! ### VCMP and VSEL -/

/-- Does the relation of a VCMP hold of two lanes? -/
def vcmpHolds (nf : NodeFields) (x y : Nat) : Bool :=
  match fmtFloat nf.fmt with
  | some f => cmpF nf.var (decodeF f x) (decodeF f y)
  | none => cmpI nf.var (laneInt (isSigned nf.fmt) (laneBits nf.fmt) x) (laneInt (isSigned nf.fmt) (laneBits nf.fmt) y)

theorem exec_vcmp {rel : Nat → Bool} (h : s.CanStart) (hp : IntOps s 0x18 nf a b)
    (hr : ∀ k, vcmpHolds nf (a.lane (laneBits nf.fmt) k) (b.lane (laneBits nf.fmt) k) = rel k) :
    let hs := (List.range (laneCount nf.fmt)).map rel
    exec (.vcmp nf) s = .next (s.fired s 0x18 nf (tokPorts nf) [both
      { (firingAt s 0x18 nf).intResult (uFmt nf.fmt) (hs.map fun h => if h then 2 ^ laneBits nf.fmt - 1 else 0) with
        pred := hs.any id }]) := by
  obtain ⟨hp, ha, hb⟩ := hp
  obtain rfl : (fun k => vcmpHolds nf (a.lane (laneBits nf.fmt) k) (b.lane (laneBits nf.fmt) k)) = rel := funext hr
  change execVcmp nf s = _
  rw [execVcmp]
  refine fireNode_dataNode_one h hp ?_
  dsimp only
  rw [Firing.get_zero ha, Firing.get_one hb]
  rfl

theorem vcmpHolds_int (h : fmtFloat nf.fmt = none) (x y : Nat) : vcmpHolds nf x y =
    cmpI nf.var (laneInt (isSigned nf.fmt) (laneBits nf.fmt) x) (laneInt (isSigned nf.fmt) (laneBits nf.fmt) y) := by
  rw [vcmpHolds, h]

theorem vcmpHolds_float {F : FloatFmt} (h : fmtFloat nf.fmt = some F) (x y : Nat) :
    vcmpHolds nf x y = cmpF nf.var (decodeF F x) (decodeF F y) := by
  rw [vcmpHolds, h]

/-- A list read through its positions. -/
theorem map_zipIdx_map_range {α : Type} (n : Nat) (f : Nat → Bool) (g : Bool → Nat → α) :
    ((List.range n).map f).zipIdx.map (fun x => g x.1 x.2) = (List.range n).map fun k => g (f k) k := by
  refine List.ext_getElem (by simp) fun i h1 h2 => ?_
  simp

/-- The tag of VSEL: the least of the operands that delivered a lane. -/
theorem vsel_sig {l : List Nat} (hl : l ≠ []) (sel : Nat → Bool) (p q : Nat) :
    (((if (l.map sel).any id then [p] else []) ++ (if (l.map sel).all id then [] else [q])).min?.getD 0) =
      if l.all sel then p else if l.any sel then min p q else q := by
  have hany : l.all sel = true → l.any sel = true := fun ha => by
    obtain ⟨k, hk⟩ := List.exists_mem_of_ne_nil l hl
    exact List.any_eq_true.mpr ⟨k, hk, List.all_eq_true.mp ha k hk⟩
  rw [List.any_map, List.all_map, Function.id_comp]
  cases hall : l.all sel
  · cases l.any sel <;> rfl
  · rw [hany hall]; rfl

theorem laneCount_pos (fmt : BitVec 5) : 0 < laneCount fmt := by
  revert fmt
  decide

theorem exec_vsel (h : s.CanStart)
    (hp : (firingAt s 0x19 nf).Plain (fun i t =>
      if i = 0 then (t.kind == kDATA || t.kind == kINDEX) && intOfWidth t.fmt (laneBits nf.fmt) else isDataIdx t nf.fmt))
    (ha : (firingAt s 0x19 nf).a = some a) (hb : (firingAt s 0x19 nf).b = some b) (hc : (firingAt s 0x19 nf).c = some c)
    {sel : Nat → Bool} (hsel : ∀ k, sel k = (a.lane (laneBits nf.fmt) k != 0)) :
    exec (.vsel nf) s = .next (s.fired s 0x19 nf (tokPorts nf) [both ((firingAt s 0x19 nf).result kDATA nf.fmt
      (if (List.range (laneCount nf.fmt)).all sel then tokSig b
        else if (List.range (laneCount nf.fmt)).any sel then min (tokSig b) (tokSig c) else tokSig c)
      (packLanes (laneBits nf.fmt) ((List.range (laneCount nf.fmt)).map fun k =>
        if sel k then b.lane (laneBits nf.fmt) k else c.lane (laneBits nf.fmt) k)))]) := by
  have hne : List.range (laneCount nf.fmt) ≠ [] := by
    rw [ne_eq, List.range_eq_nil]
    exact (laneCount_pos _).ne'
  obtain rfl : sel = fun k => a.lane (laneBits nf.fmt) k != 0 := funext hsel
  change execVsel nf s = _
  rw [execVsel]
  refine fireNode_dataNode_one h hp ?_
  dsimp only
  rw [Firing.get_zero ha, Firing.get_one hb, Firing.get_two hc, vsel_sig hne, map_zipIdx_map_range (g := fun b' i =>
    if b' then b.lane (laneBits nf.fmt) i else c.lane (laneBits nf.fmt) i)]

/-- Settles O38: the integer nodes by their lanes, the bitwise ones by their payloads. -/
theorem integerVectorNodesComputeLaneByLane : Obligations.IntegerVectorNodesComputeLaneByLane := by
  unfold Obligations.IntegerVectorNodesComputeLaneByLane
  intro s nf a b c h
  dsimp only
  refine ⟨?_, ?_, ?_, ?_, fun hv => ?_, fun hv => ?_, ?_, ?_, ?_, fun hf hp => ?_, fun F hf hp => ?_, ?_⟩
  · exact intNode_eq h (lane := addLane nf (· + ·)) rfl fun _ => addLane_eq nf _ _ _ _ _
  · exact intNode_eq h (lane := addLane nf (· - ·)) rfl fun _ => addLane_eq nf _ _ _ _ _
  · exact intNode_eq h (exec_vimul nf s) fun _ => vimulLane_eq nf _ _ _ _
  · exact intNode_eq h (lane := fun w _ x y => x * 2 ^ (y % w) % 2 ^ w) rfl fun _ => rfl
  · exact intNode_eq h (exec_vshr nf s) fun _ => if_neg hv
  · exact intNode_eq h (exec_vshr nf s) fun _ => (if_pos hv).trans (by rw [laneInt_true]; rfl)
  · exact bitNode_eq h rfl
  · exact bitNode_eq h rfl
  · exact bitNode_eq h rfl
  · exact exec_vcmp h hp fun _ => vcmpHolds_int hf _ _
  · exact exec_vcmp h hp fun _ => vcmpHolds_float hf _ _
  · exact fun hp ha hb hc => exec_vsel h hp ha hb hc fun _ => rfl

end Sys2Proof.Machine
end

section
/-!
PROOFS. Reductions, scans, permutes, the butterfly and the significance nodes (R211 to R216, R223 to R225).
-/

namespace Sys2Proof.Machine

open Sys2Proof

variable {s : State} {opc : BitVec 8} {nf : NodeFields} {a b : Token}

/-- A plain firing of a node with its operand a. -/
def PlainA (s : State) (opc : BitVec 8) (nf : NodeFields) (ok : BitVec 2 → Token → Bool) (a : Token) : Prop :=
  (firingAt s opc nf).Plain ok ∧ (firingAt s opc nf).a = some a

/-- A data node sends one token on its routes. -/
def Sends (s : State) (i : Instr) (opc : BitVec 8) (nf : NodeFields) (t : Token) : Prop :=
  exec i s = .next (s.fired s opc nf (tokPorts nf) [both t])

section Node
variable {i : Instr} {rf : BitVec 5} {ok : BitVec 2 → Token → Bool} {k : State → Firing → NodeRes} {t : Token}

theorem sends_of_one (h : s.CanStart) (hi : exec i s = fireNode s opc nf fun s x => dataNode s x rf ok k)
    (hp : (firingAt s opc nf).Plain ok) (hk : k s (firingAt s opc nf) = oneOut s (firingAt s opc nf) t) : Sends s i opc nf t :=
  hi.trans (fireNode_dataNode_one h hp hk)

theorem sends_of_sig (h : s.CanStart) (hi : exec i s = fireNode s opc nf fun s x => dataNode s x rf ok k)
    (hp : (firingAt s opc nf).Plain ok) (hk : k s (firingAt s opc nf) = sigOut s (firingAt s opc nf) t)
    (hs : s.NoSigLowNode (firingAt s opc nf) t) : Sends s i opc nf t :=
  hi.trans (fireNode_dataNode_sig h hp hk hs)

end Node

/-! ### Reductions and scans -/

/-- The element to which a reduction of the first lanes of a token comes, rounded to the node's format (R211). -/
def reduced (nf : NodeFields) (op : Elt → Elt → Elt) (a : Token) : Nat × Nat :=
  narrowElt nf.fmt ((treeRed op 7 ((List.range (nf.imm.extractLsb' 0 7).toNat).map (eltOf nf.fmt a))).headD (.int 0))

theorem redNode_eq {i : Instr} {op : Elt → Elt → Elt} (h : s.CanStart) (hi : exec i s = redNode s opc nf op)
    (hp : PlainA s opc nf (fun _ t => isDataIdx t nf.fmt) a)
    (hs : s.NoSigLowNode (firingAt s opc nf) ((firingAt s opc nf).result kDATA nf.fmt
      (if (fmtP nf.fmt).isSome then (reduced nf op a).2 else 0) (packLanes (laneBits nf.fmt)
        (if nf.var = 1 then List.replicate (laneCount nf.fmt) (reduced nf op a).1 else [(reduced nf op a).1])))) :
    Sends s i opc nf ((firingAt s opc nf).result kDATA nf.fmt
      (if (fmtP nf.fmt).isSome then (reduced nf op a).2 else 0) (packLanes (laneBits nf.fmt)
        (if nf.var = 1 then List.replicate (laneCount nf.fmt) (reduced nf op a).1 else [(reduced nf op a).1]))) := by
  refine sends_of_sig h hi hp.1 ?_ hs
  dsimp only
  rw [Firing.get_zero hp.2]
  rfl

theorem exec_vargmx_index (h : s.CanStart) (hp : PlainA s 0x23 nf (fun _ t => isDataIdx t nf.fmt) a) (hv : nf.var = 0) :
    Sends s (.vargmx nf) 0x23 nf ((firingAt s 0x23 nf).intResult 7
      [((argMax nf.fmt a (nf.imm.extractLsb' 0 7).toNat).map (·.1)).getD 0]) := by
  refine sends_of_one h rfl hp.1 ?_
  dsimp only
  rw [if_pos hv, Firing.get_zero hp.2]

theorem exec_vargmx_value {m : Nat × Elt} (h : s.CanStart) (hp : PlainA s 0x23 nf (fun _ t => isDataIdx t nf.fmt) a)
    (hv : nf.var ≠ 0) (hm : argMax nf.fmt a (nf.imm.extractLsb' 0 7).toNat = some m) :
    Sends s (.vargmx nf) 0x23 nf ((firingAt s 0x23 nf).result kDATA nf.fmt (tokSig a)
      (packLanes (laneBits nf.fmt) (List.replicate (laneCount nf.fmt) (a.lane (laneBits nf.fmt) m.1)))) := by
  refine sends_of_one h rfl hp.1 ?_
  dsimp only
  rw [if_neg hv, Firing.get_zero hp.2, hm]

theorem exec_vargmx_none (h : s.CanStart) (hp : PlainA s 0x23 nf (fun _ t => isDataIdx t nf.fmt) a)
    (hv : nf.var ≠ 0) (hm : argMax nf.fmt a (nf.imm.extractLsb' 0 7).toNat = none) :
    Sends s (.vargmx nf) 0x23 nf ((firingAt s 0x23 nf).result kDATA nf.fmt 0
      (packLanes (laneBits nf.fmt) (List.replicate (laneCount nf.fmt) (canonNaN ((fmtFloat nf.fmt).getD fp32))))) := by
  refine sends_of_one h rfl hp.1 ?_
  dsimp only
  rw [if_neg hv, Firing.get_zero hp.2, hm]
  rfl

/-- The zero of a scan's carry. -/
def scanZero (nf : NodeFields) : Elt := if (fmtFloat nf.fmt).isSome then .fp (.num false 0 0) 24 else .int 0

/-- A scan's step by its variant. -/
def scanOp (nf : NodeFields) : Elt → Elt → Elt := if nf.var = 0 ∨ nf.var = 1 then addElt else mmElt (nf.var == 2)

/-- What a scan of a token sends under a carry-in (R214). -/
def scanned (x : Firing) (nf : NodeFields) (carry : Option Elt) (a : Token) : Token :=
  let rs := (scanLanes (scanOp nf) (nf.var == 1) carry ((List.range (laneCount nf.fmt)).map (eltOf nf.fmt a))).map
    (narrowElt nf.fmt)
  if (fmtP nf.fmt).isSome then x.fpResult nf.fmt rs else x.intResult nf.fmt (rs.map (·.1))

/-- The carry-in of a scan: lane 0 of b, or for the sums a zero. -/
def scanCarry (x : Firing) (nf : NodeFields) : Option Elt :=
  match x.b with
  | some b => some (eltOf nf.fmt b 0)
  | none => if nf.var = 0 ∨ nf.var = 1 then some (scanZero nf) else none

/-- The variants of a scan: the two sums, the maximum, and the minimum. -/
theorem scan_var_cases (v : BitVec 3) : v = 0 ∨ v = 1 ∨ v = 2 ∨ ∃ n, v.toNat = n + 3 ∧ v ≠ 0 ∧ v ≠ 1 ∧ v ≠ 2 := by
  obtain hv | hv | ⟨_ | n, hn, h0, h1⟩ := var_cases v
  · exact .inl hv
  · exact .inr (.inl hv)
  · exact .inr (.inr (.inl (BitVec.eq_of_toNat_eq hn)))
  · exact .inr (.inr (.inr ⟨n, hn, h0, h1, fun h2 => by rw [h2] at hn; exact absurd hn (by simp)⟩))

theorem exec_vscan (h : s.CanStart) (hp : PlainA s 0x24 nf (fun _ t => isDataIdx t nf.fmt) a)
    (hs : s.NoSigLowNode (firingAt s 0x24 nf) (scanned (firingAt s 0x24 nf) nf (scanCarry (firingAt s 0x24 nf) nf) a)) :
    Sends s (.vscan nf) 0x24 nf (scanned (firingAt s 0x24 nf) nf (scanCarry (firingAt s 0x24 nf) nf) a) := by
  refine sends_of_sig h rfl hp.1 ?_ hs
  dsimp only
  rw [Firing.get_zero hp.2, scanned, scanOp, scanCarry, scanZero]
  obtain hv | hv | hv | ⟨n, hn, h0, h1, h2⟩ := scan_var_cases nf.var
  · rw [hv]
    cases (firingAt s 0x24 nf).b <;> cases fmtFloat nf.fmt <;> rfl
  · rw [hv]
    cases (firingAt s 0x24 nf).b <;> cases fmtFloat nf.fmt <;> rfl
  · rw [hv]
    cases (firingAt s 0x24 nf).b <;> cases fmtFloat nf.fmt <;> rfl
  · rw [hn, if_neg (not_or.mpr ⟨h0, h1⟩), if_neg (not_or.mpr ⟨h0, h1⟩), beq_false_of_ne h2,
      if_neg (show ¬n + 3 < 2 by omega)]
    cases (firingAt s 0x24 nf).b <;> rfl

/-! ### Permute, broadcast, popcount -/

section Perm
variable {wide : Bool} {m j : Nat} {i : Nat → Nat}

/-- What a VPERM selects with its indices (R215). -/
structure PermOf (nf : NodeFields) (b : Token) (m j : Nat) (i : Nat → Nat) : Prop where
  number : m = if nf.imm.getLsbD 4 then 32 else 64
  first : j = (nf.imm.extractLsb' 0 4).toNat
  index : ∀ k, i k = b.lane (if nf.imm.getLsbD 4 then 16 else 8) k

/-- The formats of a VPERM's operands. -/
def vpermOk (nf : NodeFields) (i : BitVec 2) (t : Token) : Bool :=
  if i = 0 then isDataIdx t nf.fmt else isDataIdx t (if nf.imm.getLsbD 4 then 6 else 5)

/-- Every index that selects a lane of the token lies within it. -/
def permInside (nf : NodeFields) (m j : Nat) (i : Nat → Nat) : Prop :=
  ∀ k < m, j * m + k < laneCount nf.fmt → i k < laneCount nf.fmt

theorem permInside_iff (nf : NodeFields) (m j : Nat) (i : Nat → Nat) :
    (((List.range m).filter fun k => decide (j * m + k < laneCount nf.fmt)).any fun k => decide (laneCount nf.fmt ≤ i k)) = false ↔
      permInside nf m j i := by
  simp only [List.any_eq_false, List.mem_filter, List.mem_range, decide_eq_true_eq, permInside, Nat.not_le, and_imp]

theorem laneBits_index (nf : NodeFields) :
    laneBits (if nf.imm.getLsbD 4 = true then 6 else 5) = if nf.imm.getLsbD 4 then 16 else 8 := by
  cases nf.imm.getLsbD 4 <;> rfl

/-- The payload of a VPERM. -/
def permLanes (nf : NodeFields) (a : Token) (m j : Nat) (i : Nat → Nat) : List Nat :=
  (List.range (laneCount nf.fmt)).map fun k =>
    if j * m ≤ k ∧ k < j * m + m ∧ i (k - j * m) < laneCount nf.fmt then a.lane (laneBits nf.fmt) (i (k - j * m)) else 0

theorem permLanes_eq (nf : NodeFields) (a : Token) (m j : Nat) (i : Nat → Nat) :
    ((List.range (laneCount nf.fmt)).map fun k =>
      if (decide (j * m ≤ k) && decide (k < j * m + m)) = true then
        if i (k - j * m) < laneCount nf.fmt then a.lane (laneBits nf.fmt) (i (k - j * m)) else 0
      else 0) = permLanes nf a m j i := by
  refine List.map_congr_left fun k _ => ?_
  simp only [Bool.and_eq_true, decide_eq_true_eq, ← and_assoc, ite_and]

theorem exec_vperm (h : s.CanStart) (hp : PlainA s 0x25 nf (vpermOk nf) a) (hb : (firingAt s 0x25 nf).b = some b)
    (hi : PermOf nf b m j i) (hin : nf.var ≠ 1 ∨ permInside nf m j i) :
    Sends s (.vperm nf) 0x25 nf { (firingAt s 0x25 nf).result kDATA nf.fmt (tokSig a)
      (packLanes (laneBits nf.fmt) (permLanes nf a m j i)) with
        scale := if nf.fmt == 0xF || nf.fmt == 0x10 then a.scale else 0 } := by
  obtain ⟨rfl, rfl, hidx⟩ := hi
  obtain rfl : i = fun k => b.lane (if nf.imm.getLsbD 4 then 16 else 8) k := funext hidx
  refine sends_of_one h rfl hp.1 ?_
  dsimp only
  rw [Firing.get_zero hp.2, Firing.get_one hb, laneBits_index]
  refine (if_neg ?_).trans ?_
  · rw [Bool.and_eq_true, decide_eq_true_eq]
    rintro ⟨hv, hany⟩
    exact Bool.false_ne_true (((permInside_iff nf _ _ _).mpr (hin.resolve_left (not_not.mpr hv))).symm.trans hany)
  · rw [permLanes_eq]

theorem exec_vperm_range (h : s.CanStart) (hp : PlainA s 0x25 nf (vpermOk nf) a) (hb : (firingAt s 0x25 nf).b = some b)
    (hi : PermOf nf b m j i) (hv : nf.var = 1) (hout : ¬permInside nf m j i) :
    exec (.vperm nf) s = .next (s.fired (noteFault s s.site 0x83 (firingAt s 0x25 nf).info) 0x25 nf (tokPorts nf)
      [both ((firingAt s 0x25 nf).error 0x83)]) := by
  obtain ⟨rfl, rfl, hidx⟩ := hi
  obtain rfl : i = fun k => b.lane (if nf.imm.getLsbD 4 then 16 else 8) k := funext hidx
  change execVperm nf s = _
  rw [execVperm]
  refine fireNode_out h ((dataNode_plain hp.1).trans ?_)
  dsimp only
  rw [Firing.get_zero hp.2, Firing.get_one hb, laneBits_index]
  refine (if_pos ?_).trans rfl
  rw [decide_eq_true hv, Bool.true_and]
  rw [← permInside_iff, Bool.not_eq_false] at hout
  exact hout

end Perm

theorem exec_vbcast (h : s.CanStart) (hp : PlainA s 0x26 nf (fun _ t => isDataIdx t nf.fmt) a) :
    Sends s (.vbcast nf) 0x26 nf ((firingAt s 0x26 nf).result kDATA nf.fmt (tokSig a) (packLanes (laneBits nf.fmt)
      (List.replicate (laneCount nf.fmt) (a.lane (laneBits nf.fmt) (nf.imm.extractLsb' 0 7).toNat)))) := by
  refine sends_of_one h rfl hp.1 ?_
  dsimp only
  rw [Firing.get_zero hp.2]

theorem sum_map_ite_eq_countP (l : List Nat) (p : Nat → Bool) : (l.map fun v => if p v then 1 else 0).sum = l.countP p := by
  induction l with
  | nil => rfl
  | cons v l ih => rw [List.map_cons, List.sum_cons, ih, List.countP_cons, Nat.add_comm]

theorem exec_vpopc_count (h : s.CanStart) (hp : PlainA s 0x27 nf (fun _ t => isDataIdx t nf.fmt) a) (hv : nf.var = 0) :
    Sends s (.vpopc nf) 0x27 nf ((firingAt s 0x27 nf).intResult 7 [a.lanes.countP (laneNonzero nf.fmt)]) := by
  refine sends_of_one h rfl hp.1 ?_
  dsimp only
  rw [Firing.get_zero hp.2, sum_map_ite_eq_countP, hv]
  rfl

theorem exec_vpopc_map (h : s.CanStart) (hp : PlainA s 0x27 nf (fun _ t => isDataIdx t nf.fmt) a) (hv : nf.var = 1) :
    Sends s (.vpopc nf) 0x27 nf ((firingAt s 0x27 nf).intResult 0x11 (a.lanes.map fun v => if laneNonzero nf.fmt v then 1 else 0)) := by
  refine sends_of_one h rfl hp.1 ?_
  dsimp only
  rw [Firing.get_zero hp.2, hv]
  rfl

theorem exec_vpopc_lanes (h : s.CanStart) (hp : PlainA s 0x27 nf (fun _ t => isDataIdx t nf.fmt) a) (h0 : nf.var ≠ 0)
    (h1 : nf.var ≠ 1) :
    Sends s (.vpopc nf) 0x27 nf ((firingAt s 0x27 nf).intResult nf.fmt (a.lanes.map (bitCount (laneBits nf.fmt)))) := by
  refine sends_of_one h rfl hp.1 ?_
  dsimp only
  obtain ⟨n, hn, -⟩ := ((var_cases nf.var).resolve_left h0).resolve_left h1
  rw [Firing.get_zero hp.2, hn]
  rfl

/-! ### Butterfly and significance -/

theorem exec_bfly_near (h : s.CanStart) (hp : PlainA s 0x34 nf (fun _ t => isData t 0xA) a)
    (hst : (nf.imm.extractLsb' 0 3).toNat ≠ 4) {ls : Nat → Nat × Nat}
    (hls : ∀ i, (if i / 2 ^ (nf.imm.extractLsb' 0 3).toNat % 2 = 0 then
        bflyLane false (fpLane fp32 a i) (fpLane fp32 a (i + 2 ^ (nf.imm.extractLsb' 0 3).toNat))
      else bflyLane true (fpLane fp32 a (i - 2 ^ (nf.imm.extractLsb' 0 3).toNat)) (fpLane fp32 a i)) = ls i)
    (hs : s.NoSigLowNode (firingAt s 0x34 nf) ((firingAt s 0x34 nf).fpResult 0xA ((List.range 16).map ls))) :
    Sends s (.bfly nf) 0x34 nf ((firingAt s 0x34 nf).fpResult 0xA ((List.range 16).map ls)) := by
  refine sends_of_sig h rfl hp.1 ?_ hs
  dsimp only
  rw [Firing.get_zero hp.2]
  congr 3
  funext i
  rw [if_neg hst]
  exact hls i

theorem exec_bfly_far (h : s.CanStart) (hp : PlainA s 0x34 nf (fun _ t => isData t 0xA) a)
    (hst : (nf.imm.extractLsb' 0 3).toNat = 4) (hb : (firingAt s 0x34 nf).b = some b)
    (hs : s.NoSigLowNode (firingAt s 0x34 nf) ((firingAt s 0x34 nf).fpResult 0xA ((List.range 16).map fun i =>
      bflyLane (nf.var == 1) (fpLane fp32 a i) (fpLane fp32 b i)))) :
    Sends s (.bfly nf) 0x34 nf ((firingAt s 0x34 nf).fpResult 0xA ((List.range 16).map fun i =>
      bflyLane (nf.var == 1) (fpLane fp32 a i) (fpLane fp32 b i))) := by
  refine sends_of_sig h rfl hp.1 ?_ hs
  dsimp only
  rw [Firing.get_zero hp.2, Firing.get_one hb]
  congr 3
  funext i
  rw [if_pos hst]

section Sig

/-- The formats of a VSIG's operands. -/
def vsigOk (nf : NodeFields) (i : BitVec 2) (t : Token) : Bool := if i = 0 then isData t nf.fmt else isDataIdx t 5

theorem exec_vsig_get (h : s.CanStart) (hp : PlainA s 0x35 nf (vsigOk nf) a) (hv : nf.var = 0) :
    Sends s (.vsig nf) 0x35 nf ((firingAt s 0x35 nf).intResult 5 [tokSig a]) := by
  refine sends_of_one h rfl hp.1 ?_
  dsimp only
  rw [Firing.get_zero hp.2, hv]
  rfl

/-- The value that VSIG sets or lowers to. -/
def vsigVal (nf : NodeFields) (b : Token) : Nat :=
  if portKind nf 1 = 1 then (nf.imm.extractLsb' 0 7).toNat else b.lane 8 0

theorem vsigVal_eq (nf : NodeFields) (b : Token) :
    (if (portKind nf 1 == 1) = true then (nf.imm.extractLsb' 0 7).toNat else b.lane 8 0) = vsigVal nf b := by
  simp only [vsigVal, beq_iff_eq]

theorem exec_vsig_set (h : s.CanStart) (hp : PlainA s 0x35 nf (vsigOk nf) a) (hv : nf.var = 1)
    (hb : (firingAt s 0x35 nf).b = some b) :
    Sends s (.vsig nf) 0x35 nf
      { (firingAt s 0x35 nf).retag a with sig := BitVec.ofNat 7 (min (vsigVal nf b) ((fmtP nf.fmt).getD 0)) } := by
  refine sends_of_one h rfl hp.1 ?_
  dsimp only
  rw [Firing.get_zero hp.2, Firing.get_one hb, vsigVal_eq, hv]
  rfl

theorem exec_vsig_lower (h : s.CanStart) (hp : PlainA s 0x35 nf (vsigOk nf) a) (h0 : nf.var ≠ 0) (h1 : nf.var ≠ 1)
    (hb : (firingAt s 0x35 nf).b = some b) :
    Sends s (.vsig nf) 0x35 nf { (firingAt s 0x35 nf).retag a with
      sig := BitVec.ofNat 7 (min (min a.sig.toNat (vsigVal nf b)) ((fmtP nf.fmt).getD 0)) } := by
  obtain ⟨n, hn, -⟩ := ((var_cases nf.var).resolve_left h0).resolve_left h1
  refine sends_of_one h rfl hp.1 ?_
  dsimp only
  rw [Firing.get_zero hp.2, Firing.get_one hb, vsigVal_eq, hn]
  rfl

end Sig

theorem exec_sigchk_pred (h : s.CanStart) (hp : PlainA s 0x36 nf (fun _ t => isData t nf.fmt) a) (hv : nf.var = 0) :
    Sends s (.sigchk nf) 0x36 nf
      { (firingAt s 0x36 nf).retag a with pred := decide ((nf.imm.extractLsb' 0 7).toNat ≤ tokSig a) } := by
  refine sends_of_one h rfl hp.1 ?_
  dsimp only
  rw [Firing.get_zero hp.2, if_pos hv]

theorem exec_sigchk_passes (h : s.CanStart) (hp : PlainA s 0x36 nf (fun _ t => isData t nf.fmt) a) (hv : nf.var ≠ 0)
    (hh : decide ((nf.imm.extractLsb' 0 7).toNat ≤ tokSig a) = true) :
    Sends s (.sigchk nf) 0x36 nf ((firingAt s 0x36 nf).retag a) := by
  refine sends_of_one h rfl hp.1 ?_
  dsimp only
  rw [Firing.get_zero hp.2, if_neg hv, if_pos (of_decide_eq_true hh)]

theorem exec_sigchk_parks (h : s.CanStart) (hp : PlainA s 0x36 nf (fun _ t => isData t nf.fmt) a) (hv : nf.var ≠ 0)
    (hh : decide ((nf.imm.extractLsb' 0 7).toNat ≤ tokSig a) = false) :
    exec (.sigchk nf) s = .next (parkFiring s (firingAt s 0x36 nf) 0x40 (firingAt s 0x36 nf).info (some a)) := by
  change execSigchk nf s = _
  rw [execSigchk]
  refine fireNode_park h ((dataNode_plain hp.1).trans ?_)
  dsimp only
  rw [Firing.get_zero hp.2, if_neg hv, if_neg (of_decide_eq_false hh)]
  rfl

/-- Settles O39: node by node. -/
theorem reductionsPermutesAndSignificance : Obligations.ReductionsPermutesAndSignificance := by
  unfold Obligations.ReductionsPermutesAndSignificance
  intro s nf a b h
  dsimp only
  refine ⟨?_, ?_, ?_, ?_, ?_, ?_, ?_, ?_, ?_, ?_, ?_, ?_, ?_⟩
  · exact redNode_eq h rfl
  · exact redNode_eq h rfl
  · exact redNode_eq h rfl
  · exact exec_vargmx_index h
  · exact fun m => exec_vargmx_value h
  · exact exec_vargmx_none h
  · exact exec_vscan h
  · intro hp hb
    exact ⟨exec_vperm h hp hb ⟨rfl, rfl, fun _ => rfl⟩, exec_vperm_range h hp hb ⟨rfl, rfl, fun _ => rfl⟩⟩
  · exact exec_vbcast h
  · exact fun hp => ⟨exec_vpopc_count h hp, exec_vpopc_map h hp, exec_vpopc_lanes h hp⟩
  · exact fun hp => ⟨fun hst => exec_bfly_near h hp hst fun _ => rfl, exec_bfly_far h hp⟩
  · exact fun hp => ⟨exec_vsig_get h hp, exec_vsig_set h hp, exec_vsig_lower h hp⟩
  · exact fun hp => ⟨exec_sigchk_pred h hp, exec_sigchk_passes h hp, exec_sigchk_parks h hp⟩

end Sys2Proof.Machine
end

section
/-!
PROOFS. The conversion nodes: VCVT, DQ, QZ, CV8, and the load of their seed (R217 to R221).
-/

namespace Sys2Proof.Machine

open Sys2Proof

variable {s : State} {opc : BitVec 8} {nf : NodeFields} {a : Token}

/-! ### VCVT and DQ -/

section Convert
variable {i : Instr}

theorem convertNode_elements (h : s.CanStart) (hi : exec i s = convertNode s opc nf) (hz : isZB (cvSrc nf) = false)
    (hd : isZB nf.fmt = false) (hp : PlainA s opc nf (fun _ t => isDataIdx t (cvSrc nf)) a)
    (hs : s.NoSigLowNode (firingAt s opc nf) (cvResult (firingAt s opc nf) (cvElem (cvSrc nf) nf.fmt a))) :
    Sends s i opc nf (cvResult (firingAt s opc nf) (cvElem (cvSrc nf) nf.fmt a)) := by
  refine sends_of_sig h hi hp.1 ?_ hs
  dsimp only
  rw [Firing.get_zero hp.2, hz, hd]
  rfl

theorem convertNode_block (h : s.CanStart) (hi : exec i s = convertNode s opc nf) (hz : isZB (cvSrc nf) = true)
    (hp : PlainA s opc nf (fun _ t => isDataIdx t (cvSrc nf)) a)
    (hs : s.NoSigLowNode (firingAt s opc nf) (cvResult (firingAt s opc nf) (dqElem (cvSrc nf == 0xF) nf.fmt a))) :
    Sends s i opc nf (cvResult (firingAt s opc nf) (dqElem (cvSrc nf == 0xF) nf.fmt a)) := by
  refine sends_of_sig h hi hp.1 ?_ hs
  dsimp only
  rw [Firing.get_zero hp.2, hz]
  rfl

/-- The values that a conversion into a block format takes. -/
def cvValues (nf : NodeFields) (a : Token) : List FVal :=
  (List.range (laneCount (cvSrc nf))).map fun i => (fpLane ((fmtFloat (cvSrc nf)).getD fp16) a i).1

theorem zbSig_eq {zb8 : Bool} {vs : List FVal} {b : Nat × Nat × List Nat} {lost : FVal × Nat → Bool}
    (hnum : ∀ n m e q, lost (.num n m e, q) = (m != 0 && q % 2 ^ (if zb8 then 6 else 2) == 0))
    (hinf : ∀ n q, lost (.inf n, q) = true) (hnan : ∀ n q, lost (.nan n, q) = true) :
    zbSig zb8 a vs b = if (vs.zip b.2.2).any lost then 0 else min (tokSig a) (if zb8 then 6 else 2) := by
  rw [zbSig]
  refine congrArg (fun f : FVal × Nat → Bool => if (vs.zip b.2.2).any f then 0 else min (tokSig a) (if zb8 then 6 else 2))
    (funext fun ⟨v, q⟩ => ?_)
  cases v with
  | num n m e => exact (hnum n m e q).symm
  | inf n => exact (hinf n q).symm
  | nan n => exact (hnan n q).symm

theorem convertNode_quantises (h : s.CanStart) (hi : exec i s = convertNode s opc nf) (hz : isZB (cvSrc nf) = false)
    (hd : isZB nf.fmt = true) (hp : PlainA s opc nf (fun _ t => isDataIdx t (cvSrc nf)) a) {sig : Nat}
    (hsig : zbSig (nf.fmt == 0xF) a (cvValues nf a) (quantBlock (nf.fmt == 0xF) none none (cvValues nf a)) = sig)
    (hs : s.NoSigLowNode (firingAt s opc nf) (zbToken (firingAt s opc nf) (nf.fmt == 0xF) (cvPart nf) sig
      [quantBlock (nf.fmt == 0xF) none none (cvValues nf a)])) :
    Sends s i opc nf (zbToken (firingAt s opc nf) (nf.fmt == 0xF) (cvPart nf) sig
      [quantBlock (nf.fmt == 0xF) none none (cvValues nf a)]) := by
  subst hsig
  refine sends_of_sig h hi hp.1 ?_ hs
  dsimp only
  rw [Firing.get_zero hp.2, hz, hd]
  rfl

end Convert

/-! ### The seed load -/

theorem seedLoad_other {x : Firing} {k : NodeRes} (ha : x.a = some a) (hk : a.kind ≠ kPARAM) : seedLoad s x k = k := by
  rw [seedLoad, ha]
  refine if_neg ?_
  rw [Bool.and_eq_true, beq_iff_eq]
  exact fun h => hk h.1

theorem seedLoad_param {x : Firing} {k : NodeRes} (ha : x.a = some a) (hk : a.kind = kPARAM) (hf : a.fmt = 7)
    (hp : x.Plain (fun _ _ => true)) :
    seedLoad s x k = noOut (setLfsr s x.n (seedOf (a.payload.extractLsb' 0 32))) x := by
  rw [seedLoad, ha]
  exact (if_pos (by rw [hk, hf]; decide)).trans (dataNode_plain hp)

/-- Operand a of a plain firing is a DATA token: one on an immediate port is, and any other has passed the format test. -/
theorem PlainA.kind {fmt : BitVec 5} (h : PlainA s opc nf (fun _ t => isData t fmt) a) : a.kind = kDATA := by
  obtain ⟨⟨-, -, -, hok⟩, ha⟩ := h
  have h0 := List.all_eq_true.mp hok 0 (by decide)
  rw [show (firingAt s opc nf).port 0 = some a from ha, Option.all_some, Bool.or_eq_true] at h0
  rcases h0 with himm | hdata
  · have hopen : (firingAt s opc nf).a = some (immToken s.site nf.fmt nf.imm 0) := by
      have hk : portKind nf 0 = 1 := beq_iff_eq.mp himm
      have hop : operand s s.site nf 0 = some (immToken s.site nf.fmt nf.imm 0) := by rw [operand, hk]; rfl
      exact (if_pos (by dsimp only; rw [hk]; rfl)).trans hop
    rw [Option.some.inj (ha.symm.trans hopen)]
    rfl
  · exact beq_iff_eq.mp (Bool.and_eq_true _ _ ▸ hdata).1

theorem PlainA.not_param {fmt : BitVec 5} (h : PlainA s opc nf (fun _ t => isData t fmt) a) : a.kind ≠ kPARAM := by
  rw [h.kind]; decide

/-! ### QZ -/

/-- The state in which a completed group has left: the LFSR has stepped where the variant rounds stochastically. -/
def qzLeft (s : State) (x : Firing) : State :=
  let gone := s.updNode x.n fun y => { y with groups := y.groups.filter fun g => !(g.ctx == x.n.ctx && g.iter == x.n.iter) }
  if x.nf.var.toNat % 2 = 1 then setLfsr gone x.n (lfsrSteps (laneCount x.nf.fmt) (lfsrAt (gone.fab x.n.r) x.n)) else gone

theorem qzEmit_eq {x : Firing} {toks : List Token} (h : s.NoSigLowNode x (qzToken s x toks)) :
    qzEmit s x toks = oneOut (qzLeft s x) x (qzToken s x toks) :=
  if_neg (by rw [show sigLowNode s x (qzToken s x toks) = false from h]; decide)

section Qz
variable {g : QzGroup}

/-- QZ has room for an activation whose group is open, or while fewer than four are. -/
theorem qz_room (hroom : qzGroup (s.node s.site) s.site ≠ none ∨ (s.node s.site).groups.length < 4) :
    ¬((qzGroup (s.node s.site) s.site).isNone && decide (4 ≤ (s.node s.site).groups.length)) = true := by
  rw [Bool.and_eq_true, decide_eq_true_eq, Option.isNone_iff_eq_none]
  rintro ⟨hn, hl⟩
  exact hroom.elim (fun h => h hn) (fun h => absurd h (by omega))

theorem exec_qz_collects (h : s.CanStart) (hp : PlainA s 0x31 nf (fun _ t => isData t (cvSrc nf)) a)
    (hg : qzGroup (s.node s.site) s.site = some g) (hn : g.toks.length + 1 ≠ laneCount nf.fmt / laneCount (cvSrc nf)) :
    exec (.qz nf) s = .next (s.fired (s.updNode s.site fun y => { y with groups := y.groups.map fun h =>
      if h.ctx == s.site.ctx && h.iter == s.site.iter then { h with toks := g.toks ++ [a] } else h }) 0x31 nf (tokPorts nf) []) := by
  change execQz nf s = _
  rw [execQz]
  refine fireNode_out h ?_
  dsimp only
  refine (if_neg (qz_room (.inl (by rw [hg]; simp)))).trans ?_
  rw [seedLoad_other hp.2 hp.not_param, hp.2, show qzGroup (s.node (firingAt s 0x31 nf).n) (firingAt s 0x31 nf).n = some g from hg]
  refine (if_neg (by rw [hp.kind]; decide)).trans ((dataNode_plain hp.1).trans ?_)
  refine (if_neg ?_).trans rfl
  rw [List.length_append, List.length_singleton]
  exact hn

theorem exec_qz_opens (h : s.CanStart) (hp : PlainA s 0x31 nf (fun _ t => isData t (cvSrc nf)) a)
    (hg : qzGroup (s.node s.site) s.site = none) (hl : (s.node s.site).groups.length < 4) :
    exec (.qz nf) s = .next (s.fired (s.updNode s.site fun y =>
      { y with groups := y.groups ++ [⟨s.site.ctx, s.site.iter, [a]⟩] }) 0x31 nf (tokPorts nf) []) := by
  change execQz nf s = _
  rw [execQz]
  refine fireNode_out h ?_
  dsimp only
  refine (if_neg (qz_room (.inr hl))).trans ?_
  rw [seedLoad_other hp.2 hp.not_param, hp.2, show qzGroup (s.node (firingAt s 0x31 nf).n) (firingAt s 0x31 nf).n = none from hg]
  refine (dataNode_plain hp.1).trans ?_
  rw [Firing.get_zero hp.2]
  rfl

theorem exec_qz_completes (h : s.CanStart) (hp : PlainA s 0x31 nf (fun _ t => isData t (cvSrc nf)) a)
    (hg : qzGroup (s.node s.site) s.site = some g) (hn : g.toks.length + 1 = laneCount nf.fmt / laneCount (cvSrc nf))
    (hs : s.NoSigLowNode (firingAt s 0x31 nf) (qzToken s (firingAt s 0x31 nf) (g.toks ++ [a]))) :
    exec (.qz nf) s = .next (s.fired (qzLeft s (firingAt s 0x31 nf)) 0x31 nf (tokPorts nf)
      [both (qzToken s (firingAt s 0x31 nf) (g.toks ++ [a]))]) := by
  change execQz nf s = _
  rw [execQz]
  refine fireNode_out h ?_
  dsimp only
  refine (if_neg (qz_room (.inl (by rw [hg]; simp)))).trans ?_
  rw [seedLoad_other hp.2 hp.not_param, hp.2, show qzGroup (s.node (firingAt s 0x31 nf).n) (firingAt s 0x31 nf).n = some g from hg]
  refine (if_neg (by rw [hp.kind]; decide)).trans ((dataNode_plain hp.1).trans ?_)
  refine (if_pos ?_).trans (qzEmit_eq hs)
  rw [List.length_append, List.length_singleton]
  exact hn

theorem exec_qz_stop (h : s.CanStart) (ha : (firingAt s 0x31 nf).a = some a) (hk : a.kind = kSTOP)
    (hg : qzGroup (s.node s.site) s.site = some g) (hs : s.NoSigLowNode (firingAt s 0x31 nf) (qzToken s (firingAt s 0x31 nf) g.toks)) :
    exec (.qz nf) s = .next (s.fired (qzLeft s (firingAt s 0x31 nf)) 0x31 nf (tokPorts nf)
      [both (qzToken s (firingAt s 0x31 nf) g.toks)]) := by
  change execQz nf s = _
  rw [execQz]
  refine fireNode_out h ?_
  dsimp only
  refine (if_neg (qz_room (.inl (by rw [hg]; simp)))).trans ?_
  rw [seedLoad_other ha (by rw [hk]; decide), ha, show qzGroup (s.node (firingAt s 0x31 nf).n) (firingAt s 0x31 nf).n = some g from hg]
  exact (if_pos (by rw [hk]; decide)).trans (qzEmit_eq hs)

theorem exec_qz_seed (h : s.CanStart) (hroom : qzGroup (s.node s.site) s.site ≠ none ∨ (s.node s.site).groups.length < 4)
    (hk : a.kind = kPARAM) (hf : a.fmt = 7) (hp : (firingAt s 0x31 nf).Plain (fun _ _ => true))
    (ha : (firingAt s 0x31 nf).a = some a) :
    exec (.qz nf) s =
      .next (s.fired (setLfsr s s.site (seedOf (a.payload.extractLsb' 0 32))) 0x31 nf (tokPorts nf) []) := by
  change execQz nf s = _
  rw [execQz]
  refine fireNode_out h ?_
  dsimp only
  exact (if_neg (qz_room hroom)).trans (seedLoad_param ha hk hf hp)

end Qz

/-! ### CV8 -/

theorem exec_cv8_seed (h : s.CanStart) (hk : a.kind = kPARAM) (hf : a.fmt = 7)
    (hp : (firingAt s 0x33 nf).Plain (fun _ _ => true)) (ha : (firingAt s 0x33 nf).a = some a) :
    exec (.cv8 nf) s =
      .next (s.fired (setLfsr s s.site (seedOf (a.payload.extractLsb' 0 32))) 0x33 nf (tokPorts nf) []) := by
  change execCv8 nf s = _
  rw [execCv8]
  exact fireNode_out h (seedLoad_param ha hk hf hp)

/-- An element as CV8 converts it, with the converter's LFSR l before the firing (R218). -/
def cv8Elem (nf : NodeFields) (l : BitVec 32) (a : Token) (i : Nat) : Nat × Nat :=
  let F := (fmtFloat (cvSrc nf)).getD fp32
  let G := (fmtFloat nf.fmt).getD fp32
  let v := scaleVal (fpLane F a i).1 (cvK nf)
  let k := if laneCount (cvSrc nf) ≤ laneCount nf.fmt then i else i - cvPart nf * laneCount nf.fmt
  let r := if isFPV nf.fmt then (rneF G (exactOf v)).1 else cv8Round G nf.var.toNat (lfsrR (lfsrSteps (k + 1) l)) v
  (r, cvtTag F G (min a.sig.toNat F.p) (isZeroV v) (decodeF G r))

theorem exec_cv8 (h : s.CanStart) (hp : PlainA s 0x33 nf (fun _ t => isData t (cvSrc nf)) a)
    (hs : s.NoSigLowNode (firingAt s 0x33 nf) (cvResult (firingAt s 0x33 nf) (cv8Elem nf (lfsrAt (s.fab s.site.r) s.site) a))) :
    exec (.cv8 nf) s = .next (s.fired
      (if nf.var.toNat % 2 = 1 then
        setLfsr s s.site (lfsrSteps (min (laneCount (cvSrc nf)) (laneCount nf.fmt)) (lfsrAt (s.fab s.site.r) s.site)) else s)
      0x33 nf (tokPorts nf) [both (cvResult (firingAt s 0x33 nf) (cv8Elem nf (lfsrAt (s.fab s.site.r) s.site) a))]) := by
  change execCv8 nf s = _
  rw [execCv8]
  refine fireNode_out h ?_
  rw [seedLoad_other hp.2 hp.not_param, dataNode_plain hp.1]
  dsimp only
  rw [Firing.get_zero hp.2]
  refine (if_neg ?_).trans ?_
  · exact fun ht => Bool.false_ne_true (Eq.trans (show false = _ from (show sigLowNode s _ _ = false from hs).symm) ht)
  · simp only [beq_iff_eq]
    rfl

/-- Settles O40: node by node. -/
theorem conversionNodesConvertTheirElements : Obligations.ConversionNodesConvertTheirElements := by
  unfold Obligations.ConversionNodesConvertTheirElements
  intro s nf a h
  dsimp only
  refine ⟨fun hz hd hp hs => convertNode_elements h rfl hz hd hp hs, fun hz hd hp hs => ?_,
    fun hz hp hs => convertNode_block h rfl hz hp hs, fun hz hp hs => convertNode_block h rfl hz hp hs,
    ⟨fun g => exec_qz_collects h, exec_qz_opens h, fun g => exec_qz_completes h, fun g => exec_qz_stop h⟩, exec_cv8 h,
    fun opc hopc hk hf hp ha => ⟨?_, ?_⟩⟩
  · exact convertNode_quantises h rfl hz hd hp (zbSig_eq (fun _ _ _ _ => rfl) (fun _ _ => rfl) fun _ _ => rfl) hs
  · rintro rfl
    obtain ⟨-, hroom⟩ | habs := hopc
    · exact exec_qz_seed h hroom hk hf hp ha
    · exact absurd habs (by decide)
  · rintro rfl
    exact exec_cv8_seed h hk hf hp ha

end Sys2Proof.Machine
end

section
/-!
PROOFS. Flow nodes that steer, select, copy, delay, count and make tokens (R246 to R249, R257 to R262).
-/

namespace Sys2Proof.Machine

open Sys2Proof

variable {s s1 : State} {opc : BitVec 8} {nf : NodeFields} {a b c t : Token}

/-! ### Firings of flow nodes -/

theorem fireNode_out_after {k : State → Firing → NodeRes} {eat : List (BitVec 2)} {rs : List Pair} {after : Word}
    (h : s.CanStart) (hk : k s (firingAt s opc nf) = .out s1 eat rs after) :
    fireNode s opc nf k = .next (finishFire s1 (firingAt s opc nf) eat
      (rs.map fun p => departures (s1.fab s.site.r) nf s.site.row s.site.col p.1 p.2) (firstTok rs) after) := by
  rw [fireNode_eq h, hk]
  rfl

/-- A flow node's operands: every token port has one, none of a reserved FMT, and a is one of them. -/
structure Taken (s : State) (opc : BitVec 8) (nf : NodeFields) (a : Token) : Prop where
  ready : (firingAt s opc nf).ready = true
  fmts : (firingAt s opc nf).badFmt = false
  a : (firingAt s opc nf).a = some a

theorem taken_of (h : (firingAt s opc nf).ready = true ∧ (firingAt s opc nf).badFmt = false ∧ (firingAt s opc nf).a = some a) :
    Taken s opc nf a := ⟨h.1, h.2.1, h.2.2⟩

theorem flowChecked_eq {x : Firing} {eat : List (BitVec 2)} {k : NodeRes} (h : x.badFmt = false) : flowChecked s x eat k = k := by
  rw [flowChecked, if_neg (by rw [h]; decide)]

theorem flowNode_rule (h : Taken s opc nf a) (k : State → Firing → NodeRes) :
    (fun s x => if x.ready then flowChecked s x (tokPorts nf) (k s x) else .wait) s (firingAt s opc nf) =
      k s (firingAt s opc nf) := by
  dsimp only
  rw [if_pos h.ready, flowChecked_eq h.fmts]

theorem flowNode_out {k : State → Firing → NodeRes} {eat : List (BitVec 2)} {rs : List Pair} (hs : s.CanStart)
    (h : Taken s opc nf a) (hk : k s (firingAt s opc nf) = .out s1 eat rs 0) :
    flowNode s opc nf k = .next (s.fired s1 opc nf eat rs) :=
  fireNode_out hs ((flowNode_rule h k).trans hk)

theorem flowNode_out_after {k : State → Firing → NodeRes} {eat : List (BitVec 2)} {rs : List Pair} {after : Word}
    (hs : s.CanStart) (h : Taken s opc nf a) (hk : k s (firingAt s opc nf) = .out s1 eat rs after) :
    flowNode s opc nf k = .next (finishFire s1 (firingAt s opc nf) eat
      (rs.map fun p => departures (s1.fab s.site.r) nf s.site.row s.site.col p.1 p.2) (firstTok rs) after) :=
  fireNode_out_after hs ((flowNode_rule h k).trans hk)

theorem flowNode_sent {k : State → Firing → NodeRes} {eat : List (BitVec 2)} {dss : List (List Dep)} {t : Option Token}
    (hs : s.CanStart) (h : Taken s opc nf a) (hk : k s (firingAt s opc nf) = .sent s1 eat dss t) :
    flowNode s opc nf k = .next (finishFire s1 (firingAt s opc nf) eat dss t 0) :=
  fireNode_sent hs ((flowNode_rule h k).trans hk)

theorem flowNode_wait {k : State → Firing → NodeRes} (hs : s.CanStart) (h : Taken s opc nf a)
    (hk : k s (firingAt s opc nf) = .wait) : flowNode s opc nf k = .next s :=
  fireNode_wait hs ((flowNode_rule h k).trans hk)

/-- A firing that takes one port alone has that port's token or none. -/
theorem Firing.port_alone (x : Firing) (i j : BitVec 2) :
    (x.alone i).port j = if j = i ∧ i ≠ 3 then x.port i else none := by
  have hcases : ∀ i : BitVec 2, i = 0 ∨ i = 1 ∨ i = 2 ∨ i = 3 := by decide
  obtain rfl | rfl | rfl | rfl := hcases i <;> obtain rfl | rfl | rfl | rfl := hcases j <;> rfl

theorem Firing.port_of_port_alone {x : Firing} {i j : BitVec 2} {u : Token} (h : (x.alone i).port j = some u) :
    x.port i = some u := by
  rw [Firing.port_alone] at h
  split at h
  · exact h
  · exact absurd h (by simp)

/-- A port's token of a format that exists passes the check of a firing that takes it alone. -/
theorem Firing.badFmt_alone {x : Firing} {i : BitVec 2} (hp : x.port i = some t) (hf : fmtReserved t.fmt = false) :
    (x.alone i).badFmt = false := by
  rw [Firing.badFmt, List.any_eq_false]
  intro u hu
  obtain ⟨j, -, hj⟩ := List.mem_filterMap.mp hu
  rw [Option.some.inj ((Firing.port_of_port_alone hj).symm.trans hp), hf]
  decide

/-! ### STEER, NEXT, SELX, SWITCH -/

theorem kind_beq_false {k k' : BitVec 3} (h : k ≠ k') : (k == k') = false := beq_false_of_ne h

theorem exec_steer (hs : s.CanStart) (h : Taken s 0x50 nf a) (hk : a.kind ≠ kSTOP)
    (hb : nf.arity ≠ 2 ∨ ((firingAt s 0x50 nf).b = some b ∧ b.kind ≠ kERROR ∧ b.kind ≠ kBUBBLE)) :
    exec (.steer nf) s = .next (s.fired s 0x50 nf (tokPorts nf)
      [if (if nf.arity = 2 then b else a).pred then (some a, if nf.var = 1 then some a.bubble else none)
       else (if nf.var = 1 then some a.bubble else none, some a)]) := by
  change execSteer nf s = _
  rw [execSteer]
  refine fireNode_out hs ?_
  rw [h.a]
  dsimp only
  rw [kind_beq_false hk, h.ready]
  simp only [Bool.false_and, Bool.false_eq_true, if_false, Bool.not_true, beq_iff_eq]
  rw [flowChecked_eq h.fmts]
  by_cases har : nf.arity = 2
  · obtain ⟨hb, he, hbb⟩ := hb.resolve_left (not_not.mpr har)
    simp only [har, hb, Option.getD_some, if_true, kind_beq_false he, kind_beq_false hbb, beq_self_eq_true, Bool.true_and,
      Bool.false_eq_true, if_false]
    rfl
  · simp only [har, if_false, beq_false_of_ne har, Bool.false_and, Bool.false_eq_true]
    rfl

theorem exec_steer_stop (hs : s.CanStart) (ha : (firingAt s 0x50 nf).a = some a) (hk : a.kind = kSTOP) (hka : nf.ka = 0)
    (hf : fmtReserved a.fmt = false) : exec (.steer nf) s = .next (s.fired s 0x50 nf [0] [both a]) := by
  change execSteer nf s = _
  rw [execSteer]
  refine fireNode_out hs ?_
  rw [ha]
  dsimp only
  rw [if_pos (by rw [hk, hka]; decide), flowChecked_eq (Firing.badFmt_alone (show (firingAt s 0x50 nf).port 0 = some a from ha) hf)]

theorem exec_next (hs : s.CanStart) (h : Taken s 0x54 nf a) (hb : (firingAt s 0x54 nf).b = some b)
    (hu : b.kind ≠ kERROR ∧ b.kind ≠ kBUBBLE) :
    exec (.next nf) s =
      .next (s.fired s 0x54 nf (tokPorts nf) [if b.pred then (some a, none) else (none, some a)]) := by
  change execNext nf s = _
  rw [execNext]
  refine flowNode_out hs h ?_
  rw [h.a, hb]
  dsimp only
  rw [kind_beq_false hu.1, kind_beq_false hu.2, if_neg (by decide), if_neg (by decide)]
  rfl

section Selx

/-- SELX with a usable index goes by its value. -/
theorem selx_rule (hs : s.CanStart) (h : Taken s 0x61 nf a) (hb : (firingAt s 0x61 nf).b = some b)
    (hc : (firingAt s 0x61 nf).c = some c) (hu : a.kind ≠ kERROR ∧ a.kind ≠ kBUBBLE) {eat : List (BitVec 2)} {rs : List Pair}
    (h0 : indexOf a = 0 → NodeRes.out s1 eat rs 0 = oneOut s (firingAt s 0x61 nf) b)
    (h1 : indexOf a = 1 → NodeRes.out s1 eat rs 0 = oneOut s (firingAt s 0x61 nf) c)
    (h2 : ∀ n, indexOf a = n + 2 → NodeRes.out s1 eat rs 0 = errOut s (firingAt s 0x61 nf) cINDEX_RANGE) :
    exec (.selx nf) s = .next (s.fired s1 0x61 nf eat rs) := by
  change execSelx nf s = _
  rw [execSelx]
  refine flowNode_out hs h ?_
  rw [h.a, hb, hc]
  dsimp only
  rw [kind_beq_false hu.1, kind_beq_false hu.2, if_neg (by decide), if_neg (by decide)]
  obtain hn | hn | ⟨n, hn⟩ : indexOf a = 0 ∨ indexOf a = 1 ∨ ∃ n, indexOf a = n + 2 := by
    rcases indexOf a with _ | _ | n
    exacts [.inl rfl, .inr (.inl rfl), .inr (.inr ⟨n, rfl⟩)]
  · rw [hn]; exact (h0 hn).symm
  · rw [hn]; exact (h1 hn).symm
  · rw [hn]; exact (h2 n hn).symm

end Selx

section Switch

/-- SWITCH with a usable index: an entry to its destination, or to all for a STOP. -/
theorem exec_switch_to (hs : s.CanStart) (h : Taken s 0x60 nf a) (hb : (firingAt s 0x60 nf).b = some b)
    (hu : b.kind ≠ kERROR ∧ b.kind ≠ kBUBBLE) (hk : a.kind ≠ kSTOP) (hi : indexOf b < (nf.imm.extractLsb' 0 6).toNat + 1) :
    exec (.switch nf) s = .next (finishFire s (firingAt s 0x60 nf) (tokPorts nf)
      [switchDep nf s.site.row s.site.col a (indexOf b)] (some a) 0) := by
  change execSwitch nf s = _
  rw [execSwitch]
  refine flowNode_sent hs h ?_
  rw [h.a, hb]
  dsimp only
  rw [kind_beq_false hu.1, kind_beq_false hu.2, kind_beq_false hk, if_neg (by decide), if_neg (by decide), if_neg (by decide), if_pos hi]
  rfl

theorem exec_switch_stop (hs : s.CanStart) (h : Taken s 0x60 nf a) (hb : (firingAt s 0x60 nf).b = some b)
    (hu : b.kind ≠ kERROR ∧ b.kind ≠ kBUBBLE) (hk : a.kind = kSTOP) :
    exec (.switch nf) s = .next (finishFire s (firingAt s 0x60 nf) (tokPorts nf)
      [(List.range ((nf.imm.extractLsb' 0 6).toNat + 1)).flatMap (switchDep nf s.site.row s.site.col a)] (some a) 0) := by
  change execSwitch nf s = _
  rw [execSwitch]
  refine flowNode_sent hs h ?_
  rw [h.a, hb]
  dsimp only
  rw [kind_beq_false hu.1, kind_beq_false hu.2, hk, if_neg (by decide), if_neg (by decide), if_pos (by decide)]
  rfl

theorem exec_switch_range (hs : s.CanStart) (h : Taken s 0x60 nf a) (hb : (firingAt s 0x60 nf).b = some b)
    (hu : b.kind ≠ kERROR ∧ b.kind ≠ kBUBBLE) (hk : a.kind ≠ kSTOP) (hi : (nf.imm.extractLsb' 0 6).toNat + 1 ≤ indexOf b) :
    exec (.switch nf) s = .next (s.fired (noteFault s s.site 0x83 (firingAt s 0x60 nf).info) 0x60 nf (tokPorts nf)
      [(none, some ((firingAt s 0x60 nf).error 0x83))]) := by
  change execSwitch nf s = _
  rw [execSwitch]
  refine flowNode_out hs h ?_
  rw [h.a, hb]
  dsimp only
  rw [kind_beq_false hu.1, kind_beq_false hu.2, kind_beq_false hk, if_neg (by decide), if_neg (by decide), if_neg (by decide),
    if_neg (Nat.not_lt.mpr hi)]
  rfl

end Switch

/-! ### MERGE, STOPG, DELAY, SINK, DUP -/

theorem exec_merge_unordered {i : BitVec 2} (hs : s.CanStart) (hord : fORD nf = false)
    (hi : mergePort (firingAt s 0x51 nf) = some i) (hp : (firingAt s 0x51 nf).port i = some t) (hf : fmtReserved t.fmt = false) :
    exec (.merge nf) s = .next (s.fired s 0x51 nf [i] [both t]) := by
  change execMerge nf s = _
  rw [execMerge]
  refine fireNode_out hs ?_
  rw [hi]
  dsimp only
  rw [if_neg (by rw [hord]; decide), hp]
  exact flowChecked_eq (Firing.badFmt_alone hp hf)

theorem exec_stopg_drops (hs : s.CanStart) (h : Taken s 0x5C nf a) (hv : nf.var = 1) (hk : a.kind = kSTOP)
    (hl : (stopLevel a).toNat ≤ (nf.imm.extractLsb' 0 2).toNat) :
    exec (.stopg nf) s = .next (s.fired s 0x5C nf (tokPorts nf) []) := by
  change execStopg nf s = _
  rw [execStopg]
  refine flowNode_out hs h ?_
  rw [h.a]
  dsimp only
  rw [hv, if_pos (by decide), if_pos (by rw [hk, decide_eq_true hl]; decide)]
  rfl

theorem exec_stopg_passes (hs : s.CanStart) (h : Taken s 0x5C nf a) (hv : nf.var = 1)
    (hk : a.kind ≠ kSTOP ∨ (nf.imm.extractLsb' 0 2).toNat < (stopLevel a).toNat) :
    exec (.stopg nf) s = .next (s.fired s 0x5C nf (tokPorts nf) [both a]) := by
  change execStopg nf s = _
  rw [execStopg]
  refine flowNode_out hs h ?_
  rw [h.a]
  dsimp only
  rw [hv, if_pos (by decide), if_neg]
  · rfl
  · rw [Bool.and_eq_true, beq_iff_eq, decide_eq_true_eq]
    exact fun ⟨hs, hl⟩ => hk.elim (fun hn => hn hs) (fun hlt => absurd hl (Nat.not_le.mpr hlt))

theorem exec_stopg_marks (hs : s.CanStart) (h : Taken s 0x5C nf a) (hv : nf.var ≠ 1) :
    exec (.stopg nf) s = .next (s.fired s 0x5C nf (tokPorts nf) ((a :: markStops a).map both)) := by
  change execStopg nf s = _
  rw [execStopg]
  refine flowNode_out hs h ?_
  rw [h.a]
  dsimp only
  rw [if_neg (by rw [beq_false_of_ne hv]; decide)]

theorem exec_delay (hs : s.CanStart) (h : Taken s 0x5D nf a) :
    exec (.delay nf) s = .next (finishFire s (firingAt s 0x5D nf) (tokPorts nf)
      [departures (s.fab s.site.r) nf s.site.row s.site.col (some a) (some a)] (some a)
      (s.fclock + (nf.imm.extractLsb' 0 16).zeroExtend 64)) := by
  change execDelay nf s = _
  rw [execDelay]
  refine flowNode_out_after (rs := [both a]) hs h ?_
  rw [h.a]

section Sink

/-- A SINK that has not reported counts what it must and drops the token. -/
theorem exec_sink_drops (hs : s.CanStart) (h : Taken s 0x5E nf a) (hr : (s.node s.site).reported = false) (hv : nf.var ≠ 1)
    (hk : a.kind ≠ kDONE) : exec (.sink nf) s = .next (s.fired s 0x5E nf (tokPorts nf) []) := by
  change execSink nf s = _
  rw [execSink]
  refine fireNode_out hs ?_
  rw [h.a]
  dsimp only
  rw [h.ready, if_neg (by decide), show (s.node (firingAt s 0x5E nf).n).reported = false from hr, if_neg (by decide),
    flowChecked_eq h.fmts, beq_false_of_ne hv, beq_false_of_ne hk, if_neg (by decide)]
  rfl

theorem exec_sink_counts (hs : s.CanStart) (h : Taken s 0x5E nf a) (hr : (s.node s.site).reported = false)
    (hk : nf.var = 1 ∨ a.kind = kDONE) :
    exec (.sink nf) s = .next (s.fired (s.updNode s.site fun y =>
      { y with count := y.count + 1, reported := decide (nf.imm.toNat ≤ y.count + 1) }) 0x5E nf (tokPorts nf) []) := by
  change execSink nf s = _
  rw [execSink]
  refine fireNode_out hs ?_
  rw [h.a]
  dsimp only
  rw [h.ready, if_neg (by decide), show (s.node (firingAt s 0x5E nf).n).reported = false from hr, if_neg (by decide),
    flowChecked_eq h.fmts, if_pos (by rw [Bool.or_eq_true, beq_iff_eq, beq_iff_eq]; exact hk)]
  rfl

theorem exec_sink_reported (hs : s.CanStart) (h : Taken s 0x5E nf a) (hr : (s.node s.site).reported = true) :
    exec (.sink nf) s = .next (s.fired (noteFault s s.site 0x8F (firingAt s 0x5E nf).info) 0x5E nf (tokPorts nf)
      [both ((firingAt s 0x5E nf).error 0x8F)]) := by
  change execSink nf s = _
  rw [execSink]
  refine fireNode_out hs ?_
  rw [h.a]
  dsimp only
  rw [h.ready, if_neg (by decide), show (s.node (firingAt s 0x5E nf).n).reported = true from hr]
  rfl

end Sink

theorem exec_dup (hs : s.CanStart) (h : Taken s 0x5F nf a) :
    exec (.dup nf) s = .next (s.fired s 0x5F nf (tokPorts nf) ((List.range ((nf.imm.extractLsb' 0 16).toNat + 1)).map fun k =>
      both (if nf.var = 1 then { a with seq := BitVec.ofNat 16 k } else a))) := by
  change execDup nf s = _
  rw [execDup]
  refine flowNode_out hs h ?_
  rw [h.a]
  simp only [beq_iff_eq]

/-! ### CNT and CONST -/

section Cnt
variable {k : BitVec 32} {adds : Nat}

theorem exec_cnt_up (hs : s.CanStart) (hi : mergePort (firingAt s 0x65 nf) = some 0)
    (hp : (firingAt s 0x65 nf).port 0 = some t) (hf : fmtReserved t.fmt = false)
    (hc : cntAt (s.fab s.site.r) s.site = (k, adds)) :
    exec (.cnt nf) s = .next (s.fired (setCnt s s.site (k + 1, adds + 1)) 0x65 nf [0] [(some t, none)]) := by
  change execCnt nf s = _
  rw [execCnt]
  refine fireNode_out hs ?_
  rw [hi]
  dsimp only
  rw [cntFire, hp, show cntAt (s.fab (firingAt s 0x65 nf).n.r) (firingAt s 0x65 nf).n = _ from hc]
  exact (flowChecked_eq (Firing.badFmt_alone hp hf)).trans (if_pos rfl)

theorem exec_cnt_down (hs : s.CanStart) (hi : mergePort (firingAt s 0x65 nf) = some 1)
    (hp : (firingAt s 0x65 nf).port 1 = some t) (hf : fmtReserved t.fmt = false)
    (hc : cntAt (s.fab s.site.r) s.site = (k, adds)) (hn : k ≠ 0) (hv : ¬(k = 1 ∧ nf.var = 1)) :
    exec (.cnt nf) s = .next (s.fired (setCnt s s.site (k - 1, adds)) 0x65 nf [1] []) := by
  change execCnt nf s = _
  rw [execCnt]
  refine fireNode_out hs ?_
  rw [hi]
  dsimp only
  rw [cntFire, hp, show cntAt (s.fab (firingAt s 0x65 nf).n.r) (firingAt s 0x65 nf).n = _ from hc]
  refine (flowChecked_eq (Firing.badFmt_alone hp hf)).trans ((if_neg (by decide)).trans ((if_neg hn).trans (if_neg ?_)))
  rw [Bool.and_eq_true, decide_eq_true_eq, beq_iff_eq]
  exact hv

theorem exec_cnt_zero (hs : s.CanStart) (hi : mergePort (firingAt s 0x65 nf) = some 1)
    (hp : (firingAt s 0x65 nf).port 1 = some t) (hf : fmtReserved t.fmt = false)
    (hc : cntAt (s.fab s.site.r) s.site = (1, adds)) (hv : nf.var = 1) :
    exec (.cnt nf) s = .next (s.fired (setCnt s s.site (0, adds)) 0x65 nf [1]
      [(none, some (((firingAt s 0x65 nf).alone 1).result kCTRL 7 0 (packLanes 32 [adds])))]) := by
  change execCnt nf s = _
  rw [execCnt]
  refine fireNode_out hs ?_
  rw [hi]
  dsimp only
  rw [cntFire, hp, show cntAt (s.fab (firingAt s 0x65 nf).n.r) (firingAt s 0x65 nf).n = _ from hc]
  exact (flowChecked_eq (Firing.badFmt_alone hp hf)).trans
    ((if_neg (by decide)).trans ((if_neg (by decide)).trans (if_pos (by rw [hv]; decide))))

end Cnt

theorem exec_const_trigger (hs : s.CanStart) (h : Taken s 0x66 nf a) (har : nf.arity ≠ 0)
    (hu : a.kind ≠ kERROR ∧ a.kind ≠ kBUBBLE) (hk : a.kind ≠ kSTOP) :
    exec (.const nf) s = .next (s.fired s 0x66 nf (tokPorts nf)
      [both { immToken s.site nf.fmt nf.imm 0 with kind := constKind nf.var, seq := (firingAt s 0x66 nf).seq }]) := by
  change execConst nf s = _
  rw [execConst]
  refine fireNode_out hs ?_
  dsimp only
  rw [if_neg (by rw [beq_false_of_ne har]; decide), h.ready, if_neg (by decide), h.a]
  dsimp only
  rw [flowChecked_eq h.fmts, kind_beq_false hu.1, kind_beq_false hu.2, kind_beq_false hk, if_neg (by decide), if_neg (by decide),
    if_neg (by decide)]
  rfl

theorem exec_const_once (hs : s.CanStart) (har : nf.arity = 0) (hc : s.site.ctx = 0) (hi : s.site.iter = 0)
    (hr : (s.node s.site).reported = false) :
    exec (.const nf) s = .next (s.fired (tookFree (s.updNode s.site fun y => { y with reported := true }) s.site) 0x66 nf []
      [both { immToken s.site nf.fmt nf.imm 0 with kind := constKind nf.var, seq := freeSeq s s.site }]) := by
  change execConst nf s = _
  rw [execConst]
  refine fireNode_out hs ?_
  dsimp only
  rw [har, if_pos (by decide)]
  refine (if_pos ?_).trans rfl
  change (s.site.ctx == 0 && s.site.iter == 0 && !(s.node s.site).reported) = true
  rw [hc, hi, hr]
  decide

theorem exec_delayRelease {n : Site} {e : OutEntry} (hg : regionGoing s n.r = true)
    (hf : (s.fab n.r).outq.find? (fun e => e.row == n.row && e.col == n.col && e.slot == n.slot && e.after != 0) = some e)
    (ht : e.after.toNat ≤ s.fclock.toNat) :
    exec (.delayRelease n) s = .next (s.updFab n.r fun f => { f with
      outq := f.outq.map fun o => if o.id = e.id then { o with after := 0 } else o }) := by
  change execDelayRelease n s = _
  rw [execDelayRelease, hg, if_neg (by decide), hf]
  exact if_pos ht

/-- Settles O42: node by node. -/
theorem flowNodesSendTheirTokens : Obligations.FlowNodesSendTheirTokens := by
  unfold Obligations.FlowNodesSendTheirTokens
  intro s nf a b c hs
  dsimp only
  refine ⟨fun h => exec_steer hs (taken_of h), exec_steer_stop hs, fun h => exec_next hs (taken_of h), fun h hb hc hu => ⟨?_, ?_, ?_⟩,
    fun h hb hu => ⟨exec_switch_to hs (taken_of h) hb hu, exec_switch_stop hs (taken_of h) hb hu,
      exec_switch_range hs (taken_of h) hb hu⟩,
    fun i t hord h => exec_merge_unordered hs hord h.1 h.2.1 h.2.2,
    fun h => ⟨exec_stopg_drops hs (taken_of h), exec_stopg_passes hs (taken_of h), exec_stopg_marks hs (taken_of h)⟩,
    fun h => exec_delay hs (taken_of h), fun h hr => ⟨exec_sink_drops hs (taken_of h) hr, exec_sink_counts hs (taken_of h) hr⟩,
    fun h => exec_sink_reported hs (taken_of h), fun h => exec_dup hs (taken_of h),
    ⟨fun t h => exec_cnt_up hs h.1 h.2.1 h.2.2 rfl, fun t h => exec_cnt_down hs h.1 h.2.1 h.2.2 rfl,
      fun t h h1 => exec_cnt_zero hs h.1 h.2.1 h.2.2 (Prod.ext h1 rfl)⟩,
    fun h => exec_const_trigger hs (taken_of h), exec_const_once hs, fun e => exec_delayRelease⟩
  · exact fun hi => selx_rule hs (taken_of h) hb hc hu (fun _ => rfl) (fun h1 => absurd (hi.symm.trans h1) (by decide))
      fun n hn => absurd (hi.symm.trans hn) (by omega)
  · exact fun hi => selx_rule hs (taken_of h) hb hc hu (fun h0 => absurd (hi.symm.trans h0) (by decide)) (fun _ => rfl)
      fun n hn => absurd (hi.symm.trans hn) (by omega)
  · exact fun hi => selx_rule hs (taken_of h) hb hc hu (fun h0 => absurd (h0 ▸ hi : 2 ≤ 0) (by decide))
      (fun h1 => absurd (h1 ▸ hi : 2 ≤ 1) (by decide)) fun n _ => rfl

end Sys2Proof.Machine
end

section
/-!
PROOFS. Contexts: loops, calls, done tokens, and contexts that return (R30 to R32, R250 to R253, R265).
-/

namespace Sys2Proof.Machine

open Sys2Proof

variable {s s1 : State} {nf : NodeFields} {t : Token} {g : Cfg} {r : RegionId}

/-! ### LOOP -/

/-- A LOOP that holds no token takes the head of port i, which comes first. -/
structure LoopFirst (s : State) (nf : NodeFields) (i : BitVec 2) (t : Token) : Prop where
  first : mergePort { firingAt s 0x53 nf with arr := (firingAt s 0x53 nf).arr.filter (·.1 != 2) } = some i
  port : (firingAt s 0x53 nf).port i = some t
  fmt : fmtReserved t.fmt = false

theorem orElseRes_out {eat : List (BitVec 2)} {rs : List Pair} {after : Word} {a : NodeRes} (f : State → NodeRes)
    (h : a = .out s1 eat rs after) : orElseRes s a f = .out s1 eat rs after := by
  subst h
  rfl

theorem exec_loop_entry {eat : List (BitVec 2)} {rs : List Pair} (hs : s.CanStart) (hh : heldTok s s.site = none)
    (hf : LoopFirst s nf 0 t) (he : loopEnter s nf ((firingAt s 0x53 nf).alone 0) t false = .out s1 eat rs 0) :
    exec (.loop nf) s = .next (s.fired s1 0x53 nf eat rs) := by
  change execLoop nf s = _
  rw [execLoop]
  refine fireNode_out hs ?_
  rw [show heldTok s (firingAt s 0x53 nf).n = none from hh]
  dsimp only
  rw [hf.first]
  dsimp only
  refine orElseRes_out _ ?_
  rw [hf.port]
  exact (flowChecked_eq (Firing.badFmt_alone hf.port hf.fmt)).trans ((if_pos rfl).trans he)

theorem exec_loop_back {eat : List (BitVec 2)} {rs : List Pair} (hs : s.CanStart) (hh : heldTok s s.site = none)
    (hf : LoopFirst s nf 1 t) (he : loopBack s nf ((firingAt s 0x53 nf).alone 1) t = .out s1 eat rs 0) :
    exec (.loop nf) s = .next (s.fired s1 0x53 nf eat rs) := by
  change execLoop nf s = _
  rw [execLoop]
  refine fireNode_out hs ?_
  rw [show heldTok s (firingAt s 0x53 nf).n = none from hh]
  dsimp only
  rw [hf.first]
  dsimp only
  refine orElseRes_out _ ?_
  rw [hf.port]
  exact (flowChecked_eq (Firing.badFmt_alone hf.port hf.fmt)).trans ((if_neg (by decide)).trans he)

section Enter
variable {x : Firing}

/-- The open binding that an entry keeps: of its loop, for its parent. -/
def keptBinding (nf : NodeFields) (t : Token) (b : Binding) : Bool :=
  b.lid == some (nf.imm.extractLsb' 0 6) && b.pctx == t.ctx && b.piter == t.iter && !b.closed

theorem loopEnter_refused (he : entryOk (s.fab x.n.r) nf t = false) :
    loopEnter s nf x t false = .out (noteFault s x.n 0x8F x.info) [0] [both (x.error 0x8F)] 0 := by
  rw [loopEnter, he]
  rfl

theorem loopEnter_known {b : Binding} (he : entryOk (s.fab x.n.r) nf t = true)
    (hb : (s.fab x.n.r).bindings.find? (keptBinding nf t) = some b) :
    loopEnter s nf x t false = .out s [0] [both { t with ctx := b.ctx, iter := 0 }] 0 := by
  rw [loopEnter, he]
  unfold keptBinding at hb
  dsimp only
  rw [if_neg (by decide), hb]
  rfl

theorem loopEnter_draws {c : BitVec 12} (he : entryOk (s.fab x.n.r) nf t = true)
    (hb : (s.fab x.n.r).bindings.find? (keptBinding nf t) = none) (hg : (s.ctl x.n.r).cfg = some g)
    (hd : drawContext s x.n g (nf.imm.extractLsb' 20 2 == 2#2) = .got c) :
    loopEnter s nf x t false =
      .out (addBinding s x.n ⟨c, some (nf.imm.extractLsb' 0 6), t.ctx, t.iter, 0, 0, false, x.n.row, x.n.col, 0⟩) [0]
        [both { t with ctx := c, iter := 0 }] 0 := by
  rw [loopEnter, he]
  unfold keptBinding at hb
  dsimp only
  rw [if_neg (by decide), hb]
  dsimp only
  rw [hg]
  dsimp only
  rw [hd]
  rfl

theorem loopBack_within {b : Binding} (hb : openBinding (s.fab x.n.r) t.ctx = some b)
    (hl : b.lid = some (nf.imm.extractLsb' 0 6))
    (hw : (t.iter - BitVec.ofNat 16 b.done).toNat < (nf.imm.extractLsb' 6 8).toNat + 1) :
    loopBack s nf x t = .out s [1] [both t] 0 := by
  rw [loopBack, hb, Option.filter_some, if_pos (by rw [hl, beq_self_eq_true])]
  exact if_pos hw

end Enter

/-! ### LEXIT, CALL, RET -/

theorem exec_lexit {b : Binding} (hs : s.CanStart) (hg : (s.ctl s.site.r).cfg = some g) (h : Taken s 0x55 nf t)
    (hb : openBinding (s.fab s.site.r) t.ctx = some b) (hl : b.lid = some (nf.imm.extractLsb' 0 6))
    (hw : b.exits + 1 < lexitCount g (nf.imm.extractLsb' 0 6) ∨ leaveWaits s s.site.r (·.1 == t.ctx) = false) :
    let ds := departures (s.fab s.site.r) nf s.site.row s.site.col (some t) (some t)
    let left := s.updFab s.site.r fun f => { f with bindings := f.bindings.map fun e =>
      if e.ctx == t.ctx && !e.closed then { e with exits := e.exits + 1 } else e }
    exec (.lexit nf) s = .next (finishFire
      (if lexitCount g (nf.imm.extractLsb' 0 6) ≤ b.exits + 1 then closeBinding left s.site.r t.ctx (entryId (s.fab s.site.r) ds)
        else left) (firingAt s 0x55 nf) (tokPorts nf) [ds] (some t) 0) := by
  change execLexit nf s = _
  rw [execLexit]
  refine flowNode_sent hs h ?_
  rw [h.a, show (s.ctl (firingAt s 0x55 nf).n.r).cfg = some g from hg]
  dsimp only
  rw [show openBinding (s.fab (firingAt s 0x55 nf).n.r) t.ctx = some b from hb, Option.filter_some,
    if_pos (by rw [hl, beq_self_eq_true])]
  refine (if_neg ?_).trans rfl
  rw [Bool.and_eq_true, decide_eq_true_eq]
  rintro ⟨hle, hwait⟩
  exact hw.elim (fun hlt => absurd hle (Nat.not_le.mpr hlt)) (fun hno => Bool.false_ne_true (hno.symm.trans hwait))

section Call

theorem exec_call_got {c : BitVec 12} (hs : s.CanStart) (hg : (s.ctl s.site.r).cfg = some g) (hh : heldTok s s.site = none)
    (h : Taken s 0x56 nf t) (hd : drawContext s s.site g true = .got c) :
    exec (.call nf) s = .next
      (s.fired (addBinding s s.site ⟨c, none, t.ctx, t.iter, 0, 0, false, s.site.row, s.site.col, nf.route1⟩) 0x56 nf (tokPorts nf)
        [(some { t with ctx := c, iter := 0 }, none)]) := by
  change execCall nf s = _
  rw [execCall]
  refine fireNode_out hs ?_
  rw [show heldTok s (firingAt s 0x56 nf).n = none from hh, h.a]
  dsimp only
  rw [if_pos h.ready, flowChecked_eq h.fmts, callEnter, show (s.ctl (firingAt s 0x56 nf).n.r).cfg = some g from hg]
  dsimp only
  rw [show drawContext s (firingAt s 0x56 nf).n g true = .got c from hd]
  rfl

theorem exec_call_parks (hs : s.CanStart) (hg : (s.ctl s.site.r).cfg = some g) (hh : heldTok s s.site = none)
    (h : Taken s 0x56 nf t) (hd : drawContext s s.site g true = .dry) (hw : (s.ctl s.site.r).ctxwait.extractLsb' 0 32 = 0#32) :
    exec (.call nf) s = .next (parkFiring s (firingAt s 0x56 nf) 0x82 (firingAt s 0x56 nf).info none) := by
  change execCall nf s = _
  rw [execCall]
  refine fireNode_park hs ?_
  rw [show heldTok s (firingAt s 0x56 nf).n = none from hh, h.a]
  dsimp only
  rw [if_pos h.ready, flowChecked_eq h.fmts, callEnter, show (s.ctl (firingAt s 0x56 nf).n.r).cfg = some g from hg]
  dsimp only
  rw [show drawContext s (firingAt s 0x56 nf).n g true = .dry from hd]
  dsimp only
  rw [dryDraw, if_neg (by decide)]
  exact if_pos (beq_iff_eq.mpr hw)

theorem exec_call_held (hs : s.CanStart) (hg : (s.ctl s.site.r).cfg = some g) (hh : heldTok s s.site = none)
    (h : Taken s 0x56 nf t) (hd : drawContext s s.site g true = .dry) (hw : (s.ctl s.site.r).ctxwait.extractLsb' 0 32 ≠ 0#32) :
    exec (.call nf) s = .next
      (s.fired ((noteChoice s s.site .dry).updNode s.site fun y => { y with held := y.held ++ [(t, s.fclock)] }) 0x56 nf [0] []) := by
  change execCall nf s = _
  rw [execCall]
  refine fireNode_out hs ?_
  rw [show heldTok s (firingAt s 0x56 nf).n = none from hh, h.a]
  dsimp only
  rw [if_pos h.ready, flowChecked_eq h.fmts, callEnter, show (s.ctl (firingAt s 0x56 nf).n.r).cfg = some g from hg]
  dsimp only
  rw [show drawContext s (firingAt s 0x56 nf).n g true = .dry from hd]
  dsimp only
  rw [dryDraw, if_neg (by decide)]
  exact if_neg fun hz => hw (beq_iff_eq.mp hz)

end Call

theorem exec_ret_without_call (hs : s.CanStart) (h : Taken s 0x57 nf t)
    (hb : ∀ b, openBinding (s.fab s.site.r) t.ctx = some b → b.lid ≠ none) :
    exec (.ret nf) s = .next (s.fired (noteFault s s.site 0x8F (firingAt s 0x57 nf).info) 0x57 nf (tokPorts nf)
      [both ((firingAt s 0x57 nf).error 0x8F)]) := by
  have hnone : (openBinding (s.fab (firingAt s 0x57 nf).n.r) t.ctx).filter (fun b => b.lid == none) = none :=
    Option.filter_eq_none_iff.mpr fun b hob hl => hb b hob (beq_iff_eq.mp hl)
  change execRet nf s = _
  rw [execRet]
  refine flowNode_out hs h ?_
  rw [h.a]
  dsimp only
  rw [hnone]
  rfl

theorem exec_ret {b : Binding} (hs : s.CanStart) (h : Taken s 0x57 nf t)
    (hb : openBinding (s.fab s.site.r) t.ctx = some b) (hl : b.lid = none) (hw : leaveWaits s s.site.r (·.1 == t.ctx) = false) :
    let d := routeDest b.cont b.row b.col
    let t' := { t with
      ctx := b.pctx, iter := b.piter, drow := BitVec.ofInt 5 d.row, dcol := BitVec.ofInt 6 d.col,
      node := b.cont.extractLsb' 12 6, port := b.cont.extractLsb' 10 2 }
    exec (.ret nf) s = .next (finishFire (closeBinding s s.site.r t.ctx (some (s.fab s.site.r).nextId)) (firingAt s 0x57 nf)
      (tokPorts nf) [[⟨false, d, t'⟩]] (some t') 0) := by
  change execRet nf s = _
  rw [execRet]
  refine flowNode_sent hs h ?_
  rw [h.a]
  dsimp only
  rw [show openBinding (s.fab (firingAt s 0x57 nf).n.r) t.ctx = some b from hb, Option.filter_some,
    if_pos (by rw [hl]; rfl)]
  exact (if_neg (fun ht => Bool.false_ne_true (hw.symm.trans ht))).trans rfl

/-! ### Done tokens -/

/-- A region's control, debug state and what its fabric says of activations are the same in two states. -/
structure SameActs (r : RegionId) (s t : State) : Prop where
  ctl : t.ctl r = s.ctl r
  dbg : t.dbg r = s.dbg r
  bindings : (t.fab r).bindings = (s.fab r).bindings
  dead : (t.fab r).dead = (s.fab r).dead
  parkTab : (t.fab r).parkTab = (s.fab r).parkTab

theorem SameActs.refl (r : RegionId) (s : State) : SameActs r s s := ⟨rfl, rfl, rfl, rfl, rfl⟩

theorem State.ctl_updFab_self (s : State) (r : RegionId) (f : Fabric → Fabric) : (s.updFab r f).ctl r = s.ctl r :=
  State.ctl_updFab s r r f

theorem State.dbg_updFab_self (s : State) (r : RegionId) (f : Fabric → Fabric) : (s.updFab r f).dbg r = s.dbg r := by
  rw [State.dbg, State.dbg, State.updFab, State.region_updRegion_self]

theorem SameActs.updFab {u : State} (h : SameActs r s u) (f : Fabric → Fabric) (hb : (f (u.fab r)).bindings = (u.fab r).bindings)
    (hd : (f (u.fab r)).dead = (u.fab r).dead) (hp : (f (u.fab r)).parkTab = (u.fab r).parkTab) : SameActs r s (u.updFab r f) := by
  refine ⟨(State.ctl_updFab_self u r f).trans h.ctl, (State.dbg_updFab_self u r f).trans h.dbg, ?_, ?_, ?_⟩ <;>
    rw [State.fab_updFab_self]
  · exact hb.trans h.bindings
  · exact hd.trans h.dead
  · exact hp.trans h.parkTab

theorem sameActs_setOutq (s : State) (r : RegionId) (row : BitVec 5) (col slot : BitVec 6) (q : List OutEntry) :
    SameActs r s (setOutq s r row col slot q) := by
  have h := (SameActs.refl r s).updFab (fun f => { f with outq := q }) rfl rfl rfl
  rw [setOutq]
  split
  · exact h.updFab _ rfl rfl rfl
  · exact h

theorem sameActs_removeTok (s : State) (r : RegionId) (src : TokSrc) : SameActs r s (removeTok s r src) := by
  cases src with
  | link row col dir =>
    exact (SameActs.refl r s).updFab (fun f =>
      { f with links := eraseFirst (fun l => l.row == row && l.col == col && l.dir == dir) f.links }) rfl rfl rfl
  | out row col slot route =>
    rw [removeTok]
    split
    · exact SameActs.refl r s
    · dsimp only
      split
      · exact (sameActs_setOutq s r row col slot _).updFab _ rfl rfl rfl
      · exact sameActs_setOutq s r row col slot _

theorem SameActs.doneLid {u : State} (h : SameActs r s u) (t : Token) : doneLid u r t = doneLid s r t := by
  have hf : ∀ row col slot, fieldsAt u r row col slot = fieldsAt s r row col slot := fun row col slot => by
    rw [fieldsAt, fieldsAt, nodeWordAt, nodeWordAt, show (u.region r).ctl = (s.region r).ctl from h.ctl]
  rw [Machine.doneLid, Machine.doneLid, hf]

theorem exec_loopDoneAbsorb {src : TokSrc} {d : Dest} {row : BitVec 5} {col lid : BitVec 6}
    (ht : tokAt s r src = some (t, d, row, col)) (hd : deliverable s r src = true) (hn : nextHop row.toNat col.toNat d = none)
    (hl : doneLid s r t = some lid) (hdead : isDead (s.fab r) t.ctx t.iter = false)
    (hpark : isParked (s.fab r) t.ctx t.iter = false) (hcmp : ∀ i, cmpMatches (s.dbg r) t i = false)
    (hb : (s.fab r).bindings.any (fun b => b.ctx == t.ctx && b.lid == some lid) = true) :
    exec (.loopDoneAbsorb r src) s = .next ((removeTok s r src).updFab r fun f => { f with
      bindings := f.bindings.map fun b => if b.ctx == t.ctx && b.lid == some lid then { b with done := b.done + 1 } else b }) := by
  have hsame := sameActs_removeTok s r src
  have hnone : (List.finRange 16).filter (cmpMatches ((removeTok s r src).dbg r) t) = [] := by
    rw [hsame.dbg]
    exact List.filter_eq_nil_iff.mpr fun i _ => by rw [hcmp i]; decide
  have harr : arriveTok (removeTok s r src) r t 0 = some (absorbDone (removeTok s r src) r lid t) := by
    rw [arriveTok, isDead, hsame.dead, ← isDead, hdead, if_neg (by decide), isParked, hsame.parkTab, ← isParked, hpark, if_neg (by decide),
      deliverTok, hnone, List.foldl_nil]
    dsimp only
    rw [if_neg (by decide), storeTok, hsame.doneLid, hl]
  change execLoopDoneAbsorb r src s = _
  rw [execLoopDoneAbsorb, ht]
  dsimp only
  rw [if_pos (by rw [hd, hn, hl]; rfl), harr, orFreeze, absorbDone, hsame.bindings, if_pos hb]

/-! ### Draws that wait too long, and contexts that return -/

theorem State.CanStart.going (hs : s.CanStart) : regionGoing s s.site.r = true := by
  have h := hs.1
  simp only [canFire, Bool.and_eq_true] at h
  exact h.1.1.1.1.1.1.1

theorem State.CanStart.not_parked (hs : s.CanStart) : isParked (s.fab s.site.r) s.site.ctx s.site.iter = false := by
  have h := hs.1
  simp only [canFire, Bool.and_eq_true, Bool.not_eq_true'] at h
  exact h.1.1.1.1.1.2

theorem exec_ctxwaitExpiry {since : Word} {opc : BitVec 8} {s' : State} (hs : s.CanStart) (hg : (s.ctl s.site.r).cfg = some g)
    (hh : (s.node s.site).held.find? (fun e => e.1.ctx == s.site.ctx && e.1.iter == s.site.iter) = some (t, since))
    (hf : fieldsAt s s.site.r s.site.row s.site.col s.site.slot = some (opc, nf)) (ho : opc = 0x56 ∨ opc = 0x53)
    (he : expires s s.site g = true) (hw : ((s.ctl s.site.r).ctxwait.extractLsb' 0 32).toNat ≤ (s.fclock - since).toNat)
    (hp : park (dropHeld s s.site true) s.site 0x82 { node := nodeBits opc nf, seq := t.seq, ops := [t] } [⟨false, since, 0, t⟩] =
      .parked s') : exec (.ctxwaitExpiry s.site) s = .next (noteChoice s' s.site .expired) := by
  change execCtxwaitExpiry s.site s = _
  rw [execCtxwaitExpiry, hh, hf, hg]
  dsimp only
  rw [if_pos, show park (dropHeld s s.site true) s.site cCTX_DRY _ _ = .parked s' from hp]
  rw [hs.going, hs.not_parked, he, decide_eq_true hw]
  rcases ho with rfl | rfl <;> decide

theorem exec_contextReturn {c : BitVec 12} (hr : (s.fab r).retiring.any (fun y => y.1 == c && exitLeft (s.fab r) y.2) = true)
    (hh : ctxHeld (s.fab r) c = false) :
    ∃ s', exec (.contextReturn r c) s = .next s' ∧
      (s'.fab r).bindings = (s.fab r).bindings.filter (·.ctx != c) ∧
      (s'.fab r).retiring = (s.fab r).retiring.filter (·.1 != c) ∧
      (s'.fab r).dead = (s.fab r).dead.filter (·.1 != c) := by
  refine ⟨_, if_pos ?_, ?_, ?_, ?_⟩
  · rw [hr, hh]; rfl
  all_goals rw [State.fab_updFab_self]

/-- Settles O43: clause by clause. -/
theorem contextsAreDrawnAndReturned : Obligations.ContextsAreDrawnAndReturned := by
  unfold Obligations.ContextsAreDrawnAndReturned
  intro s nf t g hs hg
  dsimp only
  refine ⟨fun hh => ⟨fun hf he => ?_, fun b hf he hb => ?_, fun c hf he hb hd => ?_, fun b hf hb hl hw => ?_⟩,
    fun b h hb hl hw => exec_lexit hs hg (taken_of h) hb hl hw,
    fun hh h => ⟨fun c hd => exec_call_got hs hg hh (taken_of h) hd, exec_call_parks hs hg hh (taken_of h),
      exec_call_held hs hg hh (taken_of h)⟩,
    fun h hb => exec_ret_without_call hs (taken_of h) hb, fun b h hb hl hw => exec_ret hs (taken_of h) hb hl hw,
    fun r src d row col lid ht hd hn hl hdead hpark hcmp hb => exec_loopDoneAbsorb ht hd hn hl hdead hpark hcmp hb,
    fun since opc hh hf ho he hw s' hp => exec_ctxwaitExpiry hs hg hh hf ho he hw hp,
    fun r c hr hh => exec_contextReturn hr hh⟩
  · exact exec_loop_entry hs hh ⟨hf.1, hf.2.1, hf.2.2⟩ (loopEnter_refused he)
  · exact exec_loop_entry hs hh ⟨hf.1, hf.2.1, hf.2.2⟩ (loopEnter_known he hb)
  · exact exec_loop_entry hs hh ⟨hf.1, hf.2.1, hf.2.2⟩ (loopEnter_draws he hb hg hd)
  · exact exec_loop_back hs hh ⟨hf.1, hf.2.1, hf.2.2⟩ (loopBack_within hb hl hw)

end Sys2Proof.Machine
end

section
/-!
PROOFS. Ordered merges and cohorts (R33, R249, R263 to R265).
-/

namespace Sys2Proof.Machine

open Sys2Proof

variable {s : State} {nf : NodeFields} {t d : Token} {opc : BitVec 8} {i : BitVec 2}

/-! ### Ordered MERGE and REORD -/

/-- A port's head that an ordered node takes into the window of its context. -/
structure Holds (s : State) (opc : BitVec 8) (nf : NodeFields) (i : BitVec 2) (t : Token) : Prop where
  port : (firingAt s opc nf).port i = some t
  fmt : fmtReserved t.fmt = false
  stream : streamStopped s (s.node s.site) opc nf s.site i = false
  arrives : ordArr (s.node s.site) opc nf t = .hold

/-- The site of a firing is that of the state. -/
theorem firingAt_n (s : State) (opc : BitVec 8) (nf : NodeFields) : (firingAt s opc nf).n = s.site := rfl

/-- The node once it has taken an arriving token. -/
def heldNode (s : State) (nf : NodeFields) (t : Token) : NodeSt := takeArr (withCtr (s.node s.site) nf t) nf s.fclock t

theorem ordFire_due (h : Holds s opc nf i t) (hd : dueTok (s.fab s.site.r) (heldNode s nf t) nf = some d) :
    ordFire s opc nf (firingAt s opc nf) i =
      .out (s.updNode s.site fun _ => takeDue (heldNode s nf t) nf s.fclock d) [i] [both d] 0 := by
  rw [ordFire, h.port]
  dsimp only
  rw [firingAt_n, if_neg (by rw [h.stream]; decide), if_neg (by rw [h.fmt]; decide), h.arrives]
  unfold heldNode at hd ⊢
  dsimp only
  rw [hd]

theorem ordFire_none (h : Holds s opc nf i t) (hd : dueTok (s.fab s.site.r) (heldNode s nf t) nf = none) :
    ordFire s opc nf (firingAt s opc nf) i = .out (s.updNode s.site fun _ => heldNode s nf t) [i] [] 0 := by
  rw [ordFire, h.port]
  dsimp only
  rw [firingAt_n, if_neg (by rw [h.stream]; decide), if_neg (by rw [h.fmt]; decide), h.arrives]
  unfold heldNode at hd ⊢
  dsimp only
  rw [hd]

theorem ordFire_window (hp : (firingAt s opc nf).port i = some t) (hf : fmtReserved t.fmt = false)
    (hst : streamStopped s (s.node s.site) opc nf s.site i = false) (ha : ordArr (s.node s.site) opc nf t = .window) :
    ordFire s opc nf (firingAt s opc nf) i = .idle (s.updNode s.site fun y => withCtr y nf t) := by
  rw [ordFire, hp]
  dsimp only
  rw [firingAt_n, if_neg (by rw [hst]; decide), if_neg (by rw [hf]; decide), ha]

theorem exec_merge_ordered {s1 : State} {eat : List (BitVec 2)} {rs : List Pair} (hs : s.CanStart) (ho : fORD nf = true)
    (hi : mergePort (firingAt s 0x51 nf) = some i) (hk : ordFire s 0x51 nf (firingAt s 0x51 nf) i = .out s1 eat rs 0) :
    exec (.merge nf) s = .next (s.fired s1 0x51 nf eat rs) := by
  change execMerge nf s = _
  rw [execMerge]
  refine fireNode_out hs ?_
  rw [hi]
  exact (if_pos ho).trans (orElseRes_out _ hk)

theorem exec_reord {s1 : State} {eat : List (BitVec 2)} {rs : List Pair} (hs : s.CanStart)
    (hk : ordFire s 0x52 nf (firingAt s 0x52 nf) 0 = .out s1 eat rs 0) :
    exec (.reord nf) s = .next (s.fired s1 0x52 nf eat rs) := fireNode_out hs hk

theorem exec_reord_window {s1 : State} (hs : s.CanStart) (hk : ordFire s 0x52 nf (firingAt s 0x52 nf) 0 = .idle s1) :
    exec (.reord nf) s = .next s1 := fireNode_idle hs hk

/-- A fabric's bindings are all that departures ask of it: they give the parent's tag. -/
theorem departures_of_bindings {f f' : Fabric} (h : f'.bindings = f.bindings) : departures f' = departures f := by
  have hp : parentOf f' = parentOf f := funext fun c => by rw [parentOf, parentOf, h]
  have hr : routeTok f' = routeTok f := by
    funext w row col t
    rw [routeTok, routeTok, hp]
  funext nf row col t0 t1
  rw [departures, departures, hr]

theorem bindings_updNode (s : State) (n : Site) (k : NodeSt → NodeSt) : ((s.updNode n k).fab n.r).bindings = (s.fab n.r).bindings := by
  rw [State.updNode, State.fab_updFab_self]
  rfl

/-- What REORDER_DUE_EMIT does in a state whose site is the node it names. -/
def dueEmit (n : Site) (s : State) : Out :=
  match fieldsAt s n.r n.row n.col n.slot with
  | some (opc, nf) =>
    if (opc == 0x52 || (opc == 0x51 && fORD nf)) && canFire s then
      match dueTok (s.fab n.r) (s.node n) nf with
      | some d =>
        if d.ctx == n.ctx && d.iter == n.iter then
          .next (finishFire (s.updNode n fun _ => takeDue (s.node n) nf s.fclock d) ⟨n, opc, nf, none, none, none, none, []⟩ []
            [departures ((s.updNode n fun _ => takeDue (s.node n) nf s.fclock d).fab n.r) nf n.row n.col (some d) (some d)]
            (some d) 0)
        else .next s
      | none => .next s
    else .next s
  | none => .next s

theorem exec_reorderDueEmit (hs : s.CanStart) (hf : fieldsAt s s.site.r s.site.row s.site.col s.site.slot = some (opc, nf))
    (ho : opc = 0x52 ∨ (opc = 0x51 ∧ fORD nf = true)) (hd : dueTok (s.fab s.site.r) (s.node s.site) nf = some d)
    (hc : d.ctx = s.site.ctx) (hi : d.iter = s.site.iter) :
    exec (.reorderDueEmit s.site) s = .next (finishFire (s.updNode s.site fun _ => takeDue (s.node s.site) nf s.fclock d)
      ⟨s.site, opc, nf, none, none, none, none, []⟩ [] [departures (s.fab s.site.r) nf s.site.row s.site.col (some d) (some d)]
      (some d) 0) := by
  have hgo : ((opc == 0x52 || (opc == 0x51 && fORD nf)) && canFire s) = true := by
    rw [hs.1, Bool.and_true]
    rcases ho with rfl | ⟨rfl, ho⟩
    · rfl
    · rw [ho]; rfl
  change dueEmit s.site s = _
  rw [dueEmit, hf]
  dsimp only
  rw [if_pos hgo, hd]
  dsimp only
  rw [if_pos (by rw [hc, hi, beq_self_eq_true, beq_self_eq_true]; rfl), departures_of_bindings (bindings_updNode s s.site _)]

/-! ### Cohorts -/

section Cohort
variable {k : BitVec 6}

theorem members_contains {f : Fabric} {m : BitVec 12 × BitVec 16} (h : m ∈ members f k) : (members f k).contains m = true :=
  List.contains_iff_mem.mpr h

theorem members_not_contains {f : Fabric} {m : BitVec 12 × BitVec 16} (h : m ∉ members f k) : (members f k).contains m = false := by
  rw [← Bool.not_eq_true]
  exact fun hc => h (List.contains_iff_mem.mp hc)

theorem exec_cjoin_member (hs : s.CanStart) (h : Taken s 0x62 nf t) (hm : (t.ctx, t.iter) ∈ members (s.fab s.site.r) (cohortOf nf)) :
    exec (.cjoin nf) s = .next (s.fired s 0x62 nf (tokPorts nf) [both t]) := by
  change execCjoin nf s = _
  rw [execCjoin]
  refine flowNode_out hs h ?_
  rw [h.a]
  exact if_pos (members_contains hm)

theorem exec_cjoin_joins (hs : s.CanStart) (h : Taken s 0x62 nf t) (hm : (t.ctx, t.iter) ∉ members (s.fab s.site.r) (cohortOf nf))
    (hl : (members (s.fab s.site.r) (cohortOf nf)).length < 1024) (h0 : cohNow s s.site.r (cohortOf nf) false = false)
    (h1 : cohNow s s.site.r (cohortOf nf) true = false) :
    exec (.cjoin nf) s = .next (s.fired
      (sweepBarriers (s.updFab s.site.r fun f => { f with cohorts := f.cohorts ++ [(cohortOf nf, t.ctx, t.iter)] }) s.site.r
        (cohortOf nf)) 0x62 nf (tokPorts nf) [both t]) := by
  change execCjoin nf s = _
  rw [execCjoin]
  refine flowNode_out hs h ?_
  rw [h.a]
  refine (if_neg ?_).trans ((if_neg ?_).trans rfl)
  · rw [show (members (s.fab (firingAt s 0x62 nf).n.r) (cohortOf nf)).contains (t.ctx, t.iter) = false from members_not_contains hm]
    decide
  · rw [Bool.or_eq_true, Bool.or_eq_true, decide_eq_true_eq,
      show cohNow s (firingAt s 0x62 nf).n.r (cohortOf nf) false = false from h0,
      show cohNow s (firingAt s 0x62 nf).n.r (cohortOf nf) true = false from h1]
    rintro ((hle | hf) | hf)
    · exact absurd hle (Nat.not_le.mpr hl)
    · exact Bool.false_ne_true hf
    · exact Bool.false_ne_true hf

theorem exec_cjoin_waits (hs : s.CanStart) (h : Taken s 0x62 nf t) (hm : (t.ctx, t.iter) ∉ members (s.fab s.site.r) (cohortOf nf))
    (hn : cohNow s s.site.r (cohortOf nf) false = true ∨ cohNow s s.site.r (cohortOf nf) true = true) :
    exec (.cjoin nf) s = .next s := by
  change execCjoin nf s = _
  rw [execCjoin]
  refine flowNode_wait hs h ?_
  rw [h.a]
  refine (if_neg ?_).trans (if_pos ?_)
  · rw [show (members (s.fab (firingAt s 0x62 nf).n.r) (cohortOf nf)).contains (t.ctx, t.iter) = false from members_not_contains hm]
    decide
  · rw [Bool.or_eq_true, Bool.or_eq_true]
    exact hn.elim (fun h0 => .inl (.inr h0)) .inr

theorem exec_cleave_other (hs : s.CanStart) (h : Taken s 0x63 nf t)
    (hm : (t.ctx, t.iter) ∉ members (s.fab s.site.r) (cohortOf nf)) :
    exec (.cleave nf) s = .next (s.fired (noteCoh s s.site.r (cohortOf nf) false) 0x63 nf (tokPorts nf) [both t]) := by
  change execCleave nf s = _
  rw [execCleave]
  refine flowNode_out hs h ?_
  rw [h.a]
  refine (if_pos ?_).trans rfl
  rw [show (members (s.fab (firingAt s 0x63 nf).n.r) (cohortOf nf)).contains (t.ctx, t.iter) = false from members_not_contains hm]
  rfl

theorem not_contains_of_member {f : Fabric} {m : BitVec 12 × BitVec 16} (h : m ∈ members f k) :
    ¬(!(members f k).contains m) = true := by
  rw [members_contains h]
  decide

theorem exec_cleave_leaves (hs : s.CanStart) (h : Taken s 0x63 nf t)
    (hm : (t.ctx, t.iter) ∈ members (s.fab s.site.r) (cohortOf nf)) (hn : cohNow s s.site.r (cohortOf nf) true = false) :
    exec (.cleave nf) s = .next (s.fired
      (sweepBarriers (noteCoh (s.updFab s.site.r fun f => { f with
        cohorts := f.cohorts.filter (fun m => !(m.1 == cohortOf nf && m.2.1 == t.ctx && m.2.2 == t.iter)) }) s.site.r
        (cohortOf nf) false) s.site.r (cohortOf nf)) 0x63 nf (tokPorts nf) [both t]) := by
  change execCleave nf s = _
  rw [execCleave]
  refine flowNode_out hs h ?_
  rw [h.a]
  exact (if_neg (not_contains_of_member hm)).trans ((if_neg fun ht => Bool.false_ne_true (hn.symm.trans ht)).trans rfl)

theorem exec_cleave_waits (hs : s.CanStart) (h : Taken s 0x63 nf t)
    (hm : (t.ctx, t.iter) ∈ members (s.fab s.site.r) (cohortOf nf)) (hn : cohNow s s.site.r (cohortOf nf) true = true) :
    exec (.cleave nf) s = .next s := by
  change execCleave nf s = _
  rw [execCleave]
  refine flowNode_wait hs h ?_
  rw [h.a]
  exact (if_neg (not_contains_of_member hm)).trans (if_pos hn)

theorem exec_cbar_other (hs : s.CanStart) (h : Taken s 0x64 nf t)
    (hm : (t.ctx, t.iter) ∉ members (s.fab s.site.r) (cohortOf nf)) :
    exec (.cbar nf) s = .next (s.fired (noteCoh s s.site.r (cohortOf nf) true) 0x64 nf (tokPorts nf) [both t]) := by
  change execCbar nf s = _
  rw [execCbar]
  refine flowNode_out hs h ?_
  rw [h.a]
  refine (if_pos ?_).trans rfl
  rw [show (members (s.fab (firingAt s 0x64 nf).n.r) (cohortOf nf)).contains (t.ctx, t.iter) = false from members_not_contains hm]
  rfl

theorem exec_cbar_holds (hs : s.CanStart) (h : Taken s 0x64 nf t)
    (hm : (t.ctx, t.iter) ∈ members (s.fab s.site.r) (cohortOf nf)) (hh : heldTok s s.site = none) :
    exec (.cbar nf) s = .next (finishFire (sweepBarriers (noteCoh (s.updNode s.site fun y =>
      { y with held := y.held ++ [(t, s.fclock)] }) s.site.r (cohortOf nf) true) s.site.r (cohortOf nf)) (firingAt s 0x64 nf)
      (tokPorts nf) [] none 0) := by
  change execCbar nf s = _
  rw [execCbar]
  refine flowNode_sent hs h ?_
  rw [h.a]
  refine (if_neg (not_contains_of_member hm)).trans ((if_neg ?_).trans rfl)
  rw [show heldTok s (firingAt s 0x64 nf).n = none from hh]
  decide

end Cohort

/-- Settles O44: clause by clause. -/
theorem orderedMergesAndCohorts : Obligations.OrderedMergesAndCohorts := by
  unfold Obligations.OrderedMergesAndCohorts
  intro s nf t hs
  dsimp only
  refine ⟨fun i ho hi h => ?_, fun h => ?_, fun hp hf hst ha => exec_reord_window hs (ordFire_window hp hf hst ha),
    fun opc d hf ho hd hc hi => exec_reorderDueEmit hs hf ho hd hc hi,
    fun h => exec_cjoin_member hs (taken_of h), fun h => exec_cjoin_joins hs (taken_of h),
    fun h => exec_cleave_other hs (taken_of h), fun h => exec_cleave_leaves hs (taken_of h),
    fun h => exec_cjoin_waits hs (taken_of h.1) h.2.1 h.2.2, fun h => exec_cleave_waits hs (taken_of h.1) h.2.1 h.2.2,
    fun h => exec_cbar_other hs (taken_of h), fun h => exec_cbar_holds hs (taken_of h)⟩
  · have hh : Holds s 0x51 nf i t := ⟨h.1, h.2.1, h.2.2.1, h.2.2.2⟩
    exact ⟨fun d hd => exec_merge_ordered hs ho hi (ordFire_due hh hd), fun hd => exec_merge_ordered hs ho hi (ordFire_none hh hd)⟩
  · have hh : Holds s 0x52 nf 0 t := ⟨h.1, h.2.1, h.2.2.1, h.2.2.2⟩
    exact ⟨fun d hd => exec_reord hs (ordFire_due hh hd), fun hd => exec_reord hs (ordFire_none hh hd)⟩

end Sys2Proof.Machine
end

section
/-!
PROOFS. Counter chains and sparse iteration (R254 to R256).
-/

namespace Sys2Proof.Machine

open Sys2Proof

variable {s : State} {nf : NodeFields} {a b t : Token} {p : Pass} {opc : BitVec 8}

/-! ### CTR -/

/-- An operand that starts a pass. -/
def Token.Usable (t : Token) : Prop := t.kind ≠ kERROR ∧ t.kind ≠ kBUBBLE ∧ fmtReserved t.fmt = false

/-- The tokens of a firing without tokens on ports c and p are those of a and b. -/
theorem Firing.mem_toks_two {x : Firing} {u : Token} (hc : x.c = none) (hp : x.p = none) (h : u ∈ x.toks) :
    x.a = some u ∨ x.b = some u := by
  obtain ⟨j, -, hj⟩ := List.mem_filterMap.mp h
  have hcases : ∀ i : BitVec 2, i = 0 ∨ i = 1 ∨ i = 2 ∨ i = 3 := by decide
  obtain rfl | rfl | rfl | rfl := hcases j
  · exact .inl hj
  · exact .inr hj
  · exact absurd (hc.symm.trans hj) (by simp)
  · exact absurd (hp.symm.trans hj) (by simp)

/-- A CTR without an open pass starts one with a usable enable and descriptor. -/
theorem exec_ctr_start {s1 : State} {eat : List (BitVec 2)} {rs : List Pair} (hs : s.CanStart) (hp : (s.node s.site).pass = none)
    (hc : nf.kc ≠ 0 ∨ (firingAt s 0x58 nf).c = none) (hab : (firingAt s 0x58 nf).a = some a ∧ (firingAt s 0x58 nf).b = some b)
    (ha : a.Usable) (hb : b.Usable)
    (hr : (if (ctrExtents nf b).any (· == 0) = true then
        if (nf.var == 0) = true then
          NodeRes.out s [0, 1] [both (passTok nf a kINDEX false (2 ^ ctrLevels nf - 1) 0 0)] 0
        else .out (tookFree s s.site) [0, 1] [(none, some (passTok nf a kCTRL true 0 (freeSeq s s.site) 0))] 0
      else .out (s.updNode s.site fun z => { z with pass := some ⟨a, b, 0, ctrPoints nf b, 0, none, []⟩ }) [0, 1] [] 0) =
      .out s1 eat rs 0) :
    exec (.ctr nf) s = .next (s.fired s1 0x58 nf eat rs) := by
  have hsel : (if (nf.kc == 0) = true then (firingAt s 0x58 nf).c else none) = none := by
    rcases hc with hc | hc
    · rw [beq_false_of_ne hc]; rfl
    · rw [hc, ite_self]
  have htoks : ∀ y : Firing, y.a = some a → y.b = some b → y.c = none → y.p = none → ∀ u ∈ y.toks, u.Usable :=
    fun y hya hyb hyc hyp u hu => by
      rcases Firing.mem_toks_two hyc hyp hu with h | h
      · rw [← Option.some.inj (hya.symm.trans h)]; exact ha
      · rw [← Option.some.inj (hyb.symm.trans h)]; exact hb
  change execCtr nf s = _
  rw [execCtr]
  refine fireNode_out hs ?_
  rw [hsel, firingAt_n, hp]
  dsimp only
  rw [hab.1, hab.2]
  dsimp only
  refine (flowChecked_eq ?_).trans ?_
  · rw [Firing.badFmt, List.any_eq_false]
    exact fun u hu => by rw [(htoks _ rfl rfl rfl rfl u hu).2.2]; decide
  · rw [ctrStart]
    dsimp only
    rw [Firing.find_error_eq_none (x := { firingAt s 0x58 nf with c := none, p := none }) fun u hu => (htoks { firingAt s 0x58 nf with c := none, p := none } hab.1 hab.2 rfl rfl u hu).1]
    dsimp only
    rw [beq_false_of_ne ha.2.1, beq_false_of_ne hb.2.1, if_neg (by decide)]
    exact hr

theorem any_zero {es : List Nat} : es.any (· == 0) = true ↔ 0 ∈ es := by
  rw [List.any_eq_true]
  exact ⟨fun ⟨x, hx, h⟩ => beq_iff_eq.mp h ▸ hx, fun h => ⟨0, h, rfl⟩⟩

theorem exec_ctr_done (hs : s.CanStart) (hp : (s.node s.site).pass = some p) (hk : nf.kc = 0)
    (hc : (firingAt s 0x58 nf).c = some t) :
    exec (.ctr nf) s = .next (s.fired (s.updNode s.site fun z => { z with
      pass := some { p with done := p.done + 1, err := if p.err.isNone && t.kind == kERROR then some t else p.err } })
      0x58 nf [2] []) := by
  change execCtr nf s = _
  rw [execCtr]
  refine fireNode_out hs ?_
  rw [hk, firingAt_n, hp, if_pos (by decide), hc]

/-! ### SLOOP -/

/-- Bitmap tokens of no special kind have no result of their own. -/
theorem slSpecial_eq_none {x : Firing} {eat : List (BitVec 2)}
    (h : ∀ t ∈ x.toks, t.kind ≠ kERROR ∧ t.kind ≠ kBUBBLE ∧ t.kind ≠ kSTOP ∧ t.fmt = 0x11) : slSpecial s x eat = none := by
  have hbub : x.toks.any (·.kind == kBUBBLE) = false :=
    List.any_eq_false.mpr fun t ht => by rw [beq_false_of_ne (h t ht).2.1]; decide
  have hstop : (!x.toks.isEmpty && x.toks.all (·.kind == kSTOP)) = false := by
    cases htoks : x.toks with
    | nil => rfl
    | cons t ts =>
      rw [List.all_cons, beq_false_of_ne (h t (by rw [htoks]; exact List.mem_cons_self)).2.2.1]
      rfl
  have hfmt : x.toks.any (fun t => t.kind == kSTOP || t.fmt != 0x11) = false :=
    List.any_eq_false.mpr fun t ht => by rw [beq_false_of_ne (h t ht).2.2.1, (h t ht).2.2.2]; decide
  rw [slSpecial]
  dsimp only
  rw [Firing.find_error_eq_none fun t ht => (h t ht).1]
  dsimp only
  rw [hbub, hstop, hfmt, if_neg (by decide), if_neg (by decide), if_neg (by decide)]

section Sloop

/-- The pass that the tops start (R255). -/
def slPass (nf : NodeFields) (a b : Token) : Pass :=
  if slTree nf then slSettle nf ⟨a, b, 0, 0, 0, none, []⟩
  else ⟨a, b, 512, (setBits (slCombine nf a.payload b.payload)).length, 1, none,
    if (setBits (slCombine nf a.payload b.payload)).isEmpty then [slEmpty nf a]
    else slToks nf a 0 (setBits (slCombine nf a.payload b.payload))⟩

theorem exec_sloop_start (hs : s.CanStart) (hp : (s.node s.site).pass = none) (hr : (firingAt s 0x59 nf).ready = true)
    (ha : (firingAt s 0x59 nf).a = some a)
    (hk : ∀ t ∈ (firingAt s 0x59 nf).toks, t.kind ≠ kERROR ∧ t.kind ≠ kBUBBLE ∧ t.kind ≠ kSTOP ∧ t.fmt = 0x11) :
    exec (.sloop nf) s = .next (s.fired (s.updNode s.site fun z =>
      { z with pass := some (slPass nf a ((firingAt s 0x59 nf).b.getD a)) }) 0x59 nf (tokPorts nf) []) := by
  change execSloop nf s = _
  rw [execSloop]
  refine fireNode_out hs ?_
  rw [firingAt_n, hp]
  dsimp only
  rw [slStart, if_neg (by rw [hr]; decide), slSpecial_eq_none hk]
  dsimp only
  rw [ha]
  rfl

theorem slPass_leaf (a b : Token) (h : slTree nf = false) :
    slPass nf a b = ⟨a, b, 512, (setBits (slCombine nf a.payload b.payload)).length, 1, none,
      if setBits (slCombine nf a.payload b.payload) = [] then [slEmpty nf a]
      else slToks nf a 0 (setBits (slCombine nf a.payload b.payload))⟩ := by
  simp only [slPass, h, Bool.false_eq_true, if_false, List.isEmpty_iff]

theorem slPass_tree (a b : Token) (h : slTree nf = true) : slPass nf a b = slSettle nf ⟨a, b, 0, 0, 0, none, []⟩ := by
  rw [slPass, if_pos h]

end Sloop

/-! ### ISECT and UNION -/

section Fibres
variable {i : Instr} {un : Bool}

/-- Both heads of an ISECT or UNION that discards none. -/
structure Heads (s : State) (opc : BitVec 8) (nf : NodeFields) (a b : Token) : Prop where
  ready : (firingAt s opc nf).ready = true
  a : (firingAt s opc nf).a = some a
  b : (firingAt s opc nf).b = some b
  keepA : (fibreOf (s.node s.site) s.site).skipA = false
  keepB : (fibreOf (s.node s.site) s.site).skipB = false

theorem fibHead_stop {x : Firing} {f : Fibre} {j : BitVec 2} (h : t.kind = kSTOP) : fibHead s nf x f j t = none := by
  rw [fibHead, h]
  rfl

theorem fibHead_data {x : Firing} {f : Fibre} {j : BitVec 2} (hj : (if j = 0 then f.skipA else f.skipB) = false)
    (hk : t.kind = kDATA) (hf : t.fmt = nf.fmt) : fibHead s nf x f j t = none := by
  rw [fibHead]
  rw [hj, hk, hf, bne_self_eq_false, bne_self_eq_false]
  rfl

theorem exec_fibNode_stops (hs : s.CanStart) (hi : exec i s = fibNode s opc nf un) (h : Heads s opc nf a b)
    (ha : a.kind = kSTOP) (hb : b.kind = kSTOP) (hl : stopLevel a = stopLevel b)
    (ho : (fibreOf (s.node s.site) s.site).out = []) :
    exec i s = .next (s.fired (dropFibre s s.site) opc nf [0, 1] [both ((firingAt s opc nf).retag a)]) := by
  refine hi.trans (fireNode_out hs ?_)
  dsimp only
  rw [if_neg (by rw [h.ready]; decide), h.a, h.b]
  dsimp only
  rw [fibHead_stop ha, fibHead_stop hb]
  dsimp only [Option.orElse]
  rw [if_pos (by rw [ha, hb]; rfl), if_neg (by rw [hl, bne_self_eq_false]; decide), firingAt_n, ho]
  rfl

theorem exec_fibNode_flush (hs : s.CanStart) (hi : exec i s = fibNode s opc nf un) (h : Heads s opc nf a b)
    (ha : a.kind = kSTOP) (hb : b.kind = kSTOP) (hl : stopLevel a = stopLevel b)
    (ho : (fibreOf (s.node s.site) s.site).out ≠ []) :
    exec i s = .next (s.fired (setFibre s s.site { fibreOf (s.node s.site) s.site with out := [] }) opc nf []
      [both (fibFlush nf (firingAt s opc nf) (fibreOf (s.node s.site) s.site).out)]) := by
  refine hi.trans (fireNode_out hs ?_)
  dsimp only
  rw [if_neg (by rw [h.ready]; decide), h.a, h.b]
  dsimp only
  rw [fibHead_stop ha, fibHead_stop hb]
  dsimp only [Option.orElse]
  rw [if_pos (by rw [ha, hb]; rfl), if_neg (by rw [hl, bne_self_eq_false]; decide), firingAt_n]
  exact if_pos (by rw [List.isEmpty_eq_false_iff.mpr ho]; rfl)

/-- The walk of two data heads of a node. -/
def walked (s : State) (nf : NodeFields) (un : Bool) (a b : Token) : Fibre × WalkEnd :=
  fibWalk nf un (un && nf.var == 1) a b 33 (fibreOf (s.node s.site) s.site)

/-- A walk's fibre once the heads that it has used up are consumed. -/
def walkLeaves (w : Fibre) : Fibre :=
  { w with posA := if decide (w.posA = 16) then 0 else w.posA, posB := if decide (w.posB = 16) then 0 else w.posB }

/-- The heads that a walk uses up. -/
def walkEats (w : Fibre) : List (BitVec 2) :=
  (if decide (w.posA = 16) then [0] else []) ++ (if decide (w.posB = 16) then [1] else [])

theorem fibEnd_eq {x : Firing} {f : Fibre} {w : WalkEnd} (hw : w = .used ∨ w = .full) :
    fibEnd s nf x f w =
      if 16 ≤ f.out.length then
        .out (setFibre s x.n { walkLeaves f with out := [] }) (walkEats f) [both (fibFlush nf x f.out)] 0
      else .out (setFibre s x.n (walkLeaves f)) (walkEats f) [] 0 := by
  have hA : (w == .badA) = false := by rcases hw with rfl | rfl <;> rfl
  have hB : (w == .badB) = false := by rcases hw with rfl | rfl <;> rfl
  rw [fibEnd, hA, hB]
  simp only [Bool.or_false, Bool.false_eq_true, if_false]
  rfl

theorem exec_fibNode_walk (hs : s.CanStart) (hi : exec i s = fibNode s opc nf un) (h : Heads s opc nf a b)
    (ha : a.kind = kDATA) (haf : a.fmt = nf.fmt) (hb : b.kind = kDATA) (hbf : b.fmt = nf.fmt) {s1 : State}
    {eat : List (BitVec 2)} {rs : List Pair}
    (he : fibEnd s nf (firingAt s opc nf) (walked s nf un a b).1 (walked s nf un a b).2 = .out s1 eat rs 0) :
    exec i s = .next (s.fired s1 opc nf eat rs) := by
  refine hi.trans (fireNode_out hs ?_)
  dsimp only
  rw [if_neg (by rw [h.ready]; decide), h.a, h.b]
  dsimp only
  rw [firingAt_n, fibHead_data (j := 0) (by rw [if_pos rfl]; exact h.keepA) ha haf,
    fibHead_data (j := 1) (by rw [if_neg (by decide)]; exact h.keepB) hb hbf]
  dsimp only [Option.orElse]
  rw [ha, hb, if_neg (by decide), if_neg (by decide), if_neg (by decide)]
  exact he

theorem exec_fibNode_gathers (hs : s.CanStart) (hi : exec i s = fibNode s opc nf un) (h : Heads s opc nf a b)
    (ha : a.kind = kDATA) (haf : a.fmt = nf.fmt) (hb : b.kind = kDATA) (hbf : b.fmt = nf.fmt)
    (hw : (walked s nf un a b).2 = .used ∨ (walked s nf un a b).2 = .full) :
    ((walked s nf un a b).1.out.length < 16 → exec i s = .next
      (s.fired (setFibre s s.site (walkLeaves (walked s nf un a b).1)) opc nf (walkEats (walked s nf un a b).1) [])) ∧
    (16 ≤ (walked s nf un a b).1.out.length → exec i s = .next
      (s.fired (setFibre s s.site { walkLeaves (walked s nf un a b).1 with out := [] }) opc nf
        (walkEats (walked s nf un a b).1) [both (fibFlush nf (firingAt s opc nf) (walked s nf un a b).1.out)])) :=
  ⟨fun hl => exec_fibNode_walk hs hi h ha haf hb hbf ((fibEnd_eq hw).trans (if_neg (Nat.not_le.mpr hl))),
    fun hl => exec_fibNode_walk hs hi h ha haf hb hbf ((fibEnd_eq hw).trans (if_pos hl))⟩

end Fibres

/-! ### The emissions of a pass -/

section Emit
variable {n : Site}

/-- A chain's node with an open pass and room in its output queue. -/
structure PassOpen (s : State) (n : Site) (p : Pass) : Prop where
  going : regionGoing s n.r = true
  room : outCount (s.fab n.r) n.row n.col n.slot < 4
  pass : (s.node n).pass = some p

theorem PassOpen.ctr (h : PassOpen s n p) (hf : fieldsAt s n.r n.row n.col n.slot = some (0x58, nf)) :
    exec (.counterChainEmit n) s = .next (ctrEmit s n nf p) := by
  change execCounterChainEmit n s = _
  rw [execCounterChainEmit, hf, h.pass]
  dsimp only
  rw [if_pos (by rw [h.going, decide_eq_true h.room]; rfl)]
  exact if_pos rfl

theorem PassOpen.sloop (h : PassOpen s n p) (hf : fieldsAt s n.r n.row n.col n.slot = some (0x59, nf)) :
    exec (.counterChainEmit n) s = .next (slEmit s n nf p) := by
  change execCounterChainEmit n s = _
  rw [execCounterChainEmit, hf, h.pass]
  dsimp only
  rw [if_pos (by rw [h.going, decide_eq_true h.room]; rfl), if_neg (by decide)]
  exact if_pos rfl

theorem ctrEmit_point (hv : nf.var ≠ 3) (hp : p.point < p.total)
    (hw : nf.var = 0 ∨ (ctrChildren nf : Int) * ((p.point : Int) - ctrWindow nf + 1) ≤ (p.done : Int)) :
    let t := passTok nf p.enable (if nf.var = 0 then kINDEX else kCTRL) true (ctrMarks (ctrExtents nf p.desc) p.point)
      (BitVec.ofNat 16 p.point) (ctrPayload nf p.desc (ctrIdx (ctrExtents nf p.desc) p.point))
    ctrEmit s n nf p =
      chainEmit (setPass s n (if nf.var = 0 ∧ p.point + 1 = p.total then none else some { p with point := p.point + 1 }))
        n nf (some t) (if nf.var = 0 then some t else none) := by
  have hheld : ¬((nf.var == 1 || nf.var == 2) && decide ((p.done : Int) < (ctrChildren nf : Int) *
      ((p.point : Int) - ctrWindow nf + 1))) = true := by
    rw [Bool.and_eq_true, decide_eq_true_eq]
    rintro ⟨h12, hlt⟩
    rcases hw with h0 | hw
    · rw [h0] at h12; exact absurd h12 (by decide)
    · exact absurd hlt (Int.not_lt.mpr hw)
  rw [ctrEmit]
  dsimp only
  simp only [beq_false_of_ne hv, Bool.false_eq_true, if_false]
  rw [if_pos hp, if_neg hheld]
  simp only [beq_iff_eq, Bool.and_eq_true]

theorem ctrEmit_stream (hv : nf.var = 3) (hp : p.point = 0) :
    ctrEmit s n nf p = chainEmit (setPass (tookFree s n) n (some { p with point := 1 })) n nf
      (some (passTok nf p.enable kCTRL true (2 ^ ctrLevels nf - 1) (freeSeq s n) (ctrPayload nf p.desc fun _ => 0))) none := by
  rw [ctrEmit, hv, hp]
  rfl

/-- The points of a pass that a CTR emits: a stream has one. -/
theorem ctrEmit_ends (hp : (if nf.var = 3 then 1 else p.total) ≤ p.point)
    (hd : ctrChildren nf * (if nf.var = 3 then 1 else p.total) ≤ p.done) {t : Token}
    (herr : ∀ e, p.err = some e → t = { e with ctx := p.enable.ctx, iter := p.enable.iter })
    (hok : p.err = none → t = passTok nf p.enable kCTRL true 0 (freeSeq s n) (packLanes 32 [p.total])) :
    ctrEmit s n nf p = chainEmit (setPass (tookFree s n) n none) n nf none (some t) := by
  rw [ctrEmit]
  simp only [beq_iff_eq]
  rw [if_neg (Nat.not_lt.mpr hp), if_neg (Nat.not_lt.mpr hd)]
  cases he : p.err with
  | none => rw [hok he]
  | some e => rw [herr e he]

theorem slEmit_next {u : Token} {rest : List Token} (h : p.out = t :: u :: rest) :
    slEmit s n nf p = chainEmit (setPass s n (some { p with out := u :: rest })) n nf (some t) (some t) := by
  rw [slEmit, h]

theorem slEmit_last (h : p.out = [t]) (hd : p.done = 1) {t' : Token} (ht : t' = if slTree nf then { t with scale := t.scale ||| 2 } else t) :
    slEmit s n nf p = chainEmit (setPass s n none) n nf (some t') (some t') := by
  subst ht
  rw [slEmit, h]
  exact if_pos (beq_iff_eq.mpr hd)

end Emit

/-- Settles O45: node by node, then the emissions. -/
theorem chainsAndSparseIterationRunTheirPasses : Obligations.ChainsAndSparseIterationRunTheirPasses := by
  unfold Obligations.ChainsAndSparseIterationRunTheirPasses
  refine ⟨fun s nf a b hs => ?_, fun s n nf p hg hroom hp => ?_⟩
  · dsimp only
    refine ⟨fun hp hc hab ha hb => ⟨fun h0 => ?_, fun h0 hv => ?_, fun h0 hv => ?_⟩, fun p t hp hk hc => exec_ctr_done hs hp hk hc,
      fun hp hr ha hk => ⟨fun htr => ?_, fun htr => ?_⟩, fun opc hopc hr hab hA hB => ?_⟩
    · exact exec_ctr_start hs hp hc hab ha hb (if_neg (mt any_zero.mp h0))
    · exact exec_ctr_start hs hp hc hab ha hb ((if_pos (any_zero.mpr h0)).trans (if_pos (beq_iff_eq.mpr hv)))
    · exact exec_ctr_start hs hp hc hab ha hb ((if_pos (any_zero.mpr h0)).trans (if_neg (mt beq_iff_eq.mp hv)))
    · rw [← slPass_leaf a _ htr]
      exact exec_sloop_start hs hp hr ha hk
    · rw [← slPass_tree a _ htr]
      exact exec_sloop_start hs hp hr ha hk
    · have hh : Heads s opc nf a b := ⟨hr, hab.1, hab.2, hA, hB⟩
      have hi : exec (if opc = 0x5A then .isect nf else .union nf) s = fibNode s opc nf (opc == 0x5B) := by
        rcases hopc with rfl | rfl <;> rfl
      exact ⟨fun ha haf hb hbf hw => exec_fibNode_gathers hs hi hh ha haf hb hbf hw,
        fun ha hb hl => ⟨exec_fibNode_stops hs hi hh ha hb hl, exec_fibNode_flush hs hi hh ha hb hl⟩⟩
  · have hopen : PassOpen s n p := ⟨hg, hroom, hp⟩
    dsimp only
    refine ⟨fun hf => ⟨fun hv hlt hw => ?_, fun hv h0 => ?_, fun hle hd => ?_⟩, fun hf => ⟨fun t u rest ho => ?_, fun t ho hd => ?_⟩⟩
    · exact (hopen.ctr hf).trans (congrArg _ (ctrEmit_point hv hlt hw))
    · exact (hopen.ctr hf).trans (congrArg _ (ctrEmit_stream hv h0))
    · exact (hopen.ctr hf).trans (congrArg _ (ctrEmit_ends hle hd (fun e he => by rw [he]) fun he => by rw [he]))
    · exact (hopen.sloop hf).trans (congrArg _ (slEmit_next ho))
    · exact (hopen.sloop hf).trans (congrArg _ (slEmit_last ho hd rfl))

end Sys2Proof.Machine
end

section
/-!
PROOFS. The matrix nodes and the commands of a tile's queue (R228 to R239).
-/

namespace Sys2Proof.Machine

open Sys2Proof

variable {s : State} {nf : NodeFields} {a b : Token} {r : RegionId}

/-! ### A region's fabric, updated twice -/

theorem State.updRegion_updRegion (s : State) (r : RegionId) (f g : Region → Region) :
    (s.updRegion r f).updRegion r g = s.updRegion r fun x => g (f x) := by
  rw [State.updRegion, State.region_updRegion_self]
  simp only [State.updRegion, State.setRegion, Vector.set_set]

theorem State.updFab_updFab (s : State) (r : RegionId) (f g : Fabric → Fabric) :
    (s.updFab r f).updFab r g = s.updFab r fun x => g (f x) := State.updRegion_updRegion _ _ _ _

/-- An update is what it makes of the region's own fabric. -/
theorem State.updFab_congr {f g : Fabric → Fabric} (h : f (s.fab r) = g (s.fab r)) : s.updFab r f = s.updFab r g := by
  have h' : f (s.region r).fab = g (s.region r).fab := h
  simp only [State.updFab, State.updRegion, h']

/-! ### Nodes -/

/-- What a command node leaves: its command at the end of the queue, its output reserved. -/
def queued (s : State) (opc : BitVec 8) (nf : NodeFields) (a : Token) : State :=
  s.updFab s.site.r fun f => { f with
    outq := f.outq ++ [⟨f.nextId, s.site.row, s.site.col, s.site.slot, true, 3, 0, none, []⟩], nextId := f.nextId + 1
    arrayq := f.arrayq ++ [⟨s.site.row, s.site.col, s.site.slot, opc, nf,
      (((firingAt s opc nf).arr.find? (·.1 == 0)).map (·.2)).getD 0, a, f.nextId⟩] }

/-- A token that a command node takes. -/
def commandOk (_ : BitVec 2) (t : Token) : Bool := t.fmt == 8 && (t.kind == kCTRL || t.kind == kDATA || t.kind == kINDEX)

theorem commandNode_queues {i : Instr} {opc : BitVec 8} (hs : s.CanStart) (hi : exec i s = commandNode s opc nf)
    (hroom : (tileCmds (s.fab s.site.r) s.site.row s.site.col).length < 8) (hp : (firingAt s opc nf).Plain commandOk)
    (ha : (firingAt s opc nf).a = some a) :
    exec i s = .next (s.fired (queued s opc nf a) opc nf (tokPorts nf) []) := by
  rw [hi, commandNode]
  refine fireNode_out hs ?_
  rw [firingAt_n]
  refine (if_neg (Nat.not_le.mpr hroom)).trans ((dataNode_plain hp).trans ?_)
  dsimp only [reserveEntry, noOut]
  rw [Firing.get_zero ha, firingAt_n, State.updFab_updFab]
  refine congrArg (fun s => NodeRes.out s (tokPorts nf) [] 0) (State.updFab_congr ?_)
  rfl

section Mxf

/-- The formats of an MXF's operands. -/
def mxfOk (i : BitVec 2) (t : Token) : Bool := if i = 0 then t.kind == kDATA && (rowCap t.fmt).isSome else isDataIdx t 7

/-- The row that an MXF fills. -/
def mxfFill (s : State) (a b : Token) : FillRes :=
  fillRow (s.fab s.site.r) ⟨s.site.row, s.site.col, b.payload.extractLsb' 0 6, s.site.ctx, b.payload.extractLsb' 6 5, a.fmt,
    tokSig a, a.payload, a.scale, []⟩

/-- An MXF with its operands and room in the tile's queue. -/
structure MxfFires (s : State) (nf : NodeFields) (a b : Token) : Prop where
  start : s.CanStart
  room : (tileCmds (s.fab s.site.r) s.site.row s.site.col).length < 8
  plain : (firingAt s 0x40 nf).Plain mxfOk
  a : (firingAt s 0x40 nf).a = some a
  b : (firingAt s 0x40 nf).b = some b

theorem MxfFires.malformed (h : MxfFires s nf a b) (hw : b.payload.extractLsb' 11 501 ≠ 0#501) :
    exec (.mxf nf) s = .next (s.fired (noteFault s s.site 0x8E (firingAt s 0x40 nf).info) 0x40 nf (tokPorts nf)
      [both ((firingAt s 0x40 nf).error 0x8E)]) := by
  change execMxf nf s = _
  rw [execMxf]
  refine fireNode_out h.start ((if_neg (Nat.not_le.mpr h.room)).trans ((dataNode_plain h.plain).trans ?_))
  dsimp only
  rw [Firing.get_one h.b]
  exact (if_pos (bne_iff_ne.mpr hw)).trans rfl

theorem MxfFires.fills (h : MxfFires s nf a b) (hw : b.payload.extractLsb' 11 501 = 0#501) {g : Fabric}
    (hf : mxfFill s a b = .done g) :
    exec (.mxf nf) s = .next (s.fired (s.updFab s.site.r fun _ => g) 0x40 nf (tokPorts nf)
      [both ((firingAt s 0x40 nf).echo 7 (b.lane 32 0))]) := by
  unfold mxfFill at hf
  change execMxf nf s = _
  rw [execMxf]
  refine fireNode_out h.start ((if_neg (Nat.not_le.mpr h.room)).trans ((dataNode_plain h.plain).trans ?_))
  dsimp only
  rw [Firing.get_zero h.a, Firing.get_one h.b, hw, if_neg (by rw [bne_self_eq_false]; decide), firingAt_n, hf]
  rfl

theorem MxfFires.parks (h : MxfFires s nf a b) (hw : b.payload.extractLsb' 11 501 = 0#501) (hf : mxfFill s a b = .parks) :
    exec (.mxf nf) s = .next (parkFiring s (firingAt s 0x40 nf) 0x86 (firingAt s 0x40 nf).info none) := by
  unfold mxfFill at hf
  change execMxf nf s = _
  rw [execMxf]
  refine fireNode_park h.start ((if_neg (Nat.not_le.mpr h.room)).trans ((dataNode_plain h.plain).trans ?_))
  dsimp only
  rw [Firing.get_zero h.a, Firing.get_one h.b, hw, if_neg (by rw [bne_self_eq_false]; decide), firingAt_n, hf]
  rfl

theorem MxfFires.refused (h : MxfFires s nf a b) (hw : b.payload.extractLsb' 11 501 = 0#501) (hf : mxfFill s a b = .bad) :
    exec (.mxf nf) s = .next (s.fired (noteFault s s.site 0x87 (firingAt s 0x40 nf).info) 0x40 nf (tokPorts nf)
      [both ((firingAt s 0x40 nf).error 0x87)]) := by
  unfold mxfFill at hf
  change execMxf nf s = _
  rw [execMxf]
  refine fireNode_out h.start ((if_neg (Nat.not_le.mpr h.room)).trans ((dataNode_plain h.plain).trans ?_))
  dsimp only
  rw [Firing.get_zero h.a, Firing.get_one h.b, hw, if_neg (by rw [bne_self_eq_false]; decide), firingAt_n, hf]
  rfl

end Mxf

/-- Settles O46: the command nodes by one rule, then MXF. -/
theorem matrixNodesQueueTheirCommands : Obligations.MatrixNodesQueueTheirCommands := by
  unfold Obligations.MatrixNodesQueueTheirCommands
  intro s nf a b hs
  dsimp only
  refine fun hroom => ⟨fun p hp hplain ha => ?_, fun hplain ha hb => ?_⟩
  · have hi : exec p.1 s = commandNode s p.2 nf := by
      simp only [List.mem_cons, List.not_mem_nil, or_false] at hp
      obtain rfl | rfl | rfl | rfl | rfl | rfl | rfl := hp <;> rfl
    exact commandNode_queues hs hi hroom hplain ha
  · have h : MxfFires s nf a b := ⟨hs, hroom, hplain, ha, hb⟩
    exact ⟨h.malformed, fun hw => ⟨fun g hf => h.fills hw hf, h.parks hw, h.refused hw⟩⟩

/-! ### Commands -/

section Commands
variable {t : TileAt} {c : ArrayCmd} {opc : BitVec 8} {k : State → ArrayCmd → State}

theorem no_flips (p : Bool) : (decide ((0 : BitVec 664) = 0) || p) = true := by
  rw [decide_eq_true (Eq.refl (0 : BitVec 664)), Bool.true_or]

/-- The next command of an opcode at a tile of a region that runs, its token's bits as they were. -/
structure CmdNext (s : State) (t : TileAt) (opc : BitVec 8) (c : ArrayCmd) : Prop where
  going : regionGoing s t.r = true
  next : cmdNext s t opc = some c

theorem execCmd_ok (h : CmdNext s t opc c) (hok : cmdOk c = true) : execCmd s t opc 0 k = .next (k s c) := by
  rw [execCmd, if_neg (by rw [h.going]; decide), h.next]
  exact (if_pos (no_flips _)).trans (congrArg _ (if_pos hok))

theorem execCmd_malformed (h : CmdNext s t opc c) (hok : cmdOk c = false) :
    execCmd s t opc 0 k = .next (cmdError s t.r c 0x8E) := by
  rw [execCmd, if_neg (by rw [h.going]; decide), h.next]
  refine (if_pos (no_flips _)).trans ?_
  dsimp only
  rw [if_neg (by rw [hok]; decide)]
  rfl

/-- The operand slots that a command names. -/
def namedSlots (s : State) (t : TileAt) (c : ArrayCmd) : List OmSlot := (cmdSlots c).map (omSlot (s.fab t.r) c.row c.col)

theorem exec_mxclmExecute (h : CmdNext s t 0x41 c) (hok : cmdOk c = true) (hf : ∀ o ∈ namedSlots s t c, o.held = false) :
    exec (.mxclmExecute ⟨t, 0⟩) s = .next (cmdDone (s.updFab t.r fun f => (namedSlots s t c).foldl (fun f o =>
      setOmSlot f { o with held := true, owner := c.tok.ctx, present := 0, tag := 63, rows := [] }) f) t.r c (cmdEcho t.r c)) := by
  change execMxclmExecute ⟨t, 0⟩ s = _
  rw [execMxclmExecute]
  refine (execCmd_ok h hok).trans (congrArg _ (if_neg ?_))
  rw [Bool.not_eq_true, List.any_eq_false]
  exact fun o ho => by rw [hf o ho]; decide

theorem exec_mxclmExecute_parks (h : CmdNext s t 0x41 c) (hok : cmdOk c = true) (hf : ∃ o ∈ namedSlots s t c, o.held = true) :
    exec (.mxclmExecute ⟨t, 0⟩) s = .next (cmdPark s t.r c) := by
  change execMxclmExecute ⟨t, 0⟩ s = _
  rw [execMxclmExecute]
  exact (execCmd_ok h hok).trans (congrArg _ (if_pos (List.any_eq_true.mpr hf)))

theorem exec_mxrelExecute (h : CmdNext s t 0x42 c) (hok : cmdOk c = true)
    (ho : ∀ o ∈ namedSlots s t c, omOwned o c.tok.ctx = true) :
    exec (.mxrelExecute ⟨t, 0⟩) s = .next (cmdDone (s.updFab t.r fun f => (namedSlots s t c).foldl (fun f o =>
      setOmSlot f { o with held := false }) f) t.r c (cmdEcho t.r c)) := by
  change execMxrelExecute ⟨t, 0⟩ s = _
  rw [execMxrelExecute]
  refine (execCmd_ok h hok).trans (congrArg _ (if_neg ?_))
  rw [Bool.not_eq_true, List.any_eq_false]
  exact fun o ho' => by rw [ho o ho']; decide

/-- The elements that a multiply gives its accumulator (R236). -/
def mulResult (m : MulCmd) (f : Fabric) (c : ArrayCmd) : List (Nat × Nat × Nat × Nat) :=
  (List.range m.mm).flatMap fun i => (List.range m.nn).map fun n =>
    let old := if (cmdWord c.tok).getLsbD 0 then amGet f c.row c.col ((cmdWord c.tok).extractLsb' 3 3) i n else (0, 24)
    let r := mulElem m.a m.b m.ta m.k (decodeF fp32 old.1, old.2) i n
    (i, n, (rneF fp32 (exactOf r.1)).1, r.2)

/-- What a multiply's slots must be (R236, R237, Table 12-4). -/
structure MulFits (m : MulCmd) (ctx : BitVec 12) : Prop where
  ownsA : omOwned m.a ctx = true
  ownsB : omOwned m.b ctx = true
  depth : m.ta = true → m.k ≤ 32
  rowsA : rowsPresent m.a (if m.ta then m.k else m.mm) = true
  rowsB : rowsPresent m.b m.nn = true
  pair : fmtPair m.a.sfmt m.b.sfmt = true
  plainT : m.ta = true → m.a.sfmt ≠ 0xF ∧ m.a.sfmt ≠ 0x10
  capA : (if m.ta then m.mm else m.k) ≤ (rowCap m.a.sfmt).getD 0
  capB : m.k ≤ (rowCap m.b.sfmt).getD 0

theorem MulFits.not_deep {m : MulCmd} {ctx : BitVec 12} (h : MulFits m ctx) : ¬(m.ta && decide (32 < m.k)) = true := by
  rw [Bool.and_eq_true, decide_eq_true_eq]
  exact fun ⟨ht, hk⟩ => absurd (h.depth ht) (Nat.not_le.mpr hk)

theorem MulFits.ready {m : MulCmd} {ctx : BitVec 12} (h : MulFits m ctx) : ¬mulWaits m ctx = true := by
  rw [mulWaits, h.rowsA, h.rowsB]
  simp

theorem MulFits.formats {m : MulCmd} {ctx : BitVec 12} (h : MulFits m ctx) :
    ¬(!fmtPair m.a.sfmt m.b.sfmt || (m.ta && (m.a.sfmt == 0xF || m.a.sfmt == 0x10))) = true := by
  rw [h.pair, Bool.not_true, Bool.false_or, Bool.and_eq_true, Bool.or_eq_true, beq_iff_eq, beq_iff_eq]
  exact fun ⟨ht, hf⟩ => hf.elim (h.plainT ht).1 (h.plainT ht).2

theorem MulFits.caps {m : MulCmd} {ctx : BitVec 12} (h : MulFits m ctx) :
    ¬((!m.ta && decide ((rowCap m.a.sfmt).getD 0 < m.k)) || (m.ta && decide ((rowCap m.a.sfmt).getD 0 < m.mm)) ||
      decide ((rowCap m.b.sfmt).getD 0 < m.k)) = true := by
  have hA := h.capA
  rw [Bool.or_eq_true, Bool.or_eq_true, decide_eq_true_eq]
  rintro ((hk | hk) | hk)
  · rw [Bool.and_eq_true, Bool.not_eq_true', decide_eq_true_eq] at hk
    rw [hk.1, if_neg (by decide)] at hA
    exact absurd hA (Nat.not_le.mpr hk.2)
  · rw [Bool.and_eq_true, decide_eq_true_eq] at hk
    rw [hk.1, if_pos rfl] at hA
    exact absurd hA (Nat.not_le.mpr hk.2)
  · exact absurd h.capB (Nat.not_le.mpr hk)

theorem exec_mxmulExecute (h : CmdNext s t 0x43 c) (hok : cmdOk c = true) (hm : MulFits (mulCmd (s.fab t.r) c) c.tok.ctx) :
    exec (.mxmulExecute ⟨t, 0⟩) s = .next (cmdDone (s.updFab t.r fun f =>
      amSet f c.row c.col ((cmdWord c.tok).extractLsb' 3 3) (mulResult (mulCmd (s.fab t.r) c) f c)) t.r c (cmdEcho t.r c)) := by
  change execMxmulExecute ⟨t, 0⟩ s = _
  rw [execMxmulExecute]
  refine (execCmd_ok h hok).trans (congrArg _ ?_)
  dsimp only
  refine (if_neg ?_).trans ((if_neg hm.not_deep).trans ((if_neg hm.ready).trans ((if_neg hm.formats).trans ((if_neg hm.caps).trans ?_))))
  · rw [hm.ownsA, hm.ownsB]; decide
  · exact congrArg (fun s => cmdDone s t.r c (cmdEcho t.r c)) (State.updFab_congr rfl)

theorem exec_mxzeroExecute (h : CmdNext s t 0x45 c) (hok : cmdOk c = true) :
    exec (.mxzeroExecute ⟨t, 0⟩) s = .next (cmdDone (s.updFab t.r fun f => { f with am := f.am.filter fun x =>
      !(x.row == c.row && x.col == c.col && (cmdAccs c).contains x.acc) }) t.r c (cmdEcho t.r c)) := by
  change execMxzeroExecute ⟨t, 0⟩ s = _
  rw [execMxzeroExecute]
  rw [execCmd_ok h hok]

theorem exec_mxdrnExecute (h : CmdNext s t 0x44 c) (hok : cmdOk c = true) {first row : Nat}
    (hfirst : first = if (cmdWord c.tok).getLsbD 8 then 16 else 0) (hrow : row = ((cmdWord c.tok).extractLsb' 3 5).toNat) :
    exec (.mxdrnExecute ⟨t, 0⟩) s = .next (cmdDone
      (if c.n.var = 1 then s.updFab t.r fun f => amSet f c.row c.col ((cmdWord c.tok).extractLsb' 0 3)
        ((List.range (laneCount c.n.fmt)).map fun i => (row, first + i, 0, 24)) else s) t.r c
      ((cmdFiring t.r c).result kDATA c.n.fmt (drainRow (s.fab t.r) c ((cmdWord c.tok).extractLsb' 0 3) row first).2
        (packLanes (laneBits c.n.fmt) (drainRow (s.fab t.r) c ((cmdWord c.tok).extractLsb' 0 3) row first).1))) := by
  subst hfirst hrow
  change execMxdrnExecute ⟨t, 0⟩ s = _
  rw [execMxdrnExecute]
  rw [execCmd_ok h hok]

theorem exec_mxsigmExecute (h : CmdNext s t 0x47 c) (hok : cmdOk c = true) :
    exec (.mxsigmExecute ⟨t, 0⟩) s = .next (cmdDone s t.r c ((cmdFiring t.r c).result kDATA 5 0 (packLanes 8
      ((List.range 64).map fun i => (amGet (s.fab t.r) c.row c.col ((cmdWord c.tok).extractLsb' 0 3)
        (2 * ((cmdWord c.tok).extractLsb' 3 4).toNat + i / 32) (i % 32)).2)))) := by
  change execMxsigmExecute ⟨t, 0⟩ s = _
  rw [execMxsigmExecute]
  rw [execCmd_ok h hok]

theorem exec_mxrecExecute (h : CmdNext s t 0x46 c) (hok : cmdOk c = true) {r : OmSlot × RowRes}
    (hr : r = recRows (s.fab t.r) c ((cmdWord c.tok).extractLsb' 0 3) (8 * (((cmdWord c.tok).extractLsb' 9 2).toNat + 1)) 0
      (omSlot (s.fab t.r) c.row c.col ((cmdWord c.tok).extractLsb' 3 6))) (hd : ∃ o, r.2 = .done o) :
    exec (.mxrecExecute ⟨t, 0⟩) s = .next (cmdDone (s.updFab t.r fun f => setOmSlot f r.1) t.r c (cmdEcho t.r c)) := by
  obtain ⟨o, ho⟩ := hd
  obtain ⟨r1, r2⟩ := r
  obtain rfl : r2 = .done o := ho
  change execMxrecExecute ⟨t, 0⟩ s = _
  rw [execMxrecExecute]
  refine (execCmd_ok h hok).trans (congrArg _ ?_)
  dsimp only
  rw [← hr]

/-- The events that execute a command, with its opcode. -/
def cmdEvents (t : TileAt) : List (Instr × BitVec 8) :=
  [(.mxclmExecute ⟨t, 0⟩, 0x41), (.mxrelExecute ⟨t, 0⟩, 0x42), (.mxmulExecute ⟨t, 0⟩, 0x43), (.mxdrnExecute ⟨t, 0⟩, 0x44),
    (.mxzeroExecute ⟨t, 0⟩, 0x45), (.mxrecExecute ⟨t, 0⟩, 0x46), (.mxsigmExecute ⟨t, 0⟩, 0x47)]

/-- Each event of a tile executes a command of its opcode by some rule. -/
theorem executesCmd (s : State) (t : TileAt) {p : Instr × BitVec 8} (hp : p ∈ cmdEvents t) :
    ∃ k, exec p.1 s = execCmd s t p.2 0 k := by
  simp only [cmdEvents, List.mem_cons, List.not_mem_nil, or_false] at hp
  obtain rfl | rfl | rfl | rfl | rfl | rfl | rfl := hp
  · exact ⟨_, by change execMxclmExecute ⟨t, 0⟩ s = _; rw [execMxclmExecute]⟩
  · exact ⟨_, by change execMxrelExecute ⟨t, 0⟩ s = _; rw [execMxrelExecute]⟩
  · exact ⟨_, by change execMxmulExecute ⟨t, 0⟩ s = _; rw [execMxmulExecute]⟩
  · exact ⟨_, by change execMxdrnExecute ⟨t, 0⟩ s = _; rw [execMxdrnExecute]⟩
  · exact ⟨_, by change execMxzeroExecute ⟨t, 0⟩ s = _; rw [execMxzeroExecute]⟩
  · exact ⟨_, by change execMxrecExecute ⟨t, 0⟩ s = _; rw [execMxrecExecute]⟩
  · exact ⟨_, by change execMxsigmExecute ⟨t, 0⟩ s = _; rw [execMxsigmExecute]⟩

end Commands

/-- Settles O47: command by command. -/
theorem matrixCommandsExecute : Obligations.MatrixCommandsExecute := by
  unfold Obligations.MatrixCommandsExecute
  intro s t c hg
  have hnext : ∀ opc, cmdNext s t opc = some c → CmdNext s t opc c := fun _ h => ⟨hg, h⟩
  dsimp only
  refine ⟨fun h hf => exec_mxclmExecute (hnext _ h.1) h.2 hf, fun h hf => exec_mxclmExecute_parks (hnext _ h.1) h.2 hf,
    fun h ho => exec_mxrelExecute (hnext _ h.1) h.2 ho,
    fun h hoA hoB hd hrA hrB hp ht hcA hcB => exec_mxmulExecute (hnext _ h.1) h.2 ⟨hoA, hoB, hd, hrA, hrB, hp, ht, hcA, hcB⟩,
    fun h => exec_mxzeroExecute (hnext _ h.1) h.2, fun h => exec_mxdrnExecute (hnext _ h.1) h.2 rfl rfl,
    fun h => exec_mxsigmExecute (hnext _ h.1) h.2, fun h hd => exec_mxrecExecute (hnext _ h.1) h.2 rfl hd,
    fun p hp h hok => ?_⟩
  obtain ⟨k, hk⟩ := executesCmd s t hp
  exact hk.trans (execCmd_malformed (hnext _ h) hok)

end Sys2Proof.Machine
end

section
/-!
PROOFS. The memory nodes: the rules on special kinds, the start of an access, addresses, parameters and the accumulator (R269 to
R288).
-/

namespace Sys2Proof.Machine

open Sys2Proof

variable {s s1 : State} {opc : BitVec 8} {nf : NodeFields} {a : Token}

/-! ### The rules on special kinds (R269) -/

/-- Operands of a memory node that no rule on special kinds but that on STOPs concerns. -/
structure MemOps (s : State) (opc : BitVec 8) (nf : NodeFields) (a : Token) : Prop where
  ready : (firingAt s opc nf).ready = true
  port : (firingAt s opc nf).a = some a
  kinds : ∀ t ∈ (firingAt s opc nf).all, t.kind ≠ kERROR ∧ t.kind ≠ kBUBBLE
  pred : ∀ t, (firingAt s opc nf).p = some t → t.pred = true

/-- A port's token is one of those a PFQ entry records, but for the port's number in it. -/
theorem Firing.mem_all {x : Firing} {i : BitVec 2} {t : Token} (h : x.port i = some t) : { t with port := i } ∈ x.all := by
  have hall : ∀ i : BitVec 2, i ∈ ([0, 1, 2, 3] : List (BitVec 2)) := by decide
  exact List.mem_filterMap.mpr ⟨i, hall i, by rw [h]; rfl⟩

theorem MemOps.not_suppressed (h : MemOps s opc nf a) :
    ((firingAt s opc nf).p.any fun t => t.kind == kBUBBLE || !t.pred) = false := by
  cases hp : (firingAt s opc nf).p with
  | none => rfl
  | some t =>
    have hk : t.kind ≠ kBUBBLE := (h.kinds _ (Firing.mem_all (i := 3) hp)).2
    rw [Option.any_some, kind_beq_false hk, h.pred t hp]
    rfl

theorem MemOps.rule {stops : Bool} (h : MemOps s opc nf a) (k : State → Firing → NodeRes)
    (hs : stops = true → ∀ t ∈ (firingAt s opc nf).toks, t.kind ≠ kSTOP) :
    memRules s (firingAt s opc nf) stops k = k s (firingAt s opc nf) := by
  have he : (firingAt s opc nf).all.find? (·.kind == kERROR) = none :=
    List.find?_eq_none.mpr fun t ht hk => (h.kinds t ht).1 (beq_iff_eq.mp hk)
  have hb : ((firingAt s opc nf).all.any fun t => t.kind == kBUBBLE && t.port != 3) = false :=
    List.any_eq_false.mpr fun t ht hk => (h.kinds t ht).2 (beq_iff_eq.mp (Bool.and_eq_true _ _ ▸ hk).1)
  have hst : (stops && (firingAt s opc nf).abc.any (·.kind == kSTOP)) = false := by
    cases stops with
    | false => rfl
    | true => exact List.any_eq_false.mpr fun t ht hk => hs rfl t (Firing.mem_toks_of_mem_abc ht) (beq_iff_eq.mp hk)
  rw [memRules, if_neg (by rw [h.ready]; decide)]
  dsimp only
  rw [he]
  dsimp only
  rw [hb, h.not_suppressed, Bool.and_false, if_neg (by decide)]
  exact if_neg (Bool.eq_false_iff.mp hst)

/-- The operands of a node whose STOPs follow the general rule. -/
structure MemPlain (s : State) (opc : BitVec 8) (nf : NodeFields) (a : Token) : Prop extends MemOps s opc nf a where
  stops : ∀ t ∈ (firingAt s opc nf).toks, t.kind ≠ kSTOP

theorem memPlain_of (h : (firingAt s opc nf).ready = true ∧ (firingAt s opc nf).a = some a ∧
    (∀ t ∈ (firingAt s opc nf).all, t.kind ≠ kERROR ∧ t.kind ≠ kBUBBLE) ∧ (∀ t ∈ (firingAt s opc nf).toks, t.kind ≠ kSTOP) ∧
    (∀ t, (firingAt s opc nf).p = some t → t.pred = true)) : MemPlain s opc nf a := by
  obtain ⟨hr, ha, hk, hst, hp⟩ := h
  exact ⟨⟨hr, ha, hk, hp⟩, hst⟩

theorem MemPlain.rule (h : MemPlain s opc nf a) (stops : Bool) (k : State → Firing → NodeRes) :
    memRules s (firingAt s opc nf) stops k = k s (firingAt s opc nf) :=
  h.toMemOps.rule k fun _ => h.stops

/-! ### An access begins -/

/-- The state with an access under way, its results reserved when it has some. -/
def begun (s s1 : State) (opc : BitVec 8) (nf : NodeFields) (ps : List Piece) (wants : Bool) (block : BitVec 2) (deps : List Dep) :
    State :=
  (if wants then (reserveEntry s1 s.site block deps).2 else pushEntry s1 s.site deps 0 none).updFab s.site.r fun f => { f with
    accs := f.accs ++ [⟨f.nextId, s.site, opc, nf, (tokPorts nf).filterMap (headOf (s1.fab s.site.r) s.site),
      (firingAt s opc nf).all, memPort nf, (portSpace s1 (firingAt s opc nf)).1, (portSpace s1 (firingAt s opc nf)).2, ps, 0,
      if wants then some (s1.fab s.site.r).nextId else none, none, none, false⟩]
    nextId := f.nextId + 1 }

/-- Has an access results to send? -/
def wantsEntry (opc : BitVec 8) (nf : NodeFields) : Bool :=
  opc == 0x71 || opc == 0x73 || opc == 0x75 || opc == 0x76 || fCMPL nf

/-- The tokens at the ports are those before an entry is reserved. -/
theorem headOf_of_waiting {f g : Fabric} (h : g.waiting = f.waiting) (n : Site) : headOf g n = headOf f n := by
  funext i
  rw [headOf, headOf, h]

theorem startAcc_eq {ps : List Piece} {deps : List Dep} (hps : (ps.isEmpty && opc != 0x76) = false) :
    startAcc s1 (firingAt s opc nf) ps deps =
      .out (begun s s1 opc nf ps (wantsEntry opc nf) (accBlock (firingAt s opc nf)) deps) (tokPorts nf) [] 0 := by
  have hnf : (firingAt s opc nf).nf = nf := rfl
  have hopc : (firingAt s opc nf).opc = opc := rfl
  rw [startAcc]
  dsimp only
  rw [hopc, hnf, firingAt_n, hps, if_neg (by decide), noOut]
  refine congrArg (fun s => NodeRes.out s (tokPorts nf) [] 0) ?_
  rw [begun, wantsEntry]
  cases hw : (opc == 0x71 || opc == 0x73 || opc == 0x75 || opc == 0x76 || fCMPL nf) with
  | true =>
    have hh : headOf ((reserveEntry s1 s.site (accBlock (firingAt s opc nf)) deps).2.fab s.site.r) s.site =
        headOf (s1.fab s.site.r) s.site := by
      rw [reserveEntry, State.fab_updFab_self]
      exact headOf_of_waiting rfl _
    refine State.updFab_congr ?_
    rw [if_pos rfl, hh, if_pos rfl]
    rfl
  | false =>
    have hh : headOf ((pushEntry s1 s.site deps 0 none).fab s.site.r) s.site = headOf (s1.fab s.site.r) s.site := by
      rw [pushEntry]
      split
      · rfl
      · rw [State.fab_updFab_self]
        exact headOf_of_waiting rfl _
    refine State.updFab_congr ?_
    rw [if_neg Bool.false_ne_true, hh, if_neg Bool.false_ne_true]

/-- A node whose rule makes an access of the pieces `ps`, when they place, and else parks on the cause or waits for the link. -/
def Starts (s : State) (nf : NodeFields) (i : Instr) (opc : BitVec 8) (ps : List (Word × Nat × Nat)) (wants : Bool)
    (block : BitVec 2) (deps : List Dep) : Prop :=
  (∀ qs s1, placeAll s (firingAt s opc nf) (portSpace s (firingAt s opc nf)).1 ps = .ok qs s1 → qs ≠ [] →
    exec i s = .next (s.fired (begun s s1 opc nf qs wants block deps) opc nf (tokPorts nf) [])) ∧
  (∀ c v, placeAll s (firingAt s opc nf) (portSpace s (firingAt s opc nf)).1 ps = .trap c v →
    (linkCause c = false → exec i s =
      .next (parkFiring s (firingAt s opc nf) c { accFault (firingAt s opc nf) v (accType opc) with cut := ps } none)) ∧
    (linkCause c = true → exec i s = .next s))

theorem starts_of {i : Instr} {k : State → Firing → NodeRes} {ps : List (Word × Nat × Nat)} {wants : Bool} {block : BitVec 2}
    {deps : List Dep} (hs : s.CanStart) (hi : exec i s = fireNode s opc nf k)
    (hk : k s (firingAt s opc nf) = tryAcc s (firingAt s opc nf) ps deps) (hw : wantsEntry opc nf = wants)
    (hb : accBlock (firingAt s opc nf) = block) : Starts s nf i opc ps wants block deps := by
  refine ⟨fun qs s1 hp hne => ?_, fun c v hp => ⟨fun hl => ?_, fun hl => ?_⟩⟩
  · have hps : (qs.isEmpty && opc != 0x76) = false := by
      rw [List.isEmpty_eq_false_iff.mpr hne, Bool.false_and]
    rw [hi, fireNode_out hs (hk.trans _)]
    rw [tryAcc, hp]
    exact (startAcc_eq hps).trans (by rw [hw, hb])
  · rw [hi]
    refine fireNode_park hs (hk.trans ?_)
    rw [tryAcc, hp]
    exact if_neg (Bool.eq_false_iff.mp hl)
  · rw [hi]
    refine fireNode_wait hs (hk.trans ?_)
    rw [tryAcc, hp]
    exact if_pos hl

/-- A node whose port a is an address that is not that of an empty round fires by its own rule. -/
theorem addrNode_fires (h : MemPlain s opc nf a) (ha : isAddr a = true) (he : emptyAddr a = false)
    (k : State → Firing → Token → NodeRes) :
    ∃ k', addrNode s opc nf k = fireNode s opc nf k' ∧ k' s (firingAt s opc nf) = k s (firingAt s opc nf) a := by
  refine ⟨_, rfl, (h.rule true _).trans ?_⟩
  rw [h.port]
  dsimp only
  rw [ha, if_neg (by decide), he, if_neg (by decide)]

theorem exec_ldn_starts (hs : s.CanStart) (h : MemPlain s 0x71 nf a) (ha : isAddr a = true) (he : emptyAddr a = false)
    (hal : aligned (addrLane a 0) (accBytes nf) = true) :
    Starts s nf (.ldn nf) 0x71 (cutPieces (addrLane a 0) (accBytes nf) ++ scalePiece nf a) true 3 [] := by
  obtain ⟨k, hi, hk⟩ := addrNode_fires h ha he _
  refine starts_of hs ((show exec (.ldn nf) s = execLdn nf s from rfl).trans hi) (hk.trans ?_) rfl rfl
  dsimp only
  rw [hal, if_neg (by decide)]

theorem exec_stn_starts {b : Token} (hs : s.CanStart) (h : MemPlain s 0x72 nf a) (ha : isAddr a = true) (he : emptyAddr a = false)
    (hb : (firingAt s 0x72 nf).b = some b) (hr : fmtReserved b.fmt = false) (hf : nf.fmt = 0 ∨ b.fmt = nf.fmt)
    (hsp : (portSpace s (firingAt s 0x72 nf)).1 ≠ 2) (hal : aligned (addrLane a 0) (accBytes nf) = true) {deps : List Dep}
    (hd : deps = if nf.var = 1 then departures (s.fab s.site.r) nf s.site.row s.site.col
      (some { b with ctx := s.site.ctx, iter := s.site.iter, seq := (firingAt s 0x72 nf).seq, pred := true }) none else []) :
    Starts s nf (.stn nf) 0x72 (cutPieces (addrLane a 0) (accBytes nf) ++ scalePiece nf a) (fCMPL nf) 0 deps := by
  have hfmt : ¬(fmtReserved b.fmt || (nf.fmt != 0 && b.fmt != nf.fmt)) = true := by
    rw [hr, Bool.false_or, Bool.and_eq_true, bne_iff_ne, bne_iff_ne]
    exact fun ⟨h0, hn⟩ => hf.elim h0 hn
  obtain ⟨k, hi, hk⟩ := addrNode_fires h ha he _
  refine starts_of hs ((show exec (.stn nf) s = execStn nf s from rfl).trans hi) (hk.trans ?_) rfl rfl
  rw [hb]
  dsimp only
  rw [if_neg hfmt, if_neg (by rwa [beq_iff_eq]), hal, if_neg (by decide), hd]
  simp only [beq_iff_eq]
  rfl

/-- The cause of an atomic's operand of another format. -/
theorem not_badOperand {o : Option Token} {f : BitVec 5} (h : ∀ b, o = some b → b.fmt = f) : (o.any fun t => t.fmt != f) = false := by
  cases o with
  | none => rfl
  | some b => exact bne_eq_false_iff_eq.mpr (h b rfl)

theorem exec_atom_starts (hs : s.CanStart) (h : MemPlain s 0x75 nf a) (ha : isAddr a = true) (he : emptyAddr a = false)
    (hb : ∀ b, (firingAt s 0x75 nf).b = some b → b.fmt = nf.fmt) (hc : ∀ c, (firingAt s 0x75 nf).c = some c → c.fmt = nf.fmt) :
    Starts s nf (.atom nf) 0x75 [(addrLane a 0, laneBits nf.fmt / 8, 0)] true 0 [] := by
  obtain ⟨k, hi, hk⟩ := addrNode_fires h ha he _
  refine starts_of hs ((show exec (.atom nf) s = execAtom nf s from rfl).trans hi) (hk.trans ?_) rfl rfl
  exact if_neg (Bool.eq_false_iff.mp (Bool.or_eq_false_iff.mpr ⟨not_badOperand hb, not_badOperand hc⟩))

theorem exec_mcas_begins (hs : s.CanStart) (h : MemPlain s 0x76 nf a) (ha : isAddr a = true) (he : emptyAddr a = false) :
    exec (.mcas nf) s = .next (s.fired (begun s s 0x76 nf [] true 0 []) 0x76 nf (tokPorts nf) []) := by
  obtain ⟨k, hi, hk⟩ := addrNode_fires h ha he _
  refine ((show exec (.mcas nf) s = execMcas nf s from rfl).trans hi).trans (fireNode_out hs (hk.trans ?_))
  exact startAcc_eq rfl

theorem exec_pref (hs : s.CanStart) (h : MemPlain s 0x77 nf a) (ha : isAddr a = true) (he : emptyAddr a = false) :
    exec (.pref nf) s = .next (s.fired (prefetch s (portCtx s s.site (memPort nf)) (nf.var == 1) (addrLane a 0)) 0x77 nf
      (tokPorts nf) []) := by
  obtain ⟨k, hi, hk⟩ := addrNode_fires h ha he _
  exact ((show exec (.pref nf) s = execPref nf s from rfl).trans hi).trans (fireNode_out hs hk)

/-! ### Gather and scatter -/

section Gather
variable {i : Instr} {h : ShapeRec}

/-- A gather or scatter with its operands, room in its engine's queue and its port's shape. -/
structure GatherFires (s : State) (i : Instr) (opc : BitVec 8) (nf : NodeFields) (a : Token) (h : ShapeRec) : Prop extends
    MemPlain s opc nf a where
  start : s.CanStart
  node : exec i s = gatherNode s opc nf
  shape : portShape s s.site.r s.site.row s.site.col (memPort nf) = some h
  room : gatherQueue s s.site < 64
  fmt : a.fmt = 7 ∨ a.fmt = 3
  kind : a.kind = kINDEX ∨ a.kind = kDATA
  full : emptyAddr a = false
  value : opc = 0x74 → ∀ b, (firingAt s opc nf).b = some b → b.fmt = nf.fmt

theorem GatherFires.fires (hg : GatherFires s i opc nf a h) :
    ∃ k, exec i s = fireNode s opc nf k ∧
      (∀ ps, gatherPieces nf h a = some ps → k s (firingAt s opc nf) = tryAcc s (firingAt s opc nf) ps []) ∧
      (gatherPieces nf h a = none → k s (firingAt s opc nf) = errOut s (firingAt s opc nf) cINDEX_RANGE) := by
  have hidx : ¬(!((a.fmt == 7 || a.fmt == 3) && (a.kind == kINDEX || a.kind == kDATA))) = true := by
    obtain hf | hf := hg.fmt <;> obtain hk | hk := hg.kind <;> rw [hf, hk] <;> decide
  have hval : ¬(opc == 0x74 && ((firingAt s opc nf).b.any fun b => b.fmt != nf.fmt)) = true := by
    rw [Bool.and_eq_true, beq_iff_eq]
    exact fun ⟨ho, hb⟩ => absurd hb (Bool.eq_false_iff.mp (not_badOperand (hg.value ho)))
  refine ⟨_, hg.node, fun ps hps => ?_, fun hps => ?_⟩
  all_goals
    rw [firingAt_n]
    refine (if_neg (Nat.not_le.mpr hg.room)).trans ((hg.rule true _).trans ?_)
    rw [hg.port, firingAt_n, hg.shape]
    dsimp only
    rw [if_neg hidx, if_neg hval, hg.full, if_neg (by decide), hps]

theorem GatherFires.starts (hg : GatherFires s i opc nf a h) {ps : List (Word × Nat × Nat)} (hps : gatherPieces nf h a = some ps)
    {wants : Bool} {block : BitVec 2} (hw : wantsEntry opc nf = wants) (hb : accBlock (firingAt s opc nf) = block) :
    Starts s nf i opc ps wants block [] := by
  obtain ⟨k, hi, hk, -⟩ := hg.fires
  exact starts_of hg.start hi (hk ps hps) hw hb

theorem GatherFires.range (hg : GatherFires s i opc nf a h) (hps : gatherPieces nf h a = none) :
    exec i s = .next (s.fired (noteFault s s.site 0x83 (firingAt s opc nf).info) opc nf (tokPorts nf)
      [both ((firingAt s opc nf).error 0x83)]) := by
  obtain ⟨k, hi, -, hk⟩ := hg.fires
  exact hi.trans (fireNode_out hg.start (hk hps))

end Gather

/-! ### Parameters and address generation -/

theorem exec_param (hs : s.CanStart) (h : MemPlain s 0x79 nf a) (hf : (firingAt s 0x79 nf).badFmt = false) :
    exec (.param nf) s = .next (s.fired s 0x79 nf (tokPorts nf) [both ((firingAt s 0x79 nf).result kPARAM nf.fmt 0
      (if nf.fmt = 8 then packLanes 64 [(paramValue a).toNat, (nf.imm.extractLsb' 0 3).toNat]
       else packLanes 32 [(paramValue a).toNat]))]) := by
  change execParam nf s = _
  rw [execParam]
  refine fireNode_out hs ((h.rule true _).trans ?_)
  rw [h.port]
  dsimp only
  rw [flowChecked_eq hf]
  simp only [beq_iff_eq]
  rfl

/-! #### AGEN -/

section Agen
variable {h : ShapeRec}

/-- The fabric clock at which the token at a port that fires alone arrived. -/
def arrivedAt (s : State) (nf : NodeFields) (i : BitVec 2) : Option Nat :=
  ((firingAt s 0x70 nf).arr.find? (·.1 == i)).map (·.2.toNat)

/-- The parameter on port b comes before the token on port a: in an open round, before the end of the last one, or not later. -/
def ParamFirst (s : State) (nf : NodeFields) : Prop :=
  ∃ v, arrivedAt s nf 1 = some v ∧ ((s.node s.site).pass ≠ none ∨ v ≤ (s.node s.site).roundEnd.toNat ∨
    ∀ u, arrivedAt s nf 0 = some u → v ≤ u)

/-- Does a token on a that came before the parameter on b, at `v`, fire first? -/
def enableFirst (s : State) (nf : NodeFields) (v : Nat) : Bool :=
  !(s.node s.site).pass.isSome && (firingAt s 0x70 nf).a.isSome && (arrivedAt s nf 0).any (· < v) &&
    decide ((s.node s.site).roundEnd.toNat < v)

theorem exec_agen_param {t : Token} (hs : s.CanStart) (hsh : shapeAt s s.site.r s.site.row s.site.col s.site.slot = some h)
    (hp : ParamFirst s nf) (hb : (firingAt s 0x70 nf).b = some t) (hok : paramOk t = true) :
    exec (.agen nf) s = .next (s.fired
      (s.updNode s.site fun y => if y.pass.isSome then { y with params := y.params ++ [t] } else { y with shape := some (applyParam h t) })
      0x70 nf [1] []) := by
  obtain ⟨v, hv, hfirst⟩ := hp
  have hnot : enableFirst s nf v = false := by
    rw [enableFirst]
    obtain hpass | hend | hlate := hfirst
    · rw [Option.isSome_iff_ne_none.mpr hpass]
      rfl
    · rw [decide_eq_false (Nat.not_lt.mpr hend), Bool.and_false]
    · have hany : ((arrivedAt s nf 0).any (· < v)) = false := by
        cases hu : arrivedAt s nf 0 with
        | none => rfl
        | some u => exact decide_eq_false (Nat.not_lt.mpr (hlate u hu))
      rw [hany, Bool.and_false, Bool.false_and]
  change execAgen nf s = _
  rw [execAgen]
  refine fireNode_out hs ?_
  rw [firingAt_n, hsh]
  dsimp only
  rw [show ((firingAt s 0x70 nf).arr.find? (·.1 == 1)).map (·.2.toNat) = some v from hv, hb]
  refine (if_neg (Bool.eq_false_iff.mp hnot)).trans ?_
  rw [agenParam, hok]
  rfl

/-- A token on a that the node takes before any parameter. -/
structure EnableFires (s : State) (nf : NodeFields) (a : Token) (h : ShapeRec) : Prop where
  start : s.CanStart
  shape : shapeAt s s.site.r s.site.row s.site.col s.site.slot = some h
  first : ¬ParamFirst s nf
  port : (firingAt s 0x70 nf).a = some a
  idle : (s.node s.site).pass = none
  not_error : a.kind ≠ kERROR
  not_bubble : a.kind ≠ kBUBBLE
  fmt : fmtReserved a.fmt = false

theorem EnableFires.enableFirst (he : EnableFires s nf a h) {v : Nat} (hv : arrivedAt s nf 1 = some v) :
    Machine.enableFirst s nf v = true := by
  have hend : (s.node s.site).roundEnd.toNat < v := Nat.not_le.mp fun hle => he.first ⟨v, hv, .inr (.inl hle)⟩
  have hany : ((arrivedAt s nf 0).any (· < v)) = true := by
    cases hu : arrivedAt s nf 0 with
    | none => exact absurd ⟨v, hv, .inr (.inr fun u h0 => by rw [hu] at h0; exact absurd h0 (by simp))⟩ he.first
    | some u =>
      refine decide_eq_true (Nat.not_le.mp fun hle => he.first ⟨v, hv, .inr (.inr fun u' h0 => ?_)⟩)
      rw [hu] at h0
      exact Option.some.inj h0 ▸ hle
  rw [Machine.enableFirst, he.idle, he.port, hany, decide_eq_true hend]
  rfl

theorem EnableFires.fires (he : EnableFires s nf a h) {eat : List (BitVec 2)} {rs : List Pair}
    (hk : agenFire s nf (firingAt s 0x70 nf) a h = .out s1 eat rs 0) :
    exec (.agen nf) s = .next (s.fired s1 0x70 nf eat rs) := by
  change execAgen nf s = _
  rw [execAgen]
  refine fireNode_out he.start ?_
  rw [firingAt_n, he.shape]
  dsimp only
  rw [he.port]
  have hbusy : ¬(s.node s.site).pass.isSome = true := by rw [he.idle]; decide
  cases hb : (firingAt s 0x70 nf).b with
  | none =>
    cases ((firingAt s 0x70 nf).arr.find? (·.1 == 1)).map (·.2.toNat) <;> exact (if_neg hbusy).trans hk
  | some t =>
    cases hv : ((firingAt s 0x70 nf).arr.find? (·.1 == 1)).map (·.2.toNat) with
    | none => exact (if_neg hbusy).trans hk
    | some v =>
      have hf := he.enableFirst hv
      rw [Machine.enableFirst, he.port] at hf
      exact (if_pos hf).trans ((if_neg hbusy).trans hk)

/-- A plain token on a passes the rules on special kinds and formats. -/
theorem EnableFires.rule (he : EnableFires s nf a h) : ((firingAt s 0x70 nf).alone 0).badFmt = false ∧
    (a.kind == kERROR) = false ∧ (a.kind == kBUBBLE) = false :=
  ⟨Firing.badFmt_alone he.port he.fmt, kind_beq_false he.not_error, kind_beq_false he.not_bubble⟩

theorem EnableFires.round (he : EnableFires s nf a h) (hv : nf.var = 0) :
    exec (.agen nf) s = .next (s.fired (s.updNode s.site fun z => { z with
      pass := some ⟨a, a, 0, h.ext 0 * h.ext 1 * h.ext 2 * h.ext 3, 0, none, []⟩ }) 0x70 nf [0] []) := by
  obtain ⟨hbad, hne, hnb⟩ := he.rule
  have htotal : ((List.range 4).map h.ext).foldl (· * ·) 1 = h.ext 0 * h.ext 1 * h.ext 2 * h.ext 3 := by
    rw [show List.range 4 = [0, 1, 2, 3] from rfl]
    simp only [List.map_cons, List.map_nil, List.foldl_cons, List.foldl_nil, Nat.one_mul]
  refine he.fires ?_
  rw [agenFire]
  dsimp only
  rw [hne, if_neg (by decide), hnb, if_neg (by decide), flowChecked_eq hbad, hv, if_pos (by decide), htotal]
  rfl

/-- No index of a list passes its extent. -/
theorem index_in_range {n : Nat} {f e : Nat → Nat} (hlt : ∀ j < n, f j < e j) :
    (((List.range n).map f).zipIdx.any fun p => decide (e p.2 ≤ p.1)) = false := by
  rw [List.any_eq_false]
  rintro ⟨i, j⟩ hm hle
  obtain ⟨hj, hi⟩ := List.getElem?_eq_some_iff.mp (List.mem_zipIdx_iff_getElem?.mp hm)
  rw [List.length_map, List.length_range] at hj
  rw [List.getElem_map, List.getElem_range] at hi
  exact Nat.not_le.mpr (hlt j hj) (hi ▸ of_decide_eq_true hle)

theorem EnableFires.address (he : EnableFires s nf a h) (hv : nf.var ≠ 0) (hk : a.kind = kDATA ∨ a.kind = kINDEX)
    (hf : a.fmt = 3 ∨ a.fmt = 7) (hlt : ∀ j < h.ndim.toNat, a.lane 32 j < h.ext j) :
    exec (.agen nf) s = .next (s.fired s 0x70 nf [0] [both (addrTok (((firingAt s 0x70 nf).alone 0).result kINDEX 8 0 0) h true
      ((List.range h.ndim.toNat).map fun j => a.lane 32 j) (a.scale &&& 0xF) ((firingAt s 0x70 nf).alone 0).seq)]) := by
  obtain ⟨hbad, hne, hnb⟩ := he.rule
  have hns : (a.kind == kSTOP) = false := by obtain hk | hk := hk <;> rw [hk] <;> rfl
  have hidx : ¬(!((a.fmt == 3 || a.fmt == 7) && (a.kind == kDATA || a.kind == kINDEX))) = true := by
    obtain hf | hf := hf <;> obtain hk | hk := hk <;> rw [hf, hk] <;> decide
  refine he.fires ?_
  rw [agenFire]
  dsimp only
  rw [hne, if_neg (by decide), hnb, if_neg (by decide), flowChecked_eq hbad, if_neg (by rwa [beq_iff_eq]), hns, if_neg (by decide),
    if_neg hidx, if_neg (Bool.eq_false_iff.mp (index_in_range hlt))]

end Agen

/-! ### The sparse accumulator -/

section Spacc
variable {h : ShapeRec}

/-- A SPACC with its operands, its row free or its own, and its port's earlier accesses over. -/
structure SpaccFires (s : State) (nf : NodeFields) (a : Token) (h : ShapeRec) : Prop extends MemOps s 0x78 nf a where
  start : s.CanStart
  shape : portShape s s.site.r s.site.row s.site.col (memPort nf) = some h
  flush : (s.node s.site).flush = none
  bound : ∀ b ∈ (s.node s.site).bound, b = (s.site.ctx, s.site.iter)
  idle : portBusy s (firingAt s 0x78 nf) = false

/-- The entries that a token on a adds to: index and value. -/
def spEntries (a : Token) : List (Nat × Nat) :=
  ((List.range 16).map fun i => (a.lane 32 i % 65536, a.lane 32 i / 65536)).filter fun p => p.1 != 0xFFFF

/-- The row of the node belongs to the firing's activation. -/
def bindRow (s t : State) : State := t.updNode s.site fun z => { z with bound := some (s.site.ctx, s.site.iter) }

theorem SpaccFires.not_held (hf : SpaccFires s nf a h) :
    ((s.node s.site).flush.isSome || (s.node s.site).bound.any fun b => !(b.1 == s.site.ctx && b.2 == s.site.iter)) = false := by
  rw [hf.flush]
  cases hb : (s.node s.site).bound with
  | none => rfl
  | some b =>
    rw [hf.bound b hb]
    simp

/-- A firing of SPACC is that of its own rule, by the token on a. -/
theorem SpaccFires.fires (hf : SpaccFires s nf a h) : ∃ k, exec (.spacc nf) s = fireNode s 0x78 nf k ∧
    (isData a 0x13 = true →
      ((∃ p ∈ spEntries a, h.e0.toNat ≤ p.1) → k s (firingAt s 0x78 nf) = errOut (bindRow s s) (firingAt s 0x78 nf) cINDEX_RANGE) ∧
      ((∀ p ∈ spEntries a, p.1 < h.e0.toNat) →
        (∀ o, spRange h.base.toNat h.e0.toNat ((spEntries a).map (·.1)) = some o →
          k s (firingAt s 0x78 nf) = spPark (firingAt s 0x78 nf) o 3) ∧
        (spRange h.base.toNat h.e0.toNat ((spEntries a).map (·.1)) = none → k s (firingAt s 0x78 nf) =
          noOut (bindRow s (s.updFab s.site.r fun f => (spEntries a).foldl
            (fun f p => spAdd f s.site h.base.toNat h.e0.toNat p.1 p.2 (min a.sig.toNat 11)) f)) (firingAt s 0x78 nf)))) ∧
    (a.kind = kSTOP → spRange h.base.toNat h.e0.toNat [h.e0.toNat - 1] = none → k s (firingAt s 0x78 nf) =
      .out ((bindRow s (s.updFab s.site.r fun _ => (spFlush (firingAt s 0x78 nf) (s.fab s.site.r) h.base.toNat h.e0.toNat).2)).updNode
        s.site fun z => { z with
          flush := some ((firingAt s 0x78 nf).retag a)
          pass := some ⟨(firingAt s 0x78 nf).retag a, a, 0, 0, 0, none,
            (spFlush (firingAt s 0x78 nf) (s.fab s.site.r) h.base.toNat h.e0.toNat).1⟩ }) ((tokPorts nf).filter (· != 0)) [] 0) := by
  refine ⟨_, rfl, fun hd => ?_, fun hk hr => ?_⟩
  · have hns : (a.kind == kSTOP) = false := by
      have hkd : a.kind = kDATA := beq_iff_eq.mp (Bool.and_eq_true _ _ ▸ hd).1
      rw [hkd]
      rfl
    refine ⟨fun hbad => ?_, fun hin => ⟨fun o ho => ?_, fun ho => ?_⟩⟩
    all_goals
      dsimp only
      rw [firingAt_n]
      refine (if_neg (Bool.eq_false_iff.mp hf.not_held)).trans ((hf.toMemOps.rule _ fun h => absurd h (by decide)).trans ?_)
      rw [hf.port, firingAt_n, hf.shape]
      dsimp only
      rw [hf.idle, if_neg (by decide), hns, if_neg (by decide), hd, if_neg (by decide)]
    · exact if_pos (by
        obtain ⟨p, hp, hle⟩ := hbad
        exact List.any_eq_true.mpr ⟨p, hp, decide_eq_true hle⟩)
    · refine (if_neg ?_).trans ?_
      · rw [List.any_eq_true]
        exact fun ⟨p, hp, hle⟩ => absurd (of_decide_eq_true hle) (Nat.not_le.mpr (hin p hp))
      · rw [spEntries] at ho
        rw [ho]
    · refine (if_neg ?_).trans ?_
      · rw [List.any_eq_true]
        exact fun ⟨p, hp, hle⟩ => absurd (of_decide_eq_true hle) (Nat.not_le.mpr (hin p hp))
      · rw [spEntries] at ho
        rw [ho]
        rfl
  · dsimp only
    rw [firingAt_n]
    refine (if_neg (Bool.eq_false_iff.mp hf.not_held)).trans ((hf.toMemOps.rule _ fun h => absurd h (by decide)).trans ?_)
    rw [hf.port, firingAt_n, hf.shape]
    dsimp only
    rw [hf.idle, if_neg (by decide), hk, if_pos (by decide), hr]
    rfl

end Spacc

/-- Settles O48: each node's rule at its plain operands, an access being begun by `startAcc` once its pieces place. -/
theorem memoryNodesStartTheirAccesses : Obligations.MemoryNodesStartTheirAccesses := by
  unfold Obligations.MemoryNodesStartTheirAccesses
  intro s nf a hs
  refine ⟨?_, ?_, ?_, ?_, ?_, ?_, ?_, ?_, ?_⟩
  · exact fun hp ⟨ha, he⟩ hal => exec_ldn_starts hs (memPlain_of hp) ha he hal
  · exact fun b hp ⟨ha, he⟩ hb hr hf hsp hal => exec_stn_starts hs (memPlain_of hp) ha he hb hr hf hsp hal rfl
  · intro p hp h hsh hpl hroom hf hk he hv
    have hg : GatherFires s p.1 p.2 nf a h := ⟨memPlain_of hpl, hs, by
      simp only [List.mem_cons, List.not_mem_nil, or_false] at hp
      obtain rfl | rfl := hp <;> rfl, hsh, hroom, hf, hk, he, hv⟩
    refine ⟨fun ps hps => hg.starts hps ?_ ?_, hg.range⟩
    all_goals
      simp only [List.mem_cons, List.not_mem_nil, or_false] at hp
      obtain rfl | rfl := hp
    · rfl
    · rfl
    · simp [accBlock, firingAt]
    · rfl
  · exact fun hp ⟨ha, he⟩ hb hc => exec_atom_starts hs (memPlain_of hp) ha he hb hc
  · exact fun hp ⟨ha, he⟩ => exec_mcas_begins hs (memPlain_of hp) ha he
  · exact fun hp ⟨ha, he⟩ => exec_pref hs (memPlain_of hp) ha he
  · exact fun hp hf => exec_param hs (memPlain_of hp) hf
  · refine fun h hsh => ⟨fun t hp hb hok => exec_agen_param hs hsh hp hb hok, fun hp ha hi hne hnb hf => ?_⟩
    have he : EnableFires s nf a h := ⟨hs, hsh, hp, ha, hi, hne, hnb, hf⟩
    exact ⟨he.round, he.address⟩
  · intro h hsh
    dsimp only
    intro hr ha hk hp hfl hbd hidle
    have hf : SpaccFires s nf a h := ⟨⟨hr, ha, hk, hp⟩, hs, hsh, hfl, hbd, hidle⟩
    obtain ⟨k, hi, hdata, hstop⟩ := hf.fires
    refine ⟨fun hd => ⟨fun hin ho => ?_, fun o hin ho => ?_, fun hbad => ?_⟩, fun hst ho => ?_⟩
    · exact hi.trans (fireNode_out hs (((hdata hd).2 hin).2 ho))
    · exact hi.trans (fireNode_park hs (((hdata hd).2 hin).1 o ho))
    · exact hi.trans (fireNode_out hs ((hdata hd).1 hbad))
    · exact hi.trans (fireNode_out hs (hstop hst ho))

end Sys2Proof.Machine
end

section
/-!
PROOFS. Accesses perform and emissions leave (R76, R77, R271, R285 to R288, R333, R338, R363).
-/

namespace Sys2Proof.Machine

open Sys2Proof

variable {s s1 : State} {nf : NodeFields} {n : Site} {r : RegionId} {k : Nat} {a : Acc} {p : Pass}

/-! ### Emissions -/

section Agen
variable {h : ShapeRec}

/-- The token of an AGEN's open round that leaves next. -/
def roundTok (h : ShapeRec) (p : Pass) : Token :=
  if p.total = 0 then addrTok p.enable h false [] (BitVec.ofNat 64 (2 ^ h.ndim.toNat - 1)) 0
  else addrTok p.enable h true (roundIdx h p.point) (BitVec.ofNat 64 (ctrMarks ((List.range h.ndim.toNat).map h.ext) p.point))
    (BitVec.ofNat 16 p.point)

/-- The node's state once it has left: the round goes on, or ends and the held parameters apply. -/
def roundNext (s : State) (h : ShapeRec) (p : Pass) (y : NodeSt) : NodeSt :=
  if p.point + 1 < p.total then { y with pass := some { p with point := p.point + 1 } }
  else { y with pass := none, params := [], shape := some (y.params.foldl applyParam h), roundEnd := s.fclock }

theorem exec_agenEmit (ho : PassOpen s n p) (hf : fieldsAt s n.r n.row n.col n.slot = some (0x70, nf))
    (hsh : shapeAt s n.r n.row n.col n.slot = some h) :
    exec (.agenEmit n) s = .next (chainEmit (s.updNode n (roundNext s h p)) n nf (some (roundTok h p)) (some (roundTok h p))) := by
  change execAgenEmit n s = _
  rw [execAgenEmit, hf, ho.pass, hsh]
  dsimp only
  rw [if_pos (by rw [ho.going, decide_eq_true ho.room]; rfl)]
  rfl

theorem roundNext_within (hp : p.point + 1 < p.total) :
    roundNext s h p = fun y => { y with pass := some { p with point := p.point + 1 } } :=
  funext fun _ => if_pos hp

theorem roundNext_last (hp : p.total ≤ p.point + 1) : roundNext s h p = fun y =>
    { y with pass := none, params := [], shape := some (y.params.foldl applyParam h), roundEnd := s.fclock } :=
  funext fun _ => if_neg (Nat.not_lt.mpr hp)

theorem roundTok_within (hp : p.point + 1 < p.total) : roundTok h p = addrTok p.enable h true (roundIdx h p.point)
    (BitVec.ofNat 64 (ctrMarks ((List.range h.ndim.toNat).map h.ext) p.point)) (BitVec.ofNat 16 p.point) :=
  if_neg (Nat.ne_of_gt (Nat.lt_of_le_of_lt (Nat.zero_le _) hp))

end Agen

section Flush
variable {st t : Token} {rest : List Token}

theorem exec_spaccFlushEmit_token (ho : PassOpen s n p) (hf : fieldsAt s n.r n.row n.col n.slot = some (0x78, nf))
    (hst : (s.node n).flush = some st) (hout : p.out = t :: rest) : exec (.spaccFlushEmit n) s =
      .next (chainEmit (setPass s n (some { p with out := rest })) n nf (some t) none) := by
  change execSpaccFlushEmit n s = _
  rw [execSpaccFlushEmit, hf, hst, ho.pass]
  dsimp only
  rw [if_pos (by rw [ho.going, decide_eq_true ho.room]; rfl), hout]

theorem exec_spaccFlushEmit_stop (ho : PassOpen s n p) (hf : fieldsAt s n.r n.row n.col n.slot = some (0x78, nf))
    (hst : (s.node n).flush = some st) (hout : p.out = []) : exec (.spaccFlushEmit n) s =
      .next (chainEmit ((eatPorts s { n with ctx := st.ctx, iter := st.iter } [0]).updNode n fun z =>
        { z with flush := none, pass := none, bound := none }) n nf (some st) none) := by
  change execSpaccFlushEmit n s = _
  rw [execSpaccFlushEmit, hf, hst, ho.pass]
  dsimp only
  rw [if_pos (by rw [ho.going, decide_eq_true ho.room]; rfl), hout]

end Flush

/-! ### Accesses -/

/-- An access whose turn it is. -/
structure AccTurn (s : State) (r : RegionId) (k : Nat) (a : Acc) : Prop where
  found : (s.fab r).accs.find? (·.id = k / 64) = some a
  going : accessing s r = true
  free : a.held = false
  own : a.site.r = r

theorem AccTurn.goes (h : AccTurn s r k a) : ¬(!accessing s r || a.held || a.site.r != r) = true := by
  rw [h.going, h.free, h.own, bne_self_eq_false]
  decide

theorem AccTurn.mcas (h : AccTurn s r k a) (ho : a.opc = 0x76) (hw : a.mwres ≠ none) :
    exec (.accessPerform r k) s = .next (accDone s a) := by
  obtain ⟨w, hw⟩ := Option.ne_none_iff_exists'.mp hw
  change execAccessPerform r k s = _
  rw [execAccessPerform, h.found]
  dsimp only
  rw [if_neg h.goes, if_pos (by rw [ho]; rfl), mcasStep, hw]

/-- A piece of an access that may perform. -/
structure PieceTurn (s : State) (r : RegionId) (k : Nat) (a : Acc) (q : Piece) : Prop extends AccTurn s r k a where
  plain : a.opc ≠ 0x76
  piece : a.pieces[k % 64]? = some q
  open_ : q.done = false
  order : mayPerform (s.fab r) a q = true
  board : scoreboardHas (s.fab r) a (k % 64) = true

section Piece
variable {q : Piece}

theorem PieceTurn.ok {v : Nat} (h : PieceTurn s r k a q) (hv : performPiece s a q = .ok v s1) :
    exec (.accessPerform r k) s = .next (if (pieceDone a (k % 64) v).pieces.all (·.done) then accDone s1 (pieceDone a (k % 64) v)
      else touch (setAcc s1 (pieceDone a (k % 64) v)) r) := by
  change execAccessPerform r k s = _
  rw [execAccessPerform, h.found]
  dsimp only
  rw [if_neg h.goes, if_neg (by rw [beq_iff_eq]; exact h.plain), h.piece]
  dsimp only
  rw [if_neg (by rw [h.open_, h.order, h.board]; decide), hv]

theorem PieceTurn.trap {c : BitVec 8} {va : Word} (h : PieceTurn s r k a q) (hv : performPiece s a q = .trap c va) :
    exec (.accessPerform r k) s = .next (accPark s a c va) := by
  change execAccessPerform r k s = _
  rw [execAccessPerform, h.found]
  dsimp only
  rw [if_neg h.goes, if_neg (by rw [beq_iff_eq]; exact h.plain), h.piece]
  dsimp only
  rw [if_neg (by rw [h.open_, h.order, h.board]; decide), hv]

theorem overDead_scratch (s : State) (pa : Nat) : overDead s 0 pa = false := rfl

theorem performPiece_scratch_load (hsp : a.space = 0) (ho : a.opc = 0x71 ∨ a.opc = 0x73) :
    performPiece s a q = .ok (scrRead (s.fab a.site.r) a.site.row a.site.col q.pa q.n) s := by
  rw [performPiece, hsp, overDead_scratch, if_neg (by decide)]
  obtain ho | ho := ho <;> rw [ho] <;> rfl

theorem performPiece_scratch_store {b : Token} (hsp : a.space = 0) (ho : a.opc = 0x72 ∨ a.opc = 0x74) (hb : a.arg 1 = some b) :
    performPiece s a q = .ok 0 (s.updFab a.site.r fun f =>
      scrWrite f a.site.row a.site.col q.pa (storeBytesOf b q.off q.n) q.n) := by
  rw [performPiece, hsp, overDead_scratch, if_neg (by decide), hb]
  obtain ho | ho := ho <;> rw [ho] <;> rfl

end Piece

/-! ### Held accesses -/

/-- A held access of a region that runs, with room for what its fault would record. -/
structure HeldAcc (s : State) (r : RegionId) (k : Nat) (a : Acc) : Prop where
  found : (s.fab r).accs.find? (·.id = k) = some a
  held : a.held = true
  running : (s.ctl r).st = .running
  own : a.site.r = r
  merger : mergerRoom s.ms (s.ctl r).part = true

theorem HeldAcc.again (h : HeldAcc s r k a) (hk : (s.ctl r).killing = none)
    (hroom : isParked (s.fab r) a.site.ctx a.site.iter = true ∨ parkCount (s.fab r) < 256) :
    exec (.heldAccessRetranslate r k) s = .next (readyAgain (dropAcc s a) r a.ops) := by
  change execHeldAccessRetranslate r k s = _
  rw [execHeldAccessRetranslate, h.found]
  dsimp only
  have hr : (isParked (s.fab r) a.site.ctx a.site.iter || decide (parkCount (s.fab r) < 256)) = true := by
    rw [Bool.or_eq_true, decide_eq_true_eq]
    exact hroom
  rw [h.held, h.running, h.own, h.merger, hk, Option.isSome_none, Bool.false_or, hr, beq_self_eq_true, beq_self_eq_true]
  rfl

theorem HeldAcc.inPlace {ps : List Piece} (h : HeldAcc s r k a) (hk : (s.ctl r).killing ≠ none) (ho : a.opc ≠ 0x76)
    (hsp : (portSpace s (accFiring a)).1 ≠ 2)
    (hp : placeAll s (accFiring a) (portSpace s (accFiring a)).1 ((a.pieces.filter (!·.done)).map fun p => (p.va, p.n, p.off)) =
      .ok ps s1) :
    exec (.heldAccessRetranslate r k) s = .next (setAcc s1 { a with
      held := false, space := (portSpace s (accFiring a)).1, ct := (portSpace s (accFiring a)).2
      pieces := a.pieces.filter (·.done) ++ ps }) := by
  change execHeldAccessRetranslate r k s = _
  rw [execHeldAccessRetranslate, h.found]
  dsimp only
  rw [h.held, h.running, h.own, h.merger, Option.isSome_iff_ne_none.mpr hk, beq_self_eq_true, beq_self_eq_true, Bool.true_or, Bool.true_or,
    if_pos (by decide), if_pos rfl, retranslate]
  dsimp only
  rw [if_neg (by rwa [beq_iff_eq]), if_neg (by rwa [beq_iff_eq]), placeAgain, hp]
  rfl

theorem exec_parkTableRetry_free (hroom : parkCount (s.fab n.r) < 256)
    (hn : ∀ a ∈ (s.fab n.r).accs, a.held = true → a.site ≠ n) :
    exec (.parkTableRetry n) s = .next { s with agenda := .fire n :: s.agenda } := by
  have hf : (s.fab n.r).accs.find? (fun a => a.held && a.site == n) = none := by
    rw [List.find?_eq_none]
    intro a ha
    rw [Bool.and_eq_true, beq_iff_eq]
    exact fun ⟨hh, hs⟩ => hn a ha hh hs
  change execParkTableRetry n s = _
  rw [execParkTableRetry, hf]
  dsimp only
  rw [if_pos hroom]

theorem exec_parkTableRetry_held (hroom : parkCount (s.fab n.r) < 256)
    (hf : (s.fab n.r).accs.find? (fun a => a.held && a.site == n) = some a) (hr : (s.ctl n.r).st = .running)
    (hk : (s.ctl n.r).killing = none) :
    exec (.parkTableRetry n) s = .next { readyAgain (dropAcc s a) n.r a.ops with agenda := .fire n :: s.agenda } := by
  change execParkTableRetry n s = _
  rw [execParkTableRetry, hf, hk]
  dsimp only
  rw [if_pos hroom, if_pos hr]

/-- Settles O49: each event in its turn. -/
theorem accessesPerformAndEmissionsLeave : Obligations.AccessesPerformAndEmissionsLeave := by
  unfold Obligations.AccessesPerformAndEmissionsLeave
  intro s
  refine ⟨fun n nf p hg hroom hp => ⟨fun h hf hsh => ?_, fun st hf hst => ?_⟩, fun r k a hf ha hh hr => ⟨?_, ?_⟩, ?_, ?_, ?_⟩
  · have ho : PassOpen s n p := ⟨hg, hroom, hp⟩
    have he := exec_agenEmit ho hf hsh
    refine ⟨fun hw => ?_, fun hl => ?_⟩
    · rw [he, roundNext_within hw, roundTok_within hw]
    · rw [he, roundNext_last hl]
      rfl
  · have ho : PassOpen s n p := ⟨hg, hroom, hp⟩
    exact ⟨fun t rest hout => exec_spaccFlushEmit_token ho hf hst hout, exec_spaccFlushEmit_stop ho hf hst⟩
  · intro p hopc hpc hd hm hb
    have ht : PieceTurn s r k a p := ⟨⟨hf, ha, hh, hr⟩, hopc, hpc, hd, hm, hb⟩
    exact ⟨fun v s1 hv => ht.ok hv, fun c va hv => ht.trap hv⟩
  · exact AccTurn.mcas ⟨hf, ha, hh, hr⟩
  · exact fun a p b hsp => ⟨performPiece_scratch_load hsp, performPiece_scratch_store hsp⟩
  · intro r k a hf hh hr ho hm
    have h : HeldAcc s r k a := ⟨hf, hh, hr, ho, hm⟩
    exact ⟨h.again, fun ps s1 => h.inPlace⟩
  · exact fun n hroom => ⟨exec_parkTableRetry_free hroom, fun a => exec_parkTableRetry_held hroom⟩

end Sys2Proof.Machine
end

section
/-!
PROOFS. The rule nodes: DELTA, ALPHA, the beta memories of BJOIN and BNEG, SCORE and TERM (R312, R315 to R323).
-/

namespace Sys2Proof.Machine

open Sys2Proof

variable {s s1 : State} {nf : NodeFields} {a b c : Token} {opc : BitVec 8} {h : ShapeRec}

/-! ### DELTA, ALPHA, TERM -/

theorem isData_kind {t : Token} {f : BitVec 5} (hd : isData t f = true) : t.kind = kDATA :=
  beq_iff_eq.mp (Bool.and_eq_true _ _ ▸ hd).1

/-- A data token is of no special kind. -/
theorem ruleSpecial_of_data {t : Token} {f : BitVec 5} (hd : isData t f = true) : ruleSpecial t = false := by
  rw [ruleSpecial, isData_kind hd]
  rfl

/-- A half of a delta on one of DELTA's routes. -/
def deltaHalf (s : State) (nf : NodeFields) (d : Delta) (k : Nat) : Token :=
  { (firingAt s 0x80 nf).result kDATA 0x14 0 (packLanes 64 (((d.words.drop (8 * k)).take 8).map (·.toNat))) with
    scale := BitVec.ofNat 64 k, seq := d.n }

theorem exec_delta {d : Delta} {rest : List Delta} (hs : s.CanStart) (hq : (s.fab s.site.r).injq = d :: rest)
    (hc : s.site.ctx = 0) (hi : s.site.iter = d.n) (hroom : (s.rules (s.ctl s.site.r).part).unsettled.length < 256)
    (hpos : d.neg = true → ∀ e ∈ (s.rules (s.ctl s.site.r).part).unsettled, e.neg = false → e.tt ≠ d.tt) :
    exec (.delta nf) s = .next (s.fired ((s.updFab s.site.r fun f => { f with injq := rest }).updRules (s.ctl s.site.r).part fun q =>
      { q with unsettled := q.unsettled ++ [d] }) 0x80 nf [] [(some (deltaHalf s nf d 0), some (deltaHalf s nf d 1))]) := by
  have hopen : (d.neg && (s.rules (s.ctl s.site.r).part).unsettled.any fun e => !e.neg && e.tt == d.tt) = false := by
    cases hn : d.neg with
    | false => rfl
    | true =>
      rw [Bool.true_and, List.any_eq_false]
      intro e he
      rw [Bool.and_eq_true, Bool.not_eq_true', beq_iff_eq]
      exact fun ⟨hen, ht⟩ => hpos hn e he hen ht
  change execDelta nf s = _
  rw [execDelta]
  refine fireNode_out hs ?_
  rw [firingAt_n, hq]
  dsimp only
  rw [hopen, hc, hi, bne_self_eq_false, bne_self_eq_false, decide_eq_false (Nat.not_le.mpr hroom), if_neg (by decide)]
  rfl

section Alpha

/-- The words of the WME that ALPHA tests. -/
def alphaWords (s : State) (nf : NodeFields) (a : Token) : List Word := lanes64 a ++ (((firingAt s 0x81 nf).c.map lanes64).getD [])

/-- ALPHA's three data operands are at its ports. -/
structure AlphaFires (s : State) (nf : NodeFields) (a b : Token) : Prop where
  start : s.CanStart
  ready : (firingAt s 0x81 nf).ready = true
  data : ∀ t ∈ (firingAt s 0x81 nf).toks, isData t 0x14 = true
  porta : (firingAt s 0x81 nf).a = some a
  portb : (firingAt s 0x81 nf).b = some b

/-- ALPHA's descriptor passes a WME: its class and its tests. -/
def alphaPass (ws : List Word) (l : List Word) : Bool :=
  (ws.headD 0).extractLsb' 48 16 == (l.headD 0).extractLsb' 0 16 &&
    (List.range ((l.headD 0).extractLsb' 24 4).toNat).all (alphaTest l fun i => ws.getD i 0)

theorem alphaPass_iff {ws l : List Word} : alphaPass ws l = true ↔ (ws.headD 0).extractLsb' 48 16 = (l.headD 0).extractLsb' 0 16 ∧
    ∀ k < ((l.headD 0).extractLsb' 24 4).toNat, alphaTest l (fun i => ws.getD i 0) k = true := by
  rw [alphaPass, Bool.and_eq_true, beq_iff_eq, List.all_eq_true]
  simp only [List.mem_range]

theorem AlphaFires.fires (hf : AlphaFires s nf a b) {rs : List Pair}
    (hk : (if alphaPass (alphaWords s nf a) (lanes64 b) then
        [both (condTok (firingAt s 0x81 nf) ((List.range 8).map fun i =>
          (if i = (((lanes64 b).headD 0).extractLsb' 16 3).toNat then
            (((alphaWords s nf a).headD 0).extractLsb' 8 40).zeroExtend 64 else 0) |||
          (if i = 7 then (if ((alphaWords s nf a).headD 0).getLsbD 7 then 1#64 <<< 63 else 0) else 0))
          (if (((lanes64 b).headD 0).extractLsb' 20 4).toNat = 0 then 0
            else (alphaWords s nf a).getD (((lanes64 b).headD 0).extractLsb' 20 4).toNat 0))] else []) = rs) :
    exec (.alpha nf) s = .next (s.fired s 0x81 nf (tokPorts nf) rs) := by
  have hspecial : (firingAt s 0x81 nf).toks.any ruleSpecial = false :=
    List.any_eq_false.mpr fun t ht => Bool.eq_false_iff.mp (ruleSpecial_of_data (hf.data t ht))
  have hfmt : ((firingAt s 0x81 nf).toks.any fun t => !isData t 0x14) = false :=
    List.any_eq_false.mpr fun t ht => by rw [hf.data t ht]; decide
  change execAlpha nf s = _
  rw [execAlpha]
  refine fireNode_out hf.start ?_
  rw [hf.ready, if_neg (by decide), hspecial, if_neg (by decide), hfmt, if_neg (by decide), hf.porta, hf.portb]
  rw [← hk]
  by_cases hp : alphaPass (alphaWords s nf a) (lanes64 b) = true
  · rw [if_pos hp]
    exact if_pos hp
  · rw [if_neg hp]
    exact if_neg hp

end Alpha

theorem exec_alpha_special (hs : s.CanStart) (hr : (firingAt s 0x81 nf).ready = true)
    (hsp : ∃ t ∈ (firingAt s 0x81 nf).toks, t.kind = kBUBBLE ∨ t.kind = kSTOP)
    (hne : ∀ t ∈ (firingAt s 0x81 nf).toks, t.kind ≠ kERROR) :
    exec (.alpha nf) s = .next (s.fired s 0x81 nf (tokPorts nf) []) := by
  obtain ⟨t, ht, hk⟩ := hsp
  have hany : (firingAt s 0x81 nf).toks.any ruleSpecial = true :=
    List.any_eq_true.mpr ⟨t, ht, by obtain hk | hk := hk <;> rw [ruleSpecial, hk] <;> rfl⟩
  change execAlpha nf s = _
  rw [execAlpha]
  refine fireNode_out hs ?_
  rw [hr, if_neg (by decide), hany, if_pos rfl, ruleConsume, Firing.find_error_eq_none hne]

theorem exec_term (hs : s.CanStart) (ha : (firingAt s 0x85 nf).a = some a) (hb : (firingAt s 0x85 nf).b = some b)
    (hd : isData a 8 = true) :
    exec (.term nf) s = .next (s.fired (s.updRules (s.ctl s.site.r).part fun q => { q with
      deliveries := q.deliveries ++ [⟨((s.rules (s.ctl s.site.r).part).deliveries.map (·.id)).foldl max 0 + 1,
        (s.site.row, s.site.col, s.site.slot), s.site.iter, lanes64 a, lanes64 b,
        (((s.rules (s.ctl s.site.r).part).unsettled.find? (·.n == s.site.iter)).map (·.stamp)).getD
          (s.rules (s.ctl s.site.r).part).wave⟩] }) 0x85 nf [0] []) := by
  change execTerm nf s = _
  rw [execTerm]
  refine fireNode_out hs ?_
  rw [ha, hb]
  dsimp only
  rw [ruleSpecial_of_data hd, if_neg (by decide), hd, if_neg (by decide)]
  rfl

/-! ### BJOIN and BNEG -/

/-- A token at the head of the port that a rule node takes next. -/
structure RuleFirst (s : State) (opc : BitVec 8) (nf : NodeFields) (i : BitVec 2) (t : Token) : Prop where
  first : mergePort (ruleHeads s (firingAt s opc nf)) = some i
  port : (firingAt s opc nf).port i = some t
  data : isData t 8 = true

section Beta
variable {i : BitVec 2} {ins : Instr}

/-- A beta node that takes a token. -/
structure BetaFires (s : State) (ins : Instr) (opc : BitVec 8) (nf : NodeFields) (i : BitVec 2) (a : Token) (h : ShapeRec) :
    Prop extends RuleFirst s opc nf i a where
  start : s.CanStart
  node : exec ins s = betaNode s opc nf
  shape : portShape s s.site.r s.site.row s.site.col (memPort nf) = some h

/-- The beta memory of a node's port. -/
def betaOf (s : State) (h : ShapeRec) : Beta := ⟨s.site.row, s.site.col, h.base.toNat, h.e0.toNat⟩

/-- The first entry of a beta memory past the scratch. -/
def betaPast (s : State) (h : ShapeRec) (a : Token) : Option Nat :=
  pastScratch 128 ((betaOrder (betaOf s h) a.scale).map ((betaOf s h).base + 128 * ·))

/-- What a token does to a node's beta memory. -/
def betaStepOf (s : State) (opc : BitVec 8) (i : BitVec 2) (a : Token) (h : ShapeRec) : Option (Fabric × List (List Word)) :=
  betaStep (opc == 0x83) (s.fab s.site.r) (betaOf s h) (i == 0) (lanes64 a) a.scale

theorem BetaFires.fires (hb : BetaFires s ins opc nf i a h) : ∃ k, exec ins s = fireNode s opc nf k ∧
    (∀ o, betaPast s h a = some o → k s (firingAt s opc nf) = scrPark ((firingAt s opc nf).alone i) o 128) ∧
    (∀ f rs ks s1, betaPast s h a = none → betaStepOf s opc i a h = some (f, rs) →
      outKeys s ((firingAt s opc nf).alone i) (nf.imm.extractLsb' 2 3).toNat (nf.imm.extractLsb' 5 4).toNat rs = .ok ks s1 →
      k s (firingAt s opc nf) = .out (s1.updFab s.site.r fun _ => f) [i]
        ((rs.zip ks).map fun r => both (condTok ((firingAt s opc nf).alone i) r.1 r.2)) 0) ∧
    (betaPast s h a = none → betaStepOf s opc i a h = none →
      k s (firingAt s opc nf) = .park cRMN_MEM_FULL ((firingAt s opc nf).alone i).info none) := by
  refine ⟨_, hb.node, fun o ho => ?_, fun f rs ks s1 hp hst hks => ?_, fun hp hst => ?_⟩
  all_goals
    dsimp only
    rw [firingAt_n, hb.start.2.1, hb.first]
    refine (if_neg (by decide)).trans ?_
    dsimp only
    rw [hb.port, hb.shape]
    dsimp only
    rw [ruleSpecial_of_data hb.data, if_neg (by decide), hb.data, if_neg (by decide)]
  · rw [betaPast, betaOf] at ho
    rw [ho]
  · rw [betaPast, betaOf] at hp
    rw [betaStepOf, betaOf] at hst
    rw [hp, hst]
    dsimp only
    rw [hks]
  · rw [betaPast, betaOf] at hp
    rw [betaStepOf, betaOf] at hst
    rw [hp, hst]

end Beta

/-! ### SCORE -/

section Score
variable {i : BitVec 2}

/-- What a firing reads of attributes depends on its site alone. -/
theorem scoreValues_congr {x y : Firing} (hn : x.n = y.n) (ls : List Word) (c : Token) (is : List Nat) :
    scoreValues s x ls c is = scoreValues s y ls c is := by
  have hr : ∀ s c attr, readAttr s x ls c attr = readAttr s y ls c attr := fun s c attr => by rw [readAttr, readAttr, hn]
  induction is generalizing s with
  | nil => rfl
  | cons i is ih => simp only [scoreValues, ih, hr]

/-- SCORE's selection and its port's shape. -/
structure ScoreFires (s : State) (nf : NodeFields) (i : BitVec 2) (a c : Token) (h : ShapeRec) : Prop extends
    RuleFirst s 0x84 nf i a where
  start : s.CanStart
  sel : (firingAt s 0x84 nf).c = some c
  shape : portShape s s.site.r s.site.row s.site.col (memPort nf) = some h

/-- The key of a + token whose values hash to `hash`. -/
def scoreKey (nf : NodeFields) (hash : Word) : Word :=
  1#64 <<< 63 ||| (nf.imm.extractLsb' 6 12).zeroExtend 64 <<< 48 ||| (hash &&& 0xFFFFFFFFFFFF)

/-- SCORE's firing as its rule sees it. -/
def scoreFiring (s : State) (nf : NodeFields) : Firing := ruleHeads s (firingAt s 0x84 nf)

theorem ScoreFires.fires (hf : ScoreFires s nf i a c h) : ∃ k, exec (.score nf) s = fireNode s 0x84 nf k ∧
    (i = 1 → k s (firingAt s 0x84 nf) = scoreReturn s nf ((scoreFiring s nf).alone i) a c h) ∧
    (i = 0 → a.payload.getLsbD 511 = true → k s (firingAt s 0x84 nf) = .out s [0] [(some a, none)] 0) ∧
    (∀ vs hash s1, i = 0 → a.payload.getLsbD 511 = false →
      scoreValues s ((scoreFiring s nf).alone i) (lanes64 a) c [5, 4, 3, 2, 1, 0] = .ok (vs, hash) s1 →
      ∃ other, k s (firingAt s 0x84 nf) =
        orElseRes s1 (scoreHold s1 nf ((scoreFiring s nf).alone i) a c vs (scoreKey nf hash) h) other) := by
  have hport : (scoreFiring s nf).port i = some a := hf.port
  have hsel : (scoreFiring s nf).c = some c := hf.sel
  have hn : (scoreFiring s nf).n = s.site := rfl
  refine ⟨_, rfl, fun hi => ?_, fun hi hneg => ?_, fun vs hash s1 hi hpos hv => ?_⟩
  all_goals
    dsimp only
    rw [show ruleHeads s (firingAt s 0x84 nf) = scoreFiring s nf from rfl, hn, hf.start.2.1,
      if_neg (show ¬(!([] : List (List Dep)).isEmpty) = true by decide), show mergePort (scoreFiring s nf) = some i from hf.first]
    dsimp only
    rw [hport, hsel, hf.shape]
    dsimp only
    rw [ruleSpecial_of_data hf.data, if_neg (by decide), hf.data, if_neg (by decide)]
  · exact if_pos hi
  · rw [if_neg (by rw [hi]; decide), if_pos hneg]
  · rw [if_neg (by rw [hi]; decide), if_neg (by rw [hpos]; decide), hv]
    exact ⟨_, rfl⟩

/-- The pending keys of SCORE at a site hold fewer tokens than they may. -/
def scoreRoom (s : State) : Prop := ((s.node s.site).keys.map (·.held.length)).sum < 64

/-- A + token on a whose values are read. -/
structure ScoreHolds (s s1 : State) (nf : NodeFields) (a c : Token) (h : ShapeRec) (vs : List Word) (hash : Word) : Prop extends
    ScoreFires s nf 0 a c h where
  pos : a.payload.getLsbD 511 = false
  values : scoreValues s ((firingAt s 0x84 nf).alone 0) (lanes64 a) c [5, 4, 3, 2, 1, 0] = .ok (vs, hash) s1

section Hold
variable {vs : List Word} {hash : Word}

/-- A token is held under its pending key. -/
def holdUnder (key : Word) (a : Token) (y : NodeSt) : NodeSt :=
  { y with keys := y.keys.map fun k => if k.key == key then { k with held := k.held ++ [a] } else k }

theorem ScoreHolds.fires (hf : ScoreHolds s s1 nf a c h vs hash) : ∃ k other, exec (.score nf) s = fireNode s 0x84 nf k ∧
    k s (firingAt s 0x84 nf) = orElseRes s1 (scoreHold s1 nf ((scoreFiring s nf).alone 0) a c vs (scoreKey nf hash) h) other := by
  obtain ⟨k, hi, -, -, hk⟩ := hf.toScoreFires.fires
  obtain ⟨other, ho⟩ := hk vs hash s1 rfl hf.pos (hf.values ▸ scoreValues_congr rfl _ _ _)
  exact ⟨k, other, hi, ho⟩

theorem ScoreHolds.out (hf : ScoreHolds s s1 nf a c h vs hash) {s2 : State} {eat : List (BitVec 2)} {rs : List Pair}
    (hk : scoreHold s1 nf ((scoreFiring s nf).alone 0) a c vs (scoreKey nf hash) h = .out s2 eat rs 0) :
    exec (.score nf) s = .next (s.fired s2 0x84 nf eat rs) := by
  obtain ⟨k, other, hi, ho⟩ := hf.fires
  exact hi.trans (fireNode_out hf.start (ho.trans (orElseRes_out _ hk)))

theorem ScoreHolds.past (hf : ScoreHolds s s1 nf a c h vs hash) {o : Nat}
    (hp : scorePast (scoreProbe (s1.fab s.site.r) s.site h (scoreKey nf hash)) (·.2.1 == scoreKey nf hash) = some o) :
    exec (.score nf) s = .next (parkFiring s (firingAt s 0x84 nf) 0x64
      (accInfo ((firingAt s 0x84 nf).alone 0) (BitVec.ofNat 64 o) 16 1) none) := by
  obtain ⟨k, other, hi, ho⟩ := hf.fires
  rw [scoreHold] at ho
  dsimp only at ho
  rw [show ((scoreFiring s nf).alone 0).n = s.site from rfl, hp] at ho
  exact hi.trans (fireNode_park hf.start ho)

/-- The rule of a + token whose probe stays within the scratch. -/
theorem scoreHold_within (hp : scorePast (scoreProbe (s1.fab s.site.r) s.site h (scoreKey nf hash)) (·.2.1 == scoreKey nf hash) = none) :
    (∀ e, (scoreProbe (s1.fab s.site.r) s.site h (scoreKey nf hash)).find? (fun e => e.2.1 == scoreKey nf hash) = some e →
      scoreHold s1 nf ((scoreFiring s nf).alone 0) a c vs (scoreKey nf hash) h =
        .out s1 [0] [(scored (selThr c) (e.2.2.extractLsb' 0 16) a, none)] 0) ∧
    ((scoreProbe (s1.fab s.site.r) s.site h (scoreKey nf hash)).find? (fun e => e.2.1 == scoreKey nf hash) = none →
      ((s1.node s.site).keys.map (·.held.length)).sum < 64 →
      ((s1.node s.site).keys.any (·.key == scoreKey nf hash) = true →
        scoreHold s1 nf ((scoreFiring s nf).alone 0) a c vs (scoreKey nf hash) h =
          .out (s1.updNode s.site (holdUnder (scoreKey nf hash) a)) [0] [] 0) ∧
      ((s1.node s.site).keys.any (·.key == scoreKey nf hash) = false → (s1.node s.site).keys.length < 32 →
        scoreHold s1 nf ((scoreFiring s nf).alone 0) a c vs (scoreKey nf hash) h =
          .out (s1.updNode s.site fun y => { y with
            keys := y.keys ++ [⟨scoreKey nf hash, s1.fclock, selTimeout c, [a]⟩] }) [0]
            [(none, some (((firingAt s 0x84 nf).alone 0).result kDATA 8 0 (packLanes 64
              ((scoreKey nf hash :: (nf.imm.extractLsb' 6 12).zeroExtend 64 :: vs).map (·.toNat)))))] 0)) := by
  have hn : ((scoreFiring s nf).alone 0).n = s.site := rfl
  refine ⟨fun e he => ?_, fun he hroom => ⟨fun hk => ?_, fun hk hl => ?_⟩⟩
  all_goals
    rw [scoreHold]
    dsimp only
    rw [hn, hp, he]
  · rw [hk, decide_eq_false (Nat.not_le.mpr hroom)]
    rfl
  · rw [hk, decide_eq_false (Nat.not_le.mpr hroom), decide_eq_false (Nat.not_le.mpr hl)]
    rfl

end Hold

/-- A return on b. -/
theorem ScoreFires.returns (hf : ScoreFires s nf 1 a c h) : ∃ k, exec (.score nf) s = fireNode s 0x84 nf k ∧
    k s (firingAt s 0x84 nf) = scoreReturn s nf ((scoreFiring s nf).alone 1) a c h := by
  obtain ⟨k, hi, hk, -, -⟩ := hf.fires
  exact ⟨k, hi, hk rfl⟩

theorem exec_score_return_unknown (hf : ScoreFires s nf 1 a c h)
    (hk : (s.node s.site).keys.find? (·.key == a.payload.extractLsb' 0 64) = none) :
    exec (.score nf) s = .next (s.fired s 0x84 nf [1] []) := by
  obtain ⟨k, hi, ho⟩ := hf.returns
  refine hi.trans (fireNode_out hf.start (ho.trans ?_))
  rw [scoreReturn, show ((scoreFiring s nf).alone 1).n = s.site from rfl]
  dsimp only
  rw [hk]

/-- The state once a score is stored in its entry and its key is no longer pending. -/
def scoreStored (s : State) (e : Nat × Word × Word) (key : Word) (sc : BitVec 16) : State :=
  (s.updNode s.site fun y => { y with keys := y.keys.filter (·.key != key) }).updFab s.site.r fun f =>
    scrWrite (scrWrite f s.site.row s.site.col e.1 key.toNat 8) s.site.row s.site.col (e.1 + 8) sc.toNat 8

theorem exec_score_return {k : ScoreKey} {e : Nat × Word × Word} (hf : ScoreFires s nf 1 a c h)
    (hk : (s.node s.site).keys.find? (·.key == a.payload.extractLsb' 0 64) = some k)
    (hp : scorePast (scoreProbe (s.fab s.site.r) s.site h (a.payload.extractLsb' 0 64)) (fun e => !e.2.1.getLsbD 63) = none)
    (he : (scoreProbe (s.fab s.site.r) s.site h (a.payload.extractLsb' 0 64)).find? (fun e => !e.2.1.getLsbD 63) = some e) :
    exec (.score nf) s = .next (finishFire (scoreStored s e (a.payload.extractLsb' 0 64) (a.payload.extractLsb' 64 16))
      (firingAt s 0x84 nf) [1]
      ((k.held.filterMap (scored (selThr c) (a.payload.extractLsb' 64 16))).map fun t =>
        departures ((scoreStored s e (a.payload.extractLsb' 0 64) (a.payload.extractLsb' 64 16)).fab s.site.r) nf s.site.row s.site.col
          (some t) none)
      (k.held.filterMap (scored (selThr c) (a.payload.extractLsb' 64 16))).head? 0) := by
  obtain ⟨g, hi, ho⟩ := hf.returns
  refine hi.trans (fireNode_sent hf.start (ho.trans ?_))
  rw [scoreReturn, show ((scoreFiring s nf).alone 1).n = s.site from rfl]
  dsimp only
  rw [hk]
  dsimp only
  rw [hp, he]
  rfl

/-- The site of the first token that a key holds. -/
def heldSite (n : Site) (k : ScoreKey) : Site :=
  match k.held.head? with
  | some t => { n with ctx := t.ctx, iter := t.iter }
  | none => n

/-- A key is dropped with the tokens it holds, and the entry says so. -/
def keyDropped (s : State) (nf : NodeFields) (k : ScoreKey) (key : Word) : State :=
  noteFault (s.updNode s.site fun y => { y with keys := y.keys.filter (·.key != key) }) (heldSite s.site k) cSCORE_TIMEOUT
    { node := nodeBits 0x84 nf, seq := (k.held.head?.map (·.seq)).getD 0, ops := k.held.take 1 }

theorem exec_scoreTimeout {key : Word} {k : ScoreKey} (hs : s.CanStart) (hk : (s.node s.site).keys.find? (·.key == key) = some k)
    (hf : fieldsAt s s.site.r s.site.row s.site.col s.site.slot = some (0x84, nf))
    (ht : k.since.toNat + k.timeout ≤ s.fclock.toNat) :
    exec (.scoreTimeout s.site key) s = .next ((keyDropped s nf k key).updRules ((keyDropped s nf k key).ctl s.site.r).part fun q =>
      { q with scoreTimeout := true }) := by
  have hrun : ((s.ctl s.site.r).st == .running) = true := by
    have hg := hs.going
    simp only [regionGoing, Bool.and_eq_true] at hg
    exact hg.1.1.1.1
  change execScoreTimeout s.site key s = _
  rw [execScoreTimeout, hk, hf]
  dsimp only
  rw [if_pos (by rw [hrun, decide_eq_true ht]; rfl)]
  rfl

end Score

/-- Settles O50: each rule node's firing for the token it takes. -/
theorem ruleNodesMatchAndDeliver : Obligations.RuleNodesMatchAndDeliver := by
  unfold Obligations.RuleNodesMatchAndDeliver
  intro s nf a b c hs
  refine ⟨?_, ?_, ?_, ?_, ?_, ?_, ?_⟩
  · exact fun d rest hq hc hi hroom hpos => exec_delta hs hq hc hi hroom hpos
  · intro x hr hd ha hb
    have hf : AlphaFires s nf a b := ⟨hs, hr, hd, ha, hb⟩
    exact ⟨fun hp => hf.fires (if_pos (alphaPass_iff.mpr hp)), fun hp => hf.fires (if_neg (mt alphaPass_iff.mp hp))⟩
  · intro bneg i h
    cases bneg
    all_goals
      intro opc ins y m step past ⟨hm, hp, hd⟩ hsh
      have hb : BetaFires s ins opc nf i a h := ⟨⟨hm, hp, hd⟩, hs, rfl, hsh⟩
      obtain ⟨k, hi, hpast, hstep, hfull⟩ := hb.fires
      exact ⟨fun o ho => hi.trans (fireNode_park hs (hpast o ho)),
        fun f rs ks s1 hp0 hst hks => hi.trans (fireNode_out hs (hstep f rs ks s1 hp0 hst hks)),
        fun hp0 hst => hi.trans (fireNode_park hs (hfull hp0 hst))⟩
  · intro h
    dsimp only
    intro hc hsh
    refine ⟨?_, ?_, ?_, ?_⟩
    · rintro ⟨hm, hp, hd⟩ hneg
      obtain ⟨k, hi, -, hk, -⟩ := (show ScoreFires s nf 0 a c h from ⟨⟨hm, hp, hd⟩, hs, hc, hsh⟩).fires
      exact hi.trans (fireNode_out hs (hk rfl hneg))
    · rintro vs hash s1 ⟨hm, hp, hd⟩ hpos hv
      have hf : ScoreHolds s s1 nf a c h vs hash := ⟨⟨⟨hm, hp, hd⟩, hs, hc, hsh⟩, hpos, hv⟩
      refine ⟨fun o ho => hf.past ho, fun ho => ?_⟩
      obtain ⟨hknown, hnew⟩ := scoreHold_within (a := a) (c := c) (vs := vs) ho
      exact ⟨fun e he => hf.out (hknown e he), fun he hroom hk => hf.out ((hnew he hroom).1 hk),
        fun he hroom hk hl => hf.out ((hnew he hroom).2 hk hl)⟩
    · rintro ⟨hm, hp, hd⟩ hk
      exact exec_score_return_unknown ⟨⟨hm, hp, hd⟩, hs, hc, hsh⟩ hk
    · rintro k e ⟨hm, hp, hd⟩ hk hpast he
      exact exec_score_return ⟨⟨hm, hp, hd⟩, hs, hc, hsh⟩ hk hpast he
  · exact exec_term hs
  · exact exec_alpha_special hs
  · rintro key k opc hk hf rfl ht
    exact exec_scoreTimeout hs hk hf ht

end Sys2Proof.Machine
end

section
/-!
PROOFS. Tokens hop and are delivered, and the periodic events of regions (R20, R35 to R37, R39, R345 to R347, R362, R363, R390).
-/

namespace Sys2Proof.Machine

open Sys2Proof

variable {s : State} {r : RegionId} {src : TokSrc} {t bad : Token} {d : Dest} {row : BitVec 5} {col : BitVec 6} {row' col' : Int}
  {dir : Dir} {par : Flips} {g : Cfg}

/-! ### What taking a token from its queue leaves -/

theorem SameActs.trans {u v : State} (h : SameActs r s u) (h' : SameActs r u v) : SameActs r s v :=
  ⟨h'.ctl.trans h.ctl, h'.dbg.trans h.dbg, h'.bindings.trans h.bindings, h'.dead.trans h.dead, h'.parkTab.trans h.parkTab⟩

theorem SameActs.isParked {u : State} (h : SameActs r s u) (ctx : BitVec 12) (iter : BitVec 16) :
    Machine.isParked (u.fab r) ctx iter = Machine.isParked (s.fab r) ctx iter := by
  rw [Machine.isParked, h.parkTab, ← Machine.isParked]

theorem SameActs.isDead {u : State} (h : SameActs r s u) (ctx : BitVec 12) (iter : BitVec 16) :
    Machine.isDead (u.fab r) ctx iter = Machine.isDead (s.fab r) ctx iter := by
  rw [Machine.isDead, h.dead, ← Machine.isDead]

theorem sameActs_noteSent (s : State) (r : RegionId) (row : BitVec 5) (col : BitVec 6) (dir : Dir) :
    SameActs r s (noteSent s r row col dir) := (SameActs.refl r s).updFab _ rfl rfl rfl

theorem sameActs_noteDel (s : State) (r : RegionId) (t : Token) (src : TokSrc) : SameActs r s (noteDel s r t src) :=
  (SameActs.refl r s).updFab (fun f => { f with
    lastDel := (t.drow, t.dcol, t.node, t.port, srcRank src, s.fclock) ::
      f.lastDel.filter fun x => !(x.1 == t.drow && x.2.1 == t.dcol && x.2.2.1 == t.node && x.2.2.2.1 == t.port) }) rfl rfl rfl

theorem eraseFirst_sublist {α : Type} (p : α → Bool) (l : List α) : (eraseFirst p l).Sublist l := by
  induction l with
  | nil => exact List.Sublist.refl _
  | cons a l ih =>
    rw [eraseFirst]
    split
    · exact List.sublist_cons_self a l
    · exact ih.cons_cons a

theorem waiting_setOutq (s : State) (r : RegionId) (row : BitVec 5) (col slot : BitVec 6) (q : List OutEntry) :
    ((setOutq s r row col slot q).fab r).waiting = (s.fab r).waiting := by
  rw [setOutq]
  split
  · rw [State.updNode, State.fab_updFab_self, State.fab_updFab_self]
    rfl
  · rw [State.fab_updFab_self]

/-- Taking a token from its queue brings none into the matching stores. -/
theorem waiting_removeTok (s : State) (r : RegionId) (src : TokSrc) :
    ((removeTok s r src).fab r).waiting.Sublist (s.fab r).waiting := by
  cases src with
  | link row col dir =>
    rw [removeTok, State.fab_updFab_self]
  | out row col slot route =>
    rw [removeTok]
    split
    · exact List.Sublist.refl _
    · dsimp only
      split
      · rw [takeInput, State.fab_updFab_self]
        exact waiting_setOutq s r row col slot _ ▸ eraseFirst_sublist _ _
      · rw [waiting_setOutq]

theorem fclock_removeTok (s : State) (r : RegionId) (src : TokSrc) : (removeTok s r src).fclock = s.fclock := by
  cases src with
  | link row col dir => rfl
  | out row col slot route =>
    rw [removeTok]
    split
    · rfl
    · dsimp only
      split
      · rw [takeInput, State.fclock_updFab, setOutq]
        split <;> rfl
      · rw [setOutq]
        split <;> rfl

/-! ### Hops -/

/-- A token whose next hop lies within the shape, over a stream and to a queue that can take it. -/
structure Hops (s : State) (r : RegionId) (src : TokSrc) (t : Token) (d : Dest) (row : BitVec 5) (col : BitVec 6) (row' col' : Int)
    (dir : Dir) : Prop where
  going : regionGoing s r = true
  tok : tokAt s r src = some (t, d, row, col)
  hop : nextHop row.toNat col.toNat d = some (row', col', dir)
  inside : insideCfg s r row' col' = true
  room : linkCount (s.fab r) (BitVec.ofInt 5 row') (BitVec.ofInt 6 col') dir < 16

theorem checkOf_clean (t : Token) : checkOf t 0 = .pass t := if_pos rfl

theorem lastCheck_clean (s : State) (r : RegionId) (row : BitVec 5) (col : BitVec 6) (t : Token) :
    lastCheck s r row col t 0 = (some t, s) := by
  rw [lastCheck, checkOf_clean]

theorem lastCheck_tagged {flips : BitVec 664} (h : checkOf t flips = .tagged bad) :
    lastCheck s r row col t flips = (some (bad.toError 0x80), parityFault s r row col (some bad)) := by
  rw [lastCheck, h]
  rfl

theorem checkParity_pass (h : par.first = 0) : checkParity s r row col t par = (some t, s) := by
  rw [checkParity, h, checkOf_clean]

theorem checkParity_again (h : ∀ u, checkOf t par.first ≠ .pass u) :
    checkParity s r row col t par = lastCheck s r row col t par.second := by
  rw [checkParity]
  cases hc : checkOf t par.first with
  | pass u => exact absurd hc (h u)
  | tagged _ | lost => rfl

theorem Hops.waits (h : Hops s r src t d row col row' col' dir)
    (hu : streamUsed s r (BitVec.ofInt 5 row') (BitVec.ofInt 6 col') dir = true) : exec (.tokenHop r src par) s = .next s := by
  change execTokenHop r src par s = _
  rw [execTokenHop, h.going, if_neg (by decide), h.tok]
  dsimp only
  rw [h.hop]
  dsimp only
  rw [h.inside, hu]
  exact if_pos (by rw [Bool.or_true, Bool.true_or])

/-- A token that a check at its queue and one over the stream let on, as `u`, stands in the queue of the next tile. -/
theorem Hops.hops (h : Hops s r src t d row col row' col' dir)
    (hu : streamUsed s r (BitVec.ofInt 5 row') (BitVec.ofInt 6 col') dir = false) {s0 s1 : State} {v u : Token}
    (hq : lastCheck s r row col t par.queue = (some v, s0))
    (hp : checkParity (noteSent s0 r (BitVec.ofInt 5 row') (BitVec.ofInt 6 col') dir) r (BitVec.ofInt 5 row') (BitVec.ofInt 6 col') v par =
      (some u, s1)) (hk : isParked ((removeTok s1 r src).fab r) u.ctx u.iter = false) :
    exec (.tokenHop r src par) s = .next ((removeTok s1 r src).updFab r fun f =>
      { f with links := f.links ++ [⟨BitVec.ofInt 5 row', BitVec.ofInt 6 col', dir, d, u⟩] }) := by
  change execTokenHop r src par s = _
  rw [execTokenHop, h.going, if_neg (by decide), h.tok]
  dsimp only
  rw [h.hop]
  dsimp only
  rw [h.inside, hu, decide_eq_false (Nat.not_le.mpr h.room), if_neg (by decide), hq]
  dsimp only
  rw [hp]
  dsimp only
  rw [hk]
  exact if_neg Bool.false_ne_true

/-! ### Deliveries -/

/-- A token at its destination's tile, or at the boundary of the shape, that may be delivered. -/
structure Delivers (s : State) (r : RegionId) (src : TokSrc) (t : Token) (d : Dest) (row : BitVec 5) (col : BitVec 6) (g : Cfg) :
    Prop where
  may : deliverable s r src = true
  tok : tokAt s r src = some (t, d, row, col)
  cfg : (s.ctl r).cfg = some g

theorem Delivers.waits (h : Delivers s r src t d row col g) (hn : nextHop row.toNat col.toNat d = none)
    (ho : outOfTurn s r t src = true) : exec (.tokenDeliver r src par) s = .next s := by
  change execTokenDeliver r src par s = _
  rw [execTokenDeliver, h.may, if_neg (by decide), h.tok, h.cfg]
  dsimp only
  rw [hn]
  exact if_pos ho

/-- A token that no comparator matches, of an activation neither parked nor dead, is stored while its tile has room. -/
theorem arriveTok_stores (hd : isDead (s.fab r) t.ctx t.iter = false) (hk : isParked (s.fab r) t.ctx t.iter = false)
    (hc : ∀ i, cmpMatches (s.dbg r) t i = false) (hl : doneLid s r t = none)
    (hroom : (s.fab r).waiting.countP (fun w => !w.spilled && w.tok.drow == t.drow && w.tok.dcol == t.dcol) <
      msEntries t.drow.toNat t.dcol.toNat) (flips : BitVec 664) :
    arriveTok s r t flips = some (s.updFab r fun f => { f with waiting := f.waiting ++ [⟨false, s.fclock, flips, t⟩] }) := by
  have hnone : (List.finRange 16).filter (cmpMatches (s.dbg r) t) = [] :=
    List.filter_eq_nil_iff.mpr fun i _ => by rw [hc i]; decide
  rw [arriveTok, hd, if_neg (by decide), hk, if_neg (by decide), deliverTok, hnone, List.foldl_nil]
  dsimp only
  rw [if_neg (by decide), storeTok, hl]
  dsimp only
  rw [decide_eq_true hroom, Bool.true_or]
  exact if_pos rfl

theorem Delivers.delivers (h : Delivers s r src t d row col g) (hn : nextHop row.toNat col.toNat d = none)
    (hd : isDead (s.fab r) t.ctx t.iter = false) (hk : isParked (s.fab r) t.ctx t.iter = false)
    (hc : ∀ i, cmpMatches (s.dbg r) t i = false) (hl : doneLid s r t = none) (ho : outOfTurn s r t src = false)
    (hroom : (s.fab r).waiting.countP (fun w => !w.spilled && w.tok.drow == t.drow && w.tok.dcol == t.dcol) <
      msEntries t.drow.toNat t.dcol.toNat) :
    exec (.tokenDeliver r src .clean) s = .next ((noteDel (removeTok s r src) r t src).updFab r fun f =>
      { f with waiting := f.waiting ++ [⟨false, s.fclock, 0, t⟩] }) := by
  have hsame := (sameActs_removeTok s r src).trans (sameActs_noteDel (removeTok s r src) r t src)
  have hw : ((noteDel (removeTok s r src) r t src).fab r).waiting.Sublist (s.fab r).waiting := by
    rw [noteDel, State.fab_updFab_self]
    exact waiting_removeTok s r src
  have hclock : (noteDel (removeTok s r src) r t src).fclock = s.fclock := fclock_removeTok s r src
  have harr := arriveTok_stores (s := noteDel (removeTok s r src) r t src) ((hsame.isDead _ _).trans hd) ((hsame.isParked _ _).trans hk)
    (fun i => hsame.dbg ▸ hc i) ((hsame.doneLid t).trans hl) (Nat.lt_of_le_of_lt hw.countP_le hroom) 0
  change execTokenDeliver r src .clean s = _
  rw [execTokenDeliver, h.may, if_neg (by decide), h.tok, h.cfg]
  dsimp only
  rw [hn]
  dsimp only
  rw [ho, if_neg (by decide), show Flips.clean.queue = 0 from rfl, lastCheck_clean]
  dsimp only
  rw [show Flips.clean.store = 0 from rfl, harr, orFreeze, hclock]

theorem deliverable_of_going (h : regionGoing s r = true) : deliverable s r src = true := by
  cases src with
  | out _ _ _ _ => exact h
  | link _ _ _ =>
    simp only [regionGoing, Bool.and_eq_true, beq_iff_eq] at h
    rw [deliverable, h.1.1.1.1, h.1.2]
    rfl

theorem exec_tokenDeliver_edge {side : BitVec 2} {idx : BitVec 8} (hg : regionGoing s r = true)
    (ht : tokAt s r src = some (t, d, row, col)) (hcfg : (s.ctl r).cfg = some g)
    (hn : nextHop row.toNat col.toNat d = some (row', col', dir)) (hin : insideCfg s r row' col' = false)
    (he : edgePort g d = some (side, idx)) :
    exec (.tokenDeliver r src .clean) s = .next ((removeTok s r src).updFab r fun f =>
      { f with edge := f.edge ++ [⟨side, idx, 0, t⟩] }) := by
  change execTokenDeliver r src .clean s = _
  rw [execTokenDeliver, deliverable_of_going hg, if_neg (by decide), ht, hcfg]
  dsimp only
  rw [hn]
  dsimp only
  rw [hin, hg, if_neg (by decide), he]
  dsimp only
  rw [show Flips.clean.queue = 0 from rfl, lastCheck_clean]
  rfl

/-! ### Refills -/

/-- Does a waiting token stand in the matching store of a token's tile? -/
def atTileOf (w x : WaitTok) : Bool := x.tok.drow == w.tok.drow && x.tok.dcol == w.tok.dcol

/-- The tile of the k-th waiting token has room in its matching store. -/
structure Refills (s : State) (r : RegionId) (k : Nat) (w : WaitTok) : Prop where
  going : regionGoing s r = true
  tok : (s.fab r).waiting[k]? = some w
  room : (s.fab r).waiting.countP (fun x => !x.spilled && atTileOf w x) < msEntries w.tok.drow.toNat w.tok.dcol.toNat

theorem Refills.refills {k : Nat} {w x : WaitTok} (h : Refills s r k w)
    (hx : (s.fab r).waiting[(s.fab r).waiting.findIdx fun x => x.spilled && atTileOf w x]? = some x) (hf : x.flips = 0) :
    exec (.sprueRefill r k) s = .next (s.updFab r fun f => { f with
      waiting := f.waiting.modify ((s.fab r).waiting.findIdx fun x => x.spilled && atTileOf w x) fun y =>
        { y with spilled := false, tok := x.tok, flips := 0 } }) := by
  have hroom := h.room
  simp only [atTileOf] at hroom hx
  change execSprueRefill r k s = _
  rw [execSprueRefill, h.going, if_neg (by decide), h.tok]
  dsimp only
  rw [if_neg (Nat.not_le.mpr hroom), hx]
  dsimp only
  rw [hf, lastCheck_clean]
  rfl

theorem Refills.none {k : Nat} {w : WaitTok} (h : Refills s r k w)
    (hn : ∀ x ∈ (s.fab r).waiting, (x.spilled && atTileOf w x) = false) : exec (.sprueRefill r k) s = .next s := by
  have hroom := h.room
  have hi : (s.fab r).waiting[(s.fab r).waiting.findIdx fun x => x.spilled && atTileOf w x]? = Option.none := by
    rw [List.findIdx_eq_length.mpr hn, List.getElem?_eq_none (Nat.le_refl _)]
  simp only [atTileOf] at hroom hi
  change execSprueRefill r k s = _
  rw [execSprueRefill, h.going, if_neg (by decide), h.tok]
  dsimp only
  rw [if_neg (Nat.not_le.mpr hroom), hi]

/-! ### Quiescence and hangs -/

theorem exec_regionQuiescence_begins (hh : (s.ctl r).heldStore = none) (hk : (s.ctl r).killing = none) (hq : quiescent s r = true)
    (ha : (s.ctl r).quietAt = none) :
    exec (.regionQuiescence r) s = .next (s.updCtl r fun c => { c with quietAt := some s.fclock }) := by
  change execRegionQuiescence r s = _
  rw [execRegionQuiescence, hh]
  dsimp only
  rw [hk, hq, if_neg (by decide), if_neg (by decide), ha]

theorem exec_regionQuiescence_ends {t : Word} (hh : (s.ctl r).heldStore = none) (hk : (s.ctl r).killing = none)
    (hq : quiescent s r = true) (ha : (s.ctl r).quietAt = some t) (hlt : t.toNat < s.fclock.toNat) :
    exec (.regionQuiescence r) s = .next (finalStore s r 1) := by
  change execRegionQuiescence r s = _
  rw [execRegionQuiescence, hh]
  dsimp only
  rw [hk, hq, if_neg (by decide), if_neg (by decide), ha]
  dsimp only
  rw [if_pos hlt]

theorem exec_regionQuiescence_kill (hh : (s.ctl r).heldStore = none) (hk : (s.ctl r).killing ≠ none) :
    exec (.regionQuiescence r) s = .next (killDone s r) := by
  change execRegionQuiescence r s = _
  rw [execRegionQuiescence, hh]
  exact if_pos (Option.isSome_iff_ne_none.mpr hk)

theorem exec_regionQuiescence_held {v : Word} {x : Nat} (hh : (s.ctl r).heldStore = some (v, 0, x)) :
    exec (.regionQuiescence r) s = .next (finalStore s r v) := by
  change execRegionQuiescence r s = _
  rw [execRegionQuiescence, hh]
  rfl

theorem exec_hangTimeout {va : Word} {s1 : State} (hh : hangs s r = true) (hm : writeHangMap s r = .ok va s1) :
    exec (.hangTimeout r) s = .next (freeze s1 r 0x84 va) := by
  change execHangTimeout r s = _
  rw [execHangTimeout, hh, if_pos rfl, hm]
  rfl

theorem hangs_of (hg : regionGoing s r = true)
    (h : (heldTokens (s.fab r) ≠ 0 ∧
        (s.ctl r).lastFire.toNat + 2 ^ max 10 (s.syscfg.extractLsb' 10 5).toNat ≤ s.fclock.toNat) ∨
      ((s.dbg r).replay ≠ none ∧ (s.dbg r).replayAt.toNat + 2 ^ max 10 (s.syscfg.extractLsb' 10 5).toNat ≤ s.fclock.toNat)) :
    hangs s r = true := by
  rw [hangs]
  dsimp only
  rw [hg, Bool.true_and, Bool.or_eq_true, Bool.and_eq_true, Bool.and_eq_true, bne_iff_ne, decide_eq_true_eq, decide_eq_true_eq,
    Option.isSome_iff_ne_none]
  exact h

/-! ### Errors of a configuration store -/

section Ue
variable {t : TileAt}

/-- A region that runs, awake, with its configuration. -/
structure UeRegion (s : State) (t : TileAt) (g : Cfg) : Prop where
  running : (s.ctl t.r).st = .running
  awake : (s.ctl t.r).power = 0
  cfg : (s.ctl t.r).cfg = some g

/-- The tile's place on its die. -/
def ueTile (s : State) (t : TileAt) : BitVec 5 × BitVec 6 := dieTile (s.ctl t.r) t.row t.col

/-- The error is noted for the tile. -/
def ueNoted (s : State) (t : TileAt) (u : State) : State := u.updDie (dieOfRegion t.r) fun x => { x with
  ueLast := ((ueTile s t).1, (ueTile s t).2, u.fclock) :: x.ueLast.filter fun e => !(e.1 == (ueTile s t).1 && e.2.1 == (ueTile s t).2) }

/-- A second error on the tile within 2^26 fc. -/
def ueAgain (s : State) (t : TileAt) : Bool := (s.die (dieOfRegion t.r)).ueLast.any fun e =>
  e.1 == (ueTile s t).1 && e.2.1 == (ueTile s t).2 && s.fclock.toNat ≤ e.2.2.toNat + 2 ^ 26

/-- The configuration read again. -/
def ueReread (s : State) (t : TileAt) (g : Cfg) : MRes Bool :=
  reread s (hubCtx (s.ctl t.r).part (s.ctl t.r).cwLvl) (s.ctl t.r).imageVA (s.ctl t.r).cfgIdx g.rsig

theorem UeRegion.rule (h : UeRegion s t g) :
    (ueAgain s t = true → exec (.cfgStoreUe t) s = .next (freeze (ueNoted s t s) t.r 0x85 0)) ∧
    (∀ ok s1, ueAgain s t = false → ueReread s t g = .ok ok s1 →
      exec (.cfgStoreUe t) s = .next (if ok then ueNoted s t s1 else freeze (ueNoted s t s1) t.r 0x85 0)) := by
  have hw : wakeRegion s t.r = s := by rw [wakeRegion, if_pos h.awake]
  refine ⟨fun ha => ?_, fun ok s1 ha hr => ?_⟩
  all_goals
    change execCfgStoreUe t s = _
    rw [execCfgStoreUe, if_pos h.running, hw]
    dsimp only
    rw [h.running, h.cfg]
    dsimp only
    rw [if_neg (not_not.mpr h.awake)]
  · exact if_pos ha
  · refine (if_neg (Bool.eq_false_iff.mp ha)).trans ?_
    rw [ueReread] at hr
    rw [hr]
    rfl

end Ue

/-- Settles O51: each event by its rule. -/
theorem tokensHopAndRegionsEnd : Obligations.TokensHopAndRegionsEnd := by
  unfold Obligations.TokensHopAndRegionsEnd
  intro s r
  refine ⟨?_, ?_, ?_, ?_, ?_, ?_, ?_, ?_, ?_, ?_, ?_, ?_, ?_⟩
  · intro src t d row col row' col' dir hg ht hn hin hroom hk
    have h : Hops s r src t d row col row' col' dir := ⟨hg, ht, hn, hin, hroom⟩
    refine ⟨h.waits, fun hu => h.hops hu (lastCheck_clean s r row col t) (checkParity_pass rfl) ?_⟩
    exact (((sameActs_noteSent s r _ _ dir).trans (sameActs_removeTok _ r src)).isParked _ _).trans hk
  · intro row col d
    refine ⟨fun h => if_pos h, fun h => ?_, fun h h' => ?_, fun h h' => ?_, fun h h' => ?_⟩
    · rw [nextHop, if_neg (by omega), if_pos h]
    · rw [nextHop, if_neg (by omega), if_neg (by omega), if_pos h']
    · rw [nextHop, if_neg (by omega), if_neg (by omega), if_neg (by omega), if_pos h']
    · rw [nextHop, if_neg (by omega), if_neg (by omega), if_neg (by omega), if_neg (by omega)]
  · intro src t d row col g hm ht hc hn hd hk hcmp hl ho hroom
    exact (show Delivers s r src t d row col g from ⟨hm, ht, hc⟩).delivers hn hd hk hcmp hl ho hroom
  · intro src t d row col g par hm ht hc hn ho
    exact (show Delivers s r src t d row col g from ⟨hm, ht, hc⟩).waits hn ho
  · intro src t d row col row' col' dir par bad hg ht hn hin hroom hu hq hf hb s1 hk
    have h : Hops s r src t d row col row' col' dir := ⟨hg, ht, hn, hin, hroom⟩
    refine h.hops hu (hq ▸ lastCheck_clean s r row col t) ((checkParity_again hf).trans (lastCheck_tagged hb)) ?_
    exact hk
  · intro src t d row col row' col' dir par bad hg ht hn hin hroom hu hb hf s1 hk
    have h : Hops s r src t d row col row' col' dir := ⟨hg, ht, hn, hin, hroom⟩
    exact h.hops hu (lastCheck_tagged hb) (checkParity_pass hf) hk
  · intro src t d row col g row' col' dir side idx hg ht hc hn hin he
    exact exec_tokenDeliver_edge hg ht hc hn hin he
  · intro k w hg hw hroom
    have h : Refills s r k w := ⟨hg, hw, hroom⟩
    exact ⟨fun x hx hf => h.refills hx hf, h.none⟩
  · exact fun hh hk hq => ⟨exec_regionQuiescence_begins hh hk hq, fun t => exec_regionQuiescence_ends hh hk hq⟩
  · exact fun v x => exec_regionQuiescence_held
  · exact exec_regionQuiescence_kill
  · exact fun va s1 hg h => exec_hangTimeout (hangs_of hg h)
  · rintro t g rfl hrun hp hc
    obtain ⟨hagain, hreads⟩ := (show UeRegion s t g from ⟨hrun, hp, hc⟩).rule
    exact ⟨fun s1 ⟨ha, hr⟩ => hreads true s1 ha hr, fun s1 ⟨ha, hr⟩ => hreads false s1 ha hr, hagain⟩

end Sys2Proof.Machine
end

section
/-!
PROOFS. The home directory, translations, agents and the fault queue (R85, R90 to R92, R99, R332, R336).
-/

namespace Sys2Proof.Machine

open Sys2Proof

variable {s s1 : State} {g : Agent} {line : Nat} {req : HomeReq} {p : PartId}

/-! ### Requests to a home slice -/

/-- A request for a line of the own memory, of an agent that has copies. -/
def OwnLine (g : Agent) (line : Nat) : Prop := line * 128 < peerBase ∧ g ≠ .hub

theorem OwnLine.goes (h : OwnLine g line) : ¬(decide (peerBase ≤ line * 128) || g == .hub) = true := by
  rw [Bool.or_eq_true, decide_eq_true_eq, beq_iff_eq]
  exact fun hh => hh.elim (Nat.not_le.mpr h.1) h.2

theorem exec_homeRequest_logs {code : BitVec 8} (h : OwnLine g line) (hd : discards s g req = some code) :
    exec (.homeRequest g line req) s =
      .next (s.updPorts fun h => { h with rasLog := h.rasLog ++ [⟨code, BitVec.ofNat 64 (line * 128)⟩] }) := by
  change execHomeRequest g line req s = _
  rw [execHomeRequest]
  dsimp only
  rw [if_neg h.goes, hd]

theorem discards_incarnation (h : req.incarnation ≠ incarnationOf s.ms g) : discards s g req = some 0x70 := by
  rw [discards, if_pos (bne_iff_ne.mpr h)]

theorem discards_key (h : req.incarnation = incarnationOf s.ms g) (hk : (s.part req.part).keyed = false) :
    discards s g req = some 0xA5 := by
  rw [discards, h, bne_self_eq_false, if_neg (by decide), hk]
  rfl

/-- A request that home does not discard. -/
structure Serves (s : State) (g : Agent) (line : Nat) (req : HomeReq) : Prop where
  own : OwnLine g line
  incarnation : req.incarnation = incarnationOf s.ms g
  keyed : (s.part req.part).keyed = true

theorem Serves.kept (h : Serves s g line req) : discards s g req = none := by
  rw [discards, h.incarnation, bne_self_eq_false, if_neg (by decide), h.keyed]
  rfl

theorem badData_of_read (hk : req.kind = .read ∨ req.kind = .write) :
    badData s line req = (lineFault s (hubCtx req.part .s) [line]).isSome := by
  obtain hk | hk := hk <;> rw [badData, hk]

theorem badData_eq_false (h : req.kind = .read ∨ req.kind = .write → lineFault s (hubCtx req.part .s) [line] = none) :
    badData s line req = false := by
  cases hk : req.kind with
  | read => rw [badData_of_read (.inl hk), h (.inl hk)]; rfl
  | write => rw [badData_of_read (.inr hk), h (.inr hk)]; rfl
  | _ => rw [badData, hk]

theorem Serves.refused {code : BitVec 8} (h : Serves s g line req) (hk : req.kind = .read ∨ req.kind = .write)
    (hf : lineFault s (hubCtx req.part .s) [line] = some code) : exec (.homeRequest g line req) s = .next s := by
  change execHomeRequest g line req s = _
  rw [execHomeRequest]
  dsimp only
  rw [if_neg h.own.goes, h.kept]
  dsimp only
  rw [badData_of_read hk, hf]
  rfl

/-- Is a line under a lock, or behind another agent's unanswered recall? -/
def lineHeld (s : State) (g : Agent) (line : Nat) : Bool :=
  s.ms.locks.any (·.1 = line) || s.ms.recalls.any fun x => x.2.1 == line && x.1 != g

/-- Home recalls a copy that it has not recalled already. -/
def recallDue (s : State) (g : Agent) (line : Nat) : Bool :=
  holdsLine s.ms g (line * 128) && !s.ms.recalls.any fun x => x.1 == g && x.2.1 == line

/-- What home does for a request by its kind. -/
structure Served (s : State) (g : Agent) (line : Nat) (req : HomeReq) : Prop where
  read : req.kind = .read → exec (.homeRequest g line req) s =
    .next (if lineHeld s g line then s else s.updMs (dirRead (some g) (line * 128) s.fclock))
  write : req.kind = .write → exec (.homeRequest g line req) s =
    .next (if lineHeld s g line then s else s.updMs (dirWrite (some g) (line * 128) s.fclock))
  evict : req.kind = .evict → exec (.homeRequest g line req) s =
    .next (if s.ms.locks.any (·.1 = line) then s else evictLine s g line)
  capacity : req.kind = .capacity → exec (.homeRequest g line req) s =
    .next (if lineHeld s g line then s else s.updMs fun ms => { ms with dir := ms.dir.filter fun e => !dirCovers e (line * 128) })
  recalls : req.kind = .recall → exec (.homeRequest g line req) s =
    .next (if recallDue s g line then s.updMs fun ms => { ms with recalls := ms.recalls ++ [(g, line, s.fclock)] } else s)

theorem Serves.served (h : Serves s g line req)
    (hb : req.kind = .read ∨ req.kind = .write → lineFault s (hubCtx req.part .s) [line] = none) : Served s g line req := by
  constructor
  all_goals
    intro hk
    change execHomeRequest g line req s = _
    rw [execHomeRequest]
    dsimp only
    rw [if_neg h.own.goes, h.kept]
    dsimp only
    rw [badData_eq_false hb, if_neg (by decide)]
    revert hk
    generalize req.kind = k
    rintro rfl
    rfl

theorem lineHeld_of_locked (h : s.ms.locks.any (·.1 = line) = true) : lineHeld s g line = true := by
  rw [lineHeld, h, Bool.true_or]

theorem lineHeld_eq_false (h : s.ms.locks.any (·.1 = line) = false) (hr : ∀ x ∈ s.ms.recalls, x.2.1 = line → x.1 = g) :
    lineHeld s g line = false := by
  rw [lineHeld, h, Bool.false_or, List.any_eq_false]
  intro x hx
  rw [Bool.and_eq_true, beq_iff_eq, bne_iff_ne]
  exact fun ⟨hl, hn⟩ => hn (hr x hx hl)

theorem recallDue_iff : recallDue s g line = true ↔
    holdsLine s.ms g (line * 128) = true ∧ ∀ x ∈ s.ms.recalls, x.1 = g → x.2.1 ≠ line := by
  rw [recallDue, Bool.and_eq_true, Bool.not_eq_true', List.any_eq_false]
  simp only [Bool.and_eq_true, beq_iff_eq, not_and, ne_eq]

theorem Served.locked (h : Served s g line req) (hl : s.ms.locks.any (·.1 = line) = true) (hk : req.kind ≠ .recall) :
    exec (.homeRequest g line req) s = .next s := by
  have hh : lineHeld s g line = true := lineHeld_of_locked hl
  cases hkind : req.kind with
  | read => rw [h.read hkind, if_pos hh]
  | write => rw [h.write hkind, if_pos hh]
  | evict => rw [h.evict hkind, if_pos hl]
  | capacity => rw [h.capacity hkind, if_pos hh]
  | _ => exact absurd hkind hk

/-! ### Merges -/

theorem exec_directoryMerge {base size : Nat} {l h : DirEntry} {st : DirState}
    (hs : size ∈ (List.range 9).map fun k => 128 * 2 ^ k) (ha : base % (2 * size) = 0)
    (hl : s.ms.dir.find? (fun e => decide (e.base = base) && decide (e.size = size)) = some l)
    (hh : s.ms.dir.find? (fun e => decide (e.base = base + size) && decide (e.size = size)) = some h)
    (hql : l.since.toNat + 2 ^ (s.syscfg.extractLsb' 0 5).toNat ≤ s.fclock.toNat)
    (hqh : h.since.toNat + 2 ^ (s.syscfg.extractLsb' 0 5).toNat ≤ s.fclock.toNat)
    (hm : mergeStates (some l.st) (some h.st) = some st) :
    exec (.directoryMerge base size) s = .next (s.updMs fun ms => { ms with
      dir := ⟨base, 2 * size, st, BitVec.ofNat 64 (max l.since.toNat h.since.toNat)⟩ ::
        ms.dir.filter fun e => !rangesMeet e.base e.size base (2 * size) }) := by
  change execDirectoryMerge base size s = _
  rw [execDirectoryMerge]
  simp only [hl, hh, Option.isNone_some, Bool.false_and, Bool.or_false, decide_eq_true hql, decide_eq_true hqh,
    List.contains_iff_mem.mpr hs, Option.map_some, hm, Bool.not_true, ha, Option.getD_some]
  rfl

/-! ### Agents -/

/-- What an agent leaves of an entry is not owned by it. -/
theorem dirLeave_not_owned {e e' : DirEntry} (h : dirLeave g e = some e') : e'.st ≠ .ow g := by
  rw [dirLeave] at h
  split at h
  · rename_i a ha
    split at h
    · exact absurd h (by simp)
    · rename_i hne
      obtain rfl := Option.some.inj h
      rw [ha]
      exact fun hh => hne (DirState.ow.inj hh)
  · dsimp only at h
    split at h
    · exact absurd h (by simp)
    · obtain rfl := Option.some.inj h
      exact DirState.noConfusion

/-- The state in which a dead agent that has no MWCAS rejoins. -/
theorem agentDead_ms (hm : s.ms.mwcas = []) : (agentDead s g).ms =
    { dirForget g { s.ms with poison := (s.ms.poison ++ (s.ms.dir.filter fun e => e.st == .ow g).flatMap entryLines).dedup } with
      slines := s.ms.slines.filter (·.agent != g)
      tlb := s.ms.tlb.filter (·.agent != g)
      recalls := s.ms.recalls.filter (·.1 != g)
      incarnation := (g, incarnationOf s.ms g + 1) :: s.ms.incarnation.filter (·.1 != g) } := by
  unfold agentDead
  rw [hm]
  cases g with
  | coreI c =>
    rw [List.filter_nil, List.foldl_nil, State.ms_updMs_eq, State.ms_updCore]
    rfl
  | coreD _ | cluster _ _ | fused _ | hub => rfl

theorem agentDead_rejoins (hm : s.ms.mwcas = []) :
    incarnationOf (agentDead s g).ms g = incarnationOf s.ms g + 1 ∧ (∀ e ∈ (agentDead s g).ms.dir, e.st ≠ .ow g) ∧
      (∀ e ∈ (agentDead s g).ms.tlb, e.agent ≠ g) ∧ (agentDead s g).ms.mem = s.ms.mem := by
  rw [agentDead_ms hm]
  refine ⟨?_, fun e he => ?_, fun e he => ?_, rfl⟩
  · simp [incarnationOf]
  · obtain ⟨e0, -, h0⟩ := List.mem_filterMap.mp he
    exact dirLeave_not_owned h0
  · exact bne_iff_ne.mp (List.mem_filter.mp he).2

/-- Settles O52. -/
theorem memoryAgentsAndTheFaultQueue : Obligations.MemoryAgentsAndTheFaultQueue := by
  unfold Obligations.MemoryAgentsAndTheFaultQueue
  intro s s1 g p va acc lvl x
  refine ⟨fun h => ?_, fun line req hl hg => ⟨?_, ?_, ?_, ?_⟩, ?_, ?_, ?_, ?_, ?_, ?_, ?_, ?_⟩
  · change execPageWalk g p va acc lvl s = _
    rw [execPageWalk, h]
  · exact fun hi => exec_homeRequest_logs ⟨hl, hg⟩ (discards_incarnation hi)
  · exact fun hi hk => exec_homeRequest_logs ⟨hl, hg⟩ (discards_key hi hk)
  · exact fun code hi hk hr hf => (show Serves s g line req from ⟨⟨hl, hg⟩, hi, hk⟩).refused hr hf
  · intro hi hk hb
    have h := (show Serves s g line req from ⟨⟨hl, hg⟩, hi, hk⟩).served hb
    refine ⟨fun hlock hr => ?_, h.locked⟩
    have hfree := lineHeld_eq_false hlock hr
    cases hkind : req.kind with
    | read => rw [h.read hkind, hfree]; rfl
    | write => rw [h.write hkind, hfree]; rfl
    | evict => rw [h.evict hkind, hlock]; rfl
    | capacity => rw [h.capacity hkind, hfree]; rfl
    | _ => rw [h.recalls hkind]; simp only [recallDue_iff]
  · exact fun base size l h st hs ha hl hh hql hqh hm => exec_directoryMerge hs ha hl hh hql hqh hm
  · intro line t hm ht
    refine congrArg Host.Outcome.next (if_pos ?_)
    exact List.any_eq_true.mpr ⟨_, hm, by rw [beq_self_eq_true, decide_eq_true ht]; rfl⟩
  · intro h
    refine congrArg Host.Outcome.next (if_neg ?_)
    rw [recallOverdue, List.any_eq_true]
    rintro ⟨x, hx, hh⟩
    rw [Bool.and_eq_true, beq_iff_eq, decide_eq_true_eq] at hh
    exact Nat.not_le.mpr (h x hx hh.1) hh.2
  · exact fun hg => congrArg Host.Outcome.next (if_neg hg)
  · exact agentDead_rejoins
  · exact fun h => congrArg Host.Outcome.next (if_pos h)
  · intro id ws rest hd hw
    change execPfqDeferredWrite p s = _
    rw [execPfqDeferredWrite, hd]
    dsimp only
    rw [hw]
    rfl
  · intro hr id ws hl
    rw [pfqWrite]
    dsimp only
    rw [if_neg hl, hr]
    rfl

end Sys2Proof.Machine
end

section
/-!
PROOFS. Power states and the debug unit's writes (R356, R374 to R377, R382 to R384).
-/

namespace Sys2Proof.Machine

open Sys2Proof

variable {s s1 : State} {r : RegionId} {d : DieId} {cl : BitVec 7} {p : PartId}

/-! ### Power states -/

/-- What an idle region's interval depends on is not what its die's sleeping clusters are. -/
theorem regionIdle_sleepClusters (s : State) (r : RegionId) : regionIdle (sleepClusters s (dieOfRegion r)) r = regionIdle s r := rfl

theorem powerTarget_sleepClusters (s : State) (r : RegionId) : powerTarget (sleepClusters s (dieOfRegion r)) r = powerTarget s r := rfl

theorem ctl_sleepClusters (s : State) (r : RegionId) : (sleepClusters s (dieOfRegion r)).ctl r = s.ctl r := rfl

theorem exec_idleEntry_busy (h : regionIdle s r = false ∨ (s.ctl r).power ≠ 0) :
    exec (.idleEntry r) s = .next (sleepClusters s (dieOfRegion r)) := by
  change execIdleEntry r s = _
  rw [execIdleEntry]
  rw [regionIdle_sleepClusters, ctl_sleepClusters, if_pos]
  rw [Bool.or_eq_true, Bool.not_eq_true', decide_eq_true_eq]
  exact h

/-- An idle region that is awake. -/
structure IdleAwake (s : State) (r : RegionId) : Prop where
  idle : regionIdle s r = true
  awake : (s.ctl r).power = 0

theorem IdleAwake.goes (h : IdleAwake s r) : ¬(!regionIdle s r || decide ((s.ctl r).power ≠ 0)) = true := by
  rw [h.idle, h.awake]
  decide

theorem IdleAwake.begins (h : IdleAwake s r) (hi : (s.ctl r).idleSince = none) :
    exec (.idleEntry r) s = .next ((sleepClusters s (dieOfRegion r)).updCtl r fun c => { c with idleSince := some s.fclock }) := by
  change execIdleEntry r s = _
  rw [execIdleEntry]
  rw [regionIdle_sleepClusters, ctl_sleepClusters, if_neg h.goes, hi]
  rfl

/-- The power state that an idle region's over interval brings. -/
def entersPower (z : State) (r : RegionId) (k : Nat) : State :=
  if k = 3 then enterW3 z r else z.updCtl r fun c => { c with power := k }

theorem IdleAwake.sleeps {t : Word} (h : IdleAwake s r) (hi : (s.ctl r).idleSince = some t)
    (ht : t.toNat + 2 ^ (s.syscfg.extractLsb' 21 5).toNat ≤ s.fclock.toNat) (hk : powerTarget s r ≤ 3) :
    exec (.idleEntry r) s = .next (entersPower (sleepClusters s (dieOfRegion r)) r (powerTarget s r)) := by
  have hover : idleOver (sleepClusters s (dieOfRegion r)) t = true := decide_eq_true ht
  change execIdleEntry r s = _
  rw [execIdleEntry]
  rw [regionIdle_sleepClusters, ctl_sleepClusters, if_neg h.goes, hi]
  dsimp only
  rw [hover, if_neg (by decide), powerTarget_sleepClusters]
  obtain hk | hk | hk | hk : powerTarget s r = 0 ∨ powerTarget s r = 1 ∨ powerTarget s r = 2 ∨ powerTarget s r = 3 := by omega
  · rw [hk, entersPower, if_neg (by decide)]
    rfl
  · rw [hk, entersPower, if_neg (by decide)]
    rfl
  · rw [hk, entersPower, if_neg (by decide)]
    rfl
  · rw [hk, entersPower, if_pos rfl]
    rfl

theorem exec_regionWake (h0 : (s.ctl r).power ≠ 0) (h3 : (s.ctl r).power < 3) :
    exec (.regionWake r) s = .next (s.updCtl r fun c => { c with power := 0, idleSince := some s.fclock }) := by
  change execRegionWake r s = _
  rw [execRegionWake, wakeRegion]
  dsimp only
  rw [if_neg h0, if_neg (Nat.ne_of_lt h3)]

theorem exec_thermalLimit (hc : cl.toNat ≤ 98) (hl : cl ∉ (s.die d).limited) : exec (.thermalLimit d cl) s =
    .next ((clusterOwners s d cl).foldl (fun s p => s.updPart p fun q =>
      { q with thermal := q.thermal.orElse fun _ => some (d ++ 0#1 ++ cl) })
      (s.updDie d fun x => { x with limited := cl :: x.limited })) := by
  change execThermalLimit d cl s = _
  rw [execThermalLimit, if_neg]
  · rfl
  · rw [Bool.or_eq_true, decide_eq_true_eq, List.contains_iff_mem]
    exact fun h => h.elim (Nat.not_lt.mpr hc) hl

/-! ### The debug unit -/

theorem exec_preciseStopComplete (hst : (s.dbg r).stop = .stopping)
    (hl : ∀ l ∈ (s.fab r).links, nextHop l.row.toNat l.col.toNat l.dest ≠ none)
    (ha : (s.fab r).accs.all (stuckAcc s (s.fab r)) = true) :
    exec (.preciseStopComplete r) s = .next (trace (s.updDbg r fun d => { d with stop := .stopped }) r 0 0 0 0 0 6 0 none) := by
  have hnone : (s.fab r).links.any (fun l => (nextHop l.row.toNat l.col.toNat l.dest).isNone) = false :=
    List.any_eq_false.mpr fun l hm hn => hl l hm (Option.isNone_iff_eq_none.mp hn)
  change execPreciseStopComplete r s = _
  rw [execPreciseStopComplete]
  rw [hst, hnone, ha]
  rfl

theorem exec_dbglistComplete {n : Nat} {err : Bool} (hl : (s.dbg r).listing = true)
    (hw : writeRecords s (hubCtx (s.ctl r).part .s) ((s.dbg r).fglist &&& 0x000FFFFFFFFFF000) 0
      (((sortBy (fun a b => keyLe (listKey a.2) (listKey b.2)) (listTokens (s.fab r))).map listRecord).take
        (128 * (((s.dbg r).fglist.extractLsb' 1 11).toNat + 1))) = .ok (n, err) s1) :
    exec (.dbglistComplete r) s = .next (s1.updDbg r fun d => { d with
      listing := false, listDone := true, listErr := d.listErr || err
      listOvf := decide (128 * (((s.dbg r).fglist.extractLsb' 1 11).toNat + 1) <
        ((sortBy (fun a b => keyLe (listKey a.2) (listKey b.2)) (listTokens (s.fab r))).map listRecord).length)
      listCount := BitVec.ofNat 32 n }) := by
  change execDbglistComplete r s = _
  rw [execDbglistComplete]
  dsimp only
  rw [hl, if_neg (by decide), hw]

section Trace
variable {t : Word} {ws : List Word} {rest : List (Word × List Word)}

theorem exec_traceRecordWrite (hq : (s.part p).traceq = (t, ws) :: rest) (ht : s.fclock.toNat ≤ t.toNat + 64)
    (hon : traceOn (s.part p) = true)
    (hw : storeWords (s.updPart p fun q => { q with traceq := rest }) p (((s.part p).fgtrace &&& 0x000FFFFFFFFFF000) +
      BitVec.ofNat 64 (32 * (((s.part p).fgtrcnt.extractLsb' 0 40).toNat % 2 ^ ((s.part p).fgtrace.extractLsb' 1 5).toNat))) ws =
        .ok none s1) :
    exec (.traceRecordWrite p) s = .next (s1.updPart p fun q => { q with
      fgtrcnt := (q.fgtrcnt &&& 0xFFFFFF0000000000) |||
        BitVec.ofNat 64 ((((s.part p).fgtrcnt.extractLsb' 0 40).toNat + 1) % 2 ^ 40) }) := by
  change execTraceRecordWrite p s = _
  rw [execTraceRecordWrite]
  dsimp only
  rw [hq]
  dsimp only
  rw [if_neg (Nat.not_lt.mpr ht), hon, if_neg (by decide), hw]

theorem exec_traceRecordDrop (hq : (s.part p).traceq = (t, ws) :: rest) (ht : t.toNat + 64 < s.fclock.toNat) :
    exec (.traceRecordDrop p) s = .next (s.updPart p fun q => dropCount { q with traceq := rest }) := by
  change execTraceRecordDrop p s = _
  rw [execTraceRecordDrop, hq]
  dsimp only
  rw [if_pos ht]

end Trace

/-- Settles O53: each event by its rule. -/
theorem powerAndDebugEventsAct : Obligations.PowerAndDebugEventsAct := by
  unfold Obligations.PowerAndDebugEventsAct
  intro s s1 r d cl p
  refine ⟨exec_idleEntry_busy, fun hi hp => (IdleAwake.mk hi hp).begins, fun t hi hp hs ht hk => ?_, fun t hi hp hs ht hk => ?_,
    exec_regionWake, fun h => congrArg Host.Outcome.next (if_pos h), exec_thermalLimit, rfl, fun hc => ?_,
    exec_preciseStopComplete, fun hl n err hw => exec_dbglistComplete hl hw, fun t ws rest hq => ⟨?_, ?_⟩⟩
  · rw [(IdleAwake.mk hi hp).sleeps hs ht (Nat.le_of_lt hk), entersPower, if_neg (Nat.ne_of_lt hk)]
    rfl
  · rw [(IdleAwake.mk hi hp).sleeps hs ht (Nat.le_of_eq hk), entersPower, if_pos hk]
    rfl
  · exact if_neg (Nat.not_lt.mpr hc)
  · exact fun ht hon hw => exec_traceRecordWrite hq ht hon hw
  · exact exec_traceRecordDrop hq

end Sys2Proof.Machine
end

section
/-!
PROOFS. Requests of the host, and the virtual functions' interfaces (R193, R395, R396, R399).
-/

namespace Sys2Proof.Machine

open Sys2Proof

variable {s s1 : State} {p : PartId} {q : HostReq} {bs : List Byte} {va : Word}

/-! ### The window's queue -/

/-- A partition's queue that holds no write is as it is after it has been emptied. -/
theorem setWinQueue_nil (h : winWaiting s p = []) : setWinQueue s p [] = s := by
  have hf : s.ports.winQueue.filter (·.1 != p) = s.ports.winQueue := by
    rw [List.filter_eq_self]
    intro x hx
    rw [bne_iff_ne]
    intro hp
    have hm : x ∈ s.ports.winQueue.filter (·.1 == p) := List.mem_filter.mpr ⟨hx, beq_iff_eq.mpr hp⟩
    rw [List.map_eq_nil_iff.mp h] at hm
    exact absurd hm (by simp)
  rw [setWinQueue, State.updPorts, hf, List.map_nil, List.append_nil]

theorem winWaiting_toHost (s : State) (p : PartId) (m : HostMsg) : winWaiting (toHost s m) p = winWaiting s p := rfl

theorem winGo_bell (rest : List (Word × List Byte)) :
    winGo p s ((va, []) :: rest) = winGo p (toHost (ringDoorbell s p) (.done p)) rest := by
  rw [winGo]
  rfl

section Write
variable {rest : List (Word × List Byte)}

theorem winGo_write (hb : bs ≠ []) (h : storeBytes s (hostCtx p) va bs.length bs = .ok none s1) :
    winGo p s ((va, bs) :: rest) = winGo p (toHost s1 (.done p)) rest := by
  rw [winGo, if_neg (by rwa [List.isEmpty_iff]), h]

theorem winGo_fault {c : BitVec 8} {v : Word} (hb : bs ≠ [])
    (h : storeBytes s (hostCtx p) va bs.length bs = .trap c v ∨
      storeBytes s (hostCtx p) va bs.length bs = .ok (some (c, v)) s1) :
    winGo p s ((va, bs) :: rest) = winGo p (toHost s (.poisoned p)) rest := by
  rw [winGo, if_neg (by rwa [List.isEmpty_iff])]
  obtain h | h := h <;> rw [h]

theorem winGo_wait (hb : bs ≠ []) (h : storeBytes s (hostCtx p) va bs.length bs = .wait) :
    winGo p s ((va, bs) :: rest) = setWinQueue s p ((va, bs) :: rest) := by
  rw [winGo, if_neg (by rwa [List.isEmpty_iff]), h]

end Write

theorem winWrite_idle (h : winWaiting s p = []) : winWrite s p va bs = winGo p s [(va, bs)] := by
  rw [winWrite, h]
  rfl

/-! ### DOORBELL -/

theorem exec_doorbell_idle (hv : vfServed s p true = true) (h : winWaiting s p = []) :
    exec (.doorbell p) s = .next (toHost (s.updPart p fun q => { q with hostEvent := true }) (.done p)) := by
  change execDoorbell p s = _
  rw [execDoorbell, if_pos hv, winWrite_idle h, winGo_bell, winGo, setWinQueue_nil (s := toHost (ringDoorbell s p) (.done p)) h]
  rfl

theorem exec_doorbell_behind {rest : List (Word × List Byte)} (hv : vfServed s p true = true)
    (hw : winWaiting s p = (va, bs) :: rest) (hb : bs ≠ []) (h : storeBytes s (hubCtx p .u) va bs.length bs = .wait) :
    exec (.doorbell p) s = .next (setWinQueue s p ((va, bs) :: rest ++ [(0, [])])) := by
  change execDoorbell p s = _
  rw [execDoorbell, if_pos hv, winWrite, hw]
  exact congrArg Host.Outcome.next (winGo_wait hb h)

/-! ### Window accesses -/

theorem exec_hostWindowAccess_unsupported
    (h : 4096 < q.off.toNat % 4096 + hostReqSize q ∨ (vfServed s p q.ide = false ∧ stateRead s p q = false)) :
    exec (.hostWindowAccess p q) s = .next (toHost s (.unsupported p)) := by
  change execHostWindowAccess p q s = _
  rw [execHostWindowAccess]
  refine if_pos ?_
  rw [Bool.or_eq_true, decide_eq_true_eq, Bool.not_eq_true', Bool.or_eq_false_iff]
  exact h

/-- A request that is served, within a 4 KiB page. -/
structure HostServed (s : State) (p : PartId) (q : HostReq) : Prop where
  served : vfServed s p q.ide = true
  page : q.off.toNat % 4096 + hostReqSize q ≤ 4096

theorem HostServed.goes (h : HostServed s p q) :
    ¬(decide (4096 < q.off.toNat % 4096 + hostReqSize q) || !(vfServed s p q.ide || stateRead s p q)) = true := by
  rw [h.served, Bool.true_or, decide_eq_false (Nat.not_lt.mpr h.page)]
  decide

theorem HostServed.window (h : HostServed s p q) (ho : 0x1000 ≤ q.off.toNat) :
    exec (.hostWindowAccess p q) s = windowAccess s p q := by
  change execHostWindowAccess p q s = _
  rw [execHostWindowAccess]
  exact (if_neg h.goes).trans (if_pos ho)

theorem windowAccess_write (hq : q.write = true) (hd : q.data ≠ []) : windowAccess s p q =
    .next (winWrite s p ((s.part p).winbase + (q.off.zeroExtend 64 - 0x1000)) q.data) := by
  rw [windowAccess, if_pos hq, if_neg (by rwa [List.isEmpty_iff])]

theorem windowAccess_read (hq : q.write = false) (hw : winWaiting s p = []) :
    (∀ bs s1, loadBytes s (hostCtx p) ((s.part p).winbase + (q.off.zeroExtend 64 - 0x1000)) q.len.toNat = .ok bs s1 →
      windowAccess s p q = .next (toHost s1 (.data p bs))) ∧
    (∀ c v, loadBytes s (hostCtx p) ((s.part p).winbase + (q.off.zeroExtend 64 - 0x1000)) q.len.toNat = .trap c v →
      windowAccess s p q = .next (toHost s (.poisoned p))) := by
  refine ⟨fun bs s1 h => ?_, fun c v h => ?_⟩
  all_goals
    rw [windowAccess, if_neg (by rw [hq]; decide), hw, winGo, setWinQueue_nil hw]
    dsimp only
    rw [hw, if_neg (by decide), h]

/-! ### The BAR's registers -/

/-- A byte written to WINBASE: its bits in place, the others kept, all under the register's mask. -/
theorem getLsbD_setWinbase (w : Word) (i : Nat) (b : Byte) {j : Nat} (hj : j < 64) : (setWinbase w i b).getLsbD j =
    ((0x000FFFFFFFFFF000 : Word).getLsbD j && if 8 * i ≤ j ∧ j < 8 * i + 8 then b.getLsbD (j - 8 * i) else w.getLsbD j) := by
  have hff : (0xFF#64).getLsbD (j - 8 * i) = decide (j - 8 * i < 8) := by
    rw [show 0xFF#64 = BitVec.ofNat 64 (2 ^ 8 - 1) from rfl, BitVec.getLsbD_ofNat, Nat.testBit_two_pow_sub_one,
      decide_eq_true (by omega), Bool.true_and]
  rw [setWinbase, BitVec.getLsbD_and, BitVec.getLsbD_or, BitVec.getLsbD_and, BitVec.getLsbD_not, BitVec.getLsbD_shiftLeft,
    BitVec.getLsbD_shiftLeft, hff, BitVec.zeroExtend, BitVec.getLsbD_setWidth, Bool.and_comm]
  by_cases hin : 8 * i ≤ j ∧ j < 8 * i + 8
  · rw [if_pos hin, decide_eq_true hj, decide_eq_false (Nat.not_lt.mpr hin.1), decide_eq_true (show j - 8 * i < 8 by omega),
      decide_eq_true (show j - 8 * i < 64 by omega)]
    simp
  · have hout : (!decide (j < 8 * i) && decide (j - 8 * i < 8)) = false := by
      rw [Bool.and_eq_false_iff, Bool.not_eq_false', decide_eq_true_eq, decide_eq_false_iff_not]
      omega
    have hb : (!decide (j < 8 * i) && (decide (j - 8 * i < 64) && b.getLsbD (j - 8 * i))) = false := by
      by_cases hlt : j < 8 * i
      · rw [decide_eq_true hlt]
        rfl
      · rw [BitVec.getLsbD_of_ge b _ (by omega), Bool.and_false, Bool.and_false]
    rw [if_neg hin, decide_eq_true hj, Bool.true_and, Bool.true_and, hout, hb, Bool.not_false, Bool.and_true,
      Bool.or_false]

/-- The bits of a little-endian number are those of its bytes. -/
theorem testBit_bytes (bs : List Byte) (j : Nat) :
    (bs.foldr (fun (b : Byte) (n : Nat) => b.toNat + 256 * n) 0).testBit j = (bs.getD (j / 8) 0).getLsbD (j % 8) := by
  induction bs generalizing j with
  | nil => simp
  | cons b bs ih =>
    rw [List.foldr_cons, Nat.add_comm, show 256 = 2 ^ 8 from rfl, Nat.testBit_two_pow_mul_add _ b.isLt]
    split <;> rename_i hj
    · rw [Nat.div_eq_of_lt hj, Nat.mod_eq_of_lt hj]
      rfl
    · have hd : j / 8 = (j - 8) / 8 + 1 := by omega
      have hm : j % 8 = (j - 8) % 8 := by omega
      rw [hd, hm, List.getD_cons_succ]
      exact ih (j - 8)

/-- Bytes written to WINBASE from byte k on. -/
def winbaseBytes (w : Word) (k : Nat) : List Byte → Word
  | [] => w
  | b :: bs => winbaseBytes (setWinbase w k b) (k + 1) bs

theorem getLsbD_winbaseBytes (w : Word) (k : Nat) (b : Byte) (bs : List Byte) {j : Nat} (hj : j < 64) :
    (winbaseBytes w k (b :: bs)).getLsbD j = ((0x000FFFFFFFFFF000 : Word).getLsbD j &&
      if 8 * k ≤ j ∧ j < 8 * (k + (b :: bs).length) then ((b :: bs).getD (j / 8 - k) 0).getLsbD (j % 8) else w.getLsbD j) := by
  induction bs generalizing w k b with
  | nil =>
    rw [winbaseBytes, winbaseBytes, getLsbD_setWinbase w k b hj, List.length_cons, List.length_nil]
    by_cases hin : 8 * k ≤ j ∧ j < 8 * k + 8
    · rw [if_pos hin, if_pos (by omega), show j / 8 - k = 0 by omega, show j % 8 = j - 8 * k by omega]
      rfl
    · rw [if_neg hin, if_neg (by omega)]
  | cons c bs ih =>
    rw [winbaseBytes, ih, getLsbD_setWinbase w k b hj, List.length_cons, List.length_cons]
    by_cases hin : 8 * (k + 1) ≤ j ∧ j < 8 * (k + 1 + (bs.length + 1))
    · rw [if_pos hin, if_pos (by rw [List.length_cons]; omega), show j / 8 - k = j / 8 - (k + 1) + 1 by omega, List.getD_cons_succ]
    · rw [if_neg hin]
      by_cases h0 : 8 * k ≤ j ∧ j < 8 * k + 8
      · rw [if_pos h0, if_pos (by rw [List.length_cons]; omega), show j / 8 - k = 0 by omega, show j % 8 = j - 8 * k by omega,
          ← Bool.and_assoc, Bool.and_self]
        rfl
      · rw [if_neg h0, if_neg (by rw [List.length_cons]; omega), ← Bool.and_assoc, Bool.and_self]

/-- Eight bytes are the whole register, of which its mask's bits stay. -/
theorem winbaseBytes_eq (w : Word) (h : bs.length = 8) : winbaseBytes w 0 bs =
    BitVec.ofNat 64 (bs.foldr (fun (b : Byte) (n : Nat) => b.toNat + 256 * n) 0) &&& 0x000FFFFFFFFFF000 := by
  obtain ⟨b, bs, rfl⟩ := List.exists_cons_of_length_eq_add_one h
  refine BitVec.eq_of_getLsbD_eq fun j hj => ?_
  rw [getLsbD_winbaseBytes w 0 b bs hj, h, BitVec.getLsbD_and, BitVec.getLsbD_ofNat, testBit_bytes, decide_eq_true hj, Bool.true_and,
    if_pos (by omega), Nat.sub_zero, Bool.and_comm]

/-- A byte written to the BAR's registers at an offset. -/
def barStep (p : PartId) (off : Nat) (s : State) (x : Byte × Nat) : State :=
  if 8 ≤ off + x.2 && off + x.2 < 16 then s.updPart p fun q => { q with winbase := setWinbase q.winbase (off + x.2 - 8) x.1 } else s

theorem winbase_foldl_barStep (bs : List Byte) (k : Nat) (hk : k + bs.length ≤ 8) :
    (((bs.zipIdx k).foldl (barStep p 8) s).part p).winbase = winbaseBytes (s.part p).winbase k bs := by
  induction bs generalizing s k with
  | nil => rfl
  | cons b bs ih =>
    rw [List.length_cons] at hk
    rw [List.zipIdx_cons, List.foldl_cons, ih (k + 1) (by omega), winbaseBytes, barStep]
    dsimp only
    rw [decide_eq_true (show 8 ≤ 8 + k by omega), decide_eq_true (show 8 + k < 16 by omega), if_pos (by decide),
      State.part_updPart_self, Nat.add_sub_cancel_left]

theorem exec_hostWindowAccess_winbase (h : HostServed s p q) (ho : q.off.toNat = 8) (hq : q.write = true) :
    exec (.hostWindowAccess p q) s = .next (toHost (q.data.zipIdx.foldl (barStep p 8) s) (.done p)) := by
  change execHostWindowAccess p q s = _
  rw [execHostWindowAccess]
  refine (if_neg h.goes).trans ?_
  rw [ho, if_neg (by decide), if_pos hq, barWrite]
  rfl

theorem exec_hostWindowAccess_readWinbase (h : HostServed s p q) (ho : q.off.toNat = 8) (hq : q.write = false) (hl : q.len = 8) :
    exec (.hostWindowAccess p q) s = .next (toHost (s.useFresh 4096) (.data p ((List.range 8).map fun k =>
      BitVec.ofNat 8 ((s.part p).winbase.toNat / 256 ^ k)))) := by
  have hsize : hostReqSize q = 8 := by
    rw [hostReqSize, if_neg (by rw [hq]; decide), hl]
    rfl
  have hbytes : ((List.range 8).map fun k => barByte s p (8 + k)) =
      (List.range 8).map fun k => BitVec.ofNat 8 ((s.part p).winbase.toNat / 256 ^ k) := by
    refine List.map_congr_left fun k hk => ?_
    rw [List.mem_range] at hk
    rw [barByte, decide_eq_true (show 8 ≤ 8 + k by omega), decide_eq_true (show 8 + k < 16 by omega), if_pos (by decide),
      Nat.add_sub_cancel_left]
  change execHostWindowAccess p q s = _
  rw [execHostWindowAccess]
  refine (if_neg h.goes).trans ?_
  rw [ho, if_neg (by decide), if_neg (by rw [hq]; decide), hsize, hbytes]

/-! ### TDISP -/

/-- A function's interface, within its session. -/
structure TdispUp (s : State) (p : PartId) : Prop where
  exist : fnExists s (.vf p) = true
  session : sessionUp s (.vf p) = true

/-- What a message does to an interface in a state, within its session. -/
def tdispRule (s : State) (p : PartId) : TdispMsg → TdispState → Out
  | .getState, _ => tdispReply s p 0x05
  | .lock, .unlocked => tdispReply (setTdisp s p .locked) p 0x03
  | .start, .locked => tdispReply (setTdisp s p .run) p 0x06
  | .stop, _ => tdispReply (setTdisp s p .unlocked) p 0x07
  | .fillKey slot root, _ => tdispReply (s.updPart p (fillSlot slot root)) p 0x10
  | .lock, _ | .start, _ => spdmError s (.vf p)

theorem TdispUp.rule (h : TdispUp s p) (m : TdispMsg) : exec (.tdispMessage p m) s = tdispRule s p m (s.part p).tdisp := by
  change execTdispMessage p m s = _
  rw [execTdispMessage.eq_def, onFn, if_pos h.exist, if_neg (by rw [h.session]; decide)]
  generalize (s.part p).tdisp = st
  cases m <;> cases st <;> rfl

theorem tdisp_setTdisp (t : TdispState) : ((setTdisp s p t).part p).tdisp = t := by
  rw [setTdisp, State.part_updPart_self]

/-- A message after which the interface is in a state. -/
theorem TdispUp.moves {m : TdispMsg} {st to_ : TdispState} (h : TdispUp s p)
    (hm : m = .lock ∧ st = .unlocked ∧ to_ = .locked ∨ m = .start ∧ st = .locked ∧ to_ = .run ∨ m = .stop ∧ to_ = .unlocked ∨
      m = .getState ∧ to_ = st) (hst : (s.part p).tdisp = st) :
    ∃ t, exec (.tdispMessage p m) s = .next t ∧ (t.part p).tdisp = to_ := by
  rw [h.rule, hst]
  obtain ⟨rfl, rfl, rfl⟩ | ⟨rfl, rfl, rfl⟩ | ⟨rfl, rfl⟩ | ⟨rfl, rfl⟩ := hm
  · exact ⟨_, rfl, tdisp_setTdisp _⟩
  · exact ⟨_, rfl, tdisp_setTdisp _⟩
  · cases st <;> exact ⟨_, rfl, tdisp_setTdisp _⟩
  · cases to_ <;> exact ⟨_, rfl, hst⟩

theorem TdispUp.fills (h : TdispUp s p) (slot : BitVec 4) (root : List Byte) :
    ∃ t, exec (.tdispMessage p (.fillKey slot root)) s = .next t ∧
      (t.part p).keySlots = (slot, root) :: (s.part p).keySlots.filter (·.1 != slot) := by
  refine ⟨respond (s.updPart p (fillSlot slot root)) ⟨.vf p, 0x10, false, none,
    [tdispCode ((s.updPart p (fillSlot slot root)).part p).tdisp]⟩, ?_, ?_⟩
  · rw [h.rule]
    cases (s.part p).tdisp <;> rfl
  · exact congrArg Partition.keySlots (State.part_updPart_self s p (fillSlot slot root))

/-- Settles O54. -/
theorem hostRequestsAreServed : Obligations.HostRequestsAreServed := by
  unfold Obligations.HostRequestsAreServed
  intro s s1 p q bs
  refine ⟨exec_doorbell_idle, fun va' bs' rest hv hw hb h => exec_doorbell_behind hv hw hb h, fun hv => ?_,
    fun hv hr => exec_hostWindowAccess_unsupported (.inr ⟨hv, hr⟩), fun h => exec_hostWindowAccess_unsupported (.inl h), ?_, ?_⟩
  · exact congrArg Host.Outcome.next (if_neg (Bool.eq_false_iff.mp hv))
  · intro hv hpage
    have h : HostServed s p q := ⟨hv, hpage⟩
    refine ⟨fun ho hq hw hd => ?_, fun ho hq hw hl => ?_, fun c v ho hq hw hl => ?_, ?_, exec_hostWindowAccess_readWinbase h⟩
    · have he := (h.window ho).trans (windowAccess_write hq hd)
      rw [winWrite_idle hw] at he
      refine ⟨fun hs => ?_, fun c v hs => ?_, fun hs => ?_⟩
      · rw [he, winGo_write hd hs, winGo]
      · rw [he, winGo_fault hd hs, winGo, setWinQueue_nil (s := toHost s (.poisoned p)) hw]
      · rw [he, winGo_wait hd hs]
    · exact (h.window ho).trans ((windowAccess_read hq hw).1 bs s1 hl)
    · exact (h.window ho).trans ((windowAccess_read hq hw).2 c v hl)
    · rintro ho hq rfl hl
      exact ⟨_, exec_hostWindowAccess_winbase h ho hq, (winbase_foldl_barStep q.data 0 (by omega)).trans (winbaseBytes_eq _ hl)⟩
  · intro hx hs
    have h : TdispUp s p := ⟨hx, hs⟩
    exact ⟨h.moves (.inl ⟨rfl, rfl, rfl⟩), h.moves (.inr (.inl ⟨rfl, rfl, rfl⟩)), h.moves (.inr (.inr (.inl ⟨rfl, rfl⟩))),
      h.moves (.inr (.inr (.inl ⟨rfl, rfl⟩))), h.moves (.inr (.inr (.inr ⟨rfl, rfl⟩))), h.fills⟩

end Sys2Proof.Machine
end

section
/-!
PROOFS. The security processor (R397, R398, R402).
-/

namespace Sys2Proof.Machine

open Sys2Proof

variable {s : State} {fn : SpdmFn} {req : List Byte} {code : BitVec 8} {i : Instr} {k : Out} {g : Nat}

/-- A message to a function that exists is what the processor makes of it. -/
theorem onFn_exists (h : fnExists s fn = true) (k : Out) : onFn s fn k = k := if_pos h

/-! ### Signatures -/

/-- A signed answer under the next one-time key. -/
theorem signed_below {data : List Word} (h : s.ports.sigIndex < 2 ^ 20) : signed s fn code data =
    .next (respond ((s.updPorts fun h => { h with sigIndex := s.ports.sigIndex + 1 }).useFresh 8)
      ⟨fn, code, false, some s.ports.sigIndex, data⟩) := if_neg (Nat.not_le.mpr h)

/-- Past the last key there is only ERROR. -/
theorem signed_past {data : List Word} (h : 2 ^ 20 ≤ s.ports.sigIndex) : signed s fn code data =
    .next (respond s ⟨fn, 0x7F, true, none, []⟩) := if_pos h

/-- An answer that is signed, or ERROR past the last key. -/
theorem signs_of {data : List Word} (hi : exec i s = signed s fn code data) :
    (s.ports.sigIndex < 2 ^ 20 → exec i s = .next (respond
      ((s.updPorts fun h => { h with sigIndex := s.ports.sigIndex + 1 }).useFresh 8)
      ⟨fn, code, false, some s.ports.sigIndex, data⟩)) ∧
    (2 ^ 20 ≤ s.ports.sigIndex → exec i s = .next (respond s ⟨fn, 0x7F, true, none, []⟩)) :=
  ⟨fun h => hi.trans (signed_below h), fun h => hi.trans (signed_past h)⟩

theorem exec_getMeasurements_signed (h : fnExists s fn = true) (hb : (req.getD 2 0).getLsbD 0 = true) :
    exec (.getMeasurements fn req) s = signed s fn 0x60 (measuredOf s fn) := (onFn_exists h _).trans (if_pos hb)

theorem exec_getMeasurements_plain (h : fnExists s fn = true) (hb : (req.getD 2 0).getLsbD 0 = false) :
    exec (.getMeasurements fn req) s = .next (respond s ⟨fn, 0x60, false, none, measuredOf s fn⟩) :=
  (onFn_exists h _).trans (if_neg (Bool.eq_false_iff.mp hb))

/-! ### Sessions -/

/-- A session that has been set has that generation. -/
theorem sessionGen_setSession (s : State) (fn : SpdmFn) (g : Nat) : sessionGen (setSession s fn (some g)) fn = some g := by
  rw [sessionGen, show (setSession s fn (some g)).ports.sessions = (fn, g) :: s.ports.sessions.filter (·.1 != fn) from rfl,
    List.find?_cons_of_pos (by rw [beq_self_eq_true])]
  rfl

theorem exec_keyExchange (h : fnExists s fn = true) (hn : sessionGen s fn = none) (hlt : s.ports.sigIndex < 2 ^ 20) :
    exec (.keyExchange fn req) s = signed (setSession s fn (some 0)) fn 0x64 (freeReply s) := by
  refine (onFn_exists h _).trans (if_neg ?_)
  rw [hn, Option.isSome_none, Bool.false_or, decide_eq_true_eq]
  exact Nat.not_le.mpr hlt

/-- KEY_EXCHANGE begins a handshake and uses a key. -/
theorem exec_keyExchange_begins (h : fnExists s fn = true) (hn : sessionGen s fn = none) (hlt : s.ports.sigIndex < 2 ^ 20) :
    ∃ t, exec (.keyExchange fn req) s = .next t ∧ sessionGen t fn = some 0 ∧ t.ports.sigIndex = s.ports.sigIndex + 1 :=
  ⟨_, (exec_keyExchange h hn hlt).trans (signed_below (s := setSession s fn (some 0)) hlt), sessionGen_setSession s fn 0, rfl⟩

theorem exec_keyExchange_again (h : fnExists s fn = true) (hn : sessionGen s fn ≠ none) :
    exec (.keyExchange fn req) s = .next (respond s ⟨fn, 0x7F, true, none, []⟩) := by
  refine (onFn_exists h _).trans (if_pos ?_)
  rw [Option.isSome_iff_ne_none.mpr hn, Bool.true_or]

theorem exec_finish (h : fnExists s fn = true) (hg : sessionGen s fn = some 0) :
    exec (.finish fn req) s = reply (setSession s fn (some 1)) fn 0x65 := (onFn_exists h _).trans (if_pos hg)

theorem exec_endSession (h : fnExists s fn = true) (hu : sessionUp s fn = true) :
    exec (.endSession fn req) s = reply (setSession s fn none) fn 0x6C := (onFn_exists h _).trans (if_pos hu)

theorem exec_keyUpdate_session (h : fnExists s fn = true) (hg : sessionGen s fn = some (g + 1)) :
    exec (.keyUpdate (.session fn)) s = reply (setSession s fn (some (g + 2))) fn 0x69 := by
  refine (onFn_exists h _).trans ?_
  rw [hg]

/-- Settles O55: every message by its rule, for a function that exists. -/
theorem theSecurityProcessorAnswers : Obligations.TheSecurityProcessorAnswers := by
  unfold Obligations.TheSecurityProcessorAnswers
  intro s fn req h
  refine ⟨onFn_exists h _, onFn_exists h _, onFn_exists h _, onFn_exists h _, onFn_exists h _, signs_of (onFn_exists h _),
    fun hb => signs_of (exec_getMeasurements_signed h hb), exec_getMeasurements_plain h, exec_keyExchange_begins h,
    exec_keyExchange_again h, exec_finish h, exec_endSession h, fun g => exec_keyUpdate_session h⟩

end Sys2Proof.Machine
end

section
/-!
PROOFS. The links: flits received and sent, keys, retraining (R401, R404, R405).
-/

namespace Sys2Proof.Machine

open Sys2Proof

variable {s s1 : State} {l : BitVec 4} {f : Flit} {src dst : PartId} {bs : List Byte} {c : BitVec 8} {va : Word}

/-! ### Key entries -/

/-- A pair's key entry names the pair. -/
theorem keyOf_pair (ks : List LinkKey) (src dst : PartId) : (keyOf ks src dst).src = src ∧ (keyOf ks src dst).dst = dst := by
  rw [keyOf]
  cases h : ks.find? fun e => e.src == src && e.dst == dst with
  | none => exact ⟨rfl, rfl⟩
  | some e =>
    have he := List.find?_some h
    rw [Bool.and_eq_true, beq_iff_eq, beq_iff_eq] at he
    exact he

theorem keyOf_setKey_self {e : LinkKey} {ks : List LinkKey} (hs : e.src = src) (hd : e.dst = dst) :
    keyOf (setKey e ks) src dst = e := by
  rw [keyOf, setKey, List.find?_cons_of_pos (by rw [hs, hd, beq_self_eq_true, beq_self_eq_true]; rfl)]
  rfl

theorem keyOf_setKey_ne {e : LinkKey} {ks : List LinkKey} {a b : PartId} (h : (a, b) ≠ (e.src, e.dst)) :
    keyOf (setKey e ks) a b = keyOf ks a b := by
  have hne : ¬(e.src = a ∧ e.dst = b) := fun ⟨hs, hd⟩ => h (by rw [hs, hd])
  have hp : (fun x : LinkKey => decide ((!(x.src == e.src && x.dst == e.dst)) = true ∧ (x.src == a && x.dst == b) = true)) =
      fun x => x.src == a && x.dst == b := by
    refine funext fun x => Bool.eq_iff_iff.mpr ⟨fun hx => (of_decide_eq_true hx).2, fun hx => decide_eq_true ⟨?_, hx⟩⟩
    rw [Bool.and_eq_true, beq_iff_eq, beq_iff_eq] at hx
    rw [hx.1, hx.2, Bool.not_eq_true', Bool.eq_false_iff, ne_eq, Bool.and_eq_true, beq_iff_eq, beq_iff_eq]
    exact fun hh => hne ⟨hh.1.symm, hh.2.symm⟩
  rw [keyOf, keyOf, setKey, List.find?_cons_of_neg (by rw [Bool.and_eq_true, beq_iff_eq, beq_iff_eq]; exact hne), List.find?_filter, hp]

theorem Net.link_updLink_self (t : Net) (l : BitVec 4) (f : Link → Link) : (t.updLink l f).link l = f (t.link l) := by
  rw [Net.link, Net.updLink, Vector.getElem_set_self]

/-! ### Flits sent -/

/-- The key under which the next flit of a pair is sent: renewed before its SEQ would reach 2^48 − 1. -/
def sendKey (e : LinkKey) : LinkKey := if e.seq.toNat = 2 ^ 48 - 2 then { e with seq := 0, gen := e.gen + 1 } else e

/-- The flit that is sent under a key. -/
def sentFlit (t : Net) (dev : BitVec 16) (src dst : PartId) (typ : BitVec 8) (data : List Byte) (e : LinkKey) : SentFlit :=
  ⟨e.seq, src, dst, typ, flitNonce e.seq src dst (dev.toNat < t.devnum.toNat), data⟩

section Send
variable {t : Net} {dev : BitVec 16} {typ : BitVec 8} {data : List Byte} {e : LinkKey}

theorem link_send (t : Net) (l : BitVec 4) (dev : BitVec 16) (src dst : PartId) (typ : BitVec 8) (data : List Byte) :
    (t.send l dev src dst typ data).link l =
      { t.link l with
        tx := setKey { sendKey (keyOf (t.link l).tx src dst) with seq := (sendKey (keyOf (t.link l).tx src dst)).seq + 1 } (t.link l).tx
        replay := ((t.link l).replay ++ [sentFlit t dev src dst typ data (sendKey (keyOf (t.link l).tx src dst))]).drop
          ((t.link l).replay.length - 63) } :=
  Net.link_updLink_self _ _ _

theorem sendKey_pair (e : LinkKey) : (sendKey e).src = e.src ∧ (sendKey e).dst = e.dst := by
  rw [sendKey]
  split <;> exact ⟨rfl, rfl⟩

/-- The flit sent last stands last in the replay buffer. -/
theorem getLast_replay (r : List SentFlit) (f : SentFlit) : ((r ++ [f]).drop (r.length - 63)).getLast? = some f := by
  rw [List.drop_append_of_le_length (Nat.sub_le _ _), List.getLast?_append]
  rfl

/-- A flit sent under the key that its pair has then. -/
theorem sends_under (hk : sendKey (keyOf (t.link l).tx src dst) = e) :
    keyOf ((t.send l dev src dst typ data).link l).tx src dst = { e with seq := e.seq + 1 } ∧
      ((t.send l dev src dst typ data).link l).replay.getLast? = some (sentFlit t dev src dst typ data e) := by
  have hpair : e.src = src ∧ e.dst = dst := by
    rw [← hk, (sendKey_pair _).1, (sendKey_pair _).2]
    exact keyOf_pair _ _ _
  rw [link_send, hk]
  exact ⟨keyOf_setKey_self hpair.1 hpair.2, getLast_replay _ _⟩

theorem send_others {a b : PartId} (h : (a, b) ≠ (src, dst)) :
    keyOf ((t.send l dev src dst typ data).link l).tx a b = keyOf (t.link l).tx a b := by
  rw [link_send]
  refine keyOf_setKey_ne ?_
  dsimp only
  rw [(sendKey_pair _).1, (sendKey_pair _).2, (keyOf_pair _ _ _).1, (keyOf_pair _ _ _).2]
  exact h

theorem send_replay_length (h : (t.link l).replay.length ≤ 64) : ((t.send l dev src dst typ data).link l).replay.length ≤ 64 := by
  rw [link_send, List.length_drop, List.length_append, List.length_singleton]
  omega

end Send

/-! ### Flits received -/

/-- The key entry of a flit's pair. -/
def flitKey (s : State) (l : BitVec 4) (f : Flit) : LinkKey := keyOf (linkOf s l).keys f.src f.dst

/-- A flit has been taken in its order. -/
def tookFlit (s : State) (l : BitVec 4) (f : Flit) (t : State) : State :=
  updLink t l fun k => { k with keys := setKey { flitKey s l f with seq := (flitKey s l f).seq + 1 } k.keys, fails := 0 }

/-- A flit that comes in its order. -/
structure InOrder (s : State) (l : BitVec 4) (f : Flit) : Prop where
  up : (linkOf s l).down = false
  lcrc : f.lcrcOk = true
  seq : f.seq = (flitKey s l f).seq
  key : (flitKey s l f).seq.toNat ≠ 2 ^ 48 - 1

/-- What a flit in its order that is authentic does, by its type. -/
def flitServes (s : State) (l : BitVec 4) (f : Flit) : Out :=
  match f.typ.toNat with
  | 1 =>
    if !(s.part f.dst).keyed then .next (rasLog (tookFlit s l f s) cKEY_FAULT (f.dst.zeroExtend 64))
    else match servePeer s f with
      | .ok bs t => .next (peerReply (tookFlit s l f t) l f bs)
      | .trap c _ => .next (peerReply (tookFlit s l f s) l f [c])
      | .wait => .next s
  | 3 => .next ((tookFlit s l f s).updPorts fun h => { h with flitsIn := h.flitsIn ++ [(l, f)] })
  | _ => .next (tookFlit s l f s)

theorem InOrder.rule (h : InOrder s l f) : exec (.flitReceive l f) s =
    if !f.atagOk then .next (rasLog (updLink (tookFlit s l f s) l fun k => { k with authFail := authMark f k.authFail }) cLINK_AUTH
      (l.zeroExtend 64)) else flitServes s l f := by
  change execFlitReceive l f s = _
  rw [execFlitReceive]
  refine (if_neg (Bool.eq_false_iff.mp h.up)).trans ((if_neg (by rw [h.lcrc]; decide)).trans ((if_neg ?_).trans ?_))
  · rw [Bool.or_eq_true, bne_iff_ne, decide_eq_true_eq]
    exact fun hh => hh.elim (fun hn => hn h.seq) h.key
  · exact if_congr Iff.rfl rfl rfl

/-- A flit of a type that nothing but its place answers is taken. -/
theorem flitServes_taken (h : f.typ = 0 ∨ f.typ = 2) : flitServes s l f = .next (tookFlit s l f s) := by
  rw [flitServes]
  obtain h | h := h <;> rw [h] <;> rfl

theorem flitServes_collective (h : f.typ = 3) : flitServes s l f =
    .next ((tookFlit s l f s).updPorts fun h => { h with flitsIn := h.flitsIn ++ [(l, f)] }) := by
  rw [flitServes, h]
  rfl

theorem flitServes_erased (h : f.typ = 1) (hk : (s.part f.dst).keyed = false) :
    flitServes s l f = .next (rasLog (tookFlit s l f s) 0xA5 (f.dst.zeroExtend 64)) := by
  rw [flitServes, h]
  exact if_pos (by rw [hk]; rfl)

/-- A request is answered once it is served. -/
theorem flitServes_request (h : f.typ = 1) (hk : (s.part f.dst).keyed = true) :
    (servePeer s f = .ok bs s1 → flitServes s l f = .next (peerReply (tookFlit s l f s1) l f bs)) ∧
    (servePeer s f = .trap c va → flitServes s l f = .next (peerReply (tookFlit s l f s) l f [c])) ∧
    (servePeer s f = .wait → flitServes s l f = .next s) := by
  refine ⟨fun hp => ?_, fun hp => ?_, fun hp => ?_⟩
  all_goals
    rw [flitServes, h]
    refine (if_neg (by rw [hk]; decide)).trans ?_
    rw [hp]

theorem InOrder.serves (h : InOrder s l f) (ha : f.atagOk = true) {o : Out} (ho : flitServes s l f = o) :
    exec (.flitReceive l f) s = o := by
  rw [h.rule, if_neg (by rw [ha]; decide), ho]

theorem InOrder.unauthentic (h : InOrder s l f) (ha : f.atagOk = false) : exec (.flitReceive l f) s =
    .next (rasLog (updLink (tookFlit s l f s) l fun k => { k with authFail := authMark f k.authFail }) 0xA4 (l.zeroExtend 64)) := by
  rw [h.rule, if_pos (by rw [ha]; rfl)]
  rfl

/-- A flit that fails authentication marks what it was for. -/
theorem mem_authMark {a : Answers} (m : List (PartId × Answers)) (ha : a ≠ .other)
    (h : (f.typ = 3 ∧ a = .coll) ∨ (f.typ = 2 ∧ a = f.answers)) : (f.dst, a) ∈ authMark f m := by
  have hmark : (if f.typ = 3 then Answers.coll else if f.typ = 2 then f.answers else .other) = a := by
    obtain ⟨ht, rfl⟩ | ⟨ht, rfl⟩ := h
    · exact if_pos ht
    · rw [if_neg (by rw [ht]; decide), if_pos ht]
  rw [authMark]
  rw [hmark, if_neg (by rwa [beq_iff_eq]), List.mem_dedup]
  exact List.mem_append_right _ (List.mem_singleton.mpr rfl)

theorem exec_flitReceive_down (h : (linkOf s l).down = true) : exec (.flitReceive l f) s = .next s := if_pos h

theorem exec_flitReceive_damaged (h : (linkOf s l).down = false) (hc : f.lcrcOk = false) : exec (.flitReceive l f) s =
    .next (if 16 ≤ (linkOf s l).fails then linkGoesDown s l else updLink s l fun k => { k with fails := k.fails + 1 }) :=
  (if_neg (Bool.eq_false_iff.mp h)).trans (if_pos (by rw [hc]; rfl))

theorem exec_flitReceive_early (h : (linkOf s l).down = false) (hc : f.lcrcOk = true)
    (hs : f.seq ≠ (flitKey s l f).seq ∨ (flitKey s l f).seq.toNat = 2 ^ 48 - 1) : exec (.flitReceive l f) s = .next s := by
  refine (if_neg (Bool.eq_false_iff.mp h)).trans ((if_neg (by rw [hc]; decide)).trans (if_pos ?_))
  rw [Bool.or_eq_true, bne_iff_ne, decide_eq_true_eq]
  exact hs

/-! ### Keys and links -/

theorem keyOf_renewKey (ks : List LinkKey) : keyOf (renewKey src dst ks) src dst = ⟨src, dst, 0, (keyOf ks src dst).gen + 1⟩ :=
  keyOf_setKey_self rfl rfl

theorem linkOf_updLink_self (s : State) (l : BitVec 4) (f : Link → Link) : linkOf (updLink s l f) l = f (linkOf s l) :=
  Net.link_updLink_self _ _ _

/-- Settles O56: the checks of a flit in their order, and what a link sends. -/
theorem linksTakeFlitsInOrder : Obligations.LinksTakeFlitsInOrder := by
  unfold Obligations.LinksTakeFlitsInOrder
  intro s s1 l f bs c va
  have ordered : (linkOf s l).down = false ∧ f.lcrcOk = true ∧ f.seq = (keyOf (linkOf s l).keys f.src f.dst).seq ∧
      (keyOf (linkOf s l).keys f.src f.dst).seq.toNat ≠ 2 ^ 48 - 1 → InOrder s l f := fun ⟨h1, h2, h3, h4⟩ => ⟨h1, h2, h3, h4⟩
  refine ⟨fun ho ha ht => (ordered ho).serves ha (flitServes_collective ht), fun ho ha ht hk => ?_, fun t dev hw => ?_,
    fun ho ha ht => (ordered ho).serves ha (flitServes_taken ht), fun ho ha ht hk => (ordered ho).serves ha (flitServes_erased ht hk),
    fun ho ha => ⟨(ordered ho).unauthentic ha, fun a hne h => mem_authMark _ hne h⟩, fun hd hc hf => ?_, fun hd hc hf => ?_,
    fun hd hc hs => exec_flitReceive_early hd hc hs, exec_flitReceive_down, ?_, fun src dst => ?_, fun hd => ?_, rfl⟩
  · obtain ⟨hok, htrap, hwait⟩ := flitServes_request (s1 := s1) (l := l) (bs := bs) (c := c) (va := va) ht hk
    exact ⟨fun h => (ordered ho).serves ha (hok h), fun h => (ordered ho).serves ha (htrap h),
      fun h => (ordered ho).serves ha (hwait h)⟩
  · rw [peerReply]
    rw [hw]
    rfl
  · rw [exec_flitReceive_damaged hd hc, if_neg (Nat.not_le.mpr hf)]
  · rw [exec_flitReceive_damaged hd hc, if_pos hf]
  · intro t dev src dst typ data
    refine ⟨fun hx => ?_, fun hx => ?_, fun a b hne => send_others hne, send_replay_length⟩
    · obtain ⟨hk, hl⟩ := sends_under (t := t) (l := l) (src := src) (dst := dst) (dev := dev) (typ := typ) (data := data)
        (if_neg (Nat.ne_of_lt hx))
      exact ⟨hk, _, hl, rfl, rfl, rfl, rfl, rfl, rfl⟩
    · obtain ⟨hk, hl⟩ := sends_under (t := t) (l := l) (src := src) (dst := dst) (dev := dev) (typ := typ) (data := data) (if_pos hx)
      exact ⟨hk, _, hl, rfl, rfl, rfl, rfl, rfl, rfl⟩
  · refine ⟨_, rfl, ?_, ?_⟩
    · rw [linkOf_updLink_self]
      exact keyOf_renewKey _
    · rw [linkOf_updLink_self]
      exact keyOf_renewKey _
  · exact congrArg Host.Outcome.next (if_neg (Bool.eq_false_iff.mp hd))

end Sys2Proof.Machine
end

section
/-!
PROOFS. The storage port, power-on, and the life of a partition (R24, R348, R394, R401, R402).
-/

namespace Sys2Proof.Machine

open Sys2Proof

variable {s s1 : State} {p : PartId} {q : DmaReq} {g : PartCfg} {bs : List Byte} {c : CoreId}

/-! ### The storage port -/

/-- A request lies inside the owner's grant and below the peers' windows. -/
def InsideGrant (s : State) (p : PartId) (q : DmaReq) : Prop :=
  granted (s.part p) q.pa.toNat (dmaReqSize q) = true ∧ q.pa.toNat + dmaReqSize q ≤ peerBase

theorem insideGrant_iff : InsideGrant s p q ↔
    ¬(!granted (s.part p) q.pa.toNat (dmaReqSize q) || decide (peerBase < q.pa.toNat + dmaReqSize q)) = true := by
  rw [InsideGrant, Bool.or_eq_true, Bool.not_eq_true', decide_eq_true_eq, not_or, Bool.not_eq_false, Nat.not_lt]

theorem exec_storageDma_unowned (h : storageOwner s = none) : exec (.storageDma q) s = .next (toDevice s .unsupported) := by
  change execStorageDma q s = _
  rw [execStorageDma, h]

theorem exec_storageDma_erased (h : storageOwner s = some p) (hk : (s.part p).keyed = false) : exec (.storageDma q) s =
    .next (toDevice (s.updPorts fun h => { h with rasLog := h.rasLog ++ [⟨0xA5, BitVec.ofNat 64 q.pa.toNat⟩] }) .unsupported) := by
  change execStorageDma q s = _
  rw [execStorageDma, h]
  exact if_pos (by rw [hk]; rfl)

theorem exec_storageDma_outside (h : storageOwner s = some p) (hk : (s.part p).keyed = true) (hi : ¬InsideGrant s p q) :
    exec (.storageDma q) s = .next (toDevice s .unsupported) := by
  change execStorageDma q s = _
  rw [execStorageDma, h]
  exact (if_neg (by rw [hk]; decide)).trans (if_pos (not_not.mp (mt insideGrant_iff.mpr hi)))

theorem exec_storageDma_writes (h : storageOwner s = some p) (hk : (s.part p).keyed = true) (hi : InsideGrant s p q)
    (hq : q.write = true) (hw : writePhys s (hubCtx p .h) q.pa.toNat q.data.length q.data = .ok () s1) :
    exec (.storageDma q) s = .next (toDevice s1 .done) := by
  change execStorageDma q s = _
  rw [execStorageDma, h]
  refine (if_neg (by rw [hk]; decide)).trans ((if_neg (insideGrant_iff.mp hi)).trans ((if_pos hq).trans ?_))
  rw [hw]

theorem exec_storageDma_reads (h : storageOwner s = some p) (hk : (s.part p).keyed = true) (hi : InsideGrant s p q)
    (hq : q.write = false) (hr : readPhys s (hubCtx p .h) q.pa.toNat q.len.toNat = .ok bs s1) :
    exec (.storageDma q) s = .next (toDevice s1 (.data bs)) := by
  change execStorageDma q s = _
  rw [execStorageDma, h]
  refine (if_neg (by rw [hk]; decide)).trans ((if_neg (insideGrant_iff.mp hi)).trans ((if_neg (by rw [hq]; decide)).trans ?_))
  rw [hr]

/-! ### Power-on -/

/-- The device after power-on, whose firmware has been read. -/
def bootedUp (s : State) : State := { s with booted := true, fresh := s.fresh + 32 }

/-- The device once its columns have retired. -/
def columnsRetired (s : State) : State := { bootedUp s with dies := (bootedUp s).dies.map retireColumn }

/-- The device once the monitor is measured and SY core 0 released. -/
def monitorUp (s : State) : State :=
  (((columnsRetired s).updPorts fun h => { h with measured := extendFree s s.ports.measured }).updMs fun ms =>
    { ms with net := { ms.net with devnum := (Config.freeWord s.fresh).extractLsb' 0 16 } }).updCore (.sy 0)
      (monitorCore (Config.freeWord s.fresh))

theorem exec_deviceBoot (h : s.booted = false) : exec .deviceBoot s =
    .next (if Config.firmwareGenuine s.fresh = false then haltAll (bootedUp s)
      else if Config.monitorGenuine s.fresh = false then haltAll (columnsRetired s) else monitorUp s) := by
  change execDeviceBoot s = _
  rw [execDeviceBoot]
  refine (if_neg (Bool.eq_false_iff.mp h)).trans ?_
  by_cases hf : Config.firmwareGenuine s.fresh = false
  · rw [if_pos hf]
    exact if_pos (by rw [hf]; rfl)
  · rw [if_neg hf]
    refine (if_neg (by rw [Bool.not_eq_false] at hf; rw [hf]; decide)).trans ?_
    by_cases hm : Config.monitorGenuine s.fresh = false
    · rw [if_pos hm]
      exact if_pos (by rw [hm]; rfl)
    · rw [if_neg hm]
      exact if_neg (by rw [Bool.not_eq_false] at hm; rw [hm]; decide)

/-! ### Cores set one after another -/

/-- Each core of a list is set to what a rule makes of the state then. -/
def setCores (mk : State → Core) (l : List CoreId) (s : State) : State := l.foldl (fun s c => s.setCore c (mk s)) s

theorem part_setCores (mk : State → Core) (l : List CoreId) (s : State) (p : PartId) : (setCores mk l s).part p = s.part p := by
  induction l generalizing s with
  | nil => rfl
  | cons c l ih => exact (ih _).trans (State.part_updCore s c (fun _ => mk s) p)

/-- What holds of every core that the rule makes holds of each core of the list. -/
theorem core_setCores {mk : State → Core} {P : Core → Prop} (hP : ∀ s, P (mk s)) {l : List CoreId} {s : State} {d : CoreId}
    (h : d ∈ l ∨ P (s.core d)) : P ((setCores mk l s).core d) := by
  induction l generalizing s with
  | nil => exact h.elim (fun hn => absurd hn (by simp)) id
  | cons c l ih =>
    refine ih (s := s.setCore c (mk s)) ?_
    by_cases hd : d = c
    · subst hd
      refine .inr ?_
      rw [show s.setCore d (mk s) = s.updCore d fun _ => mk s from rfl, State.core_updCore_self]
      exact hP s
    · obtain hm | hs := h
      · exact .inl ((List.mem_cons.mp hm).resolve_left hd)
      · refine .inr ?_
        rw [show s.setCore c (mk s) = s.updCore c fun _ => mk s from rfl, State.core_updCore_ne _ hd]
        exact hs

/-! ### A partition begins -/

theorem exec_partitionCreate_held (h : s.heldUp = true) : exec (.partitionCreate p g) s = .next s := by
  refine if_pos ?_
  rw [mayCreate, h, Bool.not_true, Bool.and_false, Bool.false_and, Bool.false_and, Bool.false_and, Bool.false_and, Bool.false_and,
    Bool.false_and]
  rfl

theorem exec_partitionCreate_unverified (h : mayCreate s p g = true) (hv : g.verified = false) :
    exec (.partitionCreate p g) s = .next (haltAll s) :=
  (if_neg (by rw [h]; decide)).trans (if_pos (by rw [hv]; rfl))

/-- A core of a new partition, as it is assigned. -/
def assignedCore (p : PartId) (s : State) : Core := { Core.reset with part := some p, cycBase := s.fclock }

/-- The state with the partition and its cores assigned. -/
def assigned (s : State) (p : PartId) (g : PartCfg) : State :=
  setCores (assignedCore p) (cfgCores g) ((s.useFresh 32).setPart p (newPartition g (extendFree s [])))

theorem exec_partitionCreate (h : mayCreate s p g = true) (hv : g.verified = true) (hc : firstSy g = some c) :
    exec (.partitionCreate p g) s =
      .next ((assigned s p g).updCore c fun x => { x with pc := g.entry &&& ~~~3#64, run := .running }) := by
  refine (if_neg (by rw [h]; decide)).trans ((if_neg (by rw [hv]; decide)).trans ?_)
  rw [hc]
  rfl

/-- The first SY core of a configuration is one of its cores. -/
theorem firstSy_mem (hc : firstSy g = some c) : c ∈ cfgCores g := by
  obtain ⟨i, hi, rfl⟩ := Option.map_eq_some_iff.mp hc
  exact List.mem_append_right _ (List.mem_map.mpr ⟨i, List.mem_filter.mpr ⟨List.mem_of_find?_eq_some hi, List.find?_some hi⟩, rfl⟩)

theorem part_assigned : (assigned s p g).part p = newPartition g (extendFree s []) := by
  rw [assigned, part_setCores]
  exact State.part_updPart_self _ p fun _ => newPartition g (extendFree s [])

theorem core_assigned {d : CoreId} (h : d ∈ cfgCores g) : ((assigned s p g).core d).part = some p ∧ ((assigned s p g).core d).level = .s :=
  core_setCores (P := fun x => x.part = some p ∧ x.level = .s) (fun _ => ⟨rfl, rfl⟩) (.inl h)

theorem partitionCreate_begins (h : mayCreate s p g = true) (hv : g.verified = true) (hc : firstSy g = some c) :
    ∃ t, exec (.partitionCreate p g) s = .next t ∧ (t.part p).st = .running ∧ (t.part p).ptroot = ptrootBits g.ptroot ∧
      (t.part p).grant = g.grant.map (fun x => (x.1.toNat, x.2.toNat)) ∧ (t.core c).pc = g.entry &&& ~~~3#64 ∧
      (t.core c).run = .running ∧ (t.core c).level = .s ∧ ∀ d ∈ cfgCores g, (t.core d).part = some p := by
  refine ⟨_, exec_partitionCreate h hv hc, ?_, ?_, ?_, ?_, ?_, ?_, fun d hd => ?_⟩
  · rw [State.part_updCore, part_assigned]; rfl
  · rw [State.part_updCore, part_assigned]; rfl
  · rw [State.part_updCore, part_assigned]; rfl
  · rw [State.core_updCore_self]
  · rw [State.core_updCore_self]
  · rw [State.core_updCore_self]
    exact (core_assigned (firstSy_mem hc)).2
  · by_cases hdc : d = c
    · subst hdc
      rw [State.core_updCore_self]
      exact (core_assigned hd).1
    · rw [State.core_updCore_ne _ hdc]
      exact (core_assigned hd).1

/-! ### A partition ends -/

/-- A core that no partition has any more. -/
def freedCore (s : State) : Core := { Core.reset with run := .halted, cycBase := s.fclock }

/-- The state in which a partition is destroyed but for its own state and its host queues. -/
def emptied (s : State) (p : PartId) : State :=
  setCores freedCore (coresOf s p) (eraseKey (dropRequests ((regionsOf (haltPart (s.updPart p fun q => { q with st := .destroying }) p)
    p).foldl freeRegion (haltPart (s.updPart p fun q => { q with st := .destroying }) p)) p) p)

theorem exec_partitionDestroy (h : (s.part p).st ≠ .absent) : exec (.partitionDestroy p) s =
    .next (setWinQueue (setSession ((emptied s p).setPart p Partition.reset) (.vf p) none) p []) := by
  change execPartitionDestroy p s = _
  rw [execPartitionDestroy]
  exact if_neg (by rwa [beq_iff_eq])

/-- The state once the partition's own state, its session and its window's queue are gone. -/
def gone (u : State) (p : PartId) : State := setWinQueue (setSession (u.setPart p Partition.reset) (.vf p) none) p []

theorem part_gone (u : State) (p : PartId) : (gone u p).part p = Partition.reset :=
  State.part_updPart_self u p fun _ => Partition.reset

theorem core_gone (u : State) (p : PartId) (d : CoreId) : (gone u p).core d = u.core d := by cases d <;> rfl

theorem sessionGen_gone (u : State) (p : PartId) : sessionGen (gone u p) (.vf p) = none := by
  refine Option.map_eq_none_iff.mpr (List.find?_eq_none.mpr fun e he => ?_)
  have hm := (List.mem_filter.mp ((List.mem_append.mp he).resolve_left (by simp))).2
  rw [beq_iff_eq]
  exact bne_iff_ne.mp hm

theorem partitionDestroy_ends (h : (s.part p).st ≠ .absent) : ∃ t, exec (.partitionDestroy p) s = .next t ∧
    t.part p = Partition.reset ∧ (∀ d ∈ coresOf s p, (t.core d).part = none ∧ (t.core d).run = .halted) ∧
    sessionGen t (.vf p) = none := by
  refine ⟨gone (emptied s p) p, exec_partitionDestroy h, part_gone _ p, fun d hd => ?_, sessionGen_gone _ p⟩
  rw [core_gone]
  exact core_setCores (P := fun x => x.part = none ∧ x.run = .halted) (fun _ => ⟨rfl, rfl⟩) (.inl hd)

/-- Settles O57. -/
theorem storagePowerOnAndPartitions : Obligations.StoragePowerOnAndPartitions := by
  unfold Obligations.StoragePowerOnAndPartitions
  intro s s1 p q g bs c
  refine ⟨exec_storageDma_unowned, fun ho hi hk => exec_storageDma_outside ho hk fun h => hi ⟨h.1, hk, h.2⟩, exec_storageDma_erased,
    fun ho ⟨hg, hk, hp⟩ hq hw => exec_storageDma_writes ho hk ⟨hg, hp⟩ hq hw,
    fun ho ⟨hg, hk, hp⟩ hq hr => exec_storageDma_reads ho hk ⟨hg, hp⟩ hq hr, exec_deviceBoot, exec_partitionCreate_held,
    partitionCreate_begins, exec_partitionCreate_unverified, partitionDestroy_ends⟩

end Sys2Proof.Machine
end

section
/-!
PROOFS. MWCAS: its checks, its lock grants, its compare and its commits (R98 to R103, R159, R160).
-/

namespace Sys2Proof.Machine

open Sys2Proof

variable {s s1 u : State} {m : Mwcas} {p : PartId} {d a : Reg} {o : MwOwner} {k l : Nat} {c : CoreId} {h : Word}

/-! ### What stands at the Crucible -/

/-- Locks, MWCAS and recalls are the same. -/
structure SameCrucible (a b : MemSys) : Prop where
  locks : b.locks = a.locks
  mwcas : b.mwcas = a.mwcas
  recalls : b.recalls = a.recalls

namespace SameCrucible

variable {a b c : MemSys}

theorem refl (a : MemSys) : SameCrucible a a := ⟨rfl, rfl, rfl⟩

theorem trans (h : SameCrucible a b) (k : SameCrucible b c) : SameCrucible a c :=
  ⟨k.locks.trans h.locks, k.mwcas.trans h.mwcas, k.recalls.trans h.recalls⟩

theorem foldl {α : Type} {f : MemSys → α → MemSys} (h : ∀ ms x, SameCrucible ms (f ms x)) (l : List α) (ms : MemSys) :
    SameCrucible ms (l.foldl f ms) := by
  induction l generalizing ms with
  | nil => exact refl ms
  | cons x l ih => exact (h ms x).trans (ih _)

theorem putHome (p : PartId) (v n : Nat) (ms : MemSys) (pa : Nat) : SameCrucible ms (Machine.putHome p v n ms pa) := by
  rw [Machine.putHome]
  split <;> exact ⟨rfl, rfl, rfl⟩

theorem homeWrite (p : PartId) (ms : MemSys) (pa v n : Nat) : SameCrucible ms (Machine.homeWrite p ms pa v n) := by
  have h := foldl (SameCrucible.putHome p v n) (pa :: mirrors ms pa) ms
  exact ⟨h.locks, h.mwcas, h.recalls⟩

theorem writeThrough (ms : MemSys) (l : SLine) : SameCrucible ms (Machine.writeThrough ms l) := by
  refine foldl (fun ms i => ?_) _ ms
  split
  · exact homeWrite _ _ _ _ _
  · exact refl ms

theorem releaseS (g : Agent) (ms : MemSys) : SameCrucible ms (Machine.releaseS g ms) := by
  have h := foldl writeThrough (ms.slines.filter (·.agent == g)) ms
  exact ⟨h.locks, h.mwcas, h.recalls⟩

theorem acquireS (g : Agent) (ms : MemSys) : SameCrucible ms (Machine.acquireS g ms) := by
  have h := foldl writeThrough (ms.slines.filter fun l => l.agent == g && !dirtyLocked ms l) ms
  exact ⟨h.locks, h.mwcas, h.recalls⟩

theorem dirWrite (g : Option Agent) (pa : Nat) (now : Word) (ms : MemSys) : SameCrucible ms (Machine.dirWrite g pa now ms) := by
  unfold Machine.dirWrite
  dsimp only
  cases ms.dir.find? (dirCovers · pa) with
  | none => exact ⟨rfl, rfl, rfl⟩
  | some e => dsimp only; split <;> exact ⟨rfl, rfl, rfl⟩

end SameCrucible

theorem dirWrite_peerWrites (g : Option Agent) (pa : Nat) (now : Word) (ms : MemSys) :
    (dirWrite g pa now ms).peerWrites = ms.peerWrites := by
  unfold dirWrite
  dsimp only
  cases ms.dir.find? (dirCovers · pa) with
  | none => rfl
  | some e => dsimp only; split <;> rfl

theorem dirWrite_net (g : Option Agent) (pa : Nat) (now : Word) (ms : MemSys) : (dirWrite g pa now ms).net = ms.net := by
  unfold dirWrite
  dsimp only
  cases ms.dir.find? (dirCovers · pa) with
  | none => rfl
  | some e => dsimp only; split <;> rfl

/-- A line locked: one lock more, and no byte changed. -/
theorem lockLine_eq (m : Mwcas) (l : Nat) (now : Word) (ms : MemSys) :
    (lockLine m l now ms).locks = (l, m.op) :: ms.locks ∧ (lockLine m l now ms).mwcas = ms.mwcas ∧
      (lockLine m l now ms).mem = ms.mem ∧ (lockLine m l now ms).peerWrites = ms.peerWrites ∧
      (lockLine m l now ms).net = ms.net := by
  rw [lockLine]
  split
  · have hc := SameCrucible.dirWrite none (l * 128) now { ms with locks := (l, m.op) :: ms.locks }
    exact ⟨hc.locks, hc.mwcas, dirWrite_mem _ _ _ _, dirWrite_peerWrites _ _ _ _, dirWrite_net _ _ _ _⟩
  · exact ⟨rfl, rfl, rfl, rfl, rfl⟩

/-! ### The checks -/

theorem blkRead_all (s : State) (x : Ctx) (w : Word → Bool → Bool) (va : Word) (wr : Bool) :
    (blkRead s x w va wr).All (Keeps s) := by
  refine (translate_all s x .write va).then fun t s1 => ?_
  split
  · trivial
  · exact (readAt_all s1 x t 8 va).then fun v s2 => Keeps.refl s2

theorem blkEntries_all (x : Ctx) (w : Word → Bool → Bool) (blk : Word) (n i : Nat) (s : State) :
    (blkEntries s x w blk n i).All (Keeps s) := by
  induction n generalizing s i with
  | zero => exact Keeps.refl s
  | succ n ih =>
    refine (blkRead_all s x w _ _).then fun v s1 => (blkRead_all s1 x w _ _).then fun e s2 => (blkRead_all s2 x w _ _).then
      fun nw s3 => ?_
    split
    · trivial
    · refine ((translate_all s3 x .write v.2.2).then fun t s4 => ?_).then fun t s5 => ?_
      · rw [atomicPlace]
        split
        · trivial
        · exact Keeps.refl s4
      · split
        · trivial
        · split
          · trivial
          · exact (ih _ s5).then fun r s6 => Keeps.refl s6

/-- The entries of a block are as many as its header says. -/
theorem blkEntries_length {x : Ctx} {w : Word → Bool → Bool} {blk : Word} {n i : Nat}
    {r : List (Nat × BitVec 2) × List (Word × Nat × BitVec 2 × Word × Word)} (hr : blkEntries s x w blk n i = .ok r s1) :
    r.2.length = n := by
  induction n generalizing s s1 i r with
  | zero =>
    rw [blkEntries] at hr
    injection hr with hr _
    rw [← hr]
    rfl
  | succ n ih =>
    rw [blkEntries] at hr
    obtain ⟨v, s2, -, hr⟩ := MRes.bind_ok hr
    obtain ⟨e, s3, -, hr⟩ := MRes.bind_ok hr
    obtain ⟨nw, s4, -, hr⟩ := MRes.bind_ok hr
    split at hr
    · exact absurd hr (by simp)
    · obtain ⟨t, s5, -, hr⟩ := MRes.bind_ok hr
      split at hr
      · exact absurd hr (by simp)
      · split at hr
        · exact absurd hr (by simp)
        · obtain ⟨r', s6, hr', hr⟩ := MRes.bind_ok hr
          injection hr with hr _
          rw [← hr, List.length_cons, ih hr']

theorem sortBy_ne_nil {α : Type} {le : α → α → Bool} {l : List α} (h : l ≠ []) : sortBy le l ≠ [] := by
  rw [sortBy, ← List.length_pos_iff, List.length_insertionSort]
  exact List.length_pos_iff.mpr h

/-- A MWCAS as its checks leave it: nothing locked, compared or committed, and a line to lock. -/
structure NewMwcas (s s1 : State) (op : Nat) (m : Mwcas) : Prop where
  keeps : Keeps s s1
  op : m.op = op
  want : m.want ≠ []
  held : m.held = []
  commits : m.commits = []
  committed : m.committed = 0

theorem newMwcas_of_check {x : Ctx} {w : Word → Bool → Bool} {blk : Word} (hm : mwcasCheck s x p w blk k = .ok m s1) :
    NewMwcas s s1 k m := by
  rw [mwcasCheck] at hm
  split at hm
  · exact absurd hm (by simp)
  · obtain ⟨hd, s2, hh, hm⟩ := MRes.bind_ok hm
    dsimp only at hm
    split at hm
    · exact absurd hm (by simp)
    · rename_i hform
      obtain ⟨r, s3, hr, hm⟩ := MRes.bind_ok hm
      split at hm
      · exact absurd hm (by simp)
      · split at hm
        · exact absurd hm (by simp)
        · injection hm with hm1 hs
          subst hs
          subst hm1
          have hkeep := ((blkRead_all s x w blk true).of_ok hh).trans ((blkEntries_all x w blk _ 0 s2).of_ok hr)
          refine ⟨hkeep, rfl, sortBy_ne_nil ?_, rfl, rfl, rfl⟩
          have hlen := blkEntries_length hr
          intro hnil
          rw [List.map_eq_nil_iff.mp ((List.dedup_eq_nil _).mp hnil), List.length_nil] at hlen
          rw [← hlen] at hform
          exact hform (by rw [decide_eq_true (show 0 < 2 by decide)]; rfl)

/-! ### Links under a MWCAS -/

/-- The links that are down, and the windows, are the same. -/
def SameDown (a b : Net) : Prop := (∀ w, b.win w = a.win w) ∧ ∀ x, (b.link x).down = (a.link x).down

theorem Net.link_updLink_ne {t : Net} {l x : BitVec 4} (hx : x ≠ l) (f : Link → Link) : (t.updLink l f).link x = t.link x := by
  exact Vector.getElem_set_ne l.isLt x.isLt fun he => hx (BitVec.eq_of_toNat_eq he.symm)

theorem sameDown_send (t : Net) (l : BitVec 4) (dev : BitVec 16) (src dst : PartId) (typ : BitVec 8) (data : List Byte) :
    SameDown t (t.send l dev src dst typ data) := by
  refine ⟨fun _ => rfl, fun x => ?_⟩
  by_cases hx : x = l
  · subst hx
    rw [link_send]
  · rw [Net.send, Net.link_updLink_ne hx]

/-- What a compare asks of peers leaves everything but the links' queues. -/
structure Asked (a b : MemSys) : Prop extends SameCrucible a b where
  mem : b.mem = a.mem
  peerWrites : b.peerWrites = a.peerWrites
  down : SameDown a.net b.net

theorem asked_peerAsk (p : PartId) (pa n : Nat) (ms : MemSys) : Asked ms (peerAsk p pa n ms) :=
  ⟨⟨rfl, rfl, rfl⟩, rfl, rfl, sameDown_send _ _ _ _ _ _ _⟩

theorem Asked.refl (a : MemSys) : Asked a a := ⟨SameCrucible.refl a, rfl, rfl, fun _ => rfl, fun _ => rfl⟩

theorem Asked.trans {a b c : MemSys} (h : Asked a b) (k : Asked b c) : Asked a c :=
  ⟨h.toSameCrucible.trans k.toSameCrucible, k.mem.trans h.mem, k.peerWrites.trans h.peerWrites,
    fun w => (k.down.1 w).trans (h.down.1 w), fun x => (k.down.2 x).trans (h.down.2 x)⟩

/-- The memory system once a compare has asked for the words in peers' memories. -/
def askedFor (m : Mwcas) (ms : MemSys) : MemSys := (m.entries.filter (isPeer ·.2.1)).foldl (fun ms e => peerAsk m.part e.2.1 8 ms) ms

theorem asked_askedFor (m : Mwcas) (ms : MemSys) : Asked ms (askedFor m ms) := by
  rw [askedFor]
  induction m.entries.filter (isPeer ·.2.1) generalizing ms with
  | nil => exact Asked.refl ms
  | cons e es ih => exact (asked_peerAsk _ _ _ ms).trans (ih _)

/-! ### The compare -/

/-- The values that a compare observes. -/
def observes (k : Nat) (ms : MemSys) (m : Mwcas) : List Word := m.entries.zipIdx.map fun x =>
  if isPeer x.1.2.1 then Config.freeWord (k + x.2) else BitVec.ofNat 64 (Memory.readLE ms.mem x.1.2.1 8)

/-- Which entries differ from their EXP. -/
def differ (m : Mwcas) (ob : List Word) : List Bool := (m.entries.zip ob).map fun x => x.1.2.2.2.1 != x.2

/-- A bit for each entry that differs. -/
def diffMask (bs : List Bool) : Nat := (bs.zipIdx.map fun x => if x.1 then 2 ^ x.2 else 0).sum

theorem diffMask_pos {bs : List Bool} (hb : true ∈ bs) : diffMask bs ≠ 0 := by
  intro h0
  obtain ⟨i, hi, he⟩ := List.mem_iff_getElem.mp hb
  have hm : (true, i) ∈ bs.zipIdx := List.mem_zipIdx_iff_getElem?.mpr (List.getElem?_eq_some_iff.mpr ⟨hi, he⟩)
  have := List.sum_eq_zero_iff.mp h0 _ (List.mem_map_of_mem hm)
  exact absurd this (by simp)

theorem sum_bits_le (bs : List Bool) (i : Nat) :
    ((bs.zipIdx i).map fun x => if x.1 then 2 ^ x.2 else 0).sum + 2 ^ i ≤ 2 ^ (i + bs.length) := by
  induction bs generalizing i with
  | nil => simp
  | cons b bs ih =>
    have hi := ih (i + 1)
    rw [Nat.pow_succ] at hi
    rw [List.zipIdx_cons, List.map_cons, List.sum_cons, List.length_cons, show i + (bs.length + 1) = i + 1 + bs.length by omega]
    generalize ((bs.zipIdx (i + 1)).map fun x => if x.1 then 2 ^ x.2 else 0).sum = e at hi ⊢
    have hb : (if (b, i).1 = true then 2 ^ (b, i).2 else 0) ≤ 2 ^ i := by
      split
      · exact Nat.le_refl _
      · exact Nat.zero_le _
    omega

theorem diffMask_lt (bs : List Bool) : diffMask bs < 2 ^ bs.length := by
  have h := sum_bits_le bs 0
  rw [Nat.zero_add] at h
  exact Nat.lt_of_succ_le h

section Compare
variable {ms : MemSys}

/-- The compare's outcome when every entry is as expected. -/
theorem mwCompare_equal (h0 : diffMask (differ m (observes k (askedFor m ms) m)) = 0) : mwCompare k ms m =
    ({ m with
        observed := observes k (askedFor m ms) m, commits := (m.held.map sliceOf).dedup
        result := some (1#64 <<< 63 ||| BitVec.ofNat 64 m.n) }, askedFor m ms) := if_pos h0

theorem mwCompare_differs (h0 : diffMask (differ m (observes k (askedFor m ms) m)) ≠ 0) : mwCompare k ms m =
    ({ m with
        observed := observes k (askedFor m ms) m, held := []
        result := some (BitVec.ofNat 64 (diffMask (differ m (observes k (askedFor m ms) m)) * 2 ^ 32 + m.n)) },
      unlock (askedFor m ms) m.op m.held) := if_neg h0

/-- What every compare keeps of the MWCAS and of the memory system. -/
structure Compared (ms : MemSys) (m : Mwcas) (r : Mwcas × MemSys) : Prop where
  op : r.1.op = m.op
  entries : r.1.entries = m.entries
  n : r.1.n = m.n
  committed : r.1.committed = m.committed
  observed : r.1.observed.length = m.entries.length
  mem : r.2.mem = ms.mem
  peerWrites : r.2.peerWrites = ms.peerWrites
  mwcas : r.2.mwcas = ms.mwcas
  down : SameDown ms.net r.2.net

theorem compared_mwCompare (k : Nat) (ms : MemSys) (m : Mwcas) : Compared ms m (mwCompare k ms m) := by
  have hlen : (observes k (askedFor m ms) m).length = m.entries.length := by
    rw [observes, List.length_map, List.length_zipIdx]
  have ha := asked_askedFor m ms
  by_cases h0 : diffMask (differ m (observes k (askedFor m ms) m)) = 0
  · rw [mwCompare_equal h0]
    exact ⟨rfl, rfl, rfl, rfl, hlen, ha.mem, ha.peerWrites, ha.mwcas, ha.down⟩
  · rw [mwCompare_differs h0]
    exact ⟨rfl, rfl, rfl, rfl, hlen, ha.mem, ha.peerWrites, ha.mwcas, ha.down⟩

/-- The success header has its bit 63 set. -/
theorem success_bit (n : Nat) : ((1#64 <<< 63 ||| BitVec.ofNat 64 n : Word)).getLsbD 63 = true := by
  rw [BitVec.getLsbD_or, show (1#64 <<< 63 : Word).getLsbD 63 = true from by decide, Bool.true_or]

/-- A compare whose header has bit 63 clear has found a difference. -/
theorem commits_of_failure (hr : (mwCompare k ms m).1.result = some h) (hb : h.getLsbD 63 = false) :
    (mwCompare k ms m).1.commits = m.commits := by
  by_cases h0 : diffMask (differ m (observes k (askedFor m ms) m)) = 0
  · rw [mwCompare_equal h0] at hr
    rw [← Option.some.inj hr, success_bit] at hb
    exact absurd hb (by decide)
  · rw [mwCompare_differs h0]

/-- One entry that differs from its EXP fails the MWCAS: nothing to commit, every lock released. -/
structure Fails (m : Mwcas) (r : Mwcas × MemSys) : Prop where
  commits : r.1.commits = m.commits
  held : r.1.held = []
  header : m.entries.length ≤ 16 → m.n ≤ 16 → ∀ h, r.1.result = some h → h.getLsbD 63 = false
  unlocked : ∀ x ∈ m.held, (x, m.op) ∉ r.2.locks

theorem mwCompare_fails (hd : ∃ e ∈ m.entries.zip (mwCompare k ms m).1.observed, e.1.2.2.2.1 ≠ e.2) : Fails m (mwCompare k ms m) := by
  have h0 : diffMask (differ m (observes k (askedFor m ms) m)) ≠ 0 := by
    intro h0
    rw [mwCompare_equal h0] at hd
    obtain ⟨e, he, hne⟩ := hd
    have hm : true ∈ differ m (observes k (askedFor m ms) m) := List.mem_map.mpr ⟨e, he, bne_iff_ne.mpr hne⟩
    exact diffMask_pos hm h0
  rw [mwCompare_differs h0]
  refine ⟨rfl, rfl, fun hl hn h hh => ?_, fun x hx hm => ?_⟩
  · have hlt := diffMask_lt (differ m (observes k (askedFor m ms) m))
    have hlen : (differ m (observes k (askedFor m ms) m)).length ≤ 16 := by
      rw [differ, List.length_map, List.length_zip]
      omega
    have hp : 2 ^ (differ m (observes k (askedFor m ms) m)).length ≤ 2 ^ 16 := Nat.pow_le_pow_right (by decide) hlen
    rw [← Option.some.inj hh, BitVec.getLsbD_ofNat, Nat.testBit_lt_two_pow, Bool.and_false]
    omega
  · have hnot : (!(m.op == m.op && m.held.contains x)) = true := (List.mem_filter.mp hm).2
    rw [beq_self_eq_true, List.contains_iff_mem.mpr hx] at hnot
    exact absurd hnot (by decide)

end Compare

/-! ### Words over a link that is down -/

theorem overDead_of_sameDown {s t : State} (h : SameDown s.ms.net t.ms.net) (pa : Nat) : overDead t 1 pa = overDead s 1 pa := by
  rw [overDead, overDead, State.peerLink, State.peerLink, State.pwinOf, State.pwinOf, h.1, h.2]

/-- A MWCAS none of whose words lies over a link that is down has none in any selection either. -/
theorem mwDead_none {s t : State} {m m' : Mwcas} (hn : mwDead s m (fun _ => true) = none) (h : SameDown s.ms.net t.ms.net)
    (he : m'.entries = m.entries) (sel : Word × Nat × BitVec 2 × Word × Word → Bool) : mwDead t m' sel = none := by
  rw [mwDead, Option.map_eq_none_iff, List.find?_eq_none] at hn ⊢
  rw [he]
  intro e hm hs
  rw [overDead_of_sameDown h, Bool.and_eq_true] at hs
  exact hn e hm (by rw [hs.2]; rfl)

theorem not_isSome_of_none {α : Type} {x : Option α} (h : x = none) : ¬x.isSome = true := by rw [h]; exact Bool.false_ne_true

/-! ### The end of a MWCAS -/

theorem blkWrites_all (x : Ctx) (l : List ((Nat × BitVec 2) × Word)) (s : State) : (blkWrites s x l).All (Keeps s) := by
  induction l generalizing s with
  | nil => exact Keeps.refl s
  | cons e l ih =>
    obtain ⟨⟨pa, coh⟩, v⟩ := e
    have hw := writeAt_all s x ⟨pa, coh⟩ v.toNat 8 0
    rw [blkWrites]
    cases hr : writeAt s x ⟨pa, coh⟩ v.toNat 8 0 with
    | ok a t =>
      rw [hr] at hw
      exact MRes.All.trans hw (ih t)
    | trap a b => exact ih s
    | wait => trivial

/-- The memory system after a core's MWCAS has ended. -/
def finishedMs (op : Nat) (c : CoreId) (ms : MemSys) : MemSys :=
  acquireS (.coreD c) { ms with mwcas := ms.mwcas.filter (·.1.op != op) }

theorem finishedMs_mwcas (op : Nat) (c : CoreId) (ms : MemSys) : ∀ x ∈ (finishedMs op c ms).mwcas, x.1.op ≠ op := by
  intro x hx
  rw [finishedMs, (SameCrucible.acquireS _ _).mwcas] at hx
  exact bne_iff_ne.mp (List.mem_filter.mp hx).2

/-- A core as the end of its MWCAS leaves it. -/
def finishedCore (d : Reg) (h : Word) (x : Core) : Core :=
  let y : Core := { x.wg d h with run := .running }
  { clearSkip y with pc := y.pc + 4 }

theorem finishedCore_eq (d : Reg) (h : Word) (x : Core) : (finishedCore d h x).run = .running ∧
    (finishedCore d h x).pc = x.pc + 4 ∧ (finishedCore d h x).g = (x.wg d h).g := by
  refine ⟨?_, congrArg (· + 4) (Core.pc_wg x d h), ?_⟩
  · rw [finishedCore, clearSkip_with_pc]
  · rw [finishedCore, clearSkip_with_pc]

/-- A core with the header of its MWCAS, whose run was `run`. -/
def resumedCore (op : Nat) (d : Reg) (h : Word) (run : Run) (x : Core) : Core :=
  { x.wg d h with run := if run = .mwcas op then .running else x.run }

/-- A core behind its MWCAS. -/
def behindCore (x : Core) : Core := { clearSkip x with pc := x.pc + 4 }

theorem mwFinish_eq (s s1 s2 : State) (h1 : s1 = { s with ms := finishedMs m.op c s.ms })
    (h2 : s2 = s1.updCore c (resumedCore m.op d h (s1.core c).run)) : mwFinish s m (.core c d) h =
    if (decide ((s1.core c).run = .mwcas m.op) && decide ((s2.core c).level = .u) && (s2.core c).dbgc.getLsbD 0) = true
    then takeTrap (s2.updCore c behindCore) c .s cSTEP false 0 ((s2.core c).pc + 4) else s2.updCore c behindCore := by
  subst h1
  subst h2
  rfl

/-- The end of a core's MWCAS while the core waits for it and does not single-step. -/
theorem mwFinish_core (hrun : (s.core c).run = .mwcas m.op) (hstep : ¬((s.core c).level = .u ∧ (s.core c).dbgc.getLsbD 0 = true)) :
    mwFinish s m (.core c d) h = ({ s with ms := finishedMs m.op c s.ms } : State).updCore c (finishedCore d h) := by
  have hc : ({ s with ms := finishedMs m.op c s.ms } : State).core c = s.core c := by cases c <;> rfl
  have hf : (fun x => behindCore (resumedCore m.op d h (.mwcas m.op) x)) = finishedCore d h := by
    funext x
    rw [resumedCore, if_pos rfl]
    rfl
  rw [mwFinish_eq s _ _ rfl rfl, if_neg, State.updCore_updCore, hc, hrun, hf]
  rw [Bool.and_eq_true, Bool.and_eq_true, State.core_updCore_self, hc]
  rintro ⟨⟨-, hl⟩, hb⟩
  exact hstep ⟨(Core.level_wg _ d h).symm.trans (of_decide_eq_true hl), (congrArg (BitVec.getLsbD · 0) (Core.dbgc_wg _ d h)).symm.trans hb⟩

/-- Two states whose core c stands at the same instruction with the same registers. -/
def SameSpot (c : CoreId) (s t : State) : Prop := (t.core c).pc = (s.core c).pc ∧ (t.core c).g = (s.core c).g

theorem mwFinish_ended {s0 : State} (h0 : SameSpot c s0 s) (hrun : (s.core c).run = .mwcas m.op)
    (hstep : ¬((s.core c).level = .u ∧ (s.core c).dbgc.getLsbD 0 = true)) :
    s0.MwcasEnded (mwFinish s m (.core c d) h) m.op c d h := by
  have hc : ({ s with ms := finishedMs m.op c s.ms } : State).core c = s.core c := by cases c <;> rfl
  obtain ⟨hr, hp, hg⟩ := finishedCore_eq d h (s.core c)
  have hrg : ∀ r, (finishedCore d h (s.core c)).rg r = ((s.core c).wg d h).rg r := fun r => by rw [Core.rg, Core.rg, hg]
  rw [mwFinish_core hrun hstep]
  refine ⟨?_, ?_, fun hd => ?_, fun r hr => ?_, ?_⟩
  · rw [State.core_updCore_self, hc, hr]
  · rw [State.core_updCore_self, hc, hp, h0.1]
  · rw [State.core_updCore_self, hc, hrg, Core.rg_wg_self _ hd]
  · rw [State.core_updCore_self, hc, hrg, Core.rg_wg_ne _ hr, Core.rg, Core.rg, h0.2]
  · rw [State.ms_updCore]
    exact finishedMs_mwcas m.op c s.ms

/-- A core's MWCAS whose commits are all out ends once its block is written. -/
theorem mwEnd_ended {s0 : State} (h0 : SameSpot c s0 s) (hres : m.result = some h) (hcom : m.commits = [])
    (hb : s.BlockWritten m (.core c d) h u) (hrun : (s.core c).run = .mwcas m.op)
    (hstep : ¬((s.core c).level = .u ∧ (s.core c).dbgc.getLsbD 0 = true)) :
    s0.MwcasEnded (mwEnd s m (.core c d)) m.op c d h := by
  have hk : u.core c = s.core c := by
    have hw := blkWrites_all ⟨some m.part, m.agent, .s, some m.op, false, m.stream, (mwAgents s m (.core c d)).drop 1, 0⟩ (mwWords m h) s
    rw [show blkWrites s _ _ = _ from hb] at hw
    exact SameButMs.core hw.1 c
  have he : mwEnd s m (.core c d) = mwFinish u m (.core c d) h := by
    rw [mwEnd, hres, hcom]
    dsimp only
    rw [show blkWrites s _ _ = _ from hb]
  rw [he]
  refine mwFinish_ended ⟨?_, ?_⟩ ?_ ?_
  · rw [hk, h0.1]
  · rw [hk, h0.2]
  · rw [hk, hrun]
  · rw [hk]
    exact hstep

/-- While commits are out nothing ends. -/
theorem mwEnd_of_commits {sl : Nat} {rest : List Nat} (hc : m.commits = sl :: rest) : mwEnd s m o = s := by
  rw [mwEnd, hc]
  cases m.result <;> rfl

/-! ### Grants -/

theorem op_of_findMw (hf : findMw s k = some (m, o)) : m.op = k := by
  rw [findMw] at hf
  have h := List.find?_some hf
  exact of_decide_eq_true h

/-- A grant that is not the last. -/
theorem grant_next {rest : List Nat} (hf : findMw s k = some (m, o)) (hw : m.want = l :: rest) (hr : rest ≠ [])
    (hl : lockable s.ms m = true) (ht : lockTurn s.ms m = true) : exec (.crucibleLockGrant k) s = .next { s with ms :=
      { lockLine m l s.fclock s.ms with mwcas := (lockLine m l s.fclock s.ms).mwcas.filter (·.1.op != k) ++
        [({ m with want := rest, held := m.held ++ [l] }, o)] } } := by
  have he : rest.isEmpty = false := by cases rest with
    | nil => exact absurd rfl hr
    | cons _ _ => rfl
  change execCrucibleLockGrant k s = _
  rw [execCrucibleLockGrant, hf]
  dsimp only
  rw [hw]
  dsimp only
  rw [he, hl, ht]
  rfl

/-- A last grant under a link that is down. -/
theorem grant_dead {va : Word} (hf : findMw s k = some (m, o)) (hw : m.want = [l]) (hd : mwDead s m (fun _ => true) = some va) :
    exec (.crucibleLockGrant k) s = .next s := by
  change execCrucibleLockGrant k s = _
  rw [execCrucibleLockGrant, hf]
  dsimp only
  rw [hw]
  dsimp only
  rw [hd]
  rfl

/-- The last grant. -/
theorem grant_last (hf : findMw s k = some (m, o)) (hw : m.want = [l]) (hd : mwDead s m (fun _ => true) = none)
    (hl : lockable s.ms m = true) (ht : lockTurn s.ms m = true) :
    exec (.crucibleLockGrant k) s = .next (mwEnd (s.compared m o l).2 (s.compared m o l).1 o) := by
  obtain rfl := op_of_findMw hf
  change execCrucibleLockGrant m.op s = _
  rw [execCrucibleLockGrant, hf]
  dsimp only
  rw [hw]
  dsimp only
  rw [hd, hl, ht]
  refine (if_neg (by decide)).trans ((if_pos rfl).trans ((if_pos rfl).trans ?_))
  rw [(compared_mwCompare _ _ _).n]
  rfl

/-! ### The state after the compare -/

/-- The memory system in which a last grant's compare runs, and its MWCAS. -/
def grantedMs (s : State) (m : Mwcas) (o : MwOwner) (l : Nat) : MemSys :=
  { lockLine m l s.fclock s.ms with mwcas := (lockLine m l s.fclock s.ms).mwcas.filter (·.1.op != m.op) ++
    [({ m with want := [], held := m.held ++ [l] }, o)] }

theorem compared_eq (s : State) (m : Mwcas) (o : MwOwner) (l : Nat) :
    (s.compared m o l).1 = (mwCompare s.fresh (grantedMs s m o l) { m with want := [], held := m.held ++ [l] }).1 ∧
    (s.compared m o l).2.ms.locks = (mwCompare s.fresh (grantedMs s m o l) { m with want := [], held := m.held ++ [l] }).2.locks ∧
    (s.compared m o l).2.ms.mem = (mwCompare s.fresh (grantedMs s m o l) { m with want := [], held := m.held ++ [l] }).2.mem ∧
    (s.compared m o l).2.ms.peerWrites = (mwCompare s.fresh (grantedMs s m o l) { m with want := [], held := m.held ++ [l] }).2.peerWrites ∧
    (s.compared m o l).2.ms.net = (mwCompare s.fresh (grantedMs s m o l) { m with want := [], held := m.held ++ [l] }).2.net ∧
    ∀ c, (s.compared m o l).2.core c = s.core c :=
  ⟨rfl, rfl, rfl, rfl, rfl, fun c => by cases c <;> rfl⟩

/-- What a last grant and its compare leave. -/
structure Granted (s : State) (m : Mwcas) (r : Mwcas × State) : Prop where
  op : r.1.op = m.op
  entries : r.1.entries = m.entries
  committed : r.1.committed = m.committed
  observed : r.1.observed.length = m.entries.length
  mem : r.2.ms.mem = s.ms.mem
  peerWrites : r.2.ms.peerWrites = s.ms.peerWrites
  down : SameDown s.ms.net r.2.ms.net
  core : ∀ c, r.2.core c = s.core c

theorem granted_compared (s : State) (m : Mwcas) (o : MwOwner) (l : Nat) : Granted s m (s.compared m o l) := by
  obtain ⟨h1, -, hm, hp, hn, hc⟩ := compared_eq s m o l
  obtain ⟨-, -, lm, lp, ln⟩ := lockLine_eq m l s.fclock s.ms
  have h := compared_mwCompare s.fresh (grantedMs s m o l) { m with want := [], held := m.held ++ [l] }
  refine ⟨?_, ?_, ?_, ?_, hm.trans (h.mem.trans lm), hp.trans (h.peerWrites.trans lp), ?_, hc⟩
  · rw [h1, h.op]
  · rw [h1, h.entries]
  · rw [h1, h.committed]
  · rw [h1, h.observed]
  · rw [hn, ← ln]
    exact h.down

/-! ### Commits -/

theorem commit_dead {va : Word} {sl : Nat} {rest : List Nat} (hf : findMw s k = some (m, o)) (hc : m.commits = sl :: rest)
    (hd : mwDead s m (fun e => sliceOf (lineOf e.2.1) == sl) = some va) : exec (.mwcasCommit k) s = .next s := by
  change execMwcasCommit k s = _
  rw [execMwcasCommit, hf]
  dsimp only
  rw [hc]
  dsimp only
  rw [hd]
  rfl

/-- A MWCAS after the commit of a slice. -/
def Mwcas.committedSlice (m : Mwcas) (sl : Nat) (rest : List Nat) : Mwcas :=
  { m with commits := rest, committed := m.committed + 1, held := m.held.filter (sliceOf · != sl) }

theorem commit_eq {sl : Nat} {rest : List Nat} (hf : findMw s k = some (m, o)) (hc : m.commits = sl :: rest)
    (hd : mwDead s m (fun e => sliceOf (lineOf e.2.1) == sl) = none) : exec (.mwcasCommit k) s = .next
      (mwEnd (setMw { s with ms := mwCommitSlice s.ms m sl } (m.committedSlice sl rest)) (m.committedSlice sl rest) o) := by
  change execMwcasCommit k s = _
  rw [execMwcasCommit, hf]
  dsimp only
  rw [hc]
  dsimp only
  rw [hd]
  rfl

/-- The locks of the slice are gone after its commit. -/
theorem unlocked_mwCommitSlice {ms : MemSys} {sl x : Nat} (hx : x ∈ m.held) (hs : sliceOf x = sl) :
    (x, m.op) ∉ (mwCommitSlice ms m sl).locks := by
  intro hm
  have hnot : (!(m.op == m.op && (m.held.filter (sliceOf · = sl)).contains x)) = true := (List.mem_filter.mp hm).2
  rw [beq_self_eq_true, List.contains_iff_mem.mpr (List.mem_filter.mpr ⟨hx, decide_eq_true hs⟩)] at hnot
  exact absurd hnot (by decide)

theorem setMw_core (s : State) (m : Mwcas) (c : CoreId) : (setMw s m).core c = s.core c := rfl

theorem committing_core (s : State) (ms : MemSys) (m : Mwcas) (c : CoreId) : (setMw { s with ms := ms } m).core c = s.core c := by
  cases c <;> rfl

/-- The last commit of a core's MWCAS ends it. -/
theorem commit_ended {s0 : State} {sl : Nat} (h0 : SameSpot c s0 s) (hf : findMw s k = some (m, .core c d)) (hc : m.commits = [sl])
    (hres : m.result = some h) (hd : mwDead s m (fun e => sliceOf (lineOf e.2.1) == sl) = none) (hrun : (s.core c).run = .mwcas k)
    (hstep : ¬((s.core c).level = .u ∧ (s.core c).dbgc.getLsbD 0 = true))
    (hb : (setMw { s with ms := mwCommitSlice s.ms m sl } (m.committedSlice sl [])).BlockWritten (m.committedSlice sl []) (.core c d) h u) :
    ∃ t, exec (.mwcasCommit k) s = .next t ∧ s0.MwcasEnded t k c d h := by
  obtain rfl := op_of_findMw hf
  have hcore := committing_core s (mwCommitSlice s.ms m sl) (m.committedSlice sl []) c
  refine ⟨_, commit_eq hf hc hd, mwEnd_ended (m := m.committedSlice sl []) ⟨?_, ?_⟩ hres rfl hb ?_ ?_⟩
  · rw [hcore, h0.1]
  · rw [hcore, h0.2]
  · rw [hcore, hrun]
    rfl
  · rw [hcore]
    exact hstep

/-- The last grant of a core's MWCAS ends it when there is nothing to commit. -/
theorem grant_ended {s0 : State} (h0 : SameSpot c s0 s) (hf : findMw s k = some (m, .core c d)) (hw : m.want = [l])
    (hd : mwDead s m (fun _ => true) = none) (hl : lockable s.ms m = true) (ht : lockTurn s.ms m = true) (hrun : (s.core c).run = .mwcas k)
    (hstep : ¬((s.core c).level = .u ∧ (s.core c).dbgc.getLsbD 0 = true)) (hres : (s.compared m (.core c d) l).1.result = some h)
    (hc : (s.compared m (.core c d) l).1.commits = [])
    (hb : (s.compared m (.core c d) l).2.BlockWritten (s.compared m (.core c d) l).1 (.core c d) h u) :
    ∃ t, exec (.crucibleLockGrant k) s = .next t ∧ s0.MwcasEnded t k c d h := by
  obtain rfl := op_of_findMw hf
  have hg := granted_compared s m (.core c d) l
  refine ⟨_, grant_last hf hw hd hl ht, ?_⟩
  rw [← hg.op]
  refine mwEnd_ended ⟨?_, ?_⟩ hres hc hb ?_ ?_
  · rw [hg.core, h0.1]
  · rw [hg.core, h0.2]
  · rw [hg.core, hrun, hg.op]
  · rw [hg.core]
    exact hstep

/-! ### The instruction -/

/-- The state in which a core's MWCAS has begun. -/
def State.mwBegun (s s1 : State) (m : Mwcas) (d : Reg) : State :=
  mwBegin (s1.releaseMe.updMe fun c => { c with run := .mwcas m.op }) m (.core s.cur d)

theorem exec_mwcas (hs : s.Ready [d, a]) (hp : s.me.part = some p)
    (hm : mwcasCheck s.acquireMe (coreCtx s) p (fun va w => watchHit s.me va 8 w) (s.rg a) s.nextOp = .ok m s1)
    (hf : syncHeld s1 (.coreD s.cur) = false) : exec (.mwcas d a) s = .next (s.mwBegun s1 m d) := by
  change execMwcas d a s = _
  rw [execMwcas, needRegs_eq _ hs.1]
  dsimp only
  rw [hp, Option.getD_some, onAccess_ok s hm, hf]
  rfl

/-- What the beginning of a MWCAS leaves. -/
structure MwBegun (s s1 : State) (m : Mwcas) (d : Reg) (t : State) : Prop where
  me : t.core s.cur = { s.core s.cur with run := .mwcas m.op }
  cur : t.cur = s.cur
  mwcas : t.ms.mwcas = s1.ms.mwcas ++ [(m, .core s.cur d)]
  locks : t.ms.locks = s1.ms.locks
  recalls : t.ms.recalls = s1.ms.recalls
  mem : t.ms.mem = s1.releaseMe.ms.mem
  nextOp : t.nextOp = s.nextOp + 1

theorem mwBegin_core (s : State) (m : Mwcas) (o : MwOwner) (c : CoreId) : (mwBegin s m o).core c = s.core c := by
  cases c <;> rfl

theorem mwBegun_of_keeps (hk : Keeps s s1) : MwBegun s s1 m d (s.mwBegun s1 m d) := by
  have hrel := hk.trans (keeps_releaseMe s1)
  have hc := SameCrucible.releaseS (.coreD s1.cur) s1.ms
  refine ⟨?_, ?_, ?_, ?_, ?_, ?_, ?_⟩
  · rw [State.mwBegun, mwBegin_core, State.updMe, hrel.1.cur, State.core_updCore_self, hrel.1.core]
  · exact (State.cur_updMe _ _).trans hrel.1.cur
  · exact (congrArg (· ++ [(m, MwOwner.core s.cur d)]) ((congrArg MemSys.mwcas (State.ms_updMe _ _)).trans hc.mwcas))
  · exact (congrArg MemSys.locks (State.ms_updMe _ _)).trans hc.locks
  · exact (congrArg MemSys.recalls (State.ms_updMe _ _)).trans hc.recalls
  · have h := congrArg MemSys.mem (State.ms_updMe s1.releaseMe fun c => { c with run := .mwcas m.op })
    exact h
  · have hn : s1.releaseMe.nextOp = s.nextOp := by rw [hrel.1]
    exact (congrArg (· + 1) ((State.nextOp_updCore _ _ _).trans hn))

/-- A MWCAS that stands alone at the Crucible may be granted its line. -/
theorem grantable_alone {ms : MemSys} (hm : ms.mwcas = [(m, o)]) (hl : ms.locks = []) (hr : ms.recalls = []) (hw : m.want = [l]) :
    lockable ms m = true ∧ lockTurn ms m = true := by
  constructor
  · rw [lockable, hw]
    dsimp only
    rw [hl, hr, lockRoom, sliceLocks, hl]
    rfl
  · rw [lockTurn, hm, List.takeWhile_cons_of_neg]
    · rfl
    · rw [bne_self_eq_false]
      exact Bool.false_ne_true

theorem findMw_alone (hm : s.ms.mwcas = [(m, o)]) : findMw s m.op = some (m, o) := by
  rw [findMw, hm, List.find?_cons_of_pos]
  exact decide_eq_true rfl

theorem setMw_alone {x : Mwcas} (hm : s.ms.mwcas = [(x, o)]) (hx : x.op = m.op) : (setMw s m).ms.mwcas = [(m, o)] := by
  rw [setMw, State.ms_updMs_eq, hm]
  exact congrArg (· :: []) (if_pos hx)

/-- The MWCAS that stands alone at the Crucible stands alone there after its compare. -/
theorem compared_alone (hm : s.ms.mwcas = [(m, o)]) (l : Nat) : (s.compared m o l).2.ms.mwcas = [((s.compared m o l).1, o)] := by
  have hg : (grantedMs s m o l).mwcas = [({ m with want := [], held := m.held ++ [l] }, o)] := by
    obtain ⟨-, hl, -⟩ := lockLine_eq m l s.fclock s.ms
    rw [grantedMs, hl, hm, List.filter_cons_of_neg]
    · rfl
    · rw [bne_self_eq_false]
      exact Bool.false_ne_true
  exact setMw_alone ((compared_mwCompare s.fresh (grantedMs s m o l) _).mwcas.trans hg) (granted_compared s m o l).op.symm

/-- A compare that leaves something to commit keeps every lock. -/
theorem held_of_commits {ms : MemSys} (hc : (mwCompare k ms m).1.commits ≠ m.commits) : (mwCompare k ms m).1.held = m.held := by
  by_cases h0 : diffMask (differ m (observes k (askedFor m ms) m)) = 0
  · rw [mwCompare_equal h0]
  · rw [mwCompare_differs h0] at hc
    exact absurd rfl hc

/-! ### The obligation, clause by clause -/

theorem mwcas_begins (hs : s.Ready [d, a]) (hp : s.me.part = some p)
    (hm : mwcasCheck s.acquireMe (coreCtx s) p (fun va w => watchHit s.me va 8 w) (s.rg a) s.nextOp = .ok m s1)
    (hf : syncHeld s1 (.coreD s.cur) = false) : ∃ t, exec (.mwcas d a) s = .next t ∧ t.me.run = .mwcas m.op ∧ t.me.pc = s.me.pc ∧
      t.me.g = s.me.g ∧ (m, MwOwner.core s.cur d) ∈ t.ms.mwcas ∧ t.ms.locks = s1.ms.locks ∧ t.ms.mem = s1.releaseMe.ms.mem ∧
      t.nextOp = s.nextOp + 1 ∧ m.want ≠ [] ∧ m.held = [] := by
  have hn := newMwcas_of_check hm
  have hb : MwBegun s s1 m d _ := mwBegun_of_keeps ((keeps_acquireMe s).trans hn.keeps)
  have hme : (s.mwBegun s1 m d).me = { s.me with run := .mwcas m.op } := by
    rw [State.me, hb.cur]
    exact hb.me
  refine ⟨_, exec_mwcas hs hp hm hf, ?_, ?_, ?_, ?_, hb.locks, hb.mem, hb.nextOp, hn.want, hn.held⟩
  · rw [hme]
  · rw [hme]
  · rw [hme]
  · rw [hb.mwcas]
    exact List.mem_append_right _ List.mem_cons_self

theorem grant_locks {rest : List Nat} (hf : findMw s k = some (m, o)) (hw : m.want = l :: rest) (hr : rest ≠ [])
    (hl : lockable s.ms m = true) (ht : lockTurn s.ms m = true) : ∃ t, exec (.crucibleLockGrant k) s = .next t ∧
      (l, m.op) ∈ t.ms.locks ∧ t.ms.mem = s.ms.mem ∧ ({ m with want := rest, held := m.held ++ [l] }, o) ∈ t.ms.mwcas := by
  obtain ⟨hlo, -, hme, -⟩ := lockLine_eq m l s.fclock s.ms
  refine ⟨_, grant_next hf hw hr hl ht, ?_, hme, List.mem_append_right _ List.mem_cons_self⟩
  rw [show _ = (lockLine m l s.fclock s.ms).locks from rfl, hlo]
  exact List.mem_cons_self

theorem compared_fails (hd : ∃ e ∈ m.entries.zip (s.compared m o l).1.observed, e.1.2.2.2.1 ≠ e.2) :
    (s.compared m o l).1.commits = m.commits ∧ (s.compared m o l).1.held = [] ∧ (m.entries.length ≤ 16 → m.n ≤ 16 → ∀ h,
      (s.compared m o l).1.result = some h → h.getLsbD 63 = false) ∧ ∀ x ∈ l :: m.held, (x, m.op) ∉ (s.compared m o l).2.ms.locks := by
  obtain ⟨h1, h2, -⟩ := compared_eq s m o l
  rw [h1] at hd ⊢
  rw [h2]
  have hf := mwCompare_fails (m := { m with want := [], held := m.held ++ [l] }) hd
  refine ⟨hf.commits, hf.held, hf.header, fun x hx => hf.unlocked x ?_⟩
  rcases List.mem_cons.mp hx with he | hh
  · exact List.mem_append_right _ (List.mem_singleton.mpr he)
  · exact List.mem_append_left _ hh

theorem commit_writes {sl sl2 : Nat} {rest : List Nat} (hf : findMw s k = some (m, o)) (hc : m.commits = sl :: sl2 :: rest)
    (hd : mwDead s m (fun e => sliceOf (lineOf e.2.1) == sl) = none) : exec (.mwcasCommit k) s = .next
      (setMw { s with ms := mwCommitSlice s.ms m sl } (m.committedSlice sl (sl2 :: rest))) := by
  rw [commit_eq hf hc hd, mwEnd_of_commits (m := m.committedSlice sl (sl2 :: rest)) rfl]

/-- A core's MWCAS that stands alone at the Crucible, before the grant of its one line. -/
structure Alone (s t : State) (m : Mwcas) (c : CoreId) (d : Reg) (l : Nat) : Prop where
  spot : SameSpot c s t
  run : (t.core c).run = .mwcas m.op
  free : ¬((t.core c).level = .u ∧ (t.core c).dbgc.getLsbD 0 = true)
  mwcas : t.ms.mwcas = [(m, .core c d)]
  locks : t.ms.locks = []
  recalls : t.ms.recalls = []
  want : m.want = [l]
  held : m.held = []
  commits : m.commits = []
  committed : m.committed = 0
  dead : mwDead t m (fun _ => true) = none

section Alone
variable {t : State} (ha : Alone s t m c d l)
include ha

theorem alone_fails (hres : (t.compared m (.core c d) l).1.result = some h) (hbit : h.getLsbD 63 = false)
    (hb : (t.compared m (.core c d) l).2.BlockWritten (t.compared m (.core c d) l).1 (.core c d) h u) :
    ∃ t', exec (.crucibleLockGrant m.op) t = .next t' ∧ s.MwcasEnded t' m.op c d h := by
  obtain ⟨hl, ht⟩ := grantable_alone ha.mwcas ha.locks ha.recalls ha.want
  have hc : (t.compared m (.core c d) l).1.commits = m.commits := commits_of_failure hres hbit
  exact grant_ended ha.spot (findMw_alone ha.mwcas) ha.want ha.dead hl ht ha.run ha.free hres (hc.trans ha.commits) hb

theorem alone_granted {sl : Nat} (hc : (t.compared m (.core c d) l).1.commits = [sl]) :
    exec (.crucibleLockGrant m.op) t = .next (t.compared m (.core c d) l).2 := by
  obtain ⟨hl, ht⟩ := grantable_alone ha.mwcas ha.locks ha.recalls ha.want
  rw [grant_last (findMw_alone ha.mwcas) ha.want ha.dead hl ht, mwEnd_of_commits hc]

/-- The MWCAS after its one commit. -/
theorem alone_committedSlice (hc : (t.compared m (.core c d) l).1.commits = [sliceOf l]) :
    (t.compared m (.core c d) l).1.committedSlice (sliceOf l) [] =
      { (t.compared m (.core c d) l).1 with commits := [], committed := 1, held := [] } := by
  have hh : (t.compared m (.core c d) l).1.held = [l] := by
    refine (held_of_commits (m := { m with want := [], held := m.held ++ [l] }) ?_).trans ?_
    · intro he
      rw [show (mwCompare _ _ _).1.commits = _ from hc, ha.commits] at he
      exact absurd he (by simp)
    · exact congrArg (· ++ [l]) ha.held
  rw [Mwcas.committedSlice, hh, (granted_compared t m (.core c d) l).committed, ha.committed, List.filter_cons_of_neg]
  · rfl
  · rw [bne_self_eq_false]
    exact Bool.false_ne_true

theorem alone_commits {r : Mwcas × State} {m2 : Mwcas} (hr : r = t.compared m (.core c d) l) (hc : r.1.commits = [sliceOf l])
    (hm2 : m2 = { r.1 with commits := [], committed := 1, held := [] }) (hres : r.1.result = some h)
    (hb : (setMw { r.2 with ms := mwCommitSlice r.2.ms r.1 (sliceOf l) } m2).BlockWritten m2 (.core c d) h u) :
    ∃ t', exec (.mwcasCommit m.op) r.2 = .next t' ∧ s.MwcasEnded t' m.op c d h := by
  subst hr
  have hg := granted_compared t m (.core c d) l
  rw [hm2, ← alone_committedSlice ha hc] at hb
  have hf := findMw_alone (compared_alone ha.mwcas l)
  rw [hg.op] at hf
  refine commit_ended ⟨?_, ?_⟩ hf hc hres (mwDead_none ha.dead hg.down hg.entries _) ?_ ?_ hb
  · rw [hg.core, ha.spot.1]
  · rw [hg.core, ha.spot.2]
  · rw [hg.core, ha.run]
  · rw [hg.core]
    exact ha.free

end Alone

theorem alone_mwBegun (hs : s.Ready [d, a])
    (hm : mwcasCheck s.acquireMe (coreCtx s) p (fun va w => watchHit s.me va 8 w) (s.rg a) s.nextOp = .ok m s1)
    (hmw : s1.ms.mwcas = []) (hlo : s1.ms.locks = []) (hre : s1.ms.recalls = []) (hw : m.want = [l])
    (hd : mwDead (s.mwBegun s1 m d) m (fun _ => true) = none) : Alone s (s.mwBegun s1 m d) m s.cur d l := by
  have hn := newMwcas_of_check hm
  have hb : MwBegun s s1 m d _ := mwBegun_of_keeps ((keeps_acquireMe s).trans hn.keeps)
  refine ⟨⟨?_, ?_⟩, ?_, ?_, ?_, hb.locks.trans hlo, hb.recalls.trans hre, hw, hn.held, hn.commits, hn.committed, hd⟩
  · rw [hb.me]
  · rw [hb.me]
  · rw [hb.me]
  · rw [hb.me]
    exact hs.2
  · rw [hb.mwcas, hmw]
    rfl

/-- Settles O13: the rules of a MWCAS's beginning, of a grant, of the compare at the last one, of a commit, and of the end. -/
theorem mwcasLocksComparesAndCommits : Obligations.MwcasLocksComparesAndCommits := by
  unfold Obligations.MwcasLocksComparesAndCommits
  refine ⟨fun s s1 m p d a hs hp hm hf => mwcas_begins hs hp hm hf,
    ⟨fun s k m o l rest hf hw hr hl ht => grant_locks hf hw hr hl ht, fun s k m o l hf hw => ⟨fun va hd => grant_dead hf hw hd, ?_⟩,
      fun s k m o sl sl2 rest hf _ hc => ⟨fun va hd => commit_dead hf hc hd, fun hd =>
        ⟨_, commit_writes hf hc hd, rfl, rfl, fun x hx he => unlocked_mwCommitSlice hx he⟩⟩⟩, ?_, ?_, ?_⟩
  case refine_1 =>
    intro hd hl ht
    have hg := granted_compared s m o l
    exact ⟨grant_last hf hw hd hl ht, hg.mem, hg.peerWrites, hg.observed, compared_fails⟩
  case refine_2 =>
    intro s s1 m p d a l hs hp hm hf hmw hlo hre hw o t1 r hd
    have ha : Alone s t1 m s.cur d l := alone_mwBegun hs hm hmw hlo hre hw hd
    exact ⟨exec_mwcas hs hp hm hf, fun h u hres hbit hb => alone_fails ha hres hbit hb,
      fun hc => ⟨alone_granted ha hc, fun h u hres hb => alone_commits ha rfl hc rfl hres hb⟩⟩
  case refine_3 =>
    intro s u k m c d l h hf _ hw hd hl ht hrun hstep r hres hc hb
    exact grant_ended ⟨rfl, rfl⟩ hf hw hd hl ht hrun hstep hres hc hb
  case refine_4 =>
    intro s u k m c d sl h hf _ hc hres hd hrun hstep m2 hb
    exact commit_ended ⟨rfl, rfl⟩ hf hc hres hd hrun hstep hb

end Sys2Proof.Machine
end

section
/-!
PROOFS. What a firing leaves alone: everything outside its region and its partition (R34, R202).
-/

namespace Sys2Proof.Machine

open Sys2Proof

variable {s t u : State} {r : RegionId}

/-! ### What region r may change -/

/-- From s to t at most region r, its partition, the memory system's tables and the supplies of numbers change; the region stays
its partition's, with its configuration, and memory stays as it is. -/
structure Own (r : RegionId) (s t : State) : Prop where
  sq : t.sq = s.sq
  sy : t.sy = s.sy
  dies : t.dies = s.dies
  ops : t.ops = s.ops
  ports : t.ports = s.ports
  mem : t.ms.mem = s.ms.mem
  region : ∀ q, q ≠ r → t.region q = s.region q
  part : ∀ p, p ≠ (s.ctl r).part → t.part p = s.part p
  home : (t.ctl r).part = (s.ctl r).part
  cfg : (t.ctl r).cfg = (s.ctl r).cfg
  queue : (t.part (s.ctl r).part).pfqbase = (s.part (s.ctl r).part).pfqbase

namespace Own

theorem refl (r : RegionId) (s : State) : Own r s s :=
  ⟨rfl, rfl, rfl, rfl, rfl, rfl, fun _ _ => rfl, fun _ _ => rfl, rfl, rfl, rfl⟩

theorem trans (h : Own r s t) (k : Own r t u) : Own r s u where
  sq := k.sq.trans h.sq
  sy := k.sy.trans h.sy
  dies := k.dies.trans h.dies
  ops := k.ops.trans h.ops
  ports := k.ports.trans h.ports
  mem := k.mem.trans h.mem
  region q hq := (k.region q hq).trans (h.region q hq)
  part p hp := (k.part p (by rw [h.home]; exact hp)).trans (h.part p hp)
  home := k.home.trans h.home
  cfg := k.cfg.trans h.cfg
  queue := by
    have hk := k.queue
    rw [h.home] at hk
    exact hk.trans h.queue

theorem updRegion (h : Own r s t) {f : Region → Region} (hp : (f (t.region r)).ctl.part = (t.ctl r).part)
    (hc : (f (t.region r)).ctl.cfg = (t.ctl r).cfg) : Own r s (t.updRegion r f) :=
  h.trans ⟨rfl, rfl, rfl, rfl, rfl, rfl, fun _ hq => State.region_updRegion_ne t hq f, fun _ _ => rfl,
    by rw [State.ctl_updRegion_self, hp], by rw [State.ctl_updRegion_self, hc], rfl⟩

theorem updFab (h : Own r s t) (f : Fabric → Fabric) : Own r s (t.updFab r f) := h.updRegion rfl rfl
theorem updDbg (h : Own r s t) (f : RegionDbg → RegionDbg) : Own r s (t.updDbg r f) := h.updRegion rfl rfl

theorem updCtl (h : Own r s t) {f : RegionCtl → RegionCtl} (hp : (f (t.ctl r)).part = (t.ctl r).part)
    (hc : (f (t.ctl r)).cfg = (t.ctl r).cfg) : Own r s (t.updCtl r f) := h.updRegion hp hc

theorem updPart (h : Own r s t) {p : PartId} (hp : p = (t.ctl r).part) {f : Partition → Partition}
    (hf : (f (t.part p)).pfqbase = (t.part p).pfqbase) : Own r s (t.updPart p f) := by
  subst hp
  exact h.trans ⟨rfl, rfl, rfl, rfl, rfl, rfl, fun _ _ => rfl, fun _ hq => State.part_updPart_ne t hq f, rfl, rfl,
    by rw [State.part_updPart_self, hf]⟩

/-- A change of the memory system that leaves memory as it is. -/
theorem updMs (h : Own r s t) {f : MemSys → MemSys} (hf : (f t.ms).mem = t.ms.mem) : Own r s (t.updMs f) :=
  h.trans ⟨rfl, rfl, rfl, rfl, rfl, hf, fun _ _ => rfl, fun _ _ => rfl, rfl, rfl, rfl⟩

end Own

/-- Region r keeps no merge-order log and its partition's fault queue is off. -/
structure Quiet (r : RegionId) (s : State) : Prop where
  unlogged : (s.ctl r).cfg.all (fun g => !g.flags.getLsbD 2) = true
  off : (s.part (s.ctl r).part).pfqbase.getLsbD 0 = false

theorem Own.quiet (h : Own r s t) (k : Quiet r s) : Quiet r t := by
  refine ⟨?_, ?_⟩
  · rw [h.cfg]
    exact k.unlogged
  · rw [h.home, h.queue]
    exact k.off

/-! ### Traces and faults -/

theorem own_trace (s : State) (r : RegionId) (ctx : BitVec 12) (iter : BitVec 16) (row : BitVec 5) (col slot : BitVec 6)
    (event aux : BitVec 8) (tok : Option Token) : Own r s (trace s r ctx iter row col slot event aux tok) := by
  rw [trace]
  split
  · exact (Own.refl r s).updPart rfl rfl
  · exact Own.refl r s

section Queue
variable (k : Quiet r s)
include k

theorem Quiet.pfqLog : pfqLog (s.part (s.ctl r).part) = none := by
  rw [Machine.pfqLog, k.off]
  rfl

theorem Quiet.pfqRoom : pfqRoom (s.part (s.ctl r).part) = false := by
  rw [Machine.pfqRoom, k.pfqLog]

theorem pfqRewrite_quiet (id : Nat) (w : Word) : pfqRewrite s (s.ctl r).part id w = (.done, s) := by
  rw [pfqRewrite, k.pfqLog]
  cases (s.part (s.ctl r).part).faults.find? (·.id = id) <;> rfl

theorem pfqWrite_quiet (id : Nat) (ws : List Word) : (pfqWrite s (s.ctl r).part id ws).2 = s := by
  rw [pfqWrite, pfqRewrite_quiet k, k.pfqRoom]
  dsimp only
  split <;> rfl

end Queue

theorem own_pfqFlush {p : PartId} (hp : p = (s.ctl r).part) (k : Quiet r s) (l : List (Nat × List Word)) : Own r s (pfqFlush p s l) := by
  induction l generalizing s with
  | nil => exact Own.refl r s
  | cons x l ih =>
    obtain ⟨id, ws⟩ := x
    have hw := pfqWrite_quiet k id ws
    rw [← hp] at hw
    rw [pfqFlush]
    split
    · next u hu =>
      rw [hu] at hw
      obtain rfl : u = s := hw
      have h := (Own.refl r u).updPart hp (f := fun q => { q with deferred := l }) rfl
      exact h.trans (ih hp (h.quiet k))
    · next u _ hu =>
      rw [hu] at hw
      obtain rfl : u = s := hw
      exact Own.refl r u

theorem own_recordFault {p : PartId} (hp : p = (s.ctl r).part) (k : Quiet r s) (q : RegionId) (cause : BitVec 8) (tag : Word)
    (resumable parked keep : Bool) (rest : List Word) : Own r s (recordFault s p q cause tag resumable parked keep rest).2 := by
  unfold recordFault
  dsimp only
  generalize hf : pfqFlush p _ _ = u
  have hu : Own r s u := by
    have h0 : Own r s ({ s with nextFault := s.nextFault + 1 } : State) :=
      ⟨rfl, rfl, rfl, rfl, rfl, rfl, fun _ _ => rfl, fun _ _ => rfl, rfl, rfl, rfl⟩
    generalize hw : State.updPart _ p _ = w at hf
    have h1 : Own r s w := by
      rw [← hw]
      exact h0.updPart (hp.trans h0.home.symm) rfl
    rw [← hf]
    exact h1.trans (own_pfqFlush (hp.trans h1.home.symm) (h1.quiet k) _)
  have hpu := hp.trans hu.home.symm
  generalize hx : (if (u.part p).deferred.isEmpty = true then _ else _) = x
  have hc : x.2 = u := by
    rw [← hx]
    split
    · rw [hpu]
      exact pfqWrite_quiet (hu.quiet k) _ _
    · rfl
  rw [hc]
  split
  · exact hu
  · split
    · dsimp only
      exact hu.updPart hpu rfl
    · dsimp only
      exact hu.updPart hpu rfl

theorem own_noteFault {n : Site} (k : Quiet n.r s) (cause : BitVec 8) (i : FaultInfo) : Own n.r s (noteFault s n cause i) :=
  own_recordFault rfl k _ _ _ _ _ _ _

theorem own_mergeInto {p : PartId} (hp : p = (s.ctl r).part) (k : Quiet r s) (page : Nat) : Own r s (mergeInto s p page) := by
  unfold mergeInto
  split
  · exact Own.refl r s
  · next m _ =>
    dsimp only
    generalize hg : s.updMs _ = u
    have hu : Own r s u := by
      rw [← hg]
      exact (Own.refl r s).updMs rfl
    have hpu := hp.trans hu.home.symm
    split
    · exact hu
    · next f _ =>
      split
      · next sq _ =>
        rw [hpu, pfqRewrite_quiet (hu.quiet k)]
        exact hu
      · exact hu.updPart hpu rfl

theorem own_freeze (k : Quiet r s) (cause : BitVec 8) (va : Word) : Own r s (freeze s r cause va) := by
  have h := ((Own.refl r s).updCtl (f := fun c => { c with st := .frozen, fault := cause }) rfl rfl).trans
    (own_trace _ r 0 0 0 0 0 7 cause none)
  exact h.trans (own_recordFault rfl (h.quiet k) _ _ _ _ _ _ _)

/-! ### Parking -/

theorem own_park {n : Site} (k : Quiet n.r s) (cause : BitVec 8) (i : FaultInfo) (toks : List WaitTok)
    (h : park s n cause i toks = .parked t) : Own n.r s t := by
  unfold park at h
  dsimp only at h
  split at h
  · exact absurd h (by simp)
  · split at h
    · exact absurd h (by simp)
    · split at h
      · exact absurd h (by simp)
      · injection h with h
        subst h
        generalize hx : (if (isXlate cause && _) = true then (_ : Nat × State) else _) = x
        have hx1 : Own n.r s x.2 := by
          rw [← hx]
          split
          · exact own_mergeInto rfl k _
          · exact own_recordFault rfl k _ _ _ _ _ _ _
        have hx2 (y : MergeEntry) (b : Bool) : Own n.r s
            (if b = true then x.2.updMs fun ms => { ms with merger := ms.merger ++ [y] } else x.2) := by
          split
          · exact hx1.updMs rfl
          · exact hx1
        exact ((hx2 _ _).updFab _).trans (own_trace _ _ _ _ _ _ _ _ _ _)

/-! ### What every firing leaves behind -/

theorem not_logging (k : Quiet r s) : logging s r = false := by
  have hu := k.unlogged
  rw [logging]
  cases hc : (s.ctl r).cfg with
  | none => rfl
  | some g =>
    rw [hc] at hu
    have hg : g.flags.getLsbD 2 = false := (Bool.not_eq_true' _).mp hu
    dsimp only
    rw [hg]
    rfl

theorem mergeLog_quiet {n : Site} (k : Quiet n.r s) : mergeLog s n = s := by
  rw [mergeLog]
  dsimp only
  rw [not_logging k]
  rfl

theorem own_noteChoice {n : Site} (k : Quiet n.r s) (c : Choice) : Own n.r s (noteChoice s n c) := by
  rw [noteChoice, not_logging k]
  split
  · exact (Own.refl _ _).updDbg _
  · exact Own.refl _ _

theorem own_notePorts {x : Firing} (k : Quiet x.n.r s) (eat : List (BitVec 2)) : Own x.n.r s (notePorts s x eat) := by
  rw [notePorts]
  split
  · exact own_noteChoice k _
  · exact Own.refl _ _

theorem own_mgAdd (s : State) (r : RegionId) (row : BitVec 5) (col slot : BitVec 6) (c : BitVec 5) : Own r s (mgAdd s r row col slot c) :=
  (Own.refl r s).updDbg _

theorem own_sigCount (s : State) (n : Site) (o : Option Token) : Own n.r s (sigCount s n o) := by
  cases o with
  | none => exact Own.refl _ _
  | some t =>
    rw [sigCount]
    split
    · exact own_mgAdd _ _ _ _ _ _
    · exact Own.refl _ _

theorem own_waitCount (s : State) (x : Firing) (eat : List (BitVec 2)) : Own x.n.r s (waitCount s x eat) := by
  rw [waitCount]
  split
  · exact Own.refl _ _
  · split
    · exact own_mgAdd _ _ _ _ _ _
    · exact Own.refl _ _

theorem own_eatPorts (s : State) (n : Site) (ports : List (BitVec 2)) : Own n.r s (eatPorts s n ports) := (Own.refl _ _).updFab _

theorem own_noteFired (s : State) (n : Site) : Own n.r s (noteFired s n) := (Own.refl _ _).updFab _

theorem own_updNode (s : State) (n : Site) (f : NodeSt → NodeSt) : Own n.r s (s.updNode n f) := (Own.refl _ _).updFab _

theorem own_noteCoh (s : State) (r : RegionId) (c : BitVec 6) (b : Bool) : Own r s (noteCoh s r c b) := (Own.refl r s).updFab _

theorem own_sweepBarriers (s : State) (r : RegionId) (c : BitVec 6) : Own r s (sweepBarriers s r c) := by
  rw [sweepBarriers]
  exact (Own.refl r s).updFab _

theorem own_touch (s : State) (r : RegionId) : Own r s (touch s r) := (Own.refl r s).updCtl rfl rfl

theorem own_pushEntry (s : State) (n : Site) (deps : List Dep) (after : Word) (input : Option (BitVec 12 × BitVec 16)) :
    Own n.r s (pushEntry s n deps after input) := by
  rw [pushEntry]
  split
  · exact Own.refl _ _
  · exact (Own.refl _ _).updFab _

theorem own_sampleFire (s : State) (n : Site) (o : Option Token) : Own n.r s (sampleFire s n o) := by
  rw [sampleFire]
  split
  · exact Own.refl _ _
  · split
    · exact (Own.refl _ _).updDbg _
    · exact ((Own.refl _ _).updDbg _).trans (own_trace _ _ _ _ _ _ _ _ _ _)

theorem own_replayUse (s : State) (n : Site) : Own n.r s (replayUse s n) := by
  rw [replayUse]
  cases (s.dbg n.r).replay with
  | none => exact Own.refl _ _
  | some l =>
    dsimp only
    split
    · exact Own.refl _ _
    · exact (Own.refl _ _).updDbg _

theorem own_firedAt {n : Site} (k : Quiet n.r s) (trc : Bool) (o : Option Token) : Own n.r s (firedAt s n trc o) := by
  have h0 := (own_touch s n.r).trans (own_noteFired _ n)
  rw [firedAt]
  generalize hv : (if trc = true then _ else _) = v
  have hu : Own n.r s v := by
    rw [← hv]
    split
    · exact h0.trans (own_trace _ _ _ _ _ _ _ _ _ _)
    · exact h0
  have hs := hu.trans (own_sampleFire v n o)
  rw [mergeLog_quiet (hs.quiet k)]
  exact hs.trans (own_replayUse _ _)

/-! ### The end of a firing -/

theorem own_holdFiring (s : State) (x : Firing) (i : FaultInfo) : Own x.n.r s (holdFiring s x i) :=
  ((own_eatPorts s x.n (parkPorts x i)).trans (own_noteFired _ _)).updFab fun f => { f with
    accs := f.accs ++ [⟨f.nextId, x.n, x.opc, x.nf, (parkPorts x i).filterMap (headOf (s.fab x.n.r) x.n), x.all, i.mtport, 0, 0,
      i.cut.map fun p => ⟨p.1, 0, false, 0, p.2.1, p.2.2, false⟩, 0, none, none, none, true⟩], nextId := f.nextId + 1 }

theorem own_parkFiring {x : Firing} (k : Quiet x.n.r s) (cause : BitVec 8) (i : FaultInfo) (o : Option Token) :
    Own x.n.r s (parkFiring s x cause i o) := by
  have hkept : Own x.n.r s (if i.cut.isEmpty = true then s else holdFiring s x i) := by
    split
    · exact Own.refl _ _
    · exact own_holdFiring s x i
  have heat := own_eatPorts s x.n (parkPorts x i)
  rw [parkFiring]
  split
  · next u hp =>
    have hu := heat.trans (own_park (heat.quiet k) _ _ _ hp)
    generalize hw : (if cause = cCTX_DRY then noteChoice u x.n .dry else u) = w
    have hw1 : Own x.n.r s w := by
      rw [← hw]
      split
      · exact hu.trans (own_noteChoice (hu.quiet k) _)
      · exact hu
    have hf := hw1.trans (own_noteFired w x.n)
    exact (hf.trans (own_notePorts (hf.quiet k) _)).trans (own_sigCount _ _ _)
  · exact hkept
  · exact hkept.trans (own_freeze (hkept.quiet k) _ _)
  · exact own_holdFiring s x i

theorem own_finishFire {x : Firing} (k : Quiet x.n.r s) (eat : List (BitVec 2)) (dss : List (List Dep)) (o : Option Token) (after : Word) :
    Own x.n.r s (finishFire s x eat dss o after) := by
  rw [finishFire]
  generalize hv : (if (keepsInput x.opc dss.length && eat.contains 0 && !dss.all (·.isEmpty)) = true then s else eatPorts s x.n eat) = v
  have h0 : Own x.n.r s v := by
    rw [← hv]
    split
    · exact Own.refl _ _
    · exact own_eatPorts s x.n eat
  generalize hw : State.updNode (pushEntry v x.n _ after _) x.n _ = w
  have h1 : Own x.n.r s w := by
    rw [← hw]
    exact (h0.trans (own_pushEntry v x.n _ _ _)).trans (own_updNode _ x.n _)
  have h2 := ((h1.trans (own_notePorts (h1.quiet k) eat)).trans (own_waitCount _ x eat)).trans (own_sigCount _ x.n o)
  exact h2.trans (own_firedAt (h2.quiet k) _ _)

/-- The state in which a node's rule leaves the firing to its end. -/
def NodeRes.state (s : State) : NodeRes → State
  | .wait | .park _ _ _ => s
  | .idle t | .sent t _ _ _ | .out t _ _ _ => t

theorem own_finish {x : Firing} {y : NodeRes} (k : Quiet x.n.r s) (h : Own x.n.r s (y.state s)) : Own x.n.r s (y.finish s x) := by
  cases y with
  | wait => exact Own.refl _ _
  | idle t => exact h
  | park c i o => exact own_parkFiring k c i o
  | sent t eat dss o => exact Own.trans h (own_finishFire (Own.quiet h k) _ _ _ _)
  | out t eat rs a => exact Own.trans h (own_finishFire (Own.quiet h k) _ _ _ _)

theorem own_emitPend (k : Quiet s.site.r s) (opc : BitVec 8) (nf : NodeFields) (ds : List Dep) (rest : List (List Dep)) :
    Own s.site.r s (emitPend s opc nf ds rest) := by
  rw [emitPend]
  generalize hv : pushEntry _ s.site ds 0 _ = v
  have h : Own s.site.r s v := by
    rw [← hv]
    exact (own_updNode s s.site _).trans (own_pushEntry _ s.site ds 0 _)
  have hs := h.trans (own_sigCount v s.site (ds.head?.map (·.tok)))
  exact hs.trans (own_firedAt (hs.quiet k) _ _)

/-! ### The rules of the nodes named -/

/-- A rule of a node keeps to its region. -/
def KeepsTo (f : State → Firing → NodeRes) : Prop := ∀ (s : State) (x : Firing), Quiet x.n.r s → Own x.n.r s ((f s x).state s)

theorem own_fireNode {f : State → Firing → NodeRes} {opc : BitVec 8} {nf : NodeFields} (hf : KeepsTo f) (k : Quiet s.site.r s)
    (hfl : flipped s s.site [0, 1, 2, 3] = false) (h : fireNode s opc nf f = .next t) : Own s.site.r s t := by
  have hfresh : Own s.site.r s (fireFresh s opc nf f) := by
    have hall : ∀ i : BitVec 2, i ∈ ([0, 1, 2, 3] : List (BitVec 2)) := by decide
    have hno (ports : List (BitVec 2)) : flipped s s.site ports = false := by
      rw [flipped, List.any_eq_false] at hfl ⊢
      exact fun i _ => hfl i (hall i)
    rw [fireFresh, if_neg (by rw [hno]; decide)]
    exact own_finish k (hf s (firingAt s opc nf) k)
  rw [fireNode] at h
  dsimp only at h
  split at h
  · injection h with h
    exact h ▸ Own.refl _ _
  · split at h
    · split at h
      · injection h with h
        exact h ▸ own_emitPend k opc nf _ _
      · split at h
        · injection h with h
          exact h ▸ Own.refl _ _
        · injection h with h
          exact h ▸ hfresh
    · injection h with h
      exact h ▸ hfresh

theorem keepsTo_oneOut (s : State) (x : Firing) (t : Token) : Own x.n.r s ((oneOut s x t).state s) := Own.refl _ _

theorem keepsTo_errOut {x : Firing} (k : Quiet x.n.r s) (c : BitVec 8) : Own x.n.r s ((errOut s x c).state s) := own_noteFault k c _

theorem keepsTo_sigOut (s : State) (x : Firing) (t : Token) : Own x.n.r s ((sigOut s x t).state s) := by
  rw [sigOut]
  split
  · exact Own.refl _ _
  · exact Own.refl _ _

theorem keepsTo_dataNode {rf : BitVec 5} {ok : BitVec 2 → Token → Bool} {f : State → Firing → NodeRes} (hf : KeepsTo f) :
    KeepsTo fun s x => dataNode s x rf ok f := by
  intro s x k
  dsimp only
  rw [dataNode]
  dsimp only
  split
  · exact Own.refl _ _
  · split
    · exact Own.refl _ _
    · split
      · exact Own.refl _ _
      · split
        · exact Own.refl _ _
        · split
          · exact keepsTo_errOut k _
          · exact hf s x k

theorem keepsTo_flowNode {eat : List (BitVec 2)} {f : State → Firing → NodeRes} (hf : KeepsTo f) :
    KeepsTo fun s x => if x.ready then flowChecked s x eat (f s x) else .wait := by
  intro s x k
  dsimp only
  split
  · rw [flowChecked]
    split
    · exact own_noteFault k _ _
    · exact hf s x k
  · exact Own.refl _ _

/-- The floating-point nodes named. -/
def floatingNodes (nf : NodeFields) : List Instr := [.vadd nf, .vsub nf, .vmul nf, .vfma nf, .vmin nf, .vmax nf, .vabs nf, .vneg nf, .vdiv nf, .vsqrt nf]

/-- The nodes of integer arithmetic named. -/
def integerNodes (nf : NodeFields) : List Instr := [.viadd nf, .visub nf, .vimul nf]

/-- The shifts. -/
def shiftNodes (nf : NodeFields) : List Instr := [.vshl nf, .vshr nf]

/-- The bitwise nodes. -/
def bitwiseNodes (nf : NodeFields) : List Instr := [.vand nf, .vor nf, .vxor nf]

/-- The flow nodes named. -/
def flowingNodes (nf : NodeFields) : List Instr := [.dup nf, .stopg nf, .delay nf, .cleave nf, .cjoin nf]

theorem exec_vshl (nf : NodeFields) (s : State) : exec (.vshl nf) s = intNode s 0x16 nf fun w _ a b => a * 2 ^ (b % w) % 2 ^ w := by
  change execVshl nf s = _
  rw [execVshl]

theorem exec_vdiv (nf : NodeFields) (s : State) : exec (.vdiv nf) s =
    fpNode s 0x08 nf (fun f => lane2 (divF (f.p + 3)) (fun f a b sa sb => prodTag f a b sa sb true) f) := by
  change execVdiv nf s = _
  rw [execVdiv]

section Node
variable {nf : NodeFields} {opc : BitVec 8} (k : Quiet s.site.r s) (hfl : flipped s s.site [0, 1, 2, 3] = false)
include k hfl

theorem own_fpNode {lane : FloatFmt → List (FVal × Nat) → Nat × Nat} (h : fpNode s opc nf lane = .next t) : Own s.site.r s t :=
  own_fireNode (keepsTo_dataNode fun s x _ => keepsTo_sigOut s x _) k hfl h

theorem own_intNode {lane : Nat → Bool → Nat → Nat → Nat} (h : intNode s opc nf lane = .next t) : Own s.site.r s t :=
  own_fireNode (keepsTo_dataNode fun s x _ => keepsTo_oneOut s x _) k hfl h

theorem own_bitNode {f : BitVec 512 → BitVec 512 → BitVec 512} {g : BitVec 64 → BitVec 64 → BitVec 64}
    (h : bitNode s opc nf f g = .next t) : Own s.site.r s t :=
  own_fireNode (keepsTo_dataNode fun s x _ => keepsTo_oneOut s x _) k hfl h

theorem own_flowNode {f : State → Firing → NodeRes} (hf : KeepsTo f) (h : flowNode s opc nf f = .next t) : Own s.site.r s t :=
  own_fireNode (keepsTo_flowNode hf) k hfl h

theorem own_stopg (h : exec (.stopg nf) s = .next t) : Own s.site.r s t := by
  change execStopg nf s = _ at h
  rw [execStopg] at h
  refine own_flowNode k hfl (fun s x _ => ?_) h
  cases x.a with
  | none => exact Own.refl _ _
  | some a =>
    dsimp only
    split
    · split
      · exact Own.refl _ _
      · exact Own.refl _ _
    · exact Own.refl _ _

theorem own_delay (h : exec (.delay nf) s = .next t) : Own s.site.r s t := by
  change execDelay nf s = _ at h
  rw [execDelay] at h
  refine own_flowNode k hfl (fun s x _ => ?_) h
  cases x.a with
  | none => exact Own.refl _ _
  | some a => exact Own.refl _ _

theorem own_dup (h : exec (.dup nf) s = .next t) : Own s.site.r s t := by
  change execDup nf s = _ at h
  rw [execDup] at h
  refine own_flowNode k hfl (fun s x _ => ?_) h
  cases x.a with
  | none => exact Own.refl _ _
  | some a => exact Own.refl _ _

theorem own_cjoin (h : exec (.cjoin nf) s = .next t) : Own s.site.r s t := by
  change execCjoin nf s = _ at h
  rw [execCjoin] at h
  refine own_flowNode k hfl (fun s x _ => ?_) h
  cases x.a with
  | none => exact Own.refl _ _
  | some a =>
    dsimp only
    split
    · exact Own.refl _ _
    · split
      · exact Own.refl _ _
      · exact Own.trans ((Own.refl x.n.r s).updFab _) (own_sweepBarriers _ _ _)

theorem own_cleave (h : exec (.cleave nf) s = .next t) : Own s.site.r s t := by
  change execCleave nf s = _ at h
  rw [execCleave] at h
  refine own_flowNode k hfl (fun s x _ => ?_) h
  cases x.a with
  | none => exact Own.refl _ _
  | some a =>
    dsimp only
    split
    · exact own_noteCoh s x.n.r _ _
    · split
      · exact Own.refl _ _
      · exact (Own.trans ((Own.refl x.n.r s).updFab _) (own_noteCoh _ _ _ _)).trans (own_sweepBarriers _ _ _)

theorem own_floating {i : Instr} (hi : i ∈ floatingNodes nf) (h : exec i s = .next t) : Own s.site.r s t := by
  simp only [floatingNodes, List.mem_cons, List.not_mem_nil, or_false] at hi
  have of {opc lane} (he : exec i s = fpNode s opc nf lane) : Own s.site.r s t := own_fpNode k hfl (he.symm.trans h)
  rcases hi with rfl | rfl | rfl | rfl | rfl | rfl | rfl | rfl | rfl | rfl
  · exact of rfl
  · exact of rfl
  · exact of rfl
  · exact of (exec_vfma nf s)
  · exact of rfl
  · exact of rfl
  · exact of rfl
  · exact of rfl
  · exact of (exec_vdiv nf s)
  · exact of (exec_vsqrt nf s)

theorem own_integer {i : Instr} (hi : i ∈ integerNodes nf) (h : exec i s = .next t) : Own s.site.r s t := by
  simp only [integerNodes, List.mem_cons, List.not_mem_nil, or_false] at hi
  have of {opc lane} (he : exec i s = intNode s opc nf lane) : Own s.site.r s t := own_intNode k hfl (he.symm.trans h)
  rcases hi with rfl | rfl | rfl
  · exact of rfl
  · exact of rfl
  · exact of (exec_vimul nf s)

theorem own_shift {i : Instr} (hi : i ∈ shiftNodes nf) (h : exec i s = .next t) : Own s.site.r s t := by
  simp only [shiftNodes, List.mem_cons, List.not_mem_nil, or_false] at hi
  rcases hi with rfl | rfl
  · exact own_intNode k hfl ((exec_vshl nf s).symm.trans h)
  · exact own_intNode k hfl ((exec_vshr nf s).symm.trans h)

theorem own_bitwise {i : Instr} (hi : i ∈ bitwiseNodes nf) (h : exec i s = .next t) : Own s.site.r s t := by
  simp only [bitwiseNodes, List.mem_cons, List.not_mem_nil, or_false] at hi
  have of {opc f g} (he : exec i s = bitNode s opc nf f g) : Own s.site.r s t := own_bitNode k hfl (he.symm.trans h)
  rcases hi with rfl | rfl | rfl
  · exact of rfl
  · exact of rfl
  · exact of rfl

theorem own_flowing {i : Instr} (hi : i ∈ flowingNodes nf) (h : exec i s = .next t) : Own s.site.r s t := by
  simp only [flowingNodes, List.mem_cons, List.not_mem_nil, or_false] at hi
  rcases hi with rfl | rfl | rfl | rfl | rfl
  · exact own_dup k hfl h
  · exact own_stopg k hfl h
  · exact own_delay k hfl h
  · exact own_cleave k hfl h
  · exact own_cjoin k hfl h

end Node

/-- Settles O60: each node's rule keeps to its region, and so do the beginning and the end of every firing. -/
theorem aFiringLeavesTheRestAlone : Obligations.AFiringLeavesTheRestAlone := by
  unfold Obligations.AFiringLeavesTheRestAlone
  intro s t nf i hi hfl hlog hoff h
  have k : Quiet s.site.r s := ⟨hlog, hoff⟩
  have ho : Own s.site.r s t := by
    have hi : i ∈ floatingNodes nf ++ (integerNodes nf ++ (bitwiseNodes nf ++ (shiftNodes nf ++ flowingNodes nf))) := hi
    simp only [List.mem_append] at hi
    rcases hi with hi | hi | hi | hi | hi
    · exact own_floating k hfl hi h
    · exact own_integer k hfl hi h
    · exact own_bitwise k hfl hi h
    · exact own_shift k hfl hi h
    · exact own_flowing k hfl hi h
  exact ⟨ho.sq, ho.sy, ho.dies, ho.ops, ho.ports, ho.mem, ho.region, ho.part⟩

end Sys2Proof.Machine
end

section
/-!
PROOFS. What every step keeps: the canonical form of memory and whole-word instruction addresses. The predicates and the rules of the
state's operations.

Each definition of the model that leaves a state has a lemma good_<name>: it keeps the invariant. Its proof goes through the branches of
the definition and uses, in each, the lemmas of the functions that the branch calls. A definition with a continuation asks the same of
the continuation, as a hypothesis.
-/

namespace Sys2Proof.Machine

open Sys2Proof

variable {b : Bool} {s t : State} {c : CoreId}

/-! ### The invariant -/

/-- Memory is canonical; asked of a run with b = true. -/
def MemOk (b : Bool) (m : Memory) : Prop := b = true → Memory.wf m = true

/-- An instruction address is that of a whole word; asked of a run with b = false. -/
def AddrOk (b : Bool) (w : Word) : Prop := b = false → w.extractLsb' 0 2 = 0

/-- Trap registers lead to whole words. -/
def TrapsOk (b : Bool) (t : TrapRegs) : Prop := AddrOk b t.tvec ∧ AddrOk b t.tpc

/-- A core's instruction addresses are those of whole words. -/
def CoreOk (b : Bool) (c : Core) : Prop := AddrOk b c.pc ∧ TrapsOk b c.ts ∧ TrapsOk b c.th

/-- All cores are in order. -/
def CoresOk (b : Bool) (sq : Vector Core 64) (sy : Vector Core 16) : Prop :=
  (∀ n : BitVec 6, CoreOk b (sq[n.toNat]'n.isLt)) ∧ ∀ n : BitVec 4, CoreOk b (sy[n.toNat]'n.isLt)

/-- One half of the invariant, as b says: memory is canonical, or the instruction addresses are whole. -/
def Good (b : Bool) (s : State) : Prop := MemOk b s.ms.mem ∧ CoresOk b s.sq s.sy

theorem good_true_iff : Good true s ↔ Memory.wf s.ms.mem = true := by
  refine ⟨fun h => h.1 rfl, fun h => ⟨fun _ => h, ?_, ?_⟩⟩
  · exact fun n => ⟨fun he => absurd he (by decide), ⟨fun he => absurd he (by decide), fun he => absurd he (by decide)⟩,
      fun he => absurd he (by decide), fun he => absurd he (by decide)⟩
  · exact fun n => ⟨fun he => absurd he (by decide), ⟨fun he => absurd he (by decide), fun he => absurd he (by decide)⟩,
      fun he => absurd he (by decide), fun he => absurd he (by decide)⟩

theorem coreOk_false_iff {c : Core} : CoreOk false c ↔ c.wordAligned := by
  simp only [CoreOk, TrapsOk, AddrOk, Core.wordAligned, List.forall_mem_cons, List.not_mem_nil, false_imp_iff, implies_true, and_true,
    true_imp_iff, and_assoc]

theorem good_false_iff : Good false s ↔ s.pcsAligned := by
  refine ⟨fun h c => ?_, fun h => ⟨fun he => absurd he (by decide), fun n => ?_, fun n => ?_⟩⟩
  · cases c with
    | sq n => exact coreOk_false_iff.mp (h.2.1 n)
    | sy n => exact coreOk_false_iff.mp (h.2.2 n)
  · exact coreOk_false_iff.mpr (h (.sq n))
  · exact coreOk_false_iff.mpr (h (.sy n))

/-! ### Addresses and cores -/

theorem addrOk_iff (w : Word) : AddrOk b w ↔ (b = false → w.toNat % 4 = 0) := by
  rw [AddrOk]
  refine imp_congr_right fun _ => ?_
  rw [← BitVec.toNat_inj, BitVec.extractLsb'_toNat]
  simp

theorem AddrOk.add_four {w : Word} (h : AddrOk b w) : AddrOk b (w + 4) := by
  rw [addrOk_iff] at *
  intro hb
  have := h hb
  rw [BitVec.toNat_add]
  simp
  omega

theorem addrOk_masked (w : Word) : AddrOk b (w &&& ~~~3#64) := by
  intro _
  ext i hi
  have : i = 0 ∨ i = 1 := by omega
  rcases this with rfl | rfl <;> simp

theorem Good.coreOk (h : Good b s) (c : CoreId) : CoreOk b (s.core c) := by
  cases c with
  | sq n => exact h.2.1 n
  | sy n => exact h.2.2 n

theorem Good.meOk (h : Good b s) : CoreOk b s.me := h.coreOk s.cur

theorem CoreOk.pc {c : Core} (h : CoreOk b c) : AddrOk b c.pc := h.1

theorem CoreOk.trapRegs {c : Core} (h : CoreOk b c) (l : Level) : TrapsOk b (c.trapRegs l) := by
  cases l with
  | h => exact h.2.2
  | s => exact h.2.1
  | u => exact h.2.1

theorem CoreOk.setTrapRegs {c : Core} {t : TrapRegs} (h : CoreOk b c) (l : Level) (ht : TrapsOk b t) : CoreOk b (c.setTrapRegs l t) := by
  cases l with
  | h => exact ⟨h.1, h.2.1, ht⟩
  | s => exact ⟨h.1, ht, h.2.2⟩
  | u => exact ⟨h.1, ht, h.2.2⟩

theorem coreOk_mk_iff {pc g f fcsr sigctl level pend part run sqlevel ts th timecmp sel dbgc dbgwva dbgstop stopReq crashStop inv icache
    cycBase cycLast entering} : CoreOk b ⟨pc, g, f, fcsr, sigctl, level, pend, part, run, sqlevel, ts, th, timecmp, sel, dbgc, dbgwva,
      dbgstop, stopReq, crashStop, inv, icache, cycBase, cycLast, entering⟩ ↔ AddrOk b pc ∧ TrapsOk b ts ∧ TrapsOk b th := Iff.rfl

theorem CoreOk.ts {c : Core} (h : CoreOk b c) : TrapsOk b c.ts := h.2.1
theorem CoreOk.th {c : Core} (h : CoreOk b c) : TrapsOk b c.th := h.2.2
theorem TrapsOk.tvec {t : TrapRegs} (h : TrapsOk b t) : AddrOk b t.tvec := h.1
theorem TrapsOk.tpc {t : TrapRegs} (h : TrapsOk b t) : AddrOk b t.tpc := h.2

/-- A core with the same addresses as one in order. -/
theorem CoreOk.congr {c d : Core} (h : CoreOk b c) (hp : d.pc = c.pc) (hs : d.ts = c.ts) (hh : d.th = c.th) : CoreOk b d := by
  rw [CoreOk, hp, hs, hh]
  exact h

theorem CoreOk.clearSkip {c : Core} (h : CoreOk b c) : CoreOk b (Machine.clearSkip c) := by
  rw [Machine.clearSkip]
  split
  · exact h
  · exact h

theorem CoreOk.wg {c : Core} (h : CoreOk b c) (r : Reg) (v : Word) : CoreOk b (c.wg r v) := by
  rw [Core.wg]
  split
  · exact h
  · exact h

theorem CoreOk.wf {c : Core} (h : CoreOk b c) (r : Reg) (v : Word) (t : BitVec 7) : CoreOk b (c.wf r v t) := h

theorem CoreOk.enterTrap {c : Core} (h : CoreOk b c) {w : Word} (hw : AddrOk b w) (l : Level) (cause : BitVec 8) (int : Bool) (tval : Word) :
    CoreOk b (enterTrap c l cause int tval w) := by
  obtain ⟨hv, -⟩ := h.trapRegs l
  obtain ⟨-, hs, hh⟩ := h.setTrapRegs l (t := { c.trapRegs l with
      tpc := w, tcause := 0#55 ++ BitVec.ofBool int ++ cause, tval := tval, status := statusEnter (c.trapRegs l).status c.level })
      ⟨hv, hw⟩
  exact ⟨hv, hs, hh⟩

/-! ### States -/

/-- A state with the memory and the cores of one in order. -/
theorem Good.congr (h : Good b s) (hm : t.ms.mem = s.ms.mem) (hq : t.sq = s.sq) (hy : t.sy = s.sy) : Good b t := by
  rw [Good, hm, hq, hy]
  exact h

theorem Calm.good (h : Calm s t) (hs : Good b s) : Good b t := by
  refine ⟨fun hb => h.wf (hs.1 hb), ?_⟩
  rw [h.sq, h.sy]
  exact hs.2

theorem Keeps.good (h : Keeps s t) (hs : Good b s) : Good b t := Calm.good h.calm hs

theorem good_mk_iff {agenda cur site fresh booted heldUp fclock syscfg sq sy parts regions dies ms ops nextOp nextFault ports saves} :
    Good b ⟨agenda, cur, site, fresh, booted, heldUp, fclock, syscfg, sq, sy, parts, regions, dies, ms, ops, nextOp, nextFault, ports,
      saves⟩ ↔ MemOk b ms.mem ∧ CoresOk b sq sy := Iff.rfl

theorem Good.mem (h : Good b s) : MemOk b s.ms.mem := h.1
theorem Good.cores (h : Good b s) : CoresOk b s.sq s.sy := h.2

theorem Good.updPart (h : Good b s) (p : PartId) (f : Partition → Partition) : Good b (s.updPart p f) := h
theorem Good.updRegion (h : Good b s) (r : RegionId) (f : Region → Region) : Good b (s.updRegion r f) := h
theorem Good.updCtl (h : Good b s) (r : RegionId) (f : RegionCtl → RegionCtl) : Good b (s.updCtl r f) := h
theorem Good.updFab (h : Good b s) (r : RegionId) (f : Fabric → Fabric) : Good b (s.updFab r f) := h
theorem Good.updDbg (h : Good b s) (r : RegionId) (f : RegionDbg → RegionDbg) : Good b (s.updDbg r f) := h
theorem Good.updNode (h : Good b s) (n : Site) (f : NodeSt → NodeSt) : Good b (s.updNode n f) := h
theorem Good.updDie (h : Good b s) (d : DieId) (f : Die → Die) : Good b (s.updDie d f) := h
theorem Good.updPorts (h : Good b s) (f : Ports → Ports) : Good b (s.updPorts f) := h
theorem Good.updRules (h : Good b s) (p : PartId) (f : Rules → Rules) : Good b (s.updRules p f) := h
theorem Good.useFresh (h : Good b s) (n : Nat) : Good b (s.useFresh n) := h

theorem Good.updMs (h : Good b s) {f : MemSys → MemSys} (hf : MemOk b (f s.ms).mem) : Good b (s.updMs f) := ⟨hf, h.2⟩

theorem Good.updCore (h : Good b s) {c : CoreId} {f : Core → Core} (hf : CoreOk b (f (s.core c))) : Good b (s.updCore c f) := by
  have hc (d : CoreId) : CoreOk b ((s.updCore c f).core d) := by
    by_cases hd : d = c
    · subst hd
      rw [State.core_updCore_self]
      exact hf
    · rw [State.core_updCore_ne s hd]
      exact h.coreOk d
  refine ⟨?_, fun n => hc (.sq n), fun n => hc (.sy n)⟩
  rw [State.ms_updCore]
  exact h.1

theorem Good.updMe (h : Good b s) {f : Core → Core} (hf : CoreOk b (f s.me)) : Good b (s.updMe f) := h.updCore hf

theorem Good.wg (h : Good b s) (r : Reg) (v : Word) : Good b (s.wg r v) := h.updMe (h.meOk.wg r v)
theorem Good.wf (h : Good b s) (r : Reg) (v : Word) (t : BitVec 7) : Good b (s.wf r v t) := h.updMe (h.meOk.wf r v t)

theorem Good.foldl {α : Type} {f : State → α → State} {l : List α} (h : Good b s) (hf : ∀ t a, Good b t → Good b (f t a)) :
    Good b (l.foldl f s) := by
  induction l generalizing s with
  | nil => exact h
  | cons a l ih => exact ih (hf s a h)

theorem memOk_foldl {α : Type} {f : MemSys → α → MemSys} {l : List α} {ms : MemSys} (h : MemOk b ms.mem)
    (hf : ∀ ms a, MemOk b ms.mem → MemOk b (f ms a).mem) : MemOk b (l.foldl f ms).mem := by
  induction l generalizing ms with
  | nil => exact h
  | cons a l ih => exact ih (hf ms a h)

/-! ### Results that hold a state -/

/-- Every state that a checked access leaves is in order. -/
def MGood {α : Type} (b : Bool) : MRes α → Prop
  | .ok _ s => Good b s
  | .trap _ _ | .wait => True

/-- The next state, if there is one, is in order. -/
def OutGood (b : Bool) : Out → Prop
  | .next s => Good b s
  | .fault _ | .refused _ => True

/-- The state that a node's rule leaves is in order. -/
def NodeGood (b : Bool) : NodeRes → Prop
  | .idle s | .sent s _ _ _ | .out s _ _ _ => Good b s
  | .wait | .park _ _ _ => True

def OptGood (b : Bool) : Option State → Prop
  | some s => Good b s
  | none => True

def OptNodeGood (b : Bool) : Option NodeRes → Prop
  | some y => NodeGood b y
  | none => True

def ParkedGood (b : Bool) : Parked → Prop
  | .parked s => Good b s
  | .full | .held | .overflow => True

def PieceGood (b : Bool) : PieceRes → Prop
  | .ok _ s => Good b s
  | .trap _ _ | .wait | .bad => True

section
variable {α : Type} {a : α}
theorem mGood_ok : MGood b (.ok a s) ↔ Good b s := Iff.rfl
theorem mGood_trap (x : BitVec 8) (y : Word) : MGood b (.trap x y : MRes α) := trivial
theorem mGood_wait : MGood b (.wait : MRes α) := trivial
theorem outGood_next : OutGood b (.next s) ↔ Good b s := Iff.rfl
theorem nodeGood_wait : NodeGood b .wait := trivial
theorem nodeGood_park (x : BitVec 8) (y : FaultInfo) (z : Option Token) : NodeGood b (.park x y z) := trivial
theorem nodeGood_idle : NodeGood b (.idle s) ↔ Good b s := Iff.rfl
theorem nodeGood_sent (x : List (BitVec 2)) (y : List (List Dep)) (z : Option Token) : NodeGood b (.sent s x y z) ↔ Good b s := Iff.rfl
theorem nodeGood_out (x : List (BitVec 2)) (y : List Pair) (z : Word) : NodeGood b (.out s x y z) ↔ Good b s := Iff.rfl
theorem optGood_some : OptGood b (some s) ↔ Good b s := Iff.rfl
theorem optNodeGood_some {y : NodeRes} : OptNodeGood b (some y) ↔ NodeGood b y := Iff.rfl
theorem optNodeGood_none : OptNodeGood b none := trivial
theorem optGood_none : OptGood b none := trivial
theorem parkedGood_parked : ParkedGood b (.parked s) ↔ Good b s := Iff.rfl
theorem parkedGood_full : ParkedGood b .full := trivial
theorem parkedGood_held : ParkedGood b .held := trivial
theorem parkedGood_overflow : ParkedGood b .overflow := trivial
theorem pieceGood_ok (v : Nat) : PieceGood b (.ok v s) ↔ Good b s := Iff.rfl
theorem pieceGood_trap (x : BitVec 8) (y : Word) : PieceGood b (.trap x y) := trivial
theorem pieceGood_wait : PieceGood b .wait := trivial
theorem pieceGood_bad : PieceGood b .bad := trivial

theorem MGood.of_ok (h : MGood b (.ok a s)) : Good b s := h
theorem OptGood.of_some (h : OptGood b (some s)) : Good b s := h
theorem ParkedGood.of_parked (h : ParkedGood b (.parked s)) : Good b s := h
theorem PieceGood.of_ok {v : Nat} (h : PieceGood b (.ok v s)) : Good b s := h
theorem OptNodeGood.of_some {y : NodeRes} (h : OptNodeGood b (some y)) : NodeGood b y := h
theorem OutGood.of_next (h : OutGood b (.next s)) : Good b s := h

theorem MRes.All.mGood {r : MRes α} (h : r.All (Keeps s)) (hs : Good b s) : MGood b r := by
  cases r with
  | ok a t => exact Keeps.good h hs
  | trap | wait => trivial

theorem MGood.bind {β : Type} {r : MRes α} {k : α → State → MRes β} (h : MGood b r) (hk : ∀ a t, Good b t → MGood b (k a t)) :
    MGood b (r.bind k) := by
  cases r with
  | ok a t => exact hk a t h
  | trap | wait => trivial

end

/-! ### The memory system and checked accesses -/

section
variable {ms : MemSys}

theorem MemOk.congr {u : MemSys} (h : MemOk b ms.mem) (hm : u.mem = ms.mem) : MemOk b u.mem := by rwa [hm]

theorem good_homeWrite (h : MemOk b ms.mem) (p : PartId) (pa v n : Nat) : MemOk b (homeWrite p ms pa v n).mem :=
  fun hb => homeWrite_wf p (h hb) pa v n
theorem good_writeThrough (h : MemOk b ms.mem) (l : SLine) : MemOk b (writeThrough ms l).mem := fun hb => writeThrough_wf (h hb) l
theorem good_releaseS (h : MemOk b ms.mem) (g : Agent) : MemOk b (releaseS g ms).mem := fun hb => releaseS_wf g (h hb)
theorem good_acquireS (h : MemOk b ms.mem) (g : Agent) : MemOk b (acquireS g ms).mem := fun hb => acquireS_wf g (h hb)
theorem good_flushSLine (h : MemOk b ms.mem) (line : Nat) (g : Agent) : MemOk b (flushSLine ms line g).mem :=
  fun hb => flushSLine_wf line g (h hb)
theorem good_dirRead (h : MemOk b ms.mem) (g : Option Agent) (pa : Nat) (now : Word) : MemOk b (dirRead g pa now ms).mem :=
  h.congr (dirRead_mem g pa now ms)
theorem good_dirWrite (h : MemOk b ms.mem) (g : Option Agent) (pa : Nat) (now : Word) : MemOk b (dirWrite g pa now ms).mem :=
  h.congr (dirWrite_mem g pa now ms)
theorem good_peerAsk (h : MemOk b ms.mem) (p : PartId) (pa n : Nat) : MemOk b (peerAsk p pa n ms).mem := h
theorem good_clearLine (h : MemOk b ms.mem) (l : Nat) : MemOk b (clearLine l ms).mem := h
theorem good_dropSLine (h : MemOk b ms.mem) (g : Agent) (l : Nat) : MemOk b (dropSLine ms g l).mem := h

end

section
variable (h : Good b s)
include h

theorem good_homeCheck (x : Ctx) (pa n : Nat) (va : Word) (whole : Bool) : MGood b (homeCheck s x pa n va whole) :=
  (homeCheck_keeps s x pa n va whole).mGood h
theorem good_translate (x : Ctx) (acc : Access) (va : Word) : MGood b (translate s x acc va) := (translate_all s x acc va).mGood h
theorem good_readHome (x : Ctx) (pa n : Nat) : MGood b (readHome s x pa n) := (readHome_keeps s x pa n).mGood h
theorem good_readAt (x : Ctx) (t : Xl) (n : Nat) (va : Word) : MGood b (readAt s x t n va) := (readAt_all s x t n va).mGood h
theorem good_writeAt (x : Ctx) (t : Xl) (v n : Nat) (va : Word) : MGood b (writeAt s x t v n va) := (writeAt_all s x t v n va).mGood h
theorem good_rmwAt (x : Ctx) (t : Xl) (n : Nat) (va : Word) (f : Nat → Option Nat) : MGood b (rmwAt s x t n va f) :=
  (rmwAt_all s x t n va f).mGood h
theorem good_loadVa (x : Ctx) (va : Word) (n : Nat) : MGood b (loadVa s x va n) := (loadVa_all s x va n).mGood h
theorem good_storeVa (x : Ctx) (va : Word) (v n : Nat) : MGood b (storeVa s x va v n) := (storeVa_all s x va v n).mGood h
theorem good_loadBytes (x : Ctx) (va : Word) (n : Nat) : MGood b (loadBytes s x va n) := (loadBytes_all s x va n).mGood h
theorem good_storeBytes (x : Ctx) (va : Word) (n : Nat) (bs : List Byte) : MGood b (storeBytes s x va n bs) :=
  (storeBytes_all s x va n bs).mGood h
theorem good_storeWords (p : PartId) (va : Word) (ws : List Word) : MGood b (storeWords s p va ws) := (storeWords_all s p va ws).mGood h
theorem good_blkRead (x : Ctx) (w : Word → Bool → Bool) (va : Word) (wr : Bool) : MGood b (blkRead s x w va wr) :=
  (blkRead_all s x w va wr).mGood h
theorem good_blkEntries (x : Ctx) (w : Word → Bool → Bool) (blk : Word) (n i : Nat) : MGood b (blkEntries s x w blk n i) :=
  (blkEntries_all x w blk n i s).mGood h
theorem good_blkWrites (x : Ctx) (l : List ((Nat × BitVec 2) × Word)) : MGood b (blkWrites s x l) := (blkWrites_all x l s).mGood h
theorem good_readCfg (x : Ctx) (va : Word) (idx : BitVec 6) : MGood b (readCfg s x va idx) := (readCfg_all s x va idx).mGood h
theorem good_reread (x : Ctx) (va : Word) (idx : BitVec 6) (rsig : BitVec 256) : MGood b (reread s x va idx rsig) :=
  (reread_all s x va idx rsig).mGood h
theorem good_saveRsigOk (o : Op) (l : List Byte) (rsig : BitVec 256) : MGood b (saveRsigOk s o l rsig) :=
  (saveRsigOk_all s o l rsig).mGood h
theorem good_trace (r : RegionId) (ctx : BitVec 12) (iter : BitVec 16) (row : BitVec 5) (col slot : BitVec 6) (event aux : BitVec 8)
    (tok : Option Token) : Good b (trace s r ctx iter row col slot event aux tok) := (calm_trace s r ctx iter row col slot event aux tok).good h
theorem good_pfqWrite (p : PartId) (id : Nat) (ws : List Word) : Good b (pfqWrite s p id ws).2 := (calm_pfqWrite s p id ws).good h
theorem good_recordFault (p : PartId) (r : RegionId) (cause : BitVec 8) (tag : Word) (resumable parked keep : Bool) (rest : List Word) :
    Good b (recordFault s p r cause tag resumable parked keep rest).2 :=
  (calm_recordFault s p r cause tag resumable parked keep rest).good h
theorem good_noteFault (n : Site) (cause : BitVec 8) (i : FaultInfo) : Good b (noteFault s n cause i) := (calm_noteFault s n cause i).good h
theorem good_mergeInto (p : PartId) (page : Nat) : Good b (mergeInto s p page) := (calm_mergeInto s p page).good h
theorem good_freeze (r : RegionId) (cause : BitVec 8) (va : Word) : Good b (freeze s r cause va) := (calm_freeze s r cause va).good h
theorem good_wakeRegion (r : RegionId) : Good b (wakeRegion s r) := (calm_wakeRegion s r).good h

end

end Sys2Proof.Machine
end

section
/-!
PROOFS. What every step keeps: operations, completion and kills.
-/

namespace Sys2Proof.Machine

open Sys2Proof

variable {ib : Bool}

theorem good_atomicPlace {s : State} (h : Good ib s) (va : Word) (t : Xl) : MGood ib (atomicPlace va t s) := by
  unfold atomicPlace
  grind only [= mGood_ok, mGood_trap]

theorem good_probeVa {s : State} (h : Good ib s) (x : Ctx) (w : Bool) (va : Word) : MGood ib (probeVa s x w va) := by
  unfold probeVa
  grind only [= mGood_ok, mGood_trap, ← good_translate, ← MGood.bind]

theorem good_dirServe {s : State} (h : Good ib s) (write : Bool) (g : Option Agent) (pa : Nat) (now : Word) :
    Good ib ({ s with ms := (if write then dirWrite else dirRead) g pa now s.ms } : State) := by
  cases write with
  | true => exact ⟨good_dirWrite h.mem g pa now, h.cores⟩
  | false => exact ⟨good_dirRead h.mem g pa now, h.cores⟩

theorem good_prefetch {s : State} (h : Good ib s) (x : Ctx) (write : Bool) (va : Word) : Good ib (prefetch s x write va) := by
  unfold prefetch
  cases hp : probeVa s x write va with
  | trap | wait => exact h
  | ok t s1 =>
    have h1 := good_probeVa h x write va
    rw [hp] at h1
    dsimp only
    split
    · cases hc : homeCheck s1 x t.pa 1 va false with
      | trap | wait => exact h
      | ok u s2 =>
        have h2 := good_homeCheck h1 x t.pa 1 va false
        rw [hc] at h2
        dsimp only
        split
        · exact good_dirServe h2 _ _ _ _
        · exact h
    · exact h

theorem good_mwcasCheck {s : State} (h : Good ib s) (x : Ctx) (p : PartId) (w : Word → Bool → Bool) (blk : Word) (op : Nat) :
    MGood ib (mwcasCheck s x p w blk op) := by
  unfold mwcasCheck
  grind only [= mGood_ok, mGood_trap, ← good_blkEntries, ← good_blkRead, ← MGood.bind]

theorem good_mwBegin {s : State} (h : Good ib s) (m : Mwcas) (o : MwOwner) : Good ib (mwBegin s m o) := by
  unfold mwBegin
  grind only [= good_mk_iff, ← Good.mem, ← Good.cores]

theorem good_acquireAll {s : State} (h : Good ib s) (gs : List Agent) : Good ib (acquireAll s gs) := by
  unfold acquireAll
  grind only [= good_mk_iff, ← Good.mem, ← Good.cores, ← memOk_foldl, ← good_acquireS]

theorem good_pieceOf {r : MRes Nat} (h : MGood ib r) : PieceGood ib (PieceRes.of r) := by
  cases r with
  | ok v t => exact h
  | trap c v => trivial
  | wait => trivial

theorem good_performPiece {s : State} (h : Good ib s) (a : Acc) (p : Piece) : PieceGood ib (performPiece s a p) := by
  unfold performPiece
  grind only [= pieceGood_ok, pieceGood_trap, pieceGood_wait, pieceGood_bad, ← good_pieceOf, ← Good.updFab, ← good_readAt, ← good_rmwAt,
    ← good_writeAt, ← MGood.bind, = mGood_ok]

theorem good_park {s : State} (h : Good ib s) (n : Site) (cause : BitVec 8) (i : FaultInfo) (toks : List WaitTok) :
    ParkedGood ib (park s n cause i toks) := by
  unfold park
  grind only [= parkedGood_parked, parkedGood_full, parkedGood_held, parkedGood_overflow, ← Good.updFab, ← Good.updMs, ← Good.mem,
    ← good_mergeInto, ← good_recordFault, ← good_trace]

theorem good_sweepMerger {s : State} (h : Good ib s) : Good ib (sweepMerger s) := by
  unfold sweepMerger
  grind only [← Good.updMs, ← Good.mem]

theorem good_recordHeld {s : State} (h : Good ib s) (p : PartId) (r : RegionId) (cause : BitVec 8) (i : FaultInfo) :
    Good ib (recordHeld s p r cause i).2 := by
  unfold recordHeld
  grind only [← Good.updMs, ← Good.mem, ← good_mergeInto, ← good_recordFault]

theorem good_regionSync {s : State} (h : Good ib s) (r : RegionId) : Good ib (regionSync s r) := by
  unfold regionSync
  grind only [= good_mk_iff, ← Good.mem, ← Good.cores, ← memOk_foldl, ← good_acquireS]

theorem good_storeCword {s : State} (h : Good ib s) (r : RegionId) (v : Word) : Good ib (storeCword s r v).2 := by
  unfold storeCword
  grind only [← Good.updCtl, ← good_recordHeld, ← good_regionSync, ← good_storeVa, MGood.of_ok]

theorem good_completeOp {s : State} (h : Good ib s) (o : Op) (v : Word) : Good ib (completeOp s o v) := by
  unfold completeOp
  grind only [← Good.updCore, = coreOk_mk_iff, ← CoreOk.pc, ← CoreOk.ts, ← CoreOk.th, ← Good.coreOk, = good_mk_iff, ← Good.mem,
    ← Good.cores]

theorem good_endOp {s : State} (h : Good ib s) (o : Op) (v : Word) : Good ib (endOp s o v) := by
  unfold endOp
  grind only [= good_mk_iff, ← Good.mem, ← Good.cores, ← good_acquireS, ← good_completeOp]

theorem good_failStreams {s : State} (h : Good ib s) (r : RegionId) (c : BitVec 8) : Good ib (failStreams s r c) := by
  unfold failStreams
  grind only [= good_mk_iff, ← Good.mem, ← Good.cores]

theorem good_endFailed {s : State} (h : Good ib s) (r : RegionId) : Good ib (endFailed s r) := by
  unfold endFailed
  grind only [← Good.foldl, ← good_endOp]

theorem good_failLaunches {s : State} (h : Good ib s) (r : RegionId) (c : BitVec 8) : Good ib (failLaunches s r c) := by
  unfold failLaunches
  grind only [← Good.foldl, ← good_completeOp]

theorem good_vacate {s : State} (h : Good ib s) (r : RegionId) : Good ib (vacate s r) := h.updDie ..

theorem good_freeRegion {s : State} (h : Good ib s) (r : RegionId) : Good ib (freeRegion s r) := by
  unfold freeRegion
  grind only [← Good.updRegion, ← good_endFailed, ← good_failLaunches, ← good_sweepMerger, ← good_vacate]

theorem good_afterStore {s : State} (h : Good ib s) (r : RegionId) : Good ib (afterStore s r) := by
  unfold afterStore
  grind only [← Good.updCtl, ← good_endFailed, ← good_freeRegion]

theorem good_finalStore {s : State} (h : Good ib s) (r : RegionId) (v : Word) : Good ib (finalStore s r v) := by
  unfold finalStore
  grind only [← good_afterStore, ← good_storeCword]

theorem good_killDone {s : State} (h : Good ib s) (r : RegionId) : Good ib (killDone s r) := by
  unfold killDone
  grind only [← Good.updFab, ← good_endFailed, ← good_finalStore, ← good_regionSync]

theorem good_killRunning {s : State} (h : Good ib s) (r : RegionId) (c : BitVec 8) : Good ib (killRunning s r c) := by
  unfold killRunning
  grind only [← Good.updCtl, ← Good.updDbg, ← Good.updFab, ← good_failStreams, ← good_killDone, ← good_sweepMerger]

end Sys2Proof.Machine
end

section
/-!
PROOFS. What every step keeps: the cores' shared operations.
-/

namespace Sys2Proof.Machine

open Sys2Proof

variable {ib : Bool}

theorem good_needRegs {s : State} (h : Good ib s) (rs : List Reg) (k : Out) (hk : OutGood ib k) : OutGood ib (needRegs s rs k) := by
  unfold needRegs
  grind only [= outGood_next]

theorem good_icachePut {s : State} (h : Good ib s) (c : CoreId) (pa : Nat) (w : BitVec 32) : Good ib (icachePut s c pa w) := by
  unfold icachePut
  grind only [← Good.updCore, ← Good.useFresh, = coreOk_mk_iff, ← CoreOk.pc, ← CoreOk.ts, ← CoreOk.th, ← Good.coreOk]

theorem good_startDone {s : State} (h : Good ib s) (c : CoreId) : Good ib (startDone s c) := by
  unfold startDone
  grind only [← good_endOp]

theorem good_hasFetched {s : State} (h : Good ib s) (c : CoreId) : Good ib (hasFetched s c) := by
  unfold hasFetched
  grind only [← Good.updCore, = coreOk_mk_iff, ← CoreOk.pc, ← CoreOk.ts, ← CoreOk.th, ← Good.coreOk, ← good_startDone]

theorem good_fetchAt {s : State} (h : Good ib s) (c : CoreId) : MGood ib (fetchAt s c) := by
  unfold fetchAt
  refine MGood.bind (good_translate h _ _ _) fun t s1 h1 => ?_
  split
  · exact good_hasFetched h1 c
  · refine MGood.bind (good_homeCheck h1 _ _ _ _ _) fun _ s2 h2 => MGood.bind (good_readHome h2 _ _ _) fun v s3 h3 => ?_
    grind only [= mGood_ok, ← good_hasFetched, ← good_icachePut, ← Good.updMs, ← good_dirRead, ← Good.mem]

theorem good_mcheckRegion {s : State} (h : Good ib s) (r : RegionId) : Good ib (mcheckRegion s r) := by
  unfold mcheckRegion
  grind only [← good_failLaunches, ← good_failStreams, ← good_freeRegion, ← good_killRunning]

theorem CoreOk.coreStop {c : Core} (h : CoreOk ib c) (how : Run) : CoreOk ib (Machine.coreStop how c) := h

theorem good_haltPart {s : State} (h : Good ib s) (p : PartId) : Good ib (haltPart s p) := by
  have h1 : Good ib ((coresOf s p).foldl (fun s c => s.updCore c (coreStop .halted)) s) :=
    h.foldl fun t c ht => ht.updCore ((ht.coreOk c).coreStop _)
  unfold haltPart
  grind only [← Good.updPart, ← Good.updMs, ← Good.mem, ← Good.foldl, ← good_mcheckRegion]

theorem good_mcheckStop {s : State} (h : Good ib s) (p : PartId) : Good ib (mcheckStop s p) := by
  unfold mcheckStop
  grind only [← Good.updPart, ← Good.updPorts, ← good_haltPart]

theorem good_mcheckCore {s : State} (h : Good ib s) (c : CoreId) : Good ib (mcheckCore s c) := by
  unfold mcheckCore
  grind only [← Good.updCore, = coreOk_mk_iff, ← CoreOk.pc, ← CoreOk.ts, ← CoreOk.th, ← Good.coreOk, ← good_mcheckStop]

theorem good_fetchFaults {s : State} (h : Good ib s) (c : CoreId) : Good ib (fetchFaults s c).2 := by
  unfold fetchFaults
  grind only [← good_fetchAt, MGood.of_ok]

theorem good_handlerFault {s : State} (h : Good ib s) (c : CoreId) (cause f : BitVec 8) : Good ib (handlerFault s c cause f) := by
  unfold handlerFault
  split
  · exact good_mcheckCore h c
  · have h1 : Good ib (s.updCore c fun x => enterTrap x .h cDOUBLEFAULT false (0#48 ++ f ++ cause) x.ts.tvec) :=
      h.updCore ((h.coreOk c).enterTrap (h.coreOk c).ts.tvec _ _ _ _)
    have h2 := good_fetchFaults h1 c
    dsimp only
    split
    · next u hu =>
      rw [hu] at h2
      exact h2
    · next u hu =>
      rw [hu] at h2
      exact good_mcheckCore h2 c

theorem good_takeTrap {s : State} {tpc : Word} (h : Good ib s) (hw : AddrOk ib tpc) (c : CoreId) (t : Level) (cause : BitVec 8)
    (int : Bool) (tval : Word) : Good ib (takeTrap s c t cause int tval tpc) := by
  have h2 := good_fetchFaults (h.updCore (f := fun x => enterTrap x t cause int tval tpc) ((h.coreOk c).enterTrap hw t cause int tval)) c
  unfold takeTrap
  dsimp only
  split
  · next u hu =>
    rw [hu] at h2
    exact h2
  · next f u hu =>
    rw [hu] at h2
    exact good_handlerFault h2 c cause f

theorem good_authSpent {ms : MemSys} (h : MemOk ib ms.mem) (p : PartId) (a : Answers) (l : BitVec 4) :
    MemOk ib (authSpent p a ms l).mem := by
  unfold authSpent
  grind only

theorem good_authTaken {s : State} (h : Good ib s) (va : Word) : Good ib (authTaken s va) := by
  unfold authTaken
  split
  · split
    · exact h
    · exact h
  · exact h

theorem good_raise {s : State} (h : Good ib s) (cause : BitVec 8) (tval : Word) : OutGood ib (raise s cause tval) := by
  unfold raise
  grind only [= outGood_next, ← Good.updMe, ← CoreOk.pc, ← Good.meOk, ← CoreOk.clearSkip, ← good_authTaken, ← good_takeTrap]

theorem good_raiseAfter {s : State} (h : Good ib s) (cause : BitVec 8) (tval : Word) : OutGood ib (raiseAfter s cause tval) := by
  unfold raiseAfter
  grind only [= outGood_next, ← Good.updMe, ← CoreOk.pc, ← Good.meOk, ← CoreOk.clearSkip, ← AddrOk.add_four, ← good_takeTrap]

theorem good_retireTo {s : State} {pc : Word} (h : Good ib s) (hw : AddrOk ib pc) : OutGood ib (retireTo s pc) := by
  obtain ⟨-, hs, hh⟩ := h.meOk.clearSkip
  have h1 : Good ib (s.updMe fun c => { clearSkip c with pc := pc }) := h.updMe ⟨hw, hs, hh⟩
  unfold retireTo
  dsimp only
  split
  · exact good_takeTrap h1 hw _ _ _ _ _
  · exact h1

theorem good_retire {s : State} (h : Good ib s) : OutGood ib (retire s) := by
  unfold retire
  grind only [← CoreOk.pc, ← Good.meOk, ← AddrOk.add_four, ← good_retireTo]

theorem good_retireG {s : State} (h : Good ib s) (d : Reg) (v : Word) : OutGood ib (retireG s d v) := by
  unfold retireG
  grind only [← Good.wg, ← good_retire]

theorem good_needLevel {s : State} (h : Good ib s) (l : Level) (i : Instr) (k : Out) (hk : OutGood ib k) :
    OutGood ib (needLevel s l i k) := by
  unfold needLevel
  grind only [← good_raise]

theorem good_takeInt {s : State} (h : Good ib s) (c : CoreId) (cause : BitVec 8) : Good ib (takeInt s c cause) := by
  unfold takeInt
  grind only [← Good.updPart, ← Good.useFresh, ← CoreOk.pc, ← Good.coreOk, ← AddrOk.add_four, ← good_takeTrap]

theorem good_onAccess {α : Type} {s0 : State} {r : MRes α} {k : α → State → Out} (h : Good ib s0) (hr : MGood ib r)
    (hk : ∀ a t, Good ib t → OutGood ib (k a t)) : OutGood ib (onAccess s0 r k) := by
  unfold onAccess
  cases r with
  | ok a t => exact hk a t hr
  | trap c v => exact good_raise h c v
  | wait => exact h

theorem good_coreLoad {s : State} (h : Good ib s) (va : Word) (n : Nat) (k : Nat → State → Out)
    (hk : ∀ a t, Good ib t → OutGood ib (k a t)) : OutGood ib (coreLoad s va n k) := by
  unfold coreLoad
  grind only [← good_onAccess, ← good_raise, ← good_readAt, ← good_translate]

theorem good_coreStore {s : State} (h : Good ib s) (va : Word) (v n : Nat) (k : State → Out) (hk : ∀ t, Good ib t → OutGood ib (k t)) :
    OutGood ib (coreStore s va v n k) := by
  unfold coreStore
  grind only [← good_onAccess, ← good_raise, ← good_translate, ← good_writeAt]

theorem good_needSync {s : State} (h : Good ib s) (k : Out) (hk : OutGood ib k) : OutGood ib (needSync s k) := by
  unfold needSync
  grind only [= outGood_next]

theorem good_releaseMe {s : State} (h : Good ib s) : Good ib (State.releaseMe s) := by
  unfold State.releaseMe
  grind only [= good_mk_iff, ← Good.mem, ← Good.cores, ← good_releaseS]

theorem good_acquireMe {s : State} (h : Good ib s) : Good ib (State.acquireMe s) := by
  unfold State.acquireMe
  grind only [= good_mk_iff, ← Good.mem, ← Good.cores, ← good_acquireS]

theorem good_issueState {s : State} (h : Good ib s) (d : Reg) : Good ib (issueState s d) := by
  unfold issueState
  grind only [← Good.updMe, = coreOk_mk_iff, ← CoreOk.pc, ← CoreOk.ts, ← CoreOk.th, ← Good.meOk, = good_mk_iff, ← Good.mem, ← Good.cores,
    ← good_releaseMe]

theorem good_issue {s : State} (h : Good ib s) (d : Reg) (uses : List Reg) (k : State → Op → Out)
    (hk : ∀ t o, Good ib t → OutGood ib (k t o)) : OutGood ib (issue s d uses k) := by
  unfold issue
  grind only [= outGood_next, ← good_issueState, ← good_needRegs, ← good_needSync, ← good_retireG]

theorem good_start {s : State} (h : Good ib s) (o : Op) (kind : OpKind) : OutGood ib (start s o kind) := by
  unfold start
  grind only [= good_mk_iff, ← Good.mem, ← Good.cores, ← good_retire]

theorem good_endNow {s : State} (h : Good ib s) (o : Op) (v : Word) : OutGood ib (endNow s o v) := by
  unfold endNow
  grind only [← good_endOp, ← good_retire]

theorem good_putOp {s : State} (h : Good ib s) (o : Op) : Good ib (putOp s o) := by
  unfold putOp
  grind only [= good_mk_iff, ← Good.mem, ← Good.cores]

theorem good_finishOp {s : State} (h : Good ib s) (o : Op) (v : Word) : Good ib (finishOp s o v) := good_endOp h ..

theorem addrOk_page (w : Word) : AddrOk ib (w &&& 0x000FFFFFFFFFF000) := by
  intro _
  ext i hi
  have : i = 0 ∨ i = 1 := by omega
  rcases this with rfl | rfl <;> simp

theorem good_crashEnter {s : State} (h : Good ib s) (p : PartId) : Good ib (crashEnter s p) := by
  unfold crashEnter
  dsimp only
  split
  · obtain ⟨-, hs, hh⟩ := h.coreOk (CoreId.sy ((s.part p).crashk.extractLsb' 8 4))
    exact h.updCore ⟨addrOk_page _, hs, hh⟩
  · exact h

theorem good_crashStopped {s : State} (h : Good ib s) (c : CoreId) (p : PartId) : Good ib (crashStopped s c p) := by
  unfold crashStopped
  grind only [← Good.updCore, = coreOk_mk_iff, ← CoreOk.pc, ← CoreOk.ts, ← CoreOk.th, ← Good.coreOk, ← good_crashEnter]

theorem good_crashCore {s : State} (h : Good ib s) (n : BitVec 4) (p : PartId) : Good ib (crashCore s n p) := by
  unfold crashCore
  grind only [← good_crashStopped, ← good_storeBytes, MGood.of_ok]

theorem good_crashTurn {s : State} (h : Good ib s) : OptGood ib (crashTurn s) := by
  unfold crashTurn
  grind only [= optGood_some, optGood_none, ← good_crashCore]

theorem good_tick {s : State} (h : Good ib s) : Good ib (tick s) := by
  unfold tick
  grind only [= good_mk_iff, ← Good.mem, ← Good.cores]

theorem good_amo {s : State} (h : Good ib s) (d a : Reg) (uses : List Reg) (w : Bool) (ord : Order) (signed : Bool) (f : Nat → Option Nat)
    : OutGood ib (amo s d a uses w ord signed f) := by
  unfold amo
  grind only [← good_acquireMe, ← good_atomicPlace, ← good_needRegs, ← good_needSync, ← good_onAccess, ← good_raise, ← good_releaseMe,
    ← good_retireG, ← good_rmwAt, ← good_translate, ← MGood.bind]

theorem good_execAmoadd {s : State} (h : Good ib s) (d a b : Reg) (w : Bool) (ord : Order) : OutGood ib (execAmoadd d a b w ord s) :=
  good_amo h ..

theorem good_execAmoswap {s : State} (h : Good ib s) (d a b : Reg) (w : Bool) (ord : Order) : OutGood ib (execAmoswap d a b w ord s) :=
  good_amo h ..

theorem good_execAmomin {s : State} (h : Good ib s) (d a b : Reg) (u w : Bool) (ord : Order) :
    OutGood ib (execAmomin d a b u w ord s) := good_amo h ..

theorem good_execAmomax {s : State} (h : Good ib s) (d a b : Reg) (u w : Bool) (ord : Order) :
    OutGood ib (execAmomax d a b u w ord s) := good_amo h ..

theorem good_execAmocas {s : State} (h : Good ib s) (d a b : Reg) (w : Bool) (ord : Order) : OutGood ib (execAmocas d a b w ord s) :=
  good_amo h ..

theorem good_setMw {s : State} (h : Good ib s) (m : Mwcas) : Good ib (setMw s m) := by
  unfold setMw
  grind only [← Good.updMs, ← Good.mem]

theorem good_mwCommitSlice {ms : MemSys} (h : MemOk ib ms.mem) (m : Mwcas) (sl : Nat) : MemOk ib (mwCommitSlice ms m sl).mem :=
  memOk_foldl (ms := ms) h fun _ _ h => good_homeWrite h _ _ _ _

theorem good_mwFinish {s : State} (h : Good ib s) (m : Mwcas) (o : MwOwner) (v : Word) : Good ib (mwFinish s m o v) := by
  cases o with
  | node r k => exact (good_acquireAll (s := s.updMs _) h _).updFab r _
  | core c d =>
    have h1 : Good ib ({ s with ms := finishedMs m.op c s.ms } : State) :=
      ⟨good_acquireS (ms := { s.ms with mwcas := s.ms.mwcas.filter (·.1.op != m.op) }) h.mem _, h.cores⟩
    rw [mwFinish_eq s _ _ rfl rfl]
    generalize hs2 : State.updCore ({ s with ms := finishedMs m.op c s.ms } : State) c _ = s2
    have h2 : Good ib s2 := by
      rw [← hs2]
      exact h1.updCore ((h1.coreOk c).wg d v)
    have h3 : Good ib (s2.updCore c behindCore) := by
      obtain ⟨-, hs, hh⟩ := (h2.coreOk c).clearSkip
      exact h2.updCore ⟨(h2.coreOk c).pc.add_four, hs, hh⟩
    split
    · exact good_takeTrap h3 (h2.coreOk c).pc.add_four _ _ _ _ _
    · exact h3

theorem good_mwEnd {s : State} (h : Good ib s) (m : Mwcas) (o : MwOwner) : Good ib (mwEnd s m o) := by
  unfold mwEnd
  grind only [← good_blkWrites, MGood.of_ok, ← good_mwFinish]

theorem good_mwDrop {s : State} (h : Good ib s) (m : Mwcas) : Good ib (mwDrop s m) := by
  unfold mwDrop
  grind only [← Good.updMs, ← Good.mem]

theorem good_mwLinkDown {s : State} (h : Good ib s) (m : Mwcas) (o : MwOwner) : Good ib (mwLinkDown s m o) := by
  unfold mwLinkDown
  grind only [← Good.updCore, = coreOk_mk_iff, ← CoreOk.pc, ← CoreOk.ts, ← CoreOk.th, ← Good.coreOk, ← CoreOk.clearSkip, ← good_mwDrop,
    ← good_takeTrap]

theorem good_execMwcas {s : State} (h : Good ib s) (d a : Reg) : OutGood ib (execMwcas d a s) := by
  unfold execMwcas
  grind only [= outGood_next, ← Good.updMe, = coreOk_mk_iff, ← CoreOk.pc, ← CoreOk.ts, ← CoreOk.th, ← Good.meOk, ← good_acquireMe,
    ← good_mwBegin, ← good_mwcasCheck, ← good_needRegs, ← good_onAccess, ← good_releaseMe]

theorem good_lockLine {ms : MemSys} (h : MemOk ib ms.mem) (m : Mwcas) (l : Nat) (now : Word) : MemOk ib (lockLine m l now ms).mem := by
  obtain ⟨-, -, hm, -⟩ := lockLine_eq m l now ms
  exact h.congr hm

theorem good_mwCompare {ms : MemSys} (h : MemOk ib ms.mem) (k : Nat) (m : Mwcas) : MemOk ib (mwCompare k ms m).2.mem :=
  h.congr (compared_mwCompare k ms m).mem

theorem good_execCrucibleLockGrant {s : State} (h : Good ib s) (k : Nat) : OutGood ib (execCrucibleLockGrant k s) := by
  unfold execCrucibleLockGrant
  split
  · exact h
  · next m o _ =>
    split
    · exact h
    · next l rest _ =>
      have hl := good_lockLine h.mem m l s.fclock
      split
      · exact h
      · split
        · have hc := good_mwCompare (ms := { lockLine m l s.fclock s.ms with
            mwcas := (lockLine m l s.fclock s.ms).mwcas.filter (·.1.op != k) ++ [({ m with want := rest, held := m.held ++ [l] }, o)] })
            hl s.fresh { m with want := rest, held := m.held ++ [l] }
          split
          · dsimp only
            revert hc
            generalize mwCompare s.fresh _ _ = r
            intro hc
            obtain ⟨m', ms'⟩ := r
            exact good_mwEnd (good_setMw (s := { s with ms := ms', fresh := _ }) ⟨hc, h.cores⟩ m') m' o
          · exact ⟨hl, h.cores⟩
        · exact h

theorem good_execMwcasCommit {s : State} (h : Good ib s) (k : Nat) : OutGood ib (execMwcasCommit k s) := by
  unfold execMwcasCommit
  split
  · exact h
  · next m o _ =>
    split
    · exact good_mwEnd h m o
    · split
      · exact h
      · exact good_mwEnd (good_setMw (s := { s with ms := mwCommitSlice s.ms m _ }) ⟨good_mwCommitSlice h.mem m _, h.cores⟩ _) _ _

theorem AddrOk.target {n : Nat} {pc : Word} (h : AddrOk ib pc) (off : BitVec n) : AddrOk ib (target pc off) := by
  rw [addrOk_iff] at *
  intro hb
  have := h hb
  rw [Machine.target, BitVec.toNat_add, BitVec.toNat_mul]
  simp
  omega

theorem good_branch {s : State} (h : Good ib s) (a b : Reg) (off : BitVec 16) (c : Word → Word → Bool) :
    OutGood ib (branch s a b off c) := by
  unfold branch
  grind only [← good_needRegs, ← good_retireTo, ← good_retire, ← AddrOk.target, ← CoreOk.pc, ← Good.meOk]

theorem good_execBeq {s : State} (h : Good ib s) (a b : Reg) (off : BitVec 16) : OutGood ib (execBeq a b off s) := good_branch h ..

theorem good_execBne {s : State} (h : Good ib s) (a b : Reg) (off : BitVec 16) : OutGood ib (execBne a b off s) := good_branch h ..

end Sys2Proof.Machine
end

section
/-!
PROOFS. What every step keeps: jumps, branches, tokens.
-/

namespace Sys2Proof.Machine

open Sys2Proof

variable {ib : Bool}

theorem good_execBlt {s : State} (h : Good ib s) (a b : Reg) (off : BitVec 16) : OutGood ib (execBlt a b off s) := good_branch h ..

theorem good_execBge {s : State} (h : Good ib s) (a b : Reg) (off : BitVec 16) : OutGood ib (execBge a b off s) := good_branch h ..

theorem good_execBltu {s : State} (h : Good ib s) (a b : Reg) (off : BitVec 16) : OutGood ib (execBltu a b off s) := good_branch h ..

theorem good_execBgeu {s : State} (h : Good ib s) (a b : Reg) (off : BitVec 16) : OutGood ib (execBgeu a b off s) := good_branch h ..

theorem good_execJal {s : State} (h : Good ib s) (off : BitVec 26) : OutGood ib (execJal off s) := by
  unfold execJal
  grind only [← Good.wg, ← CoreOk.pc, ← Good.meOk, ← AddrOk.target, ← good_needRegs, ← good_retireTo]

theorem addrOk_of_aligned {w : Word} (h : aligned w 4 = true) : AddrOk ib w := by
  rw [addrOk_iff]
  exact fun _ => beq_iff_eq.mp h

theorem good_execJalr {s : State} (h : Good ib s) (d a : Reg) (imm : BitVec 16) : OutGood ib (execJalr d a imm s) := by
  unfold execJalr
  grind only [← good_needRegs, ← good_raise, ← good_retireTo, ← addrOk_of_aligned, ← Good.wg]

theorem good_execBsig {s : State} (h : Good ib s) (f : Reg) (thr : BitVec 7) (off : BitVec 14) : OutGood ib (execBsig f thr off s) := by
  unfold execBsig
  grind only [← CoreOk.pc, ← Good.meOk, ← AddrOk.target, ← good_retire, ← good_retireTo]

theorem good_touch {s : State} (h : Good ib s) (r : RegionId) : Good ib (touch s r) := h.updCtl ..

theorem good_mgAdd {s : State} (h : Good ib s) (r : RegionId) (row : BitVec 5) (col slot : BitVec 6) (ctr : BitVec 5) :
    Good ib (mgAdd s r row col slot ctr) := h.updDbg ..

theorem good_absorbDone {s : State} (h : Good ib s) (r : RegionId) (lid : BitVec 6) (t : Token) : Good ib (absorbDone s r lid t) := by
  unfold absorbDone
  grind only [← Good.updFab, ← good_noteFault]

theorem good_storeTok {s : State} (h : Good ib s) (r : RegionId) (t : Token) (at_ : Word) (flips : BitVec 664) :
    OptGood ib (storeTok s r t at_ flips) := by
  unfold storeTok
  grind only [= optGood_some, optGood_none, ← Good.updFab, ← good_absorbDone, ← good_mgAdd]

theorem good_parkTok {s : State} (h : Good ib s) (r : RegionId) (debug : Bool) (dest : Option Dest) (t : Token) (flips : BitVec 664) :
    OptGood ib (parkTok s r debug dest t flips) := by
  unfold parkTok
  grind only [= optGood_some, optGood_none, ← Good.updFab]

theorem good_beginStop {s : State} (h : Good ib s) (r : RegionId) : Good ib (beginStop s r) := by
  unfold beginStop
  grind only [← Good.updDbg]

theorem good_cmpTrace {s : State} (h : Good ib s) (r : RegionId) (t : Token) (i : Nat) : Good ib (cmpTrace s r t i) := good_trace h ..

theorem good_debugPark {s : State} (h : Good ib s) (r : RegionId) (t : Token) : Good ib (debugPark s r t) := by
  unfold debugPark
  grind only [← Good.updFab, ← good_trace]

theorem good_cmpAct {x : State × Bool} (h : Good ib x.1) (r : RegionId) (t : Token) (i : Fin 16) : Good ib (cmpAct r t x i).1 := by
  unfold cmpAct
  grind only [← good_cmpTrace, ← good_debugPark, ← good_beginStop]

theorem good_cmpActs {x : State × Bool} (h : Good ib x.1) (r : RegionId) (t : Token) (l : List (Fin 16)) :
    Good ib (l.foldl (cmpAct r t) x).1 := by
  induction l generalizing x with
  | nil => exact h
  | cons i l ih => exact ih (good_cmpAct h r t i)

theorem good_deliverTok {s : State} (h : Good ib s) (r : RegionId) (t : Token) (flips : BitVec 664) :
    OptGood ib (deliverTok s r t flips) := by
  have hc := good_cmpActs (x := (s, false)) h r t ((List.finRange 16).filter (cmpMatches (s.dbg r) t))
  unfold deliverTok
  grind only [← good_parkTok, ← good_storeTok]

theorem good_arriveTok {s : State} (h : Good ib s) (r : RegionId) (t : Token) (flips : BitVec 664) :
    OptGood ib (arriveTok s r t flips) := by
  unfold arriveTok
  grind only [= optGood_some, ← good_deliverTok, ← good_parkTok]

theorem good_parityFault {s : State} (h : Good ib s) (r : RegionId) (row : BitVec 5) (col : BitVec 6) (t : Option Token) :
    Good ib (parityFault s r row col t) := by
  unfold parityFault
  grind only [← Good.updDie, ← good_recordFault]

theorem good_lastCheck {s : State} (h : Good ib s) (r : RegionId) (row : BitVec 5) (col : BitVec 6) (t : Token) (flips : BitVec 664) :
    Good ib (lastCheck s r row col t flips).2 := by
  unfold lastCheck
  grind only [← good_parityFault]

theorem good_checkParity {s : State} (h : Good ib s) (r : RegionId) (row : BitVec 5) (col : BitVec 6) (t : Token) (par : Flips) :
    Good ib (checkParity s r row col t par).2 := by
  unfold checkParity
  grind only [← good_lastCheck]

theorem good_restoreTok {s : State} (h : Good ib s) (r : RegionId) (p : ParkTok) : Good ib (restoreTok s r p) := by
  unfold restoreTok
  grind only [← Good.updFab, ← good_freeze, ← good_lastCheck, ← good_storeTok, OptGood.of_some]

theorem good_unpark {s : State} (h : Good ib s) (r : RegionId) (ctx : BitVec 12) (iter : BitVec 16) : Good ib (unpark s r ctx iter) := by
  unfold unpark
  grind only [← Good.updFab, ← Good.foldl, ← good_restoreTok, ← good_touch, ← good_trace]

theorem good_readyAgain {s : State} (h : Good ib s) (r : RegionId) (ops : List WaitTok) : Good ib (readyAgain s r ops) := h.updFab ..

theorem good_resolveAct {s : State} (h : Good ib s) (r : RegionId) (rec : ParkRec) (how : Resolve) :
    Good ib (resolveAct s r rec how) := by
  unfold resolveAct
  grind only [← Good.updFab, ← good_readyAgain, ← good_unpark]

theorem good_setOutq {s : State} (h : Good ib s) (r : RegionId) (row : BitVec 5) (col slot : BitVec 6) (q : List OutEntry) :
    Good ib (setOutq s r row col slot q) := by
  unfold setOutq
  grind only [← Good.updFab, ← Good.updNode]

theorem good_takeInput {s : State} (h : Good ib s) (r : RegionId) (row : BitVec 5) (col slot : BitVec 6) (act : BitVec 12 × BitVec 16) :
    Good ib (takeInput s r row col slot act) := h.updFab ..

theorem good_removeTok {s : State} (h : Good ib s) (r : RegionId) (a1 : TokSrc) : Good ib (removeTok s r a1) := by
  unfold removeTok
  grind only [← Good.updFab, ← good_setOutq, ← good_takeInput]

theorem good_scrubHead {s : State} (h : Good ib s) (n : Site) (i : BitVec 2) : Good ib (scrubHead s n i) := by
  unfold scrubHead
  grind only [← Good.updFab, ← good_lastCheck]

theorem good_noteSent {s : State} (h : Good ib s) (r : RegionId) (row : BitVec 5) (col : BitVec 6) (dir : Dir) :
    Good ib (noteSent s r row col dir) := h.updFab ..

theorem good_execTokenHop {s : State} (h : Good ib s) (r : RegionId) (src : TokSrc) (par : Flips) :
    OutGood ib (execTokenHop r src par s) := by
  unfold execTokenHop
  split
  · exact h
  · split
    · exact h
    · next t d row col _ =>
      split
      · exact h
      · next row' col' dir _ =>
        dsimp only
        split
        · exact h
        · have hl := good_lastCheck h r row col t par.queue
          generalize lastCheck s r row col t par.queue = y at hl
          obtain ⟨_ | t1, s2⟩ := y
          · exact good_removeTok hl r src
          · have hc := good_checkParity (good_noteSent (s := s2) hl r (BitVec.ofInt 5 row') (BitVec.ofInt 6 col') dir) r
              (BitVec.ofInt 5 row') (BitVec.ofInt 6 col') t1 par
            grind only [= outGood_next, ← Good.updFab, ← good_freeze, ← good_parkTok, OptGood.of_some, ← good_removeTok]

theorem good_orFreeze {s : State} {x : Option State} (h : Good ib s) (r : RegionId) (hx : OptGood ib x) :
    OutGood ib (orFreeze s r x) := by
  cases x with
  | none => exact good_freeze h r _ _
  | some t => exact hx

theorem good_noteDel {s : State} (h : Good ib s) (r : RegionId) (t : Token) (src : TokSrc) : Good ib (noteDel s r t src) := h.updFab ..

theorem good_execTokenDeliver {s : State} (h : Good ib s) (r : RegionId) (src : TokSrc) (par : Flips) :
    OutGood ib (execTokenDeliver r src par s) := by
  unfold execTokenDeliver
  split
  · exact h
  · split
    · split
      · split
        · exact h
        · grind only [= outGood_next, ← good_lastCheck, ← good_removeTok, ← good_orFreeze, ← good_arriveTok, ← good_noteDel]
      · split
        · exact h
        · split
          · exact h
          · grind only [= outGood_next, ← Good.updFab, ← good_lastCheck, ← good_removeTok]
    · exact h

theorem good_execSprueRefill {s : State} (h : Good ib s) (r : RegionId) (k : Nat) : OutGood ib (execSprueRefill r k s) := by
  unfold execSprueRefill
  grind only [= outGood_next, ← Good.updFab, ← good_lastCheck]

theorem good_execLoopDoneAbsorb {s : State} (h : Good ib s) (r : RegionId) (src : TokSrc) : OutGood ib (execLoopDoneAbsorb r src s) := by
  unfold execLoopDoneAbsorb
  grind only [= outGood_next, ← good_arriveTok, ← good_orFreeze, ← good_removeTok]

theorem good_execContextReturn {s : State} (h : Good ib s) (r : RegionId) (c : BitVec 12) : OutGood ib (execContextReturn r c s) := by
  unfold execContextReturn
  grind only [= outGood_next, ← Good.updFab]

end Sys2Proof.Machine
end

section
/-!
PROOFS. What every step keeps: firing of nodes, loads and stores, floating point and vector nodes.
-/

namespace Sys2Proof.Machine

open Sys2Proof

variable {ib : Bool}

theorem good_tookFree {s : State} (h : Good ib s) (n : Site) : Good ib (tookFree s n) := h.updNode ..

theorem good_eatPorts {s : State} (h : Good ib s) (n : Site) (ports : List (BitVec 2)) : Good ib (eatPorts s n ports) := h.updFab ..

theorem good_pushEntry {s : State} (h : Good ib s) (n : Site) (deps : List Dep) (after : Word) (input : Option (BitVec 12 × BitVec 16)) :
    Good ib (pushEntry s n deps after input) := by
  unfold pushEntry
  grind only [← Good.updFab]

theorem good_reserveEntry {s : State} (h : Good ib s) (n : Site) (block : BitVec 2) (deps : List Dep) :
    Good ib (reserveEntry s n block deps).2 := h.updFab ..

theorem good_fillEntry {s : State} (h : Good ib s) (r : RegionId) (id : Nat) (deps : List Dep) : Good ib (fillEntry s r id deps) := by
  unfold fillEntry
  grind only [← good_setOutq]

theorem good_logStore {s : State} (h : Good ib s) (n : Site) : MGood ib (logStore s n) := good_storeWords h ..

theorem good_updRun {s : State} (h : Good ib s) (r : RegionId) (f : LoggedRun → LoggedRun) : Good ib (updRun s r f) := by
  unfold updRun
  grind only [= good_mk_iff, ← Good.mem, ← Good.cores]

theorem good_mergeLog {s : State} (h : Good ib s) (n : Site) : Good ib (mergeLog s n) := by
  unfold mergeLog
  grind only [← Good.updDbg, ← good_logStore, MGood.of_ok, ← good_updRun]

theorem good_replayUse {s : State} (h : Good ib s) (n : Site) : Good ib (replayUse s n) := by
  unfold replayUse
  grind only [← Good.updDbg]

theorem good_sampleFire {s : State} (h : Good ib s) (n : Site) (t : Option Token) : Good ib (sampleFire s n t) := by
  unfold sampleFire
  grind only [← Good.updDbg, ← good_trace]

theorem good_sigCount {s : State} (h : Good ib s) (n : Site) (t : Option Token) : Good ib (sigCount s n t) := by
  unfold sigCount
  grind only [← good_mgAdd]

theorem good_waitCount {s : State} (h : Good ib s) (x : Firing) (eat : List (BitVec 2)) : Good ib (waitCount s x eat) := by
  unfold waitCount
  grind only [← good_mgAdd]

theorem good_noteFired {s : State} (h : Good ib s) (n : Site) : Good ib (noteFired s n) := h.updFab ..

theorem good_firedAt {s : State} (h : Good ib s) (n : Site) (trc : Bool) (t : Option Token) : Good ib (firedAt s n trc t) := by
  unfold firedAt
  grind only [← good_mergeLog, ← good_noteFired, ← good_replayUse, ← good_sampleFire, ← good_touch, ← good_trace]

theorem good_emitPend {s : State} (h : Good ib s) (opc : BitVec 8) (nf : NodeFields) (ds : List Dep) (rest : List (List Dep)) :
    Good ib (emitPend s opc nf ds rest) := by
  unfold emitPend
  grind only [← Good.updNode, ← good_firedAt, ← good_pushEntry, ← good_sigCount]

theorem good_noteChoice {s : State} (h : Good ib s) (n : Site) (what : Choice) : Good ib (noteChoice s n what) := by
  unfold noteChoice
  grind only [← Good.updDbg, ← good_updRun]

theorem good_notePorts {s : State} (h : Good ib s) (x : Firing) (eat : List (BitVec 2)) : Good ib (notePorts s x eat) := by
  unfold notePorts
  grind only [← good_noteChoice]

theorem good_holdFiring {s : State} (h : Good ib s) (x : Firing) (i : FaultInfo) : Good ib (holdFiring s x i) := by
  unfold holdFiring
  grind only [← Good.updFab, ← good_eatPorts, ← good_noteFired]

theorem good_parkFiring {s : State} (h : Good ib s) (x : Firing) (cause : BitVec 8) (i : FaultInfo) (t : Option Token) :
    Good ib (parkFiring s x cause i t) := by
  have hp := good_park (good_eatPorts h x.n (parkPorts x i)) x.n cause i ((parkPorts x i).filterMap (headOf (s.fab x.n.r) x.n))
  unfold parkFiring
  dsimp only
  generalize park _ _ _ _ _ = y at hp
  cases y with
  | parked u =>
    have hu : Good ib u := hp
    grind only [← good_noteChoice, ← good_noteFired, ← good_notePorts, ← good_sigCount]
  | full => grind only [← good_holdFiring]
  | overflow => grind only [← good_holdFiring, ← good_freeze]
  | held => exact good_holdFiring h x i

theorem good_finishFire {s : State} (h : Good ib s) (x : Firing) (eat : List (BitVec 2)) (dss : List (List Dep)) (t : Option Token)
    (after : Word) : Good ib (finishFire s x eat dss t after) := by
  unfold finishFire
  grind only [← Good.updNode, ← good_eatPorts, ← good_firedAt, ← good_notePorts, ← good_pushEntry, ← good_sigCount, ← good_waitCount]

theorem good_finish {s : State} {y : NodeRes} (h : Good ib s) (x : Firing) (hy : NodeGood ib y) : Good ib (y.finish s x) := by
  cases y with
  | wait => exact h
  | idle t => exact hy
  | park c i t => exact good_parkFiring h x c i t
  | sent t eat dss o => exact good_finishFire (s := t) hy x eat dss o 0
  | out t eat rs w => exact good_finishFire (s := t) hy x eat _ _ w

theorem good_scrubHeads {s : State} (h : Good ib s) (n : Site) (l : List (BitVec 2)) :
    Good ib (l.foldl (fun s i => scrubHead s n i) s) := h.foldl fun _ i ht => good_scrubHead ht n i

theorem good_fireFresh {s : State} {k : State → Firing → NodeRes} (h : Good ib s) (opc : BitVec 8) (nf : NodeFields)
    (hk : ∀ t x, Good ib t → NodeGood ib (k t x)) : Good ib (fireFresh s opc nf k) := by
  have hs := good_scrubHeads h s.site ((k s (firingAt s opc nf)).eats (firingAt s opc nf))
  unfold fireFresh
  dsimp only
  split
  · exact good_finish hs _ (hk _ _ hs)
  · exact good_finish h _ (hk _ _ h)

theorem good_fireNode {s : State} (h : Good ib s) (opc : BitVec 8) (nf : NodeFields) (k : State → Firing → NodeRes)
    (hk : ∀ x0 x1, Good ib x0 → NodeGood ib (k x0 x1)) : OutGood ib (fireNode s opc nf k) := by
  unfold fireNode
  grind only [= outGood_next, ← good_emitPend, ← good_fireFresh]

theorem good_oneOut {s : State} (h : Good ib s) (x : Firing) (t : Token) : NodeGood ib (oneOut s x t) := by
  unfold oneOut
  grind only [= nodeGood_out]

theorem good_noOut {s : State} (h : Good ib s) (x : Firing) : NodeGood ib (noOut s x) := by
  unfold noOut
  grind only [= nodeGood_out]

theorem good_errOut {s : State} (h : Good ib s) (x : Firing) (c : BitVec 8) : NodeGood ib (errOut s x c) := by
  unfold errOut
  grind only [← good_noteFault, ← good_oneOut]

theorem good_dataNode {s : State} (h : Good ib s) (x : Firing) (rf : BitVec 5) (ok : BitVec 2 → Token → Bool)
    (k : State → Firing → NodeRes) (hk : ∀ x0 x1, Good ib x0 → NodeGood ib (k x0 x1)) : NodeGood ib (dataNode s x rf ok k) := by
  unfold dataNode
  grind only [nodeGood_wait, ← good_errOut, ← good_oneOut]

theorem good_sigOut {s : State} (h : Good ib s) (x : Firing) (t : Token) : NodeGood ib (sigOut s x t) := by
  unfold sigOut
  grind only [nodeGood_park, ← good_oneOut]

theorem good_loadG {s : State} (h : Good ib s) (d a : Reg) (va : Word) (n : Nat) (f : Nat → Word) : OutGood ib (loadG s d a va n f) := by
  unfold loadG
  grind only [← good_coreLoad, ← good_needRegs, ← good_retireG]

theorem good_storeG {s : State} (h : Good ib s) (d a : Reg) (va : Word) (n : Nat) : OutGood ib (storeG s d a va n) := by
  unfold storeG
  grind only [← good_coreStore, ← good_needRegs, ← good_retire]

theorem good_execLd {s : State} (h : Good ib s) (d a : Reg) (off : BitVec 16) : OutGood ib (execLd d a off s) := good_loadG h ..

theorem good_execSd {s : State} (h : Good ib s) (d a : Reg) (off : BitVec 16) : OutGood ib (execSd d a off s) := good_storeG h ..

theorem good_execLb {s : State} (h : Good ib s) (d a : Reg) (off : BitVec 12) : OutGood ib (execLb d a off s) := good_loadG h ..

theorem good_execLbu {s : State} (h : Good ib s) (d a : Reg) (off : BitVec 12) : OutGood ib (execLbu d a off s) := good_loadG h ..

theorem good_execLh {s : State} (h : Good ib s) (d a : Reg) (off : BitVec 12) : OutGood ib (execLh d a off s) := good_loadG h ..

theorem good_execLhu {s : State} (h : Good ib s) (d a : Reg) (off : BitVec 12) : OutGood ib (execLhu d a off s) := good_loadG h ..

theorem good_execLw {s : State} (h : Good ib s) (d a : Reg) (off : BitVec 12) : OutGood ib (execLw d a off s) := good_loadG h ..

theorem good_execLwu {s : State} (h : Good ib s) (d a : Reg) (off : BitVec 12) : OutGood ib (execLwu d a off s) := good_loadG h ..

theorem good_execSb {s : State} (h : Good ib s) (d a : Reg) (off : BitVec 12) : OutGood ib (execSb d a off s) := good_storeG h ..

theorem good_execSh {s : State} (h : Good ib s) (d a : Reg) (off : BitVec 12) : OutGood ib (execSh d a off s) := good_storeG h ..

theorem good_execSw {s : State} (h : Good ib s) (d a : Reg) (off : BitVec 12) : OutGood ib (execSw d a off s) := good_storeG h ..

theorem good_execFlw {s : State} (h : Good ib s) (d a : Reg) (off : BitVec 12) : OutGood ib (execFlw d a off s) := by
  unfold execFlw
  grind only [← Good.wf, ← good_coreLoad, ← good_needRegs, ← good_retire]

theorem good_execFld {s : State} (h : Good ib s) (d a : Reg) (off : BitVec 12) : OutGood ib (execFld d a off s) := by
  unfold execFld
  grind only [← Good.wf, ← good_coreLoad, ← good_needRegs, ← good_retire]

theorem good_execFsw {s : State} (h : Good ib s) (d a : Reg) (off : BitVec 12) : OutGood ib (execFsw d a off s) := by
  unfold execFsw
  grind only [← good_coreStore, ← good_needRegs, ← good_retire]

theorem good_execFsd {s : State} (h : Good ib s) (d a : Reg) (off : BitVec 12) : OutGood ib (execFsd d a off s) := by
  unfold execFsd
  grind only [← good_coreStore, ← good_needRegs, ← good_retire]

theorem good_execFldt {s : State} (h : Good ib s) (d a : Reg) (f : FFmt) (off : BitVec 12) : OutGood ib (execFldt d a f off s) := by
  unfold execFldt
  grind only [← Good.wf, ← good_needRegs, ← good_onAccess, ← good_raise, ← good_readAt, ← good_retire, ← good_translate]

theorem good_execFsdt {s : State} (h : Good ib s) (d a : Reg) (off : BitVec 12) : OutGood ib (execFsdt d a off s) := by
  unfold execFsdt
  grind only [← good_needRegs, ← good_onAccess, ← good_raise, ← good_retire, ← good_translate, ← good_writeAt]

theorem good_execLda {s : State} (h : Good ib s) (d a : Reg) (off : BitVec 12) : OutGood ib (execLda d a off s) := by
  unfold execLda
  grind only [← good_acquireMe, ← good_coreLoad, ← good_needRegs, ← good_retireG]

theorem good_execStl {s : State} (h : Good ib s) (d a : Reg) (off : BitVec 12) : OutGood ib (execStl d a off s) := by
  unfold execStl
  refine good_needRegs h _ _ ?_
  dsimp only
  split
  · exact good_raise h _ _
  · refine good_onAccess h (good_translate h _ _ _) fun t s1 h1 => ?_
    split
    · exact good_raise h _ _
    · exact good_needSync h _ (good_onAccess h (good_writeAt (good_releaseMe h1) _ _ _ _ _) fun _ s2 h2 => good_retire (good_releaseMe h2))

theorem good_execFence {s : State} (h : Good ib s) (sc : Scope) : OutGood ib (execFence sc s) := by
  unfold execFence
  grind only [← Good.updMe, = coreOk_mk_iff, ← CoreOk.pc, ← CoreOk.ts, ← CoreOk.th, ← Good.meOk, ← good_acquireMe, ← good_needSync,
    ← good_releaseMe, ← good_retire]

theorem good_fpFinish {s : State} (h : Good ib s) (d : Reg) (bits : Nat) (fl : FpFlags) (tag : Nat) (xs : List Nat) :
    OutGood ib (fpFinish s d bits fl tag xs) := by
  unfold fpFinish
  grind only [← Good.updMe, ← Good.wf, = coreOk_mk_iff, ← CoreOk.pc, ← CoreOk.ts, ← CoreOk.th, ← Good.meOk, ← good_raise, ← good_retire]

theorem good_withMode {s : State} (h : Good ib s) (rm : RMode) (i : Instr) (k : RMode → Out) (hk : ∀ x0, OutGood ib (k x0)) :
    OutGood ib (withMode s rm i k) := by
  unfold withMode
  grind only [← good_raise]

theorem good_fpBin {s : State} (h : Good ib s) (d a b : Reg) (f : FFmt) (rm : RMode) (i : Instr) (op : RMode → FVal → FVal → Exact)
    (tag : FVal → FVal → Nat → Nat → Exact → FVal → Nat) : OutGood ib (fpBin s d a b f rm i op tag) := by
  unfold fpBin
  grind only [← good_fpFinish, ← good_withMode]

theorem good_execFadd {s : State} (h : Good ib s) (d a b : Reg) (rm : RMode) (f : FFmt) : OutGood ib (execFadd d a b rm f s) :=
  good_fpBin h ..

theorem good_execFsub {s : State} (h : Good ib s) (d a b : Reg) (rm : RMode) (f : FFmt) : OutGood ib (execFsub d a b rm f s) :=
  good_fpBin h ..

theorem good_execFmul {s : State} (h : Good ib s) (d a b : Reg) (rm : RMode) (f : FFmt) : OutGood ib (execFmul d a b rm f s) :=
  good_fpBin h ..

theorem good_execFdiv {s : State} (h : Good ib s) (d a b : Reg) (rm : RMode) (f : FFmt) : OutGood ib (execFdiv d a b rm f s) :=
  good_fpBin h ..

theorem good_execFsqrt {s : State} (h : Good ib s) (d a : Reg) (rm : RMode) (f : FFmt) : OutGood ib (execFsqrt d a rm f s) := by
  unfold execFsqrt
  grind only [← good_fpFinish, ← good_withMode]

theorem good_fpMinMax {s : State} (h : Good ib s) (max : Bool) (d a b : Reg) (f : FFmt) : OutGood ib (fpMinMax s max d a b f) := by
  unfold fpMinMax
  grind only [← good_fpFinish]

theorem good_execFmin {s : State} (h : Good ib s) (d a b : Reg) (f : FFmt) : OutGood ib (execFmin d a b f s) := good_fpMinMax h ..

theorem good_execFmax {s : State} (h : Good ib s) (d a b : Reg) (f : FFmt) : OutGood ib (execFmax d a b f s) := good_fpMinMax h ..

theorem good_execFsgn {s : State} (h : Good ib s) (d a b : Reg) (v : SgnVar) (f : FFmt) : OutGood ib (execFsgn d a b v f s) := by
  unfold execFsgn
  grind only [← good_fpFinish]

theorem good_execFcmp {s : State} (h : Good ib s) (d a b : Reg) (v : CmpVar) (f : FFmt) : OutGood ib (execFcmp d a b v f s) := by
  unfold execFcmp
  grind only [← Good.updMe, = coreOk_mk_iff, ← CoreOk.pc, ← CoreOk.ts, ← CoreOk.th, ← Good.meOk, ← good_needRegs, ← good_raise,
    ← good_retireG]

theorem good_execFrnd {s : State} (h : Good ib s) (d a : Reg) (rm : RMode) (f : FFmt) : OutGood ib (execFrnd d a rm f s) := by
  unfold execFrnd
  grind only [← good_fpFinish, ← good_withMode]

theorem good_fpFma {s : State} (h : Good ib s) (d a b c : Reg) (rm : RMode) (f : FFmt) (i : Instr) (neg : Bool) :
    OutGood ib (fpFma s d a b c rm f i neg) := by
  unfold fpFma
  grind only [← good_fpFinish, ← good_withMode]

theorem good_execFma {s : State} (h : Good ib s) (d a b c : Reg) (rm : RMode) (f : FFmt) : OutGood ib (execFma d a b c rm f s) :=
  good_fpFma h ..

theorem good_execFms {s : State} (h : Good ib s) (d a b c : Reg) (rm : RMode) (f : FFmt) : OutGood ib (execFms d a b c rm f s) :=
  good_fpFma h ..

theorem good_execFcvt {s : State} (h : Good ib s) (d a : Reg) (src dst : CvtTy) (rm : RMode) :
    OutGood ib (execFcvt d a src dst rm s) := by
  have hf (fl : FpFlags) : Good ib (s.updMe fun c => { c with fcsr := raiseFlags c.fcsr fl }) := h.updMe h.meOk
  unfold execFcvt
  split
  · exact good_withMode h _ _ _ fun m => good_fpFinish h _ _ _ _ _
  · refine good_needRegs h _ _ (good_withMode h _ _ _ fun m => ?_)
    dsimp only
    split
    · exact good_raise (hf _) _ _
    · exact good_retire ((hf _).wf _ _ _)
  · refine good_needRegs h _ _ (good_withMode h _ _ _ fun m => ?_)
    dsimp only
    split
    · exact good_raise (hf _) _ _
    · exact good_retireG (hf _) _ _
  · exact good_raise h _ _

theorem good_execFmvg {s : State} (h : Good ib s) (d a : Reg) (f : FFmt) : OutGood ib (execFmvg d a f s) := by
  unfold execFmvg
  grind only [← good_needRegs, ← good_retireG]

theorem good_execFmvf {s : State} (h : Good ib s) (d a : Reg) (f : FFmt) : OutGood ib (execFmvf d a f s) := by
  unfold execFmvf
  grind only [← Good.wf, ← good_needRegs, ← good_retire]

theorem good_execFsig {s : State} (h : Good ib s) (d a : Reg) (f : FFmt) : OutGood ib (execFsig d a f s) := by
  unfold execFsig
  grind only [← good_needRegs, ← good_retireG]

theorem good_execFsigset {s : State} (h : Good ib s) (d a : Reg) (f : FFmt) : OutGood ib (execFsigset d a f s) := by
  unfold execFsigset
  grind only [← Good.wf, ← good_needRegs, ← good_retire]

theorem good_fpNode {s : State} (h : Good ib s) (opc : BitVec 8) (nf : NodeFields) (lane : FloatFmt → List (FVal × Nat) → Nat × Nat) :
    OutGood ib (fpNode s opc nf lane) := by
  unfold fpNode
  grind only [← good_dataNode, ← good_fireNode, ← good_sigOut]

theorem good_execVadd {s : State} (h : Good ib s) (n : NodeFields) : OutGood ib (execVadd n s) := good_fpNode h ..

theorem good_execVsub {s : State} (h : Good ib s) (n : NodeFields) : OutGood ib (execVsub n s) := good_fpNode h ..

theorem good_execVmul {s : State} (h : Good ib s) (n : NodeFields) : OutGood ib (execVmul n s) := good_fpNode h ..

theorem good_execVfma {s : State} (h : Good ib s) (n : NodeFields) : OutGood ib (execVfma n s) := good_fpNode h ..

theorem good_execVmin {s : State} (h : Good ib s) (n : NodeFields) : OutGood ib (execVmin n s) := good_fpNode h ..

theorem good_execVmax {s : State} (h : Good ib s) (n : NodeFields) : OutGood ib (execVmax n s) := good_fpNode h ..

theorem good_execVabs {s : State} (h : Good ib s) (n : NodeFields) : OutGood ib (execVabs n s) := good_fpNode h ..

theorem good_execVneg {s : State} (h : Good ib s) (n : NodeFields) : OutGood ib (execVneg n s) := good_fpNode h ..

theorem good_execVdiv {s : State} (h : Good ib s) (n : NodeFields) : OutGood ib (execVdiv n s) := good_fpNode h ..

theorem good_execVsqrt {s : State} (h : Good ib s) (n : NodeFields) : OutGood ib (execVsqrt n s) := good_fpNode h ..

theorem good_execVrsq {s : State} (h : Good ib s) (n : NodeFields) : OutGood ib (execVrsq n s) := good_fpNode h ..

theorem good_execVrcp {s : State} (h : Good ib s) (n : NodeFields) : OutGood ib (execVrcp n s) := good_fpNode h ..

theorem good_execVexp2 {s : State} (h : Good ib s) (n : NodeFields) : OutGood ib (execVexp2 n s) := good_fpNode h ..

theorem good_execVlog2 {s : State} (h : Good ib s) (n : NodeFields) : OutGood ib (execVlog2 n s) := good_fpNode h ..

theorem good_execVtanh {s : State} (h : Good ib s) (n : NodeFields) : OutGood ib (execVtanh n s) := good_fpNode h ..

theorem good_intNode {s : State} (h : Good ib s) (opc : BitVec 8) (nf : NodeFields) (lane : Nat → Bool → Nat → Nat → Nat) :
    OutGood ib (intNode s opc nf lane) := by
  unfold intNode
  grind only [← good_dataNode, ← good_fireNode, ← good_oneOut]

theorem good_execViadd {s : State} (h : Good ib s) (n : NodeFields) : OutGood ib (execViadd n s) := good_intNode h ..

theorem good_execVisub {s : State} (h : Good ib s) (n : NodeFields) : OutGood ib (execVisub n s) := good_intNode h ..

theorem good_execVimul {s : State} (h : Good ib s) (n : NodeFields) : OutGood ib (execVimul n s) := good_intNode h ..

theorem good_bitNode {s : State} (h : Good ib s) (opc : BitVec 8) (nf : NodeFields) (op : BitVec 512 → BitVec 512 → BitVec 512)
    (ops : BitVec 64 → BitVec 64 → BitVec 64) : OutGood ib (bitNode s opc nf op ops) := by
  unfold bitNode
  grind only [← good_dataNode, ← good_fireNode, ← good_oneOut]

theorem good_execVand {s : State} (h : Good ib s) (n : NodeFields) : OutGood ib (execVand n s) := good_bitNode h ..

theorem good_execVor {s : State} (h : Good ib s) (n : NodeFields) : OutGood ib (execVor n s) := good_bitNode h ..

theorem good_execVxor {s : State} (h : Good ib s) (n : NodeFields) : OutGood ib (execVxor n s) := good_bitNode h ..

theorem good_execVshl {s : State} (h : Good ib s) (n : NodeFields) : OutGood ib (execVshl n s) := good_intNode h ..

theorem good_execVshr {s : State} (h : Good ib s) (n : NodeFields) : OutGood ib (execVshr n s) := good_intNode h ..

theorem good_execVcmp {s : State} (h : Good ib s) (n : NodeFields) : OutGood ib (execVcmp n s) := by
  unfold execVcmp
  grind only [← good_dataNode, ← good_fireNode, ← good_oneOut]

theorem good_execVsel {s : State} (h : Good ib s) (n : NodeFields) : OutGood ib (execVsel n s) := by
  unfold execVsel
  grind only [← good_dataNode, ← good_fireNode, ← good_oneOut]

theorem good_redNode {s : State} (h : Good ib s) (opc : BitVec 8) (nf : NodeFields) (op : Elt → Elt → Elt) :
    OutGood ib (redNode s opc nf op) := by
  unfold redNode
  grind only [← good_dataNode, ← good_fireNode, ← good_sigOut]

theorem good_execVrsum {s : State} (h : Good ib s) (n : NodeFields) : OutGood ib (execVrsum n s) := good_redNode h ..

theorem good_execVrmax {s : State} (h : Good ib s) (n : NodeFields) : OutGood ib (execVrmax n s) := good_redNode h ..

theorem good_execVrmin {s : State} (h : Good ib s) (n : NodeFields) : OutGood ib (execVrmin n s) := good_redNode h ..

theorem good_execVargmx {s : State} (h : Good ib s) (n : NodeFields) : OutGood ib (execVargmx n s) := by
  unfold execVargmx
  grind only [← good_dataNode, ← good_fireNode, ← good_oneOut]

theorem good_execVscan {s : State} (h : Good ib s) (n : NodeFields) : OutGood ib (execVscan n s) := by
  unfold execVscan
  grind only [← good_dataNode, ← good_fireNode, ← good_sigOut]

theorem good_execVperm {s : State} (h : Good ib s) (n : NodeFields) : OutGood ib (execVperm n s) := by
  unfold execVperm
  grind only [← good_dataNode, ← good_errOut, ← good_fireNode, ← good_oneOut]

theorem good_execVbcast {s : State} (h : Good ib s) (n : NodeFields) : OutGood ib (execVbcast n s) := by
  unfold execVbcast
  grind only [← good_dataNode, ← good_fireNode, ← good_oneOut]

theorem good_execVpopc {s : State} (h : Good ib s) (n : NodeFields) : OutGood ib (execVpopc n s) := by
  unfold execVpopc
  grind only [← good_dataNode, ← good_fireNode, ← good_oneOut]

theorem good_execBfly {s : State} (h : Good ib s) (n : NodeFields) : OutGood ib (execBfly n s) := by
  unfold execBfly
  grind only [← good_dataNode, ← good_fireNode, ← good_sigOut]

theorem good_execVsig {s : State} (h : Good ib s) (n : NodeFields) : OutGood ib (execVsig n s) := by
  unfold execVsig
  grind only [← good_dataNode, ← good_fireNode, ← good_oneOut]

theorem good_execSigchk {s : State} (h : Good ib s) (n : NodeFields) : OutGood ib (execSigchk n s) := by
  unfold execSigchk
  refine good_fireNode h _ _ _ fun t x ht => good_dataNode ht x _ _ _ fun t x ht => ?_
  grind only [← good_oneOut, nodeGood_park]

end Sys2Proof.Machine
end

section
/-!
PROOFS. What every step keeps: flow nodes, contexts and passes.
-/

namespace Sys2Proof.Machine

open Sys2Proof

variable {ib : Bool}

theorem good_errEat {s : State} (h : Good ib s) (x : Firing) (eat : List (BitVec 2)) (c : BitVec 8) : NodeGood ib (errEat s x eat c) := by
  unfold errEat
  grind only [= nodeGood_out, ← good_noteFault]

theorem good_flowChecked {s : State} (h : Good ib s) (x : Firing) (eat : List (BitVec 2)) (k : NodeRes) (hk : NodeGood ib k) :
    NodeGood ib (flowChecked s x eat k) := by
  unfold flowChecked
  grind only [← good_errEat]

theorem good_flowNode {s : State} {k : State → Firing → NodeRes} (h : Good ib s) (opc : BitVec 8) (nf : NodeFields)
    (hk : ∀ t x, Good ib t → NodeGood ib (k t x)) : OutGood ib (flowNode s opc nf k) := by
  unfold flowNode
  refine good_fireNode h _ _ _ fun t x ht => ?_
  split
  · exact good_flowChecked ht x _ _ (hk t x ht)
  · trivial

theorem good_flowOut {s : State} (h : Good ib s) (x : Firing) (p : Pair) : NodeGood ib (flowOut s x p) := by
  unfold flowOut
  grind only [= nodeGood_out]

theorem good_execSteer {s : State} (h : Good ib s) (n : NodeFields) : OutGood ib (execSteer n s) := by
  unfold execSteer
  refine good_fireNode h _ _ _ fun s x h => ?_
  grind only [= nodeGood_out, nodeGood_wait, ← good_flowChecked, ← good_flowOut, ← good_oneOut]

theorem good_execNext {s : State} (h : Good ib s) (n : NodeFields) : OutGood ib (execNext n s) := by
  unfold execNext
  refine good_flowNode h _ _ fun s x h => ?_
  grind only [nodeGood_wait, ← good_flowOut, ← good_oneOut]

theorem good_execSelx {s : State} (h : Good ib s) (n : NodeFields) : OutGood ib (execSelx n s) := by
  unfold execSelx
  refine good_flowNode h _ _ fun s x h => ?_
  grind only [nodeGood_wait, ← good_errOut, ← good_oneOut]

theorem good_execSwitch {s : State} (h : Good ib s) (n : NodeFields) : OutGood ib (execSwitch n s) := by
  unfold execSwitch
  refine good_flowNode h _ _ fun s x h => ?_
  grind only [= nodeGood_out, nodeGood_wait, = nodeGood_sent, ← good_flowOut, ← good_noteFault]

theorem good_ordFire {s : State} (h : Good ib s) (opc : BitVec 8) (n : NodeFields) (x : Firing) (i : BitVec 2) :
    NodeGood ib (ordFire s opc n x i) := by
  unfold ordFire
  grind only [= nodeGood_out, nodeGood_wait, = nodeGood_idle, ← Good.updNode, ← good_errEat]

theorem good_orElseRes {s : State} (h : Good ib s) (a : NodeRes) (b : State → NodeRes) (ha : NodeGood ib a)
    (hb : ∀ x0, Good ib x0 → NodeGood ib (b x0)) : NodeGood ib (orElseRes s a b) := by
  unfold orElseRes
  grind only [= nodeGood_idle]

theorem good_execMerge {s : State} (h : Good ib s) (n : NodeFields) : OutGood ib (execMerge n s) := by
  unfold execMerge
  refine good_fireNode h _ _ _ fun s x h => ?_
  grind only [= nodeGood_out, nodeGood_wait, ← good_flowChecked, ← good_orElseRes, ← good_ordFire]

theorem good_execReord {s : State} (h : Good ib s) (n : NodeFields) : OutGood ib (execReord n s) := by
  unfold execReord
  refine good_fireNode h _ _ _ fun s x h => ?_
  grind only [← good_ordFire]

theorem good_execReorderDueEmit {s : State} (h : Good ib s) (n : Site) : OutGood ib (execReorderDueEmit n s) := by
  have h1 : Good ib ({ s with site := n } : State) := h
  unfold execReorderDueEmit
  dsimp only
  split
  · split
    · split
      · split
        · exact good_finishFire (h1.updNode n _) _ _ _ _ _
        · exact h1
      · exact h1
    · exact h1
  · exact h1

theorem good_sweepBarriers {s : State} (h : Good ib s) (r : RegionId) (k : BitVec 6) : Good ib (sweepBarriers s r k) := h.updFab ..

theorem good_noteCoh {s : State} (h : Good ib s) (r : RegionId) (k : BitVec 6) (arrival : Bool) : Good ib (noteCoh s r k arrival) :=
  h.updFab ..

theorem good_leaveCohorts {s : State} (h : Good ib s) (r : RegionId) (gone : BitVec 12 × BitVec 16 → Bool) :
    Good ib (leaveCohorts s r gone) := by
  unfold leaveCohorts
  grind only [← Good.updFab, ← Good.foldl, ← good_noteCoh, ← good_sweepBarriers]

theorem good_closeBinding {s : State} (h : Good ib s) (r : RegionId) (c : BitVec 12) (id : Option Nat) :
    Good ib (closeBinding s r c id) := by
  unfold closeBinding
  grind only [← Good.updFab, ← good_leaveCohorts]

theorem good_addBinding {s : State} (h : Good ib s) (n : Site) (b : Binding) : Good ib (addBinding s n b) := by
  unfold addBinding
  grind only [← Good.updFab, ← good_noteChoice, ← good_tookFree]

theorem good_dryDraw {s : State} (h : Good ib s) (x : Firing) (t : Token) (held : Bool) : NodeGood ib (dryDraw s x t held) := by
  unfold dryDraw
  grind only [= nodeGood_out, nodeGood_wait, nodeGood_park, ← Good.updNode, ← good_noteChoice]

theorem good_dropHeld {s : State} (h : Good ib s) (n : Site) (held : Bool) : Good ib (dropHeld s n held) := by
  unfold dropHeld
  grind only [← Good.updNode]

theorem good_loopEnter {s : State} (h : Good ib s) (n : NodeFields) (x : Firing) (t : Token) (held : Bool) :
    NodeGood ib (loopEnter s n x t held) := by
  unfold loopEnter
  grind only [= nodeGood_out, nodeGood_wait, ← good_addBinding, ← good_dropHeld, ← good_dryDraw, ← good_errEat]

theorem good_loopBack {s : State} (h : Good ib s) (n : NodeFields) (x : Firing) (t : Token) : NodeGood ib (loopBack s n x t) := by
  unfold loopBack
  grind only [= nodeGood_out, nodeGood_wait, ← good_errEat]

theorem good_execLoop {s : State} (h : Good ib s) (n : NodeFields) : OutGood ib (execLoop n s) := by
  unfold execLoop
  refine good_fireNode h _ _ _ fun s x h => ?_
  grind only [nodeGood_wait, ← good_flowChecked, ← good_loopBack, ← good_loopEnter, ← good_orElseRes]

theorem good_execLexit {s : State} (h : Good ib s) (n : NodeFields) : OutGood ib (execLexit n s) := by
  unfold execLexit
  refine good_flowNode h _ _ fun s x h => ?_
  grind only [nodeGood_wait, = nodeGood_sent, ← Good.updFab, ← good_closeBinding, ← good_errOut]

theorem good_callEnter {s : State} (h : Good ib s) (n : NodeFields) (x : Firing) (t : Token) (held : Bool) :
    NodeGood ib (callEnter s n x t held) := by
  unfold callEnter
  grind only [= nodeGood_out, nodeGood_wait, ← good_addBinding, ← good_dropHeld, ← good_dryDraw]

theorem good_execCall {s : State} (h : Good ib s) (n : NodeFields) : OutGood ib (execCall n s) := by
  unfold execCall
  refine good_fireNode h _ _ _ fun s x h => ?_
  grind only [nodeGood_wait, ← good_callEnter, ← good_flowChecked]

theorem good_execRet {s : State} (h : Good ib s) (n : NodeFields) : OutGood ib (execRet n s) := by
  unfold execRet
  refine good_flowNode h _ _ fun s x h => ?_
  grind only [nodeGood_wait, = nodeGood_sent, ← good_closeBinding, ← good_errOut]

theorem good_execCtxwaitExpiry {s : State} (h : Good ib s) (n : Site) : OutGood ib (execCtxwaitExpiry n s) := by
  unfold execCtxwaitExpiry
  split
  · dsimp only
    split
    · split
      · next u hu =>
        have hp : ParkedGood ib (.parked u) := hu ▸ good_park (good_dropHeld h n true) _ _ _ _
        exact good_noteChoice (s := u) hp n _
      · exact h
      · exact h
      · exact good_freeze h _ _ _
    · exact h
  · exact h

theorem good_execStopg {s : State} (h : Good ib s) (n : NodeFields) : OutGood ib (execStopg n s) := by
  unfold execStopg
  refine good_flowNode h _ _ fun s x h => ?_
  grind only [= nodeGood_out, nodeGood_wait, ← good_noOut, ← good_oneOut]

theorem good_execDelay {s : State} (h : Good ib s) (n : NodeFields) : OutGood ib (execDelay n s) := by
  unfold execDelay
  refine good_flowNode h _ _ fun s x h => ?_
  grind only [= nodeGood_out, nodeGood_wait]

theorem good_execDelayRelease {s : State} (h : Good ib s) (n : Site) : OutGood ib (execDelayRelease n s) := by
  unfold execDelayRelease
  grind only [= outGood_next, ← Good.updFab]

theorem good_execSink {s : State} (h : Good ib s) (n : NodeFields) : OutGood ib (execSink n s) := by
  unfold execSink
  refine good_fireNode h _ _ _ fun s x h => ?_
  grind only [nodeGood_wait, ← Good.updNode, ← good_errOut, ← good_flowChecked, ← good_noOut]

theorem good_execDup {s : State} (h : Good ib s) (n : NodeFields) : OutGood ib (execDup n s) := by
  unfold execDup
  refine good_flowNode h _ _ fun s x h => ?_
  grind only [= nodeGood_out, nodeGood_wait]

theorem good_setCnt {s : State} (h : Good ib s) (n : Site) (v : BitVec 32 × Nat) : Good ib (setCnt s n v) := h.updFab ..

theorem good_cntFire {s : State} (h : Good ib s) (n : NodeFields) (x : Firing) (i : BitVec 2) : NodeGood ib (cntFire s n x i) := by
  unfold cntFire
  grind only [= nodeGood_out, nodeGood_wait, ← good_errEat, ← good_flowChecked, ← good_setCnt]

theorem good_execCnt {s : State} (h : Good ib s) (n : NodeFields) : OutGood ib (execCnt n s) := by
  unfold execCnt
  refine good_fireNode h _ _ _ fun s x h => ?_
  grind only [nodeGood_wait, ← good_cntFire]

theorem good_execConst {s : State} (h : Good ib s) (n : NodeFields) : OutGood ib (execConst n s) := by
  unfold execConst
  refine good_fireNode h _ _ _ fun s x h => ?_
  grind only [= nodeGood_out, nodeGood_wait, ← Good.updNode, ← good_flowChecked, ← good_oneOut, ← good_tookFree]

theorem good_execCjoin {s : State} (h : Good ib s) (n : NodeFields) : OutGood ib (execCjoin n s) := by
  unfold execCjoin
  refine good_flowNode h _ _ fun s x h => ?_
  grind only [nodeGood_wait, ← Good.updFab, ← good_oneOut, ← good_sweepBarriers]

theorem good_execCleave {s : State} (h : Good ib s) (n : NodeFields) : OutGood ib (execCleave n s) := by
  unfold execCleave
  refine good_flowNode h _ _ fun s x h => ?_
  grind only [nodeGood_wait, ← Good.updFab, ← good_noteCoh, ← good_oneOut, ← good_sweepBarriers]

theorem good_execCbar {s : State} (h : Good ib s) (n : NodeFields) : OutGood ib (execCbar n s) := by
  unfold execCbar
  refine good_flowNode h _ _ fun s x h => ?_
  grind only [nodeGood_wait, = nodeGood_sent, ← Good.updNode, ← good_noteCoh, ← good_oneOut, ← good_sweepBarriers]

theorem good_ctrStart {s : State} (h : Good ib s) (n : NodeFields) (x : Firing) (e d : Token) : NodeGood ib (ctrStart s n x e d) := by
  unfold ctrStart
  grind only [= nodeGood_out, ← Good.updNode, ← good_tookFree]

theorem good_execCtr {s : State} (h : Good ib s) (n : NodeFields) : OutGood ib (execCtr n s) := by
  unfold execCtr
  refine good_fireNode h _ _ _ fun s x h => ?_
  grind only [= nodeGood_out, nodeGood_wait, ← Good.updNode, ← good_ctrStart, ← good_errEat, ← good_flowChecked]

theorem good_chainEmit {s : State} (h : Good ib s) (n : Site) (nf : NodeFields) (t0 t1 : Option Token) :
    Good ib (chainEmit s n nf t0 t1) := by
  unfold chainEmit
  grind only [← good_pushEntry, ← good_touch]

theorem good_setPass {s : State} (h : Good ib s) (n : Site) (p : Option Pass) : Good ib (setPass s n p) := h.updNode ..

theorem good_ctrEmit {s : State} (h : Good ib s) (n : Site) (nf : NodeFields) (p : Pass) : Good ib (ctrEmit s n nf p) := by
  unfold ctrEmit
  grind only [← good_chainEmit, ← good_setPass, ← good_tookFree]

theorem good_slSpecial {s : State} (h : Good ib s) (x : Firing) (eat : List (BitVec 2)) : OptNodeGood ib (slSpecial s x eat) := by
  unfold slSpecial
  dsimp only
  split
  · exact h
  · split
    · cases x.toks.head? with
      | none => trivial
      | some t => exact h
    · grind only [= optNodeGood_some, optNodeGood_none, = nodeGood_out, ← good_errEat]

theorem good_slStart {s : State} (h : Good ib s) (n : NodeFields) (x : Firing) : NodeGood ib (slStart s n x) := by
  unfold slStart
  grind only [= nodeGood_out, nodeGood_wait, ← good_setPass, ← good_slSpecial, OptNodeGood.of_some]

theorem good_slLeaf {s : State} (h : Good ib s) (n : NodeFields) (x : Firing) (p : Pass) : NodeGood ib (slLeaf s n x p) := by
  unfold slLeaf
  split
  · trivial
  · dsimp only
    generalize hr : slSpecial s _ _ = r
    have hs : OptNodeGood ib r := hr ▸ good_slSpecial h _ _
    clear hr
    cases r with
    | none => grind only [= nodeGood_out, nodeGood_wait, ← good_setPass]
    | some r =>
      have hn : NodeGood ib r := hs
      cases r with
      | out s' e rs w =>
        have h' : Good ib s' := hn
        grind only [= nodeGood_out, nodeGood_wait, ← good_setPass]
      | wait | idle | sent | park => grind only [nodeGood_wait]

theorem good_execSloop {s : State} (h : Good ib s) (n : NodeFields) : OutGood ib (execSloop n s) := by
  unfold execSloop
  refine good_fireNode h _ _ _ fun s x h => ?_
  grind only [nodeGood_wait, ← good_slLeaf, ← good_slStart]

theorem good_slEmit {s : State} (h : Good ib s) (n : Site) (nf : NodeFields) (p : Pass) : Good ib (slEmit s n nf p) := by
  unfold slEmit
  grind only [← good_chainEmit, ← good_setPass]

theorem good_execCounterChainEmit {s : State} (h : Good ib s) (n : Site) : OutGood ib (execCounterChainEmit n s) := by
  unfold execCounterChainEmit
  grind only [= outGood_next, ← good_ctrEmit, ← good_slEmit]

theorem good_setFibre {s : State} (h : Good ib s) (n : Site) (f : Fibre) : Good ib (setFibre s n f) := h.updNode ..

theorem good_dropFibre {s : State} (h : Good ib s) (n : Site) : Good ib (dropFibre s n) := h.updNode ..

theorem good_fibEnd {s : State} (h : Good ib s) (n : NodeFields) (x : Firing) (f : Fibre) (w : WalkEnd) :
    NodeGood ib (fibEnd s n x f w) := by
  unfold fibEnd
  grind only [= nodeGood_out, ← good_errEat, ← good_setFibre]

theorem good_fibHead {s : State} (h : Good ib s) (n : NodeFields) (x : Firing) (f : Fibre) (i : BitVec 2) (t : Token) :
    OptNodeGood ib (fibHead s n x f i t) := by
  unfold fibHead
  grind only [= optNodeGood_some, optNodeGood_none, = nodeGood_out, ← good_errEat, ← good_setFibre]

theorem OptNodeGood.orElse {x : Option NodeRes} {y : Unit → Option NodeRes} (hx : OptNodeGood ib x) (hy : OptNodeGood ib (y ())) :
    OptNodeGood ib (x.orElse y) := by
  cases x with
  | none => exact hy
  | some r => exact hx

theorem good_fibNode {s : State} (h : Good ib s) (opc : BitVec 8) (n : NodeFields) (union : Bool) :
    OutGood ib (fibNode s opc n union) := by
  unfold fibNode
  refine good_fireNode h _ _ _ fun s x h => ?_
  split
  · trivial
  · split
    · next a b _ _ =>
      have hh := OptNodeGood.orElse (good_fibHead h n x (fibreOf (s.node x.n) x.n) 0 a)
        (y := fun _ => fibHead s n x (fibreOf (s.node x.n) x.n) 1 b) (good_fibHead h n x (fibreOf (s.node x.n) x.n) 1 b)
      dsimp only
      split
      · next r hr => exact (hr ▸ hh : OptNodeGood ib (some r))
      · grind only [= nodeGood_out, ← good_errEat, ← good_setFibre, ← good_dropFibre, ← good_fibEnd]
    · trivial

theorem good_execIsect {s : State} (h : Good ib s) (n : NodeFields) : OutGood ib (execIsect n s) := good_fibNode h ..

theorem good_execUnion {s : State} (h : Good ib s) (n : NodeFields) : OutGood ib (execUnion n s) := good_fibNode h ..

end Sys2Proof.Machine
end

section
/-!
PROOFS. What every step keeps: conversion nodes, image loads and memory nodes.
-/

namespace Sys2Proof.Machine

open Sys2Proof

variable {ib : Bool}

theorem good_setLfsr {s : State} (h : Good ib s) (n : Site) (v : BitVec 32) : Good ib (setLfsr s n v) := h.updFab ..

theorem good_convertNode {s : State} (h : Good ib s) (opc : BitVec 8) (n : NodeFields) : OutGood ib (convertNode s opc n) := by
  unfold convertNode
  refine good_fireNode h _ _ _ fun s x h => ?_
  grind only [← good_dataNode, ← good_sigOut]

theorem good_execVcvt {s : State} (h : Good ib s) (n : NodeFields) : OutGood ib (execVcvt n s) := good_convertNode h ..

theorem good_execDq {s : State} (h : Good ib s) (n : NodeFields) : OutGood ib (execDq n s) := good_convertNode h ..

theorem good_seedLoad {s : State} (h : Good ib s) (x : Firing) (k : NodeRes) (hk : NodeGood ib k) : NodeGood ib (seedLoad s x k) := by
  unfold seedLoad
  grind only [← good_dataNode, ← good_noOut, ← good_setLfsr]

theorem good_qzEmit {s : State} (h : Good ib s) (x : Firing) (toks : List Token) : NodeGood ib (qzEmit s x toks) := by
  unfold qzEmit
  grind only [nodeGood_park, ← Good.updNode, ← good_oneOut, ← good_setLfsr]

theorem good_execQz {s : State} (h : Good ib s) (n : NodeFields) : OutGood ib (execQz n s) := by
  unfold execQz
  refine good_fireNode h _ _ _ fun s x h => ?_
  grind only [nodeGood_wait, ← Good.updNode, ← good_dataNode, ← good_noOut, ← good_qzEmit, ← good_seedLoad]

theorem good_execCv8 {s : State} (h : Good ib s) (n : NodeFields) : OutGood ib (execCv8 n s) := by
  unfold execCv8
  refine good_fireNode h _ _ _ fun s x h => ?_
  grind only [nodeGood_park, ← good_dataNode, ← good_oneOut, ← good_seedLoad, ← good_setLfsr]

theorem good_onOp {s : State} (h : Good ib s) (k : Nat) (f : Op → Out) (hf : ∀ x0, OutGood ib (f x0)) : OutGood ib (onOp s k f) := by
  unfold onOp
  grind only [= outGood_next]

theorem good_onEngine {α : Type} {s0 : State} (h : Good ib s0) (o : Op) (r : MRes α) (k : α → State → Out) (hr : MGood ib r)
    (hk : ∀ a t, Good ib t → OutGood ib (k a t)) : OutGood ib (onEngine s0 o r k) := by
  unfold onEngine
  cases r with
  | ok a t => exact hk a t hr
  | trap c v => exact good_finishOp h o _
  | wait => exact h

theorem good_engineStore {s : State} (h : Good ib s) (o : Op) (x : Ctx) (va : Word) (bs : List Byte) (k : State → Out)
    (hk : ∀ x0, Good ib x0 → OutGood ib (k x0)) : OutGood ib (engineStore s o x va bs k) := by
  unfold engineStore
  grind only [= outGood_next, ← good_finishOp, ← good_storeBytes, MGood.of_ok]

theorem good_copyData {s : State} (h : Good ib s) (o : Op) (rec : LoadRec) (l : List (Word × List Byte)) :
    OutGood ib (copyData s o rec l) := by
  induction l generalizing s o with
  | nil => exact good_finishOp (s := s.updPart _ _) h o 1
  | cons d ds ih => exact good_engineStore h o _ _ _ _ fun t ht => ih (good_putOp ht _) _

theorem good_execLoadimg {s : State} (h : Good ib s) (d a : Reg) : OutGood ib (execLoadimg d a s) := by
  unfold execLoadimg
  grind only [← good_endNow, ← good_issue, ← good_start]

theorem good_readImage {s : State} (h : Good ib s) (x : Ctx) (va : Word) : MGood ib (readImage s x va) := by
  unfold readImage
  grind only [← good_loadBytes, ← MGood.bind]

theorem good_execLoadimgComplete {s : State} (h : Good ib s) (k : Nat) : OutGood ib (execLoadimgComplete k s) := by
  unfold execLoadimgComplete
  grind only [= outGood_next, ← good_copyData, ← good_finishOp, ← good_onEngine, ← good_onOp, ← good_putOp, ← good_readImage]

theorem good_memRules {s : State} (h : Good ib s) (x : Firing) (stops : Bool) (k : State → Firing → NodeRes)
    (hk : ∀ x0 x1, Good ib x0 → NodeGood ib (k x0 x1)) : NodeGood ib (memRules s x stops k) := by
  unfold memRules
  grind only [nodeGood_wait, ← good_errOut, ← good_flowOut, ← good_oneOut]

theorem good_memNode {s : State} (h : Good ib s) (opc : BitVec 8) (nf : NodeFields) (stops : Bool) (k : State → Firing → NodeRes)
    (hk : ∀ x0 x1, Good ib x0 → NodeGood ib (k x0 x1)) : OutGood ib (memNode s opc nf stops k) := by
  unfold memNode
  refine good_fireNode h _ _ _ fun s x h => ?_
  grind only [← good_memRules]

theorem good_placePiece {s : State} (h : Good ib s) (x : Firing) (space : BitVec 2) (va : Word) (n off : Nat) :
    MGood ib (placePiece s x space va n off) := by
  unfold placePiece
  grind only [= mGood_ok, mGood_trap, ← good_translate, ← MGood.bind]

theorem good_placeAll {s : State} (h : Good ib s) (x : Firing) (space : BitVec 2) (l : List (Word × Nat × Nat)) :
    MGood ib (placeAll s x space l) := by
  induction l generalizing s with
  | nil => exact h
  | cons d ds ih => exact (good_placePiece h x space _ _ _).bind fun _ _ ht => (ih ht).bind fun _ _ hu => hu

theorem good_accDone {s : State} (h : Good ib s) (a : Acc) : Good ib (accDone s a) := by
  unfold accDone
  grind only [← Good.updFab, ← good_fillEntry, ← good_killDone, ← good_sigCount, ← good_touch]

theorem good_startAcc {s : State} (h : Good ib s) (x : Firing) (ps : List Piece) (deps : List Dep) :
    NodeGood ib (startAcc s x ps deps) := by
  unfold startAcc
  grind only [← Good.updFab, ← good_accDone, ← good_noOut, ← good_pushEntry, ← good_reserveEntry]

theorem good_tryAcc {s : State} (h : Good ib s) (x : Firing) (ps : List (Word × Nat × Nat)) (deps : List Dep) :
    NodeGood ib (tryAcc s x ps deps) := by
  unfold tryAcc
  grind only [nodeGood_wait, nodeGood_park, ← good_placeAll, MGood.of_ok, ← good_startAcc]

theorem good_addrNode {s : State} (h : Good ib s) (opc : BitVec 8) (nf : NodeFields) (k : State → Firing → Token → NodeRes)
    (hk : ∀ t x a, Good ib t → NodeGood ib (k t x a)) : OutGood ib (addrNode s opc nf k) := by
  unfold addrNode
  refine good_memNode h _ _ _ _ fun t x ht => ?_
  grind only [nodeGood_wait, ← good_errOut, ← good_oneOut]

theorem good_execLdn {s : State} (h : Good ib s) (n : NodeFields) : OutGood ib (execLdn n s) := by
  unfold execLdn
  refine good_addrNode h _ _ _ fun t x a ht => ?_
  grind only [nodeGood_park, ← good_tryAcc]

theorem good_startOmf {s : State} (h : Good ib s) (x : Firing) (va : Word) (deps : List Dep) : NodeGood ib (startOmf s x va deps) := by
  unfold startOmf
  grind only [nodeGood_park, ← good_startAcc]

theorem good_execStn {s : State} (h : Good ib s) (n : NodeFields) : OutGood ib (execStn n s) := by
  unfold execStn
  refine good_addrNode h _ _ _ fun t x a ht => ?_
  grind only [nodeGood_wait, nodeGood_park, ← good_errOut, ← good_startOmf, ← good_tryAcc]

theorem good_gatherNode {s : State} (h : Good ib s) (opc : BitVec 8) (n : NodeFields) : OutGood ib (gatherNode s opc n) := by
  unfold gatherNode
  refine good_fireNode h _ _ _ fun s x h => ?_
  grind only [nodeGood_wait, ← good_errOut, ← good_memRules, ← good_oneOut, ← good_tryAcc]

theorem good_execLdx {s : State} (h : Good ib s) (n : NodeFields) : OutGood ib (execLdx n s) := good_gatherNode h ..

theorem good_execStx {s : State} (h : Good ib s) (n : NodeFields) : OutGood ib (execStx n s) := good_gatherNode h ..

theorem good_execAtom {s : State} (h : Good ib s) (n : NodeFields) : OutGood ib (execAtom n s) := by
  unfold execAtom
  grind only [← good_addrNode, ← good_errOut, ← good_tryAcc]

theorem good_execMcas {s : State} (h : Good ib s) (n : NodeFields) : OutGood ib (execMcas n s) := by
  unfold execMcas
  grind only [← good_addrNode, ← good_startAcc]

theorem good_execPref {s : State} (h : Good ib s) (n : NodeFields) : OutGood ib (execPref n s) := by
  unfold execPref
  grind only [← good_addrNode, ← good_noOut, ← good_prefetch]

theorem good_execParam {s : State} (h : Good ib s) (n : NodeFields) : OutGood ib (execParam n s) := by
  unfold execParam
  refine good_memNode h _ _ _ _ fun t x ht => ?_
  split
  · exact nodeGood_wait
  · exact good_flowChecked ht x _ _ (good_oneOut ht x _)

theorem good_agenParam {s : State} (h : Good ib s) (x : Firing) (t : Token) (r : ShapeRec) : NodeGood ib (agenParam s x t r) := by
  unfold agenParam
  grind only [= nodeGood_out, ← Good.updNode, ← good_noteFault]

theorem good_agenFire {s : State} (h : Good ib s) (n : NodeFields) (x : Firing) (a : Token) (r : ShapeRec) :
    NodeGood ib (agenFire s n x a r) := by
  unfold agenFire
  grind only [= nodeGood_out, ← Good.updNode, ← good_errEat, ← good_flowChecked]

theorem good_execAgen {s : State} (h : Good ib s) (n : NodeFields) : OutGood ib (execAgen n s) := by
  unfold execAgen
  refine good_fireNode h _ _ _ fun s x h => ?_
  grind only [nodeGood_wait, ← good_agenFire, ← good_agenParam]

theorem good_execAgenEmit {s : State} (h : Good ib s) (n : Site) : OutGood ib (execAgenEmit n s) := by
  unfold execAgenEmit
  grind only [= outGood_next, ← Good.updNode, ← good_chainEmit]

theorem nodeGood_spPark (x : Firing) (o : Nat) (t : BitVec 4) : NodeGood ib (spPark x o t) := trivial

theorem good_execSpacc {s : State} (h : Good ib s) (n : NodeFields) : OutGood ib (execSpacc n s) := by
  unfold execSpacc
  refine good_fireNode h _ _ _ fun s x h => ?_
  dsimp only
  split
  · exact nodeGood_wait
  · refine good_memRules h x _ _ fun s x h => ?_
    grind only [= nodeGood_out, nodeGood_wait, nodeGood_spPark, ← Good.updNode, ← Good.updFab, ← good_errOut, ← good_noOut]

theorem good_execSpaccFlushEmit {s : State} (h : Good ib s) (n : Site) : OutGood ib (execSpaccFlushEmit n s) := by
  unfold execSpaccFlushEmit
  grind only [= outGood_next, ← Good.updNode, ← good_chainEmit, ← good_eatPorts, ← good_setPass]

theorem good_setAcc {s : State} (h : Good ib s) (a : Acc) : Good ib (setAcc s a) := h.updFab ..

theorem good_dropAcc {s : State} (h : Good ib s) (a : Acc) : Good ib (dropAcc s a) := by
  unfold dropAcc
  grind only [← Good.updFab, ← good_fillEntry]

theorem good_killAcc {s : State} (h : Good ib s) (a : Acc) : Good ib (killAcc s a) := by
  unfold killAcc
  grind only [← Good.updFab, ← good_dropAcc, ← good_killDone, ← good_sweepMerger]

theorem good_accPark {s : State} (h : Good ib s) (a : Acc) (cause : BitVec 8) (va : Word) : Good ib (accPark s a cause va) := by
  unfold accPark
  grind only [← good_dropAcc, ← good_freeze, ← good_killAcc, ← good_park, ParkedGood.of_parked, ← good_setAcc]

theorem good_mcasStep {s : State} (h : Good ib s) (a : Acc) : OutGood ib (mcasStep s a) := by
  unfold mcasStep
  split
  · exact good_accDone h a
  · exact h
  · dsimp only
    split
    · exact h
    · split
      · next m t hc =>
        exact good_mwBegin (good_setAcc (MGood.of_ok (hc ▸ good_mwcasCheck (good_acquireAll h _) _ _ _ _ _)) _) m _
      · exact good_accPark h a _ _
      · exact h

theorem good_omfBad {s : State} (h : Good ib s) (a : Acc) : Good ib (omfBad s a) := by
  unfold omfBad
  grind only [← Good.updFab, ← good_fillEntry, ← good_killDone, ← good_noteFault]

theorem good_execAccessPerform {s : State} (h : Good ib s) (r : RegionId) (k : Nat) : OutGood ib (execAccessPerform r k s) := by
  unfold execAccessPerform
  split
  · exact h
  · next a _ =>
    have hp (p : Piece) : PieceGood ib (performPiece s a p) := good_performPiece h a p
    grind only [= outGood_next, ← good_mcasStep, PieceGood.of_ok, ← good_accDone, ← good_touch, ← good_setAcc, ← good_accPark,
      ← good_omfBad]

theorem good_placeAgain {s : State} (h : Good ib s) (a : Acc) : MGood ib (placeAgain s a) := by
  unfold placeAgain
  grind only [= mGood_ok, ← good_placeAll, ← MGood.bind]

theorem good_retranslate {s : State} (h : Good ib s) (a : Acc) : Good ib (retranslate s a) := by
  unfold retranslate
  grind only [← good_accPark, ← good_placeAgain, MGood.of_ok, ← good_setAcc]

theorem good_execHeldAccessRetranslate {s : State} (h : Good ib s) (r : RegionId) (k : Nat) :
    OutGood ib (execHeldAccessRetranslate r k s) := by
  unfold execHeldAccessRetranslate
  grind only [= outGood_next, ← good_dropAcc, ← good_readyAgain, ← good_retranslate]

theorem good_execParkTableRetry {s : State} (h : Good ib s) (n : Site) : OutGood ib (execParkTableRetry n s) := by
  unfold execParkTableRetry
  grind only [= outGood_next, = good_mk_iff, ← Good.mem, ← Good.cores, ← good_dropAcc, ← good_readyAgain]

end Sys2Proof.Machine
end

section
/-!
PROOFS. What every step keeps: rule nodes and waking.
-/

namespace Sys2Proof.Machine

open Sys2Proof

variable {ib : Bool}

theorem good_ruleGuard {s : State} (h : Good ib s) (i : Instr) (k : PartId → Out) (hk : ∀ x0, OutGood ib (k x0)) :
    OutGood ib (ruleGuard s i k) := by
  unfold ruleGuard
  grind only [← good_raise]

theorem good_execDeltaSettled {s : State} (h : Good ib s) (p : PartId) (n : BitVec 16) : OutGood ib (execDeltaSettled p n s) := by
  unfold execDeltaSettled
  grind only [= outGood_next, ← Good.updRules, ← good_storeVa, MGood.of_ok]

theorem good_execSettle {s : State} (h : Good ib s) (d : Reg) : OutGood ib (execSettle d s) := by
  unfold execSettle
  grind only [← good_issue, ← good_ruleGuard, ← good_start]

theorem good_execSettleComplete {s : State} (h : Good ib s) (k : Nat) : OutGood ib (execSettleComplete k s) := by
  unfold execSettleComplete
  grind only [= outGood_next, ← Good.updRules, ← good_finishOp]

theorem good_execSelect {s : State} (h : Good ib s) (d a b : Reg) : OutGood ib (execSelect d a b s) := by
  unfold execSelect
  grind only [← Good.updRules, ← good_endNow, ← good_issue, ← good_ruleGuard, ← good_start]

theorem good_execSelectBatch {s : State} (h : Good ib s) (k : Nat) : OutGood ib (execSelectBatch k s) := by
  unfold execSelectBatch
  split
  · exact h
  · next o _ =>
    split
    · next buf limit _ =>
      have hst (n : Nat) (bs : List Byte) : MGood ib (storeBytes s (hubCtx o.part o.lvl) buf n bs) := good_storeBytes h _ _ _ _
      dsimp only
      split
      · exact good_finishOp h o _
      · grind only [= outGood_next, ← Good.updRules, ← good_finishOp, MGood.of_ok]
    · exact h

theorem good_execFired {s : State} (h : Good ib s) (a : Reg) : OutGood ib (execFired a s) := by
  unfold execFired
  grind only [← Good.updRules, ← good_needRegs, ← good_raise, ← good_retire, ← good_ruleGuard]

theorem good_execWave {s : State} (h : Good ib s) : OutGood ib (execWave s) := by
  unfold execWave
  grind only [← Good.updRules, ← good_raise, ← good_retire, ← good_ruleGuard]

theorem good_execCsuDelivery {s : State} (h : Good ib s) (p : PartId) (k : Nat) : OutGood ib (execCsuDelivery p k s) := by
  unfold execCsuDelivery
  grind only [= outGood_next, ← Good.updRules]

theorem good_ruleConsume {s : State} (h : Good ib s) (x : Firing) (eat : List (BitVec 2)) (ts : List Token) :
    NodeGood ib (ruleConsume s x eat ts) := by
  unfold ruleConsume
  grind only [= nodeGood_out, ← good_noteFault]

theorem good_execDelta {s : State} (h : Good ib s) (n : NodeFields) : OutGood ib (execDelta n s) := by
  unfold execDelta
  refine good_fireNode h _ _ _ fun s x h => ?_
  grind only [= nodeGood_out, nodeGood_wait, ← Good.updFab, ← Good.updRules]

theorem good_execAlpha {s : State} (h : Good ib s) (n : NodeFields) : OutGood ib (execAlpha n s) := by
  unfold execAlpha
  refine good_fireNode h _ _ _ fun s x h => ?_
  grind only [= nodeGood_out, nodeGood_wait, ← good_errOut, ← good_ruleConsume]

theorem good_readAttr {s : State} (h : Good ib s) (x : Firing) (ls : List Word) (c attr : Nat) : MGood ib (readAttr s x ls c attr) := by
  unfold readAttr
  grind only [= mGood_ok, ← good_loadVa, ← good_tookFree, ← MGood.bind]

theorem good_outKeys {s : State} (h : Good ib s) (x : Firing) (c attr : Nat) (l : List (List Word)) :
    MGood ib (outKeys s x c attr l) := by
  induction l generalizing s with
  | nil => exact h
  | cons r rs ih => exact (good_readAttr h x _ _ _).bind fun _ _ ht => (ih ht).bind fun _ _ hu => hu

theorem nodeGood_scrPark (x : Firing) (o n : Nat) : NodeGood ib (scrPark x o n) := trivial

theorem good_betaNode {s : State} (h : Good ib s) (opc : BitVec 8) (n : NodeFields) : OutGood ib (betaNode s opc n) := by
  unfold betaNode
  refine good_fireNode h _ _ _ fun s x h => ?_
  have hk (y : Firing) (c attr : Nat) (l : List (List Word)) : MGood ib (outKeys s y c attr l) := good_outKeys h _ _ _ _
  split
  · exact nodeGood_wait
  · split
    · exact nodeGood_wait
    · split
      · grind only [= nodeGood_out, nodeGood_wait, nodeGood_park, nodeGood_scrPark, ← Good.updFab, ← good_errEat, MGood.of_ok,
        ← good_ruleConsume]
      · exact nodeGood_wait

theorem good_execBjoin {s : State} (h : Good ib s) (n : NodeFields) : OutGood ib (execBjoin n s) := good_betaNode h ..

theorem good_execBneg {s : State} (h : Good ib s) (n : NodeFields) : OutGood ib (execBneg n s) := good_betaNode h ..

theorem good_scoreValues {s : State} (h : Good ib s) (x : Firing) (ls : List Word) (c : Token) (l : List Nat) :
    MGood ib (scoreValues s x ls c l) := by
  induction l with
  | nil => exact h
  | cons i is ih =>
    refine ih.bind fun r t ht => ?_
    dsimp only
    split
    · exact (good_readAttr ht x _ _ _).bind fun _ _ hu => hu
    · exact ht

theorem good_scoreHold {s : State} (h : Good ib s) (n : NodeFields) (x : Firing) (t c : Token) (vs : List Word) (key : Word)
    (r : ShapeRec) : NodeGood ib (scoreHold s n x t c vs key r) := by
  unfold scoreHold
  grind only [= nodeGood_out, nodeGood_wait, nodeGood_scrPark, ← Good.updNode]

theorem good_scoreReturn {s : State} (h : Good ib s) (n : NodeFields) (x : Firing) (b c : Token) (r : ShapeRec) :
    NodeGood ib (scoreReturn s n x b c r) := by
  unfold scoreReturn
  dsimp only
  split
  · exact h
  · split
    · exact nodeGood_scrPark _ _ _
    · split
      · exact (h.updNode _ _).updFab _ _
      · exact good_noteFault (h.updNode _ _) _ _ _

theorem good_scoreOther {s : State} (h : Good ib s) (n : NodeFields) (x : Firing) : NodeGood ib (execScore.scoreOther s n x) := by
  unfold execScore.scoreOther
  grind only [nodeGood_wait, ← good_ruleConsume, ← good_errEat, ← good_scoreReturn]

theorem good_execScore {s : State} (h : Good ib s) (n : NodeFields) : OutGood ib (execScore n s) := by
  unfold execScore
  refine good_fireNode h _ _ _ fun s x h => ?_
  have hv (y : Firing) (ls : List Word) (c : Token) (l : List Nat) : MGood ib (scoreValues s y ls c l) := good_scoreValues h _ _ _ _
  grind only [= nodeGood_out, nodeGood_wait, nodeGood_park, MGood.of_ok, ← good_errEat, ← good_orElseRes, ← good_ruleConsume,
    ← good_scoreHold, ← good_scoreReturn, ← good_scoreOther]

theorem good_execScoreTimeout {s : State} (h : Good ib s) (n : Site) (key : Word) : OutGood ib (execScoreTimeout n key s) := by
  unfold execScoreTimeout
  grind only [= outGood_next, ← Good.updNode, ← Good.updRules, ← good_noteFault]

theorem good_execTerm {s : State} (h : Good ib s) (n : NodeFields) : OutGood ib (execTerm n s) := by
  unfold execTerm
  refine good_fireNode h _ _ _ fun s x h => ?_
  grind only [= nodeGood_out, nodeGood_wait, ← Good.updRules, ← good_errOut, ← good_ruleConsume]

end Sys2Proof.Machine
end

section
/-!
PROOFS. What every step keeps: special registers.
-/

namespace Sys2Proof.Machine

open Sys2Proof

variable {ib : Bool}

theorem good_updPartOf {s : State} (h : Good ib s) (c : CoreId) (f : Partition → Partition) : Good ib (updPartOf s c f) := by
  unfold updPartOf
  grind only [← Good.updPart]

theorem good_updFg {s : State} (h : Good ib s) (c : CoreId) (f : RegionDbg → RegionDbg) : Good ib (updFg s c f) := by
  unfold updFg
  grind only [← Good.updDbg]

theorem good_wakeDie {s : State} (h : Good ib s) (c : CoreId) : Good ib (wakeDie s c) := by
  unfold wakeDie
  grind only [← Good.updDie]

theorem good_sqGo {s : State} (h : Good ib s) (q : CoreId) : Good ib (sqGo s q) := by
  unfold sqGo
  grind only [← Good.updCore, = coreOk_mk_iff, ← CoreOk.pc, ← CoreOk.ts, ← CoreOk.th, ← Good.coreOk, ← good_wakeDie]

theorem CoreOk.sqStop {c : Core} (h : CoreOk ib c) : CoreOk ib (Machine.sqStop c) := by
  unfold Machine.sqStop
  split <;> exact h

theorem good_sqctlWrite {s : State} (h : Good ib s) (q : CoreId) (v : Word) : Good ib (sqctlWrite s q v) := by
  have hl : Good ib (s.updCore q fun c => { c with sqlevel := v.extractLsb' 3 2 }) := h.updCore (h.coreOk q)
  unfold sqctlWrite
  dsimp only
  split
  · exact h
  · split
    · exact hl.updCore (hl.coreOk q).sqStop
    · split
      · exact good_sqGo hl q
      · exact hl

theorem TrapsOk.setTrapReg {t : TrapRegs} (h : TrapsOk ib t) (hl : Bool) (i : Nat) (v : Word) :
    TrapsOk ib (Machine.setTrapReg hl i v t) := by
  unfold Machine.setTrapReg
  split
  · exact h
  · exact ⟨addrOk_masked v, h.2⟩
  · exact ⟨h.1, addrOk_masked v⟩
  all_goals exact h

theorem CoreOk.setTrapS {c : Core} (h : CoreOk ib c) (i : Nat) (v : Word) : CoreOk ib (Machine.setTrapS i v c) := by
  unfold Machine.setTrapS
  split
  · exact h
  · exact ⟨h.1, h.ts.setTrapReg false i v, h.th⟩

theorem CoreOk.sqftWrite {c : Core} (h : CoreOk ib c) (k : Nat) (v : Word) : CoreOk ib (Machine.sqftWrite k v c) := by
  unfold Machine.sqftWrite
  generalize List.range 8 = l
  induction l generalizing c with
  | nil => exact h
  | cons j l ih => exact ih (h.wf _ _ _)

theorem good_sqWrite {s : State} (h : Good ib s) (c : CoreId) (n : Nat) (v : Word) : Good ib (sqWrite s c n v) := by
  unfold sqWrite
  split
  · exact h.updCore (h.coreOk c)
  · split
    · split
      · exact good_sqctlWrite h _ v
      · exact h
    · split
      · exact h
      · next q _ =>
        refine h.updCore ?_
        have hq := h.coreOk q
        have hpc : CoreOk ib { s.core q with pc := v &&& ~~~3#64 } := ⟨addrOk_masked v, hq.ts, hq.th⟩
        grind only [← CoreOk.wg, ← CoreOk.wf, ← CoreOk.sqftWrite, ← CoreOk.setTrapS, = coreOk_mk_iff, ← CoreOk.pc]

theorem good_setWmbase {s : State} (h : Good ib s) (c : CoreId) (v : Word) : Good ib (setWmbase s c v) := by
  unfold setWmbase
  grind only [← Good.updRules]

theorem good_takeBids {s : State} (h : Good ib s) (d : DieId) (gone : Nat → Bool) : Good ib (takeBids s d gone) := by
  unfold takeBids
  grind only [← Good.updCore, ← Good.updDie, = coreOk_mk_iff, ← CoreOk.pc, ← CoreOk.ts, ← CoreOk.th, ← Good.coreOk, ← Good.foldl]

theorem good_killBids {s : State} (h : Good ib s) (bids : List Nat) : Good ib (killBids s bids) := by
  unfold killBids
  grind only [← Good.foldl, ← good_finishOp]

theorem good_setTqcfg {s : State} (h : Good ib s) (c : CoreId) (v : Word) : Good ib (setTqcfg s c v) := by
  unfold setTqcfg
  grind only [← Good.updDie, ← good_killBids, ← good_takeBids]

theorem good_fgGo {s : State} (h : Good ib s) (r : RegionId) : Good ib (fgGo s r) := by
  unfold fgGo
  grind only [← Good.updDbg, ← good_touch]

theorem good_fgUnpark {s : State} (h : Good ib s) (r : RegionId) : Good ib (fgUnpark s r) := by
  unfold fgUnpark
  grind only [← Good.updFab, ← Good.foldl, ← good_unpark]

theorem good_fgctlWrite {s : State} (h : Good ib s) (r : RegionId) (v : Word) : Good ib (fgctlWrite s r v) := by
  unfold fgctlWrite
  grind only [← Good.updDbg, ← good_beginStop, ← good_fgGo, ← good_fgUnpark]

theorem good_listGo {s : State} (h : Good ib s) (r : RegionId) : Good ib (listGo s r) := by
  unfold listGo
  grind only [← Good.updDbg]

theorem good_fglistWrite {s : State} (h : Good ib s) (r : RegionId) (v : Word) : Good ib (fglistWrite s r v) := by
  unfold fglistWrite
  grind only [← Good.updDbg, ← good_listGo]

theorem good_cstopWrite {s : State} (h : Good ib s) (c : CoreId) (v : Word) : Good ib (cstopWrite s c v) := by
  unfold cstopWrite
  grind only [← Good.updCore, = coreOk_mk_iff, ← CoreOk.pc, ← CoreOk.ts, ← CoreOk.th, ← Good.coreOk]

theorem good_crashGo {s : State} (h : Good ib s) (p : PartId) : Good ib (crashGo s p) := by
  unfold crashGo
  dsimp only
  split
  · exact h
  · refine Good.foldl (Good.foldl (Good.foldl (h.updPart p _) fun t r ht => good_beginStop (good_wakeRegion ht r) r) ?_) ?_
    · intro t c ht
      cases c with
      | sq n => exact ht.updCore (ht.coreOk _).sqStop
      | sy n => exact ht.updCore (ht.coreOk _)
    · intro t c ht
      split
      · exact good_crashCore ht _ p
      · exact good_crashCore ht _ p
      · exact good_crashCore ht _ p
      · exact ht

theorem good_crashkWrite {s : State} (h : Good ib s) (c : CoreId) (v : Word) : Good ib (crashkWrite s c v) := by
  unfold crashkWrite
  grind only [← Good.updPart, ← good_crashGo]

theorem good_dbgWrite {s : State} (h : Good ib s) (c : CoreId) (n : Nat) (v : Word) : Good ib (dbgWrite s c n v) := by
  unfold dbgWrite
  grind only [← Good.updCore, ← Good.updPorts, = coreOk_mk_iff, ← CoreOk.pc, ← CoreOk.ts, ← CoreOk.th, ← Good.coreOk, ← good_crashkWrite,
    ← good_cstopWrite, ← good_fgctlWrite, ← good_fglistWrite, ← good_updFg, ← good_updPartOf, ← good_wakeRegion]

theorem good_setPfqhead {s : State} (h : Good ib s) (c : CoreId) (v : Word) : Good ib (setPfqhead s c v) := by
  unfold setPfqhead
  grind only [← Good.updMs, ← Good.mem, ← good_releaseS, ← good_updPartOf]

theorem good_setSyscfg {s : State} (h : Good ib s) (v : Word) : Good ib (setSyscfg s v) := by
  unfold setSyscfg
  grind only [= good_mk_iff, ← Good.mem, ← Good.cores]

theorem CoreOk.setTh {c : Core} (h : CoreOk ib c) {t : TrapRegs} (ht : TrapsOk ib t) : CoreOk ib { c with th := t } :=
  ⟨h.pc, h.ts, ht⟩

theorem good_regWrite {s : State} (h : Good ib s) (c : CoreId) (n : Nat) (v : Word) : Good ib (regWrite s c n v) := by
  have hc := h.coreOk c
  unfold regWrite
  dsimp only
  split
  · exact h.updCore (hc.setTrapS _ v)
  · split
    · exact good_sqWrite h c n v
    · split
      · exact good_dbgWrite h c n v
      · split
        · exact h.updCore (hc.setTh (hc.th.setTrapReg _ _ _))
        · split
          · exact h.updCore hc
          · exact h.updCore hc
          · exact good_updPartOf h c _
          · exact good_updPartOf h c _
          · exact good_setPfqhead h c v
          · exact good_updPartOf h c _
          · exact good_updPartOf h c _
          · exact good_updPartOf h c _
          · exact good_setSyscfg h v
          · exact good_updPartOf h c _
          · exact good_setWmbase h c v
          · exact h.updCore hc
          · exact h.updCore hc
          · exact good_setTqcfg h c v
          · exact good_updPartOf h c _
          · exact good_updPartOf h c _
          · exact h.updCore hc
          · exact h.updCore hc
          · exact h.updMs h.mem
          · exact h

theorem good_sreadCore {s : State} (h : Good ib s) (c : CoreId) (n : Nat) : Good ib (sreadCore s c n).2 := by
  unfold sreadCore
  grind only [← Good.updCore, ← Good.updMs, = coreOk_mk_iff, ← CoreOk.pc, ← CoreOk.ts, ← CoreOk.th, ← Good.coreOk, ← Good.mem,
    ← good_acquireS]

theorem good_execSread {s : State} (h : Good ib s) (d n m : Reg) : OutGood ib (execSread d n m s) := by
  unfold execSread
  grind only [= outGood_next, ← good_needLevel, ← good_needRegs, ← good_raise, ← good_retireG, ← good_sreadCore]

theorem good_execSwrite {s : State} (h : Good ib s) (d n m : Reg) : OutGood ib (execSwrite d n m s) := by
  unfold execSwrite
  grind only [= outGood_next, ← good_needLevel, ← good_needRegs, ← good_raise, ← good_regWrite, ← good_retire]

theorem good_regEvent {s : State} (h : Good ib s) (c : CoreId) (n : Nat) (v : Word) : OutGood ib (regEvent s c n v) := by
  unfold regEvent
  grind only [= outGood_next, ← good_regWrite]

theorem good_readEvent {s : State} (h : Good ib s) (c : CoreId) (n : Nat) (d : Reg) : OutGood ib (readEvent s c n d) := by
  unfold readEvent
  grind only [= outGood_next, ← Good.updCore, ← Good.coreOk, ← CoreOk.wg, ← good_sreadCore]

theorem good_execTimecmpSWrite {s : State} (h : Good ib s) (c : CoreId) (v : Word) : OutGood ib (execTimecmpSWrite c v s) :=
  good_regEvent h ..

theorem good_execPfqheadWrite {s : State} (h : Good ib s) (c : CoreId) (v : Word) : OutGood ib (execPfqheadWrite c v s) :=
  good_regEvent h ..

theorem good_execPfqtailRead {s : State} (h : Good ib s) (c : CoreId) (d : Reg) : OutGood ib (execPfqtailRead c d s) :=
  good_readEvent h ..

theorem good_execWmbaseWrite {s : State} (h : Good ib s) (c : CoreId) (v : Word) : OutGood ib (execWmbaseWrite c v s) :=
  good_regEvent h ..

theorem good_execTqcfgWrite {s : State} (h : Good ib s) (c : CoreId) (v : Word) : OutGood ib (execTqcfgWrite c v s) := good_regEvent h ..

theorem good_execSqctlStop {s : State} (h : Good ib s) (c : CoreId) : OutGood ib (execSqctlStop c s) := by
  unfold execSqctlStop
  split
  · split
    · next q _ => exact h.updCore (f := sqStop) (h.coreOk q).sqStop
    · exact h
  · exact h

theorem good_execSqctlGo {s : State} (h : Good ib s) (c : CoreId) : OutGood ib (execSqctlGo c s) := by
  unfold execSqctlGo
  grind only [= outGood_next, ← good_sqGo]

theorem good_fgEvent {s : State} (h : Good ib s) (c : CoreId) (n : Nat) (k : State → RegionId → State)
    (hk : ∀ x0 x1, Good ib x0 → Good ib (k x0 x1)) : OutGood ib (fgEvent s c n k) := by
  unfold fgEvent
  grind only [= outGood_next, ← good_wakeRegion]

theorem good_execFgctlStop {s : State} (h : Good ib s) (c : CoreId) : OutGood ib (execFgctlStop c s) := by
  unfold execFgctlStop
  grind only [← good_beginStop, ← good_fgEvent]

theorem good_execFgctlGo {s : State} (h : Good ib s) (c : CoreId) : OutGood ib (execFgctlGo c s) := by
  unfold execFgctlGo
  grind only [← good_fgEvent, ← good_fgGo]

theorem good_execFgctlUnpark {s : State} (h : Good ib s) (c : CoreId) : OutGood ib (execFgctlUnpark c s) := by
  unfold execFgctlUnpark
  grind only [← good_fgEvent, ← good_fgUnpark]

theorem good_execFgctlClrmg {s : State} (h : Good ib s) (c : CoreId) : OutGood ib (execFgctlClrmg c s) := by
  unfold execFgctlClrmg
  grind only [← Good.updDbg, ← good_fgEvent]

theorem good_execFglistGo {s : State} (h : Good ib s) (c : CoreId) : OutGood ib (execFglistGo c s) := by
  unfold execFglistGo
  grind only [← good_fgEvent, ← good_listGo]

theorem good_execFglstatRead {s : State} (h : Good ib s) (c : CoreId) (d : Reg) : OutGood ib (execFglstatRead c d s) :=
  good_readEvent h ..

theorem good_execFgtrcntRead {s : State} (h : Good ib s) (c : CoreId) (d : Reg) : OutGood ib (execFgtrcntRead c d s) :=
  good_readEvent h ..

theorem good_execFgcstopWrite {s : State} (h : Good ib s) (c : CoreId) (v : Word) : OutGood ib (execFgcstopWrite c v s) :=
  good_regEvent h ..

theorem good_execCrashkGo {s : State} (h : Good ib s) (c : CoreId) : OutGood ib (execCrashkGo c s) := by
  unfold execCrashkGo
  grind only [= outGood_next, ← good_crashGo]

theorem good_execRegisterWrite {s : State} (h : Good ib s) (c : CoreId) (n : BitVec 10) (v : Word) :
    OutGood ib (execRegisterWrite c n v s) := good_regEvent h ..

end Sys2Proof.Machine
end

section
/-!
PROOFS. What every step keeps: regions.
-/

namespace Sys2Proof.Machine

open Sys2Proof

variable {ib : Bool}

theorem good_onRegion {s0 s : State} (h : Good ib s0) (o : Op) (v : Word) (k : RegionId → State → Out) (h_s : Good ib s)
    (hk : ∀ x0 x1, Good ib x1 → OutGood ib (k x0 x1)) : OutGood ib (onRegion s0 s o v k) := by
  unfold onRegion
  grind only [= outGood_next, ← good_endNow, ← good_wakeRegion]

theorem good_execRqry {s : State} (h : Good ib s) (d a : Reg) : OutGood ib (execRqry d a s) := by
  unfold execRqry
  grind only [← good_needRegs, ← good_retireG]

theorem good_enqueue {s : State} (h : Good ib s) (o : Op) (d : DieId) (q : BitVec 6) (kind : OpKind) :
    OutGood ib (enqueue s o d q kind) := by
  unfold enqueue
  grind only [= outGood_next, ← Good.updCore, ← Good.updDie, = coreOk_mk_iff, ← CoreOk.pc, ← CoreOk.ts, ← CoreOk.th, ← Good.coreOk,
    ← good_endNow, OutGood.of_next, ← good_start]

theorem good_execReqr {s : State} (h : Good ib s) (d a b : Reg) : OutGood ib (execReqr d a b s) := by
  unfold execReqr
  grind only [← good_endNow, ← good_enqueue, ← good_issue]

theorem good_execResumr {s : State} (h : Good ib s) (d a b : Reg) : OutGood ib (execResumr d a b s) := by
  unfold execResumr
  refine good_issue h _ _ _ fun t o ht => ?_
  dsimp only
  split
  · next l1 s1 e1 =>
    have h1 : Good ib s1 := MGood.of_ok (e1 ▸ good_loadBytes ht _ _ _)
    split
    · exact good_endNow ht _ _
    · split
      · next l2 s2 e2 =>
        have h2 : Good ib s2 := MGood.of_ok (e2 ▸ good_loadBytes h1 _ _ _)
        split
        · split
          · exact good_endNow ht _ _
          · split
            · next ok s3 e3 =>
              have h3 : Good ib s3 := MGood.of_ok (e3 ▸ good_saveRsigOk h2 _ _ _)
              grind only [← good_endNow, ← good_enqueue]
            · exact good_endNow ht _ _
            · exact h
        · exact good_endNow ht _ _
      · exact good_endNow ht _ _
      · exact h
  · exact good_endNow ht _ _
  · exact h

theorem good_readSave {s : State} (h : Good ib s) (o : Op) (save : Word) : MGood ib (readSave s o save) := by
  unfold readSave
  grind only [= mGood_ok, ← good_loadBytes, ← MGood.bind]

theorem good_dirDrop {ms : MemSys} (h : MemOk ib ms.mem) (g : Agent) (pa : Nat) : MemOk ib (dirDrop g pa ms).mem := by
  unfold dirDrop
  grind only

theorem good_dirForget {ms : MemSys} (h : MemOk ib ms.mem) (g : Agent) : MemOk ib (dirForget g ms).mem := by
  unfold dirForget
  grind only

theorem good_occupy {s : State} (h : Good ib s) (r : RegionId) : Good ib (occupy s r) := h.updDie ..

theorem good_flushL1 {s : State} (h : Good ib s) (r : RegionId) : Good ib (flushL1 s r) :=
  h.foldl fun _ g ht => ht.updMs (good_dirForget (good_acquireS ht.mem g) g)

theorem good_grantRegion {s : State} (h : Good ib s) (o : Op) (d : DieId) (rows cols ci cj : Nat) :
    Good ib (grantRegion s o d rows cols ci cj) := by
  unfold grantRegion
  grind only [← Good.updRegion, ← good_finishOp, ← good_flushL1, ← good_occupy]

theorem good_retryAcc {s : State} (h : Good ib s) (a : Acc) : Good ib (retryAcc s a) := by
  unfold retryAcc
  grind only [← good_accPark, ← good_placeAgain, MGood.of_ok, ← good_setAcc]

theorem good_readLog {s : State} (h : Good ib s) (r : RegionId) : MGood ib (readLog s r) := by
  unfold readLog
  grind only [= mGood_ok, ← good_loadBytes, ← MGood.bind]

theorem good_restoreRegion {s : State} (h : Good ib s) (o : Op) (r : RegionId) (l : List Byte) (sv : Save) (log : Option (List Word))
    (ci cj : Nat) : Good ib (restoreRegion s o r l sv log ci cj) := by
  unfold restoreRegion
  dsimp only
  refine good_finishOp (Good.foldl (good_sweepMerger (good_flushL1 (good_occupy ?_ r) r)) fun t a ht => good_retryAcc ht a) _ _
  have hr (f : Region → Region) : Good ib (s.updRegion r f) := h.updRegion r f
  grind only [← Good.updRules, = good_mk_iff, ← Good.mem, ← Good.cores]

theorem good_popBid {s : State} (h : Good ib s) (d : DieId) (o : Op) : Good ib (popBid s d o) :=
  (good_takeBids h d _).updDie d _

theorem good_resumeRegion {s : State} (h : Good ib s) (d : DieId) (o : Op) (save : Word) (r : RegionId) (ci cj : Nat) :
    OptGood ib (resumeRegion s d o save r ci cj) := by
  have hr : MGood ib ((readSave s o save).bind fun a s => (readLog s r).bind fun l s => .ok (a, l) s) :=
    (good_readSave h o save).bind fun _ _ ht => (good_readLog ht r).bind fun _ _ hu => hu
  unfold resumeRegion
  split
  · next a l s1 he =>
    have h1 : Good ib s1 := MGood.of_ok (he ▸ hr)
    split
    · exact good_restoreRegion (good_popBid h1 d o) _ _ _ _ _ _ _
    · exact good_finishOp (good_popBid h1 d o) _ _
  · exact good_finishOp (good_popBid h d o) _ _
  · exact optGood_none

theorem good_grantBid {s : State} (h : Good ib s) (d : DieId) (o : Op) (at_ : Nat × Nat) : OptGood ib (grantBid s d o at_) := by
  unfold grantBid
  grind only [= optGood_some, optGood_none, ← good_grantRegion, ← good_popBid, ← good_resumeRegion]

theorem good_bypass {s : State} (h : Good ib s) (d : DieId) (o : Op) : Good ib (bypass d s o) := h.updDie ..

theorem good_roundGo {s : State} (h : Good ib s) (d : DieId) (failed l : List Op) : Good ib (roundGo d s failed l) := by
  induction l generalizing s failed with
  | nil => exact h
  | cons o rest ih =>
    unfold roundGo
    dsimp only
    split
    · exact h.updDie d _
    · split
      · exact ih (good_finishOp (good_popBid h d o) o _) failed
      · split
        · next a _ =>
          split
          · next t ht => exact Good.foldl (OptGood.of_some (ht ▸ good_grantBid h d o a)) fun u b hu => good_bypass hu d b
          · exact h.updDie d _
        · split
          · exact h.updDie d _
          · exact ih h _

theorem good_execTundishAdmissionRound {s : State} (h : Good ib s) (d : DieId) : OutGood ib (execTundishAdmissionRound d s) := by
  unfold execTundishAdmissionRound
  grind only [= outGood_next, ← Good.updDie, ← good_roundGo]

theorem good_execLaunch {s0 : State} (h : Good ib s0) (d a b e : Reg) : OutGood ib (execLaunch d a b e s0) := by
  unfold execLaunch
  grind only [= outGood_next, ← good_endNow, ← good_issue, ← good_onRegion, ← good_probeVa, MGood.of_ok, ← good_start]

theorem good_zeroSpacc {s : State} (h : Good ib s) (r : RegionId) (g : Cfg) : Good ib (zeroSpacc s r g) := by
  unfold zeroSpacc
  grind only [← Good.updFab, ← Good.foldl]

theorem good_seedLfsrs {s : State} (h : Good ib s) (r : RegionId) : Good ib (seedLfsrs s r) := by
  unfold seedLfsrs
  grind only [← Good.updFab, ← Good.useFresh]

theorem good_resetNet {s : State} (h : Good ib s) (p : PartId) (r : RegionId) : Good ib (resetNet s p r) := by
  unfold resetNet
  grind only [← Good.updPart]

theorem good_loadRegion {s : State} (h : Good ib s) (o : Op) (r : RegionId) (img : Word) (idx : BitVec 6) (cw : Word) (g : Cfg) :
    Good ib (loadRegion s o r img idx cw g) := by
  unfold loadRegion
  dsimp only
  exact good_putOp ((good_resetNet (good_zeroSpacc (good_seedLfsrs ((h.updRegion r _).useFresh 1) r) r g) o.part r).updPart _ _) _

theorem good_launchStore {s : State} (h : Good ib s) (o : Op) (cw v : Word) (k : State → Out) (hk : ∀ x0, Good ib x0 → OutGood ib (k x0))
    : OutGood ib (launchStore s o cw v k) := by
  unfold launchStore
  grind only [= outGood_next, ← good_putOp, ← good_recordHeld, ← good_storeVa, MGood.of_ok]

theorem good_beginLoad {s : State} (h : Good ib s) (o : Op) (r : RegionId) (cw : Word) : Good ib (beginLoad s o r cw) := h.updCtl ..

theorem good_endLoad {s : State} (h : Good ib s) (o : Op) (r : RegionId) (c : BitVec 8) : Good ib (endLoad s o r c) := by
  unfold endLoad
  grind only [← Good.updCtl, ← good_finishOp]

theorem good_launchRefused {s : State} (h : Good ib s) (o : Op) (r : RegionId) (cw : Word) (c : BitVec 8) :
    OutGood ib (launchRefused s o r cw c) := by
  unfold launchRefused
  grind only [= outGood_next, ← good_endLoad, ← good_launchStore]

theorem good_of_launchCheck {s t : State} (h : Good ib s) {o : Op} {r : RegionId} {img : Word} {idx : BitVec 6} {g : Cfg}
    (hc : launchCheck s o r img idx = .loads g t) : Good ib t := by
  have hr : MGood ib (readCfg s (hubCtx o.part o.lvl) img idx) := good_readCfg h _ _ _
  unfold launchCheck at hc
  dsimp only at hc
  split at hc
  · cases hc
  · split at hc
    · cases hc
    · grind only [MGood.of_ok]

theorem good_launchChecks {s : State} (h : Good ib s) (o : Op) (r : RegionId) (img : Word) (idx : BitVec 6) (cw : Word) :
    OutGood ib (launchChecks s o r img idx cw) := by
  unfold launchChecks
  split
  · exact good_launchRefused h _ _ _ _
  · exact good_putOp h _
  · next hc => exact good_loadRegion (good_of_launchCheck h hc) _ _ _ _ _ _

theorem good_execLaunchTakeEffect {s : State} (h : Good ib s) (k : Nat) : OutGood ib (execLaunchTakeEffect k s) := by
  unfold execLaunchTakeEffect
  grind only [= outGood_next, ← good_beginLoad, ← good_launchChecks, ← good_launchRefused, ← good_launchStore, ← good_onOp,
    ← good_wakeRegion]

theorem good_execLoadComplete {s : State} (h : Good ib s) (k : Nat) : OutGood ib (execLoadComplete k s) := by
  unfold execLoadComplete
  grind only [= outGood_next, ← Good.updCtl, ← good_finishOp, ← good_onOp]

theorem good_execKillr {s0 : State} (h : Good ib s0) (d a : Reg) : OutGood ib (execKillr d a s0) := by
  unfold execKillr
  grind only [← good_endNow, ← good_freeRegion, ← good_issue, ← good_killRunning, ← good_onRegion, ← good_start]

theorem good_execKillrComplete {s : State} (h : Good ib s) (k : Nat) : OutGood ib (execKillrComplete k s) := by
  unfold execKillrComplete
  grind only [= outGood_next, ← good_finishOp, ← good_onOp]

theorem good_execPreemptKill {s0 : State} (h : Good ib s0) (d a _b : Reg) : OutGood ib (execPreemptKill d a _b s0) := by
  unfold execPreemptKill
  grind only [← good_endNow, ← good_issue, ← good_killRunning, ← good_onRegion, ← good_start]

theorem good_probePages {s : State} (h : Good ib s) (x : Ctx) (va : Word) (n : Nat) : MGood ib (probePages s x va n) := by
  induction n generalizing s va with
  | zero => exact h
  | succ n ih => exact (good_probeVa h x true va).bind fun _ _ ht => ih ht _

theorem good_execPreemptSnapshot {s0 : State} (h : Good ib s0) (d a b : Reg) : OutGood ib (execPreemptSnapshot d a b s0) := by
  unfold execPreemptSnapshot
  grind only [= outGood_next, ← good_endNow, ← good_issue, ← good_onRegion, ← good_probePages, MGood.of_ok, ← good_start]

theorem good_saveRegion {s : State} (h : Good ib s) (r : RegionId) (hash : BitVec 256) : Good ib (saveRegion s r hash) := by
  unfold saveRegion
  grind only [← Good.updRegion, = good_mk_iff, ← Good.mem, ← Good.cores, ← good_vacate]

theorem good_execSnapshotComplete {s : State} (h : Good ib s) (k : Nat) : OutGood ib (execSnapshotComplete k s) := by
  unfold execSnapshotComplete
  grind only [= outGood_next, ← Good.useFresh, ← good_engineStore, ← good_finishOp, ← good_onOp, ← good_regionSync, ← good_saveRegion,
    ← good_wakeRegion]

end Sys2Proof.Machine
end

section
/-!
PROOFS. What every step keeps: deltas, streams and engines.
-/

namespace Sys2Proof.Machine

open Sys2Proof

variable {ib : Bool}

theorem good_inject {s : State} (h : Good ib s) (p : PartId) (neg : Bool) (tt : Nat) (ws : List Word) :
    Good ib (inject s p neg tt ws) := by
  unfold inject
  grind only [← Good.updFab, ← Good.updRules]

theorem good_onNet {s0 s : State} (h : Good ib s0) (p : PartId) (k : State → Out) (h_s : Good ib s)
    (hk : ∀ x0, Good ib x0 → OutGood ib (k x0)) : OutGood ib (onNet s0 s p k) := by
  unfold onNet
  grind only [= outGood_next, ← good_wakeRegion]

theorem good_slotAt {s : State} (h : Good ib s) (p : PartId) (tt rd wr : Nat) : MGood ib (slotAt s p tt rd wr) := by
  unfold slotAt
  grind only [= mGood_ok, mGood_trap, ← good_readAt, ← good_translate, ← MGood.bind]

theorem good_sourceWme {s : State} (h : Good ib s) (va : Word) : MGood ib (sourceWme s va) := by
  unfold sourceWme
  grind only [mGood_trap, ← good_readAt, ← good_translate, ← MGood.bind]

theorem good_doAssert {s : State} (h : Good ib s) (p : PartId) (t : Xl) (tt src : Nat) (d : Reg) :
    MGood ib (doAssert s p t tt src d) :=
  (good_writeAt h _ _ _ _ _).bind fun _ _ hu => (good_inject (hu.updRules p _) _ _ _ _).wg _ _

theorem good_doRetract {s : State} (h : Good ib s) (p : PartId) (t : Xl) (tt : Nat) (w0 : Word) : MGood ib (doRetract s p t tt w0) := by
  unfold doRetract
  grind only [= mGood_ok, ← good_inject, ← good_readAt, ← good_writeAt, ← MGood.bind]

theorem good_execAssert {s : State} (h : Good ib s) (d a : Reg) : OutGood ib (execAssert d a s) := by
  unfold execAssert
  grind only [= outGood_next, ← good_doAssert, ← good_needRegs, ← good_onAccess, ← good_onNet, ← good_raise, ← good_retire,
    ← good_ruleGuard, ← good_slotAt, ← good_sourceWme]

theorem good_execRetract {s : State} (h : Good ib s) (a : Reg) : OutGood ib (execRetract a s) := by
  unfold execRetract
  grind only [= outGood_next, ← good_doRetract, ← good_needRegs, ← good_onAccess, ← good_onNet, ← good_raise, ← good_retire,
    ← good_ruleGuard, ← good_slotAt]

theorem good_execModify {s : State} (h : Good ib s) (d a b : Reg) : OutGood ib (execModify d a b s) := by
  unfold execModify
  refine good_ruleGuard h _ _ fun p => good_needRegs h _ _ (good_onAccess h (good_sourceWme h _) fun src s1 h1 => ?_)
  refine good_onAccess h (good_slotAt h1 _ _ _ _) fun t s2 h2 => good_onAccess h (good_slotAt h2 _ _ _ _) fun u s3 h3 => ?_
  have hgo : OutGood ib (onNet s s3 p fun s3 => onAccess s (doRetract s3 p t.1 (s.rg a).toNat t.2) fun _ s4 =>
      onAccess s (doAssert s4 p u.1 (s.rules p).timetag src d) fun _ s => retire s) :=
    good_onNet h p _ h3 fun _ h4 => good_onAccess h (good_doRetract h4 _ _ _ _) fun _ _ h5 =>
      good_onAccess h (good_doAssert h5 _ _ _ _ _) fun _ _ h6 => good_retire h6
  grind only [= outGood_next, ← good_raise]

theorem good_execScoreclr {s : State} (h : Good ib s) (a : Reg) : OutGood ib (execScoreclr a s) := by
  unfold execScoreclr
  grind only [= outGood_next, ← Good.updFab, ← good_needRegs, ← good_onNet, ← good_raise, ← good_retire, ← good_ruleGuard]

theorem good_strmBegin {s : State} (h : Good ib s) (o : Op) (r : RegionId) (code : Word) (p : ShapeRec) :
    OutGood ib (strmBegin s o r code p) := by
  unfold strmBegin
  grind only [← Good.updCtl, ← good_regionSync, ← good_start]

theorem good_execStrm {s0 : State} (h : Good ib s0) (d a b e : Reg) : OutGood ib (execStrm d a b e s0) := by
  unfold execStrm
  refine good_issue h _ _ _ fun s o hs => good_onRegion h _ _ _ hs fun r s hs => ?_
  have hl : MGood ib (loadBytes s (hubCtx o.part o.lvl) (s.rg b) 64) := good_loadBytes hs _ _ _
  dsimp only
  split
  · exact h
  · split
    · grind only [= outGood_next, ← good_endNow, MGood.of_ok, ← good_strmBegin]
    · grind only [= outGood_next, ← good_endNow, MGood.of_ok, ← good_strmBegin]
    · exact good_endNow hs _ _

theorem good_holdStream {s : State} (h : Good ib s) (o : Op) (r : RegionId) (code : Word) (out : Bool) (bytes : Nat) (c : BitVec 8)
    (va : Word) : Good ib (holdStream s o r code out bytes c va) := by
  unfold holdStream
  grind only [← good_putOp, ← good_recordHeld]

theorem good_failRound {s : State} (h : Good ib s) (o : Op) (c : BitVec 8) : Good ib (failRound s o c) := good_putOp h ..

theorem good_streamFault {s : State} (h : Good ib s) (o : Op) (r : RegionId) (code : Word) (out : Bool) (bytes : Nat) (c : BitVec 8)
    (va : Word) : Good ib (streamFault s o r code out bytes c va) := by
  unfold streamFault
  grind only [← good_failRound, ← good_holdStream]

theorem good_portDeliver {s : State} (h : Good ib s) (r : RegionId) (g : Cfg) (code : Word) (t : Token) (par : Flips) :
    OptGood ib (portDeliver s r g code t par) := by
  unfold portDeliver
  grind only [= optGood_some, ← good_arriveTok, ← good_checkParity, ← good_noteDel]

theorem good_streamIn {s : State} (h : Good ib s) (o : Op) (r : RegionId) (g : Cfg) (code : Word) (p : ShapeRec) (par : Flips) :
    OutGood ib (streamIn s o r g code p par) := by
  unfold streamIn
  dsimp only
  split
  · exact good_streamFault h _ _ _ _ _ _ _
  · exact h
  · next bs sc s1 hg =>
    have h1 : Good ib s1 := by
      refine MGood.of_ok (a := (bs, sc)) (hg ▸ (good_loadBytes h _ _ _).bind fun b t ht => ?_)
      split
      · exact (good_loadBytes ht _ _ _).bind fun _ _ hu => hu
      · exact ht
    have hp (t : Token) : OptGood ib (portDeliver (touch s1 r) r g code t par) := good_portDeliver (good_touch h1 r) r g code t par
    grind only [= outGood_next, OptGood.of_some, ← good_putOp, ← good_freeze, ← good_touch]

theorem good_streamTake {s : State} (h : Good ib s) (o : Op) (r : RegionId) (g : Cfg) (code : Word) (p : ShapeRec) :
    Good ib (streamTake s o r g code p) := by
  unfold streamTake
  grind only [← Good.updFab, ← good_lastCheck, ← good_putOp, ← good_recordFault]

theorem good_streamOut {s : State} (h : Good ib s) (o : Op) (r : RegionId) (code : Word) (p : ShapeRec) :
    OutGood ib (streamOut s o r code p) := by
  unfold streamOut
  dsimp only
  split
  · next s1 e1 =>
    have h1 : Good ib s1 := MGood.of_ok (e1 ▸ good_storeBytes h _ _ _ _)
    split
    · split
      · next s2 e2 => exact good_touch (good_putOp (MGood.of_ok (e2 ▸ good_storeBytes h1 _ _ _ _)) _) r
      · exact good_streamFault h _ _ _ _ _ _ _
      · exact good_streamFault h _ _ _ _ _ _ _
      · exact h
    · exact good_touch (good_putOp h1 _) r
  · exact good_streamFault h _ _ _ _ _ _ _
  · exact good_streamFault h _ _ _ _ _ _ _
  · exact h

theorem good_execStreamRoundAccess {s : State} (h : Good ib s) (k : StreamAt) : OutGood ib (execStreamRoundAccess k s) := by
  unfold execStreamRoundAccess
  grind only [= outGood_next, ← good_onOp, ← good_streamIn, ← good_streamOut, ← good_streamTake]

theorem good_endRound {s : State} (h : Good ib s) (o : Op) (r : RegionId) (out : Bool) (v : Word) :
    OutGood ib (endRound s o r out v) := by
  unfold endRound
  grind only [= outGood_next, ← good_finishOp, ← good_regionSync]

theorem good_execStrmComplete {s : State} (h : Good ib s) (k : Nat) : OutGood ib (execStrmComplete k s) := by
  unfold execStrmComplete
  grind only [= outGood_next, ← good_endRound, ← good_onOp]

theorem good_streamRetry {s : State} (h : Good ib s) (o : Op) : Good ib (streamRetry s o) := good_putOp h ..

theorem good_streamSupply {s : State} (h : Good ib s) (o : Op) (t : Token) : Good ib (streamSupply s o t) := by
  unfold streamSupply
  split
  · next r code _ _ _ _ =>
    have hp (g : Cfg) (u : Token) (f : Flips) : OptGood ib (portDeliver s r g code u f) := good_portDeliver h r g code u f
    grind only [OptGood.of_some, ← good_putOp, ← good_freeze]
  · exact h

theorem good_streamKill {s : State} (h : Good ib s) (o : Op) : Good ib (streamKill s o) := by
  unfold streamKill
  grind only [← good_failRound]

theorem good_launchSkip {s : State} (h : Good ib s) (o : Op) : Good ib (launchSkip s o) := by
  unfold launchSkip
  grind only [← good_beginLoad, ← good_endLoad, ← good_putOp]

theorem good_execSbar {s0 : State} (h : Good ib s0) (d a : Reg) : OutGood ib (execSbar d a s0) := by
  unfold execSbar
  grind only [← Good.updCtl, ← good_endNow, ← good_issue, ← good_onRegion, ← good_start]

theorem good_execSbarComplete {s : State} (h : Good ib s) (k : Nat) : OutGood ib (execSbarComplete k s) := by
  unfold execSbarComplete
  grind only [= outGood_next, ← Good.updCtl, ← good_finishOp, ← good_onOp, ← good_regionSync]

theorem good_execCopy {s : State} (h : Good ib s) (d a b e : Reg) : OutGood ib (execCopy d a b e s) := by
  unfold execCopy
  grind only [← good_endNow, ← good_issue, ← good_start]

theorem good_execCopyComplete {s : State} (h : Good ib s) (k : Nat) : OutGood ib (execCopyComplete k s) := by
  unfold execCopyComplete
  grind only [= outGood_next, ← good_engineStore, ← good_finishOp, ← good_loadBytes, ← good_onEngine, ← good_onOp]

theorem good_execCmpct {s : State} (h : Good ib s) (d a : Reg) : OutGood ib (execCmpct d a s) := by
  unfold execCmpct
  grind only [← good_endNow, ← good_issue, ← good_start]

theorem good_loadParts {s : State} (h : Good ib s) (x : Ctx) (l : Ladle) (ps : List (Nat × Nat)) : MGood ib (loadParts s x l ps) := by
  induction ps generalizing s with
  | nil => exact h
  | cons p ps ih => exact (good_loadBytes h _ _ _).bind fun _ _ ht => (ih ht).bind fun _ _ hu => hu

theorem good_ladleWrite {s : State} (h : Good ib s) (o : Op) (desc : Word) (l : Ladle) (counts : List Nat) (els : List Byte) :
    OutGood ib (ladleWrite s o desc l counts els) := by
  unfold ladleWrite
  grind only [= outGood_next, ← good_engineStore, ← good_finishOp]

theorem good_execCmpctComplete {s : State} (h : Good ib s) (k : Nat) : OutGood ib (execCmpctComplete k s) := by
  unfold execCmpctComplete
  grind only [= outGood_next, ← good_finishOp, ← good_ladleWrite, ← good_loadBytes, ← good_loadParts, ← good_onEngine, ← good_onOp]

theorem good_execColl {s : State} (h : Good ib s) (d a b : Reg) : OutGood ib (execColl d a b s) := by
  unfold execColl
  grind only [← good_endNow, ← good_issue, ← good_start]

theorem good_ringSend {ms : MemSys} (h : MemOk ib ms.mem) (p : PartId) (w : Nat) (data : List Byte) :
    MemOk ib (ringSend p w data ms).mem := by
  unfold ringSend
  grind only [← memOk_foldl]

theorem good_collMove {s : State} (h : Good ib s) (o : Op) (c : CollOp) (g ents peer : List Byte) (w : Nat) :
    OutGood ib (collMove s o c g ents peer w) := by
  have hown (l : Nat) : MGood ib (if o.unit = 0 then loadBytes s (hubCtx o.part o.lvl) (BitVec.ofNat 64 c.src) l else .ok o.sbuf s) := by
    split
    · exact good_loadBytes h _ _ _
    · exact h
  unfold collMove
  refine good_onEngine h _ _ _ (hown _) fun own s hs => ?_
  have h1 : Good ib (if o.unit = 0 then s.updMs (ringSend o.part w own) else s) := by
    split
    · exact hs.updMs (good_ringSend hs.mem _ _ _)
    · exact hs
  dsimp only
  revert h1
  generalize (if o.unit = 0 then s.updMs (ringSend o.part w own) else s) = u
  intro hu
  have h2 (l : List Byte) : Good ib (u.updMs (ringSend o.part w l)) := hu.updMs (good_ringSend hu.mem _ _ _)
  split
  · exact good_putOp ((h2 _).updPorts _) _
  · exact good_engineStore (((h2 _).updPorts _).useFresh _) _ _ _ _ _ fun t ht => good_finishOp ht _ _

theorem good_execCollComplete {s : State} (h : Good ib s) (k : Nat) (peer : List Byte) (news : RingNews) :
    OutGood ib (execCollComplete k peer news s) := by
  unfold execCollComplete
  refine good_onOp h k _ fun o => ?_
  split
  · refine good_onEngine h _ _ _ (good_loadBytes h _ _ _) fun g s h => ?_
    refine good_onEngine h _ _ _ (good_loadBytes h _ _ _) fun ents s h => ?_
    refine good_onEngine h _ _ _ (good_loadBytes h _ _ _) fun b s h => ?_
    dsimp only
    split
    · exact good_finishOp h _ _
    · split
      · exact good_finishOp h _ _
      · split
        · exact good_engineStore (h.useFresh _) _ _ _ _ _ fun t ht => good_finishOp ht _ _
        · split
          · exact good_finishOp (h.updMs (memOk_foldl h.mem fun ms l hm => good_authSpent hm _ _ l)) _ _
          · exact good_collMove h _ _ _ _ _ _
  · exact h

theorem good_tableCheck {s : State} (h : Good ib s) (x : Ctx) (va : Word) (l : List Nat) : MGood ib (tableCheck s x va l) :=
  (tableCheck_keeps s x va l).mGood h

theorem good_viewLook {s : State} (h : Good ib s) (o : Op) (va : Word) : MGood ib (viewLook s o va) :=
  (good_tableCheck h _ _ _).bind fun _ _ ht => ht

theorem good_execPublish {s0 : State} (h : Good ib s0) (d a : Reg) : OutGood ib (execPublish d a s0) := by
  unfold execPublish
  grind only [= outGood_next, ← good_endNow, ← good_issue, ← good_start, ← good_viewLook, MGood.of_ok]

theorem good_tableWrite {ms : MemSys} (h : MemOk ib ms.mem) (p : PartId) (at_ : Nat) (v now : Word) :
    MemOk ib (tableWrite p at_ v now ms).mem := by
  unfold tableWrite
  grind only [← good_dirWrite, ← good_homeWrite]

theorem good_switchView {s : State} (h : Good ib s) (p : PartId) (va n : Nat) (sel : Bool) : Good ib (switchView s p va n sel) := by
  unfold switchView
  grind only [← Good.updFab, ← Good.updMs, ← Good.mem, ← Good.foldl]

theorem good_execPublishFlip {s : State} (h : Good ib s) (k : Nat) : OutGood ib (execPublishFlip k s) := by
  unfold execPublishFlip
  refine good_onOp h k _ fun o => ?_
  split
  · refine good_onEngine h _ _ _ (good_viewLook h _ _) fun v s h => ?_
    split
    · exact good_finishOp h _ _
    · dsimp only
      split
      · exact h
      · refine good_onEngine h _ _ _ (good_homeCheck h _ _ _ _ _) fun _ s h => ?_
        exact good_finishOp (good_switchView (h.updMs (good_tableWrite h.mem _ _ _ _)) _ _ _ _) _ _
  · exact h

theorem good_migrateCheck {s : State} (h : Good ib s) (o : Op) (va frame : Word) : MGood ib (migrateCheck s o va frame) := by
  unfold migrateCheck
  dsimp only
  split
  · exact h
  · split
    · exact h
    · refine (good_tableCheck h _ _ _).bind fun _ t ht => ?_
      grind only [= mGood_ok, mGood_trap]

theorem good_openWindow {s : State} (h : Good ib s) (o : Op) (va frame : Word) (old : Nat) : Good ib (openWindow s o va frame old) := by
  unfold openWindow
  grind only [← Good.updMs, ← Good.mem]

theorem good_execMigrate {s0 : State} (h : Good ib s0) (d a b : Reg) : OutGood ib (execMigrate d a b s0) := by
  unfold execMigrate
  grind only [= outGood_next, ← good_endNow, ← good_issue, ← good_migrateCheck, MGood.of_ok, ← good_needLevel, ← good_openWindow,
    ← good_start]

theorem good_frameBytes {s : State} (h : Good ib s) (p : PartId) (old : Nat) : Good ib (frameBytes s p old).2 := by
  have hu (n : Nat) : Good ib (s.useFresh n) := h.useFresh n
  have hm (n k : Nat) : Good ib ((s.useFresh n).updMs fun ms => (List.range k).foldl (fun ms i => peerAsk p (old + 128 * i) 128 ms) ms) :=
    (hu n).updMs (memOk_foldl (hu n).mem fun ms i hm => good_peerAsk hm _ _ _)
  unfold frameBytes
  split
  · exact hm 65536 512
  · exact h

theorem good_putHome {ms : MemSys} (h : MemOk ib ms.mem) (p : PartId) (v n pa : Nat) : MemOk ib (putHome p v n ms pa).mem :=
  fun hb => putHome_wf p v n (h hb) pa

theorem good_frameWrite {ms : MemSys} (h : MemOk ib ms.mem) (p : PartId) (new : Nat) (keep : List Nat) (b : List Byte) :
    MemOk ib (frameWrite p new keep b ms).mem := by
  unfold frameWrite
  refine memOk_foldl h fun ms i hm => ?_
  split
  · refine memOk_foldl hm fun ms x hx => ?_
    obtain ⟨y, j⟩ := x
    dsimp only
    split
    · exact hx
    · exact good_putHome hx _ _ _ _
  · exact good_putHome hm _ _ _ _

theorem good_copyPage {s : State} (h : Good ib s) (p : PartId) (old new : Nat) (keep : List Nat) :
    Good ib (copyPage s p old new keep) := by
  have hf := good_frameBytes h p old
  unfold copyPage
  exact hf.updMs (memOk_foldl (good_frameWrite hf.mem _ _ _ _) fun ms l hm => good_clearLine hm l)

theorem good_switchPage {s : State} (h : Good ib s) (p : PartId) (old new : Nat) : Good ib (switchPage s p old new) := by
  unfold switchPage
  grind only [← Good.updMs, = good_mk_iff, ← Good.mem, ← Good.cores]

theorem good_closeWindow {s : State} (h : Good ib s) (o : Op) : Good ib (closeWindow s o) := by
  unfold closeWindow
  grind only [← Good.updMs, ← Good.mem]

theorem good_migrateLater {s : State} (h : Good ib s) (o : Op) (va frame : Word) : OutGood ib (migrateLater s o va frame) := by
  unfold migrateLater
  grind only [= outGood_next, ← good_finishOp, ← good_migrateCheck, ← good_onEngine, ← good_openWindow, ← good_putOp]

theorem good_migrateFails {s : State} (h : Good ib s) (o : Op) (c : BitVec 8) : OutGood ib (migrateFails s o c) := by
  unfold migrateFails
  grind only [= outGood_next, ← good_closeWindow, ← good_finishOp]

theorem good_execMigrationSwitch {s : State} (h : Good ib s) (k : Nat) : OutGood ib (execMigrationSwitch k s) := by
  unfold execMigrationSwitch
  refine good_onOp h k _ fun o => ?_
  split
  · exact good_migrateLater h _ _ _
  · dsimp only
    split
    · exact h
    · split
      · exact h
      · exact good_migrateFails h _ _
      · next t ht =>
        have h1 : Good ib t := MGood.of_ok (ht ▸ good_tableCheck h _ _ _)
        split
        · exact good_migrateFails h1 _ _
        · exact good_migrateFails h1 _ _
        · have h2 (old new : Nat) (keep : List Nat) := good_copyPage (good_closeWindow h1 o) o.part old new keep
          exact good_finishOp (good_switchPage ((h2 _ _ _).updMs (good_tableWrite (h2 _ _ _).mem _ _ _ _)) _ _ _) _ _
  · exact h

end Sys2Proof.Machine
end

section
/-!
PROOFS. What every step keeps: system instructions, power and events.
-/

namespace Sys2Proof.Machine

open Sys2Proof

variable {ib : Bool}

theorem good_asCore {s : State} (h : Good ib s) (c : CoreId) (k : State → Out) (hk : ∀ x0, Good ib x0 → OutGood ib (k x0)) :
    OutGood ib (asCore s c k) := by
  unfold asCore
  grind only [= outGood_next, = good_mk_iff, ← Good.mem, ← Good.cores]

theorem good_execTrap {s : State} (h : Good ib s) (e : BitVec 5) : OutGood ib (execTrap e s) := good_raiseAfter h ..

theorem good_execHvcall {s : State} (h : Good ib s) (e : BitVec 5) : OutGood ib (execHvcall e s) := by
  unfold execHvcall
  grind only [← good_needLevel, ← good_raiseAfter]

theorem good_execBrk {s : State} (h : Good ib s) (e : BitVec 5) : OutGood ib (execBrk e s) := good_raiseAfter h ..

theorem good_execRett {s : State} (h : Good ib s) : OutGood ib (execRett s) := by
  have hm := h.meOk
  have ht := hm.trapRegs s.me.level
  unfold execRett
  refine good_needLevel h _ _ _ ?_
  dsimp only
  split
  · exact good_raise h _ _
  · split
    · exact good_raise h _ _
    · have hc := hm.setTrapRegs s.me.level (t := { s.me.trapRegs s.me.level with
        status := statusReturn (s.me.trapRegs s.me.level).status }) ⟨ht.tvec, ht.tpc⟩
      exact h.updMe ⟨ht.tpc, hc.ts, hc.th⟩

theorem good_execInterruptTake {s : State} (h : Good ib s) (c : CoreId) : OutGood ib (execInterruptTake c s) := by
  unfold execInterruptTake
  grind only [= outGood_next, ← good_takeInt]

theorem good_execIllegalWord {s : State} (h : Good ib s) (w : BitVec 32) : OutGood ib (execIllegalWord w s) := by
  unfold execIllegalWord
  grind only [= outGood_next, ← good_raise]

theorem good_execInstructionFetchFault {s : State} (h : Good ib s) (cause : BitVec 8) (tval : Word) :
    OutGood ib (execInstructionFetchFault cause tval s) := by
  unfold execInstructionFetchFault
  grind only [= outGood_next, ← good_handlerFault, ← good_raise, ← good_startDone]

theorem good_execTimer {s : State} (h : Good ib s) (c : CoreId) : OutGood ib (execTimer c s) := by
  unfold execTimer
  grind only [= outGood_next, = good_mk_iff, ← Good.mem, ← Good.cores]

theorem good_execWaitw {s : State} (h : Good ib s) (d a b : Reg) : OutGood ib (execWaitw d a b s) := by
  unfold execWaitw
  grind only [= outGood_next, ← Good.updMe, = coreOk_mk_iff, ← CoreOk.pc, ← CoreOk.ts, ← CoreOk.th, ← Good.meOk, ← good_acquireMe,
    ← good_coreLoad, ← good_needRegs, ← good_retireG]

theorem good_execWaitwWake {s : State} (h : Good ib s) (c : CoreId) : OutGood ib (execWaitwWake c s) := by
  unfold execWaitwWake
  grind only [= outGood_next, ← Good.updCore, = coreOk_mk_iff, ← CoreOk.pc, ← CoreOk.ts, ← CoreOk.th, ← Good.coreOk]

theorem good_execWfe {s : State} (h : Good ib s) : OutGood ib (execWfe s) := by
  unfold execWfe
  grind only [= outGood_next, ← Good.updMe, = coreOk_mk_iff, ← CoreOk.pc, ← CoreOk.ts, ← CoreOk.th, ← Good.meOk, ← good_retire]

theorem good_execWfeWake {s : State} (h : Good ib s) (c : CoreId) : OutGood ib (execWfeWake c s) := by
  unfold execWfeWake
  grind only [= outGood_next, ← Good.updCore, = coreOk_mk_iff, ← CoreOk.pc, ← CoreOk.ts, ← CoreOk.th, ← Good.coreOk, ← good_asCore,
    ← good_retire]

theorem good_execHalt {s : State} (h : Good ib s) : OutGood ib (execHalt s) := by
  have hm := h.meOk
  unfold execHalt
  refine good_needLevel h _ _ _ ?_
  split
  · exact h
  · exact h.updMe ⟨hm.pc.add_four, hm.ts, hm.th⟩

theorem CoreOk.startedCore {c : Core} (h : CoreOk ib c) {entry : Word} (he : AddrOk ib entry) : CoreOk ib (Machine.startedCore entry c) :=
  ⟨he, h.ts, h.th⟩

theorem good_execSqstart {s : State} (h : Good ib s) (d a b : Reg) : OutGood ib (execSqstart d a b s) := by
  unfold execSqstart
  refine good_needLevel h _ _ _ (good_issue h _ _ _ fun s o h => ?_)
  have hw (c : CoreId) (he : aligned (s.rg b) 4 = true) : Good ib (wakeDie (s.updCore c (startedCore (s.rg b))) c) :=
    good_wakeDie (h.updCore ((h.coreOk c).startedCore (addrOk_of_aligned he))) c
  have hf (c : CoreId) (he : aligned (s.rg b) 4 = true) : MGood ib (fetchAt (wakeDie (s.updCore c (startedCore (s.rg b))) c) c) :=
    good_fetchAt (hw c he) c
  dsimp only
  split
  · exact good_endNow h _ _
  · grind only [MGood.of_ok, ← good_endNow, ← good_start]

theorem good_execTlbinv {s : State} (h : Good ib s) (a : Reg) : OutGood ib (execTlbinv a s) := by
  unfold execTlbinv
  grind only [← Good.updMe, ← Good.updMs, = coreOk_mk_iff, ← CoreOk.pc, ← CoreOk.ts, ← CoreOk.th, ← Good.meOk, ← Good.mem,
    ← good_needLevel, ← good_needRegs, ← good_retire]

theorem good_tlbSyncDone {s : State} (h : Good ib s) (c : CoreId) : Good ib (tlbSyncDone s c) := by
  unfold tlbSyncDone
  grind only [← Good.updCore, = coreOk_mk_iff, ← CoreOk.pc, ← CoreOk.ts, ← CoreOk.th, ← Good.coreOk, ← Good.foldl, ← good_acquireAll]

theorem good_execTlbsync {s : State} (h : Good ib s) : OutGood ib (execTlbsync s) := by
  unfold execTlbsync
  grind only [= outGood_next, ← Good.updMe, = coreOk_mk_iff, ← CoreOk.pc, ← CoreOk.ts, ← CoreOk.th, ← Good.meOk, ← good_needLevel,
    ← good_retire, ← good_tlbSyncDone]

theorem good_execTlbsyncComplete {s : State} (h : Good ib s) (c : CoreId) : OutGood ib (execTlbsyncComplete c s) := by
  unfold execTlbsyncComplete
  grind only [= outGood_next, ← Good.updCore, = coreOk_mk_iff, ← CoreOk.pc, ← CoreOk.ts, ← CoreOk.th, ← Good.coreOk, ← good_asCore,
    ← good_retire, ← good_tlbSyncDone]

theorem good_retryStore {s : State} (h : Good ib s) (r : RegionId) : Good ib (retryStore s r) := by
  unfold retryStore
  grind only [← good_finalStore]

theorem good_resolveIn {s : State} (h : Good ib s) (r : RegionId) (which : ParkRec → Bool) (how : Resolve) :
    Good ib (resolveIn s r which how) := by
  unfold resolveIn
  grind only [← Good.foldl, ← good_resolveAct, ← good_wakeRegion]

theorem good_replayPage {s : State} (h : Good ib s) (p : PartId) (page : Nat) : Good ib (replayPage s p page) := by
  unfold replayPage
  grind only [← Good.updMs, ← Good.mem, ← Good.foldl, ← good_resolveIn, ← good_retryStore, ← good_streamRetry, ← good_sweepMerger]

theorem good_execReplay {s : State} (h : Good ib s) (a : Reg) : OutGood ib (execReplay a s) := by
  unfold execReplay
  grind only [← good_needLevel, ← good_needRegs, ← good_needSync, ← good_releaseMe, ← good_replayPage, ← good_retire]

theorem good_resolveStore {s : State} (h : Good ib s) (r : RegionId) (id : Nat) (how : Resolve) : Good ib (resolveStore s r id how) := by
  unfold resolveStore
  grind only [← good_afterStore, ← good_retryStore]

theorem good_resolveStream {s : State} (h : Good ib s) (o : Op) (how : Resolve) : Good ib (resolveStream s o how) := by
  unfold resolveStream
  grind only [← good_launchSkip, ← good_streamKill, ← good_streamRetry, ← good_streamSupply]

theorem good_resolveFault {s : State} (h : Good ib s) (p : PartId) (id : Nat) (how : Resolve) : Good ib (resolveFault s p id how) := by
  unfold resolveFault
  grind only [← Good.updMs, ← Good.updPart, ← Good.mem, ← Good.foldl, ← good_resolveIn, ← good_resolveStore, ← good_resolveStream,
    ← good_sweepMerger]

theorem good_fresRead {s : State} (h : Good ib s) (va : Word) (n : Nat) (k : List Byte → State → Out)
    (hk : ∀ x0 x1, Good ib x1 → OutGood ib (k x0 x1)) : OutGood ib (fresRead s va n k) := by
  unfold fresRead
  grind only [← good_loadBytes, ← good_onAccess, ← good_raise]

theorem good_fres {s : State} (h : Good ib s) (i : Instr) (a : Reg) (needsResumable : Bool) (how : State → (Resolve → State → Out) → Out)
    (hhow : ∀ t k, Good ib t → (∀ x u, Good ib u → OutGood ib (k x u)) → OutGood ib (how t k)) :
    OutGood ib (fres s i a needsResumable how) := by
  unfold fres
  split
  · exact good_retire h
  · refine good_fresRead h _ _ _ fun b s h => ?_
    split
    · exact good_retire h
    · split
      · exact good_retire h
      · split
        · exact good_raise h _ _
        · refine hhow _ _ h fun x u hu => ?_
          split
          · exact h
          · exact good_retire (good_resolveFault hu _ _ _)

theorem good_execFresSupply {s : State} (h : Good ib s) (a b : Reg) : OutGood ib (execFresSupply a b s) := by
  unfold execFresSupply
  refine good_needLevel h _ _ _ (good_needRegs h _ _ (good_fres h _ _ _ _ fun s k h hk => ?_))
  refine good_fresRead h _ _ _ fun im s1 h1 => ?_
  split
  · exact good_raise h _ _
  · exact hk _ _ h1

theorem good_execFresRetry {s : State} (h : Good ib s) (a b : Reg) : OutGood ib (execFresRetry a b s) :=
  good_needLevel h _ _ _ (good_needRegs h _ _ (good_fres h _ _ _ _ fun _ _ ht hk => hk _ _ ht))

theorem good_execFresKill {s : State} (h : Good ib s) (a b : Reg) : OutGood ib (execFresKill a b s) :=
  good_needLevel h _ _ _ (good_needRegs h _ _ (good_fres h _ _ _ _ fun _ _ ht hk => hk _ _ ht))

theorem good_cacheop {s : State} (h : Good ib s) (a : Reg) (w : Bool) (waits : State → Xl → Bool) (k : Xl → State → State)
    (hk : ∀ x0 x1, Good ib x1 → Good ib (k x0 x1)) : OutGood ib (cacheop s a w waits k) := by
  unfold cacheop
  grind only [= outGood_next, ← good_needRegs, ← good_onAccess, ← good_probeVa, ← good_retire]

theorem good_cleanLine {s : State} (h : Good ib s) (t : Xl) : Good ib (cleanLine s t) := by
  unfold cleanLine
  grind only [← Good.updMs, ← Good.mem, ← good_writeThrough]

theorem good_dropLine {s : State} (h : Good ib s) (t : Xl) : Good ib (dropLine s t) :=
  h.updMs (good_dirDrop (good_dropSLine h.mem _ _) _ _)

theorem good_execCacheopClean {s : State} (h : Good ib s) (a : Reg) : OutGood ib (execCacheopClean a s) := by
  unfold execCacheopClean
  grind only [← good_cacheop, ← good_cleanLine]

theorem good_execCacheopInval {s : State} (h : Good ib s) (a : Reg) : OutGood ib (execCacheopInval a s) := by
  unfold execCacheopInval
  grind only [← good_cacheop, ← good_dropLine]

theorem good_execCacheopFlush {s : State} (h : Good ib s) (a : Reg) : OutGood ib (execCacheopFlush a s) := by
  unfold execCacheopFlush
  grind only [← good_cacheop, ← good_cleanLine, ← good_dropLine]

theorem good_execCacheopPfr {s : State} (h : Good ib s) (a : Reg) : OutGood ib (execCacheopPfr a s) := by
  unfold execCacheopPfr
  grind only [← good_needRegs, ← good_prefetch, ← good_retire]

theorem good_execCacheopPfw {s : State} (h : Good ib s) (a : Reg) : OutGood ib (execCacheopPfw a s) := by
  unfold execCacheopPfw
  grind only [← good_needRegs, ← good_prefetch, ← good_retire]

theorem good_execCacheopIinv {s : State} (h : Good ib s) (a : Reg) : OutGood ib (execCacheopIinv a s) := by
  unfold execCacheopIinv
  grind only [← Good.updMe, = coreOk_mk_iff, ← CoreOk.pc, ← CoreOk.ts, ← CoreOk.th, ← Good.meOk, ← good_cacheop]

theorem good_enterW3 {s : State} (h : Good ib s) (r : RegionId) : Good ib (enterW3 s r) := by
  have hs (x : Ctx) (va : Word) (n : Nat) (bs : List Byte) : MGood ib (storeBytes (s.useFresh 1) x va n bs) :=
    good_storeBytes (h.useFresh 1) x va n bs
  unfold enterW3
  dsimp only
  grind only [MGood.of_ok, ← Good.updCtl, ← Good.updPart, ← Good.useFresh]

theorem good_sleepClusters {s : State} (h : Good ib s) (d : DieId) : Good ib (sleepClusters s d) := h.updDie ..

theorem good_execIdleEntry {s : State} (h : Good ib s) (r : RegionId) : OutGood ib (execIdleEntry r s) := by
  unfold execIdleEntry
  grind only [= outGood_next, ← Good.updCtl, ← good_enterW3, ← good_sleepClusters]

theorem good_execRegionWake {s : State} (h : Good ib s) (r : RegionId) : OutGood ib (execRegionWake r s) := by
  unfold execRegionWake
  grind only [= outGood_next, ← good_wakeRegion]

theorem good_execDieW4Entry {s : State} (h : Good ib s) (d : DieId) : OutGood ib (execDieW4Entry d s) := by
  unfold execDieW4Entry
  grind only [= outGood_next, ← Good.updDie]

theorem good_execThermalLimit {s : State} (h : Good ib s) (d : DieId) (cl : BitVec 7) : OutGood ib (execThermalLimit d cl s) := by
  unfold execThermalLimit
  grind only [= outGood_next, ← Good.updDie, ← Good.updPart, ← Good.foldl]

theorem good_execThermalCool {s : State} (h : Good ib s) (d : DieId) (cl : BitVec 7) : OutGood ib (execThermalCool d cl s) := by
  unfold execThermalCool
  grind only [= outGood_next, ← Good.updDie]

theorem good_execDroopEvent {s : State} (h : Good ib s) (d : DieId) (cl : BitVec 7) : OutGood ib (execDroopEvent d cl s) := by
  unfold execDroopEvent
  grind only [= outGood_next, ← Good.updDie]

theorem good_execRegionQuiescence {s : State} (h : Good ib s) (r : RegionId) : OutGood ib (execRegionQuiescence r s) := by
  unfold execRegionQuiescence
  grind only [= outGood_next, ← Good.updCtl, ← good_finalStore, ← good_killDone]

theorem good_writeHangMap {s : State} (h : Good ib s) (r : RegionId) : MGood ib (writeHangMap s r) := by
  unfold writeHangMap
  grind only [= mGood_ok, mGood_wait, ← Good.updPart, ← good_storeBytes, MGood.of_ok]

theorem good_execHangTimeout {s : State} (h : Good ib s) (r : RegionId) : OutGood ib (execHangTimeout r s) := by
  unfold execHangTimeout
  grind only [= outGood_next, ← good_freeze, ← good_writeHangMap, MGood.of_ok]

theorem good_execCfgStoreUe {s : State} (h : Good ib s) (t : TileAt) : OutGood ib (execCfgStoreUe t s) := by
  have hw : Good ib (if (s.ctl t.r).st = .running then wakeRegion s t.r else s) := by
    split
    · exact good_wakeRegion h _
    · exact h
  unfold execCfgStoreUe
  revert hw
  generalize (if (s.ctl t.r).st = .running then wakeRegion s t.r else s) = u
  intro hu
  have hr (x : Ctx) (va : Word) (i : BitVec 6) (g : BitVec 256) : MGood ib (reread u x va i g) := good_reread hu x va i g
  dsimp only
  split
  · split
    · exact hu
    · grind only [= outGood_next, MGood.of_ok, ← good_freeze, ← Good.updDie]
  · exact hu

theorem good_execPfqDeferredWrite {s : State} (h : Good ib s) (p : PartId) : OutGood ib (execPfqDeferredWrite p s) := by
  unfold execPfqDeferredWrite
  grind only [= outGood_next, ← Good.updPart, ← good_pfqWrite]

theorem good_execPageWalk {s : State} (h : Good ib s) (g : Agent) (p : PartId) (va : Word) (acc : Access) (lvl : Level) :
    OutGood ib (execPageWalk g p va acc lvl s) := by
  unfold execPageWalk
  grind only [= outGood_next, ← good_translate, MGood.of_ok]

theorem good_evictLine {s : State} (h : Good ib s) (g : Agent) (line : Nat) : Good ib (evictLine s g line) := by
  unfold evictLine
  grind only [← Good.updCore, ← Good.updMs, = coreOk_mk_iff, ← CoreOk.pc, ← CoreOk.ts, ← CoreOk.th, ← Good.coreOk, ← Good.mem,
    ← good_dirDrop, ← good_flushSLine]

theorem good_execHomeRequest {s : State} (h : Good ib s) (g : Agent) (line : Nat) (req : HomeReq) :
    OutGood ib (execHomeRequest g line req s) := by
  unfold execHomeRequest
  grind only [= outGood_next, ← Good.updMs, ← Good.updPorts, ← Good.mem, ← good_dirRead, ← good_dirWrite, ← good_evictLine]

theorem good_execDirectoryMerge {s : State} (h : Good ib s) (base size : Nat) : OutGood ib (execDirectoryMerge base size s) := by
  unfold execDirectoryMerge
  grind only [= outGood_next, ← Good.updMs, ← Good.mem]

theorem good_dropMwcas {s : State} (h : Good ib s) (m : Mwcas) (o : MwOwner) : Good ib (dropMwcas s m o) := by
  unfold dropMwcas
  grind only [← Good.updCore, ← Good.updFab, = coreOk_mk_iff, ← CoreOk.pc, ← CoreOk.ts, ← CoreOk.th, ← Good.coreOk, ← good_mcheckStop,
    ← good_mwDrop]

theorem good_agentDead {s : State} (h : Good ib s) (g : Agent) : Good ib (agentDead s g) := by
  unfold agentDead
  grind only [← Good.updCore, ← Good.updMs, = coreOk_mk_iff, ← CoreOk.pc, ← CoreOk.ts, ← CoreOk.th, ← Good.coreOk, ← Good.mem,
    ← Good.foldl, ← good_dirForget, ← good_dropMwcas]

theorem good_execRecallTimeout {s : State} (h : Good ib s) (g : Agent) : OutGood ib (execRecallTimeout g s) := by
  unfold execRecallTimeout
  grind only [= outGood_next, ← good_agentDead]

theorem good_execAgentDeath {s : State} (h : Good ib s) (g : Agent) : OutGood ib (execAgentDeath g s) := by
  unfold execAgentDeath
  grind only [= outGood_next, ← good_agentDead]

theorem good_execPartitionMcheckStop {s : State} (h : Good ib s) (p : PartId) : OutGood ib (execPartitionMcheckStop p s) := by
  unfold execPartitionMcheckStop
  grind only [= outGood_next, ← good_mcheckStop]

theorem good_execPreciseStopComplete {s : State} (h : Good ib s) (r : RegionId) : OutGood ib (execPreciseStopComplete r s) := by
  unfold execPreciseStopComplete
  grind only [= outGood_next, ← Good.updDbg, ← good_trace]

theorem good_writeRecords {s : State} (h : Good ib s) (x : Ctx) (va : Word) (k : Nat) (l : List (List Byte)) :
    MGood ib (writeRecords s x va k l) := by
  induction l generalizing s va k with
  | nil => exact h
  | cons b bs ih =>
    have hs := good_storeBytes h x va b.length b
    unfold writeRecords
    grind only [= mGood_ok, mGood_wait]

theorem good_execDbglistComplete {s : State} (h : Good ib s) (r : RegionId) : OutGood ib (execDbglistComplete r s) := by
  unfold execDbglistComplete
  grind only [= outGood_next, ← Good.updDbg, ← good_writeRecords, MGood.of_ok]

theorem good_execTraceRecordWrite {s : State} (h : Good ib s) (p : PartId) : OutGood ib (execTraceRecordWrite p s) := by
  have hs (f : Partition → Partition) (va : Word) (ws : List Word) : MGood ib (storeWords (s.updPart p f) p va ws) :=
    good_storeWords (h.updPart p f) p va ws
  unfold execTraceRecordWrite
  grind only [= outGood_next, MGood.of_ok, ← Good.updPart]

theorem good_execTraceRecordDrop {s : State} (h : Good ib s) (p : PartId) : OutGood ib (execTraceRecordDrop p s) := by
  unfold execTraceRecordDrop
  grind only [= outGood_next, ← Good.updPart]

end Sys2Proof.Machine
end

section
/-!
PROOFS. What every step keeps: hosts.
-/

namespace Sys2Proof.Machine

open Sys2Proof

variable {ib : Bool}

theorem good_toHost {s : State} (h : Good ib s) (m : HostMsg) : Good ib (toHost s m) := h.updPorts ..

theorem good_ringDoorbell {s : State} (h : Good ib s) (p : PartId) : Good ib (ringDoorbell s p) := h.updPart ..

theorem good_setWinQueue {s : State} (h : Good ib s) (p : PartId) (l : List (Word × List Byte)) : Good ib (setWinQueue s p l) :=
  h.updPorts ..

theorem good_winGo {s : State} (h : Good ib s) (p : PartId) (l : List (Word × List Byte)) : Good ib (winGo p s l) := by
  induction l generalizing s with
  | nil => exact good_setWinQueue h p _
  | cons d rest ih =>
    obtain ⟨va, bs⟩ := d
    have hs := good_storeBytes h (hostCtx p) va bs.length bs
    unfold winGo
    grind only [MGood.of_ok, ← good_toHost, ← good_ringDoorbell, ← good_setWinQueue]

theorem good_winWrite {s : State} (h : Good ib s) (p : PartId) (va : Word) (bs : List Byte) : Good ib (winWrite s p va bs) :=
  good_winGo h ..

theorem good_execDoorbell {s : State} (h : Good ib s) (p : PartId) : OutGood ib (execDoorbell p s) := by
  unfold execDoorbell
  grind only [= outGood_next, ← good_toHost, ← good_winWrite]

theorem good_barWrite {s : State} (h : Good ib s) (p : PartId) (off : Nat) (bs : List Byte) : Good ib (barWrite s p off bs) := by
  unfold barWrite
  grind only [← Good.updPart, ← Good.foldl, ← good_toHost, ← good_winWrite]

theorem good_windowAccess {s : State} (h : Good ib s) (p : PartId) (q : HostReq) : OutGood ib (windowAccess s p q) := by
  have hg := good_winGo h p (winWaiting s p)
  have hl (va : Word) (n : Nat) : MGood ib (loadBytes (winGo p s (winWaiting s p)) (hostCtx p) va n) := good_loadBytes hg _ va n
  unfold windowAccess
  dsimp only
  split
  · split
    · exact good_toHost h _
    · exact good_winWrite h p _ _
  · grind only [= outGood_next, MGood.of_ok, ← good_toHost]

theorem good_execHostWindowAccess {s : State} (h : Good ib s) (p : PartId) (q : HostReq) : OutGood ib (execHostWindowAccess p q s) := by
  unfold execHostWindowAccess
  grind only [= outGood_next, ← Good.useFresh, ← good_barWrite, ← good_toHost, ← good_windowAccess]

theorem good_respond {s : State} (h : Good ib s) (r : SpdmResp) : Good ib (respond s r) := h.updPorts ..

theorem good_spdmError {s : State} (h : Good ib s) (fn : SpdmFn) : OutGood ib (spdmError s fn) := by
  unfold spdmError
  grind only [= outGood_next, ← good_respond]

theorem good_onFn {s : State} (h : Good ib s) (fn : SpdmFn) (k : Out) (hk : OutGood ib k) : OutGood ib (onFn s fn k) := by
  unfold onFn
  grind only [= outGood_next]

theorem good_reply {s : State} (h : Good ib s) (fn : SpdmFn) (code : BitVec 8) : OutGood ib (reply s fn code) := by
  unfold reply
  grind only [= outGood_next, ← Good.useFresh, ← good_respond]

theorem good_signed {s : State} (h : Good ib s) (fn : SpdmFn) (code : BitVec 8) (data : List Word) :
    OutGood ib (signed s fn code data) := by
  unfold signed
  grind only [= outGood_next, ← Good.updPorts, ← Good.useFresh, ← good_respond, ← good_spdmError]

theorem good_tdispReply {s : State} (h : Good ib s) (p : PartId) (code : BitVec 8) : OutGood ib (tdispReply s p code) := by
  unfold tdispReply
  grind only [= outGood_next, ← good_respond]

theorem good_setTdisp {s : State} (h : Good ib s) (p : PartId) (t : TdispState) : Good ib (setTdisp s p t) := h.updPart ..

theorem good_execTdispMessage {s : State} (h : Good ib s) (p : PartId) (q : TdispMsg) : OutGood ib (execTdispMessage p q s) := by
  unfold execTdispMessage
  grind only [← Good.updPart, ← good_onFn, ← good_setTdisp, ← good_spdmError, ← good_tdispReply]

theorem good_execGetVersion {s : State} (h : Good ib s) (fn : SpdmFn) (_req : List Byte) : OutGood ib (execGetVersion fn _req s) := by
  unfold execGetVersion
  grind only [← good_onFn, ← good_reply]

theorem good_execGetCapabilities {s : State} (h : Good ib s) (fn : SpdmFn) (_req : List Byte) :
    OutGood ib (execGetCapabilities fn _req s) := by
  unfold execGetCapabilities
  grind only [← good_onFn, ← good_reply]

theorem good_execNegotiateAlgorithms {s : State} (h : Good ib s) (fn : SpdmFn) (_req : List Byte) :
    OutGood ib (execNegotiateAlgorithms fn _req s) := by
  unfold execNegotiateAlgorithms
  grind only [← good_onFn, ← good_reply]

theorem good_execGetDigests {s : State} (h : Good ib s) (fn : SpdmFn) (_req : List Byte) : OutGood ib (execGetDigests fn _req s) := by
  unfold execGetDigests
  grind only [← good_onFn, ← good_reply]

theorem good_execGetCertificate {s : State} (h : Good ib s) (fn : SpdmFn) (_req : List Byte) :
    OutGood ib (execGetCertificate fn _req s) := by
  unfold execGetCertificate
  grind only [← good_onFn, ← good_reply]

theorem good_execChallenge {s : State} (h : Good ib s) (fn : SpdmFn) (_req : List Byte) : OutGood ib (execChallenge fn _req s) := by
  unfold execChallenge
  grind only [← good_onFn, ← good_signed]

theorem good_execGetMeasurements {s : State} (h : Good ib s) (fn : SpdmFn) (req : List Byte) :
    OutGood ib (execGetMeasurements fn req s) := by
  unfold execGetMeasurements
  grind only [= outGood_next, ← good_onFn, ← good_respond, ← good_signed]

theorem good_setSession {s : State} (h : Good ib s) (fn : SpdmFn) (g : Option Nat) : Good ib (setSession s fn g) := h.updPorts ..

theorem good_execKeyExchange {s : State} (h : Good ib s) (fn : SpdmFn) (_req : List Byte) : OutGood ib (execKeyExchange fn _req s) := by
  unfold execKeyExchange
  grind only [← good_onFn, ← good_setSession, ← good_signed, ← good_spdmError]

theorem good_execFinish {s : State} (h : Good ib s) (fn : SpdmFn) (_req : List Byte) : OutGood ib (execFinish fn _req s) := by
  unfold execFinish
  grind only [← good_onFn, ← good_reply, ← good_setSession, ← good_spdmError]

theorem good_execEndSession {s : State} (h : Good ib s) (fn : SpdmFn) (_req : List Byte) : OutGood ib (execEndSession fn _req s) := by
  unfold execEndSession
  grind only [← good_onFn, ← good_reply, ← good_setSession, ← good_spdmError]

theorem good_updLink {s : State} (h : Good ib s) (l : BitVec 4) (f : Link → Link) : Good ib (updLink s l f) := by
  unfold updLink
  grind only [← Good.updMs, ← Good.mem]

theorem good_execKeyUpdate {s : State} (h : Good ib s) (tgt : KeyTarget) : OutGood ib (execKeyUpdate tgt s) := by
  unfold execKeyUpdate
  grind only [= outGood_next, ← good_onFn, ← good_reply, ← good_setSession, ← good_spdmError, ← good_updLink]

theorem good_downOp {s : State} (h : Good ib s) (l : BitVec 4) (o : Op) : Good ib (downOp l s o) := by
  unfold downOp
  grind only [← good_closeWindow, ← good_execCollComplete, OutGood.of_next, ← good_failRound, ← good_finishOp]

theorem good_linkGoesDown {s : State} (h : Good ib s) (l : BitVec 4) : Good ib (linkGoesDown s l) := by
  unfold linkGoesDown
  grind only [← Good.foldl, ← good_downOp, ← good_mwLinkDown, ← good_updLink]

theorem good_execLinkDown {s : State} (h : Good ib s) (l : BitVec 4) : OutGood ib (execLinkDown l s) := by
  unfold execLinkDown
  grind only [= outGood_next, ← good_linkGoesDown]

theorem good_execLinkRetrain {s : State} (h : Good ib s) (l : BitVec 4) : OutGood ib (execLinkRetrain l s) := by
  unfold execLinkRetrain
  grind only [= outGood_next, ← good_updLink]

theorem good_rasLog {s : State} (h : Good ib s) (code : BitVec 8) (info : Word) : Good ib (rasLog s code info) := h.updPorts ..

theorem good_servePeer {s : State} (h : Good ib s) (f : Flit) : MGood ib (servePeer s f) := by
  unfold servePeer
  grind only [= mGood_ok, ← good_loadBytes, ← good_storeBytes, ← MGood.bind]

theorem good_peerReply {s : State} (h : Good ib s) (l : BitVec 4) (f : Flit) (body : List Byte) : Good ib (peerReply s l f body) := by
  unfold peerReply
  grind only [← Good.updMs, ← Good.mem]

theorem good_execFlitReceive {s : State} (h : Good ib s) (l : BitVec 4) (f : Flit) : OutGood ib (execFlitReceive l f s) := by
  have hp := good_servePeer h f
  unfold execFlitReceive
  dsimp only
  split
  · exact h
  · split
    · split
      · exact good_linkGoesDown h l
      · exact good_updLink h l _
    · split
      · exact h
      · split
        · exact good_rasLog (good_updLink (good_updLink h l _) l _) _ _
        · split
          · split
            · exact good_rasLog (good_updLink h l _) _ _
            · grind only [= outGood_next, MGood.of_ok, ← good_peerReply, ← good_updLink]
          · exact (good_updLink h l _).updPorts _
          · exact good_updLink h l _

theorem good_readPhys {s : State} (h : Good ib s) (x : Ctx) (pa n : Nat) : MGood ib (readPhys s x pa n) := by
  induction n generalizing s pa with
  | zero => exact h
  | succ n ih => exact (good_readAt h _ _ _ _).bind fun _ _ ht => (ih ht _).bind fun _ _ hu => hu

theorem good_writePhys {s : State} (h : Good ib s) (x : Ctx) (pa k : Nat) (l : List Byte) : MGood ib (writePhys s x pa k l) := by
  induction k generalizing s pa l with
  | zero => exact h
  | succ k ih =>
    cases l with
    | nil => exact h
    | cons b bs => exact (good_writeAt h _ _ _ _ _).bind fun _ _ ht => ih ht _ _

theorem good_toDevice {s : State} (h : Good ib s) (m : DmaMsg) : Good ib (toDevice s m) := h.updPorts ..

theorem good_execStorageDma {s : State} (h : Good ib s) (q : DmaReq) : OutGood ib (execStorageDma q s) := by
  unfold execStorageDma
  grind only [= outGood_next, ← good_rasLog, ← good_readPhys, MGood.of_ok, ← good_toDevice, ← good_writePhys]

theorem good_haltAll {s : State} (h : Good ib s) : Good ib (haltAll s) := by
  obtain ⟨hm, hq, hy⟩ := h
  refine ⟨hm, fun n => ?_, fun n => ?_⟩
  · simpa [haltAll] using (hq n).coreStop .halted
  · simpa [haltAll] using (hy n).coreStop .halted

theorem CoreOk.monitorCore {c : Core} (h : CoreOk ib c) (pc : Word) : CoreOk ib (Machine.monitorCore pc c) :=
  ⟨addrOk_masked pc, h.ts, h.th⟩

theorem good_execDeviceBoot {s : State} (h : Good ib s) : OutGood ib (execDeviceBoot s) := by
  have h0 (n : Nat) (d : Vector Die 4) : Good ib { s with booted := true, fresh := n, dies := d } := h
  unfold execDeviceBoot
  dsimp only
  split
  · exact h
  · split
    · exact good_haltAll (h0 _ _)
    · split
      · exact good_haltAll (h0 _ _)
      · refine Good.updCore (s := State.updMs _ _) (((h0 _ _).updPorts _).updMs h.mem) (CoreOk.monitorCore ?_ _)
        exact (((h0 _ _).updPorts _).updMs h.mem).coreOk _

theorem addrOk_zero : AddrOk ib 0 := fun _ => rfl

theorem trapsOk_reset : TrapsOk ib TrapRegs.reset := ⟨addrOk_zero, addrOk_zero⟩

theorem coreOk_reset : CoreOk ib Core.reset := ⟨addrOk_zero, trapsOk_reset, trapsOk_reset⟩

theorem Good.setCore {s : State} (h : Good ib s) (c : CoreId) {x : Core} (hx : CoreOk ib x) : Good ib (s.setCore c x) :=
  h.updCore (f := fun _ => x) hx

theorem good_execPartitionCreate {s : State} (h : Good ib s) (p : PartId) (g : PartCfg) : OutGood ib (execPartitionCreate p g s) := by
  have hr (w : Word) : CoreOk ib { Core.reset with part := some p, cycBase := w } := coreOk_reset
  unfold execPartitionCreate
  dsimp only
  split
  · exact h
  · split
    · exact good_haltAll h
    · have h1 (q : Partition) (l : List CoreId) : Good ib (l.foldl (fun s c =>
          s.setCore c { Core.reset with part := some p, cycBase := s.fclock }) ((s.useFresh 32).setPart p q)) :=
        Good.foldl (show Good ib ((s.useFresh 32).setPart p q) from h) fun t c ht => ht.setCore c (hr t.fclock)
      split
      · next c _ =>
        have hc := (h1 (newPartition g (extendFree s [])) (cfgCores g)).coreOk c
        exact (h1 _ _).updCore ⟨addrOk_masked _, hc.ts, hc.th⟩
      · exact h1 _ _

theorem good_dropRequests {s : State} (h : Good ib s) (p : PartId) : Good ib (dropRequests s p) := by
  unfold dropRequests
  dsimp only
  exact Good.foldl h fun t d ht => good_takeBids ht d _

theorem MemOk.filter {m : Memory} (h : MemOk ib m) (p : Nat × Byte → Bool) : MemOk ib (m.filter p) :=
  fun hb => Memory.wfFrom_filter (h hb) p

theorem good_eraseKey {s : State} (h : Good ib s) (p : PartId) : Good ib (eraseKey s p) := h.updMs (h.mem.filter _)

theorem good_execPartitionDestroy {s : State} (h : Good ib s) (p : PartId) : OutGood ib (execPartitionDestroy p s) := by
  have hr (w : Word) : CoreOk ib { Core.reset with run := .halted, cycBase := w } := coreOk_reset
  unfold execPartitionDestroy
  dsimp only
  split
  · exact h
  · have h1 : Good ib (haltPart (s.updPart p fun q => { q with st := .destroying }) p) := good_haltPart (h.updPart p _) p
    have h2 (l : List RegionId) : Good ib (l.foldl freeRegion (haltPart (s.updPart p fun q => { q with st := .destroying }) p)) :=
      h1.foldl fun t r ht => good_freeRegion ht r
    have h3 (l : List CoreId) {u : State} (hu : Good ib u) : Good ib (l.foldl (fun s c =>
        s.setCore c { Core.reset with run := .halted, cycBase := s.fclock }) u) :=
      hu.foldl fun t c ht => ht.setCore c (hr t.fclock)
    exact good_setWinQueue (good_setSession (s := State.setPart _ _ _) (h3 _ (good_eraseKey (good_dropRequests (h2 _) p) p)) _ _) p _

end Sys2Proof.Machine
end

section
/-!
PROOFS. What every step keeps: integer and matrix.
-/

namespace Sys2Proof.Machine

open Sys2Proof

variable {ib : Bool}

theorem good_intRR {s : State} (h : Good ib s) (d a b : Reg) (f : Word → Word → Word) : OutGood ib (intRR s d a b f) := by
  unfold intRR
  grind only [← good_needRegs, ← good_retireG]

theorem good_intR {s : State} (h : Good ib s) (d a : Reg) (f : Word → Word) : OutGood ib (intR s d a f) := by
  unfold intR
  grind only [← good_needRegs, ← good_retireG]

theorem good_intDiv {s : State} (h : Good ib s) (d a b : Reg) (f : Word → Word → Word) : OutGood ib (intDiv s d a b f) := by
  unfold intDiv
  grind only [← good_needRegs, ← good_raise, ← good_retireG]

theorem good_execAdd {s : State} (h : Good ib s) (d a b : Reg) : OutGood ib (execAdd d a b s) := good_intRR h ..

theorem good_execSub {s : State} (h : Good ib s) (d a b : Reg) : OutGood ib (execSub d a b s) := good_intRR h ..

theorem good_execAnd {s : State} (h : Good ib s) (d a b : Reg) : OutGood ib (execAnd d a b s) := good_intRR h ..

theorem good_execOr {s : State} (h : Good ib s) (d a b : Reg) : OutGood ib (execOr d a b s) := good_intRR h ..

theorem good_execXor {s : State} (h : Good ib s) (d a b : Reg) : OutGood ib (execXor d a b s) := good_intRR h ..

theorem good_execSll {s : State} (h : Good ib s) (d a b : Reg) : OutGood ib (execSll d a b s) := good_intRR h ..

theorem good_execSrl {s : State} (h : Good ib s) (d a b : Reg) : OutGood ib (execSrl d a b s) := good_intRR h ..

theorem good_execSra {s : State} (h : Good ib s) (d a b : Reg) : OutGood ib (execSra d a b s) := good_intRR h ..

theorem good_execSlt {s : State} (h : Good ib s) (d a b : Reg) : OutGood ib (execSlt d a b s) := good_intRR h ..

theorem good_execSltu {s : State} (h : Good ib s) (d a b : Reg) : OutGood ib (execSltu d a b s) := good_intRR h ..

theorem good_execMin {s : State} (h : Good ib s) (d a b : Reg) : OutGood ib (execMin d a b s) := good_intRR h ..

theorem good_execMax {s : State} (h : Good ib s) (d a b : Reg) : OutGood ib (execMax d a b s) := good_intRR h ..

theorem good_execMul {s : State} (h : Good ib s) (d a b : Reg) : OutGood ib (execMul d a b s) := good_intRR h ..

theorem good_execMulh {s : State} (h : Good ib s) (d a b : Reg) : OutGood ib (execMulh d a b s) := good_intRR h ..

theorem good_execMulhu {s : State} (h : Good ib s) (d a b : Reg) : OutGood ib (execMulhu d a b s) := good_intRR h ..

theorem good_execDiv {s : State} (h : Good ib s) (d a b : Reg) : OutGood ib (execDiv d a b s) := good_intDiv h ..

theorem good_execDivu {s : State} (h : Good ib s) (d a b : Reg) : OutGood ib (execDivu d a b s) := good_intDiv h ..

theorem good_execRem {s : State} (h : Good ib s) (d a b : Reg) : OutGood ib (execRem d a b s) := good_intDiv h ..

theorem good_execRemu {s : State} (h : Good ib s) (d a b : Reg) : OutGood ib (execRemu d a b s) := good_intDiv h ..

theorem good_execClz {s : State} (h : Good ib s) (d a : Reg) : OutGood ib (execClz d a s) := good_intR h ..

theorem good_execPopc {s : State} (h : Good ib s) (d a : Reg) : OutGood ib (execPopc d a s) := good_intR h ..

theorem good_execAddi {s : State} (h : Good ib s) (d a : Reg) (imm : BitVec 16) : OutGood ib (execAddi d a imm s) := good_intR h ..

theorem good_execAndi {s : State} (h : Good ib s) (d a : Reg) (imm : BitVec 16) : OutGood ib (execAndi d a imm s) := good_intR h ..

theorem good_execOri {s : State} (h : Good ib s) (d a : Reg) (imm : BitVec 16) : OutGood ib (execOri d a imm s) := good_intR h ..

theorem good_execXori {s : State} (h : Good ib s) (d a : Reg) (imm : BitVec 16) : OutGood ib (execXori d a imm s) := good_intR h ..

theorem good_execSlti {s : State} (h : Good ib s) (d a : Reg) (imm : BitVec 16) : OutGood ib (execSlti d a imm s) := good_intR h ..

theorem good_execLui {s : State} (h : Good ib s) (d : Reg) (imm : BitVec 16) : OutGood ib (execLui d imm s) := by
  unfold execLui
  grind only [← good_needRegs, ← good_retireG]

theorem good_execSlli {s : State} (h : Good ib s) (d a : Reg) (n : BitVec 6) : OutGood ib (execSlli d a n s) := good_intR h ..

theorem good_execSrli {s : State} (h : Good ib s) (d a : Reg) (n : BitVec 6) : OutGood ib (execSrli d a n s) := good_intR h ..

theorem good_execSrai {s : State} (h : Good ib s) (d a : Reg) (n : BitVec 6) : OutGood ib (execSrai d a n s) := good_intR h ..

theorem good_commandNode {s : State} (h : Good ib s) (opc : BitVec 8) (nf : NodeFields) : OutGood ib (commandNode s opc nf) := by
  unfold commandNode
  refine good_fireNode h _ _ _ fun s x h => ?_
  split
  · exact nodeGood_wait
  · exact good_dataNode h x _ _ _ fun s x h => good_noOut ((good_reserveEntry h _ _ _).updFab _ _) x

theorem good_execMxf {s : State} (h : Good ib s) (n : NodeFields) : OutGood ib (execMxf n s) := by
  unfold execMxf
  refine good_fireNode h _ _ _ fun s x h => ?_
  split
  · exact nodeGood_wait
  · refine good_dataNode h x _ _ _ fun s x h => ?_
    grind only [nodeGood_park, ← Good.updFab, ← good_errOut, ← good_oneOut]

theorem good_execMxclm {s : State} (h : Good ib s) (n : NodeFields) : OutGood ib (execMxclm n s) := good_commandNode h ..

theorem good_execMxrel {s : State} (h : Good ib s) (n : NodeFields) : OutGood ib (execMxrel n s) := good_commandNode h ..

theorem good_execMxmul {s : State} (h : Good ib s) (n : NodeFields) : OutGood ib (execMxmul n s) := good_commandNode h ..

theorem good_execMxdrn {s : State} (h : Good ib s) (n : NodeFields) : OutGood ib (execMxdrn n s) := good_commandNode h ..

theorem good_execMxzero {s : State} (h : Good ib s) (n : NodeFields) : OutGood ib (execMxzero n s) := good_commandNode h ..

theorem good_execMxrec {s : State} (h : Good ib s) (n : NodeFields) : OutGood ib (execMxrec n s) := good_commandNode h ..

theorem good_execMxsigm {s : State} (h : Good ib s) (n : NodeFields) : OutGood ib (execMxsigm n s) := good_commandNode h ..

theorem good_noteRoom {s : State} (h : Good ib s) (r : RegionId) (row : BitVec 5) (col : BitVec 6) : Good ib (noteRoom s r row col) := by
  unfold noteRoom
  grind only [← Good.updNode, ← Good.foldl]

theorem good_dropCmd {s : State} (h : Good ib s) (r : RegionId) (c : ArrayCmd) : Good ib (dropCmd s r c) := by
  unfold dropCmd
  grind only [← Good.updFab, ← good_noteRoom, ← good_touch]

theorem good_cmdDone {s : State} (h : Good ib s) (r : RegionId) (c : ArrayCmd) (t : Token) : Good ib (cmdDone s r c t) := by
  unfold cmdDone
  grind only [← good_dropCmd, ← good_fillEntry, ← good_sigCount]

theorem good_cmdError {s : State} (h : Good ib s) (r : RegionId) (c : ArrayCmd) (cause : BitVec 8) : Good ib (cmdError s r c cause) := by
  unfold cmdError
  grind only [← good_cmdDone, ← good_noteFault]

theorem good_cmdPark {s : State} (h : Good ib s) (r : RegionId) (c : ArrayCmd) : Good ib (cmdPark s r c) := by
  unfold cmdPark
  grind only [← good_dropCmd, ← good_fillEntry, ← good_freeze, ← good_park, ParkedGood.of_parked]

theorem good_cmdChecked {s : State} (h : Good ib s) (r : RegionId) (c : ArrayCmd) (flips : BitVec 664) (go : State → ArrayCmd → State)
    (hgo : ∀ x0 x1, Good ib x0 → Good ib (go x0 x1)) : Good ib (cmdChecked s r c flips go) := by
  unfold cmdChecked
  grind only [← Good.updFab, ← good_cmdDone, ← good_dropCmd, ← good_fillEntry, ← good_lastCheck]

theorem good_execCmd {s : State} (h : Good ib s) (t : TileAt) (opc : BitVec 8) (flips : BitVec 664) (k : State → ArrayCmd → State)
    (hk : ∀ x0 x1, Good ib x0 → Good ib (k x0 x1)) : OutGood ib (execCmd s t opc flips k) := by
  unfold execCmd
  grind only [= outGood_next, ← good_cmdChecked, ← good_cmdError]

theorem good_execMxclmExecute {s : State} (h : Good ib s) (t : CmdAt) : OutGood ib (execMxclmExecute t s) := by
  unfold execMxclmExecute
  grind only [← Good.updFab, ← good_cmdDone, ← good_cmdPark, ← good_execCmd]

theorem good_execMxrelExecute {s : State} (h : Good ib s) (t : CmdAt) : OutGood ib (execMxrelExecute t s) := by
  unfold execMxrelExecute
  grind only [← Good.updFab, ← good_cmdDone, ← good_cmdPark, ← good_execCmd]

theorem good_execMxmulExecute {s : State} (h : Good ib s) (t : CmdAt) : OutGood ib (execMxmulExecute t s) := by
  unfold execMxmulExecute
  grind only [← Good.updFab, ← good_cmdDone, ← good_cmdError, ← good_cmdPark, ← good_execCmd]

theorem good_execMxzeroExecute {s : State} (h : Good ib s) (t : CmdAt) : OutGood ib (execMxzeroExecute t s) := by
  unfold execMxzeroExecute
  grind only [← Good.updFab, ← good_cmdDone, ← good_execCmd]

theorem good_execMxdrnExecute {s : State} (h : Good ib s) (t : CmdAt) : OutGood ib (execMxdrnExecute t s) := by
  unfold execMxdrnExecute
  grind only [← Good.updFab, ← good_cmdDone, ← good_execCmd]

theorem good_execMxsigmExecute {s : State} (h : Good ib s) (t : CmdAt) : OutGood ib (execMxsigmExecute t s) := by
  unfold execMxsigmExecute
  grind only [← good_cmdDone, ← good_execCmd]

theorem good_execMxrecExecute {s : State} (h : Good ib s) (t : CmdAt) : OutGood ib (execMxrecExecute t s) := by
  unfold execMxrecExecute
  grind only [← Good.updFab, ← good_cmdDone, ← good_cmdError, ← good_cmdPark, ← good_execCmd]

end Sys2Proof.Machine
end

section
/-!
PROOFS. What every step keeps: instructions, turns and steps, and the obligation.
-/

namespace Sys2Proof.Machine

open Sys2Proof

variable {ib : Bool} {s : State}

/-! ### Instructions -/

theorem good_exec (h : Good ib s) : ∀ i : Instr, OutGood ib (exec i s)
  | .add d a b => good_execAdd h d a b
  | .sub d a b => good_execSub h d a b
  | .and d a b => good_execAnd h d a b
  | .or d a b => good_execOr h d a b
  | .xor d a b => good_execXor h d a b
  | .sll d a b => good_execSll h d a b
  | .srl d a b => good_execSrl h d a b
  | .sra d a b => good_execSra h d a b
  | .slt d a b => good_execSlt h d a b
  | .sltu d a b => good_execSltu h d a b
  | .min d a b => good_execMin h d a b
  | .max d a b => good_execMax h d a b
  | .mul d a b => good_execMul h d a b
  | .mulh d a b => good_execMulh h d a b
  | .mulhu d a b => good_execMulhu h d a b
  | .div d a b => good_execDiv h d a b
  | .divu d a b => good_execDivu h d a b
  | .rem d a b => good_execRem h d a b
  | .remu d a b => good_execRemu h d a b
  | .clz d a => good_execClz h d a
  | .popc d a => good_execPopc h d a
  | .addi d a imm => good_execAddi h d a imm
  | .andi d a imm => good_execAndi h d a imm
  | .ori d a imm => good_execOri h d a imm
  | .xori d a imm => good_execXori h d a imm
  | .slti d a imm => good_execSlti h d a imm
  | .lui d imm => good_execLui h d imm
  | .slli d a n => good_execSlli h d a n
  | .srli d a n => good_execSrli h d a n
  | .srai d a n => good_execSrai h d a n
  | .ld d a off => good_execLd h d a off
  | .sd d a off => good_execSd h d a off
  | .lb d a off => good_execLb h d a off
  | .lbu d a off => good_execLbu h d a off
  | .lh d a off => good_execLh h d a off
  | .lhu d a off => good_execLhu h d a off
  | .lw d a off => good_execLw h d a off
  | .lwu d a off => good_execLwu h d a off
  | .sb d a off => good_execSb h d a off
  | .sh d a off => good_execSh h d a off
  | .sw d a off => good_execSw h d a off
  | .flw d a off => good_execFlw h d a off
  | .fld d a off => good_execFld h d a off
  | .fsw d a off => good_execFsw h d a off
  | .fsd d a off => good_execFsd h d a off
  | .fldt d a f off => good_execFldt h d a f off
  | .fsdt d a off => good_execFsdt h d a off
  | .lda d a off => good_execLda h d a off
  | .stl d a off => good_execStl h d a off
  | .fadd d a b rm f => good_execFadd h d a b rm f
  | .fsub d a b rm f => good_execFsub h d a b rm f
  | .fmul d a b rm f => good_execFmul h d a b rm f
  | .fdiv d a b rm f => good_execFdiv h d a b rm f
  | .fsqrt d a rm f => good_execFsqrt h d a rm f
  | .fmin d a b f => good_execFmin h d a b f
  | .fmax d a b f => good_execFmax h d a b f
  | .fsgn d a b v f => good_execFsgn h d a b v f
  | .fcmp d a b v f => good_execFcmp h d a b v f
  | .frnd d a rm f => good_execFrnd h d a rm f
  | .fma d a b c rm f => good_execFma h d a b c rm f
  | .fms d a b c rm f => good_execFms h d a b c rm f
  | .fcvt d a src dst rm => good_execFcvt h d a src dst rm
  | .fmvg d a f => good_execFmvg h d a f
  | .fmvf d a f => good_execFmvf h d a f
  | .fsig d a f => good_execFsig h d a f
  | .fsigset d a f => good_execFsigset h d a f
  | .bsig f thr off => good_execBsig h f thr off
  | .beq a b off => good_execBeq h a b off
  | .bne a b off => good_execBne h a b off
  | .blt a b off => good_execBlt h a b off
  | .bge a b off => good_execBge h a b off
  | .bltu a b off => good_execBltu h a b off
  | .bgeu a b off => good_execBgeu h a b off
  | .jal off => good_execJal h off
  | .jalr d a imm => good_execJalr h d a imm
  | .amoadd d a b w ord => good_execAmoadd h d a b w ord
  | .amoswap d a b w ord => good_execAmoswap h d a b w ord
  | .amomin d a b u w ord => good_execAmomin h d a b u w ord
  | .amomax d a b u w ord => good_execAmomax h d a b u w ord
  | .amocas d a b w ord => good_execAmocas h d a b w ord
  | .mwcas d a => good_execMwcas h d a
  | .fence sc => good_execFence h sc
  | .reqr d a b => good_execReqr h d a b
  | .rqry d a => good_execRqry h d a
  | .loadimg d a => good_execLoadimg h d a
  | .launch d a b e => good_execLaunch h d a b e
  | .killr d a => good_execKillr h d a
  | .preemptKill d a b => good_execPreemptKill h d a b
  | .preemptSnapshot d a b => good_execPreemptSnapshot h d a b
  | .resumr d a b => good_execResumr h d a b
  | .strm d a b e => good_execStrm h d a b e
  | .sbar d a => good_execSbar h d a
  | .copy d a b e => good_execCopy h d a b e
  | .cmpct d a => good_execCmpct h d a
  | .publish d a => good_execPublish h d a
  | .migrate d a b => good_execMigrate h d a b
  | .coll d a b => good_execColl h d a b
  | .waitw d a b => good_execWaitw h d a b
  | .assert d a => good_execAssert h d a
  | .retract a => good_execRetract h a
  | .modify d a b => good_execModify h d a b
  | .settle d => good_execSettle h d
  | .select d a b => good_execSelect h d a b
  | .fired a => good_execFired h a
  | .wave => good_execWave h
  | .scoreclr a => good_execScoreclr h a
  | .trap e => good_execTrap h e
  | .hvcall e => good_execHvcall h e
  | .brk e => good_execBrk h e
  | .rett => good_execRett h
  | .sread d n m => good_execSread h d n m
  | .swrite d n m => good_execSwrite h d n m
  | .tlbinv a => good_execTlbinv h a
  | .tlbsync => good_execTlbsync h
  | .wfe => good_execWfe h
  | .halt => good_execHalt h
  | .replay a => good_execReplay h a
  | .fresSupply a b => good_execFresSupply h a b
  | .fresRetry a b => good_execFresRetry h a b
  | .fresKill a b => good_execFresKill h a b
  | .sqstart d a b => good_execSqstart h d a b
  | .cacheopClean a => good_execCacheopClean h a
  | .cacheopInval a => good_execCacheopInval h a
  | .cacheopFlush a => good_execCacheopFlush h a
  | .cacheopPfr a => good_execCacheopPfr h a
  | .cacheopPfw a => good_execCacheopPfw h a
  | .cacheopIinv a => good_execCacheopIinv h a
  | .vadd n => good_execVadd h n
  | .vsub n => good_execVsub h n
  | .vmul n => good_execVmul h n
  | .vfma n => good_execVfma h n
  | .vmin n => good_execVmin h n
  | .vmax n => good_execVmax h n
  | .vabs n => good_execVabs h n
  | .vneg n => good_execVneg h n
  | .vdiv n => good_execVdiv h n
  | .vsqrt n => good_execVsqrt h n
  | .vrsq n => good_execVrsq h n
  | .vrcp n => good_execVrcp h n
  | .vexp2 n => good_execVexp2 h n
  | .vlog2 n => good_execVlog2 h n
  | .vtanh n => good_execVtanh h n
  | .viadd n => good_execViadd h n
  | .visub n => good_execVisub h n
  | .vimul n => good_execVimul h n
  | .vand n => good_execVand h n
  | .vor n => good_execVor h n
  | .vxor n => good_execVxor h n
  | .vshl n => good_execVshl h n
  | .vshr n => good_execVshr h n
  | .vcmp n => good_execVcmp h n
  | .vsel n => good_execVsel h n
  | .vrsum n => good_execVrsum h n
  | .vrmax n => good_execVrmax h n
  | .vrmin n => good_execVrmin h n
  | .vargmx n => good_execVargmx h n
  | .vscan n => good_execVscan h n
  | .vperm n => good_execVperm h n
  | .vbcast n => good_execVbcast h n
  | .vpopc n => good_execVpopc h n
  | .vcvt n => good_execVcvt h n
  | .qz n => good_execQz h n
  | .dq n => good_execDq h n
  | .cv8 n => good_execCv8 h n
  | .bfly n => good_execBfly h n
  | .vsig n => good_execVsig h n
  | .sigchk n => good_execSigchk h n
  | .mxf n => good_execMxf h n
  | .mxclm n => good_execMxclm h n
  | .mxrel n => good_execMxrel h n
  | .mxmul n => good_execMxmul h n
  | .mxdrn n => good_execMxdrn h n
  | .mxzero n => good_execMxzero h n
  | .mxrec n => good_execMxrec h n
  | .mxsigm n => good_execMxsigm h n
  | .mxclmExecute t => good_execMxclmExecute h t
  | .mxrelExecute t => good_execMxrelExecute h t
  | .mxmulExecute t => good_execMxmulExecute h t
  | .mxzeroExecute t => good_execMxzeroExecute h t
  | .mxdrnExecute t => good_execMxdrnExecute h t
  | .mxsigmExecute t => good_execMxsigmExecute h t
  | .mxrecExecute t => good_execMxrecExecute h t
  | .steer n => good_execSteer h n
  | .merge n => good_execMerge h n
  | .reord n => good_execReord h n
  | .reorderDueEmit n => good_execReorderDueEmit h n
  | .loop n => good_execLoop h n
  | .loopDoneAbsorb r src => good_execLoopDoneAbsorb h r src
  | .next n => good_execNext h n
  | .lexit n => good_execLexit h n
  | .call n => good_execCall h n
  | .ret n => good_execRet h n
  | .ctr n => good_execCtr h n
  | .counterChainEmit n => good_execCounterChainEmit h n
  | .sloop n => good_execSloop h n
  | .isect n => good_execIsect h n
  | .union n => good_execUnion h n
  | .stopg n => good_execStopg h n
  | .delay n => good_execDelay h n
  | .delayRelease n => good_execDelayRelease h n
  | .sink n => good_execSink h n
  | .dup n => good_execDup h n
  | .switch n => good_execSwitch h n
  | .selx n => good_execSelx h n
  | .cjoin n => good_execCjoin h n
  | .cleave n => good_execCleave h n
  | .cbar n => good_execCbar h n
  | .cnt n => good_execCnt h n
  | .const n => good_execConst h n
  | .agen n => good_execAgen h n
  | .agenEmit n => good_execAgenEmit h n
  | .ldn n => good_execLdn h n
  | .stn n => good_execStn h n
  | .ldx n => good_execLdx h n
  | .stx n => good_execStx h n
  | .atom n => good_execAtom h n
  | .mcas n => good_execMcas h n
  | .pref n => good_execPref h n
  | .spacc n => good_execSpacc h n
  | .spaccFlushEmit n => good_execSpaccFlushEmit h n
  | .param n => good_execParam h n
  | .accessPerform r k => good_execAccessPerform h r k
  | .delta n => good_execDelta h n
  | .alpha n => good_execAlpha h n
  | .bjoin n => good_execBjoin h n
  | .bneg n => good_execBneg h n
  | .score n => good_execScore h n
  | .scoreTimeout n key => good_execScoreTimeout h n key
  | .term n => good_execTerm h n
  | .csuDelivery p k => good_execCsuDelivery h p k
  | .deltaSettled p n => good_execDeltaSettled h p n
  | .tokenHop r src par => good_execTokenHop h r src par
  | .tokenDeliver r src par => good_execTokenDeliver h r src par
  | .sprueRefill r k => good_execSprueRefill h r k
  | .parkTableRetry n => good_execParkTableRetry h n
  | .contextReturn r c => good_execContextReturn h r c
  | .ctxwaitExpiry n => good_execCtxwaitExpiry h n
  | .regionQuiescence r => good_execRegionQuiescence h r
  | .hangTimeout r => good_execHangTimeout h r
  | .cfgStoreUe t => good_execCfgStoreUe h t
  | .pfqDeferredWrite p => good_execPfqDeferredWrite h p
  | .heldAccessRetranslate r k => good_execHeldAccessRetranslate h r k
  | .pageWalk g p va acc lvl => good_execPageWalk h g p va acc lvl
  | .homeRequest g line req => good_execHomeRequest h g line req
  | .directoryMerge base size => good_execDirectoryMerge h base size
  | .recallTimeout g => good_execRecallTimeout h g
  | .agentDeath g => good_execAgentDeath h g
  | .crucibleLockGrant k => good_execCrucibleLockGrant h k
  | .mwcasCommit k => good_execMwcasCommit h k
  | .migrationSwitch k => good_execMigrationSwitch h k
  | .publishFlip k => good_execPublishFlip h k
  | .tundishAdmissionRound d => good_execTundishAdmissionRound h d
  | .loadimgComplete k => good_execLoadimgComplete h k
  | .launchTakeEffect k => good_execLaunchTakeEffect h k
  | .loadComplete k => good_execLoadComplete h k
  | .killrComplete k => good_execKillrComplete h k
  | .snapshotComplete k => good_execSnapshotComplete h k
  | .streamRoundAccess k => good_execStreamRoundAccess h k
  | .strmComplete k => good_execStrmComplete h k
  | .sbarComplete k => good_execSbarComplete h k
  | .copyComplete k => good_execCopyComplete h k
  | .cmpctComplete k => good_execCmpctComplete h k
  | .collComplete k peer news => good_execCollComplete h k peer news
  | .settleComplete k => good_execSettleComplete h k
  | .selectBatch k => good_execSelectBatch h k
  | .tlbsyncComplete c => good_execTlbsyncComplete h c
  | .waitwWake c => good_execWaitwWake h c
  | .wfeWake c => good_execWfeWake h c
  | .timer c => good_execTimer h c
  | .interruptTake c => good_execInterruptTake h c
  | .thermalLimit d cl => good_execThermalLimit h d cl
  | .partitionMcheckStop p => good_execPartitionMcheckStop h p
  | .idleEntry r => good_execIdleEntry h r
  | .regionWake r => good_execRegionWake h r
  | .dieW4Entry d => good_execDieW4Entry h d
  | .timecmpSWrite c v => good_execTimecmpSWrite h c v
  | .pfqheadWrite c v => good_execPfqheadWrite h c v
  | .pfqtailRead c d => good_execPfqtailRead h c d
  | .wmbaseWrite c v => good_execWmbaseWrite h c v
  | .tqcfgWrite c v => good_execTqcfgWrite h c v
  | .sqctlStop c => good_execSqctlStop h c
  | .sqctlGo c => good_execSqctlGo h c
  | .fgctlStop c => good_execFgctlStop h c
  | .preciseStopComplete r => good_execPreciseStopComplete h r
  | .fgctlGo c => good_execFgctlGo h c
  | .fgctlUnpark c => good_execFgctlUnpark h c
  | .fgctlClrmg c => good_execFgctlClrmg h c
  | .fglistGo c => good_execFglistGo h c
  | .dbglistComplete r => good_execDbglistComplete h r
  | .fglstatRead c d => good_execFglstatRead h c d
  | .traceRecordWrite p => good_execTraceRecordWrite h p
  | .traceRecordDrop p => good_execTraceRecordDrop h p
  | .fgtrcntRead c d => good_execFgtrcntRead h c d
  | .fgcstopWrite c v => good_execFgcstopWrite h c v
  | .crashkGo c => good_execCrashkGo h c
  | .registerWrite c n v => good_execRegisterWrite h c n v
  | .doorbell p => good_execDoorbell h p
  | .hostWindowAccess p q => good_execHostWindowAccess h p q
  | .tdispMessage p q => good_execTdispMessage h p q
  | .getVersion fn req => good_execGetVersion h fn req
  | .getCapabilities fn req => good_execGetCapabilities h fn req
  | .negotiateAlgorithms fn req => good_execNegotiateAlgorithms h fn req
  | .getDigests fn req => good_execGetDigests h fn req
  | .getCertificate fn req => good_execGetCertificate h fn req
  | .challenge fn req => good_execChallenge h fn req
  | .getMeasurements fn req => good_execGetMeasurements h fn req
  | .keyExchange fn req => good_execKeyExchange h fn req
  | .finish fn req => good_execFinish h fn req
  | .keyUpdate tgt => good_execKeyUpdate h tgt
  | .endSession fn req => good_execEndSession h fn req
  | .flitReceive l f => good_execFlitReceive h l f
  | .linkDown l => good_execLinkDown h l
  | .storageDma q => good_execStorageDma h q
  | .deviceBoot => good_execDeviceBoot h
  | .partitionCreate p cfg => good_execPartitionCreate h p cfg
  | .partitionDestroy p => good_execPartitionDestroy h p
  | .illegalWord w => good_execIllegalWord h w
  | .instructionFetchFault cause tval => good_execInstructionFetchFault h cause tval
  | .linkRetrain l => good_execLinkRetrain h l
  | .thermalCool d cl => good_execThermalCool h d cl
  | .droopEvent d cl => good_execDroopEvent h d cl

/-! ### Turns -/

/-- Both outcomes of a core's look at its turn are in order. -/
def NextGood (b : Bool) : CoreNext → Prop
  | .idle s | .run _ s => Good b s

theorem nextGood_idle : NextGood ib (.idle s) ↔ Good ib s := Iff.rfl
theorem nextGood_run (i : Instr) : NextGood ib (.run i s) ↔ Good ib s := Iff.rfl

theorem OptGood.getD {o : Option State} (h : OptGood ib o) (hs : Good ib s) : Good ib (o.getD s) := by
  cases o with
  | none => exact hs
  | some t => exact h

theorem good_coreNext (h : Good ib s) : NextGood ib (coreNext s) := by
  have hc := good_crashTurn h
  have hf := good_fetchAt h s.cur
  have hs : Good ib (s.updMe (coreStop .stopped)) := h.updMe (h.meOk.coreStop _)
  have hd : Good ib (takeTrap (s.updMe fun c => { c with dbgstop := false }) s.cur .s cDBGSTOP false 0 s.me.pc) :=
    good_takeTrap (h.updMe h.meOk) h.meOk.pc _ _ _ _ _
  unfold coreNext
  dsimp only
  split <;> grind only [= nextGood_idle, = nextGood_run, OptGood.of_some, MGood.of_ok, OptGood.getD]

theorem good_coreTurn (h : Good ib s) : OutGood ib (coreTurn s) := by
  have hn := good_coreNext h
  unfold coreTurn
  split
  · next he => exact (he ▸ hn : NextGood ib (.idle _))
  · next he => exact good_exec (he ▸ hn : NextGood ib (.run _ _)) _

theorem good_runNode (h : Good ib s) (n : Site) : OutGood ib (runNode s n) := by
  unfold runNode
  split
  · exact good_exec (s := { s with site := n }) h _
  · exact h

theorem good_fireTurn (h : Good ib s) (n : Site) : OutGood ib (fireTurn s n) := by
  unfold fireTurn
  split
  · exact h
  · exact good_runNode h n

theorem good_eventTurn (h : Good ib s) (i : Instr) : OutGood ib (eventTurn s i) := by
  unfold eventTurn
  split
  · exact h
  · exact good_exec h i

theorem good_runTurn (h : Good ib s) (t : Turn) : OutGood ib (runTurn s t) := by
  cases t with
  | core c => exact good_coreTurn (s := { s with cur := c }) h
  | fire n => exact good_fireTurn h n
  | event i => exact good_eventTurn h i

/-! ### Steps -/

theorem good_step (h : Good ib s) : OutGood ib (step s) := by
  unfold step
  split
  · split
    · exact good_coreTurn (good_tick h)
    · exact good_exec (good_tick h) _
  · next t rest _ =>
    have ha : Good ib { s with agenda := rest } := h
    exact good_runTurn (good_tick ha) t

/-- Settles O59: `Good` is kept by every instruction and by every turn; its two halves are the statement's. -/
theorem everyStepKeepsTheMemoryCanonical : Obligations.EveryStepKeepsTheMemoryCanonical := by
  intro s t hst
  have hg {b : Bool} (h : Good b s) : Good b t := OutGood.of_next (hst ▸ good_step h)
  exact ⟨fun h => good_true_iff.mp (hg (good_true_iff.mpr h)), fun h => good_false_iff.mp (hg (good_false_iff.mpr h))⟩

end Sys2Proof.Machine
end
